-- ==== Sys2Proof/Word.lean ====
section
/-! DEFINITION. The data units of R3 and R4 and the plainest arithmetic on them. -/

namespace Sys2Proof

/-- 64 bits, the memory granule and the scalar register width (R4). -/
abbrev Word := BitVec 64
/-- 8 bits, the unit of addressing (R4). -/
abbrev Byte := BitVec 8
/-- 16 bits of the instruction stream (R4). -/
abbrev Parcel := BitVec 16
/-- A vector register (R17). -/
abbrev Vec := BitVec 128
/-- A hypervector (R287). -/
abbrev Hv := BitVec 4096

/-- Bits lo to lo + n - 1 of a word. -/
abbrev bits {w : Nat} (x : BitVec w) (lo n : Nat) : BitVec n := x.extractLsb' lo n

/-- x with the n bits from lo replaced by the low n bits of y. -/
def putBits {w : Nat} (x : BitVec w) (lo n : Nat) (y : Nat) : BitVec w :=
  let mask : BitVec w := BitVec.ofNat w ((2 ^ n - 1) * 2 ^ lo)
  (x &&& ~~~mask) ||| (BitVec.ofNat w ((y % 2 ^ n) * 2 ^ lo))

end Sys2Proof
end

