-- ==== Sys2Proof/Machine/Cells.lean ====
section
/-! DEFINITION. Sparse maps from a number to a value, as lists of pairs with strictly rising keys.
Memory is such a list of bytes (Host.Cell) in one canonical form: no entry holds what an unlisted
address reads as. -/

namespace Sys2Proof.Machine

/-- Pairs of a key and a value. -/
abbrev Cells (α : Type) := List (Nat × α)

/-- The value listed for k. -/
def Cells.find {α : Type} : Cells α → Nat → Option α
  | [], _ => none
  | (j, v) :: r, k => if j = k then some v else Cells.find r k

/-- The value listed for k, or d. -/
def Cells.getD {α : Type} (m : Cells α) (k : Nat) (d : α) : α :=
  (Cells.find m k).getD d

/-- m without an entry for k. -/
def Cells.erase {α : Type} : Cells α → Nat → Cells α
  | [], _ => []
  | (j, v) :: r, k => if j = k then Cells.erase r k else (j, v) :: Cells.erase r k

/-- The entry (k, v) placed before the first larger key. -/
def Cells.place {α : Type} : Cells α → Nat → α → Cells α
  | [], k, v => [(k, v)]
  | (j, w) :: r, k, v => if k < j then (k, v) :: (j, w) :: r else (j, w) :: Cells.place r k v

/-- m with v at k, always listed. -/
def Cells.put {α : Type} (m : Cells α) (k : Nat) (v : α) : Cells α :=
  Cells.place (Cells.erase m k) k v

/-- m with v at k, where an unlisted key reads as d: writing d removes the entry. -/
def Cells.putD {α : Type} [DecidableEq α] (d : α) (m : Cells α) (k : Nat) (v : α) : Cells α :=
  if v = d then Cells.erase m k else Cells.place (Cells.erase m k) k v

/-- The keys rise strictly from above lo, and no value is d. -/
def Cells.wfFrom {α : Type} [DecidableEq α] (d : α) : Nat → Cells α → Bool
  | _, [] => true
  | lo, (j, v) :: r => decide (lo ≤ j) && decide (v ≠ d) && Cells.wfFrom d (j + 1) r

/-- The canonical form of a sparse map whose unlisted keys read as d. -/
def Cells.wf {α : Type} [DecidableEq α] (d : α) (m : Cells α) : Bool := Cells.wfFrom d 0 m

/-- The map without the entries whose key satisfies p. -/
def Cells.drop {α : Type} : Cells α → (Nat → Bool) → Cells α
  | [], _ => []
  | (j, v) :: r, p => if p j then Cells.drop r p else (j, v) :: Cells.drop r p

end Sys2Proof.Machine
end

