-- ==== Sys2Proof/Syntax.lean ====
section
/-! DEFINITION. The instructions and events of spec/opcode_table.json, one constructor a row.
The first group has encodings (R158 to R168); the second group holds the rows that name a step of the
part which no parcel encodes. -/

namespace Sys2Proof

/-- A scalar register field, s0 to s31 (R162). -/
abbrev SReg := BitVec 5
/-- A vector register field, v0 to v15 (R162). -/
abbrev VReg := BitVec 4
/-- A branch target field, b0 to b3 (R162). -/
abbrev BReg := BitVec 2
/-- An accumulator field, a0 or a1 (R162). -/
abbrev AReg := BitVec 1
/-- A hypervector field, h0 to h3 (R162). -/
abbrev HReg := BitVec 2
/-- A queue register or descriptor register field (R162). -/
abbrev QReg := BitVec 3
/-- A physical core number (R18). -/
abbrev CoreId := BitVec 18

/-- Branch and compare conditions (R165). -/
inductive Cond where
  | eq | ne | lt | ge | ltu | geu | any | none
  deriving DecidableEq, Repr

/-- Scopes (R111). -/
inductive Scope where
  | core | cluster | block | die | module | system
  deriving DecidableEq, Repr

/-- Address spaces with the codes of the tensor map (R101, R223). -/
inductive Space where
  | global | scratch | tcm
  deriving DecidableEq, Repr

/-- Orderings of an atomic (R120). -/
inductive AOrd where
  | relaxed | acquire | release | acqrel
  deriving DecidableEq, Repr

/-- Operations of an atomic (R221). -/
inductive AmoOp where
  | add | min | max | and | or | xor | swp | cas
  deriving DecidableEq, Repr

/-- Load sizes and extensions (R219). -/
inductive LdSize where
  | n8 | n16 | n32 | b8 | i8 | i16 | i32
  deriving DecidableEq, Repr

/-- Access sizes of 1, 2, 4 or 8 bytes (R219, R220). -/
inductive MemSize where
  | n8 | n16 | n32 | b8
  deriving DecidableEq, Repr

/-- Sync modes (R90). -/
inductive SyncMode where
  | plain | rfull | rfempty | wefill | wfill | wempty
  deriving DecidableEq, Repr

/-- Prefetch kinds (R229). -/
inductive PfKind where
  | read | write | llc
  deriving DecidableEq, Repr

/-- Element types of vector instructions (R102, R237). -/
inductive Et where
  | n8 | n16 | n32 | n64 | i8 | i16 | i32 | i64 | f32 | bf16 | f16 | e4m3 | e5m2 | e2m1
  deriving DecidableEq, Repr

/-- Reductions of `vred` (R248). -/
inductive RedOp where
  | add | min | max
  deriving DecidableEq, Repr

/-- Relations of `vcmp` (R243). -/
inductive VRel where
  | eq | ne | lt | ge | le | gt | un
  deriving DecidableEq, Repr

/-- Functions of the SFU (R251). -/
inductive SfuFn where
  | exp2 | log2 | rcp | rsqrt | sqrt
  deriving DecidableEq, Repr

/-- Targets of `hld`, `hst` and `hclr` (R293, R296). -/
inductive HTarget where
  | h0 | h1 | h2 | h3 | ht | k
  deriving DecidableEq, Repr

/-- What a bring-up finds and what the micro-kernel writes in it, which the spec leaves to them (R449): the cores and the ports that fail,
k.tvec, the supervisor vector entries of types 0x00 to 0x1F, and the machine-check ring of each die. -/
structure Bringup where
  cores : List (BitVec 18)
  ports : List (BitVec 5)
  tvec : BitVec 56
  vectors : List (BitVec 64)
  rings : List (BitVec 56 × BitVec 16)
  deriving DecidableEq, Repr

/-- A bring-up in which nothing fails and the micro-kernel has written nothing yet. -/
def Bringup.reset : Bringup := { cores := [], ports := [], tvec := 0, vectors := [], rings := [] }

/-- The instruction forms and the events of the part. -/
inductive Instr where
  -- major 0x00 (R186)
  | add (d a b : SReg)
  | sub (d a b : SReg)
  | mul (d a b : SReg)
  | mulh (d a b : SReg)
  | mulhu (d a b : SReg)
  | min (d a b : SReg)
  | max (d a b : SReg)
  | minu (d a b : SReg)
  | maxu (d a b : SReg)
  -- major 0x01 (R187)
  | div (d a b : SReg)
  | divu (d a b : SReg)
  | rem (d a b : SReg)
  | remu (d a b : SReg)
  -- major 0x02 (R189)
  | and (d a b : SReg)
  | or (d a b : SReg)
  | xor (d a b : SReg)
  | andn (d a b : SReg)
  -- major 0x03 (R190)
  | shl (d a b : SReg)
  | shr (d a b : SReg)
  | sar (d a b : SReg)
  | rot (d a b : SReg)
  -- major 0x04 (R191)
  | clz (d a : SReg)
  | ctz (d a : SReg)
  | pop (d a : SReg)
  -- major 0x05 (R192, R193)
  | cmp (d a b : SReg) (c : Cond)
  | sel (d a b c : SReg)
  -- major 0x06 (R194)
  | bext (d a : SReg) (pos lenm1 : BitVec 6)
  | bexts (d a : SReg) (pos lenm1 : BitVec 6)
  | bins (d a : SReg) (pos lenm1 : BitVec 6)
  -- major 0x07 (R195)
  | gaddr (d a b : SReg)
  -- majors 0x0C to 0x13 (R197 to R201)
  | addImmediate (d a : SReg) (imm : BitVec 14)
  | andImmediate (d a : SReg) (imm : BitVec 14)
  | orImmediate (d a : SReg) (imm : BitVec 14)
  | xorImmediate (d a : SReg) (imm : BitVec 14)
  | shlImmediate (d a : SReg) (u : BitVec 6)
  | shrImmediate (d a : SReg) (u : BitVec 6)
  | sarImmediate (d a : SReg) (u : BitVec 6)
  | rotImmediate (d a : SReg) (u : BitVec 6)
  | li (d : SReg) (imm : BitVec 19)
  | movh (d : SReg) (h : BitVec 2) (imm : BitVec 16)
  | cmpImmediate (d a : SReg) (c : Cond) (imm : BitVec 11)
  -- majors 0x14 to 0x18 (R203 to R206)
  | bCond (d a : SReg) (c : Cond) (off : BitVec 11)
  | b (off : BitVec 24)
  | call (off : BitVec 24)
  | ret
  | jbt (b : BReg)
  | jbtCond (d a : SReg) (b : BReg) (c : Cond)
  | callb (b : BReg)
  | getb (d : SReg) (b : BReg)
  | setb (a : SReg) (b : BReg)
  | pbt (b : BReg) (off : BitVec 19)
  -- major 0x19 (R209 to R214)
  | swform (d a b : SReg)
  | swleave
  | swjoin
  -- majors 0x1C to 0x21 (R219)
  | ldT (d a : SReg) (z : LdSize) (off : BitVec 11)
  | stT (d a : SReg) (z : MemSize) (off : BitVec 11)
  | ldC (d a : SReg) (z : LdSize) (off : BitVec 11)
  | stC (d a : SReg) (z : MemSize) (off : BitVec 11)
  | ld (d a : SReg) (z : LdSize) (off : BitVec 11)
  | st (d a : SReg) (z : MemSize) (off : BitVec 11)
  -- majors 0x22 to 0x25 (R220 to R232)
  | ldAcq (d a : SReg) (z : MemSize) (sp : Space) (sc : Scope)
  | stRel (a b : SReg) (z : MemSize) (sp : Space) (sc : Scope)
  | amo (d a b : SReg) (scratch : Bool) (sc : Scope) (o : AOrd) (op : AmoOp)
  | ldq (q : QReg) (a : SReg) (tag : BitVec 3) (sp : Space) (m : SyncMode) (sc : Scope)
  | feFill (a b : SReg) (sp : Space) (m : SyncMode) (sc : Scope)
  | feEmpty (a b : SReg) (sp : Space) (sc : Scope)
  | feTest (d a : SReg) (sp : Space)
  | fence (visible : Bool) (sc : Scope)
  | pf (a : SReg) (k : PfKind)
  | rreq (d : SReg) (x : QReg) (sprio : BitVec 3) (stype : BitVec 8)
  -- major 0x26 (R240)
  | vaddInt (d a b : VReg) (e : BitVec 3)
  | vsubInt (d a b : VReg) (e : BitVec 3)
  | vadds (d a b : VReg) (e : BitVec 3)
  | vsubs (d a b : VReg) (e : BitVec 3)
  | vmulInt (d a b : VReg) (e : BitVec 3)
  | vmulh (d a b : VReg) (e : BitVec 3)
  | vshl (d a b : VReg) (e : BitVec 3)
  | vshr (d a b : VReg) (e : BitVec 3)
  | vand (d a b : VReg) (e : BitVec 3)
  | vor (d a b : VReg) (e : BitVec 3)
  | vxor (d a b : VReg) (e : BitVec 3)
  | vandn (d a b : VReg) (e : BitVec 3)
  -- major 0x27 (R241)
  | vaddFp (d a b : VReg) (sr : Bool) (e : Et)
  | vsubFp (d a b : VReg) (sr : Bool) (e : Et)
  | vmulFp (d a b : VReg) (sr : Bool) (e : Et)
  | vfma (d a b : VReg) (sr : Bool) (e : Et)
  | vfnma (d a b : VReg) (sr : Bool) (e : Et)
  | vabs (d a : VReg) (e : Et)
  | vneg (d a : VReg) (e : Et)
  -- major 0x28 (R242, R243)
  | vmin (d a b : VReg) (e : Et)
  | vmax (d a b : VReg) (e : Et)
  | vcmp (d a b : VReg) (c : VRel) (e : Et)
  | vsel (d a b : VReg)
  -- major 0x29 (R244)
  | vshuf (d a b : VReg)
  | vbcastScalar (d : VReg) (a : SReg) (e : Et)
  | vbcastLane (d a : VReg) (lane : BitVec 5) (e : Et)
  | vins (d : VReg) (a : SReg) (lane : BitVec 5) (e : Et)
  | vext (d : SReg) (a : VReg) (lane : BitVec 5) (e : Et)
  -- majors 0x2A to 0x2C (R245 to R252)
  | vcvt (d a : VReg) (part : BitVec 3) (dt st : Et) (opt : Bool)
  | vred (d : SReg) (a : VReg) (r : RedOp) (e : Et)
  | vdot (d a b : VReg) (e : Et)
  | vsmrg (d a b : VReg)
  | vsfu (d a : VReg) (f : SfuFn)
  -- majors 0x2D, 0x2E (R256)
  | vld (d : VReg) (a : SReg) (sp : Space) (half : Bool) (off : BitVec 11)
  | vst (d : VReg) (a : SReg) (sp : Space) (half : Bool) (off : BitVec 11)
  -- majors 0x30 to 0x35 (R268 to R285)
  | mfmt (a : SReg)
  | mzero (d : AReg)
  | maccToVector (d : VReg) (a : AReg) (r : BitVec 3) (h : Bool)
  | maccToAccumulator (d : AReg) (a : VReg) (r : BitVec 3) (h : Bool)
  | mmul (d : AReg) (a b : SReg) (k : BitVec 6)
  | mmulL (d : AReg) (a : SReg) (k : BitVec 6)
  | mmulSp (d : AReg) (a b : SReg) (k : BitVec 6)
  | mmulSpL (d : AReg) (a : SReg) (k : BitVec 6)
  | mcb (d : AReg) (a b : SReg) (k : BitVec 6)
  | mcbL (d : AReg) (a : SReg) (k : BitVec 6)
  | mbl (a : SReg) (k : BitVec 6)
  | mring
  | mpass (d : SReg) (x : QReg) (sprio : BitVec 3) (stype : BitVec 8)
  | mepi (d : AReg) (a b : SReg)
  | mepiResume (n : BitVec 1)
  | mepiDrop (n : BitVec 1)
  -- majors 0x36 to 0x39 (R293 to R300)
  | hld (t : HTarget) (a : SReg) (sp : Space)
  | hst (t : HTarget) (a : SReg) (sp : Space)
  | hbind (d a b : HReg)
  | hpermRegister (d a : HReg) (b : SReg)
  | hpermImmediate (d a : HReg) (n : BitVec 12)
  | hbund (a : HReg)
  | hclr (t : HTarget)
  | hthr (d : HReg)
  | htie (a : HReg)
  | hdist (d : SReg) (a b : HReg)
  | hpop (d : SReg) (a : HReg)
  | hrcl (d : SReg) (a : HReg) (b : SReg)
  -- major 0x3A (R306 to R313)
  | done
  | armRegister (a : SReg)
  | armImmediate (t : BitVec 8)
  | disarmRegister (a : SReg)
  | disarmImmediate (t : BitVec 8)
  | ptest (d a : SReg)
  | ptestW (d a : SReg)
  | estat (d : SReg)
  | claim (n : BitVec 4)
  | unclaim (n : BitVec 4)
  | rng (d : SReg)
  | tick (d : SReg)
  -- major 0x3B (R314 to R318)
  | send (d a b : SReg)
  | shape (d : SReg)
  | ralloc (d a b : SReg)
  | rtrim (a b : SReg)
  -- majors 0x3C, 0x3D (R319 to R327)
  | copy (d : SReg) (x y : QReg) (sprio : BitVec 3) (stype : BitVec 8)
  | cpst (d : SReg) (x y : QReg) (sprio : BitVec 3) (stype : BitVec 8)
  | walk (d : SReg) (x : QReg) (sprio : BitVec 3) (stype : BitVec 8)
  | barv (d : SReg) (x : QReg) (sprio : BitVec 3) (stype : BitVec 8)
  | launch (d : SReg) (x : QReg) (sprio : BitVec 3) (stype : BitVec 8)
  | enc (d : SReg) (x : QReg) (sprio : BitVec 3) (stype : BitVec 8)
  -- major 0x3E (R351)
  | trap (n : BitVec 9)
  | tret
  | tretEnd
  | sget (d : SReg) (k : BitVec 9)
  | sset (a : SReg) (k : BitVec 9)
  | fsave (d a : SReg)
  | fload (d a : SReg)
  | plbw (d a : SReg) (n : BitVec 4)
  | plbi (n : BitVec 4)
  | plbiAll
  | remap (d a : SReg)
  | mcancel (d a : SReg) (sp : Space)
  | pginv (d a : SReg) (z : BitVec 2)
  | icinv
  | idle
  -- compact forms (R166)
  | compactMov (x y : SReg)
  | compactAdd (x y : SReg)
  | compactSub (x y : SReg)
  | compactAnd (x y : SReg)
  | compactOr (x y : SReg)
  | compactXor (x y : SReg)
  | compactShl (x y : SReg)
  | compactShr (x y : SReg)
  | compactSar (x y : SReg)
  | compactMul (x y : SReg)
  | compactMin (x y : SReg)
  | compactMax (x y : SReg)
  | compactAndn (x y : SReg)
  | compactLdT (x y : SReg)
  | compactStT (x y : SReg)
  | compactLd (x y : SReg)
  | compactLi (x : SReg) (i : BitVec 5)
  | compactAddImmediate (x : SReg) (i : BitVec 5)
  | compactShlImmediate (x : SReg) (u : BitVec 5)
  | compactShrImmediate (x : SReg) (u : BitVec 5)
  | compactSarImmediate (x : SReg) (u : BitVec 5)
  | compactAndImmediate (x : SReg) (i : BitVec 5)
  | compactLdTFrame (x : SReg) (u : BitVec 5)
  | compactStTFrame (x : SReg) (u : BitVec 5)
  | compactLdTAbsolute (x : SReg) (u : BitVec 5)
  | compactStTAbsolute (x : SReg) (u : BitVec 5)
  | compactBEq (x : SReg) (i : BitVec 5)
  | compactBNe (x : SReg) (i : BitVec 5)
  | compactRotImmediate (x : SReg) (u : BitVec 5)
  | compactXorImmediate (x : SReg) (i : BitVec 5)
  | compactLdC (x : SReg) (u : BitVec 5)
  | compactStC (x : SReg) (u : BitVec 5)
  | compactDone
  | compactRet
  | compactJbt (b : BReg)
  | compactPop (x y : SReg)
  | compactSgetLid (x : SReg)
  | compactTick (x : SReg)
  | compactRng (x : SReg)
  | compactSwjoin
  | compactSwleave
  | compactClz (x y : SReg)
  | compactCtz (x y : SReg)
  | compactClaim (n : BitVec 4)
  | compactUnclaim (n : BitVec 4)
  | compactSt (x y : SReg)
  | compactFence (visible : Bool) (sc : Scope)
  | compactNeg (x y : SReg)
  -- events of a core and of the task model
  | illegalInstruction (addr : Word)
  | fetchFault (cause : BitVec 5) (addr : Word)
  | arrivalAccept (n : CoreId)
  | stallWatchdog (n : CoreId) (cc : BitVec 40)
  | supervisorRunLimit (n : CoreId) (cc : BitVec 16)
  | swarmJoinTimeout (n : CoreId)
  | swarmDetach (n : CoreId)
  -- events of the fabric and the weir
  | dieEntryResolve (k : BitVec 16)
  | movedRedirect (n : CoreId)
  | weirRefill (k : BitVec 16)
  | weirFullReply (n : CoreId)
  | weirSpaceReply (n : CoreId)
  -- events of memory
  | storeBufferDrain (n : CoreId)
  | syncAccessAtOwner (n : CoreId)
  | ldqEntryDeliver (n : CoreId)
  | atomicReply (n : CoreId)
  | pageRefill (cl : BitVec 14)
  | pageWalk (die : BitVec 4) (va : BitVec 56)
  | gatedReply (n : CoreId)
  -- events of the engines
  | remoteRequestPerform (n : CoreId)
  | remoteRequestComplete (n : CoreId) (status : BitVec 2) (data : List Word)
  | copyEngineRun (n : CoreId)
  | streamEntryAppend (n : CoreId)
  | matrixCommandPerform (n : CoreId)
  | latchTake (n : CoreId)
  | ringHandoff (n : CoreId)
  | latchWaitTimeout (n : CoreId) (cc : BitVec 40)
  | mpassRun (n : CoreId)
  | sfuAccept (cl : BitVec 14)
  | sfuLand (n : CoreId)
  | channelEntrySend (n : CoreId) (q : QReg)
  | channelEntryArrive (k : BitVec 16)
  | allowanceReturn (n : CoreId) (q : QReg)
  -- events of launch and scheduling
  | launchFrontEndCheck (sector : BitVec 6)
  | dispenserRound (blk : BitVec 10)
  | stageRelease (l : BitVec 32)
  | unbind (l : BitVec 32)
  | tileWalkerRun (blk : BitVec 10) (tile : BitVec 32) (lid : CoreId)
  | barrierArrive (n : CoreId)
  | gangBarrierNotice (sector : BitVec 6)
  | shapeResolve (l : BitVec 32)
  | allocationService (sector : BitVec 6)
  | periodRelease (n : CoreId)
  | budgetOverrun (n : CoreId) (idx : BitVec 3) (rt : BitVec 32)
  | pacerRelease (die : BitVec 4)
  | loadExchange (n : CoreId)
  | loadFigure (n : CoreId)
  -- events of translation, the fabric's controllers and the host
  | pginvComplete (n : CoreId)
  | pageMigration (p p2 : BitVec 24)
  | oldHomeForward (n : CoreId)
  | forwardCredit (k : BitVec 16)
  | acknowledgement (n : CoreId)
  | hostMemAccess (ld : BitVec 4) (off : BitVec 56) (write : Bool) (data : Word)
  | doorbell (ld : BitVec 4) (w : BitVec 6) (tail : BitVec 16)
  | hostRequestTake (ld : BitVec 4) (w : BitVec 6)
  | rcbWindowGo
  -- events of the management space, power and errors
  | keySlotCommit (bay : BitVec 4) (slot : BitVec 8)
  | dividerWrite (cl : BitVec 14) (data : Word)
  | powerSwitchWrite (cl : BitVec 14) (data : Word)
  | scratchpadGateRequest (cl : BitVec 14)
  | clusterGateRequest (cl : BitVec 14)
  | gateDrainComplete (cl : BitVec 14)
  | gateWake (cl : BitVec 14) (data : Word)
  | wakeComplete (cl : BitVec 14)
  | coreReset (cl : BitVec 14) (data : Word)
  | pacerEnable (die : BitVec 4) (data : Word)
  | mgmtRegisterWrite (va : BitVec 56) (data : Word)
  | thermalNotify (n : CoreId) (temp : BitVec 8)
  | sramRailWindow (cl : BitVec 14) (corrected uncorrected : BitVec 32)
  | logicRailLower (cl : BitVec 14)
  | timingReplay (n : CoreId) (second : Bool)
  | coreCheck (n : CoreId)
  | evictionError (pa : BitVec 52) (dom : BitVec 16)
  | icacheParityError (n : CoreId) (va : BitVec 56)
  | linkRetransmit (port : BitVec 5)
  | settleFlit (port : BitVec 5) (flit : BitVec 256)
  -- events of the encoders
  | encQueueAccept (n : CoreId)
  | encJobStart (die : BitVec 4)
  | encRowReady (die : BitVec 4)
  | encRowTimeout (die : BitVec 4) (rt : BitVec 32)
  | encUnitWrite (die : BitVec 4)
  -- reset and links
  | moduleReset
  | linkRetrain (port : BitVec 5) (lanes : BitVec 8) (speed : BitVec 2)
  | armedFlagRearm (n : CoreId) (temp : BitVec 8)
  deriving DecidableEq, Repr

end Sys2Proof
end

