-- ==== Sys2Proof/Machine/State.lean ====
section
/-! DEFINITION. The state of one module as plain data: every core, cluster, block, sector, die, port and
the module's memory, and the machine right after reset and bring-up (R449). -/

namespace Sys2Proof.Machine

/-- Bytes by address, in canonical form over a byte that reads as zero when unlisted. -/
abbrev Memory := List Host.Cell

/-- The byte an unlisted address reads as: reset writes zero everywhere (R89, R449 step 2). -/
def Memory.absent : Byte := 0

/-- The canonical form: addresses strictly rising, no listed byte is the absent byte. -/
def Memory.wf (m : Memory) : Bool := Cells.wf Memory.absent m

/-- A region, named by the address of its RCB (R363). -/
abbrev Region := BitVec 56

/-! ## Work of a task -/

/-- The launch or walk instance a frame or an arrival belongs to (R316). -/
structure Inst where
  /-- number of the launch or walk in State.launches or State.walks -/
  id : Nat
  /-- 1 when the instance belongs to a walk -/
  walk : Bool
  /-- instance index -/
  index : BitVec 32
  /-- not yet firm (R326) -/
  tentative : Bool
  deriving DecidableEq, Repr

/-- A message: its header (R305) and its payload words. -/
structure Msg where
  hdr : Word
  payload : List Word
  deriving DecidableEq, Repr

/-- An arrival at a core: a message with what the part keeps beside it. -/
structure Arr where
  msg : Msg
  inst : Option Inst
  /-- index of the contract whose activation it is (R375) -/
  contract : Option (BitVec 3)
  /-- sender module (R23), for handbacks to it -/
  srcMod : BitVec 16
  /-- a type-0x0B arrival: frame class of the record it names (R53) -/
  resume : Option (BitVec 3)
  /-- its handler's start is an acquire beyond the die, whatever die its source is on (R125, R128) -/
  far : Bool
  deriving DecidableEq, Repr

/-- A claim: the resource and the threshold to restore (R48). -/
structure Claim where
  res : BitVec 4
  saved : BitVec 4
  deriving DecidableEq, Repr

/-- An access of a frame to a queue register, which the instruction table does not encode (R97): it waits while it stalls (R60). -/
structure QueueOp where
  write : Bool
  q : QReg
  v : VReg
  deriving DecidableEq, Repr

/-- What the part holds per level: the scalar window, the shadow bank, and the frame record (R17, R39). -/
structure Bank where
  s : Vector Word 32
  v : Vector Vec 16
  /-- a0 and a1: element 8i + j is elem(i, j) (R258) -/
  acc : Vector (Vector (BitVec 32) 64) 2
  /-- format context (R259) -/
  mctx : Word
  /-- vector registers that wait for an SFU result (R253) -/
  vpend : BitVec 16
  /-- scalar registers that wait for the reply of an atomic, ralloc or rtrim (R222, R318) -/
  spend : BitVec 32
  /-- a frame stands at this level -/
  live : Bool
  fclass : BitVec 3
  mtype : Byte
  /-- s1 at the frame's start -/
  fbase : BitVec 16
  /-- resume address while interrupted -/
  rpc : BitVec 56
  /-- saved threshold while interrupted (R37) -/
  rthresh : BitVec 4
  /-- saved branch targets while interrupted (R37) -/
  rb : Vector Word 4
  /-- claims, newest first (R48) -/
  claims : List Claim
  inst : Option Inst
  contract : Option (BitVec 3)
  /-- a squash reaches the frame at its next boundary (R54) -/
  squash : Bool
  /-- the frame parks at its next boundary, for a store of an engine beyond the quota (R285) -/
  parkDue : Bool
  /-- the access to a queue register in which the frame is stalled: it re-executes whenever the frame runs (R60) -/
  queueOp : Option QueueOp
  /-- the frame's `fence` waits for acknowledgements (R132) -/
  fencing : Bool
  deriving DecidableEq, Repr

/-- One entry of a queue register with the sender to whom its allowance returns (R97). -/
structure QEnt where
  data : Vec
  src : Option (CoreId × QReg)
  /-- scope at which its read is an acquire, for a sync read of mode 1 or 2 (R128) -/
  scope : Option Scope
  deriving DecidableEq, Repr

/-- A queue register (R96) with the peer its channel was programmed to (R366). -/
structure QueueReg where
  kind : BitVec 2
  level : BitVec 3
  chan : BitVec 5
  allow : Byte
  entries : List QEnt
  /-- entries reserved by ldq (R225) -/
  resv : Nat
  /-- kind 2: receiving LID and its register -/
  peer : CoreId
  peerQ : QReg
  deriving DecidableEq, Repr

/-- A PLB entry (R383). -/
structure PlbEntry where
  valid : Bool
  base : BitVec 40
  limit : BitVec 40
  r : Bool
  w : Bool
  x : Bool
  sonly : Bool
  deriving DecidableEq, Repr

/-- An entry of the store buffer (R217); a sync-mode write waits in it like a store (R226). -/
structure StoreEntry where
  space : Space
  /-- TCM offset, backing address of the scratchpad byte, or global virtual address -/
  va : Nat
  /-- physical address the translation named, for scratchpad and global space -/
  pa : Nat
  size : Nat
  data : Word
  /-- some mode: a sync-mode write -/
  mode : Option SyncMode
  tag : Nat
  dom : BitVec 16
  region : Option Region
  /-- scope of a sync-mode write -/
  scope : Scope
  deriving DecidableEq, Repr

/-- A sync read that has left the core and has not reached its owner (R224). -/
structure Flight where
  space : Space
  /-- the effective address -/
  ea : Nat
  /-- as in StoreEntry -/
  va : Nat
  pa : Nat
  mode : SyncMode
  q : QReg
  level : BitVec 3
  itag : BitVec 3
  scope : Scope
  tag : Nat
  dom : BitVec 16
  region : Option Region
  deriving DecidableEq, Repr

/-- An entry on its way from a word's owner to a queue register (R224). -/
structure Delivery where
  lid : CoreId
  q : QReg
  entry : Vec
  /-- scope at which the read of the entry is an acquire (R128) -/
  scope : Option Scope
  deriving DecidableEq, Repr

/-- The reply of an atomic or of an allocation, on its way to a window (R222, R318). -/
structure Reply where
  id : Nat
  level : BitVec 3
  /-- the destination in the window of the level -/
  d : SReg
  /-- address of the instruction -/
  epc : BitVec 56
  /-- none while the request is not yet performed -/
  value : Option Word
  /-- trap found by the reply -/
  trap : Option (BitVec 5 × Word)
  /-- k.addr of a poison trap: the address of an atomic's word (R216) -/
  trapAddr : Word
  /-- scope at which the return of the result is an acquire (R120) -/
  acquire : Option Scope
  /-- the reply of an atomic, and not of an allocation -/
  amo : Bool
  /-- its frame has ended: nothing is written and no trap is taken, but later accesses still wait for the atomic (R113, R120) -/
  voided : Bool
  deriving DecidableEq, Repr

/-- An SFU request in a level's latch slot (R251 to R254). -/
structure SfuReq where
  level : BitVec 3
  d : VReg
  fn : SfuFn
  x : Vec
  /-- the cluster whose SFU serves it (R440) -/
  cluster : BitVec 14
  accepted : Bool
  voided : Bool
  deriving DecidableEq, Repr

/-- A successor (R58, R302): type, priority and destination word. -/
structure Succ where
  stype : Byte
  sprio : BitVec 3
  dest : Word
  deriving DecidableEq, Repr

/-- One dimension of a tensor map (R101): stride in bytes, extent minus 1 and box minus 1. -/
structure Dim where
  stride : Int
  extent : Nat
  box : Nat
  deriving DecidableEq, Repr

/-- A tensor map as an engine read it (R104). -/
structure TMap where
  base : BitVec 56
  space : Space
  efmt : BitVec 4
  pad : BitVec 2
  padval : BitVec 32
  dims : List Dim
  deriving DecidableEq, Repr

/-- Who issued a command, and with which rights (R384, R321). -/
structure Issuer where
  core : CoreId
  lid : CoreId
  level : BitVec 3
  dom : BitVec 16
  fbase : BitVec 16
  fsize : Nat
  inst : Option Inst
  region : Option Region
  deriving DecidableEq, Repr

/-- A command of the copy engine: copy, or cpst when q is some register (R321, R322). -/
structure CopyCmd where
  by_ : Issuer
  succ : Succ
  src : TMap
  dst : TMap
  q : Option QReg
  /-- index of the first element to move -/
  start : Nat
  /-- next element -/
  next : Nat
  deriving DecidableEq, Repr

/-- How an A tile is held (R266). -/
inductive AKind where
  | dense | sparse | cb2
  deriving DecidableEq, Repr

/-- The routine of a matrix command (R261 to R284). -/
inductive MatOp where
  | fmt (mctx : Word)
  | zero (d : AReg)
  | moveIn (d : AReg) (x : Vec) (r : BitVec 3) (h : Bool)
  /-- pos and bad: the metadata of a sparse tile, and the first poisoned word of it, as read at acceptance (R270) -/
  | mul (k : AKind) (d : AReg) (a b : BitVec 16) (latch : Bool) (len : Nat) (mctx : Word) (pos : List (BitVec 4))
      (bad : Option Nat)
  | load (a : BitVec 16) (len : Nat) (mctx : Word)
  | ring
  | epi (d : AReg) (addr epi : Word) (mctx base : Word)
  | resume (n : BitVec 1)
  | drop (n : BitVec 1)
  | pass (succ : Succ) (a b c : TMap) (epi : Word) (ascale bscale : BitVec 56) (t0 : BitVec 32) (amx bmx : Bool)
      (base : Word)
  deriving DecidableEq, Repr

/-- A command of the matrix engine. -/
structure MatCmd where
  by_ : Issuer
  op : MatOp
  /-- cycles its latch wait has been counted (R273) -/
  waited : BitVec 41
  deriving DecidableEq, Repr

/-- A slot of the ring latch (R271). -/
structure LatchSlot where
  len : Nat
  bfmt : BitVec 4
  bmx : Bool
  bytes : List Byte
  deriving DecidableEq, Repr

/-- An epilogue buffer that is held (R280). -/
structure EpiBuf where
  by_ : Issuer
  /-- the 64 values, 8 rows of the row size, row by row -/
  bytes : List Byte
  addr : Word
  epi : Word
  /-- first store unit not stored -/
  next : Nat
  /-- handback withheld while the instance is tentative (R285) -/
  withheld : Bool
  deriving DecidableEq, Repr

/-- A remote request record (R231) after its checks. -/
structure RreqRec where
  lid : CoreId
  modu : BitVec 16
  toff : BitVec 16
  op : BitVec 4
  scope : Scope
  ord : BitVec 2
  aop : AmoOp
  loff : BitVec 16
  len : Nat
  mode : SyncMode
  operand : Word
  expect : Word
  deriving DecidableEq, Repr

/-- A walk record (R323) after its checks. -/
structure WalkRec where
  tmap : TMap
  itype : Byte
  iprio : BitVec 3
  lid0 : CoreId
  ncores : Nat
  tiles : Nat
  deriving DecidableEq, Repr

/-- A launch record (R325) after its checks. -/
structure LaunchRec where
  rcb : BitVec 56
  shapew : BitVec 56
  nmin : BitVec 32
  nmax : BitVec 32
  slot : BitVec 6
  policy : BitVec 2
  arg : Word
  deriving DecidableEq, Repr

/-- The command of the remote-request engine (R310). -/
inductive RemOp where
  | rreq (r : RreqRec)
  | walk (r : WalkRec)
  | barv (addr : Word)
  | launch (r : LaunchRec)
  | enc (off : Nat)
  deriving DecidableEq, Repr

/-- How far a remote command has come. -/
inductive RemPhase where
  /-- not yet performed -/
  | issued
  /-- taken at its target; it waits there or on another module -/
  | waiting
  /-- performed: data words and status (R233) -/
  | result (data : List Word) (status : BitVec 2)
  /-- refused with a cause and address: to be handed back -/
  | refusedWith (cause : BitVec 5) (addr : Word)
  deriving DecidableEq, Repr

/-- A command of the remote-request engine. -/
structure RemCmd where
  id : Nat
  by_ : Issuer
  succ : Succ
  op : RemOp
  phase : RemPhase
  tag : Nat
  /-- an `fsave` has passed it to its agent: it is no command of the core's queue any more (R352) -/
  passed : Bool
  deriving DecidableEq, Repr

/-- The fields of k.estat for one engine that are not derived from its queue (R310). -/
structure EStat where
  ended : Byte
  done : Bool
  fault : Bool
  deriving DecidableEq, Repr

/-- An instruction that a leader has retired and forwarded: its address, its parcels, and where the leader went on (R210,
R212). -/
structure Forwarded where
  at_ : BitVec 56
  p : Parcel
  q : Parcel
  next : BitVec 56
  /-- the outcome of a conditional branch -/
  taken : Bool
  deriving DecidableEq, Repr

/-- A membership of a swarm (R209). -/
structure Member where
  lead : CoreId
  n : BitVec 5
  level : BitVec 3
  ganged : Bool
  /-- the join point whose window is open (R210) -/
  joinAt : Option (BitVec 56)
  /-- of a ganged follower: what its leader has forwarded and it has not retired (R62), oldest first -/
  fwd : List Forwarded
  deriving DecidableEq, Repr

/-- A trap held for a frame or for the core (R348). -/
structure HeldTrap where
  level : BitVec 4
  cause : BitVec 5
  addr : Word
  /-- the instruction that raised it, for a trap found by a reply (R222) -/
  epc : Option (BitVec 56)
  deriving DecidableEq, Repr

/-- A contract of the stage bound to a core (R373). -/
structure Contract where
  idx : BitVec 3
  budget : BitVec 32
  period : BitVec 32
  deadline : BitVec 32
  prio : BitVec 3
  act : Bool
  src : BitVec 2
  ctype : Byte
  cfirst : BitVec 14
  ccount : BitVec 14
  deriving DecidableEq, Repr

/-- A budget counter (R376). -/
structure Budget where
  idx : BitVec 3
  count : Nat
  /-- the overrun of this period has been raised -/
  overrun : Bool
  /-- act 1: arrivals of ctype wait for the next period -/
  throttled : Bool
  deriving DecidableEq, Repr

/-- What binding leaves in a core, for a core reset (R367, R446). -/
structure Fresh where
  dom : BitVec 16
  vbase : BitVec 16
  slim : BitVec 16
  ceil : BitVec 48
  wdog : BitVec 40
  seed : Word
  sctr : Word
  d : Vector Word 8
  q : Vector QueueReg 8
  tcm : Memory
  deriving DecidableEq, Repr

/-- What binds a core to a stage (R367). -/
structure Binding where
  launch : Nat
  stage : Nat
  stageRcb : BitVec 56
  region : Region
  partition : BitVec 56
  /-- index of the core in the stage's core table -/
  idx : Nat
  contracts : List Contract
  fresh : Fresh
  /-- the micro-kernel has written the core's PLB entries (R367 step 6) -/
  plbDone : Bool
  deriving DecidableEq, Repr

/-- What travels: a message, or an entry of a channel (R98). -/
inductive Cargo where
  | message (a : Arr)
  | channel (e : QEnt) (q : QReg) (chan : BitVec 5)
  deriving DecidableEq, Repr

/-- What a dropped message owes its sender (R21, R320): the command, its successor and progress, and, where the command has made its
status step, the count of ended commands that the step left; else the number under which it is closing. -/
structure Owed where
  cmd : BitVec 4
  succ : Succ
  progress : Word
  ended : Option Byte
  /-- the command, among those of its core that are closing, whose status step the message's fate decides -/
  close : Option Nat
  deriving DecidableEq, Repr

/-- A message under way (R405). -/
structure Transit where
  cargo : Cargo
  /-- core whose outbound buffer holds it -/
  from_ : Option CoreId
  dstMod : BitVec 16
  dst : CoreId
  /-- taken back for a full weir ring (R409) -/
  held : Bool
  /-- tag to acknowledge -/
  tag : Option Nat
  /-- a handback owed when the destination is absent (R21) -/
  back : Option Owed
  /-- core that gets the handback -/
  owner : Option CoreId
  deriving DecidableEq, Repr

/-- A core (R17, R345). -/
structure Core where
  -- identity and supervisor registers (R345)
  lid : CoreId
  level : BitVec 4
  thresh : BitVec 4
  sp : BitVec 16
  slim : BitVec 16
  vbase : BitVec 16
  ceil : BitVec 48
  cause : BitVec 14
  epc : BitVec 56
  addr : Word
  dom : BitVec 16
  tvec : BitVec 56
  wdog : BitVec 40
  mig : Bool
  sscr : Word
  xcause : BitVec 5
  xepc : BitVec 56
  seed : Word
  sctr : Word
  hprog : BitVec 50
  hpc : BitVec 56
  -- program state
  pc : BitVec 56
  b : Vector Word 4
  banks : Vector Bank 8
  d : Vector Word 8
  q : Vector QueueReg 8
  h : Vector Hv 4
  ht : Hv
  /-- counter k[i] in bits 8i to 8i + 7 -/
  kcnt : BitVec 32768
  tcm : Memory
  /-- full-empty bits of TCM words by word number; unlisted is full -/
  tcmFe : Cells Bool
  /-- poisoned TCM words by word number (R262) -/
  tcmPoison : Cells Bool
  plb : Vector PlbEntry 16
  /-- the micro-kernel's entries of types 0x00 to 0x1F of the vector table, as last cleared from it (R367, R449) -/
  svec : Vector Word 32
  icache : Cells Parcel
  /-- entry buffer: for each level, the parcels of the line that starts the handler last started there (R360) -/
  entryBuf : Vector (Cells Parcel) 8
  /-- its locked lines (R360) -/
  locked : Cells Parcel
  -- accesses under way
  sbuf : List StoreEntry
  flight : List Flight
  deliver : List Delivery
  replies : List Reply
  sfu : List SfuReq
  /-- tags of accesses not yet acknowledged, and acknowledgements on their way (R410) -/
  unacked : List Nat
  acks : List Nat
  -- arrivals
  inbox : Vector (List Arr) 8
  /-- arrivals resolved to this core and not accepted; while a context is saved or loading, also those held (R447) -/
  ni : List Transit
  heldTraps : List HeldTrap
  /-- the LID whose context `fsave` has taken from the core (R447) -/
  savedLid : Option CoreId
  /-- arrivals and requests for that LID are held at the interface: no `remap` has moved it away (R447) -/
  holds : Bool
  /-- the loading mark (R448) -/
  loading : Option CoreId
  /-- the core has been reset: what it holds moves with its LID (R446) -/
  wasReset : Bool
  -- engines
  copyQ : List CopyCmd
  matQ : List MatCmd
  remQ : List RemCmd
  estCopy : EStat
  estMat : EStat
  estRem : EStat
  /-- commands that have left their queue with every effect made, whose successor has not yet entered its die: number and command.
  They end there, by completion, or handed back where the LID has gone absent (R21, R311) -/
  closing : List (Nat × BitVec 4)
  latchL : Option LatchSlot
  latchI : Option LatchSlot
  epi0 : Option EpiBuf
  epi1 : Option EpiBuf
  -- tasks and scheduling
  member : Option Member
  binding : Option Binding
  budgets : List Budget
  stopped : Bool
  asleep : Bool
  /-- counted cycles of the present run of level-7 frames (R343) -/
  run7 : BitVec 16
  /-- cycles the frame of each level is stalled on its present instruction (R61) -/
  stalls : Vector (BitVec 41) 8
  /-- withheld for its temperature, as its dispenser last found (R442) -/
  withheld : Bool
  /-- withheld for its region's power, as its dispenser last found (R442) -/
  overPower : Bool
  deriving DecidableEq, Repr

/-! ## Clusters, blocks, sectors and dies -/

/-- A resident page of a scratchpad (R77, R78). -/
structure Frame where
  dom : BitVec 16
  backing : BitVec 44
  pa : Nat
  mem : Memory
  fe : Cells Bool
  poison : Cells Bool
  /-- bytes stored and words whose bit changed while resident (R80) -/
  dirty : List Nat
  dirtyFe : List Nat
  /-- words that a store of all 8 bytes has written while resident (R218) -/
  whole : List Nat
  /-- cores that pin it, one bit each -/
  pins : BitVec 16
  /-- order of last touch -/
  stamp : Nat
  deriving DecidableEq, Repr

/-- A cluster and its window (R434). -/
structure Cluster where
  div : Word
  pon : BitVec 16
  lcur : Byte
  lfloor : Byte
  lceil : Byte
  scur : Byte
  sfloor : Byte
  sceil : Byte
  sset : Byte
  temp : Vector Byte 16
  tlim : Byte
  hyst : Byte
  nmask : BitVec 16
  sgreq : Bool
  cgreq : Bool
  gstate : BitVec 2
  waking : Bool
  cerr : BitVec 32
  uerr : BitVec 32
  armed : BitVec 16
  /-- windows for which lowering the SRAM rail is stopped: the present one and those that follow it (R436) -/
  noLower : Nat
  counter : Word
  frames : List Frame
  /-- refills asked for: domain, bits 55:12 of the backing address, PA of the page (R78) -/
  refills : List (BitVec 16 × BitVec 44 × Nat)
  /-- round-robin position of the SFU: number in its block of the core last served -/
  rr : Byte
  deriving DecidableEq, Repr

/-- An instance record at a dispenser (R368). -/
structure InstRec where
  launch : Nat
  inst : Inst
  stage : Nat
  msg : Msg
  deriving DecidableEq, Repr

/-- A block: its dispenser (R369 to R372). -/
structure Block where
  x : BitVec 32
  records : List InstRec
  deriving DecidableEq, Repr

/-- A predictor slot (R380). -/
structure Slot where
  v1 : BitVec 32
  v2 : BitVec 32
  v3 : BitVec 32
  v4 : BitVec 32
  policy : BitVec 2
  dom : BitVec 16
  deriving DecidableEq, Repr

/-- A ralloc or rtrim at the sector's service core (R317, R318). -/
structure AllocReq where
  by_ : Issuer
  reply : Nat
  trim : Bool
  /-- shape word of a tied ralloc, or base of a trim -/
  a : Option Word
  b : Word
  deriving DecidableEq, Repr

/-- A sector: its service core's queues (R377, R380). -/
structure Sector where
  launchQ : List Nat
  slots : Vector Slot 64
  allocs : List AllocReq
  deriving DecidableEq, Repr

/-- A present translation that a walker keeps (R389). -/
structure TlbEntry where
  /-- va with the page offset dropped -/
  page : Nat
  level : BitVec 2
  frame : Nat
  deriving DecidableEq, Repr

/-- A die's copy of a word whose home is another die (R115). -/
structure Copy where
  dom : BitVec 16
  data : Word
  /-- bytes stored and not yet at the home -/
  dirty : Byte
  /-- a store of all 8 bytes is among those not yet at the home (R218) -/
  whole : Bool
  /-- the 64 KiB pages of virtual addresses under which the die's agents name the word (R358) -/
  names : List Nat
  deriving DecidableEq, Repr

/-- An entry of the remap table (R19). -/
structure MapEntry where
  phys : BitVec 14
  present : Bool
  deriving DecidableEq, Repr

/-- An encoder job accepted in the queue (R422): the TCM offset of its record, and the record's words once it has reached the
head (R425). -/
structure EncJob where
  by_ : Issuer
  succ : Succ
  off : Nat
  words : List Word
  deriving DecidableEq, Repr

/-- The job being coded (R426): the stream record as read, and the intake of its rows. -/
structure EncRun where
  job : EncJob
  stream : List Word
  /-- number of the ready word that is read next -/
  row : Nat
  /-- rt its read has waited -/
  waited : BitVec 32
  /-- its read has been issued and not performed, and stands in a mooring list or in the weir -/
  moored : Bool
  /-- its read waits outside a full mooring list (R95, R426) -/
  asked : Bool
  /-- its value, once performed -/
  ready : Option Word
  /-- the word read was poisoned -/
  poisoned : Bool
  /-- pixels read so far -/
  frame : List Word
  /-- every row has been read -/
  complete : Bool
  deriving DecidableEq, Repr

/-- A frame pacer (R431). -/
structure Pacer where
  en : Bool
  cidx : BitVec 3
  lid : CoreId
  period : BitVec 32
  /-- the period in progress; 0 when none is -/
  now : BitVec 32
  rcb : BitVec 56
  seq : BitVec 32
  deriving DecidableEq, Repr

/-- A die. -/
structure Die where
  remap : Cells MapEntry
  tlb : List TlbEntry
  copies : Cells Copy
  mcbase : BitVec 56
  mcsize : BitVec 16
  mctail : BitVec 16
  mchead : BitVec 16
  mclost : BitVec 32
  encQ : List EncJob
  encRun : Option EncRun
  encCounter : Word
  pacer : Pacer
  /-- provisional ways, 0 to 4 (R85) -/
  provWays : BitVec 3
  deriving DecidableEq, Repr

/-- A quay die's key window (R449). -/
structure Quay where
  /-- eight words written at 0x040 to 0x078 -/
  material : Vector Word 8
  /-- committed slots -/
  keys : Cells (Vector Word 8)
  deriving DecidableEq, Repr

/-- A Flihild port (R413 to R416). -/
structure Port where
  settled : Bool
  quarantined : Bool
  width : BitVec 2
  lanes : Byte
  speed : BitVec 2
  mismatches : BitVec 2
  attempt : BitVec 4
  /-- the settle flit sent last (R414); zero before any -/
  sent : BitVec 256
  deriving DecidableEq, Repr

/-! ## Module-wide work -/

/-- The controller that performs sync accesses to a word (R92). -/
inductive Owner where
  | tcm (n : CoreId)
  | scratch (cl : BitVec 14)
  | home (bay : BitVec 4)
  /-- the L2 slice of a block that holds the word's line exclusively -/
  | l2 (blk : BitVec 10)
  deriving DecidableEq, Repr

/-- Where the result of a moored access goes. -/
inductive Route where
  | ldq (n : CoreId) (lid : CoreId) (q : QReg) (itag : BitVec 3) (addr : Nat) (sc : Option Scope)
  | rreq (n : CoreId) (id : Nat)
  | posted (n : CoreId)
  | enc (die : BitVec 4)
  /-- the reply of an atomic (R222) -/
  | amo (n : CoreId) (id : Nat)
  /-- a request of another module (R411): the module and its number there -/
  | guest (modu : BitVec 16) (id : Nat)
  /-- a plain load, or a plain store of the tag, of a core (R408) -/
  | plain (n : CoreId) (tag : Option Nat)
  deriving DecidableEq, Repr

/-- An unsatisfied sync access in a mooring list (R93). -/
structure Mooring where
  owner : Owner
  /-- word number: offset / 8, backing address / 8, or PA / 8 -/
  word : Nat
  /-- for a scratchpad word, the domain of its page -/
  dom : BitVec 16
  /-- domain of the access -/
  adom : BitVec 16
  mode : SyncMode
  data : Word
  route : Route
  region : Option Region
  /-- waits for a forward credit (R408) -/
  fwd : Bool
  /-- an atomic, which waits for a credit alone: its operation and expected value; data is its operand (R221) -/
  amo : Option (AmoOp × Word)
  /-- a plain access, which waits for a credit alone: its place in the word, and the bytes of a store (R408) -/
  plain : Option (Nat × List Byte)
  deriving DecidableEq, Repr

/-- What the part keeps of a saved context beside its save area (R352 to R354): instances, contracts and
traps of its frames, what the area does not hold of arrivals, queue entries and buffers, full-empty bits and reply routes. -/
structure Saved where
  lid : CoreId
  /-- address of its save area; the area may be loaded more than once (R354) -/
  area : Nat
  /-- no `fload` has restored it yet: the LID's context is the saved one -/
  current : Bool
  /-- the core it was saved from -/
  core : CoreId
  banks : Vector Bank 8
  inbox : Vector (List Arr) 8
  heldTraps : List HeldTrap
  q : Vector QueueReg 8
  tcmFe : Cells Bool
  tcmPoison : Cells Bool
  moorings : List Mooring
  epi0 : Option EpiBuf
  epi1 : Option EpiBuf
  /-- k.estat as saved -/
  estat : Word
  /-- streams that the copy engine held, in order -/
  streams : List CopyCmd
  binding : Option Binding
  budgets : List Budget
  deriving DecidableEq, Repr

/-- A hardware queue that the weir serves (R377); a core's own queues are keyed by its LID (R352). -/
inductive WeirQueue where
  | inbox (lid : CoreId) (level : BitVec 3)
  | tcm (lid : CoreId)
  | mooring (o : Owner)
  | launch (sector : BitVec 6)
  | records (blk : BitVec 10)
  | recv (lid : CoreId) (q : QReg)
  /-- the successors recorded at the barrier at a PA (R324) -/
  | barrier (pa : Nat)
  deriving DecidableEq, Repr

/-- What the weir holds for a queue. -/
inductive WeirItem where
  | arr (a : Arr)
  | moor (m : Mooring)
  | launch (id : Nat)
  | record (r : InstRec)
  | entry (e : QEnt)
  | succ (by_ : Issuer) (x : Succ) (ended : Byte)
  deriving DecidableEq, Repr

/-- An entry of the weir, charged to a region or to the module root (R377). -/
structure WeirEntry where
  queue : WeirQueue
  region : Option Region
  item : WeirItem
  deriving DecidableEq, Repr

/-- A message that left through a Flihild port (R406). -/
structure Wire where
  port : BitVec 5
  msg : Transit
  deriving DecidableEq, Repr

/-- A region's effective values (R364). -/
structure Eff where
  cores : BitVec 19
  bw : BitVec 32
  pceil : BitVec 3
  key : Byte
  fdom : BitVec 16
  wdog : BitVec 40
  power : BitVec 16
  weirq : BitVec 32
  provq : BitVec 16
  deriving DecidableEq, Repr

/-- What the part keeps of a region's RCB (R363). -/
structure RegInfo where
  eff : Eff
  partition : BitVec 56
  dom : BitVec 16
  dmax : BitVec 4
  alimit : BitVec 17
  qlevel : BitVec 3
  tickets : BitVec 16
  poolBase : Nat
  poolSize : Nat
  recBase : Nat
  recSize : Nat
  /-- pin quota, which the pager keeps (R393) -/
  pinq : BitVec 21
  /-- effective cores and power of the partition and of the root (R363, R364) -/
  pcores : BitVec 19
  rcores : BitVec 19
  ppower : BitVec 16
  rpower : BitVec 16
  /-- the cores and power fields of the region's node itself, and of its partition's (R364) -/
  fcores : BitVec 19
  fpower : BitVec 16
  pfcores : BitVec 19
  pfpower : BitVec 16
  deriving DecidableEq, Repr

/-- A channel entry of a launch (R366). -/
structure Chan where
  chan : BitVec 5
  src : Nat
  dst : Nat
  allow : Byte
  sq : QReg
  rq : QReg
  level : BitVec 3
  deriving DecidableEq, Repr

/-- A stage of an accepted launch (R363). -/
structure Stage where
  rcb : BitVec 56
  eff : Eff
  ncores : Nat
  walk : Bool
  ring : Bool
  gang : Bool
  sqset : Byte
  sqlevel : BitVec 3
  slim : BitVec 16
  vbase : BitVec 16
  ceil : BitVec 48
  vtab : BitVec 56
  named : BitVec 56
  ctab : BitVec 56
  dimg : BitVec 56
  sctr : BitVec 56
  itype : Byte
  iprio : BitVec 3
  contracts : List Contract
  /-- the stage's channel table (R366) -/
  chans : List Chan
  /-- longest claim section per priority, of its contract table (R373) -/
  csect : List Nat
  /-- the cores and power fields of the node itself (R364) -/
  fcores : BitVec 19
  fpower : BitVec 16
  /-- physical cores bound: in binding order, then by LID once all are -/
  cores : List CoreId
  deriving DecidableEq, Repr

/-- A launch from its acceptance to its successor (R325 to R329, R365 to R368). -/
structure Launch where
  id : Nat
  by_ : Issuer
  succ : Succ
  record : LaunchRec
  sector : BitVec 6
  region : Region
  partition : BitVec 56
  /-- the word whose fill by a sync write has not yet resolved the shape (R328) -/
  fill : Option Word
  dom : BitVec 16
  tickets : BitVec 16
  qlevel : BitVec 3
  dmax : BitVec 4
  stages : List Stage
  seed : Word
  provq : BitVec 16
  /-- effective values of the launch node, and its own cores and power fields (R363, R364) -/
  eff : Eff
  fcores : BitVec 19
  fpower : BitVec 16
  /-- checks of R365 passed -/
  checked : Bool
  bound : Bool
  released : Bool
  /-- predicted count P -/
  pred : BitVec 32
  /-- N once the shape has resolved; an unshaped launch holds its count -/
  count : Option (BitVec 32)
  /-- instances given out or placed at a dispenser -/
  issued : Nat
  /-- instances ended -/
  ended : List (BitVec 32)
  done : Bool
  /-- rounds a gang has found too few cores (R372) -/
  blocked : Nat
  /-- target block of a gang -/
  target : Option (BitVec 10)
  deriving DecidableEq, Repr

/-- A walk at a tile walker (R323). -/
structure Walk where
  id : Nat
  by_ : Issuer
  succ : Succ
  record : WalkRec
  blk : BitVec 10
  sent : List (BitVec 32)
  ended : List (BitVec 32)
  done : Bool
  deriving DecidableEq, Repr

/-- A provisional store (R85 to R87). -/
structure Prov where
  launch : Nat
  index : BitVec 32
  pa : Nat
  va : Nat
  dom : BitVec 16
  data : List Byte
  deriving DecidableEq, Repr

/-- An allocation of a retractable pool (R317). -/
structure Alloc where
  region : Region
  base : Nat
  size : Nat
  slot : Nat
  charge : Nat
  /-- launch whose shape it is tied to -/
  tied : Option Nat
  deriving DecidableEq, Repr

/-- A resumption record in a region's record area (R330). -/
structure Record where
  region : Region
  addr : BitVec 56
  size : Nat
  inst : Option Inst
  /-- LID of the task -/
  lid : CoreId
  fclass : BitVec 3
  level : BitVec 3
  why : BitVec 4
  /-- the access to a queue register in which the frame was stalled; the record's words do not hold it -/
  queueOp : Option QueueOp
  deriving DecidableEq, Repr

/-- The successors recorded at a barrier (R324), each with the count of ended commands that its `barv` left. -/
structure Barrier where
  pa : Nat
  arrivals : List (Issuer × Succ × Byte)
  deriving DecidableEq, Repr

/-- A pginv under way (R358). -/
structure Pginv where
  core : CoreId
  lid : CoreId
  page : Nat
  level : BitVec 2
  dom : BitVec 16
  addr : Word
  deriving DecidableEq, Repr

/-- A page migration (R396). -/
structure Migration where
  p : Nat
  p2 : Nat
  /-- granules copied so far -/
  next : Nat
  deriving DecidableEq, Repr

/-- A host request window (R418). -/
structure Window where
  rbase : BitVec 56
  rsize : BitVec 4
  tail : BitVec 16
  head : BitVec 16
  err : Bool
  stop : Bool
  ecode : Byte
  vec : BitVec 11
  deriving DecidableEq, Repr

/-- The RCB window of the management controller (R452). -/
structure RcbWindow where
  image : List Word
  addr : BitVec 56
  st : Byte
  root : BitVec 56
  deriving DecidableEq, Repr

/-- A remote request of another module at this one (R411): its number there, its record, and its outcome once performed. -/
structure Guest where
  modu : BitVec 16
  id : Nat
  rec_ : RreqRec
  /-- source words that a write or a sync write carries -/
  words : List Word
  /-- data and status, to be sent back (R233); status 3 is a refusal (R234) -/
  result : Option (List Word × BitVec 2)
  deriving DecidableEq, Repr

/-- Who acts next: the order of the agents, one entry a step. The model's own field. -/
inductive Turn where
  /-- core n runs its next instruction -/
  | core (n : CoreId)
  /-- core n runs its next instruction; replies of atomics come later (R222) -/
  | coreSlow (n : CoreId)
  /-- core n runs its next instruction with a push pending at chunk or item k (R290) -/
  | coreBreak (n : CoreId) (k : Nat)
  /-- an event of the table occurs -/
  | event (i : Instr)
  /-- a die evicts its copy of the word at PA pa (R82) -/
  | evict (die : BitVec 4) (pa : Nat)
  /-- the 64-byte line at PA pa leaves the chip (R401) -/
  | evictLine (pa : Nat)
  /-- the reference counters of a cluster advance (R6) -/
  | time (cl : BitVec 14) (rt : Word)
  /-- the counter of a die's encoder advances (R426, R431) -/
  | encTime (die : BitVec 4) (rt : Word)
  /-- a core reads its temperature (R434) -/
  | temperature (n : CoreId) (t : Byte)
  /-- a message of another module or of the host side enters the module -/
  | remoteIn (m : Transit)
  /-- core n runs its next instruction and accepts the first arrival at its interface in the same cycle (R56) -/
  | coreAccept (n : CoreId)
  /-- the running frame of core n reads queue register q into v (R97); the table has no instruction for it -/
  | queueRead (n : CoreId) (q : QReg) (v : VReg)
  /-- the running frame of core n writes v to queue register q (R97); the table has no instruction for it -/
  | queueWrite (n : CoreId) (q : QReg) (v : VReg)
  /-- the L2 slice of a block takes the line of PA pa exclusively, or gives it back (R92) -/
  | lineTake (pa : Nat) (blk : BitVec 10)
  | lineGive (pa : Nat)
  /-- an uncorrectable error in the LLC or the HBM4E is found in the word at PA pa (R445) -/
  | wordError (pa : Nat)
  /-- an uncorrectable error is found in a die's L2 copy of the word at PA pa (R445) -/
  | copyError (die : BitVec 4) (pa : Nat)
  /-- an uncorrectable error is found in a word of the page in a frame of a cluster's scratchpad (R445) -/
  | pageError (cl : BitVec 14) (frame word : Nat)
  /-- an uncorrectable error is found in a word of core n's TCM (R436, R445) -/
  | tcmError (n : CoreId)
  /-- the next bring-up of the module will find and write b (R449) -/
  | bringUp (b : Bringup)
  /-- the supervisor reclaims a 64 KiB frame from a domain (R95) -/
  | reclaim (dom : BitVec 16) (frame : Nat)
  /-- another module has no core for the destination of the message at place k among those that left (R303) -/
  | wireAbsent (k : Nat)
  /-- another module acknowledges the message at place k among those that left (R410) -/
  | wireAck (k : Nat)
  /-- another module replies "full" to the message at place k among those that left (R409) -/
  | wireFull (k : Nat)
  /-- the weir of another module has space again (R409) -/
  | wireSpace (modu : BitVec 16)
  /-- another module has taken request id of core n into its bank's order (R410) -/
  | remoteTaken (n : CoreId) (id : Nat)
  /-- the supervisor unbinds a launch that has not finished (R367) -/
  | supervisorUnbind (launch : Nat)
  /-- the matrix engine of core n has stored one tile of the pass at its head, and goes on later (R126, R284) -/
  | passTile (n : CoreId)
  /-- another module has ended request id of core n, with its data and status (R233, R411) -/
  | remoteDone (n : CoreId) (id : Nat) (data : List Word) (status : BitVec 2)
  /-- a request of another module reaches this one (R411) -/
  | guestRequest (g : Guest)
  /-- an instruction cache takes the parcel at a virtual address out (R172) -/
  | icEvict (n : CoreId) (va : Nat)
  /-- a controller runs out of forward credits (R408) -/
  | creditOut (o : Owner)
  /-- the host writes x at offset off of BAR2 of a logical device: request windows, and the RCB window (R418, R452) -/
  | barWrite (ld : BitVec 4) (off : Nat) (x : Word)
  deriving DecidableEq, Repr

/-- The module. -/
structure State where
  /-- core whose turn it is; the model's own field -/
  cur : CoreId
  /-- order of the agents to come; the model's own field -/
  turns : List Turn
  /-- replies of atomics come later in this step; the model's own field -/
  slow : Bool
  /-- a push is pending from this chunk or item of a class-F instruction on (R290); the model's own field -/
  breakAt : Option Nat
  /-- counter that picks fresh free values; the model's own field -/
  free : Nat
  /-- next number for a tag, launch, walk or command; the model's own field -/
  nextId : Nat
  modu : BitVec 16
  cores : Cells Core
  clusters : Cells Cluster
  blocks : Cells Block
  sectors : Cells Sector
  dies : Cells Die
  quays : Cells Quay
  ports : Cells Port
  /-- device and host memory by PA -/
  mem : Memory
  /-- full-empty bits by PA / 8; unlisted is full -/
  fe : Cells Bool
  /-- poison by PA / 8 -/
  poison : Cells Bool
  /-- the key under which an XTS block of 16 bytes was enciphered, by PA / 16: 0, as unlisted, is the domain-0 key that bring-up
  generated at the quay, n + 1 a committed key of the number n of 512 bits, and what is above stands for keys that the spec does not name
  (R399, R449) -/
  bkey : Cells Nat
  /-- on-chip lines by PA / 64: 0 absent, else the line's domain plus 1 (R401) -/
  lines : Cells Nat
  /-- lines of PA / 64 that the L2 slice of a block holds exclusively: the block plus 1 (R92) -/
  exclusive : Cells Nat
  disabled : List CoreId
  /-- the service core of each sector, as the port die records it in the management controller and reports it to the host (R16) -/
  services : List (BitVec 6 × CoreId)
  net : List Transit
  wire : List Wire
  /-- end-to-end tags of messages of other modules that have entered, by module (R416) -/
  seen : List (BitVec 16 × Nat)
  /-- requests of other modules at this one (R411) -/
  guests : List Guest
  weir : List WeirEntry
  /-- the regions that launches have named, as last read (R363) -/
  regions : List (Region × RegInfo)
  /-- regions past their weir quota whose trap has been raised (R378) -/
  weirOver : List Region
  moorings : List Mooring
  /-- controllers that hold no forward credit (R408) -/
  noCredit : List Owner
  launches : List Launch
  walks : List Walk
  prov : List Prov
  allocs : List Alloc
  records : List Record
  barriers : List Barrier
  pginvs : List Pginv
  migrations : List Migration
  /-- units of allowance that came back while their register's context was saved or loading, for its `fload` (R97, R354) -/
  allowOwed : List (CoreId × QReg)
  /-- status steps of commands of a saved context, for its `fload`: LID, engine, handed back (R354) -/
  owed : List (CoreId × BitVec 4 × Bool)
  /-- status steps of a saved context that a drop under R21 has made steps of a handback: LID, engine, the count they left -/
  amends : List (CoreId × BitVec 4 × Byte)
  /-- saved contexts (R352) -/
  saved : List Saved
  /-- streams, by the address of their record, whose next job is coded as a key frame after a dropped unit (R427) -/
  encKey : List (BitVec 56)
  /-- barriers at which cores of a gang have arrived: launch, stage, address of the home word (R443) -/
  gangBars : List (Nat × Nat × Nat)
  /-- gangs withheld as one unit, by launch and stage (R443) -/
  gangHeld : List (Nat × Nat)
  windows : Cells Window
  msix : List (BitVec 4 × BitVec 11)
  rcbWindow : RcbWindow
  /-- addresses of the partition RCBs that the host has stored (R403, R452) -/
  partitions : List (BitVec 56)
  /-- the last CXL.mem read: its data, and whether it is marked poisoned (R404) -/
  hostData : Word
  hostPoison : Bool
  /-- core and link events recorded by the management controller (R416, R445) -/
  ctrlLog : List (Byte × Word)
  /-- what the last bring-up has written in cores and dies (R449) -/
  boot : Bringup
  /-- what the next bring-up finds and writes; a turn of the schedule sets it (R449). The model's own field -/
  bring : Bringup
  deriving DecidableEq, Repr

/-- Why the model stops. -/
inductive Fault where
  /-- raised by step when the schedule names as an event an instruction that only a core fetches; it is no
  behaviour of the part, so it is safe. -/
  | badTurn
  deriving DecidableEq, Repr

/-- Why the model has no next state for an instruction. -/
inductive Refusal where
  /-- raised by exec for an instruction without a meaning yet; safe. -/
  | notModelled (mnemonic : String)
  deriving DecidableEq, Repr

/-- The outcome of a step. -/
abbrev Out := Host.Outcome State Fault Refusal

/-! ## Reset -/

/-- A bank after reset (R259 for mctx, R345). -/
def Bank.reset : Bank :=
  { s := .replicate 32 0, v := .replicate 16 0, acc := .replicate 2 (.replicate 64 0), mctx := 0x99,
    vpend := 0, spend := 0, live := false, fclass := 0, mtype := 0, fbase := 0, rpc := 0, rthresh := 0xF,
    rb := .replicate 4 0, claims := [], inst := none, contract := none, squash := false,
    parkDue := false, queueOp := none, fencing := false }

/-- An unbound queue register (R96). -/
def QueueReg.reset : QueueReg :=
  { kind := 0, level := 0, chan := 0, allow := 0, entries := [], resv := 0, peer := 0, peerQ := 0 }

/-- A cleared PLB entry (R383). -/
def PlbEntry.reset : PlbEntry :=
  { valid := false, base := 0, limit := 0, r := false, w := false, x := false, sonly := false }

/-- Status fields of an engine after reset (R310). -/
def EStat.reset : EStat := { ended := 0, done := false, fault := false }

/-- Core n after reset and bring-up: idle, unbound, powered (R345, R449). -/
def Core.reset (n : CoreId) : Core :=
  { lid := n, level := 0xF, thresh := 0xF, sp := 0xB000, slim := 0, vbase := 0xB000, ceil := 0xDB6DB6DB6DB6,
    cause := 0xF00, epc := 0, addr := 0, dom := 0, tvec := 0, wdog := 0x100000, mig := false, sscr := 0,
    xcause := 0, xepc := 0, seed := 0, sctr := 0, hprog := 0, hpc := 0, pc := 0, b := .replicate 4 0,
    banks := .replicate 8 Bank.reset, d := .replicate 8 0, q := .replicate 8 QueueReg.reset, h := .replicate 4 0,
    ht := 0, kcnt := 0, tcm := [], tcmFe := [], tcmPoison := [], plb := .replicate 16 PlbEntry.reset, svec := .replicate 32 0, icache := [],
    entryBuf := .replicate 8 [], locked := [], sbuf := [],
    flight := [], deliver := [], replies := [], sfu := [], unacked := [], acks := [], inbox := .replicate 8 [],
    ni := [], heldTraps := [], savedLid := none, holds := false, loading := none, wasReset := false, copyQ := [], matQ := [],
    remQ := [], estCopy := .reset, estMat := .reset, estRem := .reset, closing := [], latchL := none, latchI := none,
    epi0 := none, epi1 := none, member := none, binding := none, budgets := [], stopped := false, asleep := false,
    run7 := 0, stalls := .replicate 8 0, withheld := false, overPower := false }

/-- Core n after a bring-up that has written k.tvec and the supervisor vector entries: the table stands at k.vbase (R31, R449 step 7). -/
def Core.booted (b : Bringup) (n : CoreId) : Core :=
  if b = .reset then Core.reset n
  else
    let v : Vector Word 32 := Vector.ofFn fun (t : Fin 32) => (b.vectors[t.val]?).getD 0
    let bytes := v.toList.flatMap fun x => (List.range 8).map fun i => x.extractLsb' (8 * i) 8
    { Core.reset n with tvec := b.tvec.extractLsb' 1 55 ++ 0#1, svec := v
                        tcm := ((List.range bytes.length).zip bytes).foldl (fun (m : Memory) p => Cells.putD 0 m (0xB000 + p.1) p.2) [] }

/-- A cluster after reset (R434). -/
def Cluster.reset : Cluster :=
  { div := 0, pon := 0xFFFF, lcur := 80, lfloor := 40, lceil := 100, scur := 80, sfloor := 50, sceil := 100,
    sset := 4, temp := .replicate 16 0, tlim := 95, hyst := 5, nmask := 0xFFFF, sgreq := false, cgreq := false,
    gstate := 0, waking := false, cerr := 0, uerr := 0, armed := 0xFFFF, noLower := 0, counter := 0, frames := [],
    refills := [], rr := 0 }

/-- A block after bring-up: its lottery seed is not zero and is its own (R371). -/
def Block.reset (blk : Nat) : Block :=
  { x := BitVec.ofNat 32 (blk + 1), records := [] }

/-- A predictor slot after reset (R380). -/
def Slot.reset : Slot := { v1 := 0, v2 := 0, v3 := 0, v4 := 0, policy := 0, dom := 0 }

/-- A sector after reset. -/
def Sector.reset : Sector := { launchQ := [], slots := .replicate 64 Slot.reset, allocs := [] }

/-- A pacer after reset (R431). -/
def Pacer.reset : Pacer := { en := false, cidx := 0, lid := 0, period := 0, now := 0, rcb := 0, seq := 0 }

/-- A die after bring-up: its remap table is the identity (R20), which an empty list of changes stands for. -/
def Die.reset : Die :=
  { remap := [], tlb := [], copies := [], mcbase := 0, mcsize := 0, mctail := 0, mchead := 0, mclost := 0,
    encQ := [], encRun := none, encCounter := 0, pacer := .reset, provWays := 4 }

/-- Die x after a bring-up that has set its machine-check ring (R449 step 8). -/
def Die.booted (b : Bringup) (x : BitVec 4) : Die :=
  match b.rings[x.toNat]? with
  | some r => { Die.reset with mcbase := r.1, mcsize := r.2 }
  | none => Die.reset

/-- A quay die after reset. -/
def Quay.reset : Quay := { material := .replicate 8 0, keys := [] }

/-- A port after bring-up: trained and settled at full width and speed (R449 step 3). -/
def Port.reset : Port :=
  { settled := true, quarantined := false, width := 3, lanes := 0xFF, speed := 3, mismatches := 0, attempt := 1, sent := 0 }

/-- A request window after reset (R418). -/
def Window.reset : Window :=
  { rbase := 0, rsize := 0, tail := 0, head := 0, err := false, stop := false, ecode := 0, vec := 0 }

/-- The RCB window after reset (R452). -/
def RcbWindow.reset : RcbWindow := { image := List.replicate 16 0, addr := 0, st := 0, root := 0 }

/-- The module after reset and the part's bring-up (R449): every core unbound, idle and powered, every word zero
and full under domain 0, nothing listed anywhere. -/
def State.reset : State :=
  { cur := 1, turns := [], slow := false, breakAt := none, free := 0, nextId := 1, modu := 0, cores := [], clusters := [],
    blocks := [], sectors := [], dies := [], quays := [], ports := [], mem := [], fe := [], poison := [],
    bkey := [], lines := [], exclusive := [], disabled := [],
    services := (List.range 64).map fun x => (BitVec.ofNat 6 x, BitVec.ofNat 18 (4096 * x)), net := [], wire := [], seen := [], guests := [], weir := [], regions := [], weirOver := [], moorings := [],
    noCredit := [], launches := [], walks := [], prov := [], allocs := [], records := [], barriers := [],
    pginvs := [], migrations := [], allowOwed := [], owed := [], amends := [], saved := [], encKey := [], gangBars := [], gangHeld := [], windows := [], msix := [], rcbWindow := .reset, partitions := [],
    hostData := 0, hostPoison := false, ctrlLog := [], boot := .reset, bring := .reset }

end Sys2Proof.Machine
end

