-- ==== Sys2Proof/Machine/Basic.lean ====
section
/-! DEFINITION. Reading and replacing parts of the state: cores, clusters, blocks, sectors, dies, banks and
registers. Every register has its one accessor here. -/

namespace Sys2Proof.Machine

/-! ## Parts of the module -/

/-- Core n. -/
def State.core (s : State) (n : CoreId) : Core := (Cells.find s.cores n.toNat).getD (Core.booted s.boot n)
/-- s with core n replaced. -/
def State.setCore (s : State) (n : CoreId) (c : Core) : State := { s with cores := Cells.put s.cores n.toNat c }
/-- s with core n changed. -/
def State.updCore (s : State) (n : CoreId) (f : Core → Core) : State := s.setCore n (f (s.core n))
/-- The core whose turn it is. -/
def State.me (s : State) : Core := s.core s.cur
/-- s with the core in turn replaced. -/
def State.setMe (s : State) (c : Core) : State := s.setCore s.cur c
/-- s with the core in turn changed. -/
def State.updMe (s : State) (f : Core → Core) : State := s.setMe (f s.me)

/-- Cluster number of a core (R18). -/
def clusterOf (n : CoreId) : BitVec 14 := bits n 4 14
/-- Block number of a core (R18). -/
def blockOf (n : CoreId) : BitVec 10 := bits n 8 10
/-- Sector number of a core (R18). -/
def sectorOf (n : CoreId) : BitVec 6 := bits n 12 6
/-- Die number of a core (R18). -/
def dieOf (n : CoreId) : BitVec 4 := bits n 14 4
/-- Number of a core within its cluster (R18). -/
def slotOf (n : CoreId) : BitVec 4 := bits n 0 4

/-- n uncorrectable errors in a cluster's SRAM: the rail rises two steps at once for each, within its highest step, and does not fall
for the next 16 windows (R436). -/
def Cluster.sramErrors (k : Cluster) (n : BitVec 32) : Cluster :=
  if n = 0 then k
  else { k with scur := BitVec.ofNat 8 (Nat.min (k.scur.toNat + 2 * n.toNat) (Nat.max k.scur.toNat k.sceil.toNat)), uerr := k.uerr + n,
                noLower := 17 }

/-- An uncorrectable error in a cluster's SRAM (R436). -/
def Cluster.sramError (k : Cluster) : Cluster := k.sramErrors 1

/-- Cluster cl. -/
def State.cluster (s : State) (cl : BitVec 14) : Cluster := (Cells.find s.clusters cl.toNat).getD Cluster.reset
/-- s with a cluster changed. -/
def State.updCluster (s : State) (cl : BitVec 14) (f : Cluster → Cluster) : State :=
  { s with clusters := Cells.put s.clusters cl.toNat (f (s.cluster cl)) }
/-- Block blk. -/
def State.block (s : State) (blk : BitVec 10) : Block := (Cells.find s.blocks blk.toNat).getD (Block.reset blk.toNat)
/-- s with a block changed. -/
def State.updBlock (s : State) (blk : BitVec 10) (f : Block → Block) : State :=
  { s with blocks := Cells.put s.blocks blk.toNat (f (s.block blk)) }
/-- Sector x. -/
def State.sector (s : State) (x : BitVec 6) : Sector := (Cells.find s.sectors x.toNat).getD Sector.reset
/-- s with a sector changed. -/
def State.updSector (s : State) (x : BitVec 6) (f : Sector → Sector) : State :=
  { s with sectors := Cells.put s.sectors x.toNat (f (s.sector x)) }
/-- Die x. -/
def State.die (s : State) (x : BitVec 4) : Die := (Cells.find s.dies x.toNat).getD (Die.booted s.boot x)
/-- s with a die changed. -/
def State.updDie (s : State) (x : BitVec 4) (f : Die → Die) : State :=
  { s with dies := Cells.put s.dies x.toNat (f (s.die x)) }
/-- Port p. -/
def State.port (s : State) (p : BitVec 5) : Port := (Cells.find s.ports p.toNat).getD Port.reset
/-- s with a port changed. -/
def State.updPort (s : State) (p : BitVec 5) (f : Port → Port) : State :=
  { s with ports := Cells.put s.ports p.toNat (f (s.port p)) }
/-- Quay die x. -/
def State.quay (s : State) (x : BitVec 4) : Quay := (Cells.find s.quays x.toNat).getD Quay.reset
/-- s with a quay die changed. -/
def State.updQuay (s : State) (x : BitVec 4) (f : Quay → Quay) : State :=
  { s with quays := Cells.put s.quays x.toNat (f (s.quay x)) }
/-- The key of a request window among State.windows. -/
def windowKey (ld : BitVec 4) (w : BitVec 6) : Nat := ld.toNat * 64 + w.toNat
/-- Request window w of logical device ld (R418). -/
def State.window (s : State) (ld : BitVec 4) (w : BitVec 6) : Window :=
  (Cells.find s.windows (windowKey ld w)).getD Window.reset
/-- s with a request window changed. -/
def State.updWindow (s : State) (ld : BitVec 4) (w : BitVec 6) (f : Window → Window) : State :=
  { s with windows := Cells.put s.windows (windowKey ld w) (f (s.window ld w)) }

/-- The cluster of a core gives it power (R15). -/
def State.powered (s : State) (n : CoreId) : Bool := (s.cluster (clusterOf n)).pon.getLsbD (slotOf n).toNat

/-! ## Banks and registers -/

/-- The bank of level l. -/
def Core.bank (c : Core) (l : BitVec 3) : Bank := c.banks.get l.toFin
/-- c with the bank of level l replaced. -/
def Core.setBank (c : Core) (l : BitVec 3) (b : Bank) : Core := { c with banks := c.banks.set l.toFin b }
/-- c with the bank of level l changed. -/
def Core.updBank (c : Core) (l : BitVec 3) (f : Bank → Bank) : Core := c.setBank l (f (c.bank l))
/-- The level that selects the window and bank in use (R37). -/
def Core.lvl (c : Core) : BitVec 3 := bits c.level 0 3
/-- The bank in use. -/
def Core.here (c : Core) : Bank := c.bank c.lvl
/-- c with the bank in use changed. -/
def Core.updHere (c : Core) (f : Bank → Bank) : Core := c.updBank c.lvl f

/-- Scalar register r of a bank; s0 reads zero (R17). -/
def Bank.rs (b : Bank) (r : SReg) : Word := if r = 0 then 0 else b.s.get r.toFin
/-- b with scalar register r written; a write to s0 is discarded (R162). -/
def Bank.ws (b : Bank) (r : SReg) (x : Word) : Bank := if r = 0 then b else { b with s := b.s.set r.toFin x }
/-- Vector register r of a bank. -/
def Bank.rv (b : Bank) (r : VReg) : Vec := b.v.get r.toFin
/-- b with vector register r written. -/
def Bank.wv (b : Bank) (r : VReg) (x : Vec) : Bank := { b with v := b.v.set r.toFin x }
/-- Accumulator r of a bank. -/
def Bank.ra (b : Bank) (r : AReg) : Vector (BitVec 32) 64 := b.acc.get r.toFin
/-- b with accumulator r written. -/
def Bank.wa (b : Bank) (r : AReg) (x : Vector (BitVec 32) 64) : Bank := { b with acc := b.acc.set r.toFin x }

/-- s_r of the running frame. -/
def State.rs (s : State) (r : SReg) : Word := s.me.here.rs r
/-- s with s_r of the running frame written. -/
def State.ws (s : State) (r : SReg) (x : Word) : State := s.updMe fun c => c.updHere fun b => b.ws r x
/-- v_r of the running frame. -/
def State.rv (s : State) (r : VReg) : Vec := s.me.here.rv r
/-- s with v_r of the running frame written. -/
def State.wv (s : State) (r : VReg) (x : Vec) : State := s.updMe fun c => c.updHere fun b => b.wv r x
/-- b_r. -/
def State.rb (s : State) (r : BReg) : Word := s.me.b.get r.toFin
/-- s with b_r written. -/
def State.wb (s : State) (r : BReg) (x : Word) : State := s.updMe fun c => { c with b := c.b.set r.toFin x }
/-- d_r. -/
def State.rd (s : State) (r : QReg) : Word := s.me.d.get r.toFin
/-- h_r. -/
def State.rh (s : State) (r : HReg) : Hv := s.me.h.get r.toFin
/-- s with h_r written. -/
def State.wh (s : State) (r : HReg) (x : Hv) : State := s.updMe fun c => { c with h := c.h.set r.toFin x }
/-- q_r of a core. -/
def Core.rq (c : Core) (r : QReg) : QueueReg := c.q.get r.toFin
/-- c with q_r changed. -/
def Core.updQ (c : Core) (r : QReg) (f : QueueReg → QueueReg) : Core :=
  { c with q := c.q.set r.toFin (f (c.rq r)) }
/-- The pc of the core in turn. -/
def State.pc (s : State) : BitVec 56 := s.me.pc
/-- s with the pc of the core in turn set. -/
def State.setPc (s : State) (a : BitVec 56) : State := s.updMe fun c => { c with pc := a }
/-- s with the pc moved past an instruction of n bytes (R159), which has completed: its stall count restarts (R61). -/
def State.advance (s : State) (n : Nat) : State :=
  s.updMe fun c => { c with pc := c.pc + BitVec.ofNat 56 n, stalls := c.stalls.set c.lvl.toFin 0 }

/-! ## Fields of words -/

/-- Header fields of R305. -/
def hdrType (h : Word) : Byte := bits h 0 8
/-- Priority of a header. -/
def hdrPrio (h : Word) : BitVec 3 := bits h 8 3
/-- Channel of a header. -/
def hdrChan (h : Word) : BitVec 5 := bits h 11 5
/-- Payload length of a header. -/
def hdrPlen (h : Word) : BitVec 2 := bits h 16 2
/-- Source LID of a header. -/
def hdrSrc (h : Word) : CoreId := bits h 18 18
/-- Destination LID of a header. -/
def hdrDst (h : Word) : CoreId := bits h 36 18
/-- A header with no flag set. -/
def mkHdr (t : Byte) (prio : BitVec 3) (chan : BitVec 5) (plen : Nat) (src dst : CoreId) : Word :=
  0#10 ++ dst ++ src ++ BitVec.ofNat 2 plen ++ chan ++ prio ++ t

/-- Trap cause code, interrupted level, async and entered as k.cause holds them (R345). -/
def mkCause (c : BitVec 5) (tlevel : BitVec 4) (async entered : Bool) : BitVec 14 :=
  BitVec.ofBool entered ++ BitVec.ofBool async ++ tlevel ++ 0#3 ++ c
/-- k.cause.code. -/
def causeCode (k : BitVec 14) : BitVec 5 := bits k 0 5
/-- k.cause.tlevel. -/
def causeLevel (k : BitVec 14) : BitVec 4 := bits k 8 4
/-- k.cause.async. -/
def causeAsync (k : BitVec 14) : Bool := bits k 12 1 == 1
/-- k.cause.entered. -/
def causeEntered (k : BitVec 14) : Bool := bits k 13 1 == 1

/-- The value of bytes, the first the least significant (R3). -/
def joinBytes : List Byte → Nat
  | [] => 0
  | b :: r => b.toNat + 256 * joinBytes r

/-- The low n bytes of a value, least significant first (R3). -/
def splitBytes : Nat → Nat → List Byte
  | 0, _ => []
  | n + 1, v => BitVec.ofNat 8 v :: splitBytes n (v / 256)

/-- x read as an n-bit two's-complement value, as a 64-bit word (R10). -/
def sext {w : Nat} (x : BitVec w) : Word := x.signExtend 64

/-- Items from the first on while counting down: the indices lo, lo + 1, ... of n items. -/
def upFrom : Nat → Nat → List Nat
  | _, 0 => []
  | lo, n + 1 => lo :: upFrom (lo + 1) n

/-- The first item with property p, and its place. -/
def firstIdx {α : Type} (p : α → Bool) : List α → Option Nat
  | [] => none
  | x :: r => if p x then some 0 else (firstIdx p r).map (· + 1)

/-- The list with item i changed. -/
def updAt {α : Type} (f : α → α) : List α → Nat → List α
  | [], _ => []
  | x :: r, 0 => f x :: r
  | x :: r, n + 1 => x :: updAt f r n

/-- The list without item i. -/
def dropAt {α : Type} : List α → Nat → List α
  | [], _ => []
  | _ :: r, 0 => r
  | x :: r, n + 1 => x :: dropAt r n

end Sys2Proof.Machine
end

