-- ==== Sys2Proof/WellFormed.lean ====
section
/-! DEFINITION. The codes of the enumerated fields, and what an instruction term must satisfy beyond its types
to have an encoding. The decoder refuses what is not well formed. -/

namespace Sys2Proof

/-! ## Codes -/

/-- Code of a condition (R165). -/
def Cond.code : Cond → BitVec 3
  | .eq => 0 | .ne => 1 | .lt => 2 | .ge => 3 | .ltu => 4 | .geu => 5 | .any => 6 | .none => 7
/-- Condition of a code (R165). -/
def Cond.ofCode (c : BitVec 3) : Cond :=
  match c.toNat with
  | 0 => .eq | 1 => .ne | 2 => .lt | 3 => .ge | 4 => .ltu | 5 => .geu | 6 => .any | _ => .none

/-- Code of a scope (R111). -/
def Scope.code : Scope → BitVec 3
  | .core => 0 | .cluster => 1 | .block => 2 | .die => 3 | .module => 4 | .system => 5
/-- Scope of a code; 6 and 7 name none (R111). -/
def Scope.ofCode (c : BitVec 3) : Option Scope :=
  match c.toNat with
  | 0 => some .core | 1 => some .cluster | 2 => some .block | 3 => some .die | 4 => some .module
  | 5 => some .system | _ => none

/-- Code of a space (R101). -/
def Space.code : Space → BitVec 2
  | .global => 0 | .scratch => 1 | .tcm => 2
/-- Space of a code; 3 names none (R101). -/
def Space.ofCode (c : BitVec 2) : Option Space :=
  match c.toNat with
  | 0 => some .global | 1 => some .scratch | 2 => some .tcm | _ => none

/-- Code of an ordering (R120). -/
def AOrd.code : AOrd → BitVec 2
  | .relaxed => 0 | .acquire => 1 | .release => 2 | .acqrel => 3
/-- Ordering of a code (R120). -/
def AOrd.ofCode (c : BitVec 2) : AOrd :=
  match c.toNat with
  | 0 => .relaxed | 1 => .acquire | 2 => .release | _ => .acqrel

/-- Code of an atomic operation (R221). -/
def AmoOp.code : AmoOp → BitVec 3
  | .add => 0 | .min => 1 | .max => 2 | .and => 3 | .or => 4 | .xor => 5 | .swp => 6 | .cas => 7
/-- Atomic operation of a code (R221). -/
def AmoOp.ofCode (c : BitVec 3) : AmoOp :=
  match c.toNat with
  | 0 => .add | 1 => .min | 2 => .max | 3 => .and | 4 => .or | 5 => .xor | 6 => .swp | _ => .cas

/-- Code of a load size (R219). -/
def LdSize.code : LdSize → BitVec 3
  | .n8 => 0 | .n16 => 1 | .n32 => 2 | .b8 => 3 | .i8 => 4 | .i16 => 5 | .i32 => 6
/-- Load size of a code; 7 names none (R219). -/
def LdSize.ofCode (c : BitVec 3) : Option LdSize :=
  match c.toNat with
  | 0 => some .n8 | 1 => some .n16 | 2 => some .n32 | 3 => some .b8 | 4 => some .i8 | 5 => some .i16
  | 6 => some .i32 | _ => none

/-- Code of an access size (R219, R220). -/
def MemSize.code : MemSize → BitVec 2
  | .n8 => 0 | .n16 => 1 | .n32 => 2 | .b8 => 3
/-- Access size of a code (R220). -/
def MemSize.ofCode (c : BitVec 2) : MemSize :=
  match c.toNat with
  | 0 => .n8 | 1 => .n16 | 2 => .n32 | _ => .b8

/-- Code of a sync mode (R90). -/
def SyncMode.code : SyncMode → BitVec 3
  | .plain => 0 | .rfull => 1 | .rfempty => 2 | .wefill => 3 | .wfill => 4 | .wempty => 5
/-- Sync mode of a code; 6 and 7 name none (R90). -/
def SyncMode.ofCode (c : BitVec 3) : Option SyncMode :=
  match c.toNat with
  | 0 => some .plain | 1 => some .rfull | 2 => some .rfempty | 3 => some .wefill | 4 => some .wfill
  | 5 => some .wempty | _ => none

/-- Code of a prefetch kind (R229). -/
def PfKind.code : PfKind → BitVec 2
  | .read => 0 | .write => 1 | .llc => 2
/-- Prefetch kind of a code; 3 names none (R229). -/
def PfKind.ofCode (c : BitVec 2) : Option PfKind :=
  match c.toNat with
  | 0 => some .read | 1 => some .write | 2 => some .llc | _ => none

/-- Code of an element type (R237). -/
def Et.code : Et → BitVec 4
  | .n8 => 0 | .n16 => 1 | .n32 => 2 | .n64 => 3 | .i8 => 4 | .i16 => 5 | .i32 => 6 | .i64 => 7
  | .f32 => 8 | .bf16 => 9 | .f16 => 10 | .e4m3 => 11 | .e5m2 => 12 | .e2m1 => 13
/-- Element type of a code; 0xE and 0xF name none (R237). -/
def Et.ofCode (c : BitVec 4) : Option Et :=
  match c.toNat with
  | 0 => some .n8 | 1 => some .n16 | 2 => some .n32 | 3 => some .n64 | 4 => some .i8 | 5 => some .i16
  | 6 => some .i32 | 7 => some .i64 | 8 => some .f32 | 9 => some .bf16 | 10 => some .f16 | 11 => some .e4m3
  | 12 => some .e5m2 | 13 => some .e2m1 | _ => none
/-- Lane width in bits (R237). -/
def Et.width : Et → Nat
  | .n8 | .i8 | .e4m3 | .e5m2 => 8
  | .n16 | .i16 | .bf16 | .f16 => 16
  | .n32 | .i32 | .f32 => 32
  | .n64 | .i64 => 64
  | .e2m1 => 4
/-- Lanes of a vector (R237). -/
def Et.lanes (e : Et) : Nat := 128 / e.width
/-- A floating-point element type (R237). -/
def Et.isFloat : Et → Bool
  | .f32 | .bf16 | .f16 | .e4m3 | .e5m2 | .e2m1 => true
  | _ => false

/-- Code of a reduction (R248). -/
def RedOp.code : RedOp → BitVec 2
  | .add => 0 | .min => 1 | .max => 2
/-- Reduction of a code; 3 names none (R248). -/
def RedOp.ofCode (c : BitVec 2) : Option RedOp :=
  match c.toNat with
  | 0 => some .add | 1 => some .min | 2 => some .max | _ => none

/-- Code of a relation (R243). -/
def VRel.code : VRel → BitVec 3
  | .eq => 0 | .ne => 1 | .lt => 2 | .ge => 3 | .le => 4 | .gt => 5 | .un => 6
/-- Relation of a code; 7 names none (R243). -/
def VRel.ofCode (c : BitVec 3) : Option VRel :=
  match c.toNat with
  | 0 => some .eq | 1 => some .ne | 2 => some .lt | 3 => some .ge | 4 => some .le | 5 => some .gt
  | 6 => some .un | _ => none

/-- Code of an SFU function (R251). -/
def SfuFn.code : SfuFn → BitVec 3
  | .exp2 => 0 | .log2 => 1 | .rcp => 2 | .rsqrt => 3 | .sqrt => 4
/-- SFU function of a code; 5 to 7 name none (R251). -/
def SfuFn.ofCode (c : BitVec 3) : Option SfuFn :=
  match c.toNat with
  | 0 => some .exp2 | 1 => some .log2 | 2 => some .rcp | 3 => some .rsqrt | 4 => some .sqrt | _ => none

/-- Code of a hypervector target (R293). -/
def HTarget.code : HTarget → BitVec 5
  | .h0 => 0 | .h1 => 1 | .h2 => 2 | .h3 => 3 | .ht => 4 | .k => 5
/-- Hypervector target of a code; 6 to 31 name none (R293). -/
def HTarget.ofCode (c : BitVec 5) : Option HTarget :=
  match c.toNat with
  | 0 => some .h0 | 1 => some .h1 | 2 => some .h2 | 3 => some .h3 | 4 => some .ht | 5 => some .k | _ => none

/-! ## Well-formed terms -/

/-- Types admitted by the floating-point lane operations (R241). -/
def Et.isArith : Et → Bool
  | .f32 | .bf16 | .f16 => true
  | _ => false

/-- Types admitted by `vdot` (R249). -/
def Et.isDot : Et → Bool
  | .n8 | .n16 | .i8 | .i16 | .bf16 | .f16 | .e4m3 | .e5m2 | .e2m1 => true
  | _ => false

/-- The destination type holds every value of the source type (R245). -/
def Et.exactTo (st dt : Et) : Bool :=
  dt == st || (dt == .f32 && st.isFloat) ||
    ((dt == .f16 || dt == .bf16) && (st == .e4m3 || st == .e5m2 || st == .e2m1))

/-- Option and part of a conversion (R245, R246). -/
def vcvtOk (part : BitVec 3) (dt st : Et) (opt : Bool) : Bool :=
  let r := if dt.width ≤ st.width then st.width / dt.width else dt.width / st.width
  let optOk := !opt || (match st.isFloat, dt.isFloat with
    | false, true => false
    | true, true => !st.exactTo dt
    | _, _ => true)
  optOk && decide (r < 16) && decide (part.toNat < r)

/-- Assigned numbers of supervisor registers (R344). -/
def sysnOk (k : BitVec 9) : Bool :=
  let n := k.toNat
  decide (n ≤ 0x14) || (decide (0x18 ≤ n) && decide (n ≤ 0x3F))

/-- Modes of `ldq` (R223). -/
def SyncMode.isLdq : SyncMode → Bool
  | .plain | .rfull | .rfempty => true
  | _ => false

/-- Modes of `fe.fill` (R223). -/
def SyncMode.isFill : SyncMode → Bool
  | .wefill | .wfill => true
  | _ => false

/-- The row names a step of the part that no parcel encodes. -/
def Instr.isEvent : Instr → Bool
  | .illegalInstruction _ | .fetchFault _ _ | .arrivalAccept _ | .stallWatchdog _ _ | .supervisorRunLimit _ _
  | .swarmJoinTimeout _ | .swarmDetach _ | .dieEntryResolve _ | .movedRedirect _ | .weirRefill _
  | .weirFullReply _ | .weirSpaceReply _ | .storeBufferDrain _ | .syncAccessAtOwner _ | .ldqEntryDeliver _
  | .atomicReply _ | .pageRefill _ | .pageWalk _ _ | .gatedReply _ | .remoteRequestPerform _
  | .remoteRequestComplete _ _ _ | .copyEngineRun _ | .streamEntryAppend _ | .matrixCommandPerform _
  | .latchTake _ | .ringHandoff _ | .latchWaitTimeout _ _ | .mpassRun _ | .sfuAccept _ | .sfuLand _
  | .channelEntrySend _ _ | .channelEntryArrive _ | .allowanceReturn _ _ | .launchFrontEndCheck _
  | .dispenserRound _ | .stageRelease _ | .unbind _ | .tileWalkerRun _ _ _ | .barrierArrive _
  | .gangBarrierNotice _ | .shapeResolve _ | .allocationService _ | .periodRelease _ | .budgetOverrun _ _ _
  | .pacerRelease _ | .loadExchange _ | .loadFigure _ | .pginvComplete _ | .pageMigration _ _
  | .oldHomeForward _ | .forwardCredit _ | .acknowledgement _ | .hostMemAccess _ _ _ _ | .doorbell _ _ _
  | .hostRequestTake _ _ | .rcbWindowGo | .keySlotCommit _ _ | .dividerWrite _ _ | .powerSwitchWrite _ _
  | .scratchpadGateRequest _ | .clusterGateRequest _ | .gateDrainComplete _ | .gateWake _ _ | .wakeComplete _
  | .coreReset _ _ | .pacerEnable _ _ | .mgmtRegisterWrite _ _ | .thermalNotify _ _ | .sramRailWindow _ _ _
  | .logicRailLower _ | .timingReplay _ _ | .coreCheck _ | .evictionError _ _ | .icacheParityError _ _
  | .linkRetransmit _ | .settleFlit _ _ | .encQueueAccept _ | .encJobStart _ | .encRowReady _
  | .encRowTimeout _ _ | .encUnitWrite _ | .moduleReset | .linkRetrain _ _ _ | .armedFlagRearm _ _ => true
  | _ => false

/-- What the fields of an instruction must satisfy beyond their types (R164, R166, R169 step 6). -/
def Instr.fieldsOk : Instr → Bool
  | .bext _ _ pos lenm1 | .bexts _ _ pos lenm1 | .bins _ _ pos lenm1 => decide (pos.toNat + lenm1.toNat ≤ 63)
  | .ldq _ _ _ _ m _ => m.isLdq
  | .feFill _ _ _ m _ => m.isFill
  | .vaddFp _ _ _ _ e | .vsubFp _ _ _ _ e | .vmulFp _ _ _ _ e | .vfma _ _ _ _ e | .vfnma _ _ _ _ e
  | .vabs _ _ e | .vneg _ _ e => e.isArith
  | .vcmp _ _ _ c e => !(decide (c = .un) && !e.isFloat)
  | .vbcastLane _ _ lane e | .vins _ _ lane e | .vext _ _ lane e => decide (lane.toNat < e.lanes)
  | .vcvt _ _ part dt src opt => vcvtOk part dt src opt
  | .vdot _ _ _ e => e.isDot
  | .sget _ k | .sset _ k => sysnOk k
  | .pginv _ _ z => decide (z.toNat ≤ 2)
  | .compactMov x _ => decide (x ≠ 0)
  | _ => true

/-- The instruction has an encoding. -/
def Instr.wellFormed (i : Instr) : Bool := !i.isEvent && i.fieldsOk

end Sys2Proof
end

