-- ==== Sys2Proof/Machine/Numbers.lean ====
section
/-! DEFINITION. Number formats and arithmetic (R134 to R155): exact values, rounding, conversions, the SFU functions,
the draws of stochastic rounding and the group sums of the matrix engine. -/

namespace Sys2Proof.Machine

/-! ## Integers -/

/-- The value of the low n bits of x, signed or not (R134). -/
def intOf (signed : Bool) (n : Nat) (x : Nat) : Int :=
  let y := x % 2 ^ n
  if signed ∧ y ≥ 2 ^ (n - 1) then (y : Int) - 2 ^ n else y

/-- The bits that Wrap leaves of x in n bits (R135). -/
def wrapN (n : Nat) (x : Int) : Nat := (x % 2 ^ n).toNat

/-- SatI of x to an n-bit format (R135). -/
def satI (signed : Bool) (n : Nat) (x : Int) : Int :=
  let lo : Int := if signed then -2 ^ (n - 1) else 0
  let hi : Int := if signed then 2 ^ (n - 1) - 1 else 2 ^ n - 1
  if x < lo then lo else if x > hi then hi else x

/-! ## Exact values -/

/-- An exact value: (-1)^neg * m * 2^e, an infinity or a NaN. -/
inductive Ext where
  | nan
  | inf (neg : Bool)
  | fin (neg : Bool) (m : Nat) (e : Int)
  deriving DecidableEq, Repr

/-- +0. -/
def Ext.zero : Ext := .fin false 0 0
/-- -0. -/
def Ext.negZero : Ext := .fin true 0 0

/-- The integer m with sign, scaled from exponent e down to exponent e0. -/
def alignTo (neg : Bool) (m : Nat) (e e0 : Int) : Int :=
  let v : Int := m * 2 ^ (e - e0).toNat
  if neg then -v else v

/-- The exact sum, with the signs of IEEE 754 (R139, R144). -/
def Ext.add : Ext → Ext → Ext
  | .nan, _ => .nan
  | _, .nan => .nan
  | .inf a, .inf b => if a = b then .inf a else .nan
  | .inf a, .fin _ _ _ => .inf a
  | .fin _ _ _, .inf b => .inf b
  | .fin a m e, .fin b n f =>
    if m = 0 then (if n = 0 then .fin (a && b) 0 0 else .fin b n f)
    else if n = 0 then .fin a m e
    else
      let g := if e ≤ f then e else f
      let v := alignTo a m e g + alignTo b n f g
      if v = 0 then .zero else .fin (decide (v < 0)) v.natAbs g

/-- The value with its sign changed. -/
def Ext.flip : Ext → Ext
  | .nan => .nan
  | .inf a => .inf (!a)
  | .fin a m e => .fin (!a) m e

/-- The exact product (R139). -/
def Ext.mul : Ext → Ext → Ext
  | .nan, _ => .nan
  | _, .nan => .nan
  | .inf a, .inf b => .inf (a != b)
  | .inf a, .fin b n _ => if n = 0 then .nan else .inf (a != b)
  | .fin a m _, .inf b => if m = 0 then .nan else .inf (a != b)
  | .fin a m e, .fin b n f => .fin (a != b) (m * n) (e + f)

/-- The value is a NaN. -/
def Ext.isNan : Ext → Bool
  | .nan => true
  | _ => false

/-- x < y by value; false with a NaN. -/
def Ext.lt : Ext → Ext → Bool
  | .nan, _ => false
  | _, .nan => false
  | .inf a, .inf b => a && !b
  | .inf a, .fin _ _ _ => a
  | .fin _ _ _, .inf b => !b
  | .fin a m e, .fin b n f =>
    let g := if e ≤ f then e else f
    decide (alignTo a m e g < alignTo b n f g)

/-- x = y by value; false with a NaN. -/
def Ext.eqv (x y : Ext) : Bool := !x.isNan && !y.isNan && !x.lt y && !y.lt x

/-- The value is zero. -/
def Ext.isZero : Ext → Bool
  | .fin _ m _ => m == 0
  | _ => false

/-- The sign. -/
def Ext.neg : Ext → Bool
  | .nan => false
  | .inf a => a
  | .fin a _ _ => a

/-! ## Formats -/

/-- A floating-point format (R136). -/
structure Fmt where
  /-- width of the format -/
  w : Nat
  /-- mantissa bits -/
  mb : Nat
  bias : Nat
  /-- code of the largest finite value -/
  maxFin : Nat
  /-- code of infinity, in formats that have it -/
  inf : Option Nat
  /-- canonical NaN, in formats that have it (R138) -/
  nan : Option Nat
  /-- a finite magnitude above the largest becomes infinity (R149) -/
  toInf : Bool
  deriving DecidableEq, Repr

/-- FP32. -/
def fp32 : Fmt := { w := 32, mb := 23, bias := 127, maxFin := 0x7F7FFFFF, inf := some 0x7F800000, nan := some 0x7FC00000, toInf := true }
/-- BF16. -/
def bf16 : Fmt := { w := 16, mb := 7, bias := 127, maxFin := 0x7F7F, inf := some 0x7F80, nan := some 0x7FC0, toInf := true }
/-- FP16. -/
def fp16 : Fmt := { w := 16, mb := 10, bias := 15, maxFin := 0x7BFF, inf := some 0x7C00, nan := some 0x7E00, toInf := true }
/-- E4M3. -/
def e4m3 : Fmt := { w := 8, mb := 3, bias := 7, maxFin := 0x7E, inf := none, nan := some 0x7F, toInf := false }
/-- E5M2. -/
def e5m2 : Fmt := { w := 8, mb := 2, bias := 15, maxFin := 0x7B, inf := some 0x7C, nan := some 0x7E, toInf := false }
/-- E2M1. -/
def e2m1 : Fmt := { w := 4, mb := 1, bias := 1, maxFin := 0x7, inf := none, nan := none, toInf := false }

/-- The format of a floating-point element type. -/
def fmtOf : Et → Fmt
  | .bf16 => bf16
  | .f16 => fp16
  | .e4m3 => e4m3
  | .e5m2 => e5m2
  | .e2m1 => e2m1
  | _ => fp32

/-- Exponent of the smallest subnormal. -/
def Fmt.qmin (f : Fmt) : Int := 1 - f.bias - f.mb

/-- The sign bit put on a magnitude code. -/
def Fmt.signed (f : Fmt) (neg : Bool) (code : Nat) : Nat := if neg then code + 2 ^ (f.w - 1) else code

/-- The value of a code (R136, R137). -/
def Fmt.value (f : Fmt) (x : Nat) : Ext :=
  let neg := x / 2 ^ (f.w - 1) % 2 == 1
  let c := x % 2 ^ (f.w - 1)
  if c > f.maxFin then (if some c = f.inf then .inf neg else .nan)
  else
    let e := c / 2 ^ f.mb
    let m := c % 2 ^ f.mb
    if e = 0 then .fin neg m f.qmin else .fin neg (2 ^ f.mb + m) (f.qmin + e - 1)

/-- What a format holds for an infinity (R149). -/
def Fmt.ofInf (f : Fmt) (neg : Bool) : Nat := f.signed neg (f.inf.getD f.maxFin)

/-- What a format holds for a NaN: E2M1 has none and takes +0 (R149). -/
def Fmt.ofNan (f : Fmt) : Nat := f.nan.getD 0

/-- What a format holds for a finite magnitude that rounds above its largest (R149). -/
def Fmt.over_ (f : Fmt) (neg : Bool) : Nat := f.signed neg (if f.toInf then f.inf.getD f.maxFin else f.maxFin)

/-- The spacing exponent of the format at m * 2^e, m not zero. -/
def Fmt.quantum (f : Fmt) (m : Nat) (e : Int) : Int :=
  let q := e + Nat.log2 m - f.mb
  if q < f.qmin then f.qmin else q

/-- m * 2^e in units of 2^q, rounded to nearest even. -/
def roundTo (m : Nat) (e q : Int) : Nat :=
  if q ≤ e then m * 2 ^ (e - q).toNat
  else
    let k := (q - e).toNat
    let lo := m / 2 ^ k
    let rem := m % 2 ^ k
    if 2 * rem > 2 ^ k ∨ (2 * rem = 2 ^ k ∧ lo % 2 = 1) then lo + 1 else lo

/-- RoundRNE (R144) with the fate of R149. -/
def Fmt.rne (f : Fmt) : Ext → Nat
  | .nan => f.ofNan
  | .inf a => f.ofInf a
  | .fin a m e =>
    if m = 0 then f.signed a 0
    else
      let q := f.quantum m e
      let c := (q - f.qmin).toNat * 2 ^ f.mb + roundTo m e q
      if c > f.maxFin then f.over_ a else f.signed a c

/-- RoundSR with draw u (R145). -/
def Fmt.sr (f : Fmt) (u : Nat) : Ext → Nat
  | .fin a m e =>
    if m = 0 then f.rne (.fin a m e)
    else if (f.value f.maxFin).lt (.fin false m e) then f.rne (.fin a m e)
    else
      let q := f.quantum m e
      if q ≤ e then f.rne (.fin a m e)
      else
        let k := (q - e).toNat
        let c := (q - f.qmin).toNat * 2 ^ f.mb + m / 2 ^ k
        let rem := m % 2 ^ k
        if rem = 0 then f.signed a c
        else f.signed a (if u < rem * 2 ^ 16 / 2 ^ k then c + 1 else c)
  | x => f.rne x

/-- Rounding as an instruction names it: nearest even, or stochastic with a draw. -/
def Fmt.round (f : Fmt) (draw : Option Nat) (x : Ext) : Nat :=
  match draw with
  | none => f.rne x
  | some u => f.sr u x

/-- Rounding to an integer, then SatI (R150). -/
def toInteger (signed : Bool) (n : Nat) (draw : Option Nat) : Ext → Int
  | .nan => 0
  | .inf a => if a then satI signed n (-2 ^ 80) else satI signed n (2 ^ 80)
  | .fin a m e =>
    if e > 80 ∧ m ≠ 0 then satI signed n (if a then -2 ^ 80 else 2 ^ 80)
    else
      let v := match draw with
        | none => roundTo m e 0
        | some u =>
          if 0 ≤ e then m * 2 ^ e.toNat
          else
            let k := (-e).toNat
            if u < m % 2 ^ k * 2 ^ 16 / 2 ^ k then m / 2 ^ k + 1 else m / 2 ^ k
      satI signed n (if a then -(v : Int) else v)

/-- The exact value of an integer. -/
def ofInteger (x : Int) : Ext := if x = 0 then .zero else .fin (decide (x < 0)) x.natAbs 0

/-- Minimum of two encodings of a format, the chosen one unrounded (R140, R242). -/
def Fmt.minmax (f : Fmt) (max : Bool) (x y : Nat) : Nat :=
  let a := f.value x
  let b := f.value y
  if a.isNan ∨ b.isNan then f.ofNan
  else if a.lt b then (if max then y else x)
  else if b.lt a then (if max then x else y)
  else if a.neg = max then y else x

/-! ## Draws of stochastic rounding -/

/-- Mix64 (R146). -/
def mix64 (seed : Word) (lid : CoreId) (c : Word) : Word :=
  let z := seed + lid.setWidth 64 * 0xD1B54A32D192ED03 + c * 0x9E3779B97F4A7C15
  let z := (z ^^^ (z >>> 30)) * 0xBF58476D1CE4E5B9
  let z := (z ^^^ (z >>> 27)) * 0x94D049BB133111EB
  z ^^^ (z >>> 31)

/-- SRDraw(i) of a core (R146). -/
def Core.draw (c : Core) (i : Nat) : Nat :=
  (bits (mix64 c.seed c.lid (c.sctr + BitVec.ofNat 64 (i / 4))) (16 * (i % 4)) 16).toNat

/-! ## The special functions (R152, R153) -/

/-- Integer square root by digits: the largest r below 2^n with r * r no larger than x. -/
def isqrtFrom (x : Nat) : Nat → Nat → Nat
  | 0, r => r
  | n + 1, r => if (r + 2 ^ n) * (r + 2 ^ n) ≤ x then isqrtFrom x n (r + 2 ^ n) else isqrtFrom x n r

/-- Integer square root. -/
def isqrt (x : Nat) : Nat := isqrtFrom x (Nat.log2 x / 2 + 1) 0

/-- ln 2 and log2 e in units of 2^-160. -/
def ln2u : Nat := 1013035739299659071135698605846798551586536899366
/-- log2 e in units of 2^-160. -/
def log2e : Nat := 2108501164428393954197770173035669514763056903505

/-- The sum of y^k / k! from term t = y^k / k! on, in units of 2^-160. -/
def expFrom (y : Nat) : Nat → Nat → Nat → Nat
  | 0, _, _ => 0
  | n + 1, k, t => t + expFrom y n (k + 1) (t * y / 2 ^ 160 / (k + 1))

/-- The sum of z^(2k+1) / (2k+1) from power p = z^(2k+1) on, in units of 2^-160. -/
def atanhFrom (z2 : Nat) : Nat → Nat → Nat → Nat
  | 0, _, _ => 0
  | n + 1, k, p => p / (2 * k + 1) + atanhFrom z2 n (k + 1) (p * z2 / 2 ^ 160)

/-- 2^x for finite x, exact for integers and to far more bits than a rounding can see otherwise. -/
def exp2Ext (a : Bool) (m : Nat) (e : Int) : Ext :=
  if m = 0 then .fin false 1 0
  else if e + Nat.log2 m ≥ 8 then (if a then .zero else .inf false)
  else
    -- x = n + g / 2^149 with 0 ≤ g < 2^149
    let v := alignTo a m e (-149)
    let n := v.fdiv (2 ^ 149)
    let g := (v - n * 2 ^ 149).toNat
    if g = 0 then .fin false 1 n
    else .fin false (2 * expFrom (g * ln2u / 2 ^ 149) 48 0 (2 ^ 160) + 1) (n - 161)

/-- log2 x for x = m * 2^e, m not zero. -/
def log2Ext (m : Nat) (e : Int) : Ext :=
  let l := Nat.log2 m
  let n : Int := e + l
  if m = 2 ^ l then ofInteger n
  else
    let z := (m - 2 ^ l) * 2 ^ 160 / (m + 2 ^ l)
    let f : Nat := 2 * atanhFrom (z * z / 2 ^ 160) 56 0 z * log2e / 2 ^ 160
    let v : Int := n * 2 ^ 161 + (2 * f + 1 : Nat)
    .fin (decide (v < 0)) v.natAbs (-161)

/-- 1 / x for x = m * 2^e, m not zero. -/
def rcpExt (a : Bool) (m : Nat) (e : Int) : Ext :=
  let k := 64 + Nat.log2 m
  let q := 2 ^ k / m
  .fin a (2 * q + if q * m = 2 ^ k then 0 else 1) (-k - 1 - e)

/-- The square root of x = m * 2^e. -/
def sqrtExt (m : Nat) (e : Int) : Ext :=
  let (m, e) := if e % 2 = 0 then (m, e) else (2 * m, e - 1)
  let x := m * 2 ^ 80
  let r := isqrt x
  .fin false (2 * r + if r * r = x then 0 else 1) (e / 2 - 41)

/-- 1 over the square root of x = m * 2^e, m not zero. -/
def rsqrtExt (m : Nat) (e : Int) : Ext :=
  let (m, e) := if e % 2 = 0 then (m, e) else (2 * m, e - 1)
  let k := 48 + Nat.log2 m
  let r := isqrt (2 ^ (2 * k) / m)
  .fin false (2 * r + if r * r * m = 2 ^ (2 * k) then 0 else 1) (-k - 1 - e / 2)

/-- A special function of an FP32 code (R152, R153). -/
def sfuLane (fn : SfuFn) (x : Nat) : Nat :=
  match fn, fp32.value x with
  | _, .nan => fp32.ofNan
  | .exp2, .inf a => if a then 0 else fp32.ofInf false
  | .exp2, .fin a m e => fp32.rne (exp2Ext a m e)
  | .log2, .inf a => if a then fp32.ofNan else fp32.ofInf false
  | .log2, .fin a m e =>
    if m = 0 then fp32.ofInf true else if a then fp32.ofNan else fp32.rne (log2Ext m e)
  | .rcp, .inf a => fp32.signed a 0
  | .rcp, .fin a m e => if m = 0 then fp32.ofInf a else fp32.rne (rcpExt a m e)
  | .rsqrt, .inf a => if a then fp32.ofNan else 0
  | .rsqrt, .fin a m e =>
    if m = 0 then fp32.ofInf a else if a then fp32.ofNan else fp32.rne (rsqrtExt m e)
  | .sqrt, .inf a => if a then fp32.ofNan else fp32.ofInf false
  | .sqrt, .fin a m e =>
    if m = 0 then fp32.signed a 0 else if a then fp32.ofNan else fp32.rne (sqrtExt m e)

/-! ## Group sums (R154) -/

/-- The exact sum of a group of products: -0 only when every product is -0. -/
def groupSum (l : List (Ext × Ext)) : Ext := l.foldl (fun g p => g.add (p.1.mul p.2)) .negZero

/-- An FP32 accumulator after one group (R154). -/
def accGroup (acc : Nat) (l : List (Ext × Ext)) : Nat := fp32.rne ((fp32.value acc).add (groupSum l))

/-- Every group of up to 8 products in order. -/
def accGroups : Nat → Nat → List (Ext × Ext) → Nat
  | 0, acc, _ => acc
  | _ + 1, acc, [] => acc
  | n + 1, acc, l => accGroups n (accGroup acc (l.take 8)) (l.drop 8)

/-! ## Block scales and codebooks (R141 to R143) -/

/-- The value of an E8M0 scale (R141). -/
def e8m0 (x : Nat) : Ext := if x % 256 = 255 then .nan else .fin false 1 ((x % 256 : Nat) - 127)

/-- Weight i of a CB2 index (R142), in quarters. -/
def cb2Weight (c : BitVec 16) (i : Nat) : Ext :=
  let parity := (List.range 7).foldl (fun p j => p != c.getLsbD (8 + j)) false
  let neg := if i = 7 then parity else c.getLsbD (8 + i)
  let half : Int := 2 + if c.getLsbD i then 4 else 0
  let q : Int := (if neg then -half else half) + if c.getLsbD 15 then 1 else 0
  .fin (decide (q < 0)) q.natAbs (-2)

end Sys2Proof.Machine
end

