-- ==== Sys2Proof/Config.lean ====
section
/-! DEFINITION. What the spec leaves open: free values, which nothing in Lean can evaluate. A number picked by the
counter State.free makes each use its own value (log entry 3). -/

namespace Sys2Proof.Config

/-- A byte read under a key that did not write it (R400), or of a trimmed allocation (R318). -/
opaque freeByte (count index : Nat) : Byte

/-- Successors, beside the first, that a home records for a barrier before further ones go to the weir, the bytes of such an entry there, and its kind
in k.addr of the quota trap: the spec gives none of the three (R324, R377, R378). -/
opaque barrierDepth : Nat

@[inherit_doc barrierDepth] opaque barrierBytes : Nat

@[inherit_doc barrierDepth] opaque barrierKind : Nat

/-- A word that the spec does not state. -/
opaque freeWord (count index : Nat) : Word

/-- What AV1 leaves to an encoder in a frame coded at base qindex q from its records, pixels and the stream's state, with coefficients
dropped or not: field i of the frame header (R421, R427, R428). -/
opaque encField (inputs : List Word) (q : Byte) (dropped : Bool) (i : Nat) : Nat

/-- The data of tile i of that frame, a first byte and the rest. -/
opaque encTile (inputs : List Word) (q : Byte) (dropped : Bool) (i : Nat) : Byte × List Byte

/-- The base qindex that rate control sets for the frame (R428). -/
opaque encQidx (inputs : List Word) : Byte

/-- The base qindex to which a frame over its budget is raised (R428). -/
opaque encRaised (inputs : List Word) : Byte

/-- Bytes that a stream's buffer model holds, as its rate-control state says: how it says so is not stated (R424, R428). -/
opaque encHeld (rcstate : List Word) : Nat

/-- Word i of the stream's rate-control state after the frame (R424). -/
opaque encState (inputs : List Word) (i : Nat) : Word

/-- A block is one of a partition's, which the spec names nowhere (R372, R403). -/
opaque partitionBlock (partition : BitVec 56) (blk : BitVec 10) : Bool

/-- Word i of the reconstruction written to the reference area (R424). -/
opaque encReference (inputs : List Word) (i : Nat) : Word

end Sys2Proof.Config
end

