-- ==== Sys2Proof/Machine/Memory.lean ====
section
/-! DEFINITION. The named operations over memory: physical memory with domain tags (R399 to R401), copies of other
dies' words (R115, R117), translation (R385 to R389), the PLB (R384), TCM, and scratchpad pages (R76 to R80). -/

namespace Sys2Proof.Machine

/-- Why an instruction does not retire in this step. -/
inductive Stop where
  /-- precise trap: cause and k.addr (R348) -/
  | trap (c : BitVec 5) (a : Word)
  /-- a stall of R60, which the stall watchdog counts -/
  | stall
  /-- a bounded wait, or a hold that is no stall -/
  | hold
  /-- the frame parks: why and faulting address (R330) -/
  | park (why : BitVec 4) (va : Word)
  deriving DecidableEq, Repr

/-- An operation that answers a value, or stops with the state it leaves. -/
abbrev Res (α : Type) := Except (State × Stop) α

/-- Stops unless the condition holds. -/
def demand (c : Bool) (s : State) (e : Stop) : Res Unit := if c then .ok () else .error (s, e)

/-! ## Memory -/

/-- The byte at a. -/
def Memory.get (m : Memory) (a : Nat) : Byte := Cells.getD m a Memory.absent
/-- m with the byte at a written, in canonical form. -/
def Memory.set (m : Memory) (a : Nat) (b : Byte) : Memory := Cells.putD Memory.absent m a b
/-- The n bytes from a. -/
def Memory.read (m : Memory) : Nat → Nat → List Byte
  | _, 0 => []
  | a, n + 1 => m.get a :: m.read (a + 1) n
/-- m with bytes written from a. -/
def Memory.write (m : Memory) : Nat → List Byte → Memory
  | _, [] => m
  | a, b :: r => Memory.write (m.set a b) (a + 1) r
/-- m without the bytes from lo to hi - 1: they read as zero. -/
def Memory.clear (m : Memory) (lo hi : Nat) : Memory := Cells.drop m fun a => decide (lo ≤ a) && decide (a < hi)

/-- A full-empty bit; an unlisted word is full (R89). -/
def feGet (m : Cells Bool) (w : Nat) : Bool := Cells.getD m w true
/-- A full-empty bit written. -/
def feSet (m : Cells Bool) (w : Nat) (x : Bool) : Cells Bool := Cells.putD true m w x
/-- A poison mark; an unlisted word is not poisoned. -/
def poisonGet (m : Cells Bool) (w : Nat) : Bool := Cells.getD m w false
/-- A poison mark written. -/
def poisonSet (m : Cells Bool) (w : Nat) (x : Bool) : Cells Bool := Cells.putD false m w x

/-! ## Physical memory -/

/-- The PA names host memory (R382). -/
def isHost (pa : Nat) : Bool := pa / 2 ^ 51 % 2 == 1
/-- The home die of a device PA (R382). -/
def homeDie (pa : Nat) : BitVec 4 := BitVec.ofNat 4 (pa / 2 ^ 36)
/-- The home of the word at pa is the die. -/
def homedOn (die : BitVec 4) (pa : Nat) : Bool := !isHost pa && homeDie pa == die

/-- Where an access to pa is performed: a granule already copied by a page migration is at its new home (R397). -/
def State.live (s : State) (pa : Nat) : Nat :=
  match s.migrations.find? fun m => m.p == pa / 65536 && decide (pa % 65536 / 64 < m.next) with
  | some m => m.p2 * 65536 + pa % 65536
  | none => pa

/-- The key slot of a domain: the effective key of its region, and slot 0 where no region is known (R364, R399). -/
def State.keySlot (s : State) (dom : BitVec 16) : Nat :=
  match s.regions.find? fun e => e.2.dom == dom with
  | some e => e.2.eff.key.toNat
  | none => 0

/-- The key that slot x of a quay holds, as State.bkey numbers keys: slot 0 holds the domain-0 key of bring-up until another is committed
(R399, R449). What a slot holds into which no key was ever loaded is not stated: it is a key of its own, and no key that is known. -/
def Quay.slotKey (q : Quay) (x : Nat) : Nat :=
  match Cells.find q.keys x with
  | some k => k.toList.foldl (fun n w => n * 2 ^ 64 + w.toNat) 0 + 1
  | none => if x = 0 then 0 else 2 ^ 512 + 1 + x

/-- The key of a domain at the quay of a PA (R399). -/
def State.keyOf (s : State) (dom : BitVec 16) (pa : Nat) : Nat := (s.quay (homeDie pa)).slotKey (s.keySlot dom)

/-- The byte that domain dom reads at its home (R83, R400, R401). -/
def State.homeByte (s : State) (dom : BitVec 16) (pa : Nat) : Byte :=
  if isHost pa then s.mem.get pa
  else
    let l := Cells.getD s.lines (pa / 64) 0
    if l ≠ 0 ∧ l ≠ dom.toNat + 1 then 0
    else if Cells.getD s.bkey (pa / 16) 0 = s.keyOf dom pa then s.mem.get pa
    else Config.freeByte s.free pa

/-- n bytes read at their home. -/
def State.homeBytes (s : State) (dom : BitVec 16) : Nat → Nat → List Byte
  | _, 0 => []
  | pa, n + 1 => s.homeByte dom pa :: State.homeBytes s dom (pa + 1) n

/-- The line of pa is on chip for domain dom (R401). -/
def State.touchLine (s : State) (dom : BitVec 16) (pa : Nat) : State :=
  if isHost pa then s else { s with lines := Cells.putD 0 s.lines (pa / 64) (dom.toNat + 1) }

/-- The XTS block of 16 bytes around pa is enciphered under domain dom's key: from another key its bytes are what the domain reads
there, unrelated to those that were written (R399, R400). -/
def State.rekey (s : State) (dom : BitVec 16) (pa : Nat) : State :=
  if isHost pa ∨ Cells.getD s.bkey (pa / 16) 0 = s.keyOf dom pa then s
  else
    let lo := pa / 16 * 16
    { s with mem := s.mem.write lo ((upFrom lo 16).map fun a => Config.freeByte s.free a)
             bkey := Cells.putD 0 s.bkey (pa / 16) (s.keyOf dom pa) }

/-- One byte written at its home under domain dom. -/
def State.homeSet (s : State) (dom : BitVec 16) (pa : Nat) (b : Byte) : State :=
  let s := s.rekey dom pa
  { s with mem := s.mem.set pa b }

/-- Bytes written at their home under domain dom, one after another. -/
def State.homeWrite (s : State) (dom : BitVec 16) : Nat → List Byte → State
  | _, [] => s
  | pa, b :: r => State.homeWrite (s.homeSet dom pa b) dom (pa + 1) r

/-- Bytes of one word written at their home; a whole word clears the word's poison (R218). -/
def State.homeStore (s : State) (dom : BitVec 16) (pa : Nat) (bs : List Byte) : State :=
  let s := (s.homeWrite dom pa bs).touchLine dom pa
  if pa % 8 = 0 ∧ bs.length = 8 then { s with poison := poisonSet s.poison (pa / 8) false } else s

/-- The bytes of a copy that were stored, written to their home (R82). -/
def State.writeBackFrom (s : State) (dom : BitVec 16) (word : Nat) (data : Word) (dirty : Byte) : Nat → State
  | 0 => s
  | i + 1 =>
    let s := State.writeBackFrom s dom word data dirty i
    if dirty.getLsbD i then s.homeSet dom (s.live (word * 8 + i)) (bits data (8 * i) 8) else s

/-- A copy's stored bytes written to their home; a store of the whole word among them clears poison (R218). -/
def State.writeBack (s : State) (word : Nat) (c : Copy) : State :=
  if c.dirty = 0 then s
  else
    let s := (s.writeBackFrom c.dom word c.data c.dirty 8).touchLine c.dom (s.live (word * 8))
    if c.whole then { s with poison := poisonSet s.poison (s.live (word * 8) / 8) false } else s

/-- A release beyond the die writes every stored byte of the die's copies to its home (R117). -/
def State.releaseDie (s : State) (die : BitVec 4) : State :=
  let s := (s.die die).copies.foldl (fun s e => s.writeBack e.1 e.2) s
  s.updDie die fun d => { d with copies := d.copies.map fun e => (e.1, { e.2 with dirty := 0, whole := false }) }

/-- An acquire beyond the die discards the die's copies; stored bytes reach their home first (R117). -/
def State.acquireDie (s : State) (die : BitVec 4) : State :=
  let s := (s.die die).copies.foldl (fun s e => s.writeBack e.1 e.2) s
  s.updDie die fun d => { d with copies := [] }

/-- The die's copy of one word goes back to its home. -/
def State.evictCopy (s : State) (die : BitVec 4) (word : Nat) : State :=
  match Cells.find (s.die die).copies word with
  | some c => (s.writeBack word c).updDie die fun d => { d with copies := Cells.erase d.copies word }
  | none => s

/-- What a reader on a die sees at pa, without leaving a mark: n bytes of one word. -/
def State.peek (s : State) (die : BitVec 4) (dom : BitVec 16) (pa n : Nat) : List Byte :=
  let p := s.live pa
  if homedOn die p then s.homeBytes dom p n
  else
    match Cells.find (s.die die).copies (pa / 8) with
    | some c => if c.dom = dom then splitBytes n (c.data.toNat / 2 ^ (8 * (pa % 8))) else List.replicate n 0
    | none => s.homeBytes dom p n

/-- The 64 KiB page of a virtual address, by which copies are named (R358). -/
def pageName (va : Nat) : Nat := va / 65536

/-- A die takes a copy of the word at pa for a domain, which names it by va: a line that carried another domain is refilled for this
one (R83, R401). -/
def State.takeCopy (s : State) (die : BitVec 4) (dom : BitVec 16) (va pa : Nat) : State :=
  let p := s.live pa
  let s := s.touchLine dom p
  let w := BitVec.ofNat 64 (joinBytes (s.homeBytes dom (p / 8 * 8) 8))
  s.updDie die fun d => { d with copies := Cells.put d.copies (pa / 8) { dom, data := w, dirty := 0, whole := false, names := [pageName va] } }

/-- A copy of the die's is named by a further virtual address. -/
def State.nameCopy (s : State) (die : BitVec 4) (va pa : Nat) (c : Copy) : State :=
  if c.names.contains (pageName va) then s
  else s.updDie die fun d => { d with copies := Cells.put d.copies (pa / 8) { c with names := pageName va :: c.names } }

/-- n bytes of one word read by a die through the virtual address va: a word of another die leaves a copy (R115); a line of another
domain reads zeros and is refilled (R83). -/
def State.dieRead (s : State) (die : BitVec 4) (dom : BitVec 16) (va pa n : Nat) : State × List Byte :=
  let bs := s.peek die dom pa n
  let p := s.live pa
  if homedOn die p then (s.touchLine dom p, bs)
  else
    match Cells.find (s.die die).copies (pa / 8) with
    | some c => if c.dom = dom then (s.nameCopy die va pa c, bs) else ((s.evictCopy die (pa / 8)).takeCopy die dom va pa, bs)
    | none => (s.takeCopy die dom va pa, bs)

/-- The mask of n bytes from byte o of a word. -/
def byteMask (o n : Nat) : Byte := BitVec.ofNat 8 ((2 ^ n - 1) * 2 ^ o)

/-- Bytes of one word stored by a die through the virtual address va: a word of another die stays in the die's copy until it is
written back. -/
def State.dieWrite (s : State) (die : BitVec 4) (dom : BitVec 16) (va pa : Nat) (bs : List Byte) : State :=
  let p := s.live pa
  if homedOn die p then s.homeStore dom p bs
  else
    let s := match Cells.find (s.die die).copies (pa / 8) with
      | some c => if c.dom = dom then s else s.evictCopy die (pa / 8)
      | none => s
    let s := (s.dieRead die dom va (pa / 8 * 8) 8).1
    let o := pa % 8
    s.updDie die fun d =>
      match Cells.find d.copies (pa / 8) with
      | some c =>
        let c := { c with data := putBits c.data (8 * o) (8 * bs.length) (joinBytes bs)
                          dirty := c.dirty ||| byteMask o bs.length
                          whole := c.whole || bs.length == 8 }
        { d with copies := Cells.put d.copies (pa / 8) c }
      | none => d

/-- The word at pa is poisoned for a reader on the die, unless its die's copy holds a store of the whole word (R218, R402). -/
def State.poisoned (s : State) (die : BitVec 4) (pa : Nat) : Bool :=
  poisonGet s.poison (s.live pa / 8) &&
    !(match Cells.find (s.die die).copies (pa / 8) with
      | some c => c.whole
      | none => false)

/-! ## Translation -/

/-- The outcome of a translation. -/
inductive Xlate where
  | page (pa : Nat)
  /-- absent with its akind; a malformed entry is absent with akind 0 and is marked (R388) -/
  | absent (akind : BitVec 2) (malformed : Bool)
  deriving DecidableEq, Repr

/-- A PA has one of the two forms of R382. -/
def paOk (pa : Nat) : Bool := isHost pa || decide (pa / 2 ^ 40 % 2 ^ 11 = 0)

/-- The entry e of level l is malformed (R388). -/
def pteBad (e : Word) (l : Nat) : Bool :=
  if bits e 52 12 ≠ 0 then true
  else if bits e 1 1 = 1 then
    decide (bits e 3 13 ≠ 0) || decide (l = 3) || decide (e.toNat / 2 ^ 16 % 2 ^ (10 * l) ≠ 0) ||
      !paOk (e.toNat % 2 ^ 52 / 2 ^ 16 * 2 ^ 16)
  else decide (bits e 2 11 ≠ 0) || decide (l = 0) || !paOk (e.toNat % 2 ^ 52 / 2 ^ 13 * 2 ^ 13)

/-- The table entry at PA a as a walk on behalf of a core with this store buffer sees it: the core's own stores to it happen before
the walk (R389). -/
def State.tableWord (s : State) (die : BitVec 4) (buf : List StoreEntry) (a : Nat) : Word :=
  buf.foldl (fun (w : Word) e =>
    if e.space ≠ .tcm ∧ e.mode.isNone ∧ e.dom = 0 ∧ e.pa / 8 = a / 8 then
      putBits w (8 * (e.pa % 8)) (8 * e.size) (e.data.toNat % 2 ^ (8 * e.size))
    else w) (BitVec.ofNat 64 (joinBytes (s.peek die 0 a 8)))

/-- A walk from the node at PA n with j levels to go, on behalf of a core with this store buffer (R387). It answers the level of the
leaf, too. -/
def State.walkFrom (s : State) (die : BitVec 4) (buf : List StoreEntry) (va : BitVec 56) : Nat → Nat → Xlate × Nat
  | _, 0 => (.absent 0 true, 0)
  | n, l + 1 =>
    let a := n + 8 * (va.toNat / 2 ^ (16 + 10 * l) % 1024)
    if s.poisoned die a then (.absent 0 false, l)
    else
      let e : Word := s.tableWord die buf a
      if bits e 0 1 = 0 then (.absent (bits e 2 2) false, l)
      else if pteBad e l then (.absent 0 true, l)
      else if bits e 1 1 = 1 then
        (.page (e.toNat % 2 ^ 52 / 2 ^ 16 * 2 ^ 16 + va.toNat % 2 ^ (16 + 10 * l)), l)
      else State.walkFrom s die buf va (e.toNat % 2 ^ 52 / 2 ^ 13 * 2 ^ 13) l

/-- The lines of the nodes that a walk reads at their homes are refilled for domain 0 where they carried another (R83). -/
def State.touchNodes (s : State) (die : BitVec 4) (buf : List StoreEntry) (va : BitVec 56) : Nat → Nat → State
  | _, 0 => s
  | n, l + 1 =>
    let a := n + 8 * (va.toNat / 2 ^ (16 + 10 * l) % 1024)
    let e : Word := s.tableWord die buf a
    let s := if Cells.getD s.lines (s.live a / 64) 0 ≤ 1 then s else s.touchLine 0 (s.live a)
    if s.poisoned die a ∨ bits e 0 2 ≠ 1 then s else State.touchNodes s die buf va (e.toNat % 2 ^ 52 / 2 ^ 13 * 2 ^ 13) l

/-- A translation that the die's walkers keep (R389). -/
def Die.tlbFind (d : Die) (va : BitVec 56) : Option Nat :=
  match d.tlb.find? fun e => e.page == va.toNat / 2 ^ (16 + 10 * e.level.toNat) with
  | some e => some (e.frame + va.toNat % 2 ^ (16 + 10 * e.level.toNat))
  | none => none

/-- The translation of va by the die, for a core with this store buffer where one asks (R387, R389): present translations are kept
until a pginv. -/
def State.translate (s : State) (die : BitVec 4) (va : BitVec 56) (buf : List StoreEntry := []) : State × Xlate :=
  match (s.die die).tlbFind va with
  | some pa => (s, .page pa)
  | none =>
    let w := s.walkFrom die buf va 0 4
    let s := s.touchNodes die buf va 0 4
    match w with
    | (.page pa, l) =>
      let e : TlbEntry := { page := va.toNat / 2 ^ (16 + 10 * l), level := BitVec.ofNat 2 l,
                            frame := pa - va.toNat % 2 ^ (16 + 10 * l) }
      (s.updDie die fun d => { d with tlb := e :: d.tlb }, .page pa)
    | (x, _) => (s, x)

/-- A word of domain-0 memory by virtual address, as the part reads it (R381): none when it cannot. -/
def State.partWord (s : State) (die : BitVec 4) (va : Nat) : Option Word :=
  if va ≥ 2 ^ 56 ∨ va % 8 ≠ 0 then none
  else
    match (s.translate die (BitVec.ofNat 56 va)).2 with
    | .page pa => if s.poisoned die pa then none else some (BitVec.ofNat 64 (joinBytes (s.peek die 0 pa 8)))
    | .absent _ _ => none

/-- n words of domain-0 memory from va. -/
def State.partWords (s : State) (die : BitVec 4) : Nat → Nat → Option (List Word)
  | _, 0 => some []
  | va, n + 1 =>
    match s.partWord die va, State.partWords s die (va + 8) n with
    | some w, some r => some (w :: r)
    | _, _ => none

/-- The lines and copies of n words of domain-0 memory from va, as a read of them by the part leaves them: those of another domain
are refilled (R83, R401). -/
def State.partTouch (s : State) (die : BitVec 4) : Nat → Nat → State
  | _, 0 => s
  | va, n + 1 =>
    match s.translate die (BitVec.ofNat 56 va) with
    | (s, .page pa) => State.partTouch (if va < 2 ^ 56 then (s.dieRead die 0 va pa 8).1 else s) die (va + 8) n
    | (s, .absent _ _) => s

/-- A word stored by the part in domain-0 memory: none when its page is not present. -/
def State.partStore (s : State) (die : BitVec 4) (va : Nat) (w : Word) : Option State :=
  match s.translate die (BitVec.ofNat 56 va) with
  | (s, .page pa) => some (s.dieWrite die 0 va pa (splitBytes 8 w.toNat))
  | (_, .absent _ _) => none

/-- 4 bytes stored by the part in domain-0 memory: none when their page is not present. -/
def State.partStore4 (s : State) (die : BitVec 4) (va : Nat) (x : BitVec 32) : Option State :=
  match s.translate die (BitVec.ofNat 56 va) with
  | (s, .page pa) => some (s.dieWrite die 0 va pa (splitBytes 4 x.toNat))
  | (_, .absent _ _) => none

/-- Words stored by the part from va on. -/
def State.partStores (s : State) (die : BitVec 4) : Nat → List Word → Option State
  | _, [] => some s
  | va, w :: r =>
    match s.partStore die va w with
    | some s => State.partStores s die (va + 8) r
    | none => none

/-! ## The PLB -/

/-- The PLB entry covers ea for the level (R384). -/
def PlbEntry.covers (e : PlbEntry) (ea : BitVec 56) (top : Bool) : Bool :=
  let p : BitVec 40 := bits ea 16 40
  e.valid && decide (e.base.toNat ≤ p.toNat) && decide (p.toNat ≤ e.limit.toNat) && (!e.sonly || top)

/-- Read, write and execute rights of ea: the lowest-numbered covering entry decides (R384). -/
def Core.rights (c : Core) (ea : BitVec 56) (top : Bool) : Bool × Bool × Bool :=
  match c.plb.toList.find? fun e => e.covers ea top with
  | some e => (e.r, e.w, e.x)
  | none => (false, false, false)

/-! ## TCM -/

/-- Frame size in bytes of a class at a priority; a level-7 frame reserves none (R32). -/
def frameSize (fclass : BitVec 3) (prio : BitVec 3) : Nat :=
  if prio = 7 then 0
  else match fclass.toNat with
    | 0 => 0 | 1 => 0x400 | 2 => 0x800 | 3 => 0x1000 | 4 => 0x2000 | 5 => 0x3000 | 6 => 0x4000 | _ => 0x6000

/-- The running frame's bytes are those from its base on (R71). -/
def inFrame (fbase : BitVec 16) (fsize off : Nat) : Bool :=
  decide (fbase.toNat ≤ off) && decide (off < fbase.toNat + fsize)

/-- Levels 0 to 6 may access the offset (R31, R70, R71). -/
def Core.tcmAllowed (c : Core) (off : Nat) (write : Bool) : Bool :=
  decide (c.level = 7) || decide (off < c.slim.toNat) ||
    inFrame c.here.fbase (frameSize c.here.fclass c.lvl) off ||
    (!write && decide (c.vbase.toNat ≤ off) && decide (off < c.vbase.toNat + 0xA00))

/-- An engine of the issuer may access the offset: the named area or the issuing frame (R321). -/
def Issuer.tcmAllowed (i : Issuer) (slim : BitVec 16) (off : Nat) : Bool :=
  decide (off < slim.toNat) || inFrame i.fbase i.fsize off

/-- Bytes written to the TCM of a core; a whole word clears its poison (R218). -/
def Core.tcmStore (c : Core) (off : Nat) (bs : List Byte) : Core :=
  { c with tcm := c.tcm.write off bs
           tcmPoison := if off % 8 = 0 ∧ bs.length = 8 then poisonSet c.tcmPoison (off / 8) false else c.tcmPoison }

/-- A word of the TCM as the bank holds it. -/
def Core.tcmWord (c : Core) (off : Nat) : Word := BitVec.ofNat 64 (joinBytes (c.tcm.read off 8))

/-! ## Scratchpad -/

/-- The page map entry of a scratchpad offset (R76). -/
def Core.pageEntry (c : Core) (off : Nat) : Word := c.tcmWord (c.vbase.toNat + 0x800 + 8 * (off / 4096 % 64))

/-- The resident page of a domain and backing address (R77). -/
def Cluster.findFrame (k : Cluster) (dom : BitVec 16) (backing : BitVec 44) : Option Nat :=
  firstIdx (fun f => f.dom == dom && f.backing == backing) k.frames

/-- The resident page over a physical page, in a domain. -/
def Cluster.framePa (k : Cluster) (dom : BitVec 16) (pa : Nat) : Option Nat :=
  firstIdx (fun f => f.dom == dom && f.pa / 4096 == pa / 4096) k.frames

/-- The frame is touched by a core: it is pinned and youngest (R77). -/
def Frame.touch (f : Frame) (slot : BitVec 4) (stamp : Nat) : Frame :=
  { f with pins := f.pins ||| (1#16 <<< slot.toNat), stamp }

/-- The core unpins every page it has pinned (R77). -/
def State.unpin (s : State) (n : CoreId) : State :=
  let k := s.cluster (clusterOf n)
  if k.frames.isEmpty then s
  else s.updCluster (clusterOf n) fun k =>
    { k with frames := k.frames.map fun f => { f with pins := f.pins &&& ~~~(1#16 <<< (slotOf n).toNat) } }

/-- Bytes stored to a resident page at offset o, with the marks of what was stored (R80). -/
def Frame.store (f : Frame) (o : Nat) (bs : List Byte) : Frame :=
  { f with mem := f.mem.write o bs
           dirty := upFrom o bs.length ++ f.dirty
           whole := if o % 8 = 0 ∧ bs.length = 8 then (o / 8) :: f.whole else f.whole
           poison := if o % 8 = 0 ∧ bs.length = 8 then poisonSet f.poison (o / 8) false else f.poison }

/-- The stored bytes of a page written to its physical page (R80). -/
def State.putBytes (s : State) (die : BitVec 4) (f : Frame) : List Nat → State
  | [] => s
  | o :: r =>
    let s := State.putBytes s die f r
    s.homeSet f.dom (s.live (f.pa + o)) (f.mem.get o)

/-- A page's stored bytes and changed full-empty bits go back to its physical page (R80); a word that one store wrote whole
is no longer poisoned (R218). -/
def State.writePage (s : State) (die : BitVec 4) (f : Frame) : State :=
  let words := (upFrom 0 512).filter fun w =>
    f.dirty.any (fun o => o / 8 == w) || f.dirtyFe.contains w
  let s := words.foldl (fun s w => s.evictCopy die ((f.pa + 8 * w) / 8)) s
  let s := s.putBytes die f f.dirty
  let s := f.dirtyFe.foldl (fun s w => { s with fe := feSet s.fe (s.live (f.pa + 8 * w) / 8) (feGet f.fe w) }) s
  let s := f.whole.foldl (fun s w => { s with poison := poisonSet s.poison (s.live (f.pa + 8 * w) / 8) false }) s
  (words.filter fun w => f.dirty.any fun o => o / 8 == w).foldl (fun s w => s.touchLine f.dom (s.live (f.pa + 8 * w))) s

end Sys2Proof.Machine
end

