-- ==== Sys2Proof/Machine/Ops.lean ====
section
/-! DEFINITION. The named operations of the task model: messages and the weir, taking a trap and returning from one,
push, pop and the selection of the next arrival, handbacks and releases, machine checks. -/

namespace Sys2Proof.Machine

/-! ## LIDs, service cores and regions -/

/-- The least number from n on, among fuel of them, that is not in the list. -/
def firstFree (used : List CoreId) : Nat → CoreId → CoreId
  | 0, n => n
  | k + 1, n => if used.contains n then firstFree used k (n + 1) else n

/-- The service core of a sector: the lowest of its cores that passed test (R16). Where none of its 4,096 cores did, the spec names
none, and the search ends at the first number after the sector: DESIGN CHOICE (log entry 1). -/
def State.serviceCore (s : State) (x : BitVec 6) : CoreId := firstFree s.disabled 4096 (x ++ 0#12)

/-- The remap entry of a LID (R19, R20). -/
def State.mapOf (s : State) (lid : CoreId) : MapEntry :=
  match Cells.find (s.die (dieOf lid)).remap (bits lid 0 14).toNat with
  | some e => e
  | none => { phys := bits lid 0 14,
              present := !s.disabled.contains lid && s.serviceCore (sectorOf lid) != lid }

/-- The LID is present on this module (R21). -/
def State.present (s : State) (lid : CoreId) : Bool := (s.mapOf lid).present

/-- The physical core that a LID names (R19). -/
def State.physOf (s : State) (lid : CoreId) : CoreId := dieOf lid ++ (s.mapOf lid).phys

/-- The region of the stage bound to a core (R377). -/
def Core.bound_ (c : Core) : Option Region := c.binding.map (·.region)

/-- The region to which what the running frame causes is charged: that of the stage for levels 0 to 6, and none, which stands
for the module root, for level 7 (R377). -/
def Core.region (c : Core) : Option Region := if c.level = 7 then none else c.bound_

/-- Ceilings with each 7 taken as 6 (R47, R345). -/
def fixCeil (x : BitVec 48) : BitVec 48 :=
  (upFrom 0 16).foldl (fun (v : BitVec 48) i => if bits x (3 * i) 3 = 7 then putBits v (3 * i) 3 6 else v) x

/-- What the part keeps of a region (R363), where a launch has named it. -/
def State.infoOf (s : State) (r : Region) : Option RegInfo := (s.regions.find? fun e => e.1 == r).map (·.2)

/-- Who issues a command from the core in turn. -/
def State.issuer (s : State) : Issuer :=
  let c := s.me
  { core := s.cur, lid := c.lid, level := c.lvl, dom := c.dom, fbase := c.here.fbase,
    fsize := frameSize c.here.fclass c.lvl, inst := c.here.inst, region := c.region }

/-- The running frame is a tentative instance (R86). -/
def State.tentative (s : State) : Bool :=
  match s.me.here.inst with
  | some i => i.tentative
  | none => false

/-- The instance is tentative: it was issued so, and its launch has not resolved (R328). -/
def State.tentativeInst (s : State) (i : Option Inst) : Bool :=
  match i with
  | some i => i.tentative && s.launches.any fun (l : Launch) => l.id == i.id && l.count.isNone
  | none => false

/-! ## Messages -/

/-- A message put on its way. -/
def State.post (s : State) (t : Transit) : State := { s with net := s.net ++ [t] }

/-- A message of the part's own: channel 0, payload and priority as given (R451). R305 says no more of src than "the sender's LID": a
message that an agent of the part sends for itself (types 0x05, 0x06, 0x07 and 0x0B) carries 0, one that it sends for a command (types
0x01 and 0x02) the issuer's LID, DESIGN CHOICE (log entry 28). -/
def State.postOwn (s : State) (type : Byte) (prio : BitVec 3) (src dst : CoreId) (payload : List Word)
    (flags : Word) : State :=
  s.post { cargo := .message { msg := { hdr := mkHdr type prio 0 payload.length src dst ||| flags, payload },
                               inst := none, contract := none, srcMod := s.modu, resume := none, far := false },
           from_ := none, dstMod := s.modu, dst, held := false, tag := none, back := none, owner := none }

/-- One unit of allowance for a kind-2 register (R97). -/
def Core.gainAllowance (c : Core) (q : QReg) : Core :=
  c.updQ q fun k => if k.kind = 2 then { k with allow := k.allow + 1 } else k

/-- The acceptance of an arrival is acknowledged to its sender (R410). -/
def State.ackTo (s : State) (t : Transit) : State :=
  match t.tag, t.owner with
  | some tag, some o => s.updCore o fun c => { c with acks := c.acks ++ [tag] }
  | _, _ => s

/-- An arrival marked as moved (R305). -/
def Arr.moved (a : Arr) : Arr := { a with msg := { a.msg with hdr := a.msg.hdr ||| 1 <<< 54 } }

/-- A type-0x07 message that the part itself has sent, for a service core's gang throttling (R324); one that software sends goes to its
LID like any message. -/
def Transit.isNotice (t : Transit) : Bool :=
  match t.cargo with
  | .message a => hdrType a.msg.hdr == 0x07 && t.owner.isNone && t.tag.isNone
  | .channel _ _ _ => false

/-- A type-0x0C message of a cluster to a physical core (R444), which no remap table decides: the core takes it whatever its LID. -/
def Transit.isHeat (t : Transit) : Bool :=
  match t.cargo with
  | .message a => hdrType a.msg.hdr == 0x0C && t.owner.isNone && t.tag.isNone
  | .channel _ _ _ => false

/-- Bit self of a destination (R302). -/
def Succ.self (x : Succ) : Bool := bits x.dest 34 1 == 1
/-- Bit nosucc of a destination (R302). -/
def Succ.nosucc (x : Succ) : Bool := bits x.dest 35 1 == 1
/-- LID of a destination (R302). -/
def Succ.lid (x : Succ) : CoreId := bits x.dest 0 18
/-- Module of a destination (R302). -/
def Succ.modu (x : Succ) : BitVec 16 := bits x.dest 18 16
/-- The module that a module number names (R23). -/
def State.moduleOf (s : State) (m : BitVec 16) : BitVec 16 := if m = 0xFFFF then s.modu else m

/-- The engine of a command number (R310, R320): 0 copy, 1 matrix, 2 remote request. -/
def engineOf (cmd : BitVec 4) : BitVec 4 :=
  match cmd.toNat with
  | 0 | 1 => 0
  | 7 | 8 | 9 => 1
  | _ => 2

/-- Word 0 of a handback (R320). -/
def handbackWord (cmd : BitVec 4) (cause : BitVec 5) (x : Succ) : Word :=
  0#1 ++ BitVec.ofBool x.nosucc ++ x.modu ++ x.lid ++ BitVec.ofBool x.self ++ x.sprio ++ x.stype ++
    (0#3 ++ cause) ++ cmd ++ engineOf cmd

/-- A handback to the issuing task (R320). -/
def State.handback (s : State) (by_ : Issuer) (cmd : BitVec 4) (cause : BitVec 5) (x : Succ) (addr progress : Word) :
    State :=
  s.postOwn 0x01 7 by_.lid by_.lid [handbackWord cmd cause x, addr, progress] 0

/-- The work of a command is spread over agents of other dies: a walk, a barrier or a launch (R125). -/
def spreadCmd (cmd : BitVec 4) : Bool := cmd == 2 || cmd == 3 || cmd == 4

/-- A successor release (R304): nothing when nosucc is set. Beyond the die it is a release at module scope (R125). With far
set the start of its handler is an acquire at that scope, wherever it runs. -/
def State.releaseFar (s : State) (by_ : Issuer) (x : Succ) (payload : List Word) (far : Bool)
    (back : Owed) : State :=
  if x.nosucc then s
  else
    let dst := if x.self then by_.lid else x.lid
    let dm := if x.self then s.modu else s.moduleOf x.modu
    let s := if dm ≠ s.modu ∨ dieOf (s.physOf dst) ≠ dieOf by_.core then s.releaseDie (dieOf by_.core) else s
    s.post { cargo := .message
               { msg := { hdr := mkHdr x.stype x.sprio 0 payload.length by_.lid dst ||| 1 <<< 55, payload },
                 inst := none, contract := none, srcMod := s.modu, resume := none, far },
             from_ := none, dstMod := dm, dst, held := false, tag := none, back := some back,
             owner := some by_.core }

/-- A successor release whose handler's start is an acquire as the command's kind asks (R125), of a command that has made no status
step by it. -/
def State.release (s : State) (by_ : Issuer) (cmd : BitVec 4) (x : Succ) (payload : List Word) : State :=
  s.releaseFar by_ x payload (spreadCmd cmd) { cmd, succ := x, progress := 0, ended := none, close := none }

/-! ## The weir -/

/-- Bytes of an entry in a weir ring (R377). -/
def WeirItem.size : WeirItem → Nat
  | .launch _ => 64
  | .record _ => 16
  | .succ _ _ _ => Config.barrierBytes
  | _ => 32

/-- Bytes that a region holds in the weir (R378). -/
def State.weirBytes (s : State) (r : Option Region) : Nat :=
  s.weir.foldl (fun n e => if e.region == r then n + e.item.size else n) 0

/-- The weir holds entries of the queue (R42, R93). -/
def State.weirHas (s : State) (q : WeirQueue) : Bool := s.weir.any fun e => e.queue == q

/-- The effective values that bound a region's ring, and the root's for no region (R377). -/
def State.ringEff (s : State) (r : Option Region) : Option Eff :=
  match r with
  | some r => (s.infoOf r).map (·.eff)
  | none => (s.infoOf s.rcbWindow.root).map (·.eff)

/-- The region's ring takes no further entry: its weirq and the sixteenth beyond are used up (R378). -/
def State.weirFull (s : State) (r : Option Region) (item : WeirItem) : Bool :=
  match s.ringEff r with
  | some e =>
    let q := e.weirq.toNat * 1024
    decide (s.weirBytes r + item.size > q + (q / 16 + 63) / 64 * 64)
  | none => false

/-- The trap may be raised again once the region's bytes are below three quarters of its quota (R378). -/
def State.weirFell (s : State) (region : Option Region) : State :=
  match region, s.ringEff region with
  | some r, some e =>
    if s.weirBytes region * 4 < e.weirq.toNat * 1024 * 3 then
      { s with weirOver := s.weirOver.filter fun (x : Region) => x != r }
    else s
  | _, _ => s

/-- The weir entries with a property are gone, and the bytes that their regions hold have fallen (R378). -/
def State.dropWeir (s : State) (p : WeirEntry → Bool) : State :=
  (s.weir.filter p).foldl (fun (s : State) e => s.weirFell e.region) { s with weir := s.weir.filter fun e => !p e }

/-- Kind of a queue in k.addr of the quota trap (R378). -/
def WeirQueue.kind : WeirQueue → Nat
  | .inbox _ _ => 0
  | .mooring _ => 1
  | .tcm _ => 1
  | .launch _ => 2
  | .records _ => 3
  | .recv _ _ => 4
  | .barrier _ => Config.barrierKind

/-! ## Traps -/

/-- The membership of a core that runs on alone: not ganged, no window open, nothing forwarded (R210, R212). -/
def Member.alone (m : Member) : Member := { m with ganged := false, joinAt := none, fwd := [] }

/-- Every follower of the swarm that core n leads detaches (R63, R212). -/
def State.detachFollowers (s : State) (n : CoreId) : State :=
  match (s.core n).member with
  | some m =>
    if m.lead = (s.core n).lid then
      (upFrom 0 16).foldl (fun s i =>
        let f : CoreId := clusterOf n ++ BitVec.ofNat 4 i
        match (s.core f).member with
        | some x => if x.lead = m.lead ∧ x.ganged ∧ f ≠ n then
            s.updCore f fun c => { c with member := some x.alone } else s
        | none => s) s
    else s
  | none => s

/-- The core's own frame is interrupted or traps: it is ganged no longer, and its hold at a join point ends (R63, R212, R215). -/
def State.detach (s : State) (n : CoreId) : State :=
  match (s.core n).member with
  | some m =>
    let s := s.detachFollowers n
    if m.alone = m then s else s.updCore n fun c => { c with member := some m.alone }
  | none => s

/-- What a push and a trap keep of the frame they interrupt (R37, R347). -/
def Core.saveFrame (c : Core) (at_ : BitVec 56) : Core :=
  if c.level = 0xF then c
  else c.updHere fun b => { b with rpc := at_, rthresh := c.thresh, rb := c.b }

/-- Entry to level 7 for cause c (R347): the frame of level 7 is pushed, and the core's scratchpad pages are unpinned (R77). b0 to
b3 hold what the previous frame at level 7 left, as at every push (R37), DEDUCED (log entry 26). A run of level-7 frames goes on
being counted (R343). -/
def State.enterTrap (s : State) (n : CoreId) (c : BitVec 5) (a : Word) (epc : BitVec 56) (async : Bool) : State :=
  ((s.detach n).unpin n).updCore n fun k =>
    let k := { k with cause := mkCause c k.level async true, epc, addr := a }
    let k := k.saveFrame epc
    let k := { k with level := 7, thresh := 7, b := (k.bank 7).rb, pc := k.tvec, asleep := false,
                      stalls := k.stalls.set 7 0 }
    k.updBank 7 fun b => { b with live := true, fclass := 0, fbase := k.sp, claims := [], inst := none,
                                  contract := none, squash := false, parkDue := false, queueOp := none }

/-- An asynchronous level-7 entry with code 0 on core n; it waits while level 7 runs (R348, R445). -/
def State.alert (s : State) (n : CoreId) (a : Word) : State :=
  let k := s.core n
  if k.level = 7 ∨ k.stopped then
    s.updCore n fun k => { k with heldTraps := k.heldTraps ++ [{ level := 0xF, cause := 0, addr := a, epc := none }] }
  else s.enterTrap n 0 a (if k.level = 0xF then 0 else k.pc) true

/-- The core stops and the service core of its sector is told (R347, R445). -/
def State.stopCore (s : State) (n : CoreId) : State :=
  let s := s.updCore n fun k => { k with stopped := true }
  let s := { s with ctrlLog := s.ctrlLog ++ [(0x01, n.setWidth 64)] }
  s.alert (s.serviceCore (sectorOf n)) (n.setWidth 64)

/-- A trap at level 7 by the instruction at an address: it ends every gang of the core's swarm, too (R212, R347). -/
def State.nestedTrapAt (s : State) (n : CoreId) (c : BitVec 5) (epc : BitVec 56) : State :=
  ((s.detach n).updCore n fun k => { k with xcause := c, xepc := epc }).stopCore n

/-- A trap at level 7 by the instruction at the pc (R347). -/
def State.nestedTrap (s : State) (n : CoreId) (c : BitVec 5) : State := s.nestedTrapAt n c (s.core n).pc

/-- Taking trap c on core n with k.addr a and k.epc epc (R347). -/
def State.takeTrap (s : State) (n : CoreId) (c : BitVec 5) (a : Word) (epc : BitVec 56) (async : Bool) : State :=
  if (s.core n).level = 7 then s.nestedTrap n c else s.enterTrap n c a epc async

/-- An asynchronous trap for the frame of a level: taken now, or held until that frame runs (R348). -/
def State.asyncTrap (s : State) (n : CoreId) (level : BitVec 4) (c : BitVec 5) (a : Word) : State :=
  let k := s.core n
  if k.level = level ∧ k.level ≠ 7 ∧ !k.stopped then
    s.enterTrap n c a (if level = 0xF then 0 else k.pc) true
  else s.updCore n fun k => { k with heldTraps := k.heldTraps ++ [{ level, cause := c, addr := a, epc := none }] }

/-- Order in which held traps of one frame are taken: 0x08 first, then by cause (R348). -/
def trapRank (c : BitVec 5) : Nat := if c = 0x08 then 0 else c.toNat + 1

/-- The first in rank among the held traps with property p. -/
def bestTrap (p : HeldTrap → Bool) : List HeldTrap → Option HeldTrap
  | [] => none
  | t :: r =>
    match bestTrap p r with
    | some u => if p t ∧ trapRank t.cause ≤ trapRank u.cause then some t else some u
    | none => if p t then some t else none

/-- A trap held for the running frame, or for no frame, is taken before its next instruction (R54, R348). One that a reply has brought
to a level-7 frame is a trap at level 7 (R222, R347). -/
def State.boundary (s : State) (n : CoreId) : State :=
  let k := s.core n
  if k.stopped then s
  else if k.level = 7 then
    match bestTrap (fun t => t.level == 7) k.heldTraps with
    | some t => (s.updCore n fun k => { k with heldTraps := k.heldTraps.erase t }).nestedTrapAt n t.cause (t.epc.getD k.pc)
    | none => s
  else if k.level ≠ 0xF ∧ k.here.squash then
    (s.updCore n fun k => k.updHere fun b => { b with squash := false, parkDue := false }).enterTrap n 0x08 0 k.pc true
  else
    match bestTrap (fun t => t.level == k.level || t.level == 0xF) k.heldTraps with
    | some t =>
      (s.updCore n fun k => { k with heldTraps := k.heldTraps.erase t }).enterTrap n t.cause t.addr
        (t.epc.getD (if k.level = 0xF then 0 else k.pc)) t.epc.isNone
    | none => s

/-! ## The vector table and arrivals -/

/-- Entry t of the vector table (R31). -/
def Core.vector (c : Core) (t : Byte) : Word := c.tcmWord (c.vbase.toNat + 8 * t.toNat)

/-- The prio field of an entry: 7 is taken as 6 for a type of 0x20 or above (R31). -/
def entryPrio (e : Word) (t : Byte) : BitVec 3 :=
  if t.toNat ≥ 0x20 ∧ bits e 59 3 = 7 then 6 else bits e 59 3

/-- The effective priority of an arrival (R33). -/
def Core.effPrio (c : Core) (h : Word) : BitVec 3 :=
  let e := c.vector (hdrType h)
  let p := entryPrio e (hdrType h)
  if bits e 63 1 = 1 ∧ (hdrPrio h).toNat < p.toNat then hdrPrio h else p

/-- The frame size that an arrival needs at its level (R32). -/
def Core.arrSize (c : Core) (a : Arr) (p : BitVec 3) : Nat :=
  frameSize (a.resume.getD (bits (c.vector (hdrType a.msg.hdr)) 56 3)) p

/-- A contract that has overrun under act 1 holds arrivals of the type until its next period (R376). -/
def Core.throttledType (c : Core) (t : Byte) : Bool :=
  match c.binding with
  | some b => b.contracts.any fun x => x.ctype == t && c.budgets.any fun y => y.idx == x.idx && y.throttled
  | none => false

/-- The arrival may start: its type is enabled, no overrun contract holds it, no context is loading, and the core has not been reset (R36, R376,
R446, R448). -/
def Core.startable (c : Core) (a : Arr) (p : BitVec 3) : Bool :=
  bits (c.vector (hdrType a.msg.hdr)) 62 1 == 1 &&
    !(match a.contract with
      | some i => c.budgets.any fun b => b.idx == i && b.throttled
      | none => false) &&
    !c.throttledType (hdrType a.msg.hdr) &&
    !((c.loading.isSome || c.wasReset) && p != 7)

/-- Priority p exceeds the threshold, with idle below every level (R36). -/
def Core.above (c : Core) (p : BitVec 3) : Bool := c.thresh == 0xF || decide (c.thresh.toNat < p.toNat)

/-- Free stack space (R35). -/
def Core.freeStack (c : Core) : Nat := c.sp.toNat - c.slim.toNat

/-- The held arrivals of level p. -/
def Core.held (c : Core) (p : BitVec 3) : List Arr := c.inbox.get p.toFin
/-- c with the held arrivals of level p replaced. -/
def Core.setHeld (c : Core) (p : BitVec 3) (l : List Arr) : Core := { c with inbox := c.inbox.set p.toFin l }

/-- The context of a LID has been saved, and no `fload` has restored it (R352). -/
def State.contextOut (s : State) (lid : CoreId) : Bool := s.saved.any fun (x : Saved) => x.current && x.lid == lid

/-- Core c holds what arrives for a LID at its interface: its context is saved, or loading (R447, R448). -/
def Core.defers (c : Core) (lid : CoreId) : Bool := (c.holds && c.savedLid == some lid) || c.loading == some lid

/-- The weir entry is an arrival held for level p of core n; those of a saved context wait for its `fload` (R44, R352). -/
def State.spillsTo (s : State) (n : CoreId) (p : BitVec 3) (e : WeirEntry) : Option Arr :=
  match e.queue, e.item with
  | .inbox lid q, .arr a => if lid = (s.core n).lid ∧ q = p ∧ (s.core n).savedLid ≠ some lid ∧ !s.contextOut lid then some a else none
  | _, _ => none

/-- The held arrivals of level p of core n in FIFO order: its inbox, then the weir (R42, R44). -/
def State.heldAt (s : State) (n : CoreId) (p : BitVec 3) : List Arr :=
  (s.core n).held p ++ s.weir.filterMap (s.spillsTo n p)

/-- The highest of the levels below l that holds a startable arrival, and its place there (R45). -/
def State.nextFrom (s : State) (n : CoreId) : Nat → Option (BitVec 3 × Nat)
  | 0 => none
  | l + 1 =>
    let p : BitVec 3 := BitVec.ofNat 3 l
    match firstIdx (fun a => (s.core n).startable a p) (s.heldAt n p) with
    | some i => some (p, i)
    | none => State.nextFrom s n l

/-- The place in a list of the item number k among those with property q. -/
def nthIdx {α : Type} (q : α → Bool) : List α → Nat → Option Nat
  | [], _ => none
  | x :: r, k =>
    if q x then (match k with
      | 0 => some 0
      | k + 1 => (nthIdx q r k).map (· + 1))
    else (nthIdx q r k).map (· + 1)

/-- Core n without the held arrival at place i of level p. -/
def State.takeHeld (s : State) (n : CoreId) (p : BitVec 3) (i : Nat) : State :=
  let l := (s.core n).held p
  if i < l.length then s.updCore n fun c => c.setHeld p (dropAt l i)
  else
    match nthIdx (fun e => (s.spillsTo n p e).isSome) s.weir (i - l.length) with
    | some j =>
      let region := (s.weir[j]?).bind (·.region)
      ({ s with weir := dropAt s.weir j } : State).weirFell region
    | none => s

/-- The arrival can never start: its frame exceeds the whole stack (R46). -/
def Core.tooLarge (c : Core) (a : Arr) (p : BitVec 3) : Bool := decide (c.arrSize a p > c.vbase.toNat - c.slim.toNat)

/-- k.addr of the trap that an arrival too large raises (R46). -/
def tooLargeAddr (a : Arr) (p : BitVec 3) : Word := (p ++ hdrType a.msg.hdr).setWidth 64

/-- The words of a message, zero where absent (R37). -/
def Msg.word (m : Msg) (i : Nat) : Word := (m.payload[i]?).getD 0

/-- The frame that a push builds for an arrival of priority p: b0 to b3 hold what the previous frame at its level left (R37). -/
def Core.pushFrame (c : Core) (a : Arr) (p : BitVec 3) : Core :=
  let t := hdrType a.msg.hdr
  let ent := c.vector t
  let fc := a.resume.getD (bits ent 56 3)
  let from_ := c.level
  let c := c.saveFrame c.pc
  let sp := c.sp - BitVec.ofNat 16 (frameSize fc p)
  let c := { c with sp, level := p.setWidth 4, thresh := p.setWidth 4, pc := bits ent 0 56, asleep := false,
                    b := (c.bank p).rb,
                    stalls := c.stalls.set p.toFin 0 }
  let c := c.updBank p fun b =>
    let b := { b with live := true, fclass := fc, mtype := t, fbase := sp, claims := [], inst := a.inst,
                      contract := a.contract, squash := false, parkDue := false, queueOp := none, fencing := false }
    ((((b.ws 1 (sp.setWidth 64)).ws 2 a.msg.hdr).ws 3 (a.msg.word 0)).ws 4 (a.msg.word 1)).ws 5 (a.msg.word 2)
  if p = 7 then
    { c with cause := mkCause (if t = 0x01 then 0x07 else 0) from_ false false,
             addr := if t = 0x01 then a.msg.word 1 else c.addr }
  else c

/-! ## Resumption records (R330) -/

/-- A 64-byte-per-line image: 32-bit values two to a word. -/
def pairWords : List (BitVec 32) → List Word
  | a :: b :: r => (b ++ a) :: pairWords r
  | [a] => [a.setWidth 64]
  | [] => []

/-- The words of a vector register file, low half first. -/
def vecWords (l : List Vec) : List Word := l.flatMap fun v => [bits v 0 64, bits v 64 64]

/-- The 16 bytes of a claim record, oldest first, zero beyond its end (R330). -/
def claimBytes (l : List Claim) : List Byte :=
  let xs := l.reverse.map fun c => (0#1 ++ bits c.saved 0 3 ++ c.res : Byte)
  (xs ++ List.replicate 16 0).take 16

/-- Words 0x40 to 0x507 of a record or a level block, from 0x40 (R330, R353). -/
def Bank.image (b : Bank) : List Word :=
  let claims := claimBytes b.claims
  ((upFrom 0 32).map fun i => b.rs (BitVec.ofNat 5 i)) ++ b.rb.toList ++
    [BitVec.ofNat 64 (b.rthresh.toNat % 256 + 256 * joinBytes (claims.take 7)),
     BitVec.ofNat 64 (joinBytes (claims.drop 7)), BitVec.ofNat 64 (joinBytes (claims.drop 15)), 0] ++
    List.replicate 16 0 ++ vecWords b.v.toList ++
    pairWords ((b.acc.get 0).toList) ++ pairWords ((b.acc.get 1).toList) ++ [b.mctx]

/-- The claims of a claim record, newest first: the bytes after the last non-zero one are unused (R330). The record holds no
count, and a claim of resource 0 whose saved threshold is 0 is a zero byte: with hv set the frame holds resource 0, so the first
zero byte is that claim where no other byte names the resource. -/
def claimsOf (l : List Byte) (hv : Bool) : List Claim :=
  let used := l.reverse.dropWhile fun x => x == 0
  let used := if hv ∧ used.all (fun x => bits x 0 4 != 0) then 0 :: used else used
  used.map fun x => { res := bits x 0 4, saved := 0#1 ++ bits x 4 3 }

/-- The register file that the words from 0x40 of an image hold; hv tells that its frame holds resource 0. -/
def Bank.ofImage (b : Bank) (w : List Word) (hv : Bool) : Bank :=
  let at_ (i : Nat) : Word := (w[i]?).getD 0
  let cl := (splitBytes 8 (at_ 36).toNat).drop 1 ++ splitBytes 8 (at_ 37).toNat ++ splitBytes 1 (at_ 38).toNat
  let elem (base i : Nat) : BitVec 32 := bits (at_ (base + i / 2)) (32 * (i % 2)) 32
  { b with s := (upFrom 0 32).foldl (fun v i => v.setIfInBounds i (at_ i)) b.s
           rb := (upFrom 0 4).foldl (fun v i => v.setIfInBounds i (at_ (32 + i))) b.rb
           rthresh := bits (at_ 36) 0 4
           claims := claimsOf cl hv
           v := (upFrom 0 16).foldl (fun v i => v.setIfInBounds i (at_ (57 + 2 * i) ++ at_ (56 + 2 * i))) b.v
           acc := (b.acc.set 0 ((upFrom 0 64).foldl (fun v i => v.setIfInBounds i (elem 88 i)) (b.acc.get 0))).set 1
             ((upFrom 0 64).foldl (fun v i => v.setIfInBounds i (elem 120 i)) (b.acc.get 1))
           mctx := at_ 152 }

/-! ## Machine checks -/

/-- Machine check code, for domain and address, to the fault domain of a region (R395, R445). -/
def State.machineCheck (s : State) (die : BitVec 4) (code : Byte) (dom : BitVec 16) (addr : Word)
    (region : Option Region) : State :=
  let d := s.die die
  let next := (d.mctail.toNat + 1) % Nat.max d.mcsize.toNat 1
  let svc := s.serviceCore (die ++ 0#2)
  if d.mcsize = 0 ∨ next = d.mchead.toNat then
    s.updDie die fun d => { d with mclost := d.mclost + 1 }
  else
    match s.partStores die (d.mcbase.toNat + 32 * d.mctail.toNat)
        [(dom ++ code : BitVec 24).setWidth 64, addr, (region.getD 0).setWidth 64, 0] with
    | some s' => (s'.updDie die fun d => { d with mctail := BitVec.ofNat 16 next }).alert svc
        (d.mctail.setWidth 64 ||| 1 <<< 63)
    | none => s.updDie die fun d => { d with mclost := d.mclost + 1 }

end Sys2Proof.Machine
end

