-- ==== Sys2Proof/Machine/Access.lean ====
section
/-! DEFINITION. Accesses of a core: the checks of R216, the store buffer (R113, R217), scratchpad pages (R77 to R80),
sync accesses and mooring lists (R90 to R95), provisional stores (R85, R86). -/

namespace Sys2Proof

/-- The condition of a mode (R90). -/
def SyncMode.holds : SyncMode → Bool → Bool
  | .plain, _ => true
  | .rfull, full => full
  | .rfempty, full => full
  | .wefill, full => !full
  | .wfill, _ => true
  | .wempty, _ => true

/-- The mode writes the word (R90). -/
def SyncMode.writes : SyncMode → Bool
  | .wefill | .wfill | .wempty => true
  | _ => false

/-- The full-empty bit after the access (R90). -/
def SyncMode.after : SyncMode → Bool → Bool
  | .plain, full => full
  | .rfull, full => full
  | .rfempty, _ => false
  | .wefill, _ => true
  | .wfill, _ => true
  | .wempty, _ => false

end Sys2Proof

namespace Sys2Proof.Machine

/-- Where a checked access is performed. -/
inductive Loc where
  | tcm (n : CoreId) (off : Nat)
  /-- a resident scratchpad page, by the backing address of the byte -/
  | page (cl : BitVec 14) (b : Nat)
  | mem (pa : Nat)
  deriving DecidableEq, Repr

/-- An access that has passed steps 1 to 4 of R216. -/
structure Acc where
  loc : Loc
  /-- TCM offset, backing address, or virtual address: what later stores are matched by (R113) -/
  va : Nat
  pa : Nat
  deriving DecidableEq, Repr

/-! ## The weir -/

/-- The asynchronous trap of a region over its quota goes to a core (R378); no frame is named. -/
def State.quotaTrap (s : State) (region : Option Region) (q : WeirQueue) (owner : CoreId) : State :=
  match region, s.ringEff region with
  | some r, some e =>
    if s.weirBytes region > e.weirq.toNat * 1024 ∧ !s.weirOver.contains r then
      let s : State := { s with weirOver := r :: s.weirOver }
      s.asyncTrap owner 0xF 0x0A (BitVec.ofNat 64 (3 + 16 * q.kind))
    else s
  | _, _ => s

/-- An entry goes to the weir; none when its region's ring is full (R378). -/
def State.weirAdd (s : State) (q : WeirQueue) (region : Option Region) (item : WeirItem) (owner : CoreId) :
    Option State :=
  if s.weirFull region item then none
  else
    let s : State := { s with weir := s.weir ++ [{ queue := q, region, item }] }
    some (s.quotaTrap region q owner)

/-! ## Words at their owner -/

/-- A word at its owner: the owner, the word's number there, and the domain of a scratchpad page (R92). -/
structure Spot where
  owner : Owner
  word : Nat
  dom : BitVec 16
  deriving DecidableEq, Repr

/-- The owner of a word of memory by PA: the L2 slice of the home die that holds its line exclusively, else the LLC slice of
the home bay (R92). -/
def State.memOwner (s : State) (pa : Nat) : Owner :=
  match Cells.getD s.exclusive (pa / 64) 0 with
  | 0 => .home (homeDie pa)
  | b + 1 => .l2 (BitVec.ofNat 10 b)

/-- The word an access names. -/
def State.spot (s : State) (dom : BitVec 16) : Loc → Spot
  | .tcm n off => { owner := .tcm n, word := off / 8, dom := 0 }
  | .page cl b => { owner := .scratch cl, word := b / 8, dom }
  | .mem pa => { owner := s.memOwner (s.live pa), word := s.live pa / 8, dom := 0 }

/-- The word lies in memory: its owner is a home or an L2 slice. -/
def Owner.isMem : Owner → Bool
  | .home _ | .l2 _ => true
  | _ => false

/-- The resident page that holds a scratchpad word, by backing address. -/
def State.frameAt (s : State) (cl : BitVec 14) (dom : BitVec 16) (b : Nat) : Option (Nat × Frame) :=
  let k := s.cluster cl
  match k.findFrame dom (BitVec.ofNat 44 (b / 4096)) with
  | some i => (k.frames[i]?).map fun f => (i, f)
  | none => none

/-- The frame i of a cluster changed. -/
def State.updFrame (s : State) (cl : BitVec 14) (i : Nat) (f : Frame → Frame) : State :=
  s.updCluster cl fun k => { k with frames := updAt f k.frames i }

/-- The data of a word as domain dom reads it at its owner. -/
def State.spotData (s : State) (p : Spot) (dom : BitVec 16) : Word :=
  match p.owner with
  | .tcm n => (s.core n).tcmWord (8 * p.word)
  | .scratch cl =>
    match s.frameAt cl p.dom (8 * p.word) with
    | some (_, f) => BitVec.ofNat 64 (joinBytes (f.mem.read (8 * p.word % 4096) 8))
    | none => 0
  | .home _ | .l2 _ => BitVec.ofNat 64 (joinBytes (s.homeBytes dom (8 * p.word) 8))

/-- The full-empty bit of a word. -/
def State.spotFull (s : State) (p : Spot) : Bool :=
  match p.owner with
  | .tcm n => feGet (s.core n).tcmFe p.word
  | .scratch cl =>
    match s.frameAt cl p.dom (8 * p.word) with
    | some (_, f) => feGet f.fe (p.word % 512)
    | none => true
  | .home _ | .l2 _ => feGet s.fe p.word

/-- The poison mark of a word. -/
def State.spotPoison (s : State) (p : Spot) : Bool :=
  match p.owner with
  | .tcm n => poisonGet (s.core n).tcmPoison p.word
  | .scratch cl =>
    match s.frameAt cl p.dom (8 * p.word) with
    | some (_, f) => poisonGet f.poison (p.word % 512)
    | none => false
  | .home _ | .l2 _ => poisonGet s.poison p.word

/-- A whole word written under domain dom. -/
def State.spotWrite (s : State) (p : Spot) (dom : BitVec 16) (x : Word) : State :=
  match p.owner with
  | .tcm n => s.updCore n fun c => c.tcmStore (8 * p.word) (splitBytes 8 x.toNat)
  | .scratch cl =>
    match s.frameAt cl p.dom (8 * p.word) with
    | some (i, _) => s.updFrame cl i fun f => f.store (8 * p.word % 4096) (splitBytes 8 x.toNat)
    | none => s
  | .home _ | .l2 _ => s.homeStore dom (8 * p.word) (splitBytes 8 x.toNat)

/-- A full-empty bit written. -/
def State.spotSetFull (s : State) (p : Spot) (x : Bool) : State :=
  match p.owner with
  | .tcm n => s.updCore n fun c => { c with tcmFe := feSet c.tcmFe p.word x }
  | .scratch cl =>
    match s.frameAt cl p.dom (8 * p.word) with
    | some (i, f) =>
      if feGet f.fe (p.word % 512) = x then s
      else s.updFrame cl i fun f => { f with fe := feSet f.fe (p.word % 512) x, dirtyFe := (p.word % 512) :: f.dirtyFe }
    | none => s
  | .home _ | .l2 _ => { s with fe := feSet s.fe p.word x }

/-- A word read at its owner for a domain: a line of memory that carried another domain is refilled for it (R401). -/
def State.spotTouch (s : State) (p : Spot) (dom : BitVec 16) : State :=
  if p.owner.isMem then s.touchLine dom (8 * p.word) else s

/-- A die's copies of a word of memory go home before the word is accessed there for an agent of the die: the agent reads no
older copy afterwards (R110). A word that a page migration has moved may be copied under its old address, too (R397). -/
def State.recallAt (s : State) (die : BitVec 4) (p : Spot) : State :=
  if p.owner.isMem then
    let s := s.evictCopy die p.word
    match s.migrations.find? fun m => m.p2 == p.word / 8192 with
    | some m => s.evictCopy die (m.p * 8192 + p.word % 8192)
    | none => s
  else s

/-! ## Sync accesses -/

/-- The new value of an atomic from the old value, the expected value e and the operand y (R221). -/
def amoNew (op : AmoOp) (old e y : Word) : Word :=
  match op with
  | .add => old + y
  | .min => if y.slt old then y else old
  | .max => if old.slt y then y else old
  | .and => old &&& y
  | .or => old ||| y
  | .xor => old ^^^ y
  | .swp => y
  | .cas => if old = e then y else old

/-- The atomic writes its word: an unequal cas writes nothing (R221). -/
def amoWrites (op : AmoOp) (old e : Word) : Bool := !(op == .cas && old != e)

/-- One atomic at the word's owner: the old value, and the state with the new one; the full-empty bit stays and no
waiting entry is looked at (R221). -/
def State.amoAt (s : State) (p : Spot) (dom : BitVec 16) (op : AmoOp) (e y : Word) : State × Word :=
  let old := s.spotData p dom
  let s := s.spotTouch p dom
  (if amoWrites op old e then s.spotWrite p dom (amoNew op old e y) else s, old)

/-- A queue entry of `ldq` (R224). -/
def ldqEntry (data : Word) (tag : BitVec 3) (status : BitVec 2) (mode : SyncMode) (addr : Nat) : Vec :=
  0#3 ++ BitVec.ofNat 53 addr ++ mode.code ++ status ++ tag ++ data

/-- The result of a sync access goes where its route says: data and status (R224, R233). -/
def State.syncReply (s : State) (m : Mooring) (data : Word) (status : BitVec 2) : State :=
  match m.route with
  | .ldq n lid q itag addr sc =>
    s.updCore n fun c => { c with deliver := c.deliver ++
      [{ lid, q, entry := ldqEntry (if status = 0 then data else 0) itag status m.mode addr, scope := sc }] }
  | .rreq n id => s.updCore n fun c =>
    { c with remQ := c.remQ.map fun (r : RemCmd) =>
        if r.id = id then
          { r with phase := .result (if status = 0 ∧ !m.mode.writes then [data] else []) status } else r }
  | .posted _ => s
  | .plain n tag =>
    match tag with
    | some t => s.updCore n fun c => { c with acks := c.acks ++ [t] }
    | none => s
  | .amo n id => s.updCore n fun c => { c with replies := c.replies.map fun (r : Reply) =>
      if r.id = id then
        (if status = 0 then { r with value := some data } else { r with trap := some (0x0D, r.trapAddr) }) else r }
  | .guest md id => { s with guests := s.guests.map fun (g : Guest) =>
      if g.modu = md ∧ g.id = id then
        { g with result := some (if status = 0 ∧ !m.mode.writes then [data] else [], status) } else g }
  | .enc die =>
    let word := if status = 0 then data else 0
    s.updDie die fun d => { d with encRun := d.encRun.map fun r =>
      { r with moored := false, ready := some word, poisoned := decide (status ≠ 0) } }

/-- The word is the shape word of the launch: a die translates the shape word's address to it now (R326, R328). The page of the shape
word may have come to another frame since the launch was accepted (R389, R398). -/
def State.isShapeWord (s : State) (l : Launch) (p : Spot) : Bool :=
  p.owner.isMem && l.record.shapew != 0 && (upFrom 0 16).any fun d =>
    match (s.translate (BitVec.ofNat 4 d) l.record.shapew).2 with
    | .page pa => s.live pa / 8 == p.word
    | .absent _ _ => false

/-- A word of memory that a sync write filled resolves the launches whose shape word it is (R328). -/
def State.shapeFilled (s : State) (p : Spot) (before after : Bool) (x : Word) : State :=
  if !before ∧ after then
    { s with launches := s.launches.map fun (l : Launch) =>
        if l.count.isNone && l.fill.isNone && s.isShapeWord l p then { l with fill := some x } else l }
  else s

/-- The die of the agent to which a sync access answers (R110). -/
def Route.die : Route → Option (BitVec 4)
  | .ldq n _ _ _ _ _ | .rreq n _ | .posted n | .amo n _ | .plain n _ => some (dieOf n)
  | .enc d => some d
  | .guest _ _ => none

/-- A plain access that has its forward credit: a store writes its bytes; a load, which reads the word when it goes on, leaves none
(R408). -/
def State.plainAt (s : State) (m : Mooring) (place : Nat × List Byte) : State :=
  (if place.2.isEmpty then s else s.homeStore m.adom (8 * m.word + place.1) place.2).syncReply m 0 0

/-- The issuer's die keeps no older copy of the word that its access is performed on (R110). -/
def State.recallFor (s : State) (m : Mooring) : State :=
  match m.route.die with
  | some d => s.recallAt d { owner := m.owner, word := m.word, dom := m.dom }
  | none => s

/-- A sync access whose condition holds is performed (R90), or an atomic or a plain access that has its forward credit (R221, R408); a
poisoned word is left as it is (R450). The issuer's die keeps no older copy of the word (R110). -/
def State.syncApply (s : State) (m : Mooring) (dom : BitVec 16) : State :=
  let p : Spot := { owner := m.owner, word := m.word, dom := m.dom }
  let s := s.recallFor m
  match m.plain, m.amo with
  | some place, _ => s.plainAt m place
  | none, some (op, e) =>
    if s.spotPoison p then s.syncReply m 0 2
    else
      let r := s.amoAt p dom op e m.data
      r.1.syncReply m r.2 0
  | none, none =>
    if s.spotPoison p then s.syncReply m 0 2
    else
    let old := s.spotData p dom
    let full := s.spotFull p
    let s := s.spotTouch p dom
    let s := if m.mode.writes then s.spotWrite p dom m.data else s
    let s := s.spotSetFull p (m.mode.after full)
    let s := if m.mode.writes then s.shapeFilled p full (m.mode.after full) m.data else s
    s.syncReply m old 0

/-- The entry is of the word and its condition holds. -/
def Mooring.ready (m : Mooring) (p : Spot) (full : Bool) : Bool :=
  m.owner == p.owner && m.word == p.word && m.dom == p.dom && !m.fwd && m.mode.holds full

/-- After a full-empty change the oldest satisfiable entries of the word are performed one after another (R94). -/
def State.onChange (s : State) (p : Spot) : Nat → State
  | 0 => s
  | k + 1 =>
    match firstIdx (fun m => m.ready p (s.spotFull p)) s.moorings with
    | some i =>
      match s.moorings[i]? with
      | some m => State.onChange (({ s with moorings := dropAt s.moorings i }).syncApply m m.adom) p k
      | none => s
    | none => s

/-- Entries a mooring list holds (R93). -/
def Owner.capacity : Owner → Nat
  | .tcm _ => 64
  | .scratch _ => 256
  | .l2 _ => 4096
  | .home _ => 16384

/-- The weir queue of an owner's mooring list. -/
def State.mooringQueue (s : State) : Owner → WeirQueue
  | .tcm n => .tcm (s.core n).lid
  | o => .mooring o

/-- A sync access waits: in the list, or in the weir when the list is full or the weir holds entries of it (R93). -/
def State.moor (s : State) (m : Mooring) (issuer : CoreId) : Option State :=
  if (s.moorings.filter fun x => x.owner == m.owner).length ≥ m.owner.capacity ∨ s.weirHas (s.mooringQueue m.owner) then
    s.weirAdd (s.mooringQueue m.owner) m.region (.moor m) issuer
  else some { s with moorings := s.moorings ++ [m] }

/-- A sync access whose condition holds is performed, and the entries that wait for the word's bit after it (R94). -/
def State.syncServe (s : State) (m : Mooring) : State :=
  let p : Spot := { owner := m.owner, word := m.word, dom := m.dom }
  let t := s.syncApply m m.adom
  if t.spotFull p = s.spotFull p then t else t.onChange p t.moorings.length

/-- The sync accesses and forward-wait entries that wait, in the lists and in the weir. -/
def State.allMoorings (s : State) : List Mooring :=
  s.moorings ++ s.weir.filterMap fun (e : WeirEntry) => match e.item with
    | .moor m => some m
    | _ => none

/-- The controller at which an entry of the word waits for a forward credit: a later access to the word waits behind it (R408). -/
def State.fwdOwner (s : State) (p : Spot) : Option Owner :=
  if p.owner.isMem then (s.allMoorings.find? fun x => x.fwd && x.owner.isMem && x.word == p.word).map (·.owner) else none

/-- The access waits behind an entry of its word that waits for a forward credit (R408). -/
def State.behindFwd (s : State) (p : Spot) : Bool := (s.fwdOwner p).isSome

/-- The home of a word of memory. -/
def Spot.home (p : Spot) : Owner := .home (homeDie (8 * p.word))

/-- The home that must forward an access of a core's block to the L2 slice of another block, and holds no credit for it (R408). -/
def State.homeStuck (s : State) (blk : Option (BitVec 10)) (p : Spot) : Option Owner :=
  if p.owner.isMem ∧ p.owner ≠ p.home ∧ some p.owner ≠ blk.map Owner.l2 ∧ s.noCredit.contains p.home then some p.home else none

/-- The controller in whose list a sync access or an atomic waits for a forward credit: one where an older access to the word waits
so, its owner, or the home that must forward it (R408). -/
def State.waitsAt (s : State) (p : Spot) : Option Owner :=
  (s.fwdOwner p).orElse fun _ =>
    if p.owner.isMem ∧ s.noCredit.contains p.owner then some p.owner else s.homeStuck none p

/-- A sync access reaches its owner (R94): none when it must wait outside. A controller without forward credit keeps
an access in its list marked as forward wait, and later ones to the same word behind it (R408). -/
def State.syncArrive (s : State) (m : Mooring) (issuer : CoreId) : Option State :=
  let p : Spot := { owner := m.owner, word := m.word, dom := m.dom }
  match s.waitsAt p with
  | some o => s.moor { m with owner := o, fwd := true } issuer
  | none => if m.mode.holds (s.spotFull p) then some (s.syncServe m) else s.moor m issuer

/-! ## Scratchpad pages -/

/-- The entry waits at a word of the page. -/
def Mooring.onPage (m : Mooring) (cl : BitVec 14) (f : Frame) : Bool :=
  m.owner == .scratch cl && m.dom == f.dom && m.word / 512 == f.backing.toNat

/-- The weir entry is an access that waits at a word of the page. -/
def WeirEntry.onPage (e : WeirEntry) (cl : BitVec 14) (f : Frame) : Bool :=
  match e.item with
  | .moor m => m.onPage cl f
  | _ => false

/-- A waiting entry of a page at the owner of the word's place in memory, last there: in the list, or in the weir when the list is full
or the weir holds entries of it, with its charge (R80, R93). -/
def State.moveMooring (s : State) (f : Frame) (m : Mooring) (region : Option Region) : State :=
  let pa := s.live (f.pa + 8 * (m.word % 512))
  let p : Spot := { owner := s.memOwner pa, word := pa / 8, dom := 0 }
  let m : Mooring := { m with owner := (s.fwdOwner p).getD p.owner, word := p.word, dom := 0, fwd := s.behindFwd p }
  let q := s.mooringQueue m.owner
  if (s.moorings.filter fun x => x.owner == m.owner).length ≥ m.owner.capacity ∨ s.weirHas q then
    { s with weir := s.weir ++ [{ queue := q, region, item := .moor m }] }
  else { s with moorings := s.moorings ++ [m] }

/-- The waiting entries of a page, in the list and in the weir, go with it to the home of its physical page, in list order, behind the
entries that wait there already (R80, R93, R439). -/
def State.moveMoorings (s : State) (cl : BitVec 14) (f : Frame) : State :=
  let listed := (s.moorings.filter fun (m : Mooring) => m.onPage cl f).map fun (m : Mooring) => (m, m.region)
  let spilled := (s.weir.filter fun (e : WeirEntry) => e.onPage cl f).filterMap fun (e : WeirEntry) =>
    match e.item with
    | .moor m => some (m, e.region)
    | _ => none
  let s : State := { s with moorings := s.moorings.filter fun (m : Mooring) => !m.onPage cl f
                            weir := s.weir.filter fun (e : WeirEntry) => !e.onPage cl f }
  (listed ++ spilled).foldl (fun (s : State) x => s.moveMooring f x.1 x.2) s

/-- The entries that wait at words of a page that has been written back see the words' bits: the oldest that its word's bit satisfies
is performed (R80, R94). -/
def State.wakePage (s : State) (f : Frame) : State :=
  if s.moorings.isEmpty then s
  else (upFrom 0 512).foldl (fun (s : State) w =>
    let pa := s.live (f.pa + 8 * w)
    s.onChange { owner := s.memOwner pa, word := pa / 8, dom := 0 } s.moorings.length) s

/-- Frame i of a cluster is written back and freed (R78, R80). -/
def State.evictFrame (s : State) (cl : BitVec 14) (i : Nat) : State :=
  match (s.cluster cl).frames[i]? with
  | some f =>
    let s := (s.writePage (bits cl 10 4) f).moveMoorings cl f
    (s.updCluster cl fun k => { k with frames := dropAt k.frames i }).wakePage f
  | none => s

/-- The unpinned frame touched least recently (R78). -/
def Cluster.victim (k : Cluster) : Option Nat :=
  let best := k.frames.foldl (fun (b : Option Nat) (f : Frame) =>
    if f.pins ≠ (0 : BitVec 16) then b else match b with
      | some x => some (Nat.min x f.stamp)
      | none => some f.stamp) none
  match best with
  | some x => firstIdx (fun f => f.pins == 0 && f.stamp == x) k.frames
  | none => none

/-- Every frame is in use and pinned (R79). -/
def Cluster.allPinned (k : Cluster) : Bool := decide (k.frames.length ≥ 64) && k.victim.isNone

/-- The bytes of a page as a reader of a die sees them, with their places. -/
def State.pageBytes (s : State) (die : BitVec 4) (dom : BitVec 16) (pa : Nat) : Memory :=
  (upFrom 0 512).foldl (fun m w => m.write (8 * w) (s.peek die dom (pa + 8 * w) 8)) []

/-- The words of a page whose mark differs from the usual, as a sparse map by word of the page. -/
def pageMarks (m : Cells Bool) (at_ : Nat → Nat) (d : Bool) : Cells Bool :=
  (upFrom 0 512).foldl (fun r w => let x := Cells.getD m (at_ w) d; Cells.putD d r w x) []

/-- A cluster whose frames are all in use gives up the victim (R78). -/
def State.makeRoom (s : State) (cl : BitVec 14) : State :=
  if (s.cluster cl).frames.length ≥ 64 then
    match (s.cluster cl).victim with
    | some i => s.evictFrame cl i
    | none => s
  else s

/-- The lines of a page are a domain's, and its die holds no copy of its words for another (R83). -/
def State.ownPage (s : State) (die : BitVec 4) (dom : BitVec 16) (pa : Nat) : State :=
  let s := (upFrom 0 512).foldl (fun (s : State) w =>
    match Cells.find (s.die die).copies ((pa + 8 * w) / 8) with
    | some c => if c.dom = dom then s else s.evictCopy die ((pa + 8 * w) / 8)
    | none => s) s
  (upFrom 0 64).foldl (fun (s : State) i => s.touchLine dom (s.live (pa + 64 * i))) s

/-- A cluster holds a page in one more frame, and waits for it no longer. -/
def State.putFrame (s : State) (cl : BitVec 14) (f : Frame) : State :=
  { (s.updCluster cl fun k => { k with frames := k.frames ++ [f], refills := k.refills.filter (· != (f.dom, f.backing, f.pa)) })
    with nextId := s.nextId + 1 }

/-- A page is filled from L2 into a free frame, or over the victim (R78). -/
def State.fillPage (s : State) (cl : BitVec 14) (dom : BitVec 16) (backing : BitVec 44) (pa : Nat) : State :=
  let s := s.makeRoom cl
  let die := bits cl 10 4
  let f : Frame := { dom, backing, pa, mem := s.pageBytes die dom pa,
                     fe := pageMarks s.fe (fun w => s.live (pa + 8 * w) / 8) true,
                     poison := (upFrom 0 512).foldl (fun r w => Cells.putD false r w (s.poisoned die (pa + 8 * w))) [],
                     dirty := [], dirtyFe := [], whole := [], pins := 0, stamp := s.nextId }
  (s.ownPage die dom pa).putFrame cl f

/-! ## The checks of R216 -/

/-- The address lies in the management space (R432). -/
def isMgmt (a : Nat) : Bool := a / 2 ^ 48 % 256 == 0xFF

/-- Translation of a global address for core n: step 4 of R216, R388, R390. -/
def State.xlate (s : State) (n : CoreId) (dom : BitVec 16) (region : Option Region) (ea : Nat) (sync : Bool) :
    Res (State × Nat) :=
  match s.translate (dieOf n) (BitVec.ofNat 56 ea) (s.core n).sbuf with
  | (s, .page pa) => if sync ∧ isHost pa then .error (s, .trap 0x03 (BitVec.ofNat 64 ea)) else .ok (s, pa)
  | (s, .absent k bad) =>
    .error (if bad then s.machineCheck (dieOf n) 0x04 dom (BitVec.ofNat 64 ea) region else s,
      if k = 1 then .park 8 (BitVec.ofNat 64 ea) else .trap 0x04 (BitVec.ofNat 64 ea))

/-- Steps 2 to 4 for a global address in a domain, with the rights of core n's PLB. -/
def State.checkGlobal (s : State) (n : CoreId) (dom : BitVec 16) (top : Bool) (region : Option Region) (ea : Nat)
    (rd wr sync : Bool) : Res (State × Acc) := do
  let e : Word := BitVec.ofNat 64 ea
  demand (decide (ea < 2 ^ 56)) s (.trap 0x03 e)
  demand (!isMgmt ea) s (.trap 0x03 e)
  let (r, w, _) := (s.core n).rights (BitVec.ofNat 56 ea) top
  demand ((!rd || r) && (!wr || w)) s (.trap 0x03 e)
  let (s, pa) ← s.xlate n dom region ea sync
  .ok (s, { loc := .mem pa, va := ea, pa })

/-- Steps 2 to 4 for a scratchpad offset (R76 to R79): at once, or with the refill asked for and the access held. -/
def State.checkScratch (s : State) (n : CoreId) (dom : BitVec 16) (top : Bool) (region : Option Region) (ea : Nat)
    (wr sync : Bool) (now : Bool) : Res (State × Acc) := do
  let e : Word := BitVec.ofNat 64 ea
  demand (decide (ea < 0x40000)) s (.trap 0x03 e)
  let ent := (s.core n).pageEntry ea
  demand (bits ent 0 1 == 1 && (!wr || bits ent 1 1 == 1)) s (.trap 0x03 e)
  let backing : BitVec 44 := bits ent 12 44
  let b := backing.toNat * 4096 + ea % 4096
  let cl := clusterOf n
  let k := s.cluster cl
  match (if k.gstate = 0 then s.frameAt cl dom b else none) with
  | some (i, f) =>
    let s := s.updFrame cl i fun f => f.touch (slotOf n) s.nextId
    .ok ({ s with nextId := s.nextId + 1 }, { loc := .page cl b, va := b, pa := f.pa + ea % 4096 })
  | none =>
    demand (!isMgmt b) s (.trap 0x03 (BitVec.ofNat 64 b))
    demand ((s.core n).rights (BitVec.ofNat 56 b) top).1 s (.trap 0x03 (BitVec.ofNat 64 b))
    let (s, pa) ← s.xlate n dom region b false
    if k.gstate ≠ 0 ∨ k.allPinned then
      demand (!(sync && isHost pa)) s (.trap 0x03 (BitVec.ofNat 64 b))
      .ok (s, { loc := .mem pa, va := b, pa })
    else
      let page := pa - ea % 4096
      if now then
        let s := s.fillPage cl dom backing page
        match s.frameAt cl dom b with
        | some (i, _) =>
          let s := s.updFrame cl i fun f => f.touch (slotOf n) s.nextId
          .ok ({ s with nextId := s.nextId + 1 }, { loc := .page cl b, va := b, pa })
        | none => .ok (s, { loc := .mem pa, va := b, pa })
      else
        let want := (dom, backing, page)
        let s := if k.refills.contains want then s else s.updCluster cl fun k => { k with refills := k.refills ++ [want] }
        .error (s, .hold)

/-- A level-7 access to the management space: where it is not admitted, it traps with cause 0x03 whatever else is wrong with it (R432). -/
def State.topMgmt (s : State) (sp : Space) (ea : Word) : Bool :=
  sp == .global && s.me.level == 7 && decide (ea.toNat < 2 ^ 56) && isMgmt ea.toNat

/-- Steps 1 to 4 of R216 for an access of the running frame: n bytes at ea. -/
def State.check (s : State) (sp : Space) (ea : Word) (n : Nat) (rd wr sync : Bool) : Res (State × Acc) := do
  let c := s.me
  demand (!s.topMgmt sp ea) s (.trap 0x03 ea)
  demand (decide (ea.toNat % n = 0)) s (.trap 0x02 ea)
  match sp with
  | .tcm =>
    demand (decide (ea.toNat ≤ 0xBFFF)) s (.trap 0x03 ea)
    demand (c.tcmAllowed ea.toNat wr) s (.trap 0x03 ea)
    .ok (s, { loc := .tcm s.cur ea.toNat, va := ea.toNat, pa := 0 })
  | .scratch => s.checkScratch s.cur c.dom (c.level == 7) c.region ea.toNat wr sync (!s.slow)
  | .global => s.checkGlobal s.cur c.dom (c.level == 7) c.region ea.toNat rd wr sync

/-- Steps 1 to 3 of R216, which touch nothing. -/
def State.checkEa (s : State) (sp : Space) (ea : Word) (n : Nat) (rd wr : Bool) : Res Unit := do
  let c := s.me
  demand (!s.topMgmt sp ea) s (.trap 0x03 ea)
  demand (decide (ea.toNat % n = 0)) s (.trap 0x02 ea)
  match sp with
  | .tcm => demand (decide (ea.toNat ≤ 0xBFFF) && c.tcmAllowed ea.toNat wr) s (.trap 0x03 ea)
  | .scratch =>
    let ent := c.pageEntry ea.toNat
    demand (decide (ea.toNat < 0x40000) && bits ent 0 1 == 1 && (!wr || bits ent 1 1 == 1)) s (.trap 0x03 ea)
  | .global =>
    let (r, w, _) := c.rights (BitVec.ofNat 56 ea.toNat) (c.level == 7)
    demand (decide (ea.toNat < 2 ^ 56) && !isMgmt ea.toNat && (!rd || r) && (!wr || w)) s (.trap 0x03 ea)

/-- The checks of an access that a tentative instance may not make: it parks after the steps that touch nothing and before step 4,
which may fill a page (R86, R216, R236; log entry 10). -/
def State.checkFirm (s : State) (why : BitVec 4) (sp : Space) (ea : Word) (n : Nat) (rd wr sync : Bool) : Res (State × Acc) := do
  if s.tentative then
    s.checkEa sp ea n rd wr
    .error (s, .park why 0)
  else s.check sp ea n rd wr sync

/-! ## Sync reads under way -/

/-- A sync access of the core's as its owner takes it. -/
def State.mooringOf (s : State) (dom : BitVec 16) (loc : Loc) (mode : SyncMode) (data : Word) (route : Route)
    (region : Option Region) : Mooring :=
  let p := s.spot dom loc
  { owner := p.owner, word := p.word, dom := p.dom, adom := dom, mode, data, route, region, fwd := false, amo := none,
    plain := none }

/-- The place at which a buffered scratchpad or global access is performed now. -/
def State.placeOf (s : State) (n : CoreId) (sp : Space) (dom : BitVec 16) (va pa : Nat) : Loc :=
  match sp with
  | .tcm => .tcm n va
  | .scratch => if (s.frameAt (clusterOf n) dom va).isSome then .page (clusterOf n) va else .mem pa
  | .global => .mem pa

/-- The die's own copy of a word that is about to be accessed at its home goes there first. -/
def State.settle (s : State) (die : BitVec 4) : Loc → State
  | .mem pa => s.evictCopy die (pa / 8)
  | _ => s

/-- The oldest sync read that has left core n reaches its owner (R94, R224): none when it must wait there. -/
def State.flightArrive (s : State) (n : CoreId) : Option State :=
  match (s.core n).flight with
  | [] => none
  | f :: r =>
    let loc := s.placeOf n f.space f.dom f.va f.pa
    let s := s.settle (dieOf n) loc
    let addr := if f.space = .global then f.ea / 8 % 2 ^ 53 else f.ea / 8
    let sc := if f.mode = .plain then none else some f.scope
    (s.syncArrive (s.mooringOf f.dom loc f.mode 0 (.ldq n (s.core n).lid f.q f.itag addr sc) f.region) n).map fun s =>
      s.updCore n fun c => { c with flight := r, acks := c.acks ++ [f.tag] }

/-- Every sync read under way reaches its owner, as far as they can. -/
def State.flightsFrom (s : State) (n : CoreId) : Nat → State
  | 0 => s
  | k + 1 =>
    match s.flightArrive n with
    | some s => State.flightsFrom s n k
    | none => s

/-- The reply keeps later accesses of its core back: its atomic is not yet performed, or its return is an acquire (R113, R120). -/
def Reply.blocks (r : Reply) : Bool := r.amo && ((r.value.isNone && r.trap.isNone) || r.acquire.isSome)

/-- Later accesses of the core wait for an atomic (R113, R117, R120). -/
def Core.amoWait (c : Core) : Bool := c.replies.any Reply.blocks

/-- The sync reads of core n that are under way are performed or wait at their owners before an access that follows them
(R113); with replies late the access waits for them. It waits for an atomic that is not performed, or that is an acquire (R120). -/
def State.settleFlights (s : State) (n : CoreId) : Res State :=
  if (s.core n).amoWait then .error (s, .hold)
  else if (s.core n).flight.isEmpty then .ok s
  else if s.slow then .error (s, .hold)
  else
    let s := s.flightsFrom n (s.core n).flight.length
    if (s.core n).flight.isEmpty then .ok s else .error (s, .hold)

/-! ## Loads -/

/-- The byte at va as later stores of the buffer leave it (R113). -/
def fwdByte (buf : List StoreEntry) (sp : Space) (dom : BitVec 16) (va : Nat) (b : Byte) : Byte :=
  buf.foldl (fun b e =>
    if e.space = sp ∧ e.mode.isNone ∧ (sp = .tcm ∨ e.dom = dom) ∧ e.va ≤ va ∧ va < e.va + e.size then
      bits e.data (8 * (va - e.va)) 8 else b) b

/-- The buffer holds a store to the byte at va. -/
def fwdHas (buf : List StoreEntry) (sp : Space) (dom : BitVec 16) (va : Nat) : Bool :=
  buf.any fun e => e.space == sp && e.mode.isNone && (sp == .tcm || e.dom == dom) && decide (e.va ≤ va) &&
    decide (va < e.va + e.size)

/-- The provisional byte of an instance at va, if it has one (R86). -/
def State.ownByte (s : State) (i : Inst) (dom : BitVec 16) (va : Nat) (b : Byte) : Byte :=
  s.prov.foldl (fun b p =>
    if p.launch = i.id ∧ p.index = i.index ∧ p.dom = dom ∧ p.va ≤ va ∧ va < p.va + p.data.length then
      (p.data[va - p.va]?).getD b else b) b

/-- f over bytes and their places from a on. -/
def overlay (f : Nat → Byte → Byte) : Nat → List Byte → List Byte
  | _, [] => []
  | a, b :: r => f a b :: overlay f (a + 1) r

/-- k bytes of one word as they stand at a checked place. -/
def State.rawRead (s : State) (n : CoreId) (dom : BitVec 16) (a : Acc) (k : Nat) : State × List Byte :=
  match a.loc with
  | .tcm m off => (s, (s.core m).tcm.read off k)
  | .page cl b =>
    match s.frameAt cl dom b with
    | some (_, f) => (s, f.mem.read (b % 4096) k)
    | none => (s, List.replicate k 0)
  | .mem pa => s.dieRead (dieOf n) dom a.va pa k

/-- The word of a checked place is poisoned for core n. -/
def State.accPoisoned (s : State) (n : CoreId) (dom : BitVec 16) (a : Acc) : Bool :=
  match a.loc with
  | .mem pa => s.poisoned (dieOf n) pa
  | l => s.spotPoison (s.spot dom l)

/-- The word at a checked place is served after every older access to it: none waits there for a forward credit (R408). -/
def State.served (s : State) (dom : BitVec 16) (l : Loc) : Bool := !s.behindFwd (s.spot dom l)

/-- The home at which a plain access of core n to a checked place waits for a forward credit (R408): none where the die's own copy
serves it, or its own block's L2 slice. -/
def State.plainStuck (s : State) (n : CoreId) (dom : BitVec 16) (l : Loc) : Option Owner :=
  match l with
  | .mem pa =>
    let copied : Bool := match Cells.find (s.die (dieOf n)).copies (pa / 8) with
      | some c => c.dom == dom
      | none => false
    if copied && !homedOn (dieOf n) (s.live pa) then none else s.homeStuck (some (blockOf n)) (s.spot dom l)
  | _ => none

/-- A plain access of core n joins the mooring list of a home, as an entry that waits for a forward credit (R408): none when the
list and the weir are full. -/
def State.joinPlain (s : State) (n : CoreId) (dom : BitVec 16) (l : Loc) (o : Owner) (place : Nat × List Byte) (tag : Option Nat)
    (region : Option Region) : Option State :=
  s.moor { s.mooringOf dom l .plain 0 (.plain n tag) region with owner := o, fwd := true, plain := some place } n

/-- A plain access of core n to a checked place waits at its owner (R408): behind an older entry of the word, or as one that joins
it. A load reads the word once its entry has been served (log entry 14). -/
def State.plainWait (s : State) (n : CoreId) (dom : BitVec 16) (l : Loc) (region : Option Region) : Option State :=
  if !s.served dom l then some s
  else (s.plainStuck n dom l).map fun o => (s.joinPlain n dom l o (0, []) none region).getD s

/-- k bytes of one word loaded by the running frame, after its sync reads under way (R113): its own buffered and provisional
bytes first; poison traps (R216 step 5) unless every byte comes from the buffer. A tentative instance's own provisional bytes do not
hide the poison of the word beneath: the spec does not say, DESIGN CHOICE (log entry 26). -/
def State.loadWord (s : State) (sp : Space) (a : Acc) (k : Nat) : Res (State × List Byte) := do
  let s ← s.settleFlights s.cur
  let c := s.me
  match s.plainWait s.cur c.dom a.loc c.region with
  | some t => .error (t, .hold)
  | none =>
  demand (!(s.accPoisoned s.cur c.dom a) || (upFrom a.va k).all (fwdHas c.sbuf sp c.dom)) s
    (.trap 0x0D (BitVec.ofNat 64 a.va))
  let (s, bs) := s.rawRead s.cur c.dom a k
  let bs := overlay (fwdByte c.sbuf sp c.dom) a.va bs
  let bs := match sp, c.here.inst with
    | .global, some i => overlay (s.ownByte i c.dom) a.va bs
    | _, _ => bs
  .ok (s, bs)

/-- A load of k bytes, at most 8, by the running frame: R216, R219. -/
def State.load (s : State) (sp : Space) (ea : Word) (k : Nat) : Res (State × Nat) := do
  let (s, a) ← s.check sp ea k true false false
  let (s, bs) ← s.loadWord sp a k
  .ok (s, joinBytes bs)

/-! ## The store buffer -/

/-- A release beyond the die reaches its homes first (R117). -/
def State.releaseAt (s : State) (die : BitVec 4) (sc : Scope) : State :=
  match sc with
  | .module | .system => s.releaseDie die
  | _ => s
/-- An acquire beyond the die discards its copies (R117). -/
def State.acquireAt (s : State) (die : BitVec 4) (sc : Scope) : State :=
  match sc with
  | .module | .system => s.acquireDie die
  | _ => s

/-- Bytes of one word written at a checked place. -/
def State.rawWrite (s : State) (n : CoreId) (dom : BitVec 16) (p : Acc) (bs : List Byte) : State :=
  match p.loc with
  | .tcm m off => s.updCore m fun c => c.tcmStore off bs
  | .page cl b =>
    match s.frameAt cl dom b with
    | some (i, _) => s.updFrame cl i fun f => f.store (b % 4096) bs
    | none => s
  | .mem pa => s.dieWrite (dieOf n) dom p.va pa bs

/-- An entry of core n's store buffer leaves it (R113, R226), and tells whether it is acknowledged at once: none when it must wait at
its owner's door, or behind an entry of its word that waits for a forward credit there. A plain store that needs a forward of a home
without credit joins the home's list (R408). -/
def State.performStore (s : State) (n : CoreId) (e : StoreEntry) : Option (State × Bool) :=
  let loc := s.placeOf n e.space e.dom e.va e.pa
  match e.mode with
  | some m =>
    let s := (s.releaseAt (dieOf n) e.scope).settle (dieOf n) loc
    (s.syncArrive (s.mooringOf e.dom loc m e.data (.posted n) e.region) n).map fun s => (s, true)
  | none =>
    let bs := splitBytes e.size e.data.toNat
    if !s.served e.dom loc then none
    else
      match s.plainStuck n e.dom loc with
      | some o => (s.joinPlain n e.dom loc o (e.pa % 8, bs) (some e.tag) e.region).map fun s => (s, false)
      | none => some (s.rawWrite n e.dom { loc, va := e.va, pa := e.pa } bs, true)

/-- The oldest entry of core n's store buffer leaves it, after the sync reads before it in program order; its acknowledgement
is on its way (R113, R410). None leaves while an atomic keeps later accesses back (R120). -/
def State.drainOne (s : State) (n : CoreId) : Option State :=
  let s := s.flightsFrom n (s.core n).flight.length
  match (s.core n).flight, (s.core n).sbuf with
  | _ :: _, _ => none
  | [], [] => none
  | [], e :: r =>
    if (s.core n).amoWait then none
    else
      (s.performStore n e).map fun p =>
        p.1.updCore n fun c => { c with sbuf := r, acks := if p.2 then c.acks ++ [e.tag] else c.acks }

/-- The store buffer drains as far as it can. -/
def State.drainFrom (s : State) (n : CoreId) : Nat → State
  | 0 => s
  | k + 1 =>
    match s.drainOne n with
    | some s => State.drainFrom s n k
    | none => s

/-- The whole buffer of core n drains, after its sync reads under way: an access that needs it waits while an entry cannot
leave (R113). -/
def State.drain (s : State) (n : CoreId) : Res State := do
  let s ← s.settleFlights n
  let s := s.drainFrom n (s.core n).sbuf.length
  if (s.core n).sbuf.isEmpty then .ok s else .error (s, .hold)

/-- A store enters the buffer of the core in turn; a full buffer makes it wait for the oldest entry (R217). -/
def State.append (s : State) (e : StoreEntry) : Res State :=
  let full := decide (s.me.sbuf.length ≥ 16)
  match (if full then (if s.slow then none else s.drainOne s.cur) else some s) with
  | none => .error (s, .hold)
  | some s =>
    .ok { (s.updMe fun c => { c with sbuf := c.sbuf ++ [{ e with tag := s.nextId }],
                                     unacked := c.unacked ++ [s.nextId] }) with nextId := s.nextId + 1 }

/-! ## Provisional stores -/

/-- How many different items a list holds. -/
def distinct {α : Type} [DecidableEq α] : List α → Nat
  | [] => 0
  | x :: r => if r.contains x then distinct r else distinct r + 1

/-- Granules of provisional bytes that a launch holds at a quay die, were a store to be added (R85). Lines of two instances of
the launch in one granule count once: the spec does not say, DESIGN CHOICE (log entry 26). -/
def State.provGranules (s : State) (launch : Nat) (quay : BitVec 4) (extra : Nat) : Nat :=
  distinct (extra / 64 :: ((s.prov.filter fun (p : Prov) => p.launch == launch && homeDie p.pa == quay).map
    fun (p : Prov) => p.pa / 64))

/-- Provisional lines of one set of a quay's slice: its ways bound them (R85). A slice of 256 MiB, 16 ways and 64-byte
lines has 2^18 sets. -/
def State.provSet (s : State) (pa : Nat) : Nat :=
  distinct ((s.prov.filter fun (p : Prov) =>
      homeDie p.pa == homeDie pa && p.pa / 64 % 2 ^ 18 == pa / 64 % 2 ^ 18).map
    fun (p : Prov) => (p.launch, p.index, p.pa / 64))

/-- There is room for a provisional store of the instance (R85, R86). A page of host memory has no home slice: the spec is silent
on a tentative store to it, and the model finds no room there, DESIGN CHOICE (log entry 26). -/
def State.provRoom (s : State) (i : Inst) (pa : Nat) : Bool :=
  match s.launches.find? fun (l : Launch) => l.id == i.id with
  | some l =>
    let ways := (s.die (homeDie pa)).provWays.toNat
    let there := s.prov.any fun p => p.launch == i.id && p.index == i.index && p.pa / 64 == pa / 64
    decide (s.provGranules i.id (homeDie pa) pa ≤ l.provq.toNat * 16384) && !isHost pa &&
      (there || decide (s.provSet pa < ways))
  | none => false

/-! ## Stores -/

/-- A checked store of k bytes, at most 8, by the running frame: R86, R217. -/
def State.storeAt (s : State) (sp : Space) (a : Acc) (k : Nat) (x : Word) : Res State := do
  let c := s.me
  let e : StoreEntry := { space := sp, va := a.va, pa := a.pa, size := k, data := x, mode := none, tag := 0, dom := c.dom,
                          region := c.region, scope := .core }
  match c.here.inst with
  | some i =>
    if i.tentative then
      match sp with
      | .global =>
        demand (s.provRoom i (s.live a.pa)) s (.park 5 0)
        .ok { s with prov := s.prov ++ [{ launch := i.id, index := i.index, pa := s.live a.pa, va := a.va, dom := c.dom,
                                          data := splitBytes k x.toNat }] }
      | .scratch => .error (s, .park 6 0)
      | .tcm =>
        demand (inFrame c.here.fbase (frameSize c.here.fclass c.lvl) a.va) s (.park 6 0)
        s.append e
    else s.append e
  | none => s.append e

/-- The checks of a store of k bytes by the running frame: a tentative instance stores nothing in a scratchpad (R86, R216). -/
def State.checkStore (s : State) (sp : Space) (ea : Word) (k : Nat) : Res (State × Acc) :=
  match sp with
  | .scratch => s.checkFirm 6 sp ea k false true false
  | _ => s.check sp ea k false true false

/-- A store of k bytes, at most 8, by the running frame: R216, R217. -/
def State.store (s : State) (sp : Space) (ea : Word) (k : Nat) (x : Word) : Res State := do
  let (s, a) ← s.checkStore sp ea k
  s.storeAt sp a k x

/-- The place d bytes on within one checked access. -/
def Acc.plus (a : Acc) (d : Nat) : Acc :=
  { loc := match a.loc with
      | .tcm n off => .tcm n (off + d)
      | .page cl b => .page cl (b + d)
      | .mem pa => .mem (pa + d)
    va := a.va + d, pa := a.pa + d }

/-- A tentative instance parks at an instruction that its rights exclude, before any effect (R86, R236). -/
def State.parkTentative (s : State) (why : BitVec 4) : Res Unit := demand (!s.tentative) s (.park why 0)

end Sys2Proof.Machine
end

