-- ==== Sys2Proof/Machine/Tasks.lean ====
section
/-! DEFINITION. Starting and ending tasks: push, resumption, selection, pop, the end of a task, the return from a
trap (R37 to R54, R307, R349), and parking (R330, R390). -/

namespace Sys2Proof.Machine

/-! ## Instances -/

/-- Instances that count towards a launch's successor: those below Max(N, nmin) (R325, R329). -/
def Launch.counted (l : Launch) : Option Nat := l.count.map fun n => Nat.max n.toNat l.record.nmin.toNat

/-- What the module's agents have stored reaches its homes, before the successor of work spread over them (R125). The stores of an
instance have left its core's store buffer when it ends (State.beforeEnd). -/
def State.publish (s : State) : State :=
  let s := s.cores.foldl (fun (s : State) e => s.drainFrom (BitVec.ofNat 18 e.1) e.2.sbuf.length) s
  (upFrom 0 16).foldl (fun (s : State) d => s.releaseDie (BitVec.ofNat 4 d)) s

/-- A launch whose counted instances have all ended sends its successor (R325). -/
def State.finishLaunch (s : State) (l : Launch) : State :=
  match l.counted with
  | some m =>
    if l.released ∧ !l.done ∧ (l.ended.filter fun i => decide (i.toNat < m)).length = m then
      let s := { s with launches := s.launches.map fun (x : Launch) => if x.id = l.id then { x with done := true } else x }
      s.publish.release l.by_ 4 l.succ [(l.count.getD 0).setWidth 64, l.pred.setWidth 64]
    else s
  | none => s

/-- A walk whose tiles have all ended sends its successor (R323). -/
def State.finishWalk (s : State) (w : Walk) : State :=
  if !w.done ∧ w.sent.length = w.record.tiles ∧ w.ended.length = w.record.tiles then
    let s := { s with walks := s.walks.map fun (x : Walk) => if x.id = w.id then { x with done := true } else x }
    s.publish.release w.by_ 2 w.succ [BitVec.ofNat 64 w.record.tiles]
  else s

/-- An instance has ended and counts (R307). -/
def State.countEnded (s : State) (i : Inst) : State :=
  if i.walk then
    let s := { s with walks := s.walks.map fun (w : Walk) =>
      if w.id = i.id ∧ !w.ended.contains i.index then { w with ended := i.index :: w.ended } else w }
    match s.walks.find? fun (w : Walk) => w.id == i.id with
    | some w => s.finishWalk w
    | none => s
  else
    let s := { s with launches := s.launches.map fun (l : Launch) =>
      if l.id = i.id ∧ !l.ended.contains i.index then { l with ended := i.index :: l.ended } else l }
    match s.launches.find? fun (l : Launch) => l.id == i.id with
    | some l => s.finishLaunch l
    | none => s

/-! ## Push -/

/-- The hypervector state as words: h0 to h3, ht, k (R330). -/
def hvWords (h : Vector Hv 4) (ht : Hv) : List Word :=
  (h.toList ++ [ht]).flatMap fun v => (upFrom 0 64).map fun i => v.extractLsb' (64 * i) 64

/-- A hypervector from 64 words. -/
def hvOf (w : List Word) (at_ : Nat) : Hv :=
  (upFrom 0 64).foldl (fun v i => v ||| (((w[at_ + i]?).getD 0).setWidth 4096 <<< (64 * i))) 0

/-- The counters from 512 words. -/
def kcntOf (w : List Word) (at_ : Nat) : BitVec 32768 :=
  (upFrom 0 512).foldl (fun v i => v ||| (((w[at_ + i]?).getD 0).setWidth 32768 <<< (64 * i))) 0

/-- Stores to n bytes of the core's TCM from lo on that wait in its buffer are overwritten there: they leave it without effect (R53,
R113). -/
def Core.overwrite (c : Core) (lo n : Nat) : Core :=
  let gone (e : StoreEntry) : Bool := e.space == .tcm && e.mode.isNone && decide (lo ≤ e.va) && decide (e.va < lo + n)
  { c with sbuf := c.sbuf.filter fun e => !gone e, acks := c.acks ++ (c.sbuf.filter gone).map fun e => e.tag }

/-- The frame of a record is rebuilt over a push of priority p (R53): what earlier frames stored at its offsets is older. -/
def Core.rebuild (c : Core) (w : List Word) (p : BitVec 3) (r : Record) : Core :=
  let at_ (i : Nat) : Word := (w[i]?).getD 0
  let sp := c.sp
  let c := (c.overwrite sp.toNat (frameSize (bits (at_ 0) 43 3) p)).updBank p fun b =>
    let b := b.ofImage (w.drop 8) (bits (at_ 0) 46 1 == 1)
    { (b.ws 1 (sp.setWidth 64)) with mtype := bits (at_ 0) 35 8, inst := r.inst, queueOp := r.queueOp }
  let c := { c with pc := bits (at_ 1) 0 56, b := (c.bank p).rb, thresh := (c.bank p).rthresh,
                    tcm := c.tcm.write sp.toNat (((w.drop 0x408).take (frameSize (bits (at_ 0) 43 3) p / 8)).flatMap
                      fun x => splitBytes 8 x.toNat) }
  if bits (at_ 0) 46 1 = 1 then
    { c with h := ((c.h.set 0 (hvOf w 0xC0)).set 1 (hvOf w 0x100)).set 2 (hvOf w 0x140) |>.set 3 (hvOf w 0x180)
             ht := hvOf w 0x1C0, kcnt := kcntOf w 0x200, hprog := bits (at_ 0x400) 0 50, hpc := bits (at_ 0x401) 0 56 }
  else c

/-- With k.ctl.mig set, cause 0x0E is raised before the next instruction (R350): for a frame of level 7 that has just been
pushed it is a trap at level 7 (R347). -/
def State.migTrap (s : State) (n : CoreId) : State :=
  let k := s.core n
  if k.mig then
    (s.updCore n fun k => { k with mig := false }).takeTrap n 0x0E 0 (if k.level = 0xF then 0 else k.pc) true
  else s

/-- The live record that a type-0x0B arrival names (R391). -/
def State.recordOf (s : State) (a : Arr) : Option Record :=
  if hdrType a.msg.hdr = 0x0B then s.records.find? fun r => r.addr.setWidth 64 == a.msg.word 0 else none

/-- The start of a handler is an acquire at the scope that covers it and the sender, at system scope for a host request, and
beyond the die for a successor of work spread over dies or of an acquiring sync read (R122, R125, R128, R133). -/
def State.acquireFrom (s : State) (n : CoreId) (a : Arr) : State :=
  if a.far ∨ a.srcMod ≠ s.modu ∨ dieOf (hdrSrc a.msg.hdr) ≠ dieOf n ∨ hdrType a.msg.hdr = 0x0A then s.acquireDie (dieOf n) else s

/-- The words of a line of code from w on, n of them, at PA pa and virtual address lo: the parcels of those that are not poisoned, and the
line as the read leaves it (R83, R172). -/
def State.codeWords (s : State) (die : BitVec 4) (dom : BitVec 16) (lo pa : Nat) : Nat → Nat → State × Cells Parcel
  | 0, _ => (s, [])
  | n + 1, w =>
    if s.poisoned die (pa + 8 * w) then State.codeWords s die dom lo pa n (w + 1)
    else
      let (s, bs) := s.dieRead die dom lo (pa + 8 * w) 8
      let x := BitVec.ofNat 64 (joinBytes bs)
      let (s, r) := State.codeWords s die dom lo pa n (w + 1)
      (s, ((upFrom 0 4).map fun i => (lo + 8 * w + 2 * i, bits x (16 * i) 16)) ++ r)

/-- The parcels of the 64-byte line of a virtual address as core n can read them: none where it cannot (R172). -/
def State.codeLine (s : State) (n : CoreId) (va : Nat) : State × Cells Parcel :=
  let lo := va / 64 * 64
  match s.translate (dieOf n) (BitVec.ofNat 56 lo) (s.core n).sbuf with
  | (s, .page pa) => s.codeWords (dieOf n) (s.core n).dom lo pa 8 0
  | (s, .absent _ _) => (s, [])

/-- The entry buffer of core n holds the line of the handler that has just been started at level p, unless it is there already:
its own line, or a locked one (R360). A line that the core may not execute is not read. -/
def State.fillEntry (s : State) (n : CoreId) (p : BitVec 3) : State :=
  let c := s.core n
  let there (l : Cells Parcel) : Bool := l.any fun e => e.1 == c.pc.toNat
  if there (c.entryBuf.get p.toFin) || there c.locked then s
  else
    let (s, l) := if (c.rights c.pc (c.level == 7)).2.2 then s.codeLine n c.pc.toNat else (s, [])
    s.updCore n fun c => { c with entryBuf := c.entryBuf.set p.toFin l }

/-- The handlers of the contracts of the stage of core n that name the core: those whose first lines are locked (R360). -/
def Core.lockedHandlers (c : Core) : List Nat :=
  match c.binding with
  | some b => ((b.contracts.filter fun x =>
      decide (x.cfirst.toNat ≤ b.idx) && decide (b.idx < x.cfirst.toNat + x.ccount.toNat)).take 8).map fun x =>
        (bits (c.vector x.ctype) 0 56).toNat
  | none => []

/-- The locked lines of core n are loaded (R360). The part loads them; a fetch of what they hold still asks for the right to execute. -/
def State.lockLines (s : State) (n : CoreId) : State :=
  (s.core n).lockedHandlers.foldl (fun (s : State) a =>
    let (s, l) := s.codeLine n a
    s.updCore n fun c => { c with locked := c.locked ++ l }) (s.updCore n fun c => { c with locked := [] })

/-- The instruction cache and the entry buffer of core n are invalidated, and its locked lines reloaded (R172, R360). -/
def State.invalidateCode (s : State) (n : CoreId) : State :=
  (s.updCore n fun c => { c with icache := [], entryBuf := .replicate 8 [] }).lockLines n

/-- The words of the record that an arrival resumes, if it resumes one; some none where the part cannot read it (R53, R392). -/
def State.recordRead (s : State) (n : CoreId) (a : Arr) : Option (Record × Option (List Word)) :=
  (s.recordOf a).map fun r => (r, s.partWords (dieOf n) r.addr.toNat (r.size / 8))

/-- The frame of a record is rebuilt over the push of its arrival, and the record is live no longer (R53, R391). -/
def State.resume (s : State) (n : CoreId) (p : BitVec 3) (r : Record) (w : List Word) : State :=
  let s := (s.partTouch (dieOf n) r.addr.toNat (r.size / 8)).updCore n fun c => c.rebuild w p r
  let s := { s with records := s.records.filter fun x => x.addr != r.addr }
  match s.partStore (dieOf n) (r.addr.toNat + 40) 0 with
  | some s => s
  | none => s.machineCheck (dieOf n) 0x03 0 (r.addr.setWidth 64 + 40) (some r.region)

/-- The arrival is started on core n at priority p (R37, R53). -/
def State.push (s : State) (n : CoreId) (a : Arr) (p : BitVec 3) : State :=
  let from_ := s.recordRead n a
  let s := s.acquireFrom n a
  let s := ((s.detach n).updCore n fun c => c.pushFrame a p).fillEntry n p
  let s := match from_ with
    | some (r, some w) => s.resume n p r w
    | _ => s
  (s.unpin n).migTrap n

/-- Selection among at most k held arrivals of core n (R45). An arrival that names a record no longer live is dropped (R391), and
one that can never start is removed with its trap (R46); where the part cannot read the record that an arrival resumes, it does not
start (R392). -/
def State.selectFrom (s : State) (n : CoreId) : Nat → State
  | 0 => s
  | k + 1 =>
    if (s.core n).stopped then s
    else
      match s.nextFrom n 8 with
      | none => s
      | some (p, i) =>
        match (s.heldAt n p)[i]? with
        | none => s
        | some a =>
          if hdrType a.msg.hdr = 0x0B ∧ (s.recordOf a).isNone then State.selectFrom (s.takeHeld n p i) n k
          else if (s.core n).tooLarge a p then
            State.selectFrom ((s.takeHeld n p i).asyncTrap n 0xF 0x0A (tooLargeAddr a p)) n k
          else if !(s.core n).above p ∨ (s.core n).arrSize a p > (s.core n).freeStack then s
          else
            match s.recordRead n a with
            | some (r, none) => s.machineCheck (dieOf n) 0x03 0 (r.addr.setWidth 64) (some r.region)
            | _ => (s.takeHeld n p i).push n a p

/-- How many arrivals core n holds at most. -/
def State.heldCount (s : State) (n : CoreId) : Nat :=
  ((s.core n).inbox.toList.map (·.length)).foldl (· + ·) 0 + s.weir.length

/-! ## Parking -/

/-- The first multiple of 64 from a on, at most fuel tries, whose size bytes meet no record of the region. -/
def recordSlot (used : List Record) (size hi : Nat) : Nat → Nat → Option Nat
  | 0, _ => none
  | k + 1, a =>
    if a + size > hi then none
    else
      match used.find? fun r => decide (a < r.addr.toNat + r.size) && decide (r.addr.toNat < a + size) with
      | some r => recordSlot used size hi k ((r.addr.toNat + r.size + 63) / 64 * 64)
      | none => some a

/-- The words of a resumption record (R330). -/
def Core.recordWords (c : Core) (launch : Word) (why : BitVec 4) (va : Word) (at_ : BitVec 56) : List Word :=
  let b := { c.here with rthresh := c.thresh, rb := c.b }
  let hv := b.claims.any fun x => x.res == 0
  let idx : BitVec 32 := match b.inst with
    | some i => i.index
    | none => 0
  let w0 : Word := 0#17 ++ BitVec.ofBool hv ++ b.fclass ++ b.mtype ++ c.lvl ++ idx
  let fr := frameSize b.fclass c.lvl
  [w0, at_.setWidth 64, launch, why.setWidth 64, if why = 8 then va else 0, if why = 8 then 1 else 0, 0, 0] ++
    b.image ++ List.replicate 31 0 ++
    (if hv then hvWords c.h c.ht ++
        ((upFrom 0 512).map fun i => c.kcnt.extractLsb' (64 * i) 64) ++
        [c.hprog.setWidth 64, c.hpc.setWidth 64]
     else List.replicate 834 0) ++ List.replicate 6 0 ++
    ((upFrom 0 (fr / 8)).map fun i => c.tcmWord (b.fbase.toNat + 8 * i))

/-- What the running frame of core n has stored has left the store buffer, and no reply is on its way to its window: what it still
waits for would reach a frame that is gone (R131, R222, R330). -/
def State.settled (s : State) (n : CoreId) : Bool :=
  let c := s.core n
  c.sbuf.isEmpty && !c.replies.any fun (r : Reply) => !r.voided && r.level == c.lvl

/-- The running frame parks (R330, R390), once its stores have left the store buffer: none when they have not, or when its region's record
area cannot hold the record. Where the part cannot store the record it raises a machine check, and the frame does not park (R392). -/
def State.park (s : State) (n : CoreId) (why : BitVec 4) (va : Word) (at_ : BitVec 56) (async : Bool) : State × Bool :=
  let s := s.drainFrom n (s.core n).sbuf.length
  let c := s.core n
  if !s.settled n then (s, false)
  else
  match c.region with
  | none => (s, false)
  | some r =>
    match s.infoOf r with
    | none => (s, false)
    | some info =>
      let size := (0x2040 + frameSize c.here.fclass c.lvl + 63) / 64 * 64
      let used := s.records.filter fun x => x.region == r
      match recordSlot used size (info.recBase + info.recSize) (used.length + 1) ((info.recBase + 63) / 64 * 64) with
      | none => (s, false)
      | some a =>
        let launch : Word := match c.here.inst with
          | some i => if i.walk then 0 else
              match s.launches.find? fun (l : Launch) => l.id == i.id with
              | some l => l.record.rcb.setWidth 64
              | none => 0
          | none => 0
        match s.partStores (dieOf n) a (c.recordWords launch why va at_) with
        | none => (s.machineCheck (dieOf n) 0x03 0 (BitVec.ofNat 64 a) (some r), false)
        | some s =>
          let rec_ : Record := { region := r, addr := BitVec.ofNat 56 a, size, inst := c.here.inst, lid := c.lid,
                                 fclass := c.here.fclass, level := c.lvl, why, queueOp := c.here.queueOp }
          let s := { s with records := s.records ++ [rec_] }
          let s := s.updCore n fun c => c.updHere fun b => { b with inst := none }
          (s.enterTrap n 0x0B (BitVec.ofNat 64 a) at_ async, true)

/-- A tentative frame some store of whose engine went beyond the quota must park at this boundary (R285). -/
def State.mustPark (s : State) (n : CoreId) : Bool :=
  let c := s.core n
  c.level != 7 && c.level != 0xF && !c.stopped && c.here.parkDue && s.tentativeInst c.here.inst

/-- What waits for an instruction boundary of core n is taken: a trap that is held, or the park of a frame some store of whose engine
went beyond the quota, with cause 0x0B in the order of the causes (R285, R348). A frame that has become firm goes on. -/
def State.atBoundary (s : State) (n : CoreId) : State :=
  let c := s.core n
  if s.mustPark n then
    let first := c.here.squash || c.heldTraps.any fun t => (t.level == c.level || t.level == 0xF) && decide (trapRank t.cause < trapRank 0x0B)
    if first then s.boundary n else (s.park n 5 0 c.pc true).1
  else
    (if c.level = 0xF ∨ c.stopped ∨ !c.here.parkDue then s
     else s.updCore n fun c => c.updHere fun b => { b with parkDue := false }).boundary n

/-- What waits for the boundary is taken; then the highest startable held arrival above the threshold is pushed if it fits (R45,
R348). -/
def State.selectNext (s : State) (n : CoreId) : State :=
  let s := s.atBoundary n
  s.selectFrom n (s.heldCount n + 1)

/-! ## Pop -/

/-- The highest level below l that holds a frame. -/
def Core.liveBelow (c : Core) : Nat → Option (BitVec 3)
  | 0 => none
  | l + 1 => if (c.bank (BitVec.ofNat 3 l)).live then some (BitVec.ofNat 3 l) else Core.liveBelow c l

/-- The frame of level l runs again (R38, R349); the pc is its resume address. -/
def Core.restoreFrame (c : Core) (l : BitVec 3) : Core :=
  let b := c.bank l
  { c with level := l.setWidth 4, thresh := b.rthresh, b := b.rb, pc := b.rpc }

/-- The core without a frame (R38). -/
def Core.goIdle (c : Core) : Core := { c with level := 0xF, thresh := 0xF }

/-- A core that stays without a frame ends its run of level-7 frames (R343). -/
def State.idleRun (s : State) (n : CoreId) : State :=
  if (s.core n).level = 0xF ∧ (s.core n).run7 ≠ 0 then s.updCore n fun c => { c with run7 := 0 } else s

/-- The running frame leaves the stack (R38); its level keeps b0 to b3 (R37). -/
def Core.dropFrame (c : Core) : Core :=
  let l := c.lvl
  let c := { c with sp := c.sp + BitVec.ofNat 16 (frameSize c.here.fclass l) }
  c.updHere fun b => { b with live := false, claims := [], inst := none, contract := none, squash := false, parkDue := false,
                              queueOp := none, rb := c.b }

/-- The running frame is popped and the lower frame restored (R38). The trap 0x0E of R350 comes before the traps held for the resumed
frame (R348), both being due before its next instruction: no rule orders them, DESIGN CHOICE (log entry 28). -/
def State.pop (s : State) (n : CoreId) : State :=
  let s := s.updCore n fun c =>
    let l := c.lvl
    let c := c.dropFrame
    match c.liveBelow l.toNat with
    | some m => c.restoreFrame m
    | none => c.goIdle
  (((s.unpin n).migTrap n).selectNext n).idleRun n

/-- The membership that a frame of level l of core n holds ends (R214). -/
def State.endMember (s : State) (n : CoreId) (l : BitVec 3) : State :=
  match (s.core n).member with
  | some m => if m.level = l then (s.detachFollowers n).updCore n fun c => { c with member := none } else s
  | none => s

/-- The replies that a frame of level l no longer waits for: an atomic that keeps later accesses back does so still (R113, R120). -/
def Core.dropReplies (c : Core) (l : BitVec 3) : Core :=
  { c.updBank l fun b => { b with spend := 0 } with
    replies := c.replies.filterMap fun (r : Reply) =>
      if r.level ≠ l ∨ r.voided then some r else if r.blocks then some { r with voided := true } else none
    heldTraps := c.heldTraps.filter fun (t : HeldTrap) => t.level != l.setWidth 4 }

/-- What ends with a frame of level l: swarm membership, SFU requests, hypervector progress (R307, R349), the replies that no
frame waits for any more, and the traps held for the frame (R348). -/
def State.endOf (s : State) (n : CoreId) (l : BitVec 3) : State :=
  (s.endMember n l).updCore n fun c =>
    let c := { c with sfu := c.sfu.map fun (r : SfuReq) => if r.level = l then { r with voided := true } else r
                      hprog := if bits c.hprog 0 1 = 1 ∧ bits c.hprog 1 3 = l then putBits c.hprog 0 1 0 else c.hprog }
    (c.updBank l fun b => { b with vpend := 0 }).dropReplies l

/-- The running task of core n ends (R307). -/
def State.endTask (s : State) (n : CoreId) (counted : Bool) : State :=
  let c := s.core n
  let i := c.here.inst
  let s := s.endOf n c.lvl
  let s := match i with
    | some i => if counted then s.countEnded i else s
    | none => s
  s.pop n

/-- The return from a trap-entered frame (R349): it pops the frame, so pages are unpinned (R77), its membership ends (R214), and a
migration trap that is due is raised (R350). -/
def State.trapReturn (s : State) (n : CoreId) (ending : Bool) : State :=
  let c := s.core n
  if !causeEntered c.cause then s.nestedTrap n 0x01
  else
    let l := causeLevel c.cause
    let code := causeCode c.cause
    let s := ((s.endMember n 7).unpin n).updCore n fun c =>
      let c := c.dropReplies 7
      { (c.updBank 7 fun b => { b with live := false, claims := [], queueOp := none, rb := c.b }) with
        cause := putBits c.cause 13 1 0 }
    if l = 0xF then (((s.updCore n fun c => c.goIdle).migTrap n).selectNext n).idleRun n
    else
      let s := s.updCore n fun c => { (c.restoreFrame (bits l 0 3)) with pc := c.epc }
      if ending ∨ code = 0x08 ∨ code = 0x0B then s.endTask n (code != 0x08 && code != 0x0B)
      else ((s.migTrap n).selectNext n).idleRun n

/-- The next state of an instruction that does not retire in this step. -/
def State.stop (s : State) (e : Stop) : State :=
  let n := s.cur
  let c := s.core n
  match e with
  | .trap cause a => s.takeTrap n cause a c.pc false
  | .hold => s
  | .stall =>
    let k := c.stalls.get c.lvl.toFin + 1
    if k.toNat > c.wdog.toNat then
      (s.updCore n fun c => { c with stalls := c.stalls.set c.lvl.toFin 0 }).takeTrap n 0x0C 0 c.pc false
    else s.updCore n fun c => { c with stalls := c.stalls.set c.lvl.toFin k }
  | .park why va =>
    if c.level = 7 then s.takeTrap n 0x04 va c.pc false
    else if !(s.drainFrom n c.sbuf.length).settled n then s.drainFrom n c.sbuf.length
    else
      match s.park n why va c.pc false with
      | (s, true) => s
      | (s, false) => if why = 8 then s.takeTrap n 0x04 va c.pc false else s

/-- The outcome of an instruction from the state and stop of its operation. -/
def finish (r : Except (State × Stop) State) : Out :=
  match r with
  | .ok s => .next s
  | .error (s, e) => .next (s.stop e)

end Sys2Proof.Machine
end

