-- ==== Sys2Proof/Machine/Operands.lean ====
section
/-! DEFINITION. Operand forms: sizes and extensions of loads and stores (R219), effective addresses (R216), branch
targets (R202), bit fields (R194), bit counts (R191), and the lanes of vector registers (R237). -/

namespace Sys2Proof

/-- Bytes of a load (R219). -/
def LdSize.bytes : LdSize → Nat
  | .n8 | .i8 => 1
  | .n16 | .i16 => 2
  | .n32 | .i32 => 4
  | .b8 => 8

/-- The result of a load from the value of its bytes (R219). -/
def LdSize.extend (z : LdSize) (x : Nat) : Word :=
  match z with
  | .i8 => (BitVec.ofNat 8 x).signExtend 64
  | .i16 => (BitVec.ofNat 16 x).signExtend 64
  | .i32 => (BitVec.ofNat 32 x).signExtend 64
  | .n8 => (BitVec.ofNat 8 x).setWidth 64
  | .n16 => (BitVec.ofNat 16 x).setWidth 64
  | .n32 => (BitVec.ofNat 32 x).setWidth 64
  | .b8 => BitVec.ofNat 64 x

/-- Bytes of an access (R219, R220). -/
def MemSize.bytes : MemSize → Nat
  | .n8 => 1 | .n16 => 2 | .n32 => 4 | .b8 => 8

/-- An integer element type is signed. -/
def Et.signed : Et → Bool
  | .i8 | .i16 | .i32 | .i64 => true
  | _ => false

/-- The value of an integer lane by the signedness of its type. -/
def Et.int (e : Et) (x : Nat) : Int := Machine.intOf e.signed e.width x

/-- The value of a floating-point lane. -/
def Et.ext (e : Et) (x : Nat) : Machine.Ext := (Machine.fmtOf e).value x

namespace Machine

/-- The instruction writes s_d and retires. -/
def State.retire (s : State) (d : SReg) (x : Word) (len : Nat) : Out := .next ((s.ws d x).advance len)

/-- The instruction writes v_d and retires. -/
def State.retireV (s : State) (d : VReg) (x : Vec) : Out := .next ((s.wv d x).advance 4)

/-- The effective address of the WM formats (R216). -/
def State.ea (s : State) (a : SReg) (off : BitVec 11) : Word := s.rs a + sext off

/-! ## Scalar operands -/

/-- Number of zero bits above the highest 1 bit (R191). -/
def clzW (x : Word) : Word := if x = 0 then 64 else BitVec.ofNat 64 (63 - Nat.log2 x.toNat)

/-- Number of zero bits below the lowest 1 bit, from bit i on (R191). -/
def ctzFrom (x : Word) : Nat → Nat → Nat
  | 0, i => i
  | n + 1, i => if x.getLsbD i then i else ctzFrom x n (i + 1)

/-- Number of 1 bits below bit n (R191). -/
def popBelow (x : Word) : Nat → Nat
  | 0 => 0
  | n + 1 => popBelow x n + if x.getLsbD n then 1 else 0

/-- The bit field from pos, of lenm1 + 1 bits, zero-extended (R194). -/
def fieldZ (x : Word) (pos lenm1 : BitVec 6) : Word :=
  BitVec.ofNat 64 (x.toNat / 2 ^ pos.toNat % 2 ^ (lenm1.toNat + 1))

/-- The bit field sign-extended (R194). -/
def fieldS (x : Word) (pos lenm1 : BitVec 6) : Word :=
  BitVec.ofInt 64 (intOf true (lenm1.toNat + 1) (x.toNat / 2 ^ pos.toNat))

/-- High half of the signed product (R186). -/
def mulHigh (x y : Word) : Word := bits (x.signExtend 128 * y.signExtend 128 : BitVec 128) 64 64
/-- High half of the unsigned product (R186). -/
def mulHighU (x y : Word) : Word := bits (x.setWidth 128 * y.setWidth 128 : BitVec 128) 64 64

/-- Signed quotient (R187). -/
def divS (x y : Word) : Word := if y = 0 then -1 else x.sdiv y
/-- Unsigned quotient (R187). -/
def divU (x y : Word) : Word := if y = 0 then -1 else x.udiv y
/-- Signed remainder (R187). -/
def remS (x y : Word) : Word := if y = 0 then x else x.srem y
/-- Unsigned remainder (R187). -/
def remU (x y : Word) : Word := if y = 0 then x else x.umod y

/-- The amount of a shift by register (R190). -/
def amount (y : Word) : Nat := (bits y 0 6).toNat

/-! ## Targets -/

/-- A control transfer to t (R202): s is the state before, s' the state with the transfer's own writes. -/
def State.jump (s s' : State) (t : Int) : Out :=
  if t % 2 = 1 then .next (s.stop (.trap 0x02 (BitVec.ofInt 64 t)))
  else if t < 0 ∨ t ≥ 2 ^ 56 then .next (s.stop (.trap 0x03 (BitVec.ofInt 64 t)))
  else .next ((s'.advance 0).setPc (BitVec.ofInt 56 t))

/-- pc + 2 * off (R161). -/
def State.target {w : Nat} (s : State) (off : BitVec w) : Int := s.pc.toNat + 2 * off.toInt

/-- A conditional transfer: to t, or past an instruction of len bytes. -/
def State.branch (s : State) (c : Bool) (t : Int) (len : Nat) : Out :=
  if c then s.jump s t else .next (s.advance len)

/-! ## Lanes -/

/-- The w bits of lane i. -/
def lane (v : Vec) (w i : Nat) : Nat := v.toNat / 2 ^ (w * i) % 2 ^ w

/-- Lanes of w bits packed from lane 0 up. -/
def joinLanes (w : Nat) : List Nat → Nat
  | [] => 0
  | x :: r => x % 2 ^ w + 2 ^ w * joinLanes w r

/-- A vector of lanes of w bits. -/
def ofLanes (w : Nat) (l : List Nat) : Vec := BitVec.ofNat 128 (joinLanes w l)

/-- Lanes of a vector of an element type. -/
def lanesOf (e : Et) (v : Vec) : List Nat := (upFrom 0 e.lanes).map fun i => lane v e.width i

/-- f over the lanes of two vectors. -/
def lanes2 (e : Et) (f : Nat → Nat → Nat) (a b : Vec) : Vec :=
  ofLanes e.width ((upFrom 0 e.lanes).map fun i => f (lane a e.width i) (lane b e.width i))

/-- f over the lanes of three vectors, with the lane's number. -/
def lanes3 (e : Et) (f : Nat → Nat → Nat → Nat → Nat) (a b d : Vec) : Vec :=
  ofLanes e.width ((upFrom 0 e.lanes).map fun i => f i (lane a e.width i) (lane b e.width i) (lane d e.width i))

/-- v with lane i replaced. -/
def putLane (v : Vec) (w i x : Nat) : Vec := putBits v (w * i) w x

/-- A floating-point lane rounded: lane i takes draw i when the instruction names stochastic rounding (R146, R241). -/
def State.roundLane (s : State) (e : Et) (sr : Bool) (i : Nat) (x : Ext) : Nat :=
  (fmtOf e).round (if sr then some (s.me.draw i) else none) x

/-- The draw counter advances for n lanes rounded stochastically (R146). -/
def State.consume (s : State) (sr : Bool) (n : Nat) : State :=
  if sr then s.updMe fun c => { c with sctr := c.sctr + BitVec.ofNat 64 ((n + 3) / 4) } else s

end Machine

end Sys2Proof
end

