-- ==== Sys2Proof/Machine/Flags.lean ====
section
/-! DEFINITION. Conditions and status: the relations of compares and branches (R165, R243), and the engine status
register k.estat (R310, R311). The part keeps no condition flags (R184). -/

namespace Sys2Proof

/-- The condition of R165 over two words. -/
def Cond.holds (c : Cond) (x y : Word) : Bool :=
  match c with
  | .eq => x == y
  | .ne => x != y
  | .lt => x.slt y
  | .ge => !x.slt y
  | .ltu => x.ult y
  | .geu => !x.ult y
  | .any => (x &&& y) != 0
  | .none => (x &&& y) == 0

namespace Machine

/-- The relation of R243 over integer lanes. -/
def relInt (c : VRel) (x y : Int) : Bool :=
  match c with
  | .eq => decide (x = y)
  | .ne => decide (x ≠ y)
  | .lt => decide (x < y)
  | .ge => decide (y ≤ x)
  | .le => decide (x ≤ y)
  | .gt => decide (y < x)
  | .un => false

/-- The relation of R243 over floating-point lanes. -/
def relExt (c : VRel) (x y : Ext) : Bool :=
  let un := x.isNan || y.isNan
  match c with
  | .eq => x.eqv y
  | .ne => !x.eqv y
  | .lt => x.lt y
  | .ge => !un && !x.lt y
  | .le => !un && !y.lt x
  | .gt => y.lt x
  | .un => un

/-! ## Engine status -/

/-- Commands of engine e that are closing: they hold their slot until they end (R21, R311). -/
def Core.closingIn (c : Core) (e : BitVec 4) : Nat := (c.closing.filter fun x => engineOf x.2 == e).length

/-- Accepted commands of engine e that have not ended: 0 copy, 1 matrix, 2 remote request (R310). -/
def Core.heldCmds (c : Core) (e : BitVec 4) : Nat :=
  match e.toNat with
  | 0 => c.copyQ.length + c.closingIn 0
  | 1 => c.matQ.length + c.closingIn 1
  | _ => (c.remQ.filter fun (q : RemCmd) => !q.passed).length + c.closingIn 2

/-- The stored status fields of engine e. -/
def Core.est (c : Core) (e : BitVec 4) : EStat :=
  match e.toNat with
  | 0 => c.estCopy
  | 1 => c.estMat
  | _ => c.estRem

/-- c with the stored status fields of engine e changed. -/
def Core.updEst (c : Core) (e : BitVec 4) (f : EStat → EStat) : Core :=
  match e.toNat with
  | 0 => { c with estCopy := f c.estCopy }
  | 1 => { c with estMat := f c.estMat }
  | _ => { c with estRem := f c.estRem }

/-- One engine's 16 bits of k.estat (R310). -/
def EStat.field (x : EStat) (held : Nat) : BitVec 16 :=
  0#3 ++ BitVec.ofNat 2 held ++ BitVec.ofBool x.fault ++ BitVec.ofBool x.done ++
    BitVec.ofBool (decide (held ≠ 0)) ++ x.ended

/-- k.estat (R310). -/
def Core.estat (c : Core) : Word :=
  0#16 ++ c.estRem.field (c.heldCmds 2) ++ c.estMat.field (c.heldCmds 1) ++ c.estCopy.field (c.heldCmds 0)

/-- Fields after the end of a command, with the commands then held (R311). -/
def EStat.ending (x : EStat) (fault : Bool) (held : Nat) : EStat :=
  { ended := x.ended + 1, fault, done := !fault && decide (held = 0) }

/-- The acceptance step: done is cleared; busy and held follow the queue (R311). -/
def Core.acceptCmd (c : Core) (e : BitVec 4) : Core := c.updEst e fun x => { x with done := false }

/-- The end step of a command that has left the queue of core n, for the task of a LID: a saved context gets it at its
`fload` (R311, R354). -/
def State.endCmd (s : State) (n : CoreId) (lid : CoreId) (e : BitVec 4) (fault : Bool) : State :=
  let at_ (m : CoreId) : Bool := (s.core m).lid == lid && (s.core m).savedLid != some lid
  let m := s.physOf lid
  if at_ n then s.updCore n fun c => c.updEst e fun x => x.ending fault (c.heldCmds e)
  else if at_ m then s.updCore m fun c => c.updEst e fun x => x.ending fault (c.heldCmds e)
  else { s with owed := s.owed ++ [(lid, e, fault)] }

/-- A command that has left its queue is handed back: the status step, then the type-0x01 message (R311, R320). -/
def State.failCmd (s : State) (n : CoreId) (by_ : Issuer) (cmd : BitVec 4) (cause : BitVec 5) (x : Succ)
    (addr progress : Word) : State :=
  (s.endCmd n by_.lid (engineOf cmd) true).handback by_ cmd cause x addr progress

/-- The count of ended commands of an engine of a task's LID: at the core that has its context, or of a saved context with the steps
owed to it (R354). -/
def State.endedAt (s : State) (n : CoreId) (lid : CoreId) (e : BitVec 4) : Byte :=
  match s.saved.find? fun (x : Saved) => x.current && x.lid == lid with
  | some x =>
    bits x.estat (16 * e.toNat) 8 + BitVec.ofNat 8 (s.owed.filter fun o => o.1 == lid && o.2.1 == e).length
  | none => if (s.core n).lid = lid then ((s.core n).est e).ended else ((s.core (s.physOf lid)).est e).ended

/-- The successor of a command names a LID of this module that is absent (R21). -/
def State.successorAbsent (s : State) (x : Succ) : Bool :=
  !x.nosucc && !x.self && s.moduleOf x.modu == s.modu && !s.present x.lid

/-- The successor of a command goes to a core of this module. -/
def State.successorHere (s : State) (x : Succ) : Bool := !x.nosucc && (x.self || s.moduleOf x.modu == s.modu)

/-- A command that has left its queue has made all its effects: its successor leaves (R304). Where the successor's LID has gone absent it
is handed back with its progress (R21, R320). Where that LID may still go absent before the successor enters its die, the command is
closing: one status step is made there, of a completion or of a handback (R21, R311). Else it is made now. far is as for a
release. -/
def State.completeFar (s : State) (n : CoreId) (by_ : Issuer) (cmd : BitVec 4) (x : Succ) (payload : List Word)
    (progress : Word) (far : Bool) : State :=
  if s.successorAbsent x then s.failCmd n by_ cmd 0x03 x (x.lid.setWidth 64) progress
  else if s.successorHere x then
    let t := { (s.updCore n fun c => { c with closing := c.closing ++ [(s.nextId, cmd)] }) with nextId := s.nextId + 1 }
    t.releaseFar { by_ with core := n } x payload far { cmd, succ := x, progress, ended := none, close := some s.nextId }
  else
    let s := s.endCmd n by_.lid (engineOf cmd) false
    s.releaseFar by_ x payload far
      { cmd, succ := x, progress, ended := some (s.endedAt n by_.lid (engineOf cmd)), close := none }

/-- The status step of a command of a LID that was closing at core n: of a completion, or of a handback (R21, R311). A core reset has
discarded such a command, and then there is none (R446). -/
def State.closeCmd (s : State) (n : CoreId) (lid : CoreId) (cmd : BitVec 4) (id : Nat) (fault : Bool) : State :=
  if (s.core n).closing.any fun x => x.1 == id then
    (s.updCore n fun c => { c with closing := c.closing.filter fun x => x.1 != id }).endCmd n lid (engineOf cmd) fault
  else s

/-- A command whose progress is zero completes. -/
def State.completeCmd (s : State) (n : CoreId) (by_ : Issuer) (cmd : BitVec 4) (x : Succ) (payload : List Word) : State :=
  s.completeFar n by_ cmd x payload 0 (spreadCmd cmd)

end Machine

end Sys2Proof
end

