-- ==== Sys2Proof/Machine/Manage.lean ====
section
/-! DEFINITION. The management space (R432 to R434): the windows of clusters, dies, quay dies and encoders, and what a
write of their registers does (R431, R435, R439 to R441, R444 to R446, R449). -/

namespace Sys2Proof.Machine

/-! ## Cores by physical number -/

/-- Core c of a cluster. -/
def coreOf (cl : BitVec 14) (c : Nat) : CoreId := cl ++ BitVec.ofNat 4 c

/-- Some present LID names the physical core (R20). -/
def State.named (s : State) (n : CoreId) : Bool :=
  let t := (s.die (dieOf n)).remap
  t.any (fun e => e.2.present && e.2.phys == bits n 0 14) ||
    ((Cells.find t (bits n 0 14).toNat).isNone && !s.disabled.contains n && s.serviceCore (sectorOf n) != n)

/-- The core has no frame at any level. -/
def Core.isIdle (c : Core) : Bool := c.level == 0xF

/-- No arrival is held for the core in its inbox, and the weir holds no entry for it (R439, R441). -/
def State.noneHeld (s : State) (n : CoreId) : Bool :=
  (s.core n).inbox.toList.all (·.isEmpty) &&
    s.weir.all fun e => match e.queue with
      | .inbox m _ => s.physOf m != n
      | .recv m _ => s.physOf m != n
      | .tcm m => s.physOf m != n
      | _ => true

/-! ## What binding, `fsave` and a reset clear -/

/-- The micro-kernel's supervisor vector entries of a core: those that its table holds, or once the table is clear those that it held
(R367 step 4, R449 step 7; log entry 18). -/
def Core.supervisorEntries (c : Core) : Vector Word 32 :=
  let own : Vector Word 32 := Vector.ofFn fun (t : Fin 32) => c.vector (BitVec.ofNat 8 t.val)
  if own.toList.all (· == 0) then c.svec else own

/-- Per-core task state as binding leaves it (R214, R352, R367): TCM below the supervisor area zero and full, queue
registers unbound, hypervector state zero, the latch and the epilogue buffers free. -/
def Core.cleared (c : Core) : Core :=
  let top := c.vbase.toNat + 0xA00
  { c with sp := c.vbase, svec := c.supervisorEntries, tcm := c.tcm.clear 0 top, tcmFe := c.tcmFe.drop fun w => decide (8 * w < top),
           tcmPoison := c.tcmPoison.drop fun w => decide (8 * w < top), d := .replicate 8 0,
           q := .replicate 8 QueueReg.reset, h := .replicate 4 0, ht := 0, kcnt := 0,
           hprog := putBits c.hprog 0 1 0, member := none, latchL := none, latchI := none, epi0 := none, epi1 := none }

/-- The mooring entries of the core's TCM are removed (R352). -/
def State.dropTcmMoorings (s : State) (n : CoreId) : State :=
  { s with moorings := s.moorings.filter fun (m : Mooring) => m.owner != .tcm n }

/-- The registers and the TCM of a core as binding has left them; of a core that is not bound, as bring-up has left them (R367, R446,
R449). -/
def Core.fresh (c : Core) : Fresh :=
  match c.binding with
  | some b => b.fresh
  | none => { dom := 0, vbase := 0xB000, slim := 0, ceil := fixCeil 0, wdog := 0x100000, seed := 0, sctr := 0, d := .replicate 8 0,
              q := .replicate 8 QueueReg.reset,
              tcm := Memory.write [] 0xB000 (c.supervisorEntries.toList.flatMap fun x => splitBytes 8 x.toNat) }

/-- Core reset (R446): every frame is discarded, engines lose their commands, arrivals stay held. The registers that binding writes, and
the TCM, are as binding left them; those of an exception in progress are as at reset (log entry 18). -/
def State.resetCore (s : State) (n : CoreId) : State :=
  let s := (((s.detachFollowers n).endOf n (s.core n).lvl).unpin n).dropTcmMoorings n
  s.updCore n fun c =>
    let f := c.fresh
    let c := c.cleared
    { c with dom := f.dom, vbase := f.vbase, sp := f.vbase, slim := f.slim, ceil := f.ceil, wdog := f.wdog, seed := f.seed, sctr := f.sctr
             d := f.d, q := f.q, tcm := f.tcm, tcmFe := [], tcmPoison := [], stalls := .replicate 8 0, epc := 0, addr := 0, xcause := 0,
             xepc := 0, wasReset := true, closing := []
             level := 0xF, thresh := 0xF, banks := .replicate 8 Bank.reset, b := .replicate 4 0, pc := 0, copyQ := [],
             matQ := [], remQ := c.remQ.filter (fun (q : RemCmd) => q.passed), estCopy := .reset, estMat := .reset, estRem := .reset, sbuf := [], flight := [],
             deliver := [], replies := [], sfu := [], unacked := [], acks := [], heldTraps := [], binding := none,
             budgets := [], stopped := false, asleep := false, plb := .replicate 16 PlbEntry.reset, icache := [],
             entryBuf := .replicate 8 [], locked := [], run7 := 0, cause := 0xF00, mig := false, hprog := 0, hpc := 0 }

/-! ## The cluster window (R434) -/

/-- Dividers written (R435): one above the region's dmax is stored as dmax on a core with admitted contracts. -/
def State.writeDividers (s : State) (cl : BitVec 14) (data : Word) : State :=
  let v := (upFrom 0 16).foldl (fun (v : Word) i =>
    let x := (bits data (4 * i) 4).toNat
    let x := match (s.core (coreOf cl i)).binding with
      | some b =>
        match s.infoOf b.region with
        | some r => if !b.contracts.isEmpty ∧ x + 1 > r.dmax.toNat then r.dmax.toNat - 1 else x
        | none => x
      | none => x
    putBits v (4 * i) 4 x) 0
  s.updCluster cl fun k => { k with div := v }

/-- The power switch of a core may open (R441). -/
def State.mayOpen (s : State) (n : CoreId) : Bool :=
  let c := s.core n
  c.binding.isNone && c.isIdle && !s.named n && s.noneHeld n

/-- A core that has been off: every register holds its reset value, and its TCM is zero and full (R441). What waits at its interface, which
stays powered, waits there still (R440). -/
def State.clearCore (s : State) (n : CoreId) : State := s.setCore n { Core.reset n with ni := (s.core n).ni }

/-- Power switches written (R441): a core whose switch opens holds no state, and one whose switch closes starts as at reset (R15). -/
def State.writeSwitches (s : State) (cl : BitVec 14) (data : Word) : State :=
  (upFrom 0 16).foldl (fun s i =>
    let n := coreOf cl i
    let on := (s.cluster cl).pon.getLsbD i
    if data.getLsbD i then
      if on then s
      else (s.clearCore n).updCluster cl fun k => { k with pon := k.pon ||| (1#16 <<< i) }
    else if on ∧ s.mayOpen n then (s.clearCore n).updCluster cl fun k => { k with pon := k.pon &&& ~~~(1#16 <<< i) }
    else s) s

/-- The first cluster after cl in its block, cyclically, among n, whose SFU is not gated; with every one gated, the next
(R440). -/
def State.sfuAfter (s : State) (cl : BitVec 14) : Nat → BitVec 14
  | 0 => bits cl 4 10 ++ (bits cl 0 4 + 1#4)
  | n + 1 =>
    let next := bits cl 4 10 ++ (bits cl 0 4 + BitVec.ofNat 4 (15 - n))
    if (s.cluster next).gstate = 0 then next else State.sfuAfter s cl n

/-- The cluster whose SFU serves a request of a core (R440). -/
def State.sfuOf (s : State) (n : CoreId) : BitVec 14 :=
  if (s.cluster (clusterOf n)).gstate = 0 then clusterOf n else s.sfuAfter (clusterOf n) 15

/-- Draining begins (R439 steps 1 to 4): what was accepted completes, pages are written back and freed with their
waiting entries moved, and SFU requests not yet accepted go to the next cluster. -/
def State.beginDrain (s : State) (cl : BitVec 14) : State :=
  let s := (upFrom 0 16).foldl (fun s i =>
    let n := coreOf cl i
    if (s.core n).sbuf.isEmpty then s else s.drainFrom n (s.core n).sbuf.length) s
  let s := (upFrom 0 (s.cluster cl).frames.length).foldl (fun s _ => s.evictFrame cl 0) s
  let s := (upFrom 0 256).foldl (fun s i =>
    let n : CoreId := bits cl 4 10 ++ BitVec.ofNat 8 i
    if (s.core n).sfu.any (fun r => r.cluster == cl && !r.accepted) then
      s.updCore n fun c => { c with sfu := c.sfu.map fun (r : SfuReq) =>
        if r.cluster = cl ∧ !r.accepted then { r with cluster := s.sfuAfter cl 15 } else r }
    else s) s
  s.updCluster cl fun k => { k with gstate := 1, refills := [] }

/-- The whole cluster may be gated (R439). -/
def State.mayGate (s : State) (cl : BitVec 14) : Bool :=
  (upFrom 0 16).all fun i => s.mayOpen (coreOf cl i)

/-- sgreq is set (R439). -/
def State.requestScratchGate (s : State) (cl : BitVec 14) : State :=
  let k := s.cluster cl
  let s := s.updCluster cl fun k => { k with sgreq := true }
  if k.gstate = 0 then s.beginDrain cl else s

/-- cgreq is set, if it may be (R439). -/
def State.requestClusterGate (s : State) (cl : BitVec 14) : State :=
  let k := s.cluster cl
  if k.cgreq ∨ !s.mayGate cl then s
  else
    let s := s.updCluster cl fun k => { k with cgreq := true, waking := false }
    if k.gstate = 0 ∨ k.gstate = 2 then s.beginDrain cl else s

/-- The gating register written: requests set, or cleared to wake the cluster (R439, R440). -/
def State.writeGate (s : State) (cl : BitVec 14) (data : Word) : State :=
  let k := s.cluster cl
  let sg := data.getLsbD 0
  let cg := data.getLsbD 1
  let s := if cg then s.requestClusterGate cl
    else if k.cgreq then s.updCluster cl fun k => { k with cgreq := false, waking := decide (k.gstate = 3) }
    else s
  let k := s.cluster cl
  if sg then (if k.sgreq ∧ k.gstate ≠ 0 then s else s.requestScratchGate cl)
  else if k.sgreq ∧ !k.cgreq then
    s.updCluster cl fun k => { k with sgreq := false, waking := k.waking || decide (k.gstate = 2) }
  else s

/-- The drain has ended (R439 step 5). -/
def State.endDrain (s : State) (cl : BitVec 14) : State :=
  let k := s.cluster cl
  if k.gstate ≠ 1 then s
  else s.updCluster cl fun k =>
    { k with gstate := if k.cgreq then 3 else 2, waking := !k.cgreq && !k.sgreq }

/-- The rails are back (R440): every frame is free. After cgreq the whole cluster is awake, and a request for the scratchpad alone that
still stands gates it again when it is next written. -/
def State.endWake (s : State) (cl : BitVec 14) : State :=
  let k := s.cluster cl
  if !k.waking then s
  else
    let s := if k.gstate = 3 then
        (upFrom 0 16).foldl (fun s i => s.clearCore (coreOf cl i)) s
      else s
    s.updCluster cl fun k => { k with gstate := if k.sgreq ∧ k.gstate ≠ 3 then 2 else 0, waking := false, frames := [] }

/-- The temperature of a core at or above its limit is told to it once while its flag is armed (R444). -/
def State.notifyHeat (s : State) (n : CoreId) : State :=
  let k := s.cluster (clusterOf n)
  let i := (slotOf n).toNat
  let t := k.temp.get (slotOf n).toFin
  if k.armed.getLsbD i ∧ k.nmask.getLsbD i ∧ k.tlim.toNat ≤ t.toNat then
    let s := s.updCluster (clusterOf n) fun k => { k with armed := k.armed &&& ~~~(1#16 <<< i) }
    let lid := (s.core n).lid
    let m : Msg := { hdr := mkHdr 0x0C 7 0 2 0 lid, payload := [t.setWidth 64, BitVec.ofNat 64 i] }
    let a : Arr := { msg := m, inst := none, contract := none, srcMod := s.modu, resume := none, far := false }
    let t : Transit := { cargo := .message a, from_ := none, dstMod := s.modu, dst := lid, held := false, tag := none,
                         back := none, owner := none }
    s.updCore n fun c => { c with ni := c.ni ++ [t] }
  else s

/-- A core at or below its release temperature is armed again (R444). -/
def State.rearm (s : State) (n : CoreId) : State :=
  let k := s.cluster (clusterOf n)
  let i := (slotOf n).toNat
  if (k.temp.get (slotOf n).toFin).toNat + k.hyst.toNat ≤ k.tlim.toNat then
    s.updCluster (clusterOf n) fun k => { k with armed := k.armed ||| (1#16 <<< i) }
  else s

/-- The logic rail is kept within its lowest and its highest step (R437). -/
def Cluster.keepLogic (k : Cluster) : Cluster :=
  { k with lcur := BitVec.ofNat 8 (Nat.min (Nat.max k.lcur.toNat k.lfloor.toNat) k.lceil.toNat) }

/-- A register of the cluster window read (R434). -/
def State.readCluster (s : State) (cl : BitVec 14) (off : Nat) : Word :=
  let k := s.cluster cl
  let tempWord (w : Nat) : Word :=
    BitVec.ofNat 64 (joinBytes ((k.temp.toList.drop (8 * w)).take 8))
  match off with
  | 0x000 => k.div
  | 0x008 => k.pon.setWidth 64
  | 0x010 => (k.lceil ++ k.lfloor ++ k.lcur).setWidth 64
  | 0x018 => (k.sset ++ k.sceil ++ k.sfloor ++ k.scur).setWidth 64
  | 0x020 => tempWord 0
  | 0x028 => tempWord 1
  | 0x030 => (k.nmask ++ k.hyst ++ k.tlim).setWidth 64
  | 0x038 => (k.gstate ++ BitVec.ofBool k.cgreq ++ BitVec.ofBool k.sgreq).setWidth 64
  | 0x040 => k.uerr ++ k.cerr
  | 0x050 => BitVec.ofNat 64 ((upFrom 0 16).foldl (fun v i =>
      if (s.core (coreOf cl i)).stopped then v + 2 ^ i else v) 0)
  | _ => 0

/-- A register of the cluster window written (R434). -/
def State.writeCluster (s : State) (cl : BitVec 14) (off : Nat) (x : Word) : State :=
  match off with
  | 0x000 => s.writeDividers cl x
  | 0x008 => s.writeSwitches cl x
  | 0x010 => s.updCluster cl fun k => ({ k with lfloor := bits x 8 8, lceil := bits x 16 8 } : Cluster).keepLogic
  | 0x018 => s.updCluster cl fun k => { k with sfloor := bits x 8 8, sceil := bits x 16 8, sset := bits x 24 8 }
  | 0x030 =>
    let s := s.updCluster cl fun k => { k with tlim := bits x 0 8, hyst := bits x 8 8, nmask := bits x 16 16 }
    (upFrom 0 16).foldl (fun s i => (s.rearm (coreOf cl i)).notifyHeat (coreOf cl i)) s
  | 0x038 => s.writeGate cl x
  | 0x040 => s.updCluster cl fun k => { k with cerr := k.cerr &&& ~~~(bits x 0 32), uerr := k.uerr &&& ~~~(bits x 32 32) }
  | 0x048 => (upFrom 0 16).foldl (fun s i => if x.getLsbD i then s.resetCore (coreOf cl i) else s) s
  | _ => s

/-! ## The other windows -/

/-- A register of the die window read (R445). -/
def State.readDie (s : State) (d : BitVec 4) (off : Nat) : Word :=
  let k := s.die d
  match off with
  | 0x000 => k.mcbase.setWidth 64
  | 0x008 => k.mcsize.setWidth 64
  | 0x010 => k.mctail.setWidth 64
  | 0x018 => k.mchead.setWidth 64
  | 0x020 => k.mclost.setWidth 64
  | _ => 0

/-- A register of the die window written (R445). -/
def State.writeDie (s : State) (d : BitVec 4) (off : Nat) (x : Word) : State :=
  match off with
  | 0x000 => s.updDie d fun k => { k with mcbase := bits x 0 56 }
  | 0x008 => s.updDie d fun k => { k with mcsize := bits x 0 16 }
  | 0x018 => s.updDie d fun k => { k with mchead := bits x 0 16 }
  | 0x020 => s.updDie d fun k => { k with mclost := k.mclost &&& ~~~(bits x 0 32) }
  | _ => s

/-- Key material committed to a slot (R449). -/
def State.commitKey (s : State) (bay : BitVec 4) (slot : Byte) : State :=
  s.updQuay bay fun q => { q with keys := Cells.put q.keys slot.toNat q.material }

/-- A register of a quay die's window written (R449). -/
def State.writeQuay (s : State) (bay : BitVec 4) (off : Nat) (x : Word) : State :=
  if off = 0 then s.commitKey bay (bits x 0 8)
  else if 0x40 ≤ off ∧ off ≤ 0x78 ∧ off % 8 = 0 then
    s.updQuay bay fun q => { q with material := q.material.setIfInBounds ((off - 0x40) / 8) x }
  else s

/-- The next period release of a die's pacer leaves, and its next period begins (R431). -/
def State.paceRelease (s : State) (d : BitVec 4) : State :=
  let p := (s.die d).pacer
  if p.en ∧ p.now ≠ 0 then
    let s := s.postOwn 0x05 7 0 p.lid [p.rcb.setWidth 64, (p.seq ++ 0#29 ++ p.cidx)] 0
    s.updDie d fun k => { k with pacer := { k.pacer with seq := k.pacer.seq + 1, now := k.pacer.period } }
  else s

/-- pace.ctl written: a write that sets en restarts the sequence and sends the first release at once (R431). -/
def State.writePacer (s : State) (d : BitVec 4) (x : Word) : State :=
  let en := x.getLsbD 0
  let s := s.updDie d fun k =>
    { k with pacer := { k.pacer with en, cidx := bits x 1 3, lid := bits x 4 18,
                                     seq := if en then 0 else k.pacer.seq,
                                     now := if en then k.pacer.period else k.pacer.now } }
  if en then s.paceRelease d else s

/-- A register of the encoder window read (R431). -/
def State.readEnc (s : State) (d : BitVec 4) (off : Nat) : Word :=
  let p := (s.die d).pacer
  match off with
  | 0x000 => (p.lid ++ p.cidx ++ BitVec.ofBool p.en).setWidth 64
  | 0x008 => p.period.setWidth 64
  | 0x010 => p.rcb.setWidth 64
  | 0x018 => p.seq.setWidth 64
  | _ => 0

/-- A register of the encoder window written (R431): a period written while the pacer runs waits for the end of the present one. -/
def State.writeEnc (s : State) (d : BitVec 4) (off : Nat) (x : Word) : State :=
  match off with
  | 0x000 => s.writePacer d x
  | 0x008 => s.updDie d fun k =>
      { k with pacer := { k.pacer with period := bits x 0 32,
                                       now := if k.pacer.en ∧ k.pacer.now ≠ 0 then k.pacer.now else bits x 0 32 } }
  | 0x010 => s.updDie d fun k => { k with pacer := { k.pacer with rcb := bits x 0 56 } }
  | _ => s

/-! ## The whole space (R433) -/

/-- A management address: class, die, unit and offset; none when a reserved field is not zero. -/
def mgmtFields (a : Nat) : Option (Nat × BitVec 4 × BitVec 10 × Nat) :=
  let cls := a / 2 ^ 44 % 16
  let unit := a / 2 ^ 16 % 1024
  if a / 2 ^ 26 % 2 ^ 14 ≠ 0 then none
  else if cls ≥ 2 ∧ unit ≠ 0 ∨ cls = 1 ∧ unit ≥ 64 ∨ cls = 5 ∧ a / 2 ^ 40 % 16 ≠ 0 then none
  else some (cls, BitVec.ofNat 4 (a / 2 ^ 40), BitVec.ofNat 10 unit, a % 65536)

/-- A read in the management space (R432, R433). -/
def State.mgmtRead (s : State) (a : Nat) : Word :=
  match mgmtFields a with
  | some (0, d, u, off) => s.readCluster (d ++ u) off
  | some (2, d, _, off) => s.readDie d off
  | some (4, d, _, off) => s.readEnc d off
  | _ => 0

/-- A write in the management space (R432, R433). -/
def State.mgmtWrite (s : State) (a : Nat) (x : Word) : State :=
  match mgmtFields a with
  | some (0, d, u, off) => s.writeCluster (d ++ u) off x
  | some (2, d, _, off) => s.writeDie d off x
  | some (3, d, _, off) => s.writeQuay d off x
  | some (4, d, _, off) => s.writeEnc d off x
  | _ => s

end Sys2Proof.Machine
end

