-- ==== Sys2Proof/Machine/MemOps.lean ====
section
/-! DEFINITION. Loads and stores, acquire and release, full-empty instructions, fences and prefetch (majors 0x1C to
0x22 and 0x24, R216 to R229, R236), with their compact forms. -/

namespace Sys2Proof.Machine

/-- A plain load of a size into s_d (R219): the management space answers 8-byte loads of level 7 (R432). -/
def State.plainLoad (s : State) (sp : Space) (d : SReg) (ea : Word) (z : LdSize) (len : Nat) : Out :=
  finish do
    if sp = .global ∧ s.me.level = 7 ∧ z = .b8 ∧ ea.toNat < 2 ^ 56 ∧ isMgmt ea.toNat ∧ ea.toNat % 8 = 0 then
      let s ← s.drain s.cur
      .ok ((s.ws d (s.mgmtRead ea.toNat)).advance len)
    else
      let (s, x) ← s.load sp ea z.bytes
      .ok ((s.ws d (z.extend x)).advance len)

/-- A plain store of a size (R219): the management space takes 8-byte stores of level 7 (R432). -/
def State.plainStore (s : State) (sp : Space) (ea : Word) (z : MemSize) (x : Word) (len : Nat) : Out :=
  finish do
    if sp = .global ∧ s.me.level = 7 ∧ z = .b8 ∧ ea.toNat < 2 ^ 56 ∧ isMgmt ea.toNat ∧ ea.toNat % 8 = 0 then
      let s ← s.drain s.cur
      let t := s.mgmtWrite ea.toNat x
      .ok (if t.me.level = 7 then t.advance len else t)
    else
      let s ← s.store sp ea z.bytes x
      .ok (s.advance len)

/-! ## Plain loads and stores (R219) -/

/-- `ld.t`. -/
def execLdT (d a : SReg) (z : LdSize) (off : BitVec 11) (s : State) : Out := s.plainLoad .tcm d (s.ea a off) z 4
/-- `st.t`. -/
def execStT (d a : SReg) (z : MemSize) (off : BitVec 11) (s : State) : Out := s.plainStore .tcm (s.ea a off) z (s.rs d) 4
/-- `ld.c`. -/
def execLdC (d a : SReg) (z : LdSize) (off : BitVec 11) (s : State) : Out := s.plainLoad .scratch d (s.ea a off) z 4
/-- `st.c`. -/
def execStC (d a : SReg) (z : MemSize) (off : BitVec 11) (s : State) : Out :=
  s.plainStore .scratch (s.ea a off) z (s.rs d) 4
/-- `ld`. -/
def execLd (d a : SReg) (z : LdSize) (off : BitVec 11) (s : State) : Out := s.plainLoad .global d (s.ea a off) z 4
/-- `st`. -/
def execSt (d a : SReg) (z : MemSize) (off : BitVec 11) (s : State) : Out :=
  s.plainStore .global (s.ea a off) z (s.rs d) 4

/-- Eight times an unsigned 5-bit field (R166). -/
def off8 (u : BitVec 5) : Word := BitVec.ofNat 64 (8 * u.toNat)

/-- Compact `ld.t sX, [sY]`. -/
def execCompactLdT (x y : SReg) (s : State) : Out := s.plainLoad .tcm x (s.rs y) .b8 2
/-- Compact `st.t sX, [sY]`. -/
def execCompactStT (x y : SReg) (s : State) : Out := s.plainStore .tcm (s.rs y) .b8 (s.rs x) 2
/-- Compact `ld sX, [sY]`. -/
def execCompactLd (x y : SReg) (s : State) : Out := s.plainLoad .global x (s.rs y) .b8 2
/-- Compact `st sX, [sY]`. -/
def execCompactSt (x y : SReg) (s : State) : Out := s.plainStore .global (s.rs y) .b8 (s.rs x) 2
/-- Compact `ld.t sX, [s1+8u]`. -/
def execCompactLdTFrame (x : SReg) (u : BitVec 5) (s : State) : Out := s.plainLoad .tcm x (s.rs 1 + off8 u) .b8 2
/-- Compact `st.t sX, [s1+8u]`. -/
def execCompactStTFrame (x : SReg) (u : BitVec 5) (s : State) : Out :=
  s.plainStore .tcm (s.rs 1 + off8 u) .b8 (s.rs x) 2
/-- Compact `ld.t sX, [s0+8u]`. -/
def execCompactLdTAbsolute (x : SReg) (u : BitVec 5) (s : State) : Out := s.plainLoad .tcm x (off8 u) .b8 2
/-- Compact `st.t sX, [s0+8u]`. -/
def execCompactStTAbsolute (x : SReg) (u : BitVec 5) (s : State) : Out := s.plainStore .tcm (off8 u) .b8 (s.rs x) 2
/-- Compact `ld.c sX, [s0+8u]`. -/
def execCompactLdC (x : SReg) (u : BitVec 5) (s : State) : Out := s.plainLoad .scratch x (off8 u) .b8 2
/-- Compact `st.c sX, [s0+8u]`. -/
def execCompactStC (x : SReg) (u : BitVec 5) (s : State) : Out := s.plainStore .scratch (off8 u) .b8 (s.rs x) 2

/-! ## Acquire loads and release stores (R220) -/

/-- `ld.acq`: the buffer drains, the die's copies are discarded, and the value is read from then on (R114, R117). -/
def execLdAcq (d a : SReg) (z : MemSize) (sp : Space) (sc : Scope) (s : State) : Out :=
  finish do
    let ea := s.rs a
    let (t, p) ← s.check sp ea z.bytes true false false
    let t ← t.drain t.cur
    let t := t.acquireAt (dieOf t.cur) sc
    let (t, bs) ← t.loadWord sp p z.bytes
    .ok ((t.ws d (BitVec.ofNat 64 (joinBytes bs))).advance 4)

/-- `st.rel`: the buffer drains, stored bytes reach their homes, then the store enters the buffer (R114, R117). -/
def execStRel (a b : SReg) (z : MemSize) (sp : Space) (sc : Scope) (s : State) : Out :=
  finish do
    let ea := s.rs a
    let (t, p) ← s.checkFirm 9 sp ea z.bytes false true false
    let t ← t.drain t.cur
    let t := t.releaseAt (dieOf t.cur) sc
    let c := t.me
    let e : StoreEntry := { space := sp, va := p.va, pa := p.pa, size := z.bytes, data := s.rs b, mode := none, tag := 0,
                            dom := c.dom, region := c.region, scope := sc }
    let t ← t.append e
    .ok (t.advance 4)

/-! ## Full-empty instructions (R223 to R227) -/

/-- Entries that a queue register has free for `ldq` (R225). -/
def QueueReg.room (q : QueueReg) : Bool := decide (q.entries.length + q.resv < 8)

/-- A copy stream is active on the register (R225). -/
def Core.streaming (c : Core) (q : QReg) : Bool := c.copyQ.any fun x => x.q == some q

/-- `ldq` (R224, R225). The spec gives no order between the trap of the register's binding and the checks of R216: the model
tests the binding first, DESIGN CHOICE (log entry 13). -/
def execLdq (q : QReg) (a : SReg) (tag : BitVec 3) (sp : Space) (m : SyncMode) (sc : Scope) (s : State) : Out :=
  finish do
    let c := s.me
    let r := c.rq q
    demand (r.kind == 3 && r.level == c.lvl && !c.streaming q) s (.trap 0x03 0)
    let ea := s.rs a
    let (t, p) ← s.checkFirm 2 sp ea 8 true false true
    demand r.room t .stall
    let t ← t.drain t.cur
    let f : Flight := { space := sp, ea := ea.toNat, va := p.va, pa := p.pa, mode := m, q, level := c.lvl, itag := tag,
                        scope := sc, tag := t.nextId, dom := c.dom, region := c.region }
    let t := { t with nextId := t.nextId + 1 }
    let t := t.updMe fun c =>
      { c.updQ q fun r => { r with resv := r.resv + 1 } with flight := c.flight ++ [f], unacked := c.unacked ++ [f.tag] }
    .ok (t.advance 4)

/-- A sync write is performed after every earlier access: the buffer drains, and the write enters it (R113, R114, R226). -/
def State.syncWrite (s : State) (a b : SReg) (sp : Space) (m : SyncMode) (sc : Scope) : Out :=
  finish do
    let (t, p) ← s.checkFirm 2 sp (s.rs a) 8 false true true
    let t ← t.drain t.cur
    let c := t.me
    let e : StoreEntry := { space := sp, va := p.va, pa := p.pa, size := 8, data := s.rs b, mode := some m, tag := 0,
                            dom := c.dom, region := c.region, scope := sc }
    let t ← t.append e
    .ok (t.advance 4)

/-- `fe.fill` (R226). -/
def execFeFill (a b : SReg) (sp : Space) (m : SyncMode) (sc : Scope) (s : State) : Out := s.syncWrite a b sp m sc
/-- `fe.empty` (R226). -/
def execFeEmpty (a b : SReg) (sp : Space) (sc : Scope) (s : State) : Out := s.syncWrite a b sp .wempty sc

/-- `fe.test`: the bit held in memory, read as a plain load reads its word (R227). Of a word of host memory it traps with cause 0x03 as
the accesses with a sync mode do: R387 gives the trap to those, and no rule says what `fe.test` reads there, DESIGN CHOICE (log entry
28). -/
def execFeTest (d a : SReg) (sp : Space) (s : State) : Out :=
  finish do
    let c := s.me
    let (t, p) ← s.check sp (s.rs a) 8 true false true
    let t ← t.settleFlights t.cur
    match t.plainWait t.cur c.dom p.loc c.region with
    | some u => .error (u, .hold)
    | none =>
    demand (!t.accPoisoned t.cur c.dom p) t (.trap 0x0D (BitVec.ofNat 64 p.va))
    let full := t.spotFull (t.spot c.dom p.loc)
    let (t, _) := t.rawRead t.cur c.dom p 8
    .ok ((t.ws d (if full then 1 else 0)).advance 4)

/-! ## Fence and prefetch (R228, R229) -/

/-- The running frame's `fence` waits for acknowledgements, or no longer (R132). -/
def State.setFencing (s : State) (x : Bool) : State :=
  if s.me.here.fencing = x then s else s.updMe fun c => c.updHere fun b => { b with fencing := x }

/-- `fence` as an instruction of len bytes: the buffer drains, stored bytes reach their homes and the die's copies are
discarded as its scope says, and every earlier access must have been acknowledged (R118, R119, R410). At level visible no die keeps a copy
that could be older than what the core has stored. With replies on
time the acknowledgements on their way are counted in the same step. -/
def State.fence (s : State) (visible : Bool) (sc : Scope) (len : Nat) : Out :=
  finish do
    s.parkTentative 9
    let s ← s.drain s.cur
    let s := s.releaseAt (dieOf s.cur) (if visible then .system else sc)
    let s := if visible then (upFrom 0 16).foldl (fun (s : State) d => s.acquireDie (BitVec.ofNat 4 d)) s
      else s.acquireAt (dieOf s.cur) sc
    let s := if s.slow then s else (s.flightsFrom s.cur s.me.flight.length).updMe fun c =>
      { c with unacked := c.unacked.filter fun x => !c.acks.contains x, acks := [] }
    demand s.me.unacked.isEmpty (s.setFencing true) .hold
    .ok ((s.setFencing false).advance len)

/-- `fence` (R228). -/
def execFence (visible : Bool) (sc : Scope) (s : State) : Out := s.fence visible sc 4
/-- Compact `fence`. -/
def execCompactFence (visible : Bool) (sc : Scope) (s : State) : Out := s.fence visible sc 2

/-- `pf`: it changes no visible value and is not required to have any effect (R229). -/
def execPf (_ : SReg) (_ : PfKind) (s : State) : Out := .next (s.advance 4)

end Sys2Proof.Machine
end

