-- ==== Sys2Proof/Machine/Atomic.lean ====
section
/-! DEFINITION. Atomics (R120, R221, R222). -/

namespace Sys2Proof.Machine

/-- What an atomic's ordering does before it is performed: a release publishes, and the die's own copy of the word goes home
(R117, R120). -/
def State.amoRelease (s : State) (o : AOrd) (sc : Scope) (l : Loc) : State :=
  let die := dieOf s.cur
  let s := if o = .release ∨ o = .acqrel then s.releaseAt die sc else s
  s.settle die l

/-- The scope at which the return of an atomic's result is an acquire (R120). -/
def acquireScope (o : AOrd) (sc : Scope) : Option Scope := if o = .acquire ∨ o = .acqrel then some sc else none

/-- An acquire that a returning result or a read entry owes. -/
def State.acquireOwed (s : State) (n : CoreId) (sc : Option Scope) : State :=
  match sc with
  | some sc => s.acquireAt (dieOf n) sc
  | none => s

/-- The request of an atomic has left the core: its reply is on its way, and its register waits for it (R222). Until then the
value, or the trap, is the one given; with neither, the owner has not performed the atomic. -/
def State.awaitAmo (s : State) (d : SReg) (va : Nat) (acquire : Option Scope) (value : Option Word)
    (trap : Option (BitVec 5 × Word)) : State :=
  let r : Reply := { id := s.nextId, level := s.me.lvl, d, epc := s.pc, value, trap, trapAddr := BitVec.ofNat 64 va, acquire,
                     amo := true, voided := false }
  let s := { s with nextId := s.nextId + 1 }
  s.updMe fun c =>
    { c.updHere fun k => { k with spend := k.spend ||| (if d = 0 then 0 else 1#32 <<< d.toNat) } with
      replies := c.replies ++ [r] }

/-- `amo` (R221). With replies late the value, or the poison trap, is on its way in a reply, and the register waits for it (R222).
At an owner without forward credit, or behind an entry of the word that waits for one, the atomic joins the mooring list (R408). -/
def execAmo (d a b : SReg) (scratch : Bool) (sc : Scope) (o : AOrd) (op : AmoOp) (s : State) : Out :=
  finish do
    let ea := s.rs a
    let (t, p) ← s.checkFirm 1 (if scratch then .scratch else .global) ea 8 true true false
    let t ← t.drain t.cur
    let t := t.amoRelease o sc p.loc
    let dom := t.me.dom
    let w := t.spot dom p.loc
    let acquire := acquireScope o sc
    let trap : BitVec 5 × Word := (0x0D, BitVec.ofNat 64 p.va)
    match t.waitsAt w with
    | some o =>
      let m := { t.mooringOf dom p.loc .plain (s.rs b) (.amo t.cur t.nextId) t.me.region with
                 owner := o, fwd := true, amo := some (op, s.rs d) }
      match t.moor m t.cur with
      | none => .error (t, .hold)
      | some u => .ok ((u.awaitAmo d p.va acquire none none).advance 4)
    | none =>
    if s.slow then
      if t.spotPoison w then .ok ((t.awaitAmo d p.va acquire none (some trap)).advance 4)
      else
        let (t, old) := t.amoAt w dom op (s.rs d) (s.rs b)
        .ok ((t.awaitAmo d p.va acquire (some old) none).advance 4)
    else
      demand (!t.spotPoison w) t (.trap trap.1 trap.2)
      let (t, old) := t.amoAt w dom op (s.rs d) (s.rs b)
      .ok (((t.acquireOwed t.cur acquire).ws d old).advance 4)

end Sys2Proof.Machine
end

