-- ==== Sys2Proof/Machine/Branch.lean ====
section
/-! DEFINITION. Control transfer (R202 to R207) and swarms (R208 to R215). -/

namespace Sys2Proof.Machine

/-! ## Control transfer -/

/-- `b.cond` (R203). -/
def execBCond (d a : SReg) (c : Cond) (off : BitVec 11) (s : State) : Out :=
  s.branch (c.holds (s.rs d) (s.rs a)) (s.target off) 4

/-- `b` (R204). -/
def execB (off : BitVec 24) (s : State) : Out := s.jump s (s.target off)

/-- The return address of a call. -/
def State.link (s : State) : Word := s.pc.setWidth 64 + 4

/-- `call` (R204). -/
def execCall (off : BitVec 24) (s : State) : Out := s.jump (s.wb 3 s.link) (s.target off)

/-- `ret` (R205). -/
def execRet (s : State) : Out := s.jump s (s.rb 3).toNat

/-- `jbt` (R205). -/
def execJbt (b : BReg) (s : State) : Out := s.jump s (s.rb b).toNat

/-- `jbt.cond` (R205). -/
def execJbtCond (d a : SReg) (b : BReg) (c : Cond) (s : State) : Out :=
  s.branch (c.holds (s.rs d) (s.rs a)) (s.rb b).toNat 4

/-- `callb` (R205). -/
def execCallb (b : BReg) (s : State) : Out := s.jump (s.wb 3 s.link) (s.rb b).toNat

/-- `getb` (R205). -/
def execGetb (d : SReg) (b : BReg) (s : State) : Out := s.retire d (s.rb b) 4

/-- `setb` (R205). -/
def execSetb (a : SReg) (b : BReg) (s : State) : Out := .next ((s.wb b (s.rs a)).advance 4)

/-- `pbt` (R206). -/
def execPbt (b : BReg) (off : BitVec 19) (s : State) : Out :=
  .next ((s.wb b (BitVec.ofInt 64 (s.target off))).advance 4)

/-- Compact `b.eq` against s0 (R166). -/
def execCompactBEq (x : SReg) (i : BitVec 5) (s : State) : Out := s.branch (s.rs x == 0) (s.target i) 2

/-- Compact `b.ne` against s0 (R166). -/
def execCompactBNe (x : SReg) (i : BitVec 5) (s : State) : Out := s.branch (s.rs x != 0) (s.target i) 2

/-- Compact `ret` (R166). -/
def execCompactRet (s : State) : Out := s.jump s (s.rb 3).toNat

/-- Compact `jbt` (R166). -/
def execCompactJbt (b : BReg) (s : State) : Out := s.jump s (s.rb b).toNat

/-! ## Swarms -/

/-- The LIDs from l on, n of them, are a row run (R208). -/
def State.rowRun (s : State) (l : CoreId) (n : Nat) : Bool :=
  let p := s.physOf l
  decide ((slotOf p).toNat + n - 1 ≤ 15) &&
    (upFrom 0 n).all fun i =>
      let m := l + BitVec.ofNat 18 i
      s.present m && dieOf m == dieOf l && decide ((s.physOf m).toNat = p.toNat + i)

/-- The membership of the running frame's level ends (R214). -/
def State.leave (s : State) (n : CoreId) : State :=
  match (s.core n).member with
  | some m =>
    if m.level = (s.core n).lvl then (s.detachFollowers n).updCore n fun c => { c with member := none } else s
  | none => s

/-- Two memberships that one gang can hold: the same leader and count (R210). -/
def Member.same (a b : Member) : Bool := a.lead == b.lead && a.n == b.n

/-- A join point at address at_ is reached by core n: its window opens, and members whose windows are open at the same
address are ganged (R210). -/
def State.joinPoint (s : State) (n : CoreId) (at_ : BitVec 56) : State :=
  match (s.core n).member with
  | none => s
  | some m =>
    if m.level ≠ (s.core n).lvl then s
    else
      let s := s.updCore n fun c => { c with member := some { m with joinAt := some at_ } }
      let lead := s.physOf m.lead
      let met : Bool := match (s.core lead).member with
        | some x => x.lead == (s.core lead).lid && x.same m && x.joinAt == some at_
        | none => false
      if !met then s
      else
        (upFrom 0 16).foldl (fun s i =>
          let f : CoreId := clusterOf n ++ BitVec.ofNat 4 i
          match (s.core f).member with
          | some x =>
            if f ≠ lead ∧ x.same m ∧ x.joinAt = some at_ then
              s.updCore f fun c => { c with member := some { x with ganged := true, joinAt := none, fwd := [] } }
            else s
          | none => s) s

/-- `swform` (R209). -/
def execSwform (d a b : SReg) (s : State) : Out :=
  let n := s.cur
  let c := s.me
  let held : Bool := match c.member with
    | some m => m.level != c.lvl
    | none => false
  if held then s.retire d 0 4
  else
    let x := s.rs a
    let k := s.rs b
    let l : CoreId := bits x 0 18
    let pc := s.pc
    let s := s.leave n
    if bits x 18 46 = 0 ∧ 2 ≤ k.toNat ∧ k.toNat ≤ 16 ∧ l.toNat ≤ c.lid.toNat ∧ c.lid.toNat ≤ l.toNat + k.toNat - 1 ∧
        s.rowRun l k.toNat then
      let m : Member := { lead := l, n := BitVec.ofNat 5 k.toNat, level := c.lvl, ganged := false, joinAt := none, fwd := [] }
      let s := (s.updMe fun c => { c with member := some m }).joinPoint n pc
      s.retire d (if c.lid = l then 1 else 2) 4
    else s.retire d 0 4

/-- The end of a membership as an instruction of len bytes (R214). -/
def State.swleave (s : State) (len : Nat) : Out := .next ((s.leave s.cur).advance len)
/-- A join point as an instruction of len bytes (R213). -/
def State.swjoin (s : State) (len : Nat) : Out := .next ((s.joinPoint s.cur s.pc).advance len)

/-- `swleave` (R214). -/
def execSwleave (s : State) : Out := s.swleave 4
/-- `swjoin` (R213). -/
def execSwjoin (s : State) : Out := s.swjoin 4
/-- Compact `swleave`. -/
def execCompactSwleave (s : State) : Out := s.swleave 2
/-- Compact `swjoin`. -/
def execCompactSwjoin (s : State) : Out := s.swjoin 2

/-- The window of a join point ends: the member runs on as it is (R210). -/
def execSwarmJoinTimeout (n : CoreId) (s : State) : Out :=
  .next (s.updCore n fun c => { c with member := c.member.map fun m => { m with joinAt := none } })

/-- A follower detaches and keeps its membership (R212). -/
def execSwarmDetach (n : CoreId) (s : State) : Out :=
  .next (s.updCore n fun c => { c with member := c.member.map fun m => m.alone })

end Sys2Proof.Machine
end

