-- ==== Sys2Proof/Machine/Vector.lean ====
section
/-! DEFINITION. Vector instructions and the special-function unit (majors 0x26 to 0x2E, R237 to R257). -/

namespace Sys2Proof.Machine

/-- The integer element type of a three-bit code (R237). -/
def intEt (e : BitVec 3) : Et :=
  match e.toNat with
  | 0 => .n8 | 1 => .n16 | 2 => .n32 | 3 => .n64 | 4 => .i8 | 5 => .i16 | 6 => .i32 | _ => .i64

/-! ## Integer lanes (R240) -/

/-- v_d := f over the integer lanes of v_a and v_b. -/
def State.vint (s : State) (d a b : VReg) (e : BitVec 3) (f : Et → Int → Int → Int) : Out :=
  let e := intEt e
  s.retireV d (lanes2 e (fun x y => wrapN e.width (f e (e.int x) (e.int y))) (s.rv a) (s.rv b))

/-- The amount of a lane shift: the lane read unsigned, modulo the width (R240). -/
def laneAmount (e : Et) (y : Int) : Nat := wrapN e.width y % e.width

/-- Integer `vadd`. -/
def execVaddInt (d a b : VReg) (e : BitVec 3) (s : State) : Out := s.vint d a b e fun _ x y => x + y
/-- Integer `vsub`. -/
def execVsubInt (d a b : VReg) (e : BitVec 3) (s : State) : Out := s.vint d a b e fun _ x y => x - y
/-- `vadds`. -/
def execVadds (d a b : VReg) (e : BitVec 3) (s : State) : Out :=
  s.vint d a b e fun e x y => satI e.signed e.width (x + y)
/-- `vsubs`. -/
def execVsubs (d a b : VReg) (e : BitVec 3) (s : State) : Out :=
  s.vint d a b e fun e x y => satI e.signed e.width (x - y)
/-- Integer `vmul`. -/
def execVmulInt (d a b : VReg) (e : BitVec 3) (s : State) : Out := s.vint d a b e fun _ x y => x * y
/-- `vmulh`. -/
def execVmulh (d a b : VReg) (e : BitVec 3) (s : State) : Out :=
  s.vint d a b e fun e x y => (x * y).fdiv (2 ^ e.width)
/-- `vshl`. -/
def execVshl (d a b : VReg) (e : BitVec 3) (s : State) : Out :=
  s.vint d a b e fun e x y => x * 2 ^ laneAmount e y
/-- `vshr`. -/
def execVshr (d a b : VReg) (e : BitVec 3) (s : State) : Out :=
  s.vint d a b e fun e x y => x.fdiv (2 ^ laneAmount e y)

/-- A bitwise operation over the whole registers: every element type gives the same bits (R240). -/
def State.vbit (s : State) (d a b : VReg) (f : Vec → Vec → Vec) : Out := s.retireV d (f (s.rv a) (s.rv b))

/-- `vand`. -/
def execVand (d a b : VReg) (_ : BitVec 3) (s : State) : Out := s.vbit d a b fun x y => x &&& y
/-- `vor`. -/
def execVor (d a b : VReg) (_ : BitVec 3) (s : State) : Out := s.vbit d a b fun x y => x ||| y
/-- `vxor`. -/
def execVxor (d a b : VReg) (_ : BitVec 3) (s : State) : Out := s.vbit d a b fun x y => x ^^^ y
/-- `vandn`. -/
def execVandn (d a b : VReg) (_ : BitVec 3) (s : State) : Out := s.vbit d a b fun x y => x &&& ~~~y

/-! ## Floating-point lanes (R241) -/

/-- v_d := f over the floating-point lanes of v_a, v_b and v_d, each rounded once; the draws are consumed. -/
def State.vfloat (s : State) (d a b : VReg) (sr : Bool) (e : Et) (f : Ext → Ext → Ext → Ext) : Out :=
  let v := lanes3 e (fun i x y z => s.roundLane e sr i (f (e.ext x) (e.ext y) (e.ext z))) (s.rv a) (s.rv b) (s.rv d)
  (s.consume sr e.lanes).retireV d v

/-- Floating-point `vadd`. -/
def execVaddFp (d a b : VReg) (sr : Bool) (e : Et) (s : State) : Out := s.vfloat d a b sr e fun x y _ => x.add y
/-- Floating-point `vsub`. -/
def execVsubFp (d a b : VReg) (sr : Bool) (e : Et) (s : State) : Out := s.vfloat d a b sr e fun x y _ => x.add y.flip
/-- Floating-point `vmul`. -/
def execVmulFp (d a b : VReg) (sr : Bool) (e : Et) (s : State) : Out := s.vfloat d a b sr e fun x y _ => x.mul y
/-- `vfma`. -/
def execVfma (d a b : VReg) (sr : Bool) (e : Et) (s : State) : Out :=
  s.vfloat d a b sr e fun x y z => (x.mul y).add z
/-- `vfnma`. -/
def execVfnma (d a b : VReg) (sr : Bool) (e : Et) (s : State) : Out :=
  s.vfloat d a b sr e fun x y z => z.add (x.mul y).flip

/-- v_d := f over the lane codes of v_a, a NaN lane giving the canonical NaN (R241). -/
def State.vsign (s : State) (d a : VReg) (e : Et) (f : Nat → Nat) : Out :=
  s.retireV d (lanes2 e (fun x _ => if (e.ext x).isNan then (fmtOf e).ofNan else f x) (s.rv a) (s.rv a))

/-- `vabs`. -/
def execVabs (d a : VReg) (e : Et) (s : State) : Out := s.vsign d a e fun x => x % 2 ^ (e.width - 1)
/-- `vneg`. -/
def execVneg (d a : VReg) (e : Et) (s : State) : Out := s.vsign d a e fun x => x ^^^ 2 ^ (e.width - 1)

/-! ## Minimum, maximum, compare and select (R242, R243) -/

/-- The smaller or larger of two lane codes (R140, R242). -/
def laneMinmax (e : Et) (max : Bool) (x y : Nat) : Nat :=
  if e.isFloat then (fmtOf e).minmax max x y
  else if max then (if e.int x < e.int y then y else x)
  else if e.int y < e.int x then y else x

/-- `vmin`. -/
def execVmin (d a b : VReg) (e : Et) (s : State) : Out := s.retireV d (lanes2 e (laneMinmax e false) (s.rv a) (s.rv b))
/-- `vmax`. -/
def execVmax (d a b : VReg) (e : Et) (s : State) : Out := s.retireV d (lanes2 e (laneMinmax e true) (s.rv a) (s.rv b))

/-- Rel of two lane codes (R243). -/
def laneRel (e : Et) (c : VRel) (x y : Nat) : Bool :=
  if e.isFloat then relExt c (e.ext x) (e.ext y) else relInt c (e.int x) (e.int y)

/-- `vcmp`. -/
def execVcmp (d a b : VReg) (c : VRel) (e : Et) (s : State) : Out :=
  s.retireV d (lanes2 e (fun x y => if laneRel e c x y then 2 ^ e.width - 1 else 0) (s.rv a) (s.rv b))

/-- `vsel`. -/
def execVsel (d a b : VReg) (s : State) : Out :=
  s.retireV d ((s.rv a &&& s.rv d) ||| (s.rv b &&& ~~~s.rv d))

/-! ## Moving lanes (R244) -/

/-- Byte i of `vshuf`. -/
def shufByte (a b d : Vec) (i : Nat) : Nat :=
  let c := lane b 8 i
  if c ≥ 128 then 0 else if c % 32 < 16 then lane a 8 (c % 32) else lane d 8 (c % 32 - 16)

/-- `vshuf`. -/
def execVshuf (d a b : VReg) (s : State) : Out :=
  s.retireV d (ofLanes 8 ((upFrom 0 16).map (shufByte (s.rv a) (s.rv b) (s.rv d))))

/-- Every lane the low bits of x. -/
def splat (e : Et) (x : Nat) : Vec := ofLanes e.width ((upFrom 0 e.lanes).map fun _ => x)

/-- `vbcast` of a scalar. -/
def execVbcastScalar (d : VReg) (a : SReg) (e : Et) (s : State) : Out := s.retireV d (splat e (s.rs a).toNat)

/-- `vbcast` of a lane. -/
def execVbcastLane (d a : VReg) (l : BitVec 5) (e : Et) (s : State) : Out :=
  s.retireV d (splat e (lane (s.rv a) e.width l.toNat))

/-- `vins`. -/
def execVins (d : VReg) (a : SReg) (l : BitVec 5) (e : Et) (s : State) : Out :=
  s.retireV d (putLane (s.rv d) e.width l.toNat (s.rs a).toNat)

/-- `vext`. -/
def execVext (d : SReg) (a : VReg) (l : BitVec 5) (e : Et) (s : State) : Out :=
  s.retire d (BitVec.ofInt 64 (e.int (lane (s.rv a) e.width l.toNat))) 4

/-! ## Conversions (R245, R246) -/

/-- One lane converted, with its draw. -/
def cvtLane (dt st : Et) (opt : Bool) (draw : Option Nat) (x : Nat) : Nat :=
  if st.isFloat then
    if dt.isFloat then (fmtOf dt).round draw (st.ext x)
    else wrapN dt.width (toInteger dt.signed dt.width draw (st.ext x))
  else if dt.isFloat then (fmtOf dt).rne (ofInteger (st.int x))
  else if opt then wrapN dt.width (satI dt.signed dt.width (st.int x))
  else wrapN dt.width (st.int x)

/-- Lanes that a conversion writes: those of the wider type. -/
def cvtLanes (dt st : Et) : Nat := 128 / Nat.max dt.width st.width

/-- `vcvt`: the j-th lane written takes draw j under .sr. -/
def execVcvt (d a : VReg) (part : BitVec 3) (dt st : Et) (opt : Bool) (s : State) : Out :=
  let n := cvtLanes dt st
  let sr := opt && st.isFloat
  let from_ := if st.width < dt.width then part.toNat * n else 0
  let into := if dt.width < st.width then part.toNat * n else 0
  let v := (upFrom 0 n).foldl (fun v j =>
    putLane v dt.width (into + j)
      (cvtLane dt st opt (if sr then some (s.me.draw j) else none) (lane (s.rv a) st.width (from_ + j)))) (s.rv d)
  (s.consume sr n).retireV d v

/-! ## Reductions, dot products and the softmax merge (R247 to R250) -/

/-- The extreme of lane codes. -/
def extreme (e : Et) (max : Bool) : List Nat → Nat
  | [] => 0
  | x :: r => r.foldl (laneMinmax e max) x

/-- The result of `vred` over lane codes (R248). -/
def reduce (e : Et) (r : RedOp) (l : List Nat) : Word :=
  if e.isFloat then
    let x : Nat := match r with
      | .add => fp32.rne (l.foldl (fun g x => g.add (e.ext x)) .negZero)
      | .min => fp32.rne (e.ext (extreme e false l))
      | .max => fp32.rne (e.ext (extreme e true l))
    BitVec.ofNat 64 x
  else
    match r with
    | .add => BitVec.ofInt 64 (l.foldl (fun g x => g + e.int x) 0)
    | .min => BitVec.ofInt 64 (e.int (extreme e false l))
    | .max => BitVec.ofInt 64 (e.int (extreme e true l))

/-- `vred`. -/
def execVred (d : SReg) (a : VReg) (r : RedOp) (e : Et) (s : State) : Out :=
  s.retire d (reduce e r (lanesOf e (s.rv a))) 4

/-- Lane j of `vdot` from the old lane (R249). -/
def dotLane (e : Et) (a b : Vec) (j old : Nat) : Nat :=
  let g := e.lanes / 4
  let pair (i : Nat) : Nat × Nat := (lane a e.width (g * j + i), lane b e.width (g * j + i))
  if e.isFloat then accGroup old ((upFrom 0 g).map fun i => (e.ext (pair i).1, e.ext (pair i).2))
  else wrapN 32 (intOf true 32 old +
    (upFrom 0 g).foldl (fun t i => t + e.int (pair i).1 * e.int (pair i).2) (0 : Int))

/-- `vdot`. -/
def execVdot (d a b : VReg) (e : Et) (s : State) : Out :=
  s.retireV d (ofLanes 32 ((upFrom 0 4).map fun j => dotLane e (s.rv a) (s.rv b) j (lane (s.rv d) 32 j)))

/-- A NaN code made canonical. -/
def canon (x : Nat) : Nat := if (fp32.value x).isNan then fp32.ofNan else x

/-- The value is an integer. -/
def Ext.isInt : Ext → Bool
  | .fin _ m e => decide (0 ≤ e) || m % 2 ^ (-e).toNat == 0
  | _ => false

/-- The integer value of x, for values that are integers. -/
def Ext.toInt : Ext → Int
  | .fin a m e => let v : Int := if 0 ≤ e then m * 2 ^ e.toNat else (m / 2 ^ (-e).toNat : Nat)
                  if a then -v else v
  | _ => 0

/-- x * 2^k for k at most 0. A shift beyond 1000 places leaves a value too small for its place to matter to a sum
rounded to FP32, so the place is held at 1000. -/
def Ext.shift (x : Ext) (k : Int) : Ext :=
  match x with
  | .fin a m e => .fin a m (e + if k < -1000 then -1000 else k)
  | x => x

/-- SMerge of two pairs of FP32 codes (R250). -/
def smerge (e1 s1 e2 s2 : Nat) : Nat × Nat :=
  let x1 := fp32.value e1
  let x2 := fp32.value e2
  if x1 = .inf true then (canon e2, canon s2)
  else if x2 = .inf true then (canon e1, canon s1)
  else if !x1.isInt ∨ !x2.isInt then (fp32.ofNan, fp32.ofNan)
  else
    let m := if x1.toInt < x2.toInt then x2.toInt else x1.toInt
    (fp32.minmax true e1 e2,
     fp32.rne (((fp32.value s1).shift (x1.toInt - m)).add ((fp32.value s2).shift (x2.toInt - m))))

/-- `vsmrg`. -/
def execVsmrg (d a b : VReg) (s : State) : Out :=
  let x := s.rv a
  let y := s.rv b
  let pair (p : Nat) : Nat × Nat := smerge (lane x 32 (2 * p)) (lane x 32 (2 * p + 1)) (lane y 32 (2 * p)) (lane y 32 (2 * p + 1))
  s.retireV d (ofLanes 32 [(pair 0).1, (pair 0).2, (pair 1).1, (pair 1).2])

/-! ## The special-function unit (R251 to R255, R440) -/

/-- `vsfu`: the request takes a latch slot and v_d waits for its result (R252). -/
def execVsfu (d a : VReg) (f : SfuFn) (s : State) : Out :=
  finish do
    demand (decide (s.me.sfu.length < 4)) s .stall
    let r : SfuReq := { level := s.me.lvl, d, fn := f, x := s.rv a, cluster := s.sfuOf s.cur, accepted := false,
                        voided := false }
    let s := s.updMe fun c =>
      { c.updHere fun b => { b with vpend := b.vpend ||| (1#16 <<< d.toNat) } with sfu := c.sfu ++ [r] }
    .ok (s.advance 4)

/-- Core i of the block of a cluster. -/
def blockCore (cl : BitVec 14) (i : Nat) : CoreId := bits cl 4 10 ++ BitVec.ofNat 8 i

/-- A request of the core waits at the cluster's SFU. -/
def Core.asks (c : Core) (cl : BitVec 14) : Bool := c.sfu.any fun r => r.cluster == cl && !r.accepted

/-- The core's oldest request to a cluster's SFU is accepted. -/
def acceptFirst (cl : BitVec 14) : List SfuReq → List SfuReq
  | [] => []
  | r :: l => if r.cluster = cl ∧ !r.accepted then { r with accepted := true } :: l else r :: acceptFirst cl l

/-- SFU_ACCEPT: the SFU takes the oldest request of the next core in turn that has one (R253, R440). -/
def execSfuAccept (cl : BitVec 14) (s : State) : Out :=
  let k := s.cluster cl
  if k.gstate ≠ 0 then .next s
  else
    match ((upFrom (k.rr.toNat + 1) 256).map fun i => i % 256).find? fun i => (s.core (blockCore cl i)).asks cl with
    | none => .next s
    | some i =>
      .next ((s.updCore (blockCore cl i) fun c => { c with sfu := acceptFirst cl c.sfu }).updCluster cl fun k =>
        { k with rr := BitVec.ofNat 8 i })

/-- The result of a request (R251). -/
def SfuReq.result (r : SfuReq) : Vec := ofLanes 32 ((upFrom 0 4).map fun i => sfuLane r.fn (lane r.x 32 i))

/-- SFU_LAND: the oldest request of core n, once accepted, lands in the bank of its level, or is discarded (R253, R254). -/
def execSfuLand (n : CoreId) (s : State) : Out :=
  match (s.core n).sfu with
  | [] => .next s
  | r :: l =>
    if !r.accepted then .next s
    else
      .next (s.updCore n fun c =>
        let c := { c with sfu := l }
        if r.voided then c
        else c.updBank r.level fun b => { b.wv r.d r.result with vpend := b.vpend &&& ~~~(1#16 <<< r.d.toNat) })

/-! ## Vector loads and stores (R256, R257) -/

/-- Bytes of a vector access. -/
def vecBytes (half : Bool) : Nat := if half then 8 else 16

/-- `vld`. -/
def execVld (d : VReg) (a : SReg) (sp : Space) (half : Bool) (off : BitVec 11) (s : State) : Out :=
  finish do
    let ea := s.ea a off
    let (t, p) ← s.check sp ea (vecBytes half) true false false
    let (t, lo) ← t.loadWord sp p 8
    if half then .ok ((t.wv d (BitVec.ofNat 128 (joinBytes lo))).advance 4)
    else
      let (t, hi) ← t.loadWord sp (p.plus 8) 8
      .ok ((t.wv d (BitVec.ofNat 128 (joinBytes (lo ++ hi)))).advance 4)

/-- Words stored one after another from a checked place: all of them, or none with the state left as before. -/
def State.storeWords (s : State) (sp : Space) (a : Acc) (ws : List Word) : Res State :=
  let rec go (t : State) (a : Acc) : List Word → Res State
    | [] => .ok t
    | w :: r => do
      let t ← t.storeAt sp a 8 w
      go t (a.plus 8) r
  match go s a ws with
  | .ok t => .ok t
  | .error (_, e) => .error (s, e)

/-- `vst`. The low half enters the store buffer first and so becomes visible first; the spec gives the halves no order, DESIGN CHOICE
(log entry 26). -/
def execVst (d : VReg) (a : SReg) (sp : Space) (half : Bool) (off : BitVec 11) (s : State) : Out :=
  finish do
    let ea := s.ea a off
    let (t, p) ← s.checkStore sp ea (vecBytes half)
    let v := t.rv d
    let t ← t.storeWords sp p (if half then [bits v 0 64] else [bits v 0 64, bits v 64 64])
    .ok (t.advance 4)

end Sys2Proof.Machine
end

