-- ==== Sys2Proof/Machine/TaskOps.lean ====
section
/-! DEFINITION. Frame, pending, claim and counter instructions, `send`, `shape` and retractable allocations (majors 0x3A
and 0x3B, R306 to R318), with their compact forms. -/

namespace Sys2Proof.Machine

/-! ## End of a task (R307) -/

/-- k.addr of a claim trap (R48). -/
def claimAddr (n reason : Nat) : Word := BitVec.ofNat 64 (16 * reason + n)

/-- The end of an instance comes after its stores have left the store buffer: the successor of its launch or walk happens after them
(R125, R323, R325). -/
def State.beforeEnd (s : State) (i : Option Inst) : Res State := if i.isSome then s.drain s.cur else .ok s

/-- `done` (R307); in a frame that a trap entered it acts as `tret` (R349). -/
def State.done (s : State) : Out :=
  let c := s.me
  if c.level = 7 ∧ causeEntered c.cause then .next (s.trapReturn s.cur false)
  else
    match c.here.claims with
    | x :: _ => .next (s.stop (.trap 0x05 (claimAddr x.res.toNat 3)))
    | [] => finish do
      let s ← s.beforeEnd c.here.inst
      .ok (s.endTask s.cur true)

/-- `done`. -/
def execDone (s : State) : Out := s.done
/-- Compact `done`. -/
def execCompactDone (s : State) : Out := s.done

/-! ## Arming (R308) -/

/-- The en bit of a type's vector table entry, in TCM and in stores of the core that have not drained. -/
def Core.setEn (c : Core) (t : Byte) (on : Bool) : Core :=
  let at_ := c.vbase.toNat + 8 * t.toNat + 7
  let put (x : Byte) : Byte := putBits x 6 1 (if on then 1 else 0)
  { c with tcm := c.tcm.set at_ (put (c.tcm.get at_))
           sbuf := c.sbuf.map fun (e : StoreEntry) =>
             if e.space = .tcm ∧ e.mode.isNone ∧ e.va ≤ at_ ∧ at_ < e.va + e.size then
               { e with data := putBits e.data (8 * (at_ - e.va) + 6) 1 (if on then 1 else 0) }
             else e }

/-- `arm` or `disarm` of type t. -/
def State.setArmed (s : State) (t : Byte) (on : Bool) : Out :=
  finish do
    demand (decide (s.me.level = 7) || decide (0x20 ≤ t.toNat)) s (.trap 0x03 (t.setWidth 64))
    s.parkTentative 7
    let s := (s.updMe fun c => c.setEn t on).advance 4
    .ok (if on then s.selectNext s.cur else s)

/-- `arm sA`. -/
def execArmRegister (a : SReg) (s : State) : Out := s.setArmed (bits (s.rs a) 0 8) true
/-- `arm t`. -/
def execArmImmediate (t : BitVec 8) (s : State) : Out := s.setArmed t true
/-- `disarm sA`. -/
def execDisarmRegister (a : SReg) (s : State) : Out := s.setArmed (bits (s.rs a) 0 8) false
/-- `disarm t`. -/
def execDisarmImmediate (t : BitVec 8) (s : State) : Out := s.setArmed t false

/-! ## Pending bits and status (R309, R310) -/

/-- Types of the arrivals that core n holds in its inbox and the weir (R44). -/
def State.heldTypes (s : State) (n : CoreId) : List Byte :=
  let c := s.core n
  (c.inbox.toList.flatMap fun l => l.map fun a => hdrType a.msg.hdr) ++
    s.weir.filterMap fun e =>
      match e.queue, e.item with
      | .inbox lid _, .arr a => if lid = c.lid ∧ c.savedLid ≠ some lid ∧ !s.contextOut lid then some (hdrType a.msg.hdr) else none
      | _, _ => none

/-- The pending bit of a type (R44). -/
def State.pending (s : State) (n : CoreId) (t : Byte) : Bool := (s.heldTypes n).contains t

/-- `ptest`. -/
def execPtest (d a : SReg) (s : State) : Out :=
  s.retire d (if s.pending s.cur (bits (s.rs a) 0 8) then 1 else 0) 4

/-- Pending bits of the 64 types of a group. -/
def State.pendingGroup (s : State) (n : CoreId) (g : BitVec 2) : Word :=
  (upFrom 0 64).foldl (fun (x : Word) j =>
    if s.pending n (BitVec.ofNat 8 (64 * g.toNat + j)) then x ||| 1#64 <<< j else x) 0

/-- `ptest.w`. -/
def execPtestW (d a : SReg) (s : State) : Out := s.retire d (s.pendingGroup s.cur (bits (s.rs a) 0 2)) 4

/-- `estat`. -/
def execEstat (d : SReg) (s : State) : Out := s.retire d s.me.estat 4

/-! ## Claims and counters (R312, R313) -/

/-- The ceiling of a resource; a 7 is taken as 6 (R47). -/
def Core.ceiling (c : Core) (n : BitVec 4) : BitVec 3 :=
  if bits c.ceil (3 * n.toNat) 3 = 7 then 6 else bits c.ceil (3 * n.toNat) 3

/-- `claim n` as an instruction of len bytes (R48). -/
def State.claim (s : State) (n : BitVec 4) (len : Nat) : Out :=
  finish do
    let c := s.me
    demand (!c.here.claims.any fun x => x.res == n) s (.trap 0x05 (claimAddr n.toNat 1))
    demand (decide (c.lvl.toNat ≤ (c.ceiling n).toNat)) s (.trap 0x05 (claimAddr n.toNat 4))
    let t := if c.thresh.toNat < (c.ceiling n).toNat then (c.ceiling n).setWidth 4 else c.thresh
    .ok ((s.updMe fun c =>
      { (c.updHere fun b => { b with claims := { res := n, saved := c.thresh } :: b.claims }) with thresh := t }).advance len)

/-- `unclaim n` as an instruction of len bytes (R48). -/
def State.unclaim (s : State) (n : BitVec 4) (len : Nat) : Out :=
  match s.me.here.claims with
  | x :: r =>
    if x.res = n then
      let s := (s.updMe fun c => { (c.updHere fun b => { b with claims := r }) with thresh := x.saved }).advance len
      .next (s.selectNext s.cur)
    else .next (s.stop (.trap 0x05 (claimAddr n.toNat (if r.any (fun y => y.res == n) then 2 else 0))))
  | [] => .next (s.stop (.trap 0x05 (claimAddr n.toNat 0)))

/-- `claim n`. -/
def execClaim (n : BitVec 4) (s : State) : Out := s.claim n 4
/-- `unclaim n`. -/
def execUnclaim (n : BitVec 4) (s : State) : Out := s.unclaim n 4
/-- Compact `claim`. -/
def execCompactClaim (n : BitVec 4) (s : State) : Out := s.claim n 2
/-- Compact `unclaim`. -/
def execCompactUnclaim (n : BitVec 4) (s : State) : Out := s.unclaim n 2

/-- `rng` as an instruction of len bytes (R313). -/
def State.rng (s : State) (d : SReg) (len : Nat) : Out :=
  let c := s.me
  (s.updMe fun c => { c with sctr := c.sctr + 1 }).retire d (mix64 c.seed c.lid c.sctr) len

/-- `tick` as an instruction of len bytes (R313). -/
def State.tick (s : State) (d : SReg) (len : Nat) : Out := s.retire d (s.cluster (clusterOf s.cur)).counter len

/-- `rng`. -/
def execRng (d : SReg) (s : State) : Out := s.rng d 4
/-- `tick`. -/
def execTick (d : SReg) (s : State) : Out := s.tick d 4
/-- Compact `rng`. -/
def execCompactRng (x : SReg) (s : State) : Out := s.rng x 2
/-- Compact `tick`. -/
def execCompactTick (x : SReg) (s : State) : Out := s.tick x 2

/-! ## Send and shape (R315, R316) -/

/-- Messages in the outbound buffer of core n: its sends, and whatever of its messages has been taken back (R315, R409). -/
def State.outbound (s : State) (n : CoreId) : List Transit :=
  s.net.filter fun t => t.from_ == some n || (t.held && t.owner == some n)

/-- The scope that covers a core and a LID of a module (R111). -/
def State.covering (s : State) (n : CoreId) (modu : BitVec 16) (lid : CoreId) : Scope :=
  let m := s.physOf lid
  if modu ≠ s.modu then .system
  else if m = n then .core
  else if clusterOf m = clusterOf n then .cluster
  else if blockOf m = blockOf n then .block
  else if dieOf m = dieOf n then .die
  else .module

/-- The successor that a dropped `send` is handed back with: it named none. -/
def Succ.empty : Succ := { stype := 0, sprio := 0, dest := 0 }

/-- `send` (R315): it drains the store buffer, is a release at the scope that covers both ends (R122), and enters the
outbound buffer. -/
def execSend (d a b : SReg) (s : State) : Out :=
  finish do
    let h := s.rs d
    let n := (hdrPlen h).toNat
    let c := s.me
    demand (bits h 54 10 == 0 && decide (a.toNat + n ≤ 32) && (b == 0 || bits (s.rs b) 16 48 == 0)) s (.trap 0x01 h)
    demand (decide (c.level = 7) || decide (0x20 ≤ (hdrType h).toNat)) s (.trap 0x03 h)
    let modu := if b = 0 then s.modu else s.moduleOf (bits (s.rs b) 0 16)
    let dst := hdrDst h
    demand (modu != s.modu || s.present dst) s (.trap 0x03 (dst.setWidth 64))
    s.parkTentative 3
    let s ← s.drain s.cur
    let s := s.releaseAt (dieOf s.cur) (s.covering s.cur modu dst)
    let out := s.outbound s.cur
    demand (decide (out.length < 4) || out.all fun t => !t.held) s (.trap 0x0A 0x53)
    demand (decide (out.length < 4)) s .hold
    let m : Msg := { hdr := putBits h 18 18 c.lid.toNat, payload := (upFrom 0 n).map fun i => s.rs (a + BitVec.ofNat 5 i) }
    let s := s.post { cargo := .message { msg := m, inst := none, contract := none, srcMod := s.modu, resume := none,
                                                    far := false },
                      from_ := some s.cur, dstMod := modu, dst, held := false, tag := some s.nextId,
                      back := some { cmd := 10, succ := Succ.empty, progress := 0, ended := none, close := none }, owner := some s.cur }
    let s := { (s.updMe fun c => { c with unacked := c.unacked ++ [s.nextId] }) with nextId := s.nextId + 1 }
    .ok (s.advance 4)

/-- What `shape` returns for an instance (R316). -/
def shapeWord (i : Option Inst) : Word :=
  match i with
  | none => 0
  | some i => 0#30 ++ 1#1 ++ BitVec.ofBool i.tentative ++ i.index

/-- `shape` (R316). -/
def execShape (d : SReg) (s : State) : Out := s.retire d (shapeWord s.me.here.inst) 4

/-! ## Retractable allocations (R317, R318) -/

/-- Free runs of a pool between a and hi, given its allocations in rising order. -/
def freeRuns (hi : Nat) : Nat → List (Nat × Nat) → List (Nat × Nat)
  | a, [] => if a < hi then [(a, hi - a)] else []
  | a, (b, n) :: r => if a < b then (a, b - a) :: freeRuns hi (b + n) r else freeRuns hi (Nat.max a (b + n)) r

/-- The place of an allocation among others, kept in rising order. -/
def insertRun (x : Nat × Nat) : List (Nat × Nat) → List (Nat × Nat)
  | [] => [x]
  | y :: r => if x.1 ≤ y.1 then x :: y :: r else y :: insertRun x r

/-- A 64-byte aligned base for n bytes in a pool: which of the places that fit is not stated, so the free values i and j
choose among them (R317). None where no run fits. -/
def poolBase (base size : Nat) (held : List (Nat × Nat)) (n i j : Nat) : Option Nat :=
  let runs := (freeRuns (base + size) base (held.foldl (fun l x => insertRun x l) [])).filter fun r => decide (n ≤ r.2)
  match runs[i % runs.length]? with
  | some (a, len) => some (a + 64 * (j % ((len - n) / 64 + 1)))
  | none => none

/-- The bytes of a word that resident pages of a cluster hold become free values. -/
def Cluster.spoilWord (k : Cluster) (free pa : Nat) : Cluster :=
  { k with frames := k.frames.map fun (f : Frame) =>
      if f.pa / 4096 = pa / 4096 then
        { f with mem := f.mem.write (pa / 8 * 8 % 4096) ((upFrom (pa / 8 * 8) 8).map fun a => Config.freeByte free a) }
      else f }

/-- The contents of a word become undefined: no reader's key fits its block, no copy of it is kept, and a resident page holds free
values there. -/
def State.spoilWord (s : State) (die : BitVec 4) (va : Nat) : State :=
  match s.translate die (BitVec.ofNat 56 va) with
  | (s, .absent _ _) => s
  | (s, .page pa) =>
    let s := (upFrom 0 16).foldl (fun (s : State) d => s.evictCopy (BitVec.ofNat 4 d) (pa / 8)) s
    { s with bkey := Cells.putD 0 s.bkey (s.live pa / 16) (2 ^ 512 + 1)
             clusters := s.clusters.map fun (k : Nat × Cluster) => (k.1, k.2.spoilWord s.free pa) }

/-- The contents of n bytes from va become undefined (R318). -/
def State.spoil (s : State) (die : BitVec 4) (va n : Nat) : State :=
  (upFrom 0 (n / 8)).foldl (fun (s : State) i => s.spoilWord die (va + 8 * i)) s

/-- An accepted shaped launch whose shape has not resolved and whose shape word is at an address (R317): its number, nmax, and the
slots to charge. -/
def State.shapedAt (s : State) (a : Word) : Option (Nat × Nat × Nat) :=
  match s.launches.find? fun (l : Launch) =>
      l.record.shapew.setWidth 64 == a && l.record.shapew != 0 && l.count.isNone && l.fill.isNone with
  | some l => some (l.id, l.record.nmax.toNat, l.pred.toNat)
  | none => none

/-- A launch with this shape word stands in an engine: its front end has not accepted it and made its prediction yet. An allocation that
names the word follows that acceptance (R317, R339). -/
def State.shapePending (s : State) (a : Word) : Bool :=
  s.cores.any fun e => e.2.remQ.any fun (q : RemCmd) =>
    match q.op with
    | .launch r => r.shapew.setWidth 64 == a && r.shapew != 0
    | _ => false

/-- `ralloc` at the service core: the base, or a trap (R317). -/
def State.allocate (s : State) (by_ : Issuer) (a : Option Word) (b : Word) : Except (BitVec 5 × Word) (State × Word) :=
  if b = 0 ∨ b.toNat % 64 ≠ 0 then .error (0x02, b)
  else
    let tie := a.bind s.shapedAt
    match a, tie with
    | some x, none => .error (0x03, x)
    | _, _ =>
      let (slots, charged) := match tie with
        | some (_, nmax, p) => (nmax, p)
        | none => (1, 1)
      let n := slots * b.toNat
      let place : Option (Region × Nat) := do
        let r ← by_.region
        let i ← s.infoOf r
        let held := (s.allocs.filter fun (x : Alloc) => x.region == r).map fun (x : Alloc) => (x.base, x.size)
        let base ← poolBase i.poolBase i.poolSize held n (Config.freeWord s.free 0).toNat (Config.freeWord s.free 1).toNat
        some (r, base)
      match place with
      | none => .error (0x0A, BitVec.ofNat 64 n)
      | some (r, base) =>
        let full : Bool := match tie with
          | some (id, _, _) => decide ((s.allocs.filter fun (x : Alloc) => x.tied == some id).length ≥ 16)
          | none => false
        if full then .error (0x0A, 0)
        else
          let x : Alloc := { region := r, base, size := n, slot := b.toNat, charge := charged * b.toNat,
                             tied := tie.map fun l => l.1 }
          .ok ({ s with allocs := s.allocs ++ [x] }, BitVec.ofNat 64 base)

/-- An allocation is trimmed to n bytes; what lies beyond is returned and undefined (R318, R329). -/
def State.trimAlloc (s : State) (die : BitVec 4) (x : Alloc) (n : Nat) : State :=
  let s := { s with allocs := if n = 0 then s.allocs.filter fun (y : Alloc) => !(y.region == x.region && y.base == x.base)
    else s.allocs.map fun (y : Alloc) =>
      if y.region = x.region ∧ y.base = x.base then { y with size := n, charge := Nat.min y.charge n } else y }
  s.spoil die (x.base + n) (x.size - n)

/-- `rtrim` at the service core (R318). -/
def State.trim (s : State) (by_ : Issuer) (a b : Word) : Except (BitVec 5 × Word) State :=
  match s.allocs.find? fun (x : Alloc) => some x.region == by_.region && x.base == a.toNat with
  | none => .error (0x03, a)
  | some x =>
    if b.toNat % 64 ≠ 0 ∨ b.toNat > x.size then .error (0x01, b)
    else .ok (s.trimAlloc (dieOf by_.core) x b.toNat)

/-- An allocation request leaves the core; its reply comes later, and the frame waits for it (R318, R222). -/
def State.requestAlloc (s : State) (trim : Bool) (a : Option Word) (b : Word) (d : SReg) : State :=
  let r : Reply := { id := s.nextId, level := s.me.lvl, d, epc := s.pc, value := none, trap := none, trapAddr := 0,
                     acquire := none, amo := false, voided := false }
  let q : AllocReq := { by_ := s.issuer, reply := s.nextId, trim, a, b }
  let s := { s with nextId := s.nextId + 1 }
  let s := s.updSector (sectorOf s.cur) fun k => { k with allocs := k.allocs ++ [q] }
  (s.updMe fun c =>
    { c.updHere fun k => { k with spend := 0xFFFFFFFF } with replies := c.replies ++ [r] }).advance 4

/-- `ralloc` (R317). -/
def execRalloc (d a b : SReg) (s : State) : Out :=
  finish do
    s.parkTentative 7
    let tie := if a = 0 then none else some (s.rs a)
    demand (!(tie.any s.shapePending)) s .hold
    if s.slow then .ok (s.requestAlloc false tie (s.rs b) d)
    else
      match s.allocate s.issuer tie (s.rs b) with
      | .ok (t, x) => .ok ((t.ws d x).advance 4)
      | .error (cause, x) => .error (s, .trap cause x)

/-- `rtrim` (R318). -/
def execRtrim (a b : SReg) (s : State) : Out :=
  finish do
    s.parkTentative 7
    if s.slow then .ok (s.requestAlloc true (some (s.rs a)) (s.rs b) 0)
    else
      match s.trim s.issuer (s.rs a) (s.rs b) with
      | .ok t => .ok (t.advance 4)
      | .error (cause, x) => .error (s, .trap cause x)

/-- The registers of a level that wait for replies of atomics (R222). -/
def Core.pendingOf (c : Core) (l : BitVec 3) : BitVec 32 :=
  c.replies.foldl (fun (m : BitVec 32) (r : Reply) =>
    if r.amo && !r.voided && r.level == l && r.d != 0 then m ||| ((1 : BitVec 32) <<< r.d.toNat) else m) 0

/-- The reply of an allocation reaches the frame that waits: a value, or a trap at the instruction (R222, R318). -/
def State.replyAlloc (s : State) (n : CoreId) (id : Nat) (r : Except (BitVec 5 × Word) Word) : State :=
  match (s.core n).replies.find? fun (x : Reply) => x.id == id with
  | none => s
  | some x => s.updCore n fun c =>
    let c := { c with replies := c.replies.filter fun (y : Reply) => y.id != id }
    match r with
    | .ok v => c.updBank x.level fun b => { b.ws x.d v with spend := c.pendingOf x.level }
    | .error (cause, a) =>
      { c.updBank x.level fun b => { b with spend := c.pendingOf x.level } with
        heldTraps := c.heldTraps ++ [{ level := x.level.setWidth 4, cause, addr := a, epc := some x.epc }] }

/-- ALLOCATION_SERVICE: a sector's service core performs its oldest allocation request (R318). -/
def execAllocationService (sector : BitVec 6) (s : State) : Out :=
  match (s.sector sector).allocs with
  | [] => .next s
  | q :: r =>
    let s := s.updSector sector fun k => { k with allocs := r }
    if q.trim then
      match s.trim q.by_ (q.a.getD 0) q.b with
      | .ok t => .next (t.replyAlloc q.by_.core q.reply (.ok 0))
      | .error e => .next (s.replyAlloc q.by_.core q.reply (.error e))
    else
      match s.allocate q.by_ q.a q.b with
      | .ok (t, v) => .next (t.replyAlloc q.by_.core q.reply (.ok v))
      | .error e => .next (s.replyAlloc q.by_.core q.reply (.error e))

end Sys2Proof.Machine
end

