-- ==== Sys2Proof/Machine/EngineMem.lean ====
section
/-! DEFINITION. What the engines share: acceptance of a command (R302, R303, R319), tensor maps (R101 to R104), and the
engines' accesses to memory with their faults (R126, R321, R384, R392). -/

namespace Sys2Proof.Machine

/-! ## Successors and records -/

/-- The destination word that a WE instruction names: s0 is the issuing core (R302). -/
def State.destWord (s : State) (d : SReg) : Word := if d = 0 then 1 <<< 34 else s.rs d

/-- The successor checks of R303. -/
def State.checkSucc (s : State) (d : SReg) (sprio : BitVec 3) (stype : Byte) (start : Bool) : Res Succ := do
  let w := s.destWord d
  let x : Succ := { stype, sprio, dest := w }
  demand ((start || bits w 36 28 == 0) && (!x.self || bits w 0 34 == 0)) s (.trap 0x01 w)
  demand (decide (s.me.level = 7) || x.nosucc || (decide (0x20 ≤ stype.toNat) && sprio != 7)) s
    (.trap 0x03 ((sprio ++ stype).setWidth 64))
  demand (x.nosucc || x.self || s.moduleOf x.modu != s.modu || s.present x.lid) s (.trap 0x03 (x.lid.setWidth 64))
  .ok x

/-- The successor fields of the handback of a command that names no successor: the spec states none. -/
def State.anySucc (s : State) : Succ :=
  { stype := bits (Config.freeWord s.free 0) 0 8, sprio := bits (Config.freeWord s.free 1) 0 3,
    dest := bits (Config.freeWord s.free 2) 0 36 |>.setWidth 64 }

/-- A free slot of engine e's two-entry queue, or the engine issue stall (R60, R319). -/
def State.needSlot (s : State) (e : BitVec 4) : Res Unit := demand (decide (s.me.heldCmds e < 2)) s .stall

/-- The TCM offset that a descriptor register names (R101). -/
def State.desc (s : State) (x : QReg) : Nat := (bits (s.rd x) 0 16).toNat

/-- A record of 64 bytes is aligned and wholly below k.slim (R319). -/
def State.recordPlaced (s : State) (off : Nat) : Bool := decide (off % 64 = 0) && decide (off + 64 ≤ s.me.slim.toNat)

/-- The words of a record that is placed as R319 asks. A poisoned word of the TCM is read as its bytes: the checks of R232 and R319
name no poison, DESIGN CHOICE (log entry 28). -/
def State.record (s : State) (off : Nat) : Res (List Word) := do
  demand (s.recordPlaced off) s (.trap 0x03 (BitVec.ofNat 64 off))
  .ok ((upFrom 0 8).map fun i => s.me.tcmWord (off + 8 * i))

/-! ## Tensor maps (R101 to R104) -/

/-- Bits of an element of a format (R102). -/
def fmtBits (f : BitVec 4) : Nat :=
  match f.toNat with
  | 0 | 4 | 11 | 12 => 8
  | 1 | 5 | 9 | 10 | 14 => 16
  | 2 | 6 | 8 => 32
  | 3 | 7 => 64
  | 13 => 4
  | _ => 8

/-- Bytes of an element, 1 for a pair of E2M1. -/
def fmtBytes (f : BitVec 4) : Nat := (fmtBits f + 7) / 8

/-- The first check of R104 that the map at an offset fails, if any. -/
def mapFault (w : Nat → Word) : Option Nat :=
  let rank := (bits (w 0) 58 4).toNat
  let efmt := bits (w 1) 0 4
  let box (i : Nat) : Nat := (bits (w (18 + i / 4)) (16 * (i % 4)) 16).toNat
  let extent (i : Nat) : Nat := (bits (w (2 + i)) 40 24).toNat
  if bits (w 0) 56 2 = 3 ∨ efmt = 0xF ∨ bits (w 1) 4 2 = 3 then some 1
  else if bits (w 0) 62 2 ≠ 0 ∨ bits (w 1) 6 26 ≠ 0 ∨ (upFrom 22 10).any (fun i => w i != 0) then some 2
  else if bits (w 2) 0 40 ≠ 0 then some 3
  else if efmt = 0xD ∧ (extent 0 + 1) % 2 = 1 then some 4
  else if (bits (w 0) 0 56).toNat % fmtBytes efmt ≠ 0 then some 5
  else if (upFrom 0 (rank + 1)).any (fun i => decide (box i > extent i)) then some 6
  else none

/-- The map that its words hold. -/
def tmapOf (w : Nat → Word) : TMap :=
  { base := bits (w 0) 0 56, space := (Space.ofCode (bits (w 0) 56 2)).getD .global, efmt := bits (w 1) 0 4,
    pad := bits (w 1) 4 2, padval := bits (w 1) 32 32
    dims := (upFrom 0 ((bits (w 0) 58 4).toNat + 1)).map fun i =>
      { stride := (bits (w (2 + i)) 0 40).toInt, extent := (bits (w (2 + i)) 40 24).toNat,
        box := (bits (w (18 + i / 4)) (16 * (i % 4)) 16).toNat } }

/-- A map read once at acceptance, checked by R104. -/
def State.readMap (s : State) (off : Nat) : Res TMap := do
  demand (decide (off % 256 = 0) && decide (off + 256 ≤ s.me.slim.toNat)) s (.trap 0x03 (BitVec.ofNat 64 off))
  let w (i : Nat) : Word := s.me.tcmWord (off + 8 * i)
  match mapFault w with
  | some k => .error (s, .trap 0x01 (BitVec.ofNat 64 (off + 65536 * k)))
  | none => .ok (tmapOf w)

/-- Elements of the box (R321). -/
def TMap.count (m : TMap) : Nat := m.dims.foldl (fun n (d : Dim) => n * (d.box + 1)) 1

/-- Coordinates of element e of the box, dimension 0 fastest (R321). -/
def coordsOf : List Dim → Nat → List Nat
  | [], _ => []
  | d :: r, e => e % (d.box + 1) :: coordsOf r (e / (d.box + 1))

/-- Coordinates inside the extents, or at the nearest edge under pad mode 2; none reads the pad value (R103). -/
def TMap.place (m : TMap) (xs : List Nat) : Option (List Nat) :=
  let inside := (m.dims.zip xs).all fun p => decide (p.2 ≤ p.1.extent)
  if inside then some xs
  else if m.pad = 2 then some ((m.dims.zip xs).map fun p => Nat.min p.2 p.1.extent)
  else none

/-- The address of the element at coordinates, or of its pair for E2M1 (R103). -/
def TMap.addr (m : TMap) (xs : List Nat) : Int :=
  let x0 := xs.headD 0
  let first : Int := if m.efmt = 0xD then (x0 / 2 : Nat) else (x0 * fmtBytes m.efmt : Nat)
  (m.dims.zip xs).tail.foldl (fun (a : Int) p => a + p.2 * p.1.stride) ((m.base.toNat : Int) + first)

/-- The pad value of an element (R101, R103). padval has 32 bits: for an 8-byte format the upper half is zero, which the spec does not
say, DESIGN CHOICE (log entry 26). -/
def TMap.padElem (m : TMap) : Nat := if m.pad = 1 then m.padval.toNat % 2 ^ fmtBits m.efmt else 0

/-! ## Tentative issuers -/

/-- The instance was squashed: its launch resolved with a count that leaves it out (R328). -/
def State.squashedInst (s : State) (i : Option Inst) : Bool :=
  match i with
  | some i => i.tentative && s.launches.any fun (l : Launch) =>
      l.id == i.id && (match l.count with
        | some n => decide (n.toNat ≤ i.index.toNat)
        | none => false)
  | none => false

/-! ## Accesses of an engine -/

/-- The cause and address with which an access of an engine fails. -/
structure EngFault where
  cause : BitVec 5
  addr : Word
  /-- the access has not failed: it waits at its word's owner, and the engine goes on with it later (R408) -/
  wait : Bool := false
  deriving DecidableEq, Repr

/-- An engine operation: it answers a value, or fails with the state it leaves. -/
abbrev Eng (α : Type) := Except (State × EngFault) α

/-- A failed check of the core's, as an engine sees it: an engine never parks (R392). -/
def Stop.engFault : Stop → EngFault
  | .trap cause a => { cause, addr := a }
  | .park _ va => { cause := 0x04, addr := va }
  | _ => { cause := 0x04, addr := 0, wait := true }

/-- Who accesses: the core whose engine it is, the issuer, and whether TCM outside the named area and the issuing frame is
open to it. -/
structure EngUser where
  core : CoreId
  by_ : Issuer
  top : Bool
  deriving DecidableEq, Repr

/-- A check of the core's made by an engine. -/
def liftEng {α : Type} (r : Res α) : Eng α :=
  match r with
  | .ok x => .ok x
  | .error (s, e) => .error (s, e.engFault)

/-- Steps 2 to 4 of R216 for k bytes within one word. -/
def State.engCheck (s : State) (u : EngUser) (sp : Space) (a k : Nat) (wr : Bool) : Eng (State × Acc) :=
  match sp with
  | .tcm =>
    let slim := (s.core u.core).slim
    if a + k ≤ 0xC000 ∧ (u.top ∨ (u.by_.tcmAllowed slim a ∧ u.by_.tcmAllowed slim (a + k - 1))) then
      .ok (s, { loc := .tcm u.core a, va := a, pa := 0 })
    else .error (s, { cause := 0x03, addr := BitVec.ofNat 64 a })
  | .scratch => liftEng (s.checkScratch u.core u.by_.dom (u.by_.level == 7) u.by_.region a wr false true)
  | .global => liftEng (s.checkGlobal u.core u.by_.dom (u.by_.level == 7) u.by_.region a (!wr) wr false)

/-- The accesses that n bytes from a make: one where they lie in one word, else one a byte. -/
def engPieces (a n : Nat) : List (Nat × Nat) :=
  if a % 8 + n ≤ 8 then [(a, n)] else (upFrom a n).map fun x => (x, 1)

/-- The unsigned address of an integer, narrowed to 64 bits (R216). -/
def wrapAddr (a : Int) : Nat := (BitVec.ofInt 64 a).toNat

/-- An engine's access to a checked place goes on, or waits at its word's owner (R408). -/
def State.engServed (s : State) (u : EngUser) (p : Acc) : Eng Unit :=
  match s.plainWait u.core u.by_.dom p.loc u.by_.region with
  | some t => .error (t, { cause := 0, addr := 0, wait := true })
  | none => .ok ()

/-- Bytes read piece by piece; a poisoned word fails with its own address (R320). -/
def State.engReadAll (s : State) (u : EngUser) (sp : Space) : List (Nat × Nat) → Eng (State × List Byte)
  | [] => .ok (s, [])
  | (a, k) :: r => do
    let (s, p) ← s.engCheck u sp a k false
    s.engServed u p
    if s.accPoisoned u.core u.by_.dom p then .error (s, { cause := 0x0D, addr := BitVec.ofNat 64 (p.va / 8 * 8) })
    else
      let (s, bs) := s.rawRead u.core u.by_.dom p k
      let bs := match sp, u.by_.inst with
        | .global, some i => overlay (s.ownByte i u.by_.dom) p.va bs
        | _, _ => bs
      let (s, rest) ← State.engReadAll s u sp r
      .ok (s, bs ++ rest)

/-- n bytes read by an engine. -/
def State.engRead (s : State) (u : EngUser) (sp : Space) (a : Int) (n : Nat) : Eng (State × List Byte) :=
  s.engReadAll u sp (engPieces (wrapAddr a) n)

/-- Bytes written piece by piece: a tentative issuer's global stores are provisional, and fail with cause 0x0B beyond its
quota (R285, R331); those of a squashed one leave no trace (R328). -/
def State.engWriteAll (s : State) (u : EngUser) (sp : Space) : List (Nat × List Byte) → Eng State
  | [] => .ok s
  | (a, bs) :: r => do
    let (s, p) ← s.engCheck u sp a bs.length true
    if s.squashedInst u.by_.inst then State.engWriteAll s u sp r
    else if s.tentativeInst u.by_.inst ∧ sp = .global then
      match u.by_.inst with
      | some i =>
        if s.provRoom i (s.live p.pa) then
          let x : Prov := { launch := i.id, index := i.index, pa := s.live p.pa, va := p.va, dom := u.by_.dom, data := bs }
          State.engWriteAll { s with prov := s.prov ++ [x] } u sp r
        else .error (s, { cause := 0x0B, addr := BitVec.ofNat 64 a })
      | none => State.engWriteAll s u sp r
    else do
      s.engServed u p
      State.engWriteAll (s.rawWrite u.core u.by_.dom p bs) u sp r

/-- The pieces of bytes from a on. -/
def engParts (a : Nat) (bs : List Byte) : List (Nat × List Byte) :=
  if a % 8 + bs.length ≤ 8 then [(a, bs)] else (upFrom 0 bs.length).map fun i => (a + i, [(bs[i]?).getD 0])

/-- Bytes written by an engine. -/
def State.engWrite (s : State) (u : EngUser) (sp : Space) (a : Int) (bs : List Byte) : Eng State :=
  s.engWriteAll u sp (engParts (wrapAddr a) bs)

/-- The element at coordinates, as its bits (R103). -/
def State.readElem (s : State) (u : EngUser) (m : TMap) (xs : List Nat) : Eng (State × Nat) :=
  match m.place xs with
  | none => .ok (s, m.padElem)
  | some xs => do
    let (s, bs) ← s.engRead u m.space (m.addr xs) (fmtBytes m.efmt)
    let x := joinBytes bs
    .ok (s, if m.efmt = 0xD then x / 16 ^ (xs.headD 0 % 2) % 16 else x)

/-- The frame of a tentative issuer parks at its next boundary (R285). -/
def State.duePark (s : State) (u : EngUser) : State :=
  let m := s.physOf u.by_.lid
  s.updCore m fun c => c.updBank u.by_.level fun b => if b.live ∧ b.inst = u.by_.inst then { b with parkDue := true } else b

end Sys2Proof.Machine
end

