-- ==== Sys2Proof/Machine/Engine.lean ====
section
/-! DEFINITION. The commands of the copy and remote-request engines (majors 0x25, 0x3C and 0x3D, R230 to R235, R319 to
R327) and the events that perform them. -/

namespace Sys2Proof.Machine

/-! ## Issue -/

/-- What every WE command begins with: the successor checks, then the store buffer drains (R113, R303). -/
def State.beginCmd (s : State) (d : SReg) (sprio : BitVec 3) (stype : Byte) (start : Bool) : Res (State × Succ) := do
  let succ ← s.checkSucc d sprio stype start
  let s ← s.drain s.cur
  .ok (s, succ)

/-- A command enters the remote-request engine's queue, or stalls (R60, R310). Only an `rreq` is an access that a fence
counts (R119, R410). -/
def State.acceptRem (s : State) (succ : Succ) (op : RemOp) : Res State := do
  s.needSlot 2
  let x : RemCmd := { id := s.nextId, by_ := s.issuer, succ, op, phase := .issued, tag := s.nextId, passed := false }
  let tags : List Nat := match op with
    | .rreq _ => [x.tag]
    | _ => []
  let s := { s with nextId := s.nextId + 1 }
  .ok ((s.updMe fun c => { c.acceptCmd 2 with remQ := c.remQ ++ [x], unacked := c.unacked ++ tags }).advance 4)

/-- A command enters the copy engine's queue, or stalls. -/
def State.acceptCopy (s : State) (x : CopyCmd) : Res State := do
  s.needSlot 0
  .ok ((s.updMe fun c => { c.acceptCmd 0 with copyQ := c.copyQ ++ [x] }).advance 4)

/-- The lowest and the highest byte that a box names (R103). -/
def TMap.span (m : TMap) : Int × Int :=
  let row : Int := match m.dims with
    | d :: _ => ((d.box + 1) * fmtBits m.efmt + 7) / 8
    | [] => 0
  m.dims.tail.foldl (fun (p : Int × Int) d =>
    let x : Int := d.stride * d.box
    (p.1 + min 0 x, p.2 + max 0 x)) ((m.base.toNat : Int), (m.base.toNat : Int) + row)

/-- A tentative instance performs the copy: its destination is global or its own frame, its successor self or none
(R331). -/
def State.copyAllowed (s : State) (dst : TMap) (succ : Succ) : Bool :=
  let c := s.me
  let (lo, hi) := dst.span
  (succ.self || succ.nosucc) &&
    (match dst.space with
     | .global => true
     | .scratch => false
     | .tcm => decide ((c.here.fbase.toNat : Int) ≤ lo) &&
         decide (hi ≤ (c.here.fbase.toNat + frameSize c.here.fclass c.lvl : Nat)))

/-- `copy` (R321). -/
def execCopy (d : SReg) (x y : QReg) (sprio : BitVec 3) (stype : BitVec 8) (s : State) : Out :=
  finish do
    let (s, succ) ← s.beginCmd d sprio stype true
    let start := (bits succ.dest 36 28).toNat
    let dst ← s.readMap (s.desc x)
    let src ← s.readMap (s.desc y)
    let odd : Bool := src.efmt == 0xD && (decide (((src.dims.map fun (k : Dim) => k.box).headD 0 + 1) % 2 = 1) ||
      decide (start % 2 = 1))
    demand (src.efmt == dst.efmt && (src.dims.map fun (k : Dim) => k.box) == (dst.dims.map fun (k : Dim) => k.box) &&
      decide (src.count ≤ 2 ^ 28) && !odd) s (.trap 0x01 (BitVec.ofNat 64 (s.desc y)))
    demand (!s.tentative || s.copyAllowed dst succ) s (.park 11 0)
    s.acceptCopy { by_ := s.issuer, succ, src, dst, q := none, start, next := start }

/-- `cpst` (R322). -/
def execCpst (d : SReg) (x y : QReg) (sprio : BitVec 3) (stype : BitVec 8) (s : State) : Out :=
  finish do
    let (s, succ) ← s.beginCmd d sprio stype true
    let start := (bits succ.dest 36 28).toNat
    let src ← s.readMap (s.desc y)
    let c := s.me
    let k := c.rq x
    demand (k.kind == 0 || (k.kind == 3 && k.level == c.lvl && !c.streaming x && k.entries.isEmpty &&
      decide (k.resv = 0))) s (.trap 0x03 (x.setWidth 64))
    demand (src.space != .global) s (.trap 0x03 (x.setWidth 64))
    let s ← s.acceptCopy { by_ := s.issuer, succ, src, dst := src, q := some x, start, next := start }
    .ok (s.updMe fun c => c.updQ x fun k => { k with kind := 3, level := c.lvl })

/-- Tiles of a map: extents over boxes (R323). -/
def TMap.tiles (m : TMap) : Nat := m.dims.foldl (fun n (d : Dim) => n * ((d.extent + 1 + d.box) / (d.box + 1))) 1

/-- `walk` (R323). -/
def execWalk (d : SReg) (x : QReg) (sprio : BitVec 3) (stype : BitVec 8) (s : State) : Out :=
  finish do
    let (s, succ) ← s.beginCmd d sprio stype false
    let off := s.desc x
    let bad : Stop := .trap 0x01 (BitVec.ofNat 64 off)
    let w ← s.record off
    let at_ (i : Nat) : Word := (w[i]?).getD 0
    let itype : Byte := bits (at_ 0) 16 8
    let iprio : BitVec 3 := bits (at_ 0) 24 3
    let lid0 : CoreId := bits (at_ 1) 0 18
    let ncores := (bits (at_ 1) 18 15).toNat
    demand (bits (at_ 0) 27 37 == 0 && bits (at_ 1) 33 31 == 0 && (upFrom 2 6).all fun i => at_ i == 0) s bad
    demand (decide (0x20 ≤ itype.toNat) && iprio != 7 && decide (1 ≤ ncores) && decide (ncores ≤ 16384)) s bad
    let m ← s.readMap (bits (at_ 0) 0 16).toNat
    demand (decide (m.tiles ≤ 2 ^ 32 - 1)) s bad
    demand (decide (lid0.toNat + ncores ≤ 2 ^ 18) && (upFrom lid0.toNat ncores).all fun i =>
      dieOf (BitVec.ofNat 18 i) == dieOf s.cur && s.present (BitVec.ofNat 18 i)) s bad
    s.parkTentative 4
    s.acceptRem succ (.walk { tmap := m, itype, iprio, lid0, ncores, tiles := m.tiles })

/-- `barv` (R324). -/
def execBarv (d : SReg) (x : QReg) (sprio : BitVec 3) (stype : BitVec 8) (s : State) : Out :=
  finish do
    let (s, succ) ← s.beginCmd d sprio stype false
    let off := s.desc x
    demand (decide (off % 8 = 0) && decide (off < s.me.slim.toNat)) s (.trap 0x03 (BitVec.ofNat 64 off))
    s.parkTentative 4
    s.acceptRem succ (.barv (s.me.tcmWord off))

/-- `launch` (R325). -/
def execLaunch (d : SReg) (x : QReg) (sprio : BitVec 3) (stype : BitVec 8) (s : State) : Out :=
  finish do
    let (s, succ) ← s.beginCmd d sprio stype false
    let off := s.desc x
    let bad : Stop := .trap 0x01 (BitVec.ofNat 64 off)
    let w ← s.record off
    let at_ (i : Nat) : Word := (w[i]?).getD 0
    let r : LaunchRec := { rcb := bits (at_ 0) 0 56, shapew := bits (at_ 1) 0 56, nmin := bits (at_ 2) 0 32,
                           nmax := bits (at_ 2) 32 32, slot := bits (at_ 3) 0 6, policy := bits (at_ 3) 6 2,
                           arg := at_ 4 }
    demand (bits (at_ 0) 56 8 == 0 && bits (at_ 1) 56 8 == 0 && bits (at_ 3) 8 56 == 0 &&
      (upFrom 5 3).all fun i => at_ i == 0) s bad
    demand (bits r.shapew 0 3 == 0) s (.trap 0x02 (r.shapew.setWidth 64))
    demand ((if r.shapew = 0 then r.nmax == 0 else decide (r.nmin.toNat ≤ r.nmax.toNat)) && r.policy != 3) s bad
    s.parkTentative 4
    s.acceptRem succ (.launch r)

/-- `enc` (R327). -/
def execEnc (d : SReg) (x : QReg) (sprio : BitVec 3) (stype : BitVec 8) (s : State) : Out :=
  finish do
    let (s, succ) ← s.beginCmd d sprio stype false
    demand (s.recordPlaced (s.desc x)) s (.trap 0x03 (BitVec.ofNat 64 (s.desc x)))
    s.parkTentative 4
    s.acceptRem succ (.enc (s.desc x))

/-- Checks 2 of R232: reserved values, and fields that the operation requires to be zero. -/
def rreqOk (w : Nat → Word) : Bool :=
  let op := (bits (w 0) 50 4).toNat
  let mode := (bits (w 1) 24 3).toNat
  decide (op ≤ 4) && (Scope.ofCode (bits (w 0) 54 3)).isSome && bits (w 0) 62 2 == 0 &&
    bits (w 1) 21 3 == 0 && bits (w 1) 27 37 == 0 && ((upFrom 4 4).all fun i => w i == 0) &&
    (decide (op = 2) || bits (w 0) 57 5 == 0) && (decide (op < 2) || bits (w 1) 16 5 == 0) &&
    (if op = 3 then decide (mode = 1 ∨ mode = 2) else if op = 4 then decide (3 ≤ mode ∧ mode ≤ 5) else decide (mode = 0))

/-- `rreq` (R230 to R232). -/
def execRreq (d : SReg) (x : QReg) (sprio : BitVec 3) (stype : BitVec 8) (s : State) : Out :=
  finish do
    let (s, succ) ← s.beginCmd d sprio stype false
    let off := s.desc x
    let w ← s.record off
    let at_ (i : Nat) : Word := (w[i]?).getD 0
    demand (rreqOk at_) s (.trap 0x01 (BitVec.ofNat 64 off))
    let r : RreqRec := { lid := bits (at_ 0) 0 18, modu := s.moduleOf (bits (at_ 0) 18 16), toff := bits (at_ 0) 34 16,
                         op := bits (at_ 0) 50 4, scope := (Scope.ofCode (bits (at_ 0) 54 3)).getD .core,
                         ord := bits (at_ 0) 57 2, aop := AmoOp.ofCode (bits (at_ 0) 59 3), loff := bits (at_ 1) 0 16,
                         len := (bits (at_ 1) 16 5).toNat + 1, mode := (SyncMode.ofCode (bits (at_ 1) 24 3)).getD .plain,
                         operand := at_ 2, expect := at_ 3 }
    demand (bits r.toff 0 3 == 0) s (.trap 0x02 (r.toff.setWidth 64))
    demand (bits r.loff 0 3 == 0) s (.trap 0x02 (r.loff.setWidth 64))
    demand (decide (r.loff.toNat + 8 * r.len ≤ s.me.slim.toNat)) s (.trap 0x03 (r.loff.setWidth 64))
    demand (r.modu != s.modu || s.present r.lid) s (.trap 0x03 (r.lid.setWidth 64))
    s.parkTentative 3
    s.acceptRem succ (.rreq r)

/-! ## The copy engine (R321, R322) -/

/-- One element, or one pair of E2M1, read at coordinates: its bytes. -/
def State.readUnit (s : State) (u : EngUser) (m : TMap) (xs : List Nat) : Eng (State × List Byte) :=
  match m.place xs with
  | none => .ok (s, splitBytes (fmtBytes m.efmt) (if m.efmt = 0xD then 17 * m.padElem else m.padElem))
  | some xs => s.engRead u m.space (m.addr xs) (fmtBytes m.efmt)

/-- Elements from e on, fuel of them at most; on a fault the element that was not moved. -/
def State.copyFrom (s : State) (u : EngUser) (q : CopyCmd) (n : Nat) : Nat → Nat → State × Option (Nat × EngFault)
  | 0, _ => (s, none)
  | fuel + 1, e =>
    if n ≤ e then (s, none)
    else
      let r : Eng State := do
        let (s, bs) ← s.readUnit u q.src (coordsOf q.src.dims e)
        s.engWrite u q.dst.space (q.dst.addr (coordsOf q.dst.dims e)) bs
      match r with
      | .ok s => State.copyFrom s u q n fuel (e + if q.src.efmt = 0xD then 2 else 1)
      | .error (s, f) => (s, some (e, f))

/-- The head command of core n's copy engine leaves the queue. -/
def State.popCopy (s : State) (n : CoreId) : State := s.updCore n fun c => { c with copyQ := c.copyQ.tail }

/-- Elements that a copy command moves in all. -/
def CopyCmd.moved (q : CopyCmd) : Word := BitVec.ofNat 64 (q.src.count - q.start)

/-- COPY_ENGINE_RUN: the `copy` at the head of core n's queue is performed (R321). Beyond the quota of a tentative issuer
it waits at its element, and the frame parks (R331); it waits there, too, for an access that waits at its word's owner (R408). -/
def execCopyEngineRun (n : CoreId) (s : State) : Out :=
  match (s.core n).copyQ with
  | [] => .next s
  | q :: _ =>
    if q.q.isSome then .next s
    else
      let u : EngUser := { core := n, by_ := q.by_, top := false }
      match s.copyFrom u q q.src.count (q.src.count - q.next) q.next with
      | (s, none) => .next ((s.popCopy n).completeFar n q.by_ 0 q.succ [q.moved] (BitVec.ofNat 64 q.src.count) false)
      | (s, some (e, f)) =>
        let held := s.updCore n fun c => { c with copyQ := updAt (fun (x : CopyCmd) => { x with next := e }) c.copyQ 0 }
        if f.wait then .next held
        else if f.cause = 0x0B then .next (held.duePark u)
        else .next ((s.popCopy n).failCmd n q.by_ 0 f.cause q.succ f.addr (BitVec.ofNat 64 e))

/-- The elements of one stream entry, from e on: their bits, first lowest. -/
def State.streamElems (s : State) (u : EngUser) (m : TMap) (n : Nat) : Nat → Nat → Eng (State × Nat)
  | 0, _ => .ok (s, 0)
  | k + 1, e =>
    if n ≤ e then .ok (s, 0)
    else do
      let (s, x) ← s.readElem u m (coordsOf m.dims e)
      let (s, r) ← State.streamElems s u m n k (e + 1)
      .ok (s, x + 2 ^ fmtBits m.efmt * r)

/-- STREAM_ENTRY_APPEND: the `cpst` at the head of core n's queue appends its next entry, if the register has room
(R100, R322). -/
def execStreamEntryAppend (n : CoreId) (s : State) : Out :=
  match (s.core n).copyQ with
  | [] => .next s
  | q :: _ =>
    match q.q with
    | none => .next s
    | some x =>
      let count := q.src.count
      let per := 128 / fmtBits q.src.efmt
      let done (s : State) : Out := .next ((s.popCopy n).completeFar n q.by_ 1 q.succ [q.moved] (BitVec.ofNat 64 count) false)
      if count ≤ q.next then done s
      else if !((s.core n).rq x).room then .next s
      else
        let u : EngUser := { core := n, by_ := q.by_, top := false }
        match s.streamElems u q.src count per q.next with
        | .error (s, f) => if f.wait then .next s else .next ((s.popCopy n).failCmd n q.by_ 1 f.cause q.succ f.addr (BitVec.ofNat 64 q.next))
        | .ok (s, v) =>
          let s := s.updCore n fun c => c.updQ x fun k =>
            { k with entries := k.entries ++ [{ data := BitVec.ofNat 128 v, src := none, scope := none }] }
          if count ≤ q.next + per then done s
          else .next (s.updCore n fun c =>
            { c with copyQ := updAt (fun (y : CopyCmd) => { y with next := q.next + per }) c.copyQ 0 })

/-! ## The remote-request engine -/

/-- The oldest command of core n that its agent has not taken: commands are taken in order (R126). -/
def Core.remHead (c : Core) : Option RemCmd :=
  c.remQ.find? fun (r : RemCmd) => r.phase == .issued

/-- The phase of a remote command changed. -/
def State.setPhase (s : State) (n : CoreId) (id : Nat) (p : RemPhase) : State :=
  s.updCore n fun c => { c with remQ := c.remQ.map fun (r : RemCmd) => if r.id = id then { r with phase := p } else r }

/-- A remote command leaves its queue; its acknowledgement is counted (R410). -/
def State.popRem (s : State) (n : CoreId) (id : Nat) : State :=
  s.updCore n fun c => { c with remQ := c.remQ.filter (fun (r : RemCmd) => r.id != id)
                                unacked := c.unacked.filter fun (t : Nat) => t != id }

/-- The access of a remote command has been accepted (R410). -/
def State.ackRem (s : State) (n : CoreId) (id : Nat) : State :=
  s.updCore n fun c => { c with unacked := c.unacked.filter fun (t : Nat) => t != id }

/-- The whole cluster of a core has begun to drain, or is gated (R235); or the core's switch is open, and it holds no state (R15). -/
def State.coreGated (s : State) (n : CoreId) : Bool :=
  let k := s.cluster (clusterOf n)
  k.gstate == 3 || (k.gstate == 1 && k.cgreq) || !s.powered n

/-- Words of a target's TCM read one after another; a poisoned word as zero (R233). -/
def Core.remoteRead (c : Core) : Nat → Nat → List Word
  | _, 0 => []
  | off, n + 1 => (if poisonGet c.tcmPoison (off / 8) then 0 else c.tcmWord off) :: Core.remoteRead c (off + 8) n

/-- The first n words of a list, zero beyond its end. -/
def takeWords : Nat → List Word → List Word
  | 0, _ => []
  | n + 1, [] => 0 :: takeWords n []
  | n + 1, w :: r => w :: takeWords n r

/-- Words stored in the TCM of core n from off on, one after another (R233). -/
def State.storeLocal (s : State) (n : CoreId) (off : Nat) (ws : List Word) : State :=
  s.updCore n fun c => ((upFrom 0 ws.length).zip ws).foldl (fun (c : Core) p =>
    c.tcmStore (off + 8 * p.1) (splitBytes 8 p.2.toNat)) c

/-- A request that is read, written or made atomic at once in the TCM of core m: data and status (R233). The status of a read that
finds a poisoned word is 0: the rule writes a zero for the word and does not say, DESIGN CHOICE (log entry 26). -/
def State.rreqNow (s : State) (m : CoreId) (dom : BitVec 16) (r : RreqRec) (src : List Word) : State × List Word × BitVec 2 :=
  let t := r.toff.toNat
  let spot := s.spot dom (.tcm m t)
  match r.op.toNat with
  | 0 => (s, (s.core m).remoteRead t r.len, 0)
  | 1 => (s.storeLocal m t (takeWords r.len src), [], 0)
  | _ =>
    if s.spotPoison spot then (s, [], 2)
    else
      let (s, old) := s.amoAt spot dom r.aop r.expect r.operand
      (s, [old], 0)

/-- The words that a write or a sync write takes from its core: all of them before the first target word is written, which the rule
does not say of spans that overlap, DESIGN CHOICE (log entry 26). -/
def Core.sourceWords (c : Core) (r : RreqRec) : List Word :=
  if r.op = 1 ∨ r.op = 4 then (upFrom 0 r.len).map fun i => c.tcmWord (r.loff.toNat + 8 * i) else []

/-- The request of core n at a target core on this module (R233): none while a sync access must wait outside. -/
def State.rreqAt (s : State) (n m : CoreId) (q : RemCmd) (r : RreqRec) : Option State :=
  let src := (s.core n).sourceWords r
  if r.op.toNat < 3 then
    let (s, data, status) := s.rreqNow m q.by_.dom r src
    some (s.setPhase n q.id (.result data status))
  else
    (s.setPhase n q.id .waiting).syncArrive
      (s.mooringOf q.by_.dom (.tcm m r.toff.toNat) r.mode (src.headD 0) (.rreq n q.id) q.by_.region) n

/-- The first poisoned word among those that a write or a sync write takes from its core (R126). -/
def Core.poisonedSource (c : Core) (r : RreqRec) : Option Nat :=
  if r.op = 1 ∨ r.op = 4 then
    ((upFrom 0 r.len).map fun i => r.loff.toNat + 8 * i).find? fun a => poisonGet c.tcmPoison (a / 8)
  else none

/-- REMOTE_REQUEST_PERFORM: the oldest request of core n is performed at its target, or leaves for another module; one
that cannot be performed is handed back (R233 to R235). -/
def execRemoteRequestPerform (n : CoreId) (s : State) : Out :=
  match (s.core n).remHead with
  | none => .next s
  | some q =>
    match q.op with
    | .rreq r =>
      let fail (cause : BitVec 5) (a : Word) : Out := .next ((s.popRem n q.id).failCmd n q.by_ 6 cause q.succ a 0)
      match (s.core n).poisonedSource r with
      | some a => fail 0x0D (BitVec.ofNat 64 a)
      | none =>
        if r.modu ≠ s.modu then .next ((s.releaseDie (dieOf n)).setPhase n q.id .waiting)
        else if !s.present r.lid then fail 0x03 (r.lid.setWidth 64)
        else
          let m := s.physOf r.lid
          let c := s.core m
          if c.defers r.lid then .next s
          else if s.coreGated m ∨ r.toff.toNat + 8 * r.len > c.slim.toNat then fail 0x03 (r.toff.setWidth 64)
          else
            let t := s.releaseAt (dieOf n) (if dieOf m = dieOf n then r.scope else .module)
            match t.rreqAt n m q r with
            | some t => .next (t.ackRem n q.id)
            | none => .next s
    | _ => .next s

/-- The request is an acquire beyond the die: an atomic with acquire order, or a sync read of mode 1 or 2, at module or system scope;
it takes effect at the start of its successor's handler (R128, R233). -/
def RreqRec.far (r : RreqRec) : Bool :=
  (decide (r.op = 2 ∧ r.ord.getLsbD 0) || decide (r.op = 3 ∧ r.mode ≠ .plain)) && (r.scope == .module || r.scope == .system)

/-- A performed request completes: loff first, then the successor (R233). -/
def State.rreqEnd (s : State) (n : CoreId) (q : RemCmd) (r : RreqRec) (data : List Word) (status : BitVec 2) : State :=
  ((s.storeLocal n r.loff.toNat data).popRem n q.id).completeFar n q.by_ 6 q.succ [data.headD 0, status.setWidth 64] 0 r.far

/-- What a request to another module returns: its data words by operation and status (R233). -/
def RreqRec.returned (r : RreqRec) (status : BitVec 2) (data : List Word) : List Word :=
  if r.op = 0 then takeWords r.len data
  else if (r.op = 2 ∨ r.op = 3) ∧ status = 0 then takeWords 1 data
  else []

/-- The answer of another module to a request of core n: its status and data; status 3 stands for its refusal, with which the request
is handed back (R234): with the target offset where it carries a word, and with the LID, which is absent there, where it carries none
(R303, R320; log entry 9). -/
def State.remoteAnswer (s : State) (n : CoreId) (q : RemCmd) (r : RreqRec) (status : BitVec 2) (data : List Word) : State :=
  if status = 3 then (s.popRem n q.id).failCmd n q.by_ 6 0x03 q.succ (if data.isEmpty then r.lid.setWidth 64 else r.toff.setWidth 64) 0
  else s.rreqEnd n q r (r.returned status data) status

/-- A performed request of core n: the oldest first. -/
def Core.performed (c : Core) : Option RemCmd :=
  c.remQ.find? fun (q : RemCmd) => match q.phase with
    | .result _ _ => true
    | _ => false

/-- The oldest request of core n that waits on another module. -/
def Core.abroad (c : Core) (modu : BitVec 16) : Option RemCmd :=
  c.remQ.find? fun (q : RemCmd) => match q.phase, q.op with
    | .waiting, .rreq r => r.modu != modu
    | _, _ => false

/-- REMOTE_REQUEST_COMPLETE: the oldest performed request of core n completes; with none performed here, the oldest that waits on
another module ends, with the status and data which that module answers. A later one ends before it by the turn remoteDone (R412). -/
def execRemoteRequestComplete (n : CoreId) (status : BitVec 2) (data : List Word) (s : State) : Out :=
  match (s.core n).performed with
  | some q =>
    match q.op, q.phase with
    | .rreq r, .result d st => .next (s.rreqEnd n q r d st)
    | _, _ => .next s
  | none =>
    match (s.core n).abroad s.modu with
    | some q =>
      match q.op with
      | .rreq r => .next (s.remoteAnswer n q r status data)
      | _ => .next s
    | none => .next s

/-- Another module has taken request id of core n into its bank's order: the request is accepted (R410). -/
def State.remoteTaken (s : State) (n : CoreId) (id : Nat) : State :=
  match (s.core n).remQ.find? fun (q : RemCmd) => q.id == id with
  | some q =>
    match q.phase, q.op with
    | .waiting, .rreq r => if r.modu = s.modu then s else s.ackRem n id
    | _, _ => s
  | none => s

/-- Another module has ended request id of core n, whatever its place in the queue (R412). -/
def State.remoteDone (s : State) (n : CoreId) (id : Nat) (data : List Word) (status : BitVec 2) : State :=
  match (s.core n).remQ.find? fun (q : RemCmd) => q.id == id with
  | some q =>
    match q.phase, q.op with
    | .waiting, .rreq r => if r.modu = s.modu then s else s.remoteAnswer n q r status data
    | _, _ => s
  | none => s

/-- A request of another module with its outcome. -/
def State.guestEnd (s : State) (g : Guest) (data : List Word) (status : BitVec 2) : State :=
  { s with guests := s.guests ++ [{ g with result := some (data, status) }] }

/-- A request of another module at a core of this one (R233, R411): an absent LID, a limit or a gated cluster refuses it (R234,
R303), and one that was taken already is discarded (R416). It stays outside while the target's context is saved or loading, or no list
has room for it. -/
def State.guestRequest (s : State) (g : Guest) : State :=
  let r := g.rec_
  let m := s.physOf r.lid
  let c := s.core m
  if s.guests.any fun x => x.modu == g.modu && x.id == g.id then s
  else if !s.present r.lid then s.guestEnd g [] 3
  else if c.defers r.lid then s
  else if s.coreGated m ∨ r.toff.toNat + 8 * r.len > c.slim.toNat then s.guestEnd g [r.toff.setWidth 64] 3
  else if r.op.toNat < 3 then
    let (s, data, status) := s.rreqNow m 0 r g.words
    s.guestEnd g data status
  else
    let t : State := { s with guests := s.guests ++ [{ g with result := none }] }
    (t.syncArrive (t.mooringOf 0 (.tcm m r.toff.toNat) r.mode (g.words.headD 0) (.guest g.modu g.id) none) m).getD s

/-! ## Tile walkers (R65, R323) -/

/-- Coordinates of tile t, dimension 0 fastest, and the tile's origin (R323). -/
def tileOrigin : List Dim → Nat → List Nat
  | [], _ => []
  | d :: r, t =>
    let k := (d.extent + 1 + d.box) / (d.box + 1)
    (t % k * (d.box + 1)) :: tileOrigin r (t / k)

/-- An instance of a launch or walk sent as a message (R323, R325). -/
def State.postInst (s : State) (type : Byte) (prio : BitVec 3) (by_ : Issuer) (cmd : BitVec 4) (succ : Succ) (dst : CoreId)
    (payload : List Word) (i : Inst) : State :=
  s.post { cargo := .message { msg := { hdr := mkHdr type prio 0 payload.length by_.lid dst, payload }, inst := some i,
                               contract := none, srcMod := s.modu, resume := none, far := false },
           from_ := none, dstMod := s.modu, dst, held := false, tag := none,
           back := some { cmd, succ, progress := 0, ended := none, close := none },
           owner := some by_.core }

/-- The walker of a block has tiles of a walk left to send. -/
def State.walking (s : State) (blk : BitVec 10) : Option Walk :=
  s.walks.find? fun (w : Walk) => w.blk == blk && decide (w.sent.length < w.record.tiles)

/-- The command with the least number among those that their cores offer and p admits: they are taken in the order of
issue. -/
def State.oldestRem (s : State) (p : CoreId → RemOp → Bool) : Option (CoreId × RemCmd) :=
  s.cores.foldl (fun (best : Option (CoreId × RemCmd)) e =>
    let n : CoreId := BitVec.ofNat 18 e.1
    match e.2.remHead with
    | some q =>
      if p n q.op then
        match best with
        | some (m, b) => if q.id < b.id then some (n, q) else some (m, b)
        | none => some (n, q)
      else best
    | none => best) none

/-- The walker of a block takes the oldest `walk` of its cores when it has none to send: the command ends (R310). -/
def State.takeWalk (s : State) (blk : BitVec 10) : State :=
  if (s.walking blk).isSome then s
  else
    match s.oldestRem fun n op => blockOf n == blk && (match op with | .walk _ => true | _ => false) with
    | some (n, q) =>
      match q.op with
      | .walk r =>
        let w : Walk := { id := s.nextId, by_ := q.by_, succ := q.succ, record := r, blk, sent := [], ended := [],
                          done := false }
        let s := { s with nextId := s.nextId + 1, walks := s.walks ++ [w] }
        (s.popRem n q.id).endCmd n q.by_.lid 2 false
      | _ => s
    | none => s

/-- TILE_WALKER_RUN: the walker of a block sends tile t to a core of the walk's set, each tile once (R65, R323). -/
def execTileWalkerRun (blk : BitVec 10) (tile : BitVec 32) (lid : CoreId) (s : State) : Out :=
  let s := s.takeWalk blk
  match s.walking blk with
  | none => .next s
  | some w =>
    let r := w.record
    if tile.toNat < r.tiles ∧ !w.sent.contains tile ∧ r.lid0.toNat ≤ lid.toNat ∧ lid.toNat < r.lid0.toNat + r.ncores then
      let xs := tileOrigin r.tmap.dims tile.toNat
      let origin : Word := BitVec.ofNat 64 ((upFrom 0 4).foldl (fun a i => a + (xs[i]?).getD 0 % 65536 * 65536 ^ i) 0)
      let s := { s with walks := s.walks.map fun (x : Walk) => if x.id = w.id then { x with sent := tile :: x.sent } else x }
      .next (s.postInst r.itype r.iprio w.by_ 2 w.succ lid [tile.setWidth 64, origin]
        { id := w.id, walk := true, index := tile, tentative := false })
    else .next s

/-! ## Barriers (R324) -/

/-- The type-0x07 messages of a completed generation, one to the service core of each sector with an arrival (R324). What they carry is
not stated: the model gives them one word, the address of the barrier's home word, by which a gang's own notices are told from others
(R443, DESIGN CHOICE, log entry 18). -/
def State.barrierNotices (s : State) (key : Nat) (l : List Issuer) : State :=
  (upFrom 0 64).foldl (fun (s : State) x =>
    if l.any fun a => (sectorOf a.core).toNat == x then
      s.postOwn 0x07 7 0 (s.serviceCore (BitVec.ofNat 6 x)) [BitVec.ofNat 64 key] 0
    else s) s

/-- The key of a barrier names the barrier whose home word now is at a PA: a granule that moves takes its barriers with it (R324,
R397). -/
def State.barrierAt (s : State) (key pa : Nat) : Bool := s.live pa == key

/-- The successors recorded at the barrier at a PA: those that its home records, then those in the weir (R324). -/
def State.recorded (s : State) (key : Nat) : List (Issuer × Succ × Byte) :=
  ((s.barriers.filter fun (x : Barrier) => s.barrierAt key x.pa).flatMap fun x => x.arrivals) ++
    s.weir.filterMap fun e => match e.queue, e.item with
      | .barrier pa, .succ by_ x k => if s.barrierAt key pa then some (by_, x, k) else none
      | _, _ => none

/-- The weir entry is a successor recorded at the barrier at a PA. -/
def State.recordsAt (s : State) (key : Nat) (e : WeirEntry) : Bool :=
  match e.queue with
  | .barrier pa => s.barrierAt key pa
  | _ => false

/-- The barrier at a PA records no successor any more. -/
def State.unrecord (s : State) (key : Nat) : State :=
  ({ s with barriers := s.barriers.filter fun (x : Barrier) => !s.barrierAt key x.pa } : State).dropWeir (s.recordsAt key)

/-- A successor is recorded at the barrier at a PA: in the home's list, or in the weir where the list overflows (R324); none when the
weir has no room for it. How long the list is beyond its first entry, and what a weir entry of it takes and is called, are free values (log entry 3). -/
def State.recordSucc (s : State) (key : Nat) (by_ : Issuer) (x : Succ) (k : Byte) : Option State :=
  let before := (s.barriers.filter fun (x : Barrier) => s.barrierAt key x.pa).flatMap fun x => x.arrivals
  if s.weir.any (s.recordsAt key) ∨ Config.barrierDepth < before.length then
    s.weirAdd (.barrier key) by_.region (.succ by_ x k) by_.core
  else
    some { s with barriers := (s.barriers.filter fun (x : Barrier) => !s.barrierAt key x.pa) ++
                    [{ pa := key, arrivals := before ++ [(by_, x, k)] }] }

/-- A gang whose core arrives at a barrier is bound under that barrier (R443). -/
def State.underBarrier (s : State) (n : CoreId) (key : Nat) : State :=
  match (s.core n).binding with
  | some b =>
    let gang : Bool := s.launches.any fun (l : Launch) => l.id == b.launch && ((l.stages[b.stage]?).map (·.gang)).getD false
    if gang ∧ !s.gangBars.contains (b.launch, b.stage, key) then { s with gangBars := s.gangBars ++ [(b.launch, b.stage, key)] } else s
  | none => s

/-- The successor of an arrival is sent at the end of its generation. Its command has ended at its arrival: where its LID is absent, that
step is one of a handback (R21, R311, R324). -/
def State.releaseArrival (s : State) (gen : Word) (a : Issuer × Succ × Byte) : State :=
  s.releaseFar a.1 a.2.1 [gen] (spreadCmd 3) { cmd := 3, succ := a.2.1, progress := 0, ended := some a.2.2, close := none }

/-- The arrival at the barrier whose words are at PA pa: a refusal, or the state with the arrival performed; it stays outside while
its successor cannot be recorded, and while its word waits for a forward credit (R408). -/
def State.arriveAt (s : State) (n : CoreId) (q : RemCmd) (b : Word) (pa : Nat) : Except EngFault (Option State) :=
  let p : Spot := s.spot q.by_.dom (.mem pa)
  let g : Spot := s.spot q.by_.dom (.mem (pa + 8))
  if (s.waitsAt p).isSome ∨ (s.waitsAt g).isSome then .ok none
  else
  let bad : Option Spot := if s.spotPoison p then some p else if s.spotPoison g then some g else none
  match bad with
  | some x => .error { cause := 0x0D, addr := if x = p then b else b + 8 }
  | none =>
    let w := s.spotData p q.by_.dom
    let gen := s.spotData g q.by_.dom
    let m := (bits w 0 32).toNat
    let k := (bits w 32 32).toNat
    if m = 0 ∨ m ≤ k then .error { cause := 0x01, addr := b }
    else
      let key := 8 * p.word
      let s := (s.spotTouch p q.by_.dom).underBarrier n key
      let ended := s.endedAt n q.by_.lid 2 + 1
      if k + 1 = m then
        let all := s.recorded key ++ [(q.by_, q.succ, ended)]
        let s := all.foldl (fun (s : State) a => s.releaseArrival gen a) (s.unrecord key)
        let s := s.spotWrite g q.by_.dom (gen + 1)
        .ok (some ((s.spotWrite p q.by_.dom (putBits w 32 32 0)).barrierNotices key (all.map (·.1))))
      else .ok ((s.recordSucc key q.by_ q.succ ended).map fun s => s.spotWrite p q.by_.dom (putBits w 32 32 (k + 1)))

/-- BARRIER_ARRIVE: the oldest arrival of core n is performed at the barrier's home, or handed back (R324). -/
def execBarrierArrive (n : CoreId) (s : State) : Out :=
  match (s.core n).remHead with
  | none => .next s
  | some q =>
    match q.op with
    | .barv b =>
      let r : Eng (State × Acc) :=
        if b.toNat % 16 ≠ 0 then .error (s, { cause := 0x02, addr := b })
        else liftEng (s.checkGlobal n q.by_.dom (q.by_.level == 7) q.by_.region b.toNat true true true)
      let fail (s : State) (f : EngFault) : Out := .next ((s.popRem n q.id).failCmd n q.by_ 3 f.cause q.succ f.addr 0)
      match r with
      | .error (s, f) => fail s f
      | .ok (s, a) =>
        let s := (s.releaseDie (dieOf n)).acquireDie (dieOf n)
        match s.arriveAt n q b a.pa with
        | .error f => fail s f
        | .ok none => .next s
        | .ok (some s) => .next ((s.popRem n q.id).endCmd n q.by_.lid 2 false)
    | _ => .next s

end Sys2Proof.Machine
end

