-- ==== Sys2Proof/Machine/Launch.lean ====
section
/-! DEFINITION. The sector's launch front end: reading and checking the tree of RCBs (R363 to R366, R373, R374),
predicting a count (R326, R380), and queueing the launch (R365, R377). -/

namespace Sys2Proof.Machine

/-! ## Reading the tree -/

/-- Why a launch is handed back: cause, address, payload word 2, and whether the address could not be read. -/
structure TreeFault where
  cause : BitVec 5
  addr : Word
  progress : Word
  unread : Bool
  deriving DecidableEq, Repr

/-- An answer read from the tree, or the launch's refusal. -/
abbrev Tree (α : Type) := Except TreeFault α

/-- A refusal that names an RCB. -/
def refuse {α : Type} (cause : BitVec 5) (a : BitVec 56) : Tree α :=
  .error { cause, addr := a.setWidth 64, progress := 0, unread := false }

/-- The RCB at a passes a check of cause 0x01. -/
def expect (c : Bool) (a : BitVec 56) : Tree Unit := if c then .ok () else refuse 0x01 a

/-- n words from va, read by the part in domain 0; the launch is refused with the address that cannot be read. -/
def State.treeWords (s : State) (die : BitVec 4) : Nat → Nat → Tree (List Word)
  | _, 0 => .ok []
  | va, n + 1 =>
    match s.partWord die va with
    | some w => do
      let r ← State.treeWords s die (va + 8) n
      .ok (w :: r)
    | none => .error { cause := 0x01, addr := BitVec.ofNat 64 va, progress := 0, unread := true }

/-- The 16 words of the RCB at a, which is aligned to 128 bytes. -/
def State.readRcb (s : State) (die : BitVec 4) (a : BitVec 56) : Tree (List Word) := do
  expect (bits a 0 7 == 0) a
  s.treeWords die a.toNat 16

/-- Word i of a record that has been read. -/
def wordAt (w : List Word) (i : Nat) : Word := (w[i]?).getD 0

/-- Field parent of a node. -/
def rcbParent (w : List Word) : BitVec 56 := bits (wordAt w 0) 0 56

/-- The words that a kind leaves unused, and its reserved fields, are zero (R363, R393, R403). -/
def rcbClean (w : List Word) (kind : Nat) : Bool :=
  let z (l : List Nat) : Bool := l.all fun i => wordAt w i == 0
  bits (wordAt w 0) 59 5 == 0 && bits (wordAt w 1) 9 55 == 0 && bits (wordAt w 2) 19 13 == 0 &&
    bits (wordAt w 3) 3 5 == 0 && bits (wordAt w 3) 32 32 == 0 && bits (wordAt w 4) 56 8 == 0 && bits (wordAt w 5) 48 16 == 0 &&
    (match kind with
     | 0 => z (upFrom 6 10)
     | 1 => bits (wordAt w 6) 20 44 == 0 && bits (wordAt w 7) 0 16 == 0 && bits (wordAt w 7) 56 8 == 0 && z (upFrom 9 7)
     | 2 => bits (wordAt w 6) 56 8 == 0 && bits (wordAt w 9) 21 43 == 0 && z [12, 13, 14, 15]
     | 3 => z (upFrom 9 7)
     | _ => bits (wordAt w 8) 61 3 == 0 && bits (wordAt w 15) 11 53 == 0)

/-- A node is of a kind, and clean. -/
def rcbIs (w : List Word) (kind : Nat) : Bool := (bits (wordAt w 0) 56 3).toNat == kind && rcbClean w kind

/-- The effective values of a node under those of its parent (R364); a pceil of 7 is taken as 6, and none is above the parent's. -/
def rcbEff (w : List Word) (p : Eff) : Eff :=
  let own (i : Nat) : Bool := (wordAt w 1).getLsbD i
  let pc : BitVec 3 := bits (wordAt w 3) 0 3
  { cores := if own 0 then bits (wordAt w 2) 0 19 else p.cores, bw := if own 1 then bits (wordAt w 2) 32 32 else p.bw
    pceil := if own 2 ∧ pc.toNat < p.pceil.toNat then pc else p.pceil, key := if own 3 then bits (wordAt w 3) 8 8 else p.key
    fdom := if own 4 then bits (wordAt w 3) 16 16 else p.fdom, wdog := if own 5 then bits (wordAt w 4) 0 40 else p.wdog
    power := if own 6 then bits (wordAt w 4) 40 16 else p.power, weirq := if own 7 then bits (wordAt w 5) 0 32 else p.weirq
    provq := if own 8 then bits (wordAt w 5) 32 16 else p.provq }

/-- No values: those above a root, which inherits nothing. -/
def Eff.none : Eff :=
  { cores := 0, bw := 0, pceil := 6, key := 0, fdom := 0, wdog := 0, power := 0, weirq := 0, provq := 0 }

/-- What the part keeps of a region, or of the root, from its words and effective values, and those of its partition and the root. -/
def regInfoOf (w pw : List Word) (eff : Eff) (partition : BitVec 56) (pEff rEff : Eff) : RegInfo :=
  let x := wordAt w 6
  { eff, partition, dom := bits x 0 16, dmax := bits x 16 4, alimit := bits x 20 17, qlevel := bits x 37 3,
    tickets := bits x 40 16, poolBase := (bits (wordAt w 7) 0 56).toNat, poolSize := (wordAt w 8).toNat,
    recBase := (bits (wordAt w 10) 0 56).toNat, recSize := (wordAt w 11).toNat,
    pinq := bits (wordAt w 9) 0 21, pcores := pEff.cores, rcores := rEff.cores, ppower := pEff.power, rpower := rEff.power
    fcores := bits (wordAt w 2) 0 19, fpower := bits (wordAt w 4) 40 16, pfcores := bits (wordAt pw 2) 0 19,
    pfpower := bits (wordAt pw 4) 40 16 }

/-! ## Stages -/

/-- Check 1 for a stage (R365), under the launch at rcb. -/
def stageOk (w : List Word) (rcb : BitVec 56) : Bool :=
  let n := (bits (wordAt w 8) 32 15).toNat
  let slim := (bits (wordAt w 8) 0 16).toNat
  let vbase := (bits (wordAt w 8) 16 16).toNat
  rcbIs w 4 && rcbParent w == rcb && decide (1 ≤ n) && decide (n ≤ 16384) && decide (vbase % 0x800 = 0) &&
    decide (0x4000 ≤ vbase) && decide (vbase ≤ 0xB000) && decide (slim % 0x400 = 0) && decide (slim ≤ vbase)

/-- The stage of its RCB's words, before its tables are read. -/
def stageOf (a : BitVec 56) (w : List Word) (eff : Eff) : Stage :=
  let x := wordAt w 8
  { rcb := a, eff, ncores := (bits x 32 15).toNat, walk := x.getLsbD 47, ring := x.getLsbD 48, gang := x.getLsbD 49,
    sqset := bits x 50 8, sqlevel := bits x 58 3, slim := bits x 0 16, vbase := bits x 16 16, ceil := fixCeil (bits (wordAt w 9) 0 48),
    vtab := bits (wordAt w 6) 0 56, named := bits (wordAt w 7) 0 56, ctab := bits (wordAt w 10) 0 56,
    dimg := bits (wordAt w 13) 0 56, sctr := bits (wordAt w 14) 0 56, itype := bits (wordAt w 15) 0 8,
    iprio := bits (wordAt w 15) 8 3, contracts := [], chans := [], csect := [], fcores := bits (wordAt w 2) 0 19,
    fpower := bits (wordAt w 4) 40 16, cores := [] }

/-- A vector table entry of type t, at or above 0x20, stays at or below the ceiling (R365 check 2). -/
def vectorOk (pceil : BitVec 3) (t : Nat) (e : Word) : Bool :=
  decide (t < 0x20) || decide ((entryPrio e (BitVec.ofNat 8 t)).toNat ≤ pceil.toNat)

/-- A channel entry (R366). -/
def chanOf (w : Word) : Chan :=
  { chan := bits w 0 5, src := (bits w 5 4).toNat, dst := (bits w 9 4).toNat, allow := bits w 13 8, sq := bits w 21 3,
    rq := bits w 24 3, level := bits w 27 3 }

/-- Queue registers that a table binds on a core of stage k: by channel entries and by sqset. -/
def Stage.boundRegs (g : Stage) (k : Nat) : List QReg :=
  (g.chans.flatMap fun c => (if c.src = k then [c.sq] else []) ++ (if c.dst = k then [c.rq] else [])) ++
    ((upFrom 0 8).filter fun i => g.sqset.getLsbD i).map fun i => BitVec.ofNat 3 i

/-- No item stands in a list twice. -/
def noTwice {α : Type} [DecidableEq α] : List α → Bool
  | [] => true
  | x :: r => !r.contains x && noTwice r

/-- Stages left after those that no remaining stage sends to are taken away, fuel times. -/
def peel (edges : List (Nat × Nat)) : Nat → List Nat → List Nat
  | 0, l => l
  | k + 1, l => peel edges k (l.filter fun x => edges.any fun e => e.2 == x && l.contains e.1)

/-- Check 3 (R365) for stage k of n. -/
def Stage.chansOk (g : Stage) (n k : Nat) : Bool :=
  g.chans.all (fun c => decide (c.src < n) && decide (c.dst < n)) && noTwice (g.boundRegs k) &&
    !(g.sqlevel == 7 && g.sqset != 0)

/-- Check 4 (R365). -/
def Stage.shapeOk (g : Stage) : Bool :=
  !(g.gang && decide (g.ncores > 256)) && !(g.ring && decide (g.ncores % 16 ≠ 0)) && !(g.walk && g.gang)

/-- A contract record's words (R373). -/
def contractOf (i : Nat) (w : List Word) : Contract :=
  let c0 := wordAt w 0
  let c1 := wordAt w 1
  let c2 := wordAt w 2
  { idx := BitVec.ofNat 3 i, budget := bits c0 0 32, period := bits c0 32 32, deadline := bits c1 0 32, prio := bits c1 32 3,
    act := c1.getLsbD 35, src := bits c1 36 2, ctype := bits c2 0 8, cfirst := bits c2 8 14, ccount := bits c2 22 14 }

/-- The fields of a contract record are within R373; what is reserved in it is ignored (R9). For a field outside its range, as for a count
of contracts that is 0 or above 8, R373 names no cause: the launch is handed back with 0x01 and the stage's RCB, as for check 1 of R365
(DESIGN CHOICE, log entry 28). -/
def contractOk (w : List Word) (ncores : Nat) : Bool :=
  let c := contractOf 0 w
  c.prio != 7 && c.src != 3 && decide (0x20 ≤ c.ctype.toNat) && decide (1 ≤ c.ccount.toNat) && decide (c.cfirst.toNat + c.ccount.toNat ≤ ncores)

/-- The contracts and the longest claim sections of a stage's contract table (R373). -/
def State.readContracts (s : State) (die : BitVec 4) (g : Stage) (a : BitVec 56) : Tree (List Contract × List Nat) := do
  if a = 0 then .ok ([], [])
  else
    let h ← s.treeWords die a.toNat 8
    let n := (bits (wordAt h 0) 0 4).toNat
    expect (decide (1 ≤ n) && decide (n ≤ 8)) g.rcb
    let w ← s.treeWords die (a.toNat + 64) (4 * n)
    let recs := (upFrom 0 n).map fun i => (w.drop (4 * i)).take 4
    expect (recs.all fun r => contractOk r g.ncores) g.rcb
    .ok (((upFrom 0 n).zip recs).map fun p => contractOf p.1 p.2,
      (upFrom 0 7).map fun l => (bits (wordAt h (1 + l / 2)) (32 * (l % 2)) 32).toNat)

/-! ## Admission (R374) -/

/-- Quotient rounded up. -/
def ceilDiv (a b : Nat) : Nat := (a + b - 1) / b

/-- The refusal code for the contracts of one core, if they are refused (R374). -/
def admitCore (dmax alimit : Nat) (csect : List Nat) (l : List Contract) : Option Nat :=
  let c (x : Contract) := x.budget.toNat
  let t (x : Contract) := x.period.toNat
  let d (x : Contract) := x.deadline.toNat
  if l.any fun x => c x == 0 || t x == 0 || d x == 0 || decide (c x > d x) then some 4
  else if l.foldl (fun n x => n + ceilDiv (65536 * c x) (t x)) 0 > alimit then some 1
  else
    let lrt := ceilDiv (2 * dmax * 2086) 35 + 8
    l.foldl (fun r i =>
      if r.isSome then r
      else if l.any fun j => decide (d j < d i) && decide (j.prio.toNat < i.prio.toNat) then some 3
      else
        let b := ceilDiv (2 * dmax * ((csect.take i.prio.toNat).foldl Nat.max 0)) 35
        let held := l.foldl (fun n j =>
          if j.idx ≠ i.idx ∧ i.prio.toNat ≤ j.prio.toNat then n + ceilDiv (d i) (t j) * c j else n) 0
        if c i + b + lrt + held > d i then some 2 else none) none

/-- The contracts of a stage that name core index i. -/
def Stage.contractsAt (g : Stage) (i : Nat) : List Contract :=
  g.contracts.filter fun c => decide (c.cfirst.toNat ≤ i) && decide (i < c.cfirst.toNat + c.ccount.toNat)

/-- The code with which a contract table is refused: that of the first core that fails (R374). -/
def Stage.admission (g : Stage) (r : RegInfo) : Option Nat :=
  (upFrom 0 g.ncores).foldl (fun x i =>
    if x.isSome then x else admitCore r.dmax.toNat r.alimit.toNat g.csect (g.contractsAt i)) none

/-! ## The whole tree (R365) -/

/-- What the checks find. -/
structure TreeInfo where
  region : Region
  info : RegInfo
  root : BitVec 56
  rootInfo : RegInfo
  stages : List Stage
  seed : Word
  /-- effective values of the launch, and its own cores and power fields -/
  eff : Eff
  fcores : BitVec 19
  fpower : BitVec 16
  deriving DecidableEq, Repr

/-- Cores bound to stages that p admits, with those of saved contexts. -/
def State.boundBy (s : State) (p : Binding → Bool) : Nat :=
  (s.cores.filter fun (e : Nat × Core) => e.2.binding.any p).length +
    (s.saved.filter fun (x : Saved) => x.current && x.binding.any p).length

/-- Cores bound to a region's stages. -/
def State.boundIn (s : State) (r : Region) : Nat :=
  s.boundBy fun b => b.region == r

/-- Nodes read one after another, with their addresses. -/
def State.readRcbs (s : State) (die : BitVec 4) : List (BitVec 56) → Tree (List (BitVec 56 × List Word))
  | [] => .ok []
  | a :: r => do
    let w ← s.readRcb die a
    let l ← State.readRcbs s die r
    .ok ((a, w) :: l)

/-- Every item of a list passes. -/
def eachItem {α : Type} (f : α → Tree Unit) : List α → Tree Unit
  | [] => .ok ()
  | x :: r => do
    f x
    eachItem f r

/-- A channel table's entries; what is reserved in them is ignored (R9). -/
def State.readChans (s : State) (die : BitVec 4) (w : List Word) : Tree (List Chan) := do
  let at_ : BitVec 56 := bits (wordAt w 11) 0 56
  if at_ = 0 then .ok []
  else
    let l ← s.treeWords die at_.toNat ((bits (wordAt w 11) 56 5).toNat + 1)
    .ok (l.map chanOf)

/-- A stage with its tables: checks 2 and the reading for 3 and 6. -/
def State.readStage (s : State) (die : BitVec 4) (e : Eff) (a : BitVec 56) (w : List Word) : Tree Stage := do
  let eff := rcbEff w e
  let g := stageOf a w eff
  let v ← s.treeWords die g.vtab.toNat 256
  expect (((upFrom 0 256).zip v).all fun p => vectorOk eff.pceil p.1 p.2) a
  let chans ← s.readChans die w
  .ok { g with chans }

/-- Stages with their tables. -/
def State.readStages (s : State) (die : BitVec 4) (e : Eff) : List (BitVec 56 × List Word) → Tree (List Stage)
  | [] => .ok []
  | (a, w) :: r => do
    let g ← s.readStage die e a w
    let l ← State.readStages s die e r
    .ok (g :: l)

/-- Check 6 (R365), stage by stage: the contract tables read and admitted. -/
def State.admitStages (s : State) (die : BitVec 4) (info : RegInfo) :
    List (Stage × BitVec 56) → Tree (List Stage)
  | [] => .ok []
  | (g, a) :: r => do
    let (contracts, csect) ← s.readContracts die g a
    let g := { g with contracts, csect }
    match g.admission info with
    | some k => .error { cause := 0x0A, addr := g.rcb.setWidth 64, progress := BitVec.ofNat 64 k, unread := false }
    | none => do
      let l ← State.admitStages s die info r
      .ok (g :: l)

/-- The checks of R365 in their order. -/
def State.checkTree (s : State) (die : BitVec 4) (rcb : BitVec 56) : Tree TreeInfo := do
  let lw ← s.readRcb die rcb
  let list ← s.treeWords die (bits (wordAt lw 6) 0 56).toNat ((bits (wordAt lw 7) 0 4).toNat + 1)
  let nodes ← s.readRcbs die (list.map fun (x : Word) => bits x 0 56)
  eachItem (fun p => expect (stageOk p.2 rcb) p.1) nodes
  expect (rcbIs lw 3) rcb
  let ra := rcbParent lw
  let rw_ ← s.readRcb die ra
  expect (rcbIs rw_ 2 && bits (wordAt rw_ 6) 0 16 != 0) ra
  let pa := rcbParent rw_
  let pw ← s.readRcb die pa
  expect (rcbIs pw 1) pa
  let root := rcbParent pw
  let tw ← s.readRcb die root
  expect (rcbIs tw 0 && rcbParent tw == 0 && bits (wordAt tw 1) 0 9 == 0x1FF) root
  let rootEff := rcbEff tw Eff.none
  let pEff := rcbEff pw rootEff
  let regEff := rcbEff rw_ pEff
  let info := regInfoOf rw_ pw regEff pa pEff rootEff
  let eff := rcbEff lw regEff
  let gs ← s.readStages die eff nodes
  let n := gs.length
  eachItem (fun p => expect (p.2.chansOk n p.1) p.2.rcb) ((upFrom 0 n).zip gs)
  let edges := gs.flatMap fun (g : Stage) => g.chans.map fun (c : Chan) => (c.src, c.dst)
  expect ((peel edges n (upFrom 0 n)).isEmpty) rcb
  eachItem (fun (g : Stage) => expect g.shapeOk g.rcb) gs
  let want := gs.foldl (fun k (g : Stage) => k + g.ncores) 0
  if want + s.boundIn ra > regEff.cores.toNat then refuse 0x0A rcb
  else
    let gs ← s.admitStages die info (gs.zip (nodes.map fun p => bits (wordAt p.2 12) 0 56))
    .ok { region := ra, info, root, rootInfo := regInfoOf [] [] rootEff 0 rootEff rootEff, stages := gs, seed := wordAt lw 8, eff,
          fcores := bits (wordAt lw 2) 0 19, fpower := bits (wordAt lw 4) 40 16 }

/-! ## Prediction (R326, R380) -/

/-- The predicted count of a shaped launch. -/
def Slot.predict (k : Slot) (nmin nmax : BitVec 32) : BitVec 32 :=
  let v1 := k.v1.toNat
  let v2 := k.v2.toNat
  let p := match k.policy.toNat with
    | 0 => v1
    | 1 => 2 * v1 - v2
    | _ => Nat.max (Nat.max v1 v2) (Nat.max k.v3.toNat k.v4.toNat)
  BitVec.ofNat 32 (Nat.min (Nat.max p nmin.toNat) nmax.toNat)

/-- The slot as a launch's acceptance leaves it: its policy, cleared for another domain. -/
def Slot.take (k : Slot) (dom : BitVec 16) (policy : BitVec 2) : Slot :=
  if k.dom = dom then { k with policy } else { v1 := 0, v2 := 0, v3 := 0, v4 := 0, policy, dom }

/-- The slot with a resolved count recorded. -/
def Slot.note (k : Slot) (n : BitVec 32) : Slot := { k with v4 := k.v3, v3 := k.v2, v2 := k.v1, v1 := n }

/-- A slot of a sector's service core changed. -/
def State.updSlot (s : State) (x : BitVec 6) (i : BitVec 6) (f : Slot → Slot) : State :=
  s.updSector x fun k => { k with slots := k.slots.set i.toFin (f (k.slots.get i.toFin)) }

/-- The count in a shape word (R328). -/
def shapeCount (w : Word) : BitVec 32 := BitVec.ofNat 32 (Nat.min w.toNat 0xFFFFFFFF)

/-! ## The front end -/

/-- A launch is handed back: the command has left its engine when the front end took it (R310, R365). -/
def State.refuseLaunch (s : State) (by_ : Issuer) (succ : Succ) (f : TreeFault) : State :=
  let s := if f.unread then s.machineCheck (dieOf by_.core) 0x03 0 f.addr by_.region else s
  s.handback by_ 4 f.cause succ f.addr f.progress

/-- The regions that the part knows, with one as read now. -/
def putRegion (l : List (Region × RegInfo)) (r : Region) (i : RegInfo) : List (Region × RegInfo) :=
  (r, i) :: l.filter fun e => e.1 != r

/-- The launch as the front end takes it, its count not yet predicted. -/
def TreeInfo.launch (t : TreeInfo) (id : Nat) (x : BitVec 6) (by_ : Issuer) (succ : Succ) (r : LaunchRec) : Launch :=
  { id, by_, succ, record := r, sector := x, region := t.region, partition := t.info.partition, fill := none,
    dom := t.info.dom, tickets := t.info.tickets, qlevel := t.info.qlevel, dmax := t.info.dmax, stages := t.stages,
    seed := t.seed, provq := t.eff.provq, eff := t.eff, fcores := t.fcores, fpower := t.fpower, checked := true, bound := false, released := false, pred := r.nmin,
    count := some r.nmin, issued := 0, ended := [], done := false, blocked := 0, target := none }

/-- The launch enters the queue of its sector, or the weir (R377): none when the region's ring is full. -/
def State.queueLaunch (s : State) (l : Launch) : Option State :=
  let s := { s with launches := s.launches ++ [l] }
  if (s.sector l.sector).launchQ.length < 16 ∧ !s.weirHas (.launch l.sector) then
    some (s.updSector l.sector fun k => { k with launchQ := k.launchQ ++ [l.id] })
  else s.weirAdd (.launch l.sector) (some l.region) (.launch l.id) l.by_.core

/-- The type-0x06 message of a resolved shape (R329). -/
def State.tellShape (s : State) (l : Launch) (n : BitVec 32) : State :=
  s.postOwn 0x06 7 0 l.by_.lid [n.setWidth 64, l.pred.setWidth 64] 0

/-- Every allocation tied to the launch is trimmed to n slots, and charged so many (R317, R329). -/
def State.trimTied (s : State) (l : Launch) (n : Nat) : State :=
  (s.allocs.filter fun (x : Alloc) => x.tied == some l.id).foldl (fun (s : State) x =>
    let k := Nat.min x.size (n * x.slot)
    let s := s.trimAlloc (dieOf l.by_.core) x k
    { s with allocs := s.allocs.map fun (y : Alloc) =>
        if y.region = x.region ∧ y.base = x.base then { y with charge := k, tied := none } else y }) s

/-- A launch that passed the checks is predicted or resolved, and queued (R326): none when it must wait. -/
def State.acceptLaunch (s : State) (id : Nat) (x : BitVec 6) (by_ : Issuer) (succ : Succ) (r : LaunchRec) (t : TreeInfo) :
    Option State :=
  let s := { s with regions := putRegion (putRegion s.regions t.root t.rootInfo) t.region t.info }
  let l := t.launch id x by_ succ r
  if r.shapew = 0 then s.queueLaunch l
  else
    match liftEng (s.checkGlobal by_.core by_.dom (by_.level == 7) by_.region r.shapew.toNat true false true) with
    | .error (s, f) => some (s.handback by_ 4 f.cause succ f.addr 0)
    | .ok (s, a) =>
      let p := s.spot by_.dom a.loc
      if s.spotPoison p then some (s.handback by_ 4 0x0D succ (r.shapew.setWidth 64) 0)
      else
        let s := s.updSlot x r.slot fun k => k.take l.dom r.policy
        if s.spotFull p then
          let n := shapeCount (s.spotData p by_.dom)
          let l := { l with count := some n, pred := BitVec.ofNat 32 (Nat.max n.toNat r.nmin.toNat) }
          (s.queueLaunch l).map fun s => (((s.trimTied l n.toNat).tellShape l n).updSlot x r.slot fun k => k.note n)
        else
          let k := (s.sector x).slots.get r.slot.toFin
          let p := k.predict r.nmin r.nmax
          s.queueLaunch { l with count := none, pred := p }

/-- The lines that the checks of a launch's tree read, as those reads leave them (R83, R401): the nodes from the stages to the root, the
stage list, and the tables of each stage. -/
def State.touchTree (s : State) (die : BitVec 4) (rcb : BitVec 56) : State :=
  let words (va n : Nat) : List Word := (s.partWords die va n).getD []
  let lw := words rcb.toNat 16
  let n := (bits (wordAt lw 7) 0 4).toNat + 1
  let list := (bits (wordAt lw 6) 0 56).toNat
  let rw_ := words (rcbParent lw).toNat 16
  let pw := words (rcbParent rw_).toNat 16
  let nodes := (words list n).flatMap fun x =>
    let w := words (bits x 0 56).toNat 16
    [((bits x 0 56).toNat, 16), ((bits (wordAt w 6) 0 56).toNat, 256),
     ((bits (wordAt w 11) 0 56).toNat, if bits (wordAt w 11) 0 56 = 0 then 0 else (bits (wordAt w 11) 56 5).toNat + 1),
     ((bits (wordAt w 12) 0 56).toNat, if bits (wordAt w 12) 0 56 = 0 then 0 else 40)]
  ([(rcb.toNat, 16), (list, n), ((rcbParent lw).toNat, 16), ((rcbParent rw_).toNat, 16), ((rcbParent pw).toNat, 16)] ++ nodes).foldl
    (fun (s : State) p => s.partTouch die p.1 p.2) s

/-- LAUNCH_FRONT_END_CHECK: the front end of a sector takes the oldest `launch` of its cores, checks the tree and queues the
launch, or hands it back (R365). While its queue's weir ring is full the command waits in its engine. -/
def execLaunchFrontEndCheck (sector : BitVec 6) (s : State) : Out :=
  match s.oldestRem fun n op => sectorOf n == sector && (match op with | .launch _ => true | _ => false) with
  | none => .next s
  | some (n, q) =>
    match q.op with
    | .launch r =>
      let t := s.releaseDie (dieOf n)
      let taken (t : State) : State := (t.popRem n q.id).endCmd n q.by_.lid 2 false
      match t.checkTree (dieOf n) r.rcb with
      | .error f => .next (((taken t).touchTree (dieOf n) r.rcb).refuseLaunch q.by_ q.succ f)
      | .ok info =>
        match ((taken t).touchTree (dieOf n) r.rcb).acceptLaunch q.id sector q.by_ q.succ r info with
        | some t => .next t
        | none => .next s
    | _ => .next s

end Sys2Proof.Machine
end

