-- ==== Sys2Proof/Machine/Dispense.lean ====
section
/-! DEFINITION. The block dispensers: withholding (R442, R443), binding (R367), the rounds with their lottery and gangs
(R369 to R372), releasing stages (R368) and unbinding (R367). -/

namespace Sys2Proof.Machine

/-! ## Withholding (R442, R443) -/

/-- Core i of a block. -/
def coreIn (blk : BitVec 10) (i : Nat) : CoreId := blk ++ BitVec.ofNat 8 i

/-- The cores of a block, in ascending physical order. -/
def blockCores (blk : BitVec 10) : List CoreId := (upFrom 0 256).map (coreIn blk)

/-- The temperature hold of core n as this round finds it. -/
def State.hotNow (s : State) (n : CoreId) : Bool :=
  let k := s.cluster (clusterOf n)
  let t := (k.temp.get (slotOf n).toFin).toNat
  decide (k.tlim.toNat ≤ t) || ((s.core n).withheld && decide (k.tlim.toNat < t + k.hyst.toNat))

/-- The power that core n reports over the last round, in units of 0.125 W: the spec does not state it. -/
def State.powerReport (s : State) (n : CoreId) : Nat := (Config.freeWord s.free n.toNat).toNat

/-- A region's share of power in a block (R442). -/
def State.powerShare (s : State) (r : Region) (here : Nat) : Nat :=
  let all := (s.cores.filter fun (e : Nat × Core) => e.2.bound_ == some r).length
  match s.infoOf r with
  | some i => i.eff.power.toNat * here / Nat.max all 1
  | none => 0

/-- The power hold of core n, of a region whose cores in the block are given, as this round finds it. -/
def State.overNow (s : State) (r : Region) (cores : List CoreId) (n : CoreId) : Bool :=
  let share := s.powerShare r cores.length
  let used := cores.foldl (fun k m => k + s.powerReport m) 0
  let c := s.core n
  if used > share then c.overPower || c.isIdle
  else c.overPower && decide (8 * used > 7 * share)

/-- A dispenser finds which cores it withholds (R442). -/
def State.refreshHolds (s : State) (blk : BitVec 10) : State :=
  let s' := (blockCores blk).foldl (fun (t : State) n =>
    let hot := s.hotNow n
    let most := match (s.core n).bound_ with
      | some r => s.overNow r ((blockCores blk).filter fun m => (s.core m).bound_ == some r) n
      | none => false
    if hot = (s.core n).withheld ∧ most = (s.core n).overPower then t
    else t.updCore n fun c => { c with withheld := hot, overPower := most }) s
  { s' with free := s'.free + 1 }

/-- The condition of R442 holds for core n. -/
def State.heldBack (s : State) (n : CoreId) : Bool :=
  let g := (s.cluster (clusterOf n)).gstate
  (s.core n).withheld || (s.core n).overPower || g == 1 || g == 3

/-- The stage to which core n is bound. -/
def State.stageAt (s : State) (b : Binding) : Option (Launch × Stage) :=
  match s.launches.find? fun (l : Launch) => l.id == b.launch with
  | some l => (l.stages[b.stage]?).map fun g => (l, g)
  | none => none

/-- A gang stage is bound under a barrier: its cores have arrived at one (R443). -/
def State.barred (s : State) (launch stage : Nat) : Bool := s.gangBars.any fun x => x.1 == launch && x.2.1 == stage

/-- Core n is withheld: the cores of a gang bound under a barrier as one unit (R443). -/
def State.withholds (s : State) (n : CoreId) : Bool :=
  match (s.core n).binding with
  | some b => if s.barred b.launch b.stage then s.gangHeld.contains (b.launch, b.stage) else s.heldBack n
  | none => s.heldBack n

/-! ## Binding (R367) -/

/-- The context that core n has saved, or waits to load, is bound: the stage holds the core until the context is loaded (R352,
R448). -/
def State.contextBound (s : State) (n : CoreId) : Bool :=
  let c := s.core n
  s.saved.any fun (x : Saved) => x.current && x.binding.isSome && (c.savedLid == some x.lid || c.loading == some x.lid)

/-- The core is free: some present LID names it, it is unbound, and it is not withheld (R369); it is not off (R15). -/
def State.freeCore (s : State) (n : CoreId) : Bool :=
  s.named n && s.powered n && (s.core n).binding.isNone && !s.contextBound n && !s.withholds n

/-- No frame of levels 0 to 6 stands on the core: binding may begin (R30, R367). -/
def Core.idleBelow (c : Core) : Bool := (upFrom 0 7).all fun l => !(c.bank (BitVec.ofNat 3 l)).live

/-- The LID by which the remap table names core n; its own number stands for a core that no entry names. -/
def State.lidOf (s : State) (n : CoreId) : CoreId :=
  match (s.die (dieOf n)).remap.find? fun e => e.2.present && e.2.phys == bits n 0 14 with
  | some e => dieOf n ++ BitVec.ofNat 14 e.1
  | none => n

/-- Queue registers of a stage's cores as binding programs them (R366, R367 step 4); core i sends to receiver i mod ncores. -/
def queuesOf (g : Stage) (k : Nat) (i : Nat) (recv : Nat → List CoreId) : Vector QueueReg 8 :=
  let v := (upFrom 0 8).foldl (fun (v : Vector QueueReg 8) j =>
    if g.sqset.getLsbD j then v.setIfInBounds j { QueueReg.reset with kind := 3, level := g.sqlevel } else v)
    (.replicate 8 QueueReg.reset)
  g.chans.foldl (fun (v : Vector QueueReg 8) c =>
    let v := if c.src = k then
        let to_ := recv c.dst
        v.set c.sq.toFin { QueueReg.reset with kind := 2, level := c.level, chan := c.chan, allow := c.allow,
                                               peer := (to_[i % to_.length]?).getD 0, peerQ := c.rq }
      else v
    if c.dst = k then v.set c.rq.toFin { QueueReg.reset with kind := 1, level := c.level, chan := c.chan } else v) v

/-- The images that binding reads: vector table with page map, named area, d registers (R363). -/
structure Images where
  vtab : List Word
  named : List Word
  dimg : List Word
  deriving DecidableEq, Repr

/-- The images of a stage: an address that cannot be read is answered instead. -/
def State.readImages (s : State) (die : BitVec 4) (g : Stage) : Tree Images := do
  let vtab ← s.treeWords die g.vtab.toNat 320
  let named ← s.treeWords die g.named.toNat (g.slim.toNat / 8)
  let dimg ← s.treeWords die g.dimg.toNat 8
  .ok { vtab, named, dimg }

/-- What a bound core's registers and TCM are, for a later reset (R446). -/
def Core.freshNow (c : Core) : Fresh :=
  { dom := c.dom, vbase := c.vbase, slim := c.slim, ceil := c.ceil, wdog := c.wdog, seed := c.seed, sctr := c.sctr, d := c.d, q := c.q,
    tcm := c.tcm }

/-- Steps 1 to 5 of binding on one core (R367), which also leaves no arrival of levels 0 to 6 held, and the epilogue buffers free
(R352); what depends on the whole stage follows when it is bound. A frame of level 7, which reserves no stack space (R32), goes on (log entry 18). -/
def Core.bound (c : Core) (g : Stage) (l : Launch) (k : Nat) (im : Images) : Core :=
  let d := { c with dom := l.dom, vbase := g.vbase, slim := g.slim, ceil := g.ceil, wdog := g.eff.wdog, seed := l.seed, sctr := 0 }.cleared
  let own := c.supervisorEntries
  let bytes (w : List Word) : List Byte := w.flatMap fun x => splitBytes 8 x.toNat
  let d := (upFrom 0 7).foldl (fun (d : Core) l => d.setHeld (BitVec.ofNat 3 l) []) d
  let d := { d with sp := g.vbase, svec := own, hprog := 0, hpc := 0, savedLid := none, holds := false, wasReset := false,
                    tcm := (d.tcm.write 0 (bytes im.named)).write g.vbase.toNat (bytes (own.toList ++ im.vtab.drop 32)),
                    d := (upFrom 0 8).foldl (fun v i => v.setIfInBounds i (wordAt im.dimg i)) d.d,
                    plb := .replicate 16 PlbEntry.reset, budgets := [] }
  { d with binding := some { launch := l.id, stage := k, stageRcb := g.rcb, region := l.region, partition := l.partition,
                             idx := 0, contracts := [], fresh := d.freshNow, plbDone := false } }

/-- A launch changed, by number. -/
def State.updLaunch (s : State) (id : Nat) (f : Launch → Launch) : State :=
  { s with launches := s.launches.map fun (l : Launch) => if l.id = id then f l else l }

/-- The arrivals of levels 0 to 6 that the weir holds for a LID are gone, and their pending bits with them (R44, R367). -/
def State.dropHeld (s : State) (lid : CoreId) : State :=
  s.dropWeir fun e => match e.queue with
    | .inbox x p => x == lid && p != 7
    | _ => false

/-- Core n is bound to stage k of a launch (R367): its swarm, pinned pages and waiting entries are gone, and its instruction cache
is invalidated (R172, R214, R352). A context of its LID that was saved and never loaded is that of the LID no more. -/
def State.bindCore (s : State) (n : CoreId) (l : Launch) (g : Stage) (k : Nat) (im : Images) : State :=
  let lid := s.lidOf n
  let s := ((((s.detachFollowers n).unpin n).dropTcmMoorings n).dropHeld lid)
  let s := { s with saved := s.saved.map fun (x : Saved) => if x.lid = lid then { x with current := false } else x }
  ((s.updCore n fun c => c.bound g l k im).invalidateCode n).updLaunch l.id fun (x : Launch) =>
    { x with stages := updAt (fun (y : Stage) => { y with cores := y.cores ++ [n] }) x.stages k }

/-- Cores in ascending order of their LIDs. -/
def State.byLid (s : State) (l : List CoreId) : List CoreId :=
  l.foldl (fun (r : List CoreId) n =>
    r.takeWhile (fun m => decide ((s.lidOf m).toNat < (s.lidOf n).toNat)) ++ [n] ++
      r.dropWhile fun m => decide ((s.lidOf m).toNat < (s.lidOf n).toNat)) []

/-- Entries of 4 bytes stored by the part from va on. -/
def State.partEntries (s : State) (die : BitVec 4) : Nat → List (BitVec 32) → Option State
  | _, [] => some s
  | va, x :: r =>
    match s.partStore4 die va x with
    | some s => State.partEntries s die (va + 4) r
    | none => none

/-- The core table written by the part: one 4-byte entry each, and nothing else (R363). -/
def State.writeTable (s : State) (die : BitVec 4) (g : Stage) (lids : List CoreId) : Option State :=
  s.partEntries die g.ctab.toNat (lids.map fun n => n.setWidth 32)

/-- The stream counters of n cores, of the stage's table from its first word (R363, R367). -/
def State.readSctr (s : State) (die : BitVec 4) (g : Stage) (n : Nat) : Tree (List Word) :=
  if g.sctr = 0 then .ok (List.replicate n 0) else s.treeWords die g.sctr.toNat n

/-- The core table of a stage whose cores are all bound is written, and each core gets its index, stream counter, contracts and locked
lines (R360, R363, R367). An address that the part cannot access is answered instead, and nothing is done (R392). -/
def State.sealStage (s : State) (l : Launch) (k : Nat) (g : Stage) : Except Word State := do
  let cores := s.byLid g.cores
  let die := dieOf l.by_.core
  let sctr ← match s.readSctr die g cores.length with
    | .ok w => .ok w
    | .error f => .error f.addr
  let s ← match s.writeTable die g (cores.map s.lidOf) with
    | some t => .ok t
    | none => .error (g.ctab.setWidth 64)
  let s := s.updLaunch l.id fun (x : Launch) =>
    { x with stages := updAt (fun (y : Stage) => { y with cores }) x.stages k }
  .ok (((upFrom 0 cores.length).zip cores).foldl (fun (s : State) p =>
    let mine := g.contractsAt p.1
    (s.updCore p.2 fun c =>
      { c with sctr := wordAt sctr p.1
               binding := c.binding.map fun b => { b with idx := p.1, contracts := mine, fresh := { b.fresh with sctr := wordAt sctr p.1 } }
               budgets := mine.map fun x => { idx := x.idx, count := 0, overrun := false, throttled := false } }).invalidateCode
        p.2) s)

/-- A launch whose stages are all bound: its channels are programmed, and it leaves its sector's queue (R366, R365). -/
def State.sealLaunch (s : State) (id : Nat) : State :=
  match s.launches.find? fun (l : Launch) => l.id == id with
  | none => s
  | some l =>
    if !l.bound ∧ l.stages.all (fun (g : Stage) => g.cores.length == g.ncores) then
      let recv (k : Nat) : List CoreId := match l.stages[k]? with
        | some g => g.cores.map s.lidOf
        | none => []
      let s := ((upFrom 0 l.stages.length).zip l.stages).foldl (fun (s : State) p =>
        ((upFrom 0 p.2.cores.length).zip p.2.cores).foldl (fun (s : State) q =>
          s.updCore q.2 fun c =>
            let regs := queuesOf p.2 p.1 q.1 recv
            { c with q := regs, binding := c.binding.map fun b => { b with fresh := { b.fresh with q := regs } } }) s) s
      let s := s.updLaunch id fun (x : Launch) => { x with bound := true }
      s.updSector l.sector fun k => { k with launchQ := k.launchQ.filter fun i => i != id }
    else s

/-- Cores of a stage still to bind. -/
def Stage.wants (g : Stage) : Nat := g.ncores - g.cores.length

/-- The stage as its RCB gives it when it binds (R363): the checks have fixed how many cores it takes and how, its queue registers and its
contracts. Where the RCB cannot be read, or is malformed, its address is answered (R392). -/
def State.rereadStage (s : State) (l : Launch) (g : Stage) : Tree Stage := do
  let w ← s.readRcb (dieOf l.by_.core) g.rcb
  expect (stageOk w l.record.rcb) g.rcb
  .ok { stageOf g.rcb w (rcbEff w l.eff) with
          ncores := g.ncores, walk := g.walk, ring := g.ring, gang := g.gang, sqset := g.sqset, sqlevel := g.sqlevel,
          contracts := g.contracts, chans := g.chans, csect := g.csect, cores := g.cores }

/-- The lines that binding a stage reads, as those reads leave them (R83, R401). -/
def State.touchImages (s : State) (die : BitVec 4) (g : Stage) : State :=
  [(g.rcb.toNat, 16), (g.vtab.toNat, 320), (g.named.toNat, g.slim.toNat / 8), (g.dimg.toNat, 8),
   (g.sctr.toNat, if g.sctr = 0 then 0 else g.ncores)].foldl (fun (s : State) p => s.partTouch die p.1 p.2) s

/-- Cores are bound to stage k of a launch, none of them when an image or table cannot be accessed (R392). -/
def State.bindCores (s : State) (id k : Nat) (cores : List CoreId) : State × Bool :=
  match s.launches.find? fun (l : Launch) => l.id == id with
  | none => (s, false)
  | some l =>
    match l.stages[k]? with
    | none => (s, false)
    | some g =>
      if cores.isEmpty then (s, false)
      else
        let read : Tree (Stage × Images) := do
          let g ← s.rereadStage l g
          let im ← s.readImages (dieOf l.by_.core) g
          .ok (g, im)
        match read with
        | .error f => (s.machineCheck (dieOf l.by_.core) 0x03 0 f.addr (some l.region), false)
        | .ok (g, im) =>
          let s := (s.touchImages (dieOf l.by_.core) g).updLaunch id fun (x : Launch) =>
            { x with stages := updAt (fun _ => g) x.stages k }
          let t := cores.foldl (fun (s : State) n => s.bindCore n l g k im) s
          if g.cores.length + cores.length = g.ncores then
            match t.sealStage l k { g with cores := g.cores ++ cores } with
            | .ok t => (t.sealLaunch id, true)
            | .error a => (s.machineCheck (dieOf l.by_.core) 0x03 0 a (some l.region), false)
          else (t.sealLaunch id, true)

/-! ## What a stage can take in a block -/

/-- The free cores of a block. -/
def State.freeIn (s : State) (blk : BitVec 10) : List CoreId := (blockCores blk).filter s.freeCore

/-- The free cores of a block on which binding may begin now. -/
def State.readyIn (s : State) (blk : BitVec 10) : List CoreId :=
  (s.freeIn blk).filter fun n => (s.core n).idleBelow

/-- Some core is bound to a stage of the launch. -/
def Launch.isBound (l : Launch) : Bool := l.stages.any fun (g : Stage) => !g.cores.isEmpty

/-- What the bound children of a node, with those of one more, ask for stays within what the node has (R364). -/
def within (others : List (BitVec 19 × BitVec 16)) (mine : BitVec 19 × BitVec 16) (cores : BitVec 19) (power : BitVec 16) : Bool :=
  decide (others.foldl (fun n x => n + x.1.toNat) mine.1.toNat ≤ cores.toNat) &&
    decide (others.foldl (fun n x => n + x.2.toNat) mine.2.toNat ≤ power.toNat)

/-- The other regions of a partition, or of the whole tree, to whose launches cores are bound. -/
def State.boundRegions (s : State) (r : Region) : List RegInfo :=
  (s.regions.filter fun e => e.1 != r && s.launches.any fun (l : Launch) => l.region == e.1 && l.isBound).map (·.2)

/-- A stage may be bound beside its bound siblings: at every node above it the sums of the cores fields and of the power fields of the
bound children stay within the node's own (R364). What happens otherwise the rule does not say: the stage waits (log entry 18). -/
def State.fitsTree (s : State) (l : Launch) (g : Stage) : Bool :=
  let stages := (l.stages.filter fun (x : Stage) => x.rcb != g.rcb && !x.cores.isEmpty).map fun x => (x.fcores, x.fpower)
  within stages (g.fcores, g.fpower) l.eff.cores l.eff.power &&
    match s.infoOf l.region with
    | none => true
    | some i =>
      let launches := (s.launches.filter fun (x : Launch) => x.region == l.region && x.id != l.id && x.isBound).map
        fun x => (x.fcores, x.fpower)
      let regions := s.boundRegions l.region
      let mine := (regions.filter fun (x : RegInfo) => x.partition == i.partition).map fun x => (x.fcores, x.fpower)
      let parts := regions.foldl (fun (r : List (BitVec 56 × BitVec 19 × BitVec 16)) (x : RegInfo) =>
        if x.partition = i.partition ∨ r.any (fun y => y.1 == x.partition) then r else r ++ [(x.partition, x.pfcores, x.pfpower)]) []
      within launches (l.fcores, l.fpower) i.eff.cores i.eff.power && within mine (i.fcores, i.fpower) i.pcores i.ppower &&
        within (parts.map (·.2)) (i.pfcores, i.pfpower) i.rcores i.rpower

/-- Cores that a stage of a launch may still bind: what its own node, its launch, region, partition and root may hold bound at once
leaves (R363); none while the tree has no room for it (R364). -/
def State.slack (s : State) (l : Launch) (g : Stage) : Nat :=
  if !s.fitsTree l g then 0
  else
  let own := g.eff.cores.toNat - g.cores.length
  let launch := l.eff.cores.toNat - s.boundBy fun b => b.launch == l.id
  match s.infoOf l.region with
  | some i =>
    [launch, i.eff.cores.toNat - s.boundIn l.region, i.pcores.toNat - s.boundBy fun b => b.partition == l.partition,
     i.rcores.toNat - s.boundBy fun _ => true].foldl Nat.min own
  | none => Nat.min own launch

/-- Whole clusters among free cores: a ring stage takes nothing less (R271, R363). -/
def wholeClusters (l : List CoreId) : List CoreId :=
  l.filter fun n => (upFrom 0 16).all fun i => l.contains (coreOf (clusterOf n) i)

/-- The cores that stage g can take among free ones, at most room of them, outside the gang rule. -/
def Stage.take (g : Stage) (free : List CoreId) (room : Nat) : List CoreId :=
  let n := Nat.min g.wants room
  if g.gang then [] else if g.ring then (wholeClusters free).take (n / 16 * 16) else free.take n

/-- The launches in the front ends' queues, in the order of acceptance. -/
def State.waiting (s : State) : List Launch :=
  s.launches.filter fun (l : Launch) => !l.bound && ((s.sector l.sector).launchQ.contains l.id)

/-- A launch binds the unbound cores of those of its stages that p admits, as far as the block's free cores allow. -/
def State.bindStages (s : State) (blk : BitVec 10) (id : Nat) (p : Stage → Bool) : Nat → State × Bool
  | 0 => (s, false)
  | k + 1 =>
    let (s, any) := State.bindStages s blk id p k
    match (s.launches.find? fun (l : Launch) => l.id == id).bind fun (l : Launch) => (l.stages[k]?).map fun g => (l, g) with
    | some (l, g) =>
      if p g ∧ 0 < g.wants then
        let (s, b) := s.bindCores id k (g.take (s.readyIn blk) (s.slack l g))
        (s, any || b)
      else (s, any)
    | none => (s, any)

/-- A contract stage (R370). -/
def Stage.contracted (g : Stage) : Bool := !g.contracts.isEmpty

/-! ## Queues and the lottery (R371) -/

/-- The regions of waiting launches at a level, in region order: R371 does not say what order that is, and the model takes the ascending
order of the addresses of their RCBs (DESIGN CHOICE, log entry 28). -/
def State.queuesAt (s : State) (level : Nat) : List Region :=
  s.waiting.foldl (fun (r : List Region) (l : Launch) =>
    if l.qlevel.toNat ≠ level ∨ r.contains l.region then r
    else r.takeWhile (fun x => decide (x.toNat < l.region.toNat)) ++ [l.region] ++
      r.dropWhile fun x => decide (x.toNat < l.region.toNat)) []

/-- The launch at the head of a region's best-effort queue. -/
def State.headOf (s : State) (r : Region) : Option Launch :=
  s.waiting.find? fun (l : Launch) => l.region == r && l.stages.any fun (g : Stage) => !g.contracted && decide (0 < g.wants)

/-- The first gang stage of a launch that is not bound, one with contracts before the others: its place. -/
def Launch.gangAt (l : Launch) : Option Nat :=
  let due (g : Stage) : Bool := g.gang && decide (0 < g.wants)
  (firstIdx (fun (g : Stage) => due g && g.contracted) l.stages).orElse fun _ => firstIdx due l.stages

/-- The next gang of a launch, with contracts or without: its place and its stage. -/
def Launch.gang (l : Launch) (contracted : Bool) : Option (Nat × Stage) :=
  l.gangAt.bind fun k => (l.stages[k]?).bind fun g => if g.contracted = contracted then some (k, g) else none

/-- The block of a partition with the most free cores, the lowest on a tie (R372). Which blocks a partition has is not stated: it is a free
value of the partition and the block (log entry 18). -/
def State.widestBlock (s : State) (partition : BitVec 56) : BitVec 10 :=
  BitVec.ofNat 10 ((upFrom 0 1024).foldl (fun (b : Nat × Nat) i =>
    let k := (s.freeIn (BitVec.ofNat 10 i)).length
    if k > b.2 ∧ Config.partitionBlock partition (BitVec.ofNat 10 i) then (i, k) else b) (0, 0)).1

/-- A launch whose next gang stands first has a target block (R372). -/
def State.aimLaunch (s : State) (l : Launch) (contracted : Bool) : State :=
  if (l.gang contracted).isSome ∧ l.target.isNone then
    s.updLaunch l.id fun (x : Launch) => { x with target := some (s.widestBlock l.partition) }
  else s

/-- The launch at the head of a region's queue has a target block for its gang (R372). -/
def State.aim (s : State) (r : Region) : State :=
  match s.headOf r with
  | some l => s.aimLaunch l false
  | none => s

/-- The launch can take something in the block: a gang whose target it is, or free cores for a plain stage. -/
def State.canTake (s : State) (blk : BitVec 10) (l : Launch) : Bool :=
  ((l.gang false).isSome && l.target == some blk) ||
    l.stages.any fun (g : Stage) => !g.contracted && !(g.take (s.readyIn blk) (s.slack l g)).isEmpty

/-- One step of a dispenser's generator. -/
def xorStep (x : BitVec 32) : BitVec 32 :=
  let x := x ^^^ (x <<< 13)
  let x := x ^^^ (x >>> 17)
  x ^^^ (x <<< 5)

/-- The generator run until its low b bits are below t: its state and that number. -/
def drawBelow (t b : Nat) : Nat → BitVec 32 → BitVec 32 × Nat
  | 0, x => (x, 0)
  | k + 1, x =>
    let x := xorStep x
    if x.toNat % 2 ^ b < t then (x, x.toNat % 2 ^ b) else drawBelow t b k x

/-- The least b with 2^b at or above t, counting up from b. -/
def bitsFor (t : Nat) : Nat → Nat → Nat
  | 0, b => b
  | k + 1, b => if t ≤ 2 ^ b then b else bitsFor t k (b + 1)

/-- The queue whose share of the tickets holds r. -/
def ticketAt : List (Nat × Region) → Nat → Option Region
  | [], _ => none
  | (n, q) :: l, r => if r < n then some q else ticketAt l (r - n)

/-- A draw among eligible queues with tickets (R371). -/
def drawQueue (x : BitVec 32) (l : List (Nat × Region)) : BitVec 32 × Option Region :=
  let t := l.foldl (fun n e => n + e.1) 0
  let (x, r) := drawBelow t (bitsFor t 32 0) (2 ^ 32) x
  (x, ticketAt l r)

/-- Lottery tickets of a region. -/
def State.ticketsOf (s : State) (r : Region) : Nat := ((s.infoOf r).map fun i => i.tickets.toNat).getD 0

/-- The free cores of a block from which a gang binds: for a ring stage, those of whole clusters (R271, R372). -/
def State.gangPool (s : State) (blk : BitVec 10) (g : Stage) : List CoreId :=
  if g.ring then wholeClusters (s.readyIn blk) else s.readyIn blk

/-- A gang served in its target block binds all its cores, or the round is a blocked round: one that finds too few free cores. A gang for
which its nodes have no room (R363, R364) waits without one (R372). -/
def State.tryGang (s : State) (blk : BitVec 10) (l : Launch) (contracted : Bool) : State :=
  match l.gang contracted with
  | some (k, g) =>
    if l.target = some blk then
      let free := s.gangPool blk g
      if free.length < g.ncores then s.updLaunch l.id fun (x : Launch) => { x with blocked := x.blocked + 1 }
      else if g.ncores ≤ s.slack l g then
        (s.bindCores l.id k (free.take g.ncores)).1.updLaunch l.id fun (x : Launch) => { x with blocked := 0, target := none }
      else s
    else s
  | none => s

/-- Step 1 of a round: contract stages in the order of their launches' acceptance, a gang of them as R372 binds one (R370). -/
def State.bindContracts (s : State) (blk : BitVec 10) : State :=
  s.waiting.foldl (fun (s : State) (l : Launch) =>
    let s := s.aimLaunch l true
    let s := match s.launches.find? fun (x : Launch) => x.id == l.id with
      | some l => s.tryGang blk l true
      | none => s
    (s.bindStages blk l.id Stage.contracted l.stages.length).1) s

/-- Step 2 of a round at one level: draws until no queue that has not been drawn can take a core. A queue is served once a round, as
in the example of R372. -/
def State.serveLevel (s : State) (blk : BitVec 10) (level : Nat) : Nat → List Region → State
  | 0, _ => s
  | fuel + 1, tried =>
    let s := (s.queuesAt level).foldl State.aim s
    let ok := (s.queuesAt level).filter fun r => !tried.contains r && match s.headOf r with
      | some l => s.canTake blk l
      | none => false
    let rich := (ok.filter fun r => decide (0 < s.ticketsOf r)).map fun r => (s.ticketsOf r, r)
    let (x, q) := if rich.isEmpty then ((s.block blk).x, ok.head?) else drawQueue (s.block blk).x rich
    let s := if rich.isEmpty then s else s.updBlock blk fun k => { k with x }
    match q.bind s.headOf with
    | none => s
    | some l =>
      let s := s.tryGang blk l false
      let s := (s.bindStages blk l.id (fun g => !g.contracted && !g.gang) l.stages.length).1
      State.serveLevel s blk level fuel (l.region :: tried)

/-- The launch whose aged gang holds a block (R372). -/
def State.aged (s : State) (blk : BitVec 10) : Option Launch :=
  s.waiting.find? fun (l : Launch) => l.gangAt.isSome && l.target == some blk && decide (4 ≤ l.blocked)

/-- An aged gang finds too few free cores in the block, and shuts it to everything else (R372). -/
def State.shut (s : State) (blk : BitVec 10) : Bool :=
  match s.aged blk with
  | some l => match (l.gang true).orElse fun _ => l.gang false with
    | some (_, g) => decide ((s.gangPool blk g).length < g.ncores)
    | none => false
  | none => false

/-- Steps 1 and 2 of a round (R369 to R372). -/
def State.bindRound (s : State) (blk : BitVec 10) : State :=
  let s := match s.aged blk with
    | some l => (s.tryGang blk l true).tryGang blk l false
    | none => s
  if s.shut blk then s
  else
    let s := s.bindContracts blk
    [6, 5, 4, 3, 2, 1, 0].foldl (fun (s : State) level =>
      s.serveLevel blk level (s.launches.length + 1) []) s

/-! ## Giving out records (R369 step 3) -/

/-- The arrival is an instance. -/
def Transit.isInst (t : Transit) : Bool :=
  match t.cargo with
  | .message a => a.inst.isSome
  | .channel _ _ _ => false

/-- Core n is open (R369). -/
def State.openCore (s : State) (n : CoreId) : Bool :=
  let c := s.core n
  c.binding.isSome && !s.withholds n &&
    (upFrom 0 7).all (fun l => !((c.bank (BitVec.ofNat 3 l)).live && (c.bank (BitVec.ofNat 3 l)).inst.isSome) &&
      (c.held (BitVec.ofNat 3 l)).all fun a => a.inst.isNone) &&
    c.ni.all (fun t => !t.isInst) &&
    s.weir.all fun e => match e.queue, e.item with
      | .inbox lid _, .arr a => lid != c.lid || a.inst.isNone
      | _, _ => true

/-- The record of a stage with the lowest instance index. -/
def lowestRecord (l : List InstRec) (launch stage : Nat) : Option InstRec :=
  l.foldl (fun (b : Option InstRec) r =>
    if r.launch = launch ∧ r.stage = stage then
      match b with
      | some x => if r.inst.index.toNat < x.inst.index.toNat then some r else some x
      | none => some r
    else b) none

/-- An instance record becomes an arrival on its way to a LID (R36, R369). -/
def State.instTransit (s : State) (r : InstRec) (lid : CoreId) : Transit :=
  { cargo := .message { msg := { r.msg with hdr := putBits r.msg.hdr 36 18 lid.toNat }, inst := some r.inst, contract := none,
                        srcMod := s.modu, resume := none, far := false },
    from_ := none, dstMod := s.modu, dst := lid, held := false, tag := none, back := none, owner := none }

/-- Core n takes the next record of its stage, if it is open. -/
def State.giveRecord (s : State) (blk : BitVec 10) (n : CoreId) : State :=
  match (s.core n).binding with
  | none => s
  | some b =>
    if s.openCore n then
      match lowestRecord (s.block blk).records b.launch b.stage with
      | some r =>
        let s := s.updBlock blk fun k => { k with records := k.records.filter fun (x : InstRec) => x != r }
        s.updCore n fun c => { c with ni := c.ni ++ [s.instTransit r (s.lidOf n)] }
      | none => s
    else s

/-- DISPENSER_ROUND: a round of a block's dispenser (R369). -/
def execDispenserRound (blk : BitVec 10) (s : State) : Out :=
  let s := (s.refreshHolds blk).bindRound blk
  .next ((blockCores blk).foldl (fun (s : State) n => s.giveRecord blk n) s)

/-! ## Releasing (R368) -/

/-- Instances of a launch that its front end has to give out: P, and after resolution those that are not dropped
(R326, R328, R329). -/
def Launch.limit (l : Launch) : Nat :=
  match l.count with
  | none => l.pred.toNat
  | some n => Nat.max n.toNat l.record.nmin.toNat

/-- Record i of a launch's source stage (R325). -/
def Launch.instRec (l : Launch) (g : Stage) (i : Nat) : InstRec :=
  let idx := BitVec.ofNat 32 i
  { launch := l.id, stage := 0
    inst := { id := l.id, walk := false, index := idx, tentative := l.count.isNone && decide (l.record.nmin.toNat ≤ i) }
    msg := { hdr := mkHdr g.itype g.iprio 0 2 l.by_.lid 0, payload := [idx.setWidth 64, l.record.arg] } }

/-- The records of a launch are placed at the dispensers, from the next one on; beyond a dispenser's 256 they go to the weir
(R368, R377). It ends where the weir is full. -/
def State.placeFrom (s : State) (l : Launch) (g : Stage) : Nat → Nat → State
  | 0, _ => s
  | fuel + 1, i =>
    if l.limit ≤ i then s
    else
      let n := (g.cores[i % g.cores.length]?).getD 0
      let blk := blockOf n
      let r := l.instRec g i
      let next : Option State :=
        if (s.block blk).records.length < 256 ∧ !s.weirHas (.records blk) then
          some (s.updBlock blk fun k => { k with records := k.records ++ [r] })
        else s.weirAdd (.records blk) (some l.region) (.record r) l.by_.core
      match next with
      | some s => State.placeFrom (s.updLaunch l.id fun (x : Launch) => { x with issued := i + 1 }) l g fuel (i + 1)
      | none => s

/-- The records that are due are placed, and a launch with nothing left to wait for ends. -/
def State.placeRecords (s : State) (id : Nat) : State :=
  match s.launches.find? fun (l : Launch) => l.id == id with
  | some l =>
    match l.released, l.stages.head? with
    | true, some g =>
      let s := s.placeFrom l g (l.limit - l.issued) l.issued
      match s.launches.find? fun (x : Launch) => x.id == id with
      | some l => s.finishLaunch l
      | none => s
    | _, _ => s
  | none => s

/-- The micro-kernel has written the PLB entries of every core of the launch (R367 step 6). -/
def State.plbReady (s : State) (l : Launch) : Bool :=
  l.stages.all fun (g : Stage) => g.cores.all fun n => ((s.core n).binding.map (·.plbDone)).getD true

/-- STAGE_RELEASE: the stages of a bound launch are released, sink to source, and the source's records placed (R368), once the PLB
entries of its cores are written (R367). -/
def execStageRelease (l : BitVec 32) (s : State) : Out :=
  match s.launches.find? fun (x : Launch) => x.id == l.toNat with
  | some x =>
    if x.bound ∧ s.plbReady x then .next ((s.updLaunch x.id fun (y : Launch) => { y with released := true }).placeRecords x.id)
    else .next s
  | none => .next s

/-! ## Unbinding (R367) -/

/-- The core's engines hold no command. -/
def Core.enginesEmpty (c : Core) : Bool := c.heldCmds 0 == 0 && c.heldCmds 1 == 0 && c.heldCmds 2 == 0

/-- The pages of a domain in a cluster that other cores pin are written back, and stay (R80). -/
def State.cleanPages (s : State) (cl : BitVec 14) (dom : BitVec 16) : State :=
  (upFrom 0 (s.cluster cl).frames.length).foldl (fun (s : State) i =>
    match (s.cluster cl).frames[i]? with
    | some f =>
      if f.dom = dom then
        (s.writePage (bits cl 10 4) f).updFrame cl i fun f => { f with dirty := [], dirtyFe := [], whole := [] }
      else s
    | none => s) s

/-- Unpinned pages of a domain in a cluster are written back and freed, fuel of them at most (R80). -/
def State.dropPages (s : State) (cl : BitVec 14) (dom : BitVec 16) : Nat → State
  | 0 => s
  | k + 1 =>
    match firstIdx (fun (f : Frame) => f.dom == dom && f.pins == 0) (s.cluster cl).frames with
    | some i => State.dropPages (s.evictFrame cl i) cl dom k
    | none => s

/-- Core n is unbound and free: the pages of its stage are written back, and those that no core pins are freed. -/
def State.unbindCore (s : State) (n : CoreId) : State :=
  let s := (s.dropPages (clusterOf n) (s.core n).dom (s.cluster (clusterOf n)).frames.length).cleanPages (clusterOf n) (s.core n).dom
  s.updCore n fun c => { c with binding := none, budgets := [], overPower := false }

/-- A launch may be unbound: its successor is sent and every core is idle with its accepted commands done (R367). -/
def State.mayUnbind (s : State) (l : Launch) : Bool :=
  l.done && l.stages.all fun (g : Stage) => g.cores.all fun n =>
    let c := s.core n
    c.isIdle && c.enginesEmpty && (c.binding.map (·.launch)) == some l.id

/-- The sender of a move of the averaging that is in flight, if its sender or receiver is among LIDs: the move goes back to it (R379). -/
def Transit.returnsTo (t : Transit) (lids : List CoreId) : Option CoreId :=
  match t.cargo with
  | .message a =>
    if hdrType a.msg.hdr = 0x09 ∧ a.inst.isSome ∧ t.dst ≠ hdrSrc a.msg.hdr ∧ (lids.contains t.dst ∨ lids.contains (hdrSrc a.msg.hdr)) then
      some (hdrSrc a.msg.hdr)
    else none
  | .channel _ _ _ => none

/-- Moves in flight from or to cores that begin unbinding go back to their senders, those too that wait at an interface (R379). -/
def State.returnMoves (s : State) (lids : List CoreId) : State :=
  let back (t : Transit) : Option Transit := (t.returnsTo lids).map fun m => { t with dst := m }
  let waiting := s.cores.flatMap fun (e : Nat × Core) => e.2.ni.filterMap back
  { s with net := s.net.map (fun t => (back t).getD t) ++ waiting
           cores := s.cores.map fun (e : Nat × Core) =>
             if e.2.ni.any fun t => (back t).isSome then (e.1, { e.2 with ni := e.2.ni.filter fun t => (back t).isNone }) else e }

/-- The cores of a launch are unbound, and the launch is gone with what its dispensers, the weir and the quays still hold for it
(R367). -/
def State.unbindLaunch (s : State) (x : Launch) : State :=
  let cores := x.stages.flatMap fun (g : Stage) => g.cores
  let lids := cores.map s.lidOf
  let s := cores.foldl State.unbindCore (s.returnMoves lids)
  let s := s.updSector x.sector fun k => { k with launchQ := k.launchQ.filter fun i => i != x.id }
  let s := s.dropWeir fun e => match e.item with
    | .record r => r.launch == x.id
    | .launch id => id == x.id
    | _ => false
  { s with launches := s.launches.filter fun (y : Launch) => y.id != x.id
           gangBars := s.gangBars.filter fun i => i.1 != x.id
           gangHeld := s.gangHeld.filter fun i => i.1 != x.id
           blocks := s.blocks.map fun e => (e.1, { e.2 with records := e.2.records.filter fun (r : InstRec) => r.launch != x.id })
           prov := s.prov.filter fun (p : Prov) => p.launch != x.id }

/-- UNBIND: the cores of a finished launch become free (R367). -/
def execUnbind (l : BitVec 32) (s : State) : Out :=
  match s.launches.find? fun (x : Launch) => x.id == l.toNat with
  | some x => .next (if s.mayUnbind x then s.unbindLaunch x else s)
  | none => .next s

/-- The supervisor unbinds a launch, finished or not: it waits for the accepted commands of its cores' engines (R367). -/
def State.supervisorUnbind (s : State) (l : Nat) : State :=
  match s.launches.find? fun (x : Launch) => x.id == l with
  | some x =>
    if x.stages.all fun (g : Stage) => g.cores.all fun n => (s.core n).enginesEmpty then s.unbindLaunch x else s
  | none => s

/-! ## Gangs as one unit (R443) -/

/-- The barrier whose notice a message is, and the service core it is for. -/
def Transit.notice (t : Transit) : Option (Nat × CoreId) :=
  match t.cargo with
  | .message a => if t.isNotice then some ((a.msg.word 0).toNat, t.dst) else none
  | .channel _ _ _ => none

/-- A gang is withheld as one unit when the condition of R442, as its block's dispenser finds it now, holds for any of its cores (R443). -/
def State.decideGang (s : State) (g : Nat × Nat) : State :=
  match (s.launches.find? fun (x : Launch) => x.id == g.1).bind fun x => x.stages[g.2]? with
  | none => s
  | some st =>
    let s := match st.cores.head? with
      | some n => s.refreshHolds (blockOf n)
      | none => s
    let rest := s.gangHeld.filter fun k => k != g
    { s with gangHeld := if st.cores.any s.heldBack then g :: rest else rest }

/-- GANG_BARRIER_NOTICE: the oldest type-0x07 message to a sector's service core reaches it, and decides whether the gangs bound under its
barrier are withheld (R324, R443). -/
def execGangBarrierNotice (x : BitVec 6) (s : State) : Out :=
  match firstIdx (fun t => (t.notice.map fun p => sectorOf p.2) == some x) s.net with
  | none => .next s
  | some i =>
    let key := ((s.net[i]?).bind Transit.notice).map (·.1)
    let s := { s with net := dropAt s.net i }
    .next ((s.gangBars.filter fun g => key.any fun k => s.barrierAt k g.2.2).foldl (fun (s : State) g => s.decideGang (g.1, g.2.1)) s)

end Sys2Proof.Machine
end

