-- ==== Sys2Proof/Machine/Contracts.lean ====
section
/-! DEFINITION. Contracts and load averaging: period releases and budgets (R375, R376), neighbours' load figures (R379). -/

namespace Sys2Proof.Machine

/-! ## Period releases (R375) -/

/-- The budget counter of a contract at the placing of a new activation: the debt carried under act 1 (R376). -/
def Budget.renew (b : Budget) (c : Contract) : Budget :=
  { b with count := if c.act then Nat.min (b.count - c.budget.toNat) c.budget.toNat else 0, overrun := false, throttled := false }

/-- A contract's budget renewed among others. -/
def renewIn (l : List Budget) (c : Contract) : List Budget :=
  l.map fun (b : Budget) => if b.idx = c.idx then b.renew c else b

/-- The activation of a contract placed on core n (R375), which belongs to the LID. -/
def State.activate (s : State) (n : CoreId) (c : Contract) (src : CoreId) (seq : Word) : State :=
  let lid := match s.saved.find? fun (k : Saved) => k.current && k.core == n with
    | some k => k.lid
    | none => (s.core n).lid
  let m : Msg := { hdr := mkHdr c.ctype c.prio 0 2 src lid, payload := [seq, c.idx.setWidth 64] }
  let a : Arr := { msg := m, inst := none, contract := some c.idx, srcMod := s.modu, resume := none, far := false }
  let t : Transit := { cargo := .message a, from_ := none, dstMod := s.modu, dst := lid, held := false, tag := none,
                       back := none, owner := none }
  let s := { s with saved := s.saved.map fun (k : Saved) => if k.lid = lid then { k with budgets := renewIn k.budgets c } else k }
  let s := (s.updCore n fun k => { k with budgets := renewIn k.budgets c }).selectNext n
  s.updCore (s.physOf lid) fun k => { k with ni := k.ni ++ [t] }

/-- The stage of an accepted launch whose RCB is at a. -/
def State.stageRcb (s : State) (a : Word) : Option Stage :=
  s.launches.findSome? fun (l : Launch) => l.stages.find? fun (g : Stage) => g.rcb.setWidth 64 == a

/-- The activations of a period (R375): on every core of the contract's set. -/
def State.startPeriod (s : State) (a : Arr) : State :=
  match s.stageRcb (a.msg.word 0) with
  | none => s
  | some g =>
    match g.contracts.find? fun (c : Contract) => c.idx == bits (a.msg.word 1) 0 3 with
    | none => s
    | some c => ((g.cores.drop c.cfirst.toNat).take c.ccount.toNat).foldl (fun (s : State) n =>
        s.activate n c (hdrSrc a.msg.hdr) (bits (a.msg.word 1) 32 32 |>.setWidth 64)) s

/-- A message of a type waits at an interface. -/
def Transit.ofType (x : Byte) (t : Transit) : Bool :=
  match t.cargo with
  | .message a => hdrType a.msg.hdr == x
  | .channel _ _ _ => false

/-- The first message of a type at the interface of core n, taken from it, and its acceptance acknowledged (R410). -/
def State.takeMsg (s : State) (n : CoreId) (x : Byte) : Option (State × Arr) :=
  match firstIdx (Transit.ofType x) (s.core n).ni with
  | none => none
  | some i =>
    match (s.core n).ni[i]? with
    | some t =>
      match t.cargo with
      | .message a => some ((s.updCore n fun c => { c with ni := dropAt c.ni i }).ackTo t, a)
      | .channel _ _ _ => none
    | none => none

/-- PERIOD_RELEASE: core n's interface passes a type-0x05 message to the dispensers (R375). -/
def execPeriodRelease (n : CoreId) (s : State) : Out :=
  match s.takeMsg n 0x05 with
  | some (s, a) => .next (s.startPeriod a)
  | none => .next s

/-! ## Budgets (R376) -/

/-- The level of the frame that runs, or that level 7 runs for. -/
def Core.chargedLevel (c : Core) : BitVec 4 := if c.level = 7 then causeLevel c.cause else c.level

/-- BUDGET_OVERRUN: a frame of contract idx has run for rt further on core n; beyond C it traps once a period, or is
throttled (R376). -/
def execBudgetOverrun (n : CoreId) (idx : BitVec 3) (rt : BitVec 32) (s : State) : Out :=
  let c := s.core n
  let l := c.chargedLevel
  let runs : Bool := l.toNat < 7 && (c.bank (bits l 0 3)).live && (c.bank (bits l 0 3)).contract == some idx
  match (if runs then (c.binding.bind fun b => b.contracts.find? fun (k : Contract) => k.idx == idx) else none),
      c.budgets.find? fun (b : Budget) => b.idx == idx with
  | some k, some b =>
    let count := b.count + rt.toNat
    let past := decide (count > k.budget.toNat)
    let s := s.updCore n fun c => { c with budgets := c.budgets.map fun (x : Budget) =>
      if x.idx = idx then { x with count, overrun := x.overrun || past, throttled := x.throttled || (past && k.act) } else x }
    .next (if past ∧ !k.act ∧ !b.overrun then s.asyncTrap n l 0x09 (idx.setWidth 64) else s)
  | _, _ => .next s

/-! ## Load averaging (R379) -/

/-- An arrival that averaging counts and may move: a firm instance, neither an activation nor a parked resumption. -/
def State.movable (s : State) (a : Arr) : Bool :=
  a.inst.isSome && a.contract.isNone && hdrType a.msg.hdr != 0x0B && !s.tentativeInst a.inst

/-- The instance arrivals of levels 0 to 6 that the weir holds for a LID. -/
def State.weirInsts (s : State) (lid : CoreId) (l : BitVec 3) : List Arr :=
  s.weir.filterMap fun e => match e.queue, e.item with
    | .inbox x p, .arr a => if x = lid ∧ p = l ∧ a.inst.isSome then some a else none
    | _, _ => none

/-- The load figure of core n. -/
def State.loadFigure (s : State) (n : CoreId) : Nat :=
  let c := s.core n
  (upFrom 0 7).foldl (fun k l =>
    let p : BitVec 3 := BitVec.ofNat 3 l
    k + ((c.held p).filter fun (a : Arr) => a.inst.isSome).length + (s.weirInsts c.lid p).length) 0

/-- The neighbours of a core: one above and one below in its cluster, and in its block (R379). -/
def neighbours (n : CoreId) : List CoreId :=
  let core := (slotOf n).toNat
  let cl := (bits n 4 4).toNat
  let at_ (cl core : Nat) : CoreId := blockOf n ++ BitVec.ofNat 4 cl ++ BitVec.ofNat 4 core
  (if core < 15 then [at_ cl (core + 1)] else []) ++ (if 0 < core then [at_ cl (core - 1)] else []) ++
    (if cl < 15 then [at_ (cl + 1) core] else []) ++ (if 0 < cl then [at_ (cl - 1) core] else [])

/-- Two cores are bound to the same stage. -/
def State.sameStage (s : State) (n m : CoreId) : Bool :=
  match (s.core n).binding, (s.core m).binding with
  | some a, some b => a.launch == b.launch && a.stage == b.stage
  | _, _ => false

/-- LOAD_EXCHANGE: core n sends its load figure to its neighbours of the same stage (R379). -/
def execLoadExchange (n : CoreId) (s : State) : Out :=
  .next (((neighbours n).filter fun m => s.sameStage n m).foldl (fun (t : State) m =>
    t.postOwn 0x08 7 (s.core n).lid (s.core m).lid [BitVec.ofNat 64 (s.loadFigure n)] 0) s)

/-- The place of the last item with property p. -/
def lastIdx {α : Type} (p : α → Bool) (l : List α) : Option Nat := (firstIdx p l.reverse).map fun i => l.length - 1 - i

/-- The youngest movable arrival of core n at a level, taken from the weir, else from the inbox. -/
def State.takeYoungest (s : State) (n : CoreId) (p : BitVec 3) : Option (State × Arr) :=
  let c := s.core n
  let mine (e : WeirEntry) : Bool := match e.queue, e.item with
    | .inbox x q, .arr a => x == c.lid && q == p && s.movable a
    | _, _ => false
  match lastIdx mine s.weir with
  | some i =>
    match s.weir[i]? with
    | some e =>
      match e.item with
      | .arr a => some (({ s with weir := dropAt s.weir i } : State).weirFell e.region, a)
      | _ => none
    | none => none
  | none =>
    match lastIdx s.movable (c.held p) with
    | some i => ((c.held p)[i]?).map fun a => (s.updCore n fun c => c.setHeld p (dropAt (c.held p) i), a)
    | none => none

/-- The youngest movable arrival of the lowest level, from level l on, fuel levels. -/
def State.takeLowest (s : State) (n : CoreId) : Nat → Nat → Option (State × Arr)
  | 0, _ => none
  | k + 1, l =>
    match s.takeYoungest n (BitVec.ofNat 3 l) with
    | some x => some x
    | none => State.takeLowest s n k (l + 1)

/-- The type-0x09 message in which an arrival of core n moves to core m: at the header priority of the arrival, whose own header it carries
unchanged (R379, R451; log entry 16). -/
def State.moveTransit (s : State) (a : Arr) (n m : CoreId) : Transit :=
  let src := (s.core n).lid
  let dst := (s.core m).lid
  { cargo := .message { a with msg := { hdr := mkHdr 0x09 (hdrPrio a.msg.hdr) 0 3 src dst, payload := a.msg.hdr :: a.msg.payload } }, from_ := none,
    dstMod := s.modu, dst, held := false, tag := none, back := none, owner := none }

/-- k arrivals of core n move to core m, each in a type-0x09 message that carries its header and payload. -/
def State.moveArrivals (s : State) (n m : CoreId) : Nat → State
  | 0 => s
  | k + 1 =>
    match s.takeLowest n 7 0 with
    | some (s, a) =>
      State.moveArrivals (s.post (s.moveTransit a n m)) n m k
    | none => s

/-- LOAD_FIGURE: core n receives a neighbour's load figure, and may move arrivals to it (R379). -/
def execLoadFigure (n : CoreId) (s : State) : Out :=
  match s.takeMsg n 0x08 with
  | none => .next s
  | some (s, a) =>
    let m := s.physOf (hdrSrc a.msg.hdr)
    let d := s.loadFigure n - (a.msg.word 0).toNat
    if s.sameStage n m ∧ 2 < d then .next (s.moveArrivals n m (d / 10)) else .next s

end Sys2Proof.Machine
end

