-- ==== Sys2Proof/Machine/EventsCore.lean ====
section
/-! DEFINITION. Events of a core: traps of fetch and decode (R164, R169), acceptance of arrivals (R36, R42 to R46),
watchdogs (R61, R343), and the entries of channels (R97 to R99). -/

namespace Sys2Proof.Machine

/-! ## Traps of fetch and decode -/

/-- ILLEGAL_INSTRUCTION: the trap of a reserved or unassigned encoding; k.addr holds the instruction bits (R164, R170). -/
def execIllegalInstruction (a : Word) (s : State) : Out := .next (s.stop (.trap 0x01 a))

/-- FETCH_FAULT: the trap of a fetch that fails (R169). -/
def execFetchFault (cause : BitVec 5) (a : Word) (s : State) : Out := .next (s.stop (.trap cause a))

/-! ## Acceptance (R36, R42 to R46) -/

/-- A type that an interface does not pass to its core: a period release goes to its dispenser, and a load figure to the
micro-kernel's averaging (R375, R379). -/
def ownType (t : Byte) : Bool := t == 0x05 || t == 0x08

/-- The arrival that a type-0x09 message of the averaging moves, with its own header, unchanged, and its payload (R379, R451). A message of
that type that software sends carries no instance, and stays as it is. -/
def Arr.unmoved (a : Arr) : Arr :=
  match a.msg.payload with
  | h :: r => if hdrType a.msg.hdr = 0x09 ∧ a.inst.isSome then { a with msg := { hdr := h, payload := r } } else a
  | [] => a

/-- Core n accepts the message at its interface: the LID still names the core (R21, R22, R356), and its context is not saved
(R447). -/
def State.passes (s : State) (n : CoreId) (t : Transit) : Bool :=
  match t.cargo with
  | .message a => t.isHeat || !ownType (hdrType a.msg.hdr) && !((s.core n).holds && (s.core n).savedLid == some t.dst) && s.present t.dst &&
      s.physOf t.dst == n
  | .channel _ _ _ => false

/-- An arrival of type 0x0B with the frame class of the live record it names (R32, R53). -/
def State.withRecord (s : State) (a : Arr) : Arr :=
  match s.recordOf a with
  | some r => { a with resume := some r.fclass, inst := r.inst }
  | none => a

/-- The weir queue of a level of a LID's inbox. -/
def inboxQueue (t : Transit) (p : BitVec 3) : WeirQueue := .inbox t.dst p

/-- The arrival, last in the FIFO of its level, is the one that selection starts now: it is startable, none that is held comes before
it, and it fits (R36, R45). -/
def State.startsNow (s : State) (n : CoreId) (a : Arr) (p : BitVec 3) : Bool :=
  let c := s.core n
  let first : Bool := match s.nextFrom n 8 with
    | some (q, _) => decide (q.toNat < p.toNat)
    | none => true
  !c.stopped && c.startable a p && first && c.above p && decide (c.arrSize a p ≤ c.freeStack)

/-- An arrival that core n takes in without starting or holding it: one of type 0x00, which the part never delivers (R34; that it
is taken from the interface and acknowledged is the model's choice, log entry 22), or one that names a record no longer live (R391). -/
def State.vanishes (s : State) (a : Arr) : Bool :=
  hdrType a.msg.hdr == 0 || (hdrType a.msg.hdr == 0x0B && (s.recordOf a).isNone)

/-- The arrival is held, last in the FIFO of level p: in the inbox, or in the weir when the inbox is full or the weir holds arrivals
of the level; none when the weir has no room for it (R42, R409). -/
def State.hold (s : State) (n : CoreId) (t : Transit) (a : Arr) (p : BitVec 3) : Option State :=
  let s := s.updCore n fun c => { c with asleep := false }
  if s.weirHas (inboxQueue t p) ∨ ((s.core n).held p).length ≥ 16 then
    s.weirAdd (inboxQueue t p) (s.core n).bound_ (.arr a) n
  else some (s.updCore n fun c => c.setHeld p (c.held p ++ [a]))

/-- One arrival accepted by core n without a push: removed, or held (R42, R46, R391). -/
def State.keepArr (s : State) (n : CoreId) (t : Transit) (a : Arr) : Option State :=
  let a := s.withRecord a
  let p := (s.core n).effPrio a.msg.hdr
  if s.vanishes a then some s
  else if (s.core n).tooLarge a p then some (s.asyncTrap n 0xF 0x0A (tooLargeAddr a p))
  else s.hold n t a p

/-- The record that an arrival resumes, if it resumes one, can be read (R392). -/
def State.recordReadable (s : State) (n : CoreId) (a : Arr) : Bool :=
  match s.recordRead n a with
  | some (_, none) => false
  | _ => true

/-- One arrival accepted by core n: pushed, held in the inbox, or sent to the weir; none when the weir has no room for it
(R36, R42, R409). -/
def State.accept (s : State) (n : CoreId) (t : Transit) (a : Arr) : Option State :=
  let b := s.withRecord a
  let p := (s.core n).effPrio a.msg.hdr
  if !s.vanishes b ∧ !(s.core n).tooLarge b p ∧ s.startsNow n b p ∧ s.recordReadable n b then
    some ((s.updCore n fun c => { c with asleep := false }).push n b p)
  else (s.keepArr n t a).map fun s => s.selectNext n

/-- The first arrival at the interface of core n that it can accept: its place, its message, and the arrival. -/
def State.firstArrival (s : State) (n : CoreId) : Option (Nat × Transit × Arr) :=
  if !s.powered n then none
  else
    match firstIdx (s.passes n) (s.core n).ni with
    | none => none
    | some i =>
      match (s.core n).ni[i]? with
      | some t =>
        match t.cargo with
        | .message a => some (i, t, a.unmoved)
        | .channel _ _ _ => none
      | none => none

/-- Core n without the message at place i of its interface. -/
def State.takeNi (s : State) (n : CoreId) (i : Nat) : State := s.updCore n fun c => { c with ni := dropAt c.ni i }

/-- Core n, at an instruction boundary, accepts the first arrival at its interface, and selects (R36, R43, R56): what waits for the
boundary comes before any push (R54, R348). -/
def State.acceptOne (s : State) (n : CoreId) : State :=
  let s := s.atBoundary n
  match s.firstArrival n with
  | none => s.selectNext n
  | some (i, t, a) =>
    match (s.takeNi n i).accept n t a with
    | some u => u.ackTo t
    | none => s.selectNext n

/-- The first arrival at the interface of core n takes its place among the held ones, before the selection that ends the retirement of
the instruction of the same cycle (R56): last of its level, whatever room the inbox and the weir have. With it, what must be judged when
it is still there after the selection: the message, its entry, and its place at the interface. -/
def State.acceptLoose (s : State) (n : CoreId) : State × Option (Transit × WeirEntry × Nat) :=
  match s.firstArrival n with
  | none => (s, none)
  | some (i, t, a) =>
    let b := s.withRecord a
    let p := (s.core n).effPrio a.msg.hdr
    let q := inboxQueue t p
    if s.vanishes b ∨ (s.core n).tooLarge b p ∨ !(s.weirHas q ∨ ((s.core n).held p).length ≥ 16) then
      match (s.takeNi n i).keepArr n t a with
      | some u => (u.ackTo t, none)
      | none => (s, none)
    else
      let e : WeirEntry := { queue := q, region := (s.core n).bound_, item := .arr b }
      ({ (s.takeNi n i).updCore n fun c => { c with asleep := false } with weir := s.weir ++ [e] }, some (t, e, i))

/-- An arrival that took its place in the weir stays there, and may raise its region's quota trap, when the selection has not started it;
it waits at the interface when the region's ring has no room for it (R42, R378, R409). -/
def State.settleLoose (s : State) (n : CoreId) (late : Option (Transit × WeirEntry × Nat)) : State :=
  match late with
  | none => s
  | some (t, e, i) =>
    if s.weir.getLast? ≠ some e then s.ackTo t
    else
      let without : State := { s with weir := s.weir.dropLast }
      if without.weirFull e.region e.item then
        without.updCore n fun c => { c with ni := c.ni.take i ++ [t] ++ c.ni.drop i }
      else (s.quotaTrap e.region e.queue n).ackTo t

/-- ARRIVAL_ACCEPT: core n accepts the first arrival at its interface (R36, R43); a core whose switch is open accepts none (R15). -/
def execArrivalAccept (n : CoreId) (s : State) : Out :=
  if (s.firstArrival n).isNone then .next s else .next (s.acceptOne n)

/-! ## Watchdogs -/

/-- STALL_WATCHDOG: the frame of core n has been stalled for cc further cycles (R61). -/
def execStallWatchdog (n : CoreId) (cc : BitVec 40) (s : State) : Out :=
  let c := s.core n
  if c.level = 0xF ∨ c.stopped then .next s
  else
    let k := c.stalls.get c.lvl.toFin
    if k = 0 then .next s
    else
      let total : BitVec 41 := k + cc.setWidth 41
      if total.toNat > c.wdog.toNat then
        .next ((s.updCore n fun c => { c with stalls := c.stalls.set c.lvl.toFin 0 }).takeTrap n 0x0C 0 c.pc false)
      else .next (s.updCore n fun c => { c with stalls := c.stalls.set c.lvl.toFin total })

/-- A frame at levels 0 to 6 is interrupted, or an arrival of those levels is held (R343). -/
def State.waitsBelow (s : State) (n : CoreId) : Bool :=
  let c := s.core n
  !(upFrom 0 7).all fun l => !(c.bank (BitVec.ofNat 3 l)).live && (s.heldAt n (BitVec.ofNat 3 l)).isEmpty

/-- SUPERVISOR_RUN_LIMIT: the run of level-7 frames of core n has counted cc further cycles (R343). -/
def execSupervisorRunLimit (n : CoreId) (cc : BitVec 16) (s : State) : Out :=
  let c := s.core n
  if c.level ≠ 7 ∨ c.stopped ∨ !s.waitsBelow n then .next s
  else
    let total := c.run7.toNat + cc.toNat
    if total > 2048 then .next (s.nestedTrap n 0x0C)
    else .next (s.updCore n fun c => { c with run7 := BitVec.ofNat 16 total })

/-! ## Channels (R97 to R99, R366) -/

/-- CHANNEL_ENTRY_SEND: the oldest entry of a kind-2 register leaves while allowance remains; it is a release towards
the receiving endpoint (R97, R123). -/
def execChannelEntrySend (n : CoreId) (q : QReg) (s : State) : Out :=
  let c := s.core n
  let k := c.rq q
  match k.entries with
  | [] => .next s
  | e :: r =>
    if k.kind ≠ 2 ∨ k.allow = 0 then .next s
    else
      let s := if dieOf (s.physOf k.peer) ≠ dieOf n then s.releaseDie (dieOf n) else s
      let s := s.updCore n fun c => c.updQ q fun k => { k with entries := r, allow := k.allow - 1 }
      .next (s.post { cargo := .channel { e with src := some (c.lid, q) } k.peerQ k.chan, from_ := none, dstMod := s.modu,
                      dst := k.peer, held := false, tag := none, back := none, owner := none })

/-- One unit of allowance returns to the sender of an entry (R97); while the sender's context is saved or loading, its `fload` brings
it (R98, R354). -/
def State.returnAllowance (s : State) (src : Option (CoreId × QReg)) : State :=
  match src with
  | some (lid, q) =>
    let m := s.physOf lid
    let c := s.core m
    if c.lid = lid ∧ c.savedLid ≠ some lid ∧ c.loading ≠ some lid then s.updCore m fun c => c.gainAllowance q
    else { s with allowOwed := s.allowOwed ++ [(lid, q)] }
  | none => s

/-- Source, destination and channel of a message or of a channel entry (R98, R122). -/
def Transit.flow (t : Transit) : BitVec 16 × CoreId × BitVec 16 × CoreId × BitVec 5 :=
  match t.cargo with
  | .message a => (a.srcMod, hdrSrc a.msg.hdr, t.dstMod, t.dst, hdrChan a.msg.hdr)
  | .channel e _ chan => (t.dstMod, (e.src.map (·.1)).getD 0, t.dstMod, t.dst, chan)

/-- What is at place k under way has something of its flow before it: still under way, or at the interface of a core where it waits to be
redirected, and for a channel entry at any interface (R22, R98, R122). -/
def State.olderOfFlow (s : State) (k : Nat) (t : Transit) (home : Bool) : Bool :=
  (s.net.take k).any (fun u => u.flow == t.flow) ||
    s.cores.any fun e => (home || e.1 != (s.physOf t.dst).toNat) && e.2.ni.any fun u => u.flow == t.flow

/-- CHANNEL_ENTRY_ARRIVE: the channel entry at place k under way reaches its register, or the weir (R98, R99, R21). -/
def execChannelEntryArrive (k : BitVec 16) (s : State) : Out :=
  match s.net[k.toNat]? with
  | none => .next s
  | some t =>
    match t.cargo with
    | .message _ => .next s
    | .channel e q _ =>
      if t.held ∨ s.olderOfFlow k.toNat t true then .next s
      else
        let gone : State := { s with net := dropAt s.net k.toNat }
        if !s.present t.dst then .next (gone.returnAllowance e.src)
        else
          let m := s.physOf t.dst
          let c := s.core m
          if c.defers t.dst then .next s
          else if (c.rq q).room ∧ !s.weirHas (.recv t.dst q) then
            .next (gone.updCore m fun c => c.updQ q fun r => { r with entries := r.entries ++ [e] })
          else .next ((gone.weirAdd (.recv t.dst q) c.bound_ (.entry e) m).getD s)

/-- The oldest entry of a kind-1 or kind-3 register is read: the read is an acquire from the sender of a channel, or at the scope
of the sync read that brought the entry, and returns one unit of allowance to a sender (R97, R123, R128). -/
def State.takeEntry (s : State) (n : CoreId) (q : QReg) : State :=
  let k := (s.core n).rq q
  match k.entries with
  | [] => s
  | e :: r =>
    if k.kind ≠ 1 ∧ k.kind ≠ 3 then s
    else
      let far : Bool := match e.src with
        | some (lid, _) => dieOf (s.physOf lid) != dieOf n
        | none => false
      let s := (if far then s.acquireDie (dieOf n) else s).acquireOwed n e.scope
      (s.updCore n fun c => c.updQ q fun k => { k with entries := r }).returnAllowance e.src

/-- The running frame may access a queue register in this direction: read for kinds 1 and 3, write for kind 2, at the level of its
binding (R40, R97). -/
def Core.queueOk (c : Core) (q : QReg) (write : Bool) : Bool :=
  let k := c.rq q
  decide (c.level = k.level.setWidth 4) && (if write then k.kind == 2 else k.kind == 1 || k.kind == 3)

/-- ALLOWANCE_RETURN: the running frame of core n reads a kind-1 or kind-3 register bound to its level, and one unit of allowance goes
back (R97). -/
def execAllowanceReturn (n : CoreId) (q : QReg) (s : State) : Out :=
  .next (if s.powered n ∧ !(s.core n).stopped ∧ (s.core n).queueOk q false then s.takeEntry n q else s)

/-- A read of queue register q by the running frame into v (R97): a forbidden access traps; an empty register stalls, and so does a v
that waits for an SFU result (R60, R252). -/
def State.queueReadNow (s : State) (q : QReg) (v : VReg) : Res State := do
  demand (s.me.queueOk q false) s (.trap 0x03 0)
  demand (!s.me.here.vpend.getLsbD v.toNat) s .stall
  match (s.me.rq q).entries with
  | [] => .error (s, .stall)
  | e :: _ => .ok ((s.takeEntry s.cur q).wv v e.data)

/-- A write of v to queue register q by the running frame (R97): a forbidden access traps; a full register stalls, and so does a v that
waits for an SFU result (R60, R252). The write is a release towards the receiving endpoint, so the store buffer drains first (R123). -/
def State.queueWriteNow (s : State) (q : QReg) (v : VReg) : Res State := do
  demand (s.me.queueOk q true) s (.trap 0x03 0)
  demand (!s.me.here.vpend.getLsbD v.toNat) s .stall
  demand (decide ((s.me.rq q).entries.length < 8)) s .stall
  let s ← s.drain s.cur
  let s := if dieOf (s.physOf (s.me.rq q).peer) ≠ dieOf s.cur then s.releaseDie (dieOf s.cur) else s
  .ok (s.updMe fun c => c.updQ q fun k =>
    { k with entries := k.entries ++ [{ data := s.rv v, src := some (c.lid, q), scope := none }] })

/-- The running frame's access to a queue register executes: it completes, and its stall count restarts (R61), or it stops and executes
again when the frame next runs (R60). -/
def State.queueRun (s : State) : State :=
  match s.me.here.queueOp with
  | none => s
  | some op =>
    match if op.write then s.queueWriteNow op.q op.v else s.queueReadNow op.q op.v with
    | .ok s => s.updMe fun c => { (c.updHere fun b => { b with queueOp := none }) with stalls := c.stalls.set c.lvl.toFin 0 }
    | .error (s, e) => s.stop e

/-- The running frame of the core in turn accesses a queue register: after what waits for its boundary, and not while it is still in
another such access; nothing on a core that is off, stopped or idle (R15, R54, R97). No instruction of the table encodes the access, so
it stands as a turn of its own, which leaves the pc (log entry 24). -/
def State.queueAccess (s : State) (op : QueueOp) : State :=
  let level := s.me.level
  let parks := s.mustPark s.cur
  if !s.powered s.cur then s
  else
    let s := s.atBoundary s.cur
    if parks ∨ s.me.stopped ∨ s.me.level = 0xF ∨ s.me.level ≠ level then s
    else if s.me.here.queueOp.isSome then s.queueRun
    else (s.updMe fun c => c.updHere fun b => { b with queueOp := some op }).queueRun

/-- A read of queue register q by the running frame into v (R97). -/
def State.queueRead (s : State) (q : QReg) (v : VReg) : State := s.queueAccess { write := false, q, v }

/-- A write of v to queue register q by the running frame (R97). -/
def State.queueWrite (s : State) (q : QReg) (v : VReg) : State := s.queueAccess { write := true, q, v }

end Sys2Proof.Machine
end

