-- ==== Sys2Proof/Machine/EventsFabric.lean ====
section
/-! DEFINITION. Events of the fabric, the weir and the host: resolution at the destination die (R20 to R22), the weir
(R377, R409), Flihild ports (R406, R413 to R416), and the host's accesses and requests (R403, R404, R418 to R420, R452). -/

namespace Sys2Proof.Machine

/-! ## Resolution (R21, R22, R303) -/

/-- Live ports in ascending number (R406). -/
def State.livePorts (s : State) : List (BitVec 5) :=
  ((upFrom 0 32).map fun i => BitVec.ofNat 5 i).filter fun p => (s.port p).settled && !(s.port p).quarantined

/-- The port through which a message to another module leaves (R406): none while no port is live. -/
def State.portOf (s : State) (t : Transit) : Option (BitVec 5) :=
  match t.cargo with
  | .message a =>
    let j : BitVec 5 := bits t.dstMod 0 5 ^^^ (bits (hdrSrc a.msg.hdr) 14 4).setWidth 5 ^^^ hdrChan a.msg.hdr
    let live := s.livePorts
    live[j.toNat % live.length]?
  | .channel _ _ _ => none

/-- The status step that a command has made is one of a handback instead, unless a later command of the engine has ended since; a
saved context gets it at its `fload` (R21, R311, R354). Agents that have ended their command make no step (R310). -/
def State.amendStep (s : State) (lid : CoreId) (e : BitVec 4) (ended : Option Byte) : State :=
  match ended with
  | none => s
  | some k =>
    let m := s.physOf lid
    let c := s.core m
    if c.lid = lid ∧ c.savedLid ≠ some lid then
      if (c.est e).ended = k then s.updCore m fun c => c.updEst e fun x => { x with fault := true, done := false } else s
    else { s with amends := s.amends ++ [(lid, e, k)] }

/-- The command whose successor a message is ends, if it is closing: the message has entered its die, or has been dropped (R21, R311). -/
def State.closeOf (s : State) (t : Transit) (fault : Bool) : State :=
  match t.cargo, t.back, t.owner with
  | .message a, some x, some n =>
    match x.close with
    | some id => s.closeCmd n (hdrSrc a.msg.hdr) x.cmd id fault
    | none => s
  | _, _, _ => s

/-- The message, which has entered its die: what a later drop owes is a change of the status step that its command has made (R21). -/
def State.closed (s : State) (t : Transit) : Transit :=
  match t.cargo, t.back, t.owner with
  | .message a, some x, some n =>
    match x.close with
    | some _ => { t with back := some { x with close := none, ended := some (s.endedAt n (hdrSrc a.msg.hdr) (engineOf x.cmd)) } }
    | none => t
  | _, _, _ => t

/-- A message whose destination is absent is dropped: what it owes comes back as a handback with cause 0x03 and the progress of
the command, and the command's status step is one of a handback (R21, R311, R320). -/
def State.dropAbsent (s : State) (t : Transit) : State :=
  let s := s.ackTo t
  match t.cargo, t.back with
  | .message a, some x =>
    let lid := hdrSrc a.msg.hdr
    ((s.closeOf t true).amendStep lid (engineOf x.cmd) x.ended).postOwn 0x01 7 lid lid
      [handbackWord x.cmd 0x03 x.succ, t.dst.setWidth 64, x.progress] 0
  | _, _ => s

/-- A message, and no channel entry. -/
def Transit.isMessage (t : Transit) : Bool :=
  match t.cargo with
  | .message _ => true
  | .channel _ _ _ => false

/-- The message at place k may leave: it is not held, no older one of its flow is under way, and none waits at another core to be
redirected (R22, R122). -/
def State.mayLeave (s : State) (k : Nat) (t : Transit) : Bool :=
  !t.held && t.isMessage && !s.olderOfFlow k t false

/-- DIE_ENTRY_RESOLVE: the message at place k under way enters its destination die and is resolved to a core, is dropped with
a handback, or leaves for another module, which acknowledges it later (R21, R22, R406, R410). Notices to a service core stay for GANG_BARRIER_NOTICE. -/
def execDieEntryResolve (k : BitVec 16) (s : State) : Out :=
  match s.net[k.toNat]? with
  | none => .next s
  | some t =>
    let gone : State := { s with net := dropAt s.net k.toNat }
    if !s.mayLeave k.toNat t then .next s
    else if t.dstMod ≠ s.modu then
      match s.portOf t with
      | none => .next s
      | some p =>
        let w : Wire := { port := p, msg := t }
        .next { gone with wire := gone.wire ++ [w] }
    else
      if t.isNotice then .next s
      else if !s.present t.dst then .next (gone.dropAbsent t)
      else
        let s := gone.closeOf t false
        .next (s.updCore (s.physOf t.dst) fun c => { c with ni := c.ni ++ [s.closed t] })

/-- A message marked as moved (R305). -/
def Transit.moved (t : Transit) : Transit :=
  match t.cargo with
  | .message a => { t with cargo := .message a.moved }
  | .channel _ _ _ => t

/-- MOVED_REDIRECT: the first message at the interface of core n whose LID the core no longer has goes to the core that has
it (R22, R447). -/
def execMovedRedirect (n : CoreId) (s : State) : Out :=
  let c := s.core n
  match firstIdx (fun (t : Transit) => !t.isHeat && (!s.present t.dst || s.physOf t.dst != n)) c.ni with
  | none => .next s
  | some i =>
    match c.ni[i]? with
    | none => .next s
    | some t =>
      let s := s.updCore n fun c => { c with ni := dropAt c.ni i }
      if s.present t.dst then
        .next (s.updCore (s.physOf t.dst) fun c => { c with ni := c.ni ++ [t.moved] })
      else .next (s.dropAbsent t)

/-! ## The weir (R377, R409) -/

/-- The core that a LID names has its context: none is saved or loading (R352). -/
def State.contextIn (s : State) (lid : CoreId) : Bool :=
  !s.contextOut lid && (s.core (s.physOf lid)).loading != some lid

/-- A waiting sync access returns to its owner's list, and is performed there if its condition holds (R93, R94); the word of a
granule that has moved meanwhile is at its new home (R397). -/
def State.refillMooring (s : State) (m : Mooring) : State :=
  let pa := s.live (8 * m.word)
  let m : Mooring := if m.owner.isMem then { m with owner := s.memOwner pa, word := pa / 8 } else m
  let p : Spot := { owner := m.owner, word := m.word, dom := m.dom }
  if !m.fwd ∧ !s.behindFwd p ∧ m.mode.holds (s.spotFull p) then s.syncServe m
  else { s with moorings := s.moorings ++ [m] }

/-- Entries in the list of an owner. -/
def State.mooringCount (s : State) (o : Owner) : Nat := (s.moorings.filter fun (m : Mooring) => m.owner == o).length

/-- The queue of a weir entry with the entry put in it: none while it has no room. -/
def State.refill (s : State) (e : WeirEntry) : Option State :=
  match e.queue, e.item with
  | .inbox lid p, .arr a =>
    let n := s.physOf lid
    if s.contextIn lid ∧ ((s.core n).held p).length < 16 then
      some ((s.updCore n fun c => c.setHeld p (c.held p ++ [a])).selectNext n)
    else none
  | .tcm lid, .moor m =>
    let o : Owner := .tcm (s.physOf lid)
    if s.contextIn lid ∧ s.mooringCount o < o.capacity then some (s.refillMooring { m with owner := o }) else none
  | .mooring o, .moor m => if s.mooringCount o < o.capacity then some (s.refillMooring m) else none
  | .launch x, .launch id =>
    if (s.sector x).launchQ.length < 16 then some (s.updSector x fun k => { k with launchQ := k.launchQ ++ [id] }) else none
  | .records b, .record r =>
    if (s.block b).records.length < 256 then some (s.updBlock b fun k => { k with records := k.records ++ [r] }) else none
  | .recv lid q, .entry x =>
    let n := s.physOf lid
    if s.contextIn lid ∧ ((s.core n).rq q).room then
      some (s.updCore n fun c => c.updQ q fun r => { r with entries := r.entries ++ [x] })
    else none
  | _, _ => none

/-- WEIR_REFILL: the entry at place k, the oldest of its queue, returns to the queue if it has room (R377). -/
def execWeirRefill (k : BitVec 16) (s : State) : Out :=
  match s.weir[k.toNat]? with
  | none => .next s
  | some e =>
    if (s.weir.take k.toNat).any fun (x : WeirEntry) => x.queue == e.queue then .next s
    else
      match ({ s with weir := dropAt s.weir k.toNat } : State).refill e with
      | some s => .next (s.weirFell e.region)
      | none => .next s

/-- The messages of a list and whether each is of the flow. -/
def Transit.sameFlow (t u : Transit) : Bool := u.flow == t.flow

/-- WEIR_FULL_REPLY: the arrival that core n cannot accept for a full weir ring goes back to its sender, which holds it and
every later message of its flow (R409). -/
def execWeirFullReply (n : CoreId) (s : State) : Out :=
  match s.firstArrival n with
  | none => .next s
  | some (i, t, a) =>
    if ((s.takeNi n i).accept n t a).isNone then
      let back := ((s.core n).ni.filter t.sameFlow).map fun (u : Transit) => { u with held := true }
      let s := s.updCore n fun c => { c with ni := c.ni.filter fun (u : Transit) => !t.sameFlow u }
      .next { s with net := back ++ s.net.map fun (u : Transit) => if t.sameFlow u then { u with held := true } else u }
    else .next s

/-- WEIR_SPACE_REPLY: the messages held for core n may leave again, in their first order (R409). -/
def execWeirSpaceReply (n : CoreId) (s : State) : Out :=
  .next { s with net := s.net.map fun (u : Transit) =>
    if u.held ∧ u.dstMod = s.modu ∧ s.physOf u.dst = n then { u with held := false } else u }

/-! ## What other modules do with messages that left (R303, R409, R410, R416) -/

/-- Another module acknowledges the message at place k among those that left: it is not resent any more, and a send is counted at
its issuer (R410, R416). -/
def State.wireAck (s : State) (k : Nat) : State :=
  match s.wire[k]? with
  | some w => ({ s with wire := dropAt s.wire k } : State).ackTo w.msg
  | none => s

/-- Another module has no core for the LID of the message at place k (R303). -/
def State.wireAbsent (s : State) (k : Nat) : State :=
  match s.wire[k]? with
  | some w => ({ s with wire := dropAt s.wire k } : State).dropAbsent w.msg
  | none => s

/-- Another module replies "full": the message at place k is taken back and held, with every later one of its flow (R409). -/
def State.wireFull (s : State) (k : Nat) : State :=
  match s.wire[k]? with
  | some w =>
    let t := w.msg
    let back := ((s.wire.drop k).filter fun (x : Wire) => t.sameFlow x.msg).map fun (x : Wire) => { x.msg with held := true }
    { s with wire := s.wire.take k ++ (s.wire.drop k).filter fun (x : Wire) => !t.sameFlow x.msg
             net := back ++ s.net.map fun (u : Transit) => if t.sameFlow u then { u with held := true } else u }
  | none => s

/-- The weir of another module has space: the messages held for it may leave again, in their first order (R409). -/
def State.wireSpace (s : State) (m : BitVec 16) : State :=
  { s with net := s.net.map fun (u : Transit) => if u.held ∧ u.dstMod = m ∧ m ≠ s.modu then { u with held := false } else u }

/-- A message of another module enters; one whose end-to-end tag has been counted is a resent duplicate, and is discarded (R416). -/
def State.remoteIn (s : State) (t : Transit) : State :=
  match t.cargo, t.tag with
  | .message a, some tag =>
    if s.seen.contains (a.srcMod, tag) then s else ({ s with seen := (a.srcMod, tag) :: s.seen } : State).post t
  | _, _ => s.post t

/-! ## Ports (R406, R413 to R416) -/

/-- Lanes in a lane map. -/
def lanesIn (x : Byte) : Nat := (upFrom 0 8).foldl (fun n i => if x.getLsbD i then n + 1 else n) 0

/-- The largest width that a lane map carries (R415). -/
def widthFor (x : Byte) : BitVec 2 :=
  let n := lanesIn x
  if n ≥ 8 then 3 else if n ≥ 4 then 2 else if n ≥ 2 then 1 else 0

/-- The messages of flows whose port has changed leave through their new port, in their first order (R416). -/
def State.reroute (s : State) : State :=
  { s with wire := s.wire.map fun (w : Wire) => { w with port := (s.portOf w.msg).getD w.port } }

/-- LINK_RETRANSMIT: a flit that failed its CRC is resent with its first tag; nothing but timing changes (R131, R413). -/
def execLinkRetransmit (_ : BitVec 5) (s : State) : Out := .next s

/-- The settle flit that this end sends through a port (R414). -/
def Port.settleFlit (p : Port) (modu : BitVec 16) (port : BitVec 5) : BitVec 256 :=
  0#211 ++ port ++ modu ++ p.attempt ++ p.speed ++ p.lanes ++ p.width ++ (0x5E#8)

/-- The port sends its settle flit (R414). -/
def State.sendSettle (s : State) (port : BitVec 5) : State :=
  s.updPort port fun p => { p with sent := p.settleFlit s.modu port }

/-- LINK_RETRAIN: a port retrains, and sends a settle flit that states full width with the lanes and the speed that training found at
this end. A port in quarantine retrains only on an order, which ends the quarantine (R414, R416). -/
def execLinkRetrain (port : BitVec 5) (lanes : BitVec 8) (speed : BitVec 2) (s : State) : Out :=
  .next ((s.updPort port fun p =>
    { p with settled := false, quarantined := false, width := 3, lanes, speed, mismatches := 0, attempt := 1 }).sendSettle
      port).reroute

/-- The lowest-numbered lanes of a map, n of them at most. -/
def lowLanes (x : Byte) (n : Nat) : Byte :=
  ((upFrom 0 8).foldl (fun (p : Byte × Nat) i =>
    if x.getLsbD i ∧ p.2 < n then (p.1 ||| 1#8 <<< i, p.2 + 1) else p) (0, 0)).1

/-- A settle flit of the other end at a port that retrains (R415). Two equal flits whose lane map does not carry their width do not
settle the port: the manual's example forbids width 3 on seven lanes. -/
def Port.settle (p : Port) (flit : BitVec 256) : Port :=
  let width : BitVec 2 := bits flit 8 2
  let lanes : Byte := bits flit 10 8
  let speed : BitVec 2 := bits flit 18 2
  if bits flit 0 8 = 0x5E ∧ bits flit 45 211 = 0 ∧ width = p.width ∧ lanes = p.lanes ∧ speed = p.speed ∧
      2 ^ p.width.toNat ≤ lanesIn p.lanes then
    { p with settled := true, mismatches := 0, lanes := lowLanes p.lanes (2 ^ p.width.toNat) }
  else
    let both := p.lanes &&& lanes
    let least (x y : BitVec 2) : BitVec 2 := if x.toNat ≤ y.toNat then x else y
    let k := p.mismatches + 1
    { p with width := least (least p.width width) (widthFor both), lanes := both, speed := least p.speed speed,
             mismatches := k, attempt := p.attempt + 1,
             quarantined := both == 0 || decide (k.toNat ≥ 3) }

/-- SETTLE_FLIT (R415, R416): after a mismatch the port retrains and sends its next flit; the controller records a quarantine. -/
def execSettleFlit (port : BitVec 5) (flit : BitVec 256) (s : State) : Out :=
  let p := s.port port
  if p.settled ∨ p.quarantined then .next s
  else
    let q := p.settle flit
    let s := s.updPort port fun _ => q
    let s := if q.settled ∨ q.quarantined then s else s.sendSettle port
    .next (if q.quarantined then { s with ctrlLog := s.ctrlLog ++ [(0x02, port.setWidth 64)] } else s).reroute

/-! ## The host's accesses to memory (R403, R404) -/

/-- A partition as its RCB gives it (R403). -/
structure Partition where
  rcb : BitVec 56
  hdom : BitVec 16
  hbase : Nat
  hsize : Nat
  deriving DecidableEq, Repr

/-- The partition of a logical device, by the RCBs that the host has stored. -/
def State.partitionOf (s : State) (ld : BitVec 4) : Option Partition :=
  s.partitions.findSome? fun a =>
    match s.partWords 0 a.toNat 16 with
    | some w =>
      let at_ (i : Nat) : Word := (w[i]?).getD 0
      if rcbIs w 1 ∧ bits (at_ 6) 0 4 = ld then
        some { rcb := a, hdom := bits (at_ 6) 4 16, hbase := (bits (at_ 7) 16 40).toNat * 65536, hsize := (at_ 8).toNat }
      else none
    | none => none

/-- The address of a partition's RCB that the part cannot read, or finds malformed (R392). -/
def State.partitionFault (s : State) : Option (BitVec 56) :=
  s.partitions.find? fun a => match s.partWords 0 a.toNat 16 with
    | some w => !rcbIs w 1
    | none => true

/-- No partition is found for a logical device: where an RCB could not be read for it, that is a machine check (R392). -/
def State.noPartition (s : State) : State :=
  match s.partitionFault with
  | some a => s.machineCheck 0 0x03 0 (a.setWidth 64) none
  | none => s

/-- The lines of the partition RCBs, as the part's reads of them leave them (R83, R401). -/
def State.touchPartitions (s : State) : State := s.partitions.foldl (fun (s : State) a => s.partTouch 0 a.toNat 16) s

/-- A word in every die's copies goes home, and the copies with it (R117). -/
def State.recallWord (s : State) (pa : Nat) : State :=
  (upFrom 0 16).foldl (fun (s : State) d => s.evictCopy (BitVec.ofNat 4 d) (pa / 8)) s

/-- The physical address of an offset in a device's HDM window. -/
def State.hdm (s : State) (p : Partition) (off : Nat) : State × Option Nat :=
  let va := p.hbase + off
  if p.hsize ≤ off ∨ 2 ^ 56 ≤ va then (s, none)
  else
    match s.translate 0 (BitVec.ofNat 56 va) with
    | (s, .page pa) => (s, some pa)
    | (s, .absent _ _) => (s, none)

/-- The host gets no data: they are marked as poisoned (R404). -/
def State.hostRefused (s : State) : State :=
  { s with free := s.free + 1, hostData := Config.freeWord s.free 0, hostPoison := true }

/-- HOST_MEM_ACCESS: a host access to the word at an offset of a device's HDM window, performed at the word's home (R404), after the
older accesses to the word that wait there for a forward credit (R408). -/
def execHostMemAccess (ld : BitVec 4) (off : BitVec 56) (write : Bool) (data : Word) (s : State) : Out :=
  match s.partitionOf ld with
  | none => .next s.noPartition.hostRefused
  | some p =>
    let s := s.touchPartitions
    let o := off.toNat / 8 * 8
    match s.hdm p o with
    | (s, none) => .next (s.machineCheck 0 0x03 p.hdom (BitVec.ofNat 64 (p.hbase + o)) none).hostRefused
    | (s, some pa) =>
      let h := s.live pa
      let w := s.spot p.hdom (.mem pa)
      if s.behindFwd w ∨ (s.homeStuck none w).isSome then .next s
      else if write then
        .next ((s.recallWord pa).homeStore p.hdom h (splitBytes 8 data.toNat))
      else if poisonGet s.poison (h / 8) then .next s.hostRefused
      else
        let x : Word := BitVec.ofNat 64 (joinBytes (s.homeBytes p.hdom h 8))
        .next { s.touchLine p.hdom h with hostData := x, hostPoison := false }

/-! ## Host requests (R418 to R420) -/

/-- DOORBELL: the host writes the tail of a request window (R418). -/
def execDoorbell (ld : BitVec 4) (w : BitVec 6) (tail : BitVec 16) (s : State) : Out :=
  .next (s.updWindow ld w fun k => { k with tail })

/-- Records of a window's ring (R418). -/
def Window.records (k : Window) : Nat := 2 ^ (Nat.min k.rsize.toNat 8 + 4)

/-- n words of a device's window by offset, as their homes hold them; none where one cannot be read. -/
def State.hdmWords (s : State) (p : Partition) : Nat → Nat → Option (List Word)
  | _, 0 => some []
  | off, n + 1 =>
    match (s.hdm p off).2, State.hdmWords s p (off + 8) n with
    | some pa, some r =>
      let h := s.live pa
      if poisonGet s.poison (h / 8) then none else some (BitVec.ofNat 64 (joinBytes (s.homeBytes p.hdom h 8)) :: r)
    | _, _ => none

/-- The status of a request record (R419): 1 delivered, 2 absent or outside the partition, 3 reserved field. -/
def State.requestStatus (s : State) (p : Partition) (at_ : Nat → Word) : Byte :=
  let lid : CoreId := bits (at_ 0) 0 18
  if (at_ 0).getLsbD 23 || (upFrom 4 4).any (fun i => at_ i != 0) then 3
  else
    let mine : Bool := match (s.core (s.physOf lid)).binding with
      | some b => b.partition == p.rcb
      | none => false
    if s.present lid ∧ mine then 1 else 2

/-- HOST_REQUEST_TAKE: the service core of a window takes the record at head (R419). -/
def execHostRequestTake (ld : BitVec 4) (w : BitVec 6) (s : State) : Out :=
  let k := s.window ld w
  if k.head = k.tail ∨ k.stop then .next s
  else
    match s.partitionOf ld with
    | none => .next s.noPartition
    | some p =>
      let s := s.touchPartitions
      let at0 := k.rbase.toNat + 64 * (k.head.toNat % k.records)
      match s.hdmWords p at0 8 with
      | none => .next (s.machineCheck (bits w 2 4) 0x03 p.hdom (BitVec.ofNat 64 (p.hbase + at0)) none)
      | some ws =>
        let at_ (i : Nat) : Word := (ws[i]?).getD 0
        let st := s.requestStatus p at_
        let plen := (bits (at_ 0) 21 2).toNat
        let src : CoreId := w ++ 0#12
        let s := if st = 1 then
            s.postOwn 0x0A (bits (at_ 0) 18 3) src (bits (at_ 0) 0 18) ((upFrom 1 plen).map at_) (1 <<< 56)
          else s
        let s := match s.hdm p at0 with
          | (s, some pa) => (s.recallWord pa).homeStore p.hdom (s.live pa + 3) [st]
          | (s, none) => s
        let head : BitVec 16 := BitVec.ofNat 16 ((k.head.toNat + 1) % k.records)
        let s := s.updWindow ld w fun k =>
          { k with head, err := k.err || st != 1, ecode := if st = 1 then k.ecode else st }
        .next (if head = k.tail then { s with msix := s.msix ++ [(ld, k.vec)] } else s)

/-- Words stored in domain 0 at system scope (R452): none when a page is not present. -/
def State.systemStore (s : State) : Nat → List Word → Option State
  | _, [] => some s
  | va, x :: r =>
    match s.translate 0 (BitVec.ofNat 56 va) with
    | (s, .page pa) => State.systemStore ((s.recallWord pa).homeStore 0 (s.live pa) (splitBytes 8 x.toNat)) (va + 8) r
    | (_, .absent _ _) => none

/-- RCB_WINDOW_GO: the image is stored at addr in domain 0 (R452), or the access faults, which raises a machine check (R392). The part then knows a partition by its RCB. -/
def execRcbWindowGo (s : State) : Out :=
  let k := s.rcbWindow
  if k.st = 3 then .next s
  else if k.addr.toNat % 128 ≠ 0 then .next { s with rcbWindow := { k with st := 2 } }
  else
    match s.systemStore k.addr.toNat k.image with
    | none => .next { s.machineCheck 0 0x03 0 (k.addr.setWidth 64) none with rcbWindow := { k with st := 2 } }
    | some s =>
      let others := s.partitions.filter fun (a : BitVec 56) => a != k.addr
      let kind : BitVec 3 := bits (k.image.headD 0) 56 3
      .next { s with rcbWindow := { k with st := 1 }, partitions := if kind = 1 then others ++ [k.addr] else others }

end Sys2Proof.Machine
end

