-- ==== Sys2Proof/Machine/Av1.lean ====
section
/-! DEFINITION. The OBUs of a temporal unit (R12, R421, R427): their order and framing, and the sequence header within the limits of
R421. What AV1 itself fixes (OBU types, field order, the level table) is taken from the standard that R12 names (log entry 27). The
fields of a frame header that AV1 leaves to an encoder, and the data of its tiles, are free. -/

namespace Sys2Proof.Machine

/-- A field of n bits, most significant first. -/
def obuField : Nat → Nat → List Bool
  | 0, _ => []
  | n + 1, x => decide (x / 2 ^ n % 2 = 1) :: obuField n x

/-- Bits as bytes, the first bit the most significant; a last byte is filled with zeros. -/
def obuBytes : Nat → List Bool → List Byte
  | 0, _ => []
  | _, [] => []
  | k + 1, l =>
    let b := (upFrom 0 8).foldl (fun (n : Nat) i => 2 * n + (if (l[i]?).getD false then 1 else 0)) 0
    BitVec.ofNat 8 b :: obuBytes k (l.drop 8)

/-- leb128, at most k bytes. -/
def leb128 : Nat → Nat → List Byte
  | 0, _ => []
  | k + 1, n => if n < 128 then [BitVec.ofNat 8 n] else BitVec.ofNat 8 (128 + n % 128) :: leb128 k (n / 128)

/-- One OBU of a type, without extension and with its size. -/
def obu (type : Nat) (payload : List Byte) : List Byte :=
  BitVec.ofNat 8 (8 * type + 2) :: leb128 8 payload.length ++ payload

/-- Bits that a number needs, at least one, at most k. -/
def bitLen : Nat → Nat → Nat
  | 0, _ => 1
  | k + 1, n => if n < 2 then 1 else bitLen k (n / 2) + 1

/-- A level: its seq_level_idx, most frame headers per second, largest picture, width and height, and largest display rate in luma
samples per second. -/
structure Av1Level where
  idx : Nat
  headers : Nat
  pic : Nat
  width : Nat
  height : Nat
  rate : Nat
  deriving DecidableEq, Repr

/-- The levels of the standard, lowest first. -/
def av1Levels : List Av1Level :=
  [⟨0, 150, 147456, 2048, 1152, 4423680⟩, ⟨1, 150, 278784, 2816, 1584, 8363520⟩, ⟨4, 150, 665856, 4352, 2448, 19975680⟩,
   ⟨5, 150, 1065024, 5504, 3096, 31950720⟩, ⟨8, 300, 2359296, 6144, 3456, 70778880⟩, ⟨9, 300, 2359296, 6144, 3456, 141557760⟩] ++
  [⟨12, 300, 8912896, 8192, 4352, 267386880⟩, ⟨13, 300, 8912896, 8192, 4352, 534773760⟩, ⟨14, 300, 8912896, 8192, 4352, 1069547520⟩,
   ⟨16, 300, 35651584, 16384, 8704, 1069547520⟩, ⟨17, 300, 35651584, 16384, 8704, 2139095040⟩,
   ⟨18, 300, 35651584, 16384, 8704, 4278190080⟩]

/-- The lowest level that admits a frame size and the rate fnum / fden; 31, which sets no limit, where none does (R421). -/
def seqLevel (width height fnum fden : Nat) : Nat :=
  match av1Levels.find? fun l => decide (width * height ≤ l.pic) && decide (width ≤ l.width) && decide (height ≤ l.height) &&
      decide (width * height * fnum ≤ l.rate * fden) && decide (fnum ≤ l.headers * fden) with
  | some l => l.idx
  | none => 31

/-- The sequence header of a stream (R421): seq_profile 0, one operating point at the stream's level, 64×64 superblocks, CDEF and
loop restoration on, 4:2:0 at 8 or 10 bits, no film grain, and no option that the table does not list. -/
def seqHeader (width height level : Nat) (d10 : Bool) : List Byte :=
  let nw := bitLen 16 (width - 1)
  let nh := bitLen 16 (height - 1)
  let head := obuField 3 0 ++ obuField 2 0 ++ obuField 2 0 ++ obuField 5 0 ++ obuField 12 0 ++ obuField 5 level ++
    (if level > 7 then obuField 1 0 else [])
  let size := obuField 4 (nw - 1) ++ obuField 4 (nh - 1) ++ obuField nw (width - 1) ++ obuField nh (height - 1)
  -- frame ids, superblock size, the tools up to order hints, screen content and superres are off; CDEF and restoration are on
  let tools := obuField 1 0 ++ obuField 1 0 ++ obuField 7 0 ++ obuField 2 0 ++ obuField 1 0 ++ obuField 2 3
  -- bit depth, monochrome, description, range, sample position, separate delta q, film grain
  let colour := d10 :: obuField 3 0 ++ obuField 2 0 ++ obuField 1 0 ++ obuField 1 0
  obuBytes 64 (head ++ size ++ tools ++ colour ++ [true])

/-! ## The frame OBU (R421, R427) -/

/-- Tiles in one direction: their sizes in superblocks, each at least one, as the picks say; the last has what is left. -/
def tileSizes (f : Nat → Nat) (base : Nat) : Nat → Nat → List Nat
  | _, 0 => []
  | left, 1 => [left]
  | left, k + 1 =>
    let w := 1 + f (base + k) % (left - k)
    w :: tileSizes f base (left - w) k

/-- A value below n in the code ns(n). -/
def obuNs (n v : Nat) : List Bool :=
  let w := Nat.log2 n + 1
  let m := 2 ^ w - n
  if v < m then obuField (w - 1) v else obuField (w - 1) ((v + m) / 2) ++ obuField 1 ((v + m) % 2)

/-- The sizes of tiles written one by one. -/
def sizeFields : Nat → List Nat → List Bool
  | _, [] => []
  | left, w :: r => obuNs (Nat.min left 64) (w - 1) ++ sizeFields (left - w) r

/-- Equal tiles of n superblocks are exactly 2^l tiles. -/
def evenTiles (n l : Nat) : Bool :=
  let step := (n + 2 ^ l - 1) / 2 ^ l
  (n + step - 1) / step == 2 ^ l

/-- The count of equal tiles, as increments of its logarithm up to the largest. -/
def evenFields (n l : Nat) : List Bool := List.replicate l true ++ if 2 ^ l < n then [false] else []

/-- The tile fields of a frame header: 2^tcl columns × 2^trl rows of superblocks (R421), equal where that gives as many and the encoder
picks it, and tile sizes of so many bytes. -/
def tileFields (f : Nat → Nat) (width height tcl trl sizeBytes : Nat) : List Bool :=
  let cols := (width + 63) / 64
  let rows := (height + 63) / 64
  let even := evenTiles cols tcl && evenTiles rows trl && f 0 % 2 == 1
  even :: (if even then evenFields cols tcl ++ evenFields rows trl
    else sizeFields cols (tileSizes f 200 cols (2 ^ tcl)) ++ sizeFields rows (tileSizes f 220 rows (2 ^ trl))) ++
    if tcl + trl = 0 then [] else obuField (tcl + trl) (f 1) ++ obuField 2 (sizeBytes - 1)

/-- The fields of the deblocking filter, of CDEF and of loop restoration, which a lossless frame has none of (R421). -/
def filterFields (f : Nat → Nat) : List Bool :=
  let luma := obuField 6 (f 10) ++ obuField 6 (f 11)
  let chroma := if luma.any id then obuField 6 (f 12) ++ obuField 6 (f 13) else []
  let delta (i : Nat) : List Bool := if f i % 2 = 1 then true :: obuField 7 (f (i + 10)) else [false]
  let deltas := if f 15 % 2 = 0 then [false] else true :: if f 16 % 2 = 0 then [false] else
    true :: (upFrom 0 10).flatMap fun i => delta (20 + i)
  let cdefBits := f 40 % 4
  let cdef := obuField 2 (f 41) ++ obuField 2 cdefBits ++ (upFrom 0 (2 ^ cdefBits)).flatMap fun i =>
    obuField 6 (f (50 + i)) ++ obuField 6 (f (60 + i))
  let kind (i : Nat) : List Bool := obuField 2 (f (70 + i))
  let uses := (kind 0 ++ kind 1 ++ kind 2).any id
  let restore := kind 0 ++ kind 1 ++ kind 2 ++ if !uses then [] else
    (if f 73 % 2 = 0 then [false] else true :: obuField 1 (f 74)) ++ if (kind 1 ++ kind 2).any id then obuField 1 (f 75) else []
  luma ++ chroma ++ obuField 3 (f 14) ++ deltas ++ cdef ++ restore

/-- The header of a shown frame at base qindex q, key or inter (R421): its references are slots of at most three of the frames before it,
its size is the stream's, and no tool is on that the table does not list. -/
def frameHeader (f : Nat → Nat) (key : Bool) (q : Byte) (width height tcl trl sizeBytes : Nat) : List Bool :=
  let resilient := f 2 % 2
  let still := f 3 % 2
  -- show_existing_frame 0, the frame type, show_frame 1, error resilience, CDF updates, no size of its own
  let top := [false, false, !key, true] ++ (if key then [] else obuField 1 resilient) ++ obuField 1 still ++ [false]
  -- the primary reference, the slots refreshed, seven references, render size, motion vector precision, filter, motion mode
  let refs := if key then [false] else
    (if resilient = 1 then [] else obuField 3 (f 4)) ++ obuField 8 (f 5) ++
      (upFrom 0 7).flatMap (fun i => obuField 3 (f (100 + f (110 + i) % 3))) ++ [false] ++ obuField 1 (f 6) ++
      (if f 7 % 2 = 1 then [true] else false :: obuField 2 (f 8)) ++ [false]
  let cdf := if still = 1 then [] else obuField 1 (f 9)
  -- base_q_idx, no deltas of it, no matrices, no segments, and no deltas within the frame
  let quant := obuField 8 q.toNat ++ List.replicate 5 false ++ if q = 0 then [] else [false]
  let coded := if q = 0 then [] else filterFields f ++ obuField 1 (f 80)
  -- no compound references, the transform set, no global motion
  let last := (if key then [] else [false]) ++ obuField 1 (f 81) ++ if key then [] else List.replicate 7 false
  top ++ refs ++ cdf ++ tileFields f width height tcl trl sizeBytes ++ quant ++ coded ++ last

/-- The payload of the frame OBU: the header, and one tile group with all 2^tcl × 2^trl tiles, each but the last after its size (R421,
R427). A limit cuts the data of every tile. -/
def framePayload (f : Nat → Nat) (data : Nat → Byte × List Byte) (key : Bool) (q : Byte) (width height tcl trl : Nat)
    (limit : Option Nat) : List Byte :=
  let n := 2 ^ (tcl + trl)
  let tiles := (upFrom 0 n).map fun i =>
    (data i).1 :: match limit with
      | some k => (data i).2.take (k - 1)
      | none => (data i).2
  let most := tiles.foldl (fun m t => Nat.max m (t.length - 1)) 0
  let sizeBytes := Nat.min 4 (Nat.max (f 82 % 4 + 1) (Nat.log2 most / 8 + 1))
  obuBytes 128 (frameHeader f key q width height tcl trl sizeBytes) ++ (if n = 1 then [] else [0]) ++
    (upFrom 0 n).flatMap fun i =>
      let t := (tiles[i]?).getD []
      (if i + 1 = n then [] else splitBytes sizeBytes (t.length - 1)) ++ t

/-- The OBUs of a temporal unit in their order (R427). -/
def temporalUnit (key : Bool) (seq frame : List Byte) : List Byte :=
  obu 2 [] ++ (if key then obu 1 seq else []) ++ obu 6 frame

end Sys2Proof.Machine
end

