-- ==== Sys2Proof/Machine/EventsMedia.lean ====
section
/-! DEFINITION. The encoders (R421 to R430): acceptance of jobs, their records, row intake, the unit and completion. -/

namespace Sys2Proof.Machine

/-! ## Records (R423, R424) -/

/-- Word i of a job record. -/
def EncJob.word (j : EncJob) (i : Nat) : Word := (j.words[i]?).getD 0
/-- Luma width. -/
def EncJob.width (j : EncJob) : Nat := (bits (j.word 2) 0 13).toNat
/-- Luma height. -/
def EncJob.height (j : EncJob) : Nat := (bits (j.word 2) 13 13).toNat
/-- Bytes of a sample. -/
def EncJob.sample (j : EncJob) : Nat := if (j.word 2).getLsbD 26 then 2 else 1
/-- Row pitch in bytes. -/
def EncJob.pitch (j : EncJob) : Nat := (bits (j.word 3) 0 32).toNat
/-- Most OBU bytes; 0 for no bound. -/
def EncJob.fbudget (j : EncJob) : Nat := (bits (j.word 3) 32 32).toNat
/-- Address of the stream record. -/
def EncJob.streamAt (j : EncJob) : BitVec 56 := bits (j.word 5) 0 56
/-- Superblock rows (R426). -/
def EncJob.rows (j : EncJob) : Nat := (j.height + 63) / 64

/-- Word i of the stream record as read. -/
def EncRun.word (r : EncRun) (i : Nat) : Word := (r.stream[i]?).getD 0

/-- The checks of R425. -/
def encOk (j : EncJob) (st : Nat → Word) : Bool :=
  let tcl := (bits (j.word 2) 27 3).toNat
  let trl := (bits (j.word 2) 30 3).toNat
  let rsize := (bits (st 1) 0 32).toNat
  [0, 1, 4, 5].all (fun i => bits (j.word i) 56 8 == 0) && bits (j.word 2) 35 29 == 0 && j.word 7 == 0 &&
    bits (st 0) 56 8 == 0 && [1, 2, 3].all (fun i => bits (st i) 32 32 == 0) && bits (st 4) 42 22 == 0 &&
    bits (st 6) 33 31 == 0 && bits (st 7) 56 8 == 0 && bits (st 4) 0 2 != 3 &&
    decide (64 ≤ j.width) && decide (j.width ≤ 4096) && decide (j.width % 8 = 0) &&
    decide (64 ≤ j.height) && decide (j.height ≤ 2304) && decide (j.height % 8 = 0) &&
    decide (j.pitch % 64 = 0) && decide (j.width * j.sample ≤ j.pitch) &&
    decide (2 ^ tcl ≤ (j.width + 63) / 64) && decide (2 ^ trl ≤ (j.height + 63) / 64) && decide (tcl + trl ≤ 4) &&
    decide (rsize ≠ 0) && decide (rsize % 4096 = 0)

/-! ## Accesses of an encoder (R422) -/

/-- The encoder acts for a job's task. -/
def EncJob.user (j : EncJob) : EngUser := { core := j.by_.core, by_ := j.by_, top := false }

/-- n words of global memory from a. -/
def State.encWords (s : State) (u : EngUser) : Nat → Nat → Eng (State × List Word)
  | _, 0 => .ok (s, [])
  | a, n + 1 => do
    let (s, bs) ← s.engRead u .global a 8
    let (s, r) ← State.encWords s u (a + 8) n
    .ok (s, BitVec.ofNat 64 (joinBytes bs) :: r)

/-- Words stored in global memory from a on. -/
def State.encStore (s : State) (u : EngUser) : Nat → List Word → Eng State
  | _, [] => .ok s
  | a, w :: r => do
    let s ← s.engWrite u .global a (splitBytes 8 w.toNat)
    State.encStore s u (a + 8) r

/-- The job in hand is no longer in hand. -/
def State.endRun (s : State) (die : BitVec 4) : State := s.updDie die fun d => { d with encRun := none }

/-- A job is handed back, with the rows read in full (R425, R430). -/
def State.failEnc (s : State) (die : BitVec 4) (j : EncJob) (f : EngFault) (rows : Nat) : State :=
  if f.wait then s else (s.endRun die).handback j.by_ 5 f.cause j.succ f.addr (BitVec.ofNat 64 rows)

/-- A job sends its successor with a status (R429). -/
def State.endEnc (s : State) (die : BitVec 4) (j : EncJob) (len : Nat) (status : Nat) (wptr : Nat) : State :=
  (s.endRun die).release j.by_ 5 j.succ
    [BitVec.ofNat 64 (len % 2 ^ 32 + status * 2 ^ 32), (bits (j.word 6) 0 32).setWidth 64, BitVec.ofNat 64 wptr]

/-! ## Acceptance -/

/-- ENC_QUEUE_ACCEPT: the oldest `enc` of core n enters the queue of its die's encoder, which holds 32 (R422). -/
def execEncQueueAccept (n : CoreId) (s : State) : Out :=
  match (s.core n).remHead with
  | none => .next s
  | some q =>
    match q.op with
    | .enc off =>
      if (s.die (dieOf n)).encQ.length < 32 then
        let j : EncJob := { by_ := q.by_, succ := q.succ, off, words := [] }
        .next (((s.popRem n q.id).endCmd n q.by_.lid 2 false).updDie (dieOf n) fun d => { d with encQ := d.encQ ++ [j] })
      else .next s
    | _ => .next s

/-- The words of a job record, read from the TCM of its core (R423, R425). -/
def State.jobWords (s : State) (u : EngUser) : Nat → Nat → Eng (State × List Word)
  | _, 0 => .ok (s, [])
  | a, n + 1 => do
    let (s, bs) ← s.engRead u .tcm a 8
    let (s, r) ← State.jobWords s u (a + 8) n
    .ok (s, BitVec.ofNat 64 (joinBytes bs) :: r)

/-- A job at the head of the queue with its record, and the words of its stream record (R425). -/
def State.readJob (s : State) (j : EncJob) : Eng (State × EncJob × List Word) := do
  let (s, words) ← s.jobWords j.user j.off 8
  let j := { j with words }
  let (s, stream) ← s.encWords j.user j.streamAt.toNat 16
  .ok (s, j, stream)

/-- ENC_JOB_START: an encoder with no job in hand takes the next one, and reads and checks its records (R425); while a word it needs must
wait, the job stays at the head of the queue. -/
def execEncJobStart (die : BitVec 4) (s : State) : Out :=
  match (s.die die).encRun, (s.die die).encQ with
  | none, j :: rest =>
    let taken (s : State) : State := s.updDie die fun d => { d with encQ := rest }
    match s.readJob j with
    | .error (s, f) => .next (if f.wait then s else (taken s).failEnc die j f 0)
    | .ok (s, j, stream) =>
      let s := taken s
      if encOk j fun i => (stream[i]?).getD 0 then
        let r : EncRun := { job := j, stream, row := 0, waited := 0, moored := false, asked := false, ready := none,
                            poisoned := false,
                            frame := [], complete := false }
        .next (s.updDie die fun d => { d with encRun := some r })
      else .next (s.failEnc die j { cause := 0x01, addr := 0 } 0)
  | _, _ => .next s

/-! ## Row intake (R426) -/

/-- Wrap-up of the wptr that a job starts from: 0 for a stream that is not initialised (R424). -/
def EncRun.wptr (r : EncRun) : Nat := if (r.word 6).getLsbD 32 then (bits (r.word 2) 0 32).toNat else 0

/-- Rows read in full when the read of the next ready word is due: the bottom edge of a row is read after the next word. -/
def EncRun.full (r : EncRun) : Nat := if r.complete then r.job.rows else r.row - 1

/-- Samples as the encoder takes them: bits 15 to 10 of a 10-bit sample are ignored (R423). -/
def EncJob.mask (j : EncJob) (w : Word) : Word := if j.sample = 2 then w &&& 0x03FF03FF03FF03FF else w

/-- n lines of a plane from line y on. -/
def State.readLines (s : State) (j : EncJob) (base : Nat) : Nat → Nat → Eng (State × List Word)
  | _, 0 => .ok (s, [])
  | y, n + 1 => do
    let (s, w) ← s.encWords j.user (base + y * j.pitch) (j.width * j.sample / 8)
    let (s, r) ← State.readLines s j base (y + 1) n
    .ok (s, w.map j.mask ++ r)

/-- Luma lines of superblock row k. -/
def EncJob.lines (j : EncJob) (k : Nat) : Nat := Nat.min 64 (j.height - 64 * k)

/-- Row k without its bottom edge, the last line of each plane. -/
def State.readBody (s : State) (j : EncJob) (k : Nat) : Eng (State × List Word) := do
  let (s, y) ← s.readLines j (bits (j.word 0) 0 56).toNat (64 * k) (j.lines k - 1)
  let (s, c) ← s.readLines j (bits (j.word 1) 0 56).toNat (32 * k) (j.lines k / 2 - 1)
  .ok (s, y ++ c)

/-- The bottom edge of row k. -/
def State.readEdge (s : State) (j : EncJob) (k : Nat) : Eng (State × List Word) := do
  let (s, y) ← s.readLines j (bits (j.word 0) 0 56).toNat (64 * k + j.lines k - 1) 1
  let (s, c) ← s.readLines j (bits (j.word 1) 0 56).toNat (32 * k + j.lines k / 2 - 1) 1
  .ok (s, y ++ c)

/-- The encoder's run changed. -/
def State.updRun (s : State) (die : BitVec 4) (f : EncRun → EncRun) : State :=
  s.updDie die fun d => { d with encRun := d.encRun.map f }

/-- After the stream's first job the part writes init, and nothing else of its word (R424). -/
def State.markInit (s : State) (r : EncRun) : Eng State :=
  if (r.word 6).getLsbD 32 then .ok s
  else s.engWrite r.job.user .global ((r.job.streamAt.toNat + 52 : Nat) : Int) (splitBytes 4 1)

/-- A job ends with status 2, 3 or 4: no unit, and the stream's state as it was but for init (R424, R429). -/
def State.dropEnc (s : State) (die : BitVec 4) (r : EncRun) (status : Nat) : State :=
  match s.markInit r with
  | .ok s => s.endEnc die r.job 0 status r.wptr
  | .error (s, f) => s.failEnc die r.job f r.full

/-- What the read of a ready word allows is read, once the word has been read. -/
def State.takeRow (s : State) (die : BitVec 4) (r : EncRun) (w : Word) : State :=
  let j := r.job
  let s := s.acquireDie die
  if r.poisoned then
    s.failEnc die j { cause := 0x0D, addr := BitVec.ofNat 64 ((bits (j.word 4) 0 56).toNat + 8 * r.row) } r.full
  else if bits w 0 32 ≠ bits (j.word 6) 0 32 then s.dropEnc die r 4
  else
    let last := decide (r.row + 1 = j.rows)
    let edge : Eng (State × List Word) := if r.row = 0 then .ok (s, []) else s.readEdge j (r.row - 1)
    match edge with
    | .error (s, f) => s.failEnc die j f (r.row - 1)
    | .ok (s, e) =>
      let body : Eng (State × List Word) := do
        let (s, b) ← s.readBody j r.row
        if last then
          let (s, t) ← s.readEdge j r.row
          .ok (s, b ++ t)
        else .ok (s, b)
      match body with
      | .error (s, f) => s.failEnc die j f r.row
      | .ok (s, b) => s.updRun die fun x =>
        { x with row := r.row + 1, waited := 0, moored := false, ready := none, frame := r.frame ++ e ++ b, complete := last }

/-- The sync read of the next ready word is issued, at module scope (R426): a fault, or none while it must wait outside. -/
def State.issueRow (s : State) (die : BitVec 4) (r : EncRun) : Eng (Option State) := do
  let j := r.job
  let a := (bits (j.word 4) 0 56).toNat + 8 * r.row
  if a % 8 ≠ 0 then .error (s, { cause := 0x02, addr := BitVec.ofNat 64 a })
  else
    let n := j.by_.core
    let (s, p) ← liftEng (s.checkGlobal n j.by_.dom (j.by_.level == 7) j.by_.region a true false true)
    let mode : SyncMode := if (j.word 2).getLsbD 34 then .rfempty else .rfull
    let s := (s.settle die p.loc).updRun die fun x => { x with moored := true, asked := false }
    .ok (s.syncArrive (s.mooringOf j.by_.dom p.loc mode 0 (.enc die) j.by_.region) n)

/-- ENC_ROW_READY: the read of the next ready word is issued if it is not yet, and once it has been performed the row is
taken in (R426). -/
def execEncRowReady (die : BitVec 4) (s : State) : Out :=
  match (s.die die).encRun with
  | none => .next s
  | some r =>
    if r.complete then .next s
    else
      let t : Eng (Option State) := if r.moored ∨ r.ready.isSome then .ok (some s) else s.issueRow die r
      match t with
      | .error (s, f) => .next (s.failEnc die r.job f r.full)
      | .ok none => .next (s.updRun die fun x => { x with asked := true })
      | .ok (some s) =>
        match (s.die die).encRun with
        | some r =>
          match r.ready with
          | some w => .next (s.takeRow die r w)
          | none => .next s
        | none => .next s

/-- The waiting read of an encoder leaves every mooring list and the weir, as `mcancel` would have it (R95). -/
def State.cancelEnc (s : State) (die : BitVec 4) : State :=
  let mine (m : Mooring) : Bool := m.route == .enc die
  ({ s with moorings := s.moorings.filter fun (m : Mooring) => !mine m } : State).dropWeir fun (e : WeirEntry) => match e.item with
    | .moor m => mine m
    | _ => false

/-- ENC_ROW_TIMEOUT: the read that waits has waited rt further; beyond rwait it is cancelled and the job ends (R426). -/
def execEncRowTimeout (die : BitVec 4) (rt : BitVec 32) (s : State) : Out :=
  match (s.die die).encRun with
  | none => .next s
  | some r =>
    if !(r.moored || r.asked) ∨ r.complete then .next s
    else
      let limit := (bits (r.job.word 6) 32 32).toNat
      let total := r.waited.toNat + rt.toNat
      let late := s.updRun die fun x => { x with waited := BitVec.ofNat 32 (Nat.min total (2 ^ 32 - 1)) }
      if limit ≠ 0 ∧ limit < total then .next ((late.cancelEnc die).dropEnc die r 3) else .next late

/-! ## Output (R427, R428) -/

/-- Bytes of a frame in the reference area: the spec gives the area four frames of the frame's own size. -/
def EncJob.frameBytes (j : EncJob) : Nat := j.width * j.height * j.sample * 3 / 2

/-- The unit's bytes written to the ring, wrapping at its end (R427). -/
def State.ringWrite (s : State) (u : EngUser) (base size : Nat) : Nat → List Word → Eng State
  | _, [] => .ok s
  | p, w :: r => do
    let s ← s.engWrite u .global (base + p % size : Nat) (splitBytes 8 w.toNat)
    State.ringWrite s u base size (p + 8) r

/-- The first n words of the OBU bytes, zero-padded. -/
def obuWords : List Byte → Nat → List Word
  | _, 0 => []
  | bs, n + 1 => BitVec.ofNat 64 (joinBytes (bs.take 8)) :: obuWords (bs.drop 8) n

/-- n words of global memory from a can be stored: nothing is stored (R430). -/
def State.encProbe (s : State) (u : EngUser) : Nat → Nat → Eng State
  | _, 0 => .ok s
  | a, n + 1 => do
    let (s, _) ← s.engCheck u .global a 8 true
    State.encProbe s u (a + 8) n

/-- What the encoder stores beside the unit: the reconstruction, rcstate, init after the first job, and last wptr as a release at
system scope (R424, R427). Every store is checked before the first, so that a fault leaves all of it as it was (R430). -/
def State.storeStream (s : State) (die : BitVec 4) (r : EncRun) (inputs : List Word) (wptr : Nat) : Eng State := do
  let j := r.job
  let u := j.user
  let a := j.streamAt.toNat
  let slot := (Config.freeWord s.free 0).toNat % 4
  let s ← s.encProbe u ((bits (r.word 7) 0 56).toNat + slot * j.frameBytes) (j.frameBytes / 8)
  let s ← s.encProbe u a 16
  let s ← s.encStore u ((bits (r.word 7) 0 56).toNat + slot * j.frameBytes)
    ((upFrom 0 (j.frameBytes / 8)).map fun i => Config.encReference inputs i)
  let s ← s.encStore u (a + 64) ((upFrom 0 8).map fun i => Config.encState inputs i)
  let s ← s.markInit r
  let s := s.releaseDie die
  let s ← s.encStore u (a + 16) [BitVec.ofNat 64 wptr]
  .ok (s.releaseDie die)

/-- The contents of the reference area that a frame may depend on: nothing for a key frame. -/
def State.readRefs (s : State) (r : EncRun) (key : Bool) : Eng (State × List Word) :=
  if key then .ok (s, [])
  else s.encWords r.job.user (bits (r.word 7) 0 56).toNat (4 * r.job.frameBytes / 8)

/-- What a unit holds: its OBU bytes, base qindex and status. -/
structure Unit_ where
  key : Bool
  obus : List Byte
  qidx : Byte
  status : Nat
  deriving DecidableEq, Repr

/-- OBU bytes of a unit. -/
def Unit_.len (x : Unit_) : Nat := x.obus.length

/-- The OBU bytes of the frame at a base qindex (R421, R427): a sequence header where it is coded as a key frame. -/
def EncRun.obus (r : EncRun) (inputs : List Word) (key : Bool) (q : Byte) (dropped : Bool) (limit : Option Nat) : List Byte :=
  let j := r.job
  let level := seqLevel j.width j.height (bits (r.word 6) 0 16).toNat (bits (r.word 6) 16 16).toNat
  temporalUnit key (seqHeader j.width j.height level (decide (j.sample = 2)))
    (framePayload (Config.encField inputs q dropped) (Config.encTile inputs q dropped) key q j.width j.height
      (bits (j.word 2) 27 3).toNat (bits (j.word 2) 30 3).toNat limit)

/-- The base qindex that rate control sets before the frame is coded: cq for constant quality (R428). -/
def EncRun.base (r : EncRun) (inputs : List Word) : Byte :=
  if bits (r.word 4) 0 2 = 2 then bits (r.word 4) 2 8 else Config.encQidx inputs

/-- Bytes that the buffer model has room for beside what the stream's state says it holds: its size and a frame's share of the rate,
which for a variable rate may rise to the peak (R428). None for constant quality, which has no buffer model. -/
def EncRun.room (r : EncRun) : Option Nat :=
  let share (kbps : Nat) : Nat := kbps * 125 * (bits (r.word 6) 16 16).toNat / (bits (r.word 6) 0 16).toNat
  let rate := share (bits (r.word 4) 10 32).toNat
  let size := (bits (r.word 5) 0 32).toNat * 125
  let held := Config.encHeld ((upFrom 8 8).map r.word)
  match (bits (r.word 4) 0 2).toNat with
  | 0 => some (size + rate - held)
  | 1 => some (size + Nat.max rate (share (bits (r.word 5) 32 32).toNat) - held)
  | _ => none

/-- The frame coded at a base qindex. Where the buffer model has no room for it, coefficients are dropped until it has: every tile gets an
equal share of the room, or a byte where there is none, and the sizes and headers are left room for (R428). -/
def EncRun.code (r : EncRun) (inputs : List Word) (key : Bool) (q : Byte) (dropped : Bool) : List Byte :=
  let whole := r.obus inputs key q dropped none
  match r.room with
  | none => whole
  | some room =>
    if whole.length ≤ room then whole
    else
      let tiles := 2 ^ ((bits (r.job.word 2) 27 3).toNat + (bits (r.job.word 2) 30 3).toNat)
      let least := (r.obus inputs key q dropped (some 1)).length
      r.obus inputs key q dropped (some (1 + (room - least - 8 - 4 * tiles) / tiles))

/-- The unit of a complete frame (R427, R428): a frame over its budget is coded again, at a raised qindex and with coefficients dropped;
where none within the budget comes of it, at qindex 255, and if that is over the budget too it is written all the same, with status 1. -/
def EncRun.unit (r : EncRun) (inputs : List Word) (key : Bool) : Unit_ :=
  let cap := r.job.fbudget
  let q := r.base inputs
  let obus := r.code inputs key q false
  if cap = 0 ∨ obus.length ≤ cap then { key, obus, qidx := q, status := 0 }
  else
    let q := if (Config.encRaised inputs).toNat ≤ q.toNat then 255 else Config.encRaised inputs
    let obus := r.code inputs key q true
    if obus.length ≤ cap then { key, obus, qidx := q, status := 0 }
    else
      let obus := r.code inputs key 255 true
      { key, obus, qidx := 255, status := if obus.length ≤ cap then 0 else 1 }

/-- The unit's header words (R427). -/
def Unit_.header (x : Unit_) (pts : BitVec 32) : List Word :=
  [pts ++ BitVec.ofNat 32 x.len, (x.qidx ++ 0#6 ++ BitVec.ofBool x.key ++ BitVec.ofBool x.key : BitVec 16).setWidth 64]

/-- Bytes that a unit takes in the ring. -/
def Unit_.size (x : Unit_) : Nat := (16 + x.len + 63) / 64 * 64

/-- Streams that owe a key frame, with or without one (R427). -/
def oweKey (l : List (BitVec 56)) (a : BitVec 56) (on : Bool) : List (BitVec 56) :=
  let rest := l.filter fun x => x != a
  if on then a :: rest else rest

/-- ENC_UNIT_WRITE: the unit of a complete frame is written and wptr released, or dropped for lack of space (R427 to R430). -/
def execEncUnitWrite (die : BitVec 4) (s : State) : Out :=
  match (s.die die).encRun with
  | none => .next s
  | some r =>
    if !r.complete then .next s
    else
      let j := r.job
      let u := j.user
      let key := (j.word 2).getLsbD 33 || !(r.word 6).getLsbD 32 || s.encKey.contains j.streamAt
      let read : Eng (State × List Word × List Word) := do
        let (s, p) ← (s.acquireDie die).encWords u (j.streamAt.toNat + 24) 1
        let (s, refs) ← s.readRefs r key
        .ok (s, p, refs)
      match read with
      | .error (s, f) => .next (s.failEnc die j f j.rows)
      | .ok (s, p, refs) =>
        let inputs := j.words ++ r.stream ++ BitVec.ofNat 64 (if key then 1 else 0) :: r.frame ++ refs
        let x := r.unit inputs key
        let rsize := (bits (r.word 1) 0 32).toNat
        let rptr := (bits (p.headD 0) 0 32).toNat
        let w := r.wptr
        let space := rsize - (((w : Int) - rptr) % rsize).toNat - 64
        if space < x.size then
          .next (({ s with encKey := oweKey s.encKey j.streamAt true } : State).dropEnc die r 2)
        else
          let words := x.header (bits (j.word 6) 0 32) ++ obuWords x.obus ((x.size - 16) / 8)
          match s.ringWrite u (bits (r.word 0) 0 56).toNat rsize w words with
          | .error (s, f) => .next (s.failEnc die j f j.rows)
          | .ok s =>
            let next := (w + x.size) % rsize
            match s.storeStream die r inputs next with
            | .error (s, f) => .next (s.failEnc die j f j.rows)
            | .ok s =>
              .next (({ s with free := s.free + 1, encKey := oweKey s.encKey j.streamAt false } : State).endEnc die j x.len x.status next)

end Sys2Proof.Machine
end

