-- ==== Sys2Proof/Machine/EventsMemory.lean ====
section
/-! DEFINITION. Events of memory: store buffers, sync accesses, replies and acknowledgements (R94, R113, R222, R224, R410),
scratchpad refills (R78), page walks (R387), `pginv` (R358), page migration (R396 to R398), forward credits (R408) and
eviction errors (R402). An event that finds nothing to do leaves the state as it is. -/

namespace Sys2Proof.Machine

/-- Oldest entry of core n's store buffer, if it is a sync write, or not, as asked. -/
def Core.headIs (c : Core) (p : StoreEntry → Bool) : Bool :=
  match c.sbuf with
  | e :: _ => p e
  | [] => false

/-- STORE_BUFFER_DRAIN: the oldest store leaves the buffer (R113). -/
def execStoreBufferDrain (n : CoreId) (s : State) : Out :=
  .next (if (s.core n).headIs (fun e => e.mode.isNone) then (s.drainOne n).getD s else s)

/-- SYNC_ACCESS_AT_OWNER: the oldest sync write, or else the oldest sync read, reaches its owner (R94). -/
def execSyncAccessAtOwner (n : CoreId) (s : State) : Out :=
  .next (if (s.core n).headIs (fun e => e.mode.isSome) then (s.drainOne n).getD s else (s.flightArrive n).getD s)

/-- The core whose queue register an entry at core n reaches: the one that has the context of its LID; none while no core has (R352). -/
def State.receiverOf (s : State) (n : CoreId) (d : Delivery) : Option CoreId :=
  let holds (m : CoreId) : Bool :=
    (s.core m).lid == d.lid && (s.core m).savedLid != some d.lid && (s.core m).loading != some d.lid && !s.contextOut d.lid
  if holds n then some n else if holds (s.physOf d.lid) then some (s.physOf d.lid) else none

/-- LDQ_ENTRY_DELIVER: the first entry at core n that can reach the queue register of its LID is appended to it (R224, R352). -/
def execLdqEntryDeliver (n : CoreId) (s : State) : Out :=
  let l := (s.core n).deliver
  match (firstIdx (fun d => (s.receiverOf n d).isSome) l).bind fun i => (l[i]?).map fun d => (i, d) with
  | none => .next s
  | some (i, d) =>
    let s' := s.updCore n fun c => { c with deliver := dropAt c.deliver i }
    .next (s'.updCore ((s.receiverOf n d).getD n) fun c => c.updQ d.q fun q =>
      { q with resv := q.resv - 1, entries := q.entries ++ [{ data := d.entry, src := none, scope := d.scope }] })

/-- ATOMIC_REPLY: the oldest reply of core n is written into the window that waits for it; a poison trap that it carries is taken
when the frame runs, before its next instruction (R222). The return of an acquiring atomic's result is its acquire (R120). -/
def execAtomicReply (n : CoreId) (s : State) : Out :=
  match (s.core n).replies with
  | [] => .next s
  | r :: rest =>
    let arrived (f : Bank → Bank) : State := s.updCore n fun c =>
      { c.updBank r.level fun b => { f b with spend := b.spend &&& ~~~(1#32 <<< r.d.toNat) } with replies := rest }
    match r.value, r.trap with
    | none, none => .next s
    | some v, _ =>
      .next ((if r.voided then s.updCore n fun c => { c with replies := rest } else arrived fun b => b.ws r.d v).acquireOwed n
        r.acquire)
    | none, some (cause, a) =>
      if r.voided then .next (s.updCore n fun c => { c with replies := rest })
      else .next ((arrived fun b => b).updCore n fun c => { c with
        heldTraps := c.heldTraps ++ [{ level := r.level.setWidth 4, cause, addr := a, epc := some r.epc }] })

/-- PAGE_REFILL: the oldest refill asked for in a cluster is made (R78). -/
def execPageRefill (cl : BitVec 14) (s : State) : Out :=
  match (s.cluster cl).refills with
  | [] => .next s
  | (dom, backing, pa) :: r =>
    let k := s.cluster cl
    let drop := s.updCluster cl fun k => { k with refills := r }
    if k.gstate ≠ 0 ∨ k.allPinned ∨ (k.findFrame dom backing).isSome then .next drop
    else .next (drop.fillPage cl dom backing pa)

/-- PAGE_WALK: a die's walker translates an address and keeps a present translation (R387, R389). A malformed entry is kept by
no walker, and faults the access that asked: the machine check is raised there, to the region of the access (R388). Addresses of the
management space are not walked (R432). -/
def execPageWalk (die : BitVec 4) (va : BitVec 56) (s : State) : Out :=
  .next (if isMgmt va.toNat then s else (s.translate die va).1)

/-- GATED_REPLY: an access of core n to its gated scratchpad is performed on the backing word (R79, R235). -/
def execGatedReply (n : CoreId) (s : State) : Out :=
  if (s.cluster (clusterOf n)).gstate = 0 then .next s
  else if (s.core n).headIs (fun e => e.space == .scratch) then .next ((s.drainOne n).getD s)
  else
    match (s.core n).flight with
    | f :: _ => .next (if f.space = .scratch then (s.flightArrive n).getD s else s)
    | [] => .next s

/-- ACKNOWLEDGEMENT: the oldest acknowledgement on its way to core n is counted (R410). -/
def execAcknowledgement (n : CoreId) (s : State) : Out :=
  match (s.core n).acks with
  | [] => .next s
  | t :: r =>
    let s := s.updCore n fun c => { c with acks := r, unacked := c.unacked.filter fun (x : Nat) => x != t }
    .next { s with wire := s.wire.filter fun (w : Wire) => w.msg.tag != some t }

/-- A home recalls the line of an entry's word from the L2 slice that holds it exclusively; the slice keeps it while other entries wait
for the line (R92, R408). -/
def State.recallLine (s : State) (x : Mooring) : State :=
  if (s.allMoorings.erase x).any fun m => m.owner.isMem && m.word / 8 == x.word / 8 then s
  else { s with exclusive := Cells.erase s.exclusive (x.word / 8) }

/-- FORWARD_CREDIT: the controller at place k among those without credit gets one, for its oldest forward-wait entry, which is
performed, or waits at the word's owner for its condition (R408). -/
def execForwardCredit (k : BitVec 16) (s : State) : Out :=
  match s.noCredit[k.toNat]? with
  | none => .next s
  | some o =>
    match firstIdx (fun (m : Mooring) => m.fwd && m.owner == o) s.moorings with
    | none => .next { s with noCredit := dropAt s.noCredit k.toNat }
    | some i =>
      match s.moorings[i]? with
      | none => .next s
      | some m =>
        let s := if m.owner = s.memOwner (8 * m.word) then s else s.recallLine m
        let m : Mooring := { m with owner := s.memOwner (8 * m.word) }
        let p : Spot := { owner := m.owner, word := m.word, dom := m.dom }
        if m.mode.holds (s.spotFull p) then .next (({ s with moorings := dropAt s.moorings i } : State).syncServe m)
        else .next { s with moorings := updAt (fun _ => { m with fwd := false }) s.moorings i }

/-! ## Invalidation of a page (R358, R389) -/

/-- Bytes of a page of a level (R385). -/
def pageSize (level : BitVec 2) : Nat := 2 ^ (16 + 10 * level.toNat)

/-- The die's agents have named the copy by an address of the virtual range lo to hi - 1. -/
def Copy.named (c : Copy) (lo hi : Nat) : Bool := c.names.any fun v => decide (lo ≤ 65536 * v) && decide (65536 * v < hi)

/-- A die drops its translations of a virtual range, and a domain's copies of the words of that range (R358). -/
def State.dropTranslations (s : State) (die : BitVec 4) (dom : BitVec 16) (lo hi : Nat) : State :=
  let hit (e : TlbEntry) : Bool :=
    let a := e.page * pageSize e.level
    decide (a < hi) && decide (lo < a + pageSize e.level)
  let words := ((s.die die).copies.filter fun c => c.2.dom == dom && c.2.named lo hi).map (·.1)
  let s := words.foldl (fun s w => s.evictCopy die w) s
  s.updDie die fun d => { d with tlb := d.tlb.filter fun e => !hit e }

/-- The frames of a cluster that a `pginv` names are written back and freed, fuel of them at most. -/
def State.dropFrames (s : State) (cl : BitVec 14) (dom : BitVec 16) (lo hi : Nat) : Nat → State
  | 0 => s
  | k + 1 =>
    match firstIdx (fun (f : Frame) => f.dom == dom && decide (lo ≤ f.backing.toNat * 4096) &&
        decide (f.backing.toNat * 4096 < hi)) (s.cluster cl).frames with
    | some i => State.dropFrames (s.evictFrame cl i) cl dom lo hi k
    | none => s

/-- A retired store or a sync read under way of core n was translated through the virtual range lo to hi - 1. -/
def Core.usesRange (c : Core) (lo hi : Nat) : Bool :=
  c.sbuf.any (fun e => e.space != .tcm && decide (lo ≤ e.va) && decide (e.va < hi)) ||
    c.flight.any fun f => f.space != .tcm && decide (lo ≤ f.va) && decide (f.va < hi)

/-- The stores and sync reads of every core that a virtual range's old frame still has to receive are performed (R80, R389). -/
def State.settleRange (s : State) (lo hi : Nat) : State :=
  s.cores.foldl (fun (s : State) e =>
    if e.2.usesRange lo hi then
      let n : CoreId := BitVec.ofNat 18 e.1
      let s := s.drainFrom n e.2.sbuf.length
      s.flightsFrom n e.2.flight.length
    else s) s

/-- A page move that has copied its last granule ends: no die keeps a copy under the old frame, and what the part holds by
physical address names the new one: provisional stores, scratchpad pages and their refills, accesses on their way, launches and
barriers (R328, R398). -/
def State.endMigration (s : State) (m : Migration) : State :=
  let s := (upFrom 0 16).foldl (fun (s : State) d =>
    ((s.die (BitVec.ofNat 4 d)).copies.filter fun c => c.1 / 8192 == m.p).foldl (fun (s : State) c =>
      s.evictCopy (BitVec.ofNat 4 d) c.1) s) s
  let to_ (pa : Nat) : Nat := if pa / 65536 = m.p then m.p2 * 65536 + pa % 65536 else pa
  { s with migrations := s.migrations.filter fun (x : Migration) => x != m
           prov := s.prov.map fun (p : Prov) => { p with pa := to_ p.pa }
           clusters := s.clusters.map fun (k : Nat × Cluster) => (k.1, { k.2 with
             refills := k.2.refills.map fun (r : BitVec 16 × BitVec 44 × Nat) => (r.1, r.2.1, to_ r.2.2)
             frames := k.2.frames.map fun (f : Frame) => { f with pa := to_ f.pa } })
           cores := s.cores.map fun (c : Nat × Core) => (c.1, { c.2 with
             sbuf := c.2.sbuf.map fun (e : StoreEntry) => { e with pa := to_ e.pa }
             flight := c.2.flight.map fun (f : Flight) => { f with pa := to_ f.pa } })
           barriers := s.barriers.map fun (b : Barrier) => { b with pa := to_ b.pa }
           gangBars := s.gangBars.map fun g => (g.1, g.2.1, to_ g.2.2)
           weir := s.weir.map fun (e : WeirEntry) => match e.queue with
             | .barrier pa => { e with queue := .barrier (to_ pa) }
             | _ => e }

/-- PGINV_COMPLETE: every die has finished the oldest `pginv` of core n, and the stores translated before it have reached the
frame that their translations named; refills asked for through an old translation are not made (R78); type 0x02 is sent (R358,
R389). It waits while one of them cannot leave. A page move that
has copied its last granule, and whose page now has its new frame, ends (R398). -/
def execPginvComplete (n : CoreId) (s : State) : Out :=
  match firstIdx (fun (p : Pginv) => p.core == n) s.pginvs with
  | none => .next s
  | some i =>
    match s.pginvs[i]? with
    | none => .next s
    | some p =>
      let lo := p.page
      let hi := p.page + pageSize p.level
      let t := s.settleRange lo hi
      if t.cores.any (fun e => e.2.usesRange lo hi) then .next s
      else
      let s := (upFrom 0 16).foldl (fun (s : State) d => s.dropTranslations (BitVec.ofNat 4 d) p.dom lo hi) t
      let s := s.clusters.foldl (fun (s : State) e =>
        (s.dropFrames (BitVec.ofNat 14 e.1) p.dom lo hi e.2.frames.length).updCluster (BitVec.ofNat 14 e.1) fun k =>
          { k with refills := k.refills.filter fun (r : BitVec 16 × BitVec 44 × Nat) =>
              !(decide (lo ≤ r.2.1.toNat * 4096) && decide (r.2.1.toNat * 4096 < hi)) }) s
      let there := match (s.walkFrom (dieOf n) [] (BitVec.ofNat 56 lo) 0 4).1 with
        | .page pa => some (pa / 65536)
        | .absent _ _ => none
      let s := (s.migrations.filter fun (m : Migration) => decide (m.next = 1024) && there == some m.p2).foldl
        (fun (s : State) (m : Migration) => s.endMigration m) s
      let s := { s with pginvs := dropAt s.pginvs i }
      .next (s.postOwn 0x02 7 p.lid p.lid [p.addr] 0)

/-! ## Page migration (R396 to R398) -/

/-- The number of the key slot of a quay whose key is k; none where no slot holds it. -/
def Quay.slotOfKey (q : Quay) (k : Nat) : Option Nat := (upFrom 0 256).find? fun x => q.slotKey x == k

/-- The key at the quay of PA b of the slot that holds key k at the quay of PA a: the data is enciphered anew for its new address (R396,
R399). -/
def State.rekeyed (s : State) (a b k : Nat) : Nat :=
  match (s.quay (homeDie a)).slotOfKey k with
  | some x => (s.quay (homeDie b)).slotKey x
  | none => 2 ^ 512 + 1

/-- The bytes, bits, poison and waiting entries of one granule move from PA a to PA b, those in the weir, too (R396); an entry that
waits for a forward credit waits for one of the new home's (R408). -/
def State.moveGranule (s : State) (a b : Nat) : State :=
  let s := (upFrom 0 16).foldl (fun (s : State) d =>
    (upFrom 0 8).foldl (fun (s : State) w => s.evictCopy (BitVec.ofNat 4 d) (a / 8 + w)) s) s
  let s := (upFrom 0 64).foldl (fun (s : State) i =>
    { s with mem := (s.mem.set (b + i) (s.mem.get (a + i))).set (a + i) 0 }) s
  let s := (upFrom 0 4).foldl (fun (s : State) i =>
    { s with bkey := Cells.putD 0 (Cells.putD 0 s.bkey (b / 16 + i) (s.rekeyed a b (Cells.getD s.bkey (a / 16 + i) 0)))
                       (a / 16 + i) 0 }) s
  let s := (upFrom 0 8).foldl (fun (s : State) w =>
    { s with fe := feSet (feSet s.fe (b / 8 + w) (feGet s.fe (a / 8 + w))) (a / 8 + w) true
             poison := poisonSet (poisonSet s.poison (b / 8 + w) (poisonGet s.poison (a / 8 + w))) (a / 8 + w) false }) s
  let move (m : Mooring) : Mooring :=
    if m.owner.isMem ∧ a / 8 ≤ m.word ∧ m.word < a / 8 + 8 then
      { m with owner := .home (homeDie b), word := b / 8 + (m.word - a / 8) } else m
  let stuck := s.allMoorings.any fun m => m.fwd && move m != m
  { s with noCredit := if stuck ∧ !s.noCredit.contains (.home (homeDie b)) then s.noCredit ++ [.home (homeDie b)] else s.noCredit
           lines := Cells.putD 0 (Cells.putD 0 s.lines (b / 64) (Cells.getD s.lines (a / 64) 0)) (a / 64) 0
           exclusive := Cells.erase (Cells.erase s.exclusive (a / 64)) (b / 64)
           moorings := s.moorings.map move
           weir := s.weir.map fun (e : WeirEntry) =>
             match e.item with
             | .moor m => if move m = m then e else { e with queue := .mooring (move m).owner, item := .moor (move m) }
             | _ => e }

/-- A leaf of 64 MiB or 64 GiB in the page tables lies over the frame p: the node at PA n, with l + 1 levels to go, holds it or leads
to it (R386, R387). -/
def State.largeLeaf (s : State) (p : Nat) : Nat → Nat → Bool
  | _, 0 => false
  | _, 1 => false
  | n, l + 2 => (upFrom 0 1024).any fun i =>
    let a := n + 8 * i
    (s.homeByte 0 (s.live a)).getLsbD 0 &&
      let e : Word := s.tableWord (homeDie (s.live a)) [] a
      !pteBad e (l + 1) &&
        (if bits e 1 1 = 1 then
          let frame := e.toNat % 2 ^ 52 / 2 ^ 16 * 2 ^ 16
          decide (frame ≤ p * 65536) && decide (p * 65536 < frame + 2 ^ (16 + 10 * (l + 1)))
        else State.largeLeaf s p (e.toNat % 2 ^ 52 / 2 ^ 13 * 2 ^ 13) (l + 1))

/-- A larger page than 64 KiB lies over the frame p: the tables map it, or some die keeps its translation (R396). -/
def State.inLargePage (s : State) (p : Nat) : Bool :=
  (s.dies.any fun d => d.2.tlb.any fun e =>
    e.level != 0 && decide (e.frame ≤ p * 65536) && decide (p * 65536 < e.frame + pageSize e.level)) || s.largeLeaf p 0 4

/-- PAGE_MIGRATION: a page of 64 KiB moves from frame p to frame p2, one granule a step; it does not start while the page
holds provisional lines, and larger pages are not moved (R396). -/
def execPageMigration (p p2 : BitVec 24) (s : State) : Out :=
  let a := p.toNat
  let b := p2.toNat
  match s.migrations.find? fun (m : Migration) => m.p == a with
  | some m =>
    if m.next < 1024 then
      let from_ := a * 65536 + 64 * m.next
      let dest := m.p2 * 65536 + 64 * m.next
      let s := s.moveGranule from_ dest
      .next { s with migrations := s.migrations.map fun (x : Migration) =>
        if x.p = a then { x with next := x.next + 1 } else x }
    else .next s
  | none =>
    if a = b ∨ s.inLargePage a ∨ s.prov.any (fun x => x.pa / 65536 == a) ∨ s.migrations.any (fun m => m.p == b || m.p2 == b || m.p2 == a) then
      .next s
    else .next { s with migrations := s.migrations ++ [{ p := a, p2 := b, next := 0 }] }

/-- OLD_HOME_FORWARD: an access of core n that reached the old home of a granule already copied is performed at the new
one (R397). -/
def execOldHomeForward (n : CoreId) (s : State) : Out :=
  if (s.core n).headIs (fun e => e.space == .global && s.live e.pa != e.pa) then .next ((s.drainOne n).getD s)
  else
    match (s.core n).flight with
    | f :: _ => .next (if f.space = .global ∧ s.live f.pa ≠ f.pa then (s.flightArrive n).getD s else s)
    | [] => .next s

/-! ## Errors -/

/-- The region whose domain a line carries (R402). -/
def State.regionOfDom (s : State) (dom : BitVec 16) : Option Region :=
  (s.regions.find? fun e => e.2.dom == dom).map (·.1)

/-- The dirty copy of a die that holds words of the granule at PA a. -/
def State.dirtyCopy (s : State) (a : Nat) : Option Copy :=
  s.dies.findSome? fun d => (d.2.copies.find? fun c => c.1 / 8 == a / 64 && c.2.dirty != 0).map (·.2)

/-- The scratchpad page with a dirty word of the granule at PA a: its cluster and its place there. -/
def State.dirtyFrame (s : State) (a : Nat) : Option (BitVec 14 × Nat × Frame) :=
  s.clusters.findSome? fun c =>
    match firstIdx (fun (f : Frame) => f.pa / 4096 == a / 4096 && f.dirty.any fun o => (f.pa + o) / 64 == a / 64) c.2.frames with
    | some i => (c.2.frames[i]?).map fun f => (BitVec.ofNat 14 c.1, i, f)
    | none => none

/-- The virtual address of a PA through a translation that some die keeps. -/
def State.vaOf (s : State) (pa : Nat) : Option Nat :=
  s.dies.findSome? fun d => (d.2.tlb.find? fun e => decide (e.frame ≤ pa) && decide (pa < e.frame + pageSize e.level)).map
    fun e => e.page * pageSize e.level + (pa - e.frame)

/-- EVICTION_ERROR: the dirty line of the granule at pa is written back from the copies of the dies or from its scratchpad frame,
poison is set on every word of the granule, and the error is charged to the domain of the line (R402): that of the dirty frame or
copy, else of the on-chip line, else, where no line is held, the event's. The virtual address is the frame's backing address or one
that a die translates to the granule; where the part keeps none it is a free value. -/
def execEvictionError (pa : BitVec 52) (dom : BitVec 16) (s : State) : Out :=
  let pa0 := pa.toNat / 64 * 64
  let a := s.live pa0
  let frame := s.dirtyFrame pa0
  let dom : BitVec 16 := match frame, s.dirtyCopy pa0, Cells.getD s.lines (a / 64) 0 with
    | some (_, _, f), _, _ => f.dom
    | none, some c, _ => c.dom
    | none, none, l + 1 => BitVec.ofNat 16 l
    | none, none, 0 => dom
  let va : Word := match frame, s.vaOf pa0 with
    | some (_, _, f), _ => BitVec.ofNat 64 (f.backing.toNat * 4096 + pa0 % 4096)
    | none, some x => BitVec.ofNat 64 x
    | none, none => Config.freeWord s.free 0
  let s := match frame with
    | some (cl, i, _) => (s.evictFrame cl i).updCluster cl Cluster.sramError
    | none => s
  let s := (upFrom 0 16).foldl (fun (s : State) d =>
    (upFrom 0 8).foldl (fun (s : State) w => s.evictCopy (BitVec.ofNat 4 d) (pa0 / 8 + w)) s) s
  let s := (upFrom 0 8).foldl (fun (s : State) w => { s with poison := poisonSet s.poison (a / 8 + w) true }) s
  .next (s.machineCheck (homeDie a) 0x02 dom va (s.regionOfDom dom))

/-- An uncorrectable error in the LLC or the HBM4E poisons the word at a PA (R402, R445). -/
def State.wordError (s : State) (pa : Nat) : State :=
  if isHost pa then s else { s with poison := poisonSet s.poison (s.live pa / 8) true }

/-- An uncorrectable error in a die's L2 copy of the word at a PA: what was stored there and has not gone home is lost with the copy, and
the word is poisoned; a clean copy is discarded, to be filled again (R402, R445). -/
def State.copyError (s : State) (die : BitVec 4) (pa : Nat) : State :=
  match Cells.find (s.die die).copies (pa / 8) with
  | none => s
  | some c =>
    let s := s.updDie die fun k => { k with copies := Cells.erase k.copies (pa / 8) }
    if c.dirty = 0 then s else s.wordError pa

/-- An uncorrectable error in a word of a scratchpad frame poisons the word there, and counts for the cluster's SRAM rail (R436,
R445). -/
def State.pageError (s : State) (cl : BitVec 14) (i w : Nat) : State :=
  if i < (s.cluster cl).frames.length ∧ w < 512 then
    (s.updFrame cl i fun f => { f with poison := poisonSet f.poison w true }).updCluster cl Cluster.sramError
  else s

/-- ICACHE_PARITY_ERROR: the line of core n's instruction cache is discarded (R172, R445). -/
def execIcacheParityError (n : CoreId) (va : BitVec 56) (s : State) : Out :=
  .next (s.updCore n fun c => { c with icache := c.icache.drop fun a => a / 64 == va.toNat / 64 })

end Sys2Proof.Machine
end

