-- ==== Sys2Proof/Machine/EventsPower.lean ====
section
/-! DEFINITION. Events of the management space, of power and of errors: register writes (R431 to R435, R439 to R441, R446,
R449), rails and replay (R436 to R438), heat (R444), core checks (R445), and module reset (R449). -/

namespace Sys2Proof.Machine

/-! ## Registers written by an agent other than a core in its turn -/

/-- MGMT_REGISTER_WRITE: a register of the management space is written (R432, R433). -/
def execMgmtRegisterWrite (va : BitVec 56) (data : Word) (s : State) : Out :=
  .next (if isMgmt va.toNat ∧ va.toNat % 8 = 0 then s.mgmtWrite va.toNat data else s)

/-- DIVIDER_WRITE (R435). -/
def execDividerWrite (cl : BitVec 14) (data : Word) (s : State) : Out := .next (s.writeDividers cl data)

/-- POWER_SWITCH_WRITE (R441). -/
def execPowerSwitchWrite (cl : BitVec 14) (data : Word) (s : State) : Out := .next (s.writeSwitches cl data)

/-- SCRATCHPAD_GATE_REQUEST: sgreq is set (R439). -/
def execScratchpadGateRequest (cl : BitVec 14) (s : State) : Out := .next (s.requestScratchGate cl)

/-- CLUSTER_GATE_REQUEST: cgreq is set, where it may be (R439). -/
def execClusterGateRequest (cl : BitVec 14) (s : State) : Out := .next (s.requestClusterGate cl)

/-- GATE_DRAIN_COMPLETE (R439 step 5). -/
def execGateDrainComplete (cl : BitVec 14) (s : State) : Out := .next (s.endDrain cl)

/-- GATE_WAKE: the gating register is written (R440). -/
def execGateWake (cl : BitVec 14) (data : Word) (s : State) : Out := .next (s.writeGate cl data)

/-- WAKE_COMPLETE (R440). -/
def execWakeComplete (cl : BitVec 14) (s : State) : Out := .next (s.endWake cl)

/-- CORE_RESET: creset is written (R446). -/
def execCoreReset (cl : BitVec 14) (data : Word) (s : State) : Out := .next (s.writeCluster cl 0x048 data)

/-- PACER_ENABLE: pace.ctl is written (R431). -/
def execPacerEnable (die : BitVec 4) (data : Word) (s : State) : Out := .next (s.writePacer die data)

/-- PACER_RELEASE: a period of a pacer has passed (R431). -/
def execPacerRelease (die : BitVec 4) (s : State) : Out := .next (s.paceRelease die)

/-- KEY_SLOT_COMMIT: a slot number is written in a quay die's window (R449). -/
def execKeySlotCommit (bay : BitVec 4) (slot : BitVec 8) (s : State) : Out := .next (s.commitKey bay slot)

/-! ## Rails (R436 to R438) -/

/-- SRAM_RAIL_WINDOW: a window of 2^24 accesses ends with its count of corrected errors, by which the rail moves. An uncorrectable error
raises it at once (R436, Cluster.sramErrors): in the turn that reports it, or, for the errors that no other turn has reported, here. -/
def execSramRailWindow (cl : BitVec 14) (corrected uncorrected : BitVec 32) (s : State) : Out :=
  .next (s.updCluster cl fun k =>
    let k := k.sramErrors uncorrected
    let cur := k.scur.toNat
    let c := corrected.toNat
    let next :=
      if c > 2 * k.sset.toNat then Nat.min (cur + 1) (Nat.max cur k.sceil.toNat)
      else if c < k.sset.toNat ∧ k.noLower = 0 ∧ k.sfloor.toNat < cur then cur - 1
      else cur
    { k with scur := BitVec.ofNat 8 next, cerr := k.cerr + corrected, noLower := k.noLower - 1 })

/-- LOGIC_RAIL_LOWER: 2^24 cc have passed without a replay in the cluster (R437). -/
def execLogicRailLower (cl : BitVec 14) (s : State) : Out :=
  .next (s.updCluster cl fun k => { k with lcur := if k.lfloor.toNat < k.lcur.toNat then k.lcur - 1 else k.lcur })

/-- TIMING_REPLAY: a core replays an instruction, which leaves no visible trace; a second replay within 4,096 cc raises the
logic rail (R437, R438). -/
def execTimingReplay (n : CoreId) (second : Bool) (s : State) : Out :=
  .next (if second then
    s.updCluster (clusterOf n) fun k => { k with lcur := if k.lcur.toNat < k.lceil.toNat then k.lcur + 1 else k.lcur }
  else s)

/-! ## Heat (R444) -/

/-- The temperature of a core as its cluster reads it. -/
def State.setTemp (s : State) (n : CoreId) (t : Byte) : State :=
  s.updCluster (clusterOf n) fun k => { k with temp := k.temp.set (slotOf n).toFin t }

/-- THERMAL_NOTIFY: a core reads a temperature; at or above the limit, with its flag armed, it gets type 0x0C (R444). -/
def execThermalNotify (n : CoreId) (temp : BitVec 8) (s : State) : Out := .next ((s.setTemp n temp).notifyHeat n)

/-- ARMED_FLAG_REARM: a core reads a temperature; at or below the release temperature its flag is armed again (R444). -/
def execArmedFlagRearm (n : CoreId) (temp : BitVec 8) (s : State) : Out := .next ((s.setTemp n temp).rearm n)

/-! ## Errors and reset -/

/-- CORE_CHECK: an uncorrectable error in a core's state stops the core, and the service core of its sector is told (R445). An error in
its TCM, which is one of the cluster's SRAM, is a turn of its own (State.tcmError). -/
def execCoreCheck (n : CoreId) (s : State) : Out := .next (s.stopCore n)

/-- An uncorrectable error in a core's TCM, vector table or inbox: an error of the cluster's SRAM, which raises the SRAM rail (R436), and
a core check (R445). -/
def State.tcmError (s : State) (n : CoreId) : State := (s.updCluster (clusterOf n) Cluster.sramError).stopCore n

/-- MODULE_RESET: module reset and bring-up (R449). The cores that fail their test are absent (R20), the ports that fail are quarantined,
and each failure is recorded; the micro-kernel writes what it finds to write (State.bring, which a turn of the schedule sets). The host gives the module its number again (R23), the host's
own memory (R382) is none of the module's, and the model's own schedule and counters go on. -/
def execModuleReset (s : State) : Out :=
  let b := s.bring
  let t : State := { State.reset with cur := s.cur, turns := s.turns, free := s.free, nextId := s.nextId, modu := s.modu,
                                       disabled := b.cores, mem := Cells.drop s.mem fun a => !isHost a, boot := b, bring := b,
                                       ctrlLog := b.cores.map (fun n => (0x03, n.setWidth 64)) ++
                                         b.ports.map fun p => (0x02, p.setWidth 64) }
  let t := b.ports.foldl (fun (t : State) p => t.updPort p fun k => { k with settled := false, quarantined := true }) t
  .next { t with services := (upFrom 0 64).map fun x => (BitVec.ofNat 6 x, t.serviceCore (BitVec.ofNat 6 x)) }

end Sys2Proof.Machine
end

