-- ==== Sys2Proof/Decode.lean ====
section
/-! DEFINITION. The decoder of R159 to R168, total on any bytes, and the encoder written from the same
tables. A 32-bit instruction is four fields: major, d, a and the low 14 bits (R161). -/

namespace Sys2Proof

/-- Why bytes decode to no instruction. All but truncated raise the trap of R169 step 6. -/
inductive DecodeError where
  /-- fewer bytes than the form needs -/
  | truncated
  /-- unassigned or reserved major opcode (R163, R164) -/
  | major
  /-- function code, sub value or size that no entry assigns (R164) -/
  | function
  /-- a reserved field that is not zero (R162) -/
  | reserved
  /-- a register number outside its class (R162) -/
  | register
  /-- a scope, mode, space, type or option code that names nothing (R90, R111, R237) -/
  | code
  /-- the fields break a limit of the entry (R166, R194, R245) -/
  | limit
  deriving DecidableEq, Repr

/-- The outcome of decoding. -/
abbrev Dec := Except DecodeError Instr

/-- Goes on with k when the condition holds. -/
def needs (c : Bool) (e : DecodeError) (k : Dec) : Dec := if c then k else .error e

/-- Goes on with the value, when there is one. -/
def given {α : Type} (x : Option α) (e : DecodeError) (k : α → Dec) : Dec :=
  match x with
  | some v => k v
  | none => .error e

/-- A vector register field (R162). -/
def vregOf (f : BitVec 5) : Option VReg := if bits f 4 1 = 0 then some (bits f 0 4) else none
/-- A branch target field (R162). -/
def bregOf (f : BitVec 5) : Option BReg := if bits f 2 3 = 0 then some (bits f 0 2) else none
/-- An accumulator field (R162). -/
def aregOf (f : BitVec 5) : Option AReg := if bits f 1 4 = 0 then some (bits f 0 1) else none
/-- A hypervector field (R162). -/
def hregOf (f : BitVec 5) : Option HReg := if bits f 2 3 = 0 then some (bits f 0 2) else none
/-- A queue register field (R162). -/
def qregOf (f : BitVec 5) : Option QReg := if bits f 3 2 = 0 then some (bits f 0 3) else none

/-- Three vector registers. -/
def vvv (d a b : BitVec 5) (k : VReg → VReg → VReg → Dec) : Dec :=
  given (vregOf d) .register fun d => given (vregOf a) .register fun a => given (vregOf b) .register fun b => k d a b
/-- Two vector registers. -/
def vv (d a : BitVec 5) (k : VReg → VReg → Dec) : Dec :=
  given (vregOf d) .register fun d => given (vregOf a) .register fun a => k d a

/-! ## The majors -/

/-- Majors 0x00 to 0x07 (R185 to R195). -/
def decScalar (maj : Nat) (d a : BitVec 5) (i : BitVec 14) : Dec :=
  let b := bits i 9 5
  let fn := bits i 0 9
  match maj, fn.toNat with
  | 0, 0 => .ok (.add d a b) | 0, 1 => .ok (.sub d a b) | 0, 2 => .ok (.mul d a b)
  | 0, 3 => .ok (.mulh d a b) | 0, 4 => .ok (.mulhu d a b) | 0, 5 => .ok (.min d a b)
  | 0, 6 => .ok (.max d a b) | 0, 7 => .ok (.minu d a b) | 0, 8 => .ok (.maxu d a b)
  | 1, 0 => .ok (.div d a b) | 1, 1 => .ok (.divu d a b) | 1, 2 => .ok (.rem d a b) | 1, 3 => .ok (.remu d a b)
  | 2, 0 => .ok (.and d a b) | 2, 1 => .ok (.or d a b) | 2, 2 => .ok (.xor d a b) | 2, 3 => .ok (.andn d a b)
  | 3, 0 => .ok (.shl d a b) | 3, 1 => .ok (.shr d a b) | 3, 2 => .ok (.sar d a b) | 3, 3 => .ok (.rot d a b)
  | 4, 0 => needs (b == 0) .reserved (.ok (.clz d a))
  | 4, 1 => needs (b == 0) .reserved (.ok (.ctz d a))
  | 4, 2 => needs (b == 0) .reserved (.ok (.pop d a))
  | 7, 0 => .ok (.gaddr d a b)
  | _, _ => .error .function

/-- Major 0x05 (R192, R193). -/
def decCompare (d a : BitVec 5) (i : BitVec 14) : Dec :=
  let b := bits i 9 5
  let fn := bits i 0 9
  if bits fn 5 4 = 1 then .ok (.sel d a b (bits fn 0 5))
  else if bits fn 3 6 = 0 then .ok (.cmp d a b (Cond.ofCode (bits fn 0 3)))
  else .error .function

/-- Major 0x06 (R194). -/
def decField (d a : BitVec 5) (i : BitVec 14) : Dec :=
  let pl := bits i 0 12
  match (bits i 12 2).toNat with
  | 0 => .ok (.bext d a (bits pl 6 6) (bits pl 0 6))
  | 1 => .ok (.bexts d a (bits pl 6 6) (bits pl 0 6))
  | 2 => .ok (.bins d a (bits pl 6 6) (bits pl 0 6))
  | _ => .error .function

/-- Major 0x10 (R198). -/
def decShift (d a : BitVec 5) (i : BitVec 14) : Dec :=
  let lo := bits i 0 12
  needs (bits lo 6 6 == 0) .reserved <|
    match (bits i 12 2).toNat with
    | 0 => .ok (.shlImmediate d a (bits lo 0 6))
    | 1 => .ok (.shrImmediate d a (bits lo 0 6))
    | 2 => .ok (.sarImmediate d a (bits lo 0 6))
    | _ => .ok (.rotImmediate d a (bits lo 0 6))

/-- Major 0x17 (R205). -/
def decJump (d a : BitVec 5) (i : BitVec 14) : Dec :=
  let b := bits i 9 5
  let fn := bits i 0 9
  match (bits fn 3 6).toNat with
  | 0 =>
    match (bits fn 0 3).toNat with
    | 0 => needs (d == 0 && a == 0 && b == 0) .reserved (.ok .ret)
    | 1 => needs (d == 0 && a == 0) .reserved (given (bregOf b) .register fun b => .ok (.jbt b))
    | _ => .error .function
  | 1 => given (bregOf b) .register fun b => .ok (.jbtCond d a b (Cond.ofCode (bits fn 0 3)))
  | 2 => needs (bits fn 0 3 == 0) .function <|
      needs (d == 0 && a == 0) .reserved (given (bregOf b) .register fun b => .ok (.callb b))
  | 4 =>
    match (bits fn 0 3).toNat with
    | 0 => needs (a == 0) .reserved (given (bregOf b) .register fun b => .ok (.getb d b))
    | 1 => needs (d == 0) .reserved (given (bregOf b) .register fun b => .ok (.setb a b))
    | _ => .error .function
  | _ => .error .function

/-- Major 0x19 (R208). -/
def decSwarm (d a : BitVec 5) (i : BitVec 14) : Dec :=
  let b := bits i 9 5
  match (bits i 0 9).toNat with
  | 0 => .ok (.swform d a b)
  | 1 => needs (d == 0 && a == 0 && b == 0) .reserved (.ok .swleave)
  | 2 => needs (d == 0 && a == 0 && b == 0) .reserved (.ok .swjoin)
  | _ => .error .function

/-- Majors 0x1C to 0x21 (R219). -/
def decPlain (maj : Nat) (d a : BitVec 5) (i : BitVec 14) : Dec :=
  let z := bits i 11 3
  let off := bits i 0 11
  match maj with
  | 0x1C => given (LdSize.ofCode z) .function fun z => .ok (.ldT d a z off)
  | 0x1E => given (LdSize.ofCode z) .function fun z => .ok (.ldC d a z off)
  | 0x20 => given (LdSize.ofCode z) .function fun z => .ok (.ld d a z off)
  | 0x1D => needs (bits z 2 1 == 0) .function (.ok (.stT d a (MemSize.ofCode (bits z 0 2)) off))
  | 0x1F => needs (bits z 2 1 == 0) .function (.ok (.stC d a (MemSize.ofCode (bits z 0 2)) off))
  | _ => needs (bits z 2 1 == 0) .function (.ok (.st d a (MemSize.ofCode (bits z 0 2)) off))

/-- Major 0x22 (R220). -/
def decAcqRel (d a : BitVec 5) (i : BitVec 14) : Dec :=
  let b := bits i 9 5
  let fn := bits i 0 9
  let lo := bits fn 0 7
  let zp := bits lo 3 4
  given (Scope.ofCode (bits lo 0 3)) .code fun sc =>
  given (Space.ofCode (bits zp 0 2)) .code fun sp =>
    let z := MemSize.ofCode (bits zp 2 2)
    match (bits fn 7 2).toNat with
    | 0 => needs (b == 0) .reserved (.ok (.ldAcq d a z sp sc))
    | 1 => needs (d == 0) .reserved (.ok (.stRel a b z sp sc))
    | _ => .error .reserved

/-- Major 0x23 (R221). -/
def decAmo (d a : BitVec 5) (i : BitVec 14) : Dec :=
  let b := bits i 9 5
  let fn := bits i 0 9
  let lo := bits fn 0 8
  let oc := bits lo 0 5
  given (Scope.ofCode (bits lo 5 3)) .code fun sc =>
    .ok (.amo d a b (bits fn 8 1 == 1) sc (AOrd.ofCode (bits oc 3 2)) (AmoOp.ofCode (bits oc 0 3)))

/-- Major 0x24 (R223). -/
def decFullEmpty (d a : BitVec 5) (i : BitVec 14) : Dec :=
  let b := bits i 9 5
  let fn := bits i 0 9
  let lo := bits fn 0 6
  let m := bits lo 3 3
  let sc := bits lo 0 3
  match (bits fn 6 3).toNat with
  | 0 => given (qregOf d) .register fun q => given (Space.ofCode (bits b 0 2)) .code fun sp =>
      given (SyncMode.ofCode m) .code fun m => given (Scope.ofCode sc) .code fun sc =>
        .ok (.ldq q a (bits b 2 3) sp m sc)
  | 1 => needs (bits d 2 3 == 0) .reserved <| given (Space.ofCode (bits d 0 2)) .code fun sp =>
      given (SyncMode.ofCode m) .code fun m => given (Scope.ofCode sc) .code fun sc =>
        if m = .wempty then .ok (.feEmpty a b sp sc) else .ok (.feFill a b sp m sc)
  | 2 => needs (bits b 2 3 == 0 && lo == 0) .reserved <| given (Space.ofCode (bits b 0 2)) .code fun sp =>
      .ok (.feTest d a sp)
  | 3 => needs (d == 0 && a == 0 && b == 0 && bits m 1 2 == 0) .reserved <|
      given (Scope.ofCode sc) .code fun sc => .ok (.fence (bits m 0 1 == 1) sc)
  | 4 => needs (d == 0 && b == 0 && bits lo 2 4 == 0) .reserved <|
      given (PfKind.ofCode (bits lo 0 2)) .code fun k => .ok (.pf a k)
  | _ => .error .function

/-- The WE majors 0x25, 0x34, 0x3C and 0x3D (R161, R230, R281, R319). -/
def decEngine (maj : Nat) (d a : BitVec 5) (i : BitVec 14) : Dec :=
  let sub := (bits a 3 2).toNat
  let x := bits a 0 3
  let y := bits i 11 3
  let pt := bits i 0 11
  let p := bits pt 8 3
  let t := bits pt 0 8
  match maj, sub with
  | 0x25, 0 => needs (y == 0) .reserved (.ok (.rreq d x p t))
  | 0x34, 0 => needs (y == 0) .reserved (.ok (.mpass d x p t))
  | 0x3C, 0 => .ok (.copy d x y p t)
  | 0x3C, 1 => .ok (.cpst d x y p t)
  | 0x3C, 2 => needs (y == 0) .reserved (.ok (.walk d x p t))
  | 0x3C, 3 => needs (y == 0) .reserved (.ok (.barv d x p t))
  | 0x3D, 0 => needs (y == 0) .reserved (.ok (.launch d x p t))
  | 0x3D, 1 => needs (y == 0) .reserved (.ok (.enc d x p t))
  | _, _ => .error .function

/-- Major 0x26 (R240). -/
def decVecInt (d a : BitVec 5) (i : BitVec 14) : Dec :=
  let fn := bits i 0 9
  let e := bits fn 0 3
  vvv d a (bits i 9 5) fun d a b =>
    match (bits fn 3 6).toNat with
    | 0 => .ok (.vaddInt d a b e) | 2 => .ok (.vsubInt d a b e) | 4 => .ok (.vadds d a b e)
    | 6 => .ok (.vsubs d a b e) | 8 => .ok (.vmulInt d a b e) | 10 => .ok (.vmulh d a b e)
    | 12 => .ok (.vshl d a b e) | 14 => .ok (.vshr d a b e) | 16 => .ok (.vand d a b e)
    | 18 => .ok (.vor d a b e) | 20 => .ok (.vxor d a b e) | 22 => .ok (.vandn d a b e)
    | _ => .error .function

/-- Major 0x27 (R241). -/
def decVecFloat (d a : BitVec 5) (i : BitVec 14) : Dec :=
  let b := bits i 9 5
  let fn := bits i 0 9
  let lo := bits fn 0 6
  let hi := bits lo 4 2
  given (Et.ofCode (bits lo 0 4)) .code fun e =>
  needs (bits hi 0 1 == 0) .reserved <|
    let sr := bits hi 1 1 == 1
    match (bits fn 6 3).toNat with
    | 0 => vvv d a b fun d a b => .ok (.vaddFp d a b sr e)
    | 1 => vvv d a b fun d a b => .ok (.vsubFp d a b sr e)
    | 2 => vvv d a b fun d a b => .ok (.vmulFp d a b sr e)
    | 3 => vvv d a b fun d a b => .ok (.vfma d a b sr e)
    | 4 => vvv d a b fun d a b => .ok (.vfnma d a b sr e)
    | 5 => needs (b == 0 && !sr) .reserved (vv d a fun d a => .ok (.vabs d a e))
    | 6 => needs (b == 0 && !sr) .reserved (vv d a fun d a => .ok (.vneg d a e))
    | _ => .error .function

/-- Major 0x28 (R242). -/
def decVecCompare (d a : BitVec 5) (i : BitVec 14) : Dec :=
  let fn := bits i 0 9
  let lo := bits fn 0 7
  let c := bits lo 4 3
  let e := bits lo 0 4
  vvv d a (bits i 9 5) fun d a b =>
    match (bits fn 7 2).toNat with
    | 0 => needs (c == 0) .reserved (given (Et.ofCode e) .code fun e => .ok (.vmin d a b e))
    | 1 => needs (c == 0) .reserved (given (Et.ofCode e) .code fun e => .ok (.vmax d a b e))
    | 2 => given (VRel.ofCode c) .code fun c => given (Et.ofCode e) .code fun e => .ok (.vcmp d a b c e)
    | _ => needs (c == 0 && e == 0) .reserved (.ok (.vsel d a b))

/-- Major 0x29 (R244). -/
def decVecMove (d a : BitVec 5) (i : BitVec 14) : Dec :=
  let b := bits i 9 5
  let fn := bits i 0 9
  let lo := bits fn 0 6
  needs (bits lo 4 2 == 0) .reserved <|
    let e := bits lo 0 4
    match (bits fn 6 3).toNat with
    | 0 => needs (e == 0) .reserved (vvv d a b fun d a b => .ok (.vshuf d a b))
    | 1 => given (vregOf d) .register fun d => needs (b == 0) .reserved <|
        given (Et.ofCode e) .code fun e => .ok (.vbcastScalar d a e)
    | 2 => vv d a fun d a => given (Et.ofCode e) .code fun e => .ok (.vbcastLane d a b e)
    | 3 => given (vregOf d) .register fun d => given (Et.ofCode e) .code fun e => .ok (.vins d a b e)
    | 4 => given (vregOf a) .register fun a => given (Et.ofCode e) .code fun e => .ok (.vext d a b e)
    | _ => .error .function

/-- Major 0x2A (R245). -/
def decVecConvert (d a : BitVec 5) (i : BitVec 14) : Dec :=
  let b := bits i 9 5
  let fn := bits i 0 9
  let hi := bits fn 1 8
  vv d a fun d a => needs (bits b 3 2 == 0) .reserved <|
    given (Et.ofCode (bits hi 4 4)) .code fun dt => given (Et.ofCode (bits hi 0 4)) .code fun src =>
      .ok (.vcvt d a (bits b 0 3) dt src (bits fn 0 1 == 1))

/-- Majors 0x2B and 0x2C (R247 to R251). -/
def decVecReduce (maj : Nat) (d a : BitVec 5) (i : BitVec 14) : Dec :=
  let b := bits i 9 5
  let fn := bits i 0 9
  let lo := bits fn 0 6
  let r := bits lo 4 2
  let e := bits lo 0 4
  match maj, (bits fn 6 3).toNat with
  | 0x2B, 0 => given (vregOf a) .register fun a => needs (b == 0) .reserved <|
      given (RedOp.ofCode r) .code fun r => given (Et.ofCode e) .code fun e => .ok (.vred d a r e)
  | 0x2B, 1 => vvv d a b fun d a b => needs (r == 0) .reserved <|
      given (Et.ofCode e) .code fun e => .ok (.vdot d a b e)
  | 0x2B, 2 => vvv d a b fun d a b => needs (lo == 0) .reserved (.ok (.vsmrg d a b))
  | 0x2C, 0 => vv d a fun d a => needs (b == 0 && bits lo 3 3 == 0) .reserved <|
      given (SfuFn.ofCode (bits lo 0 3)) .code fun f => .ok (.vsfu d a f)
  | _, _ => .error .function

/-- Majors 0x2D and 0x2E (R256). -/
def decVecMem (maj : Nat) (d a : BitVec 5) (i : BitVec 14) : Dec :=
  let hi := bits i 11 3
  given (vregOf d) .register fun d => given (Space.ofCode (bits hi 1 2)) .code fun sp =>
    let half := bits hi 0 1 == 1
    match maj with
    | 0x2D => .ok (.vld d a sp half (bits i 0 11))
    | _ => .ok (.vst d a sp half (bits i 0 11))

/-- Majors 0x30 to 0x33 and 0x35 (R268 to R276). -/
def decMatrix (maj : Nat) (d a : BitVec 5) (i : BitVec 14) : Dec :=
  let b := bits i 9 5
  let fn := bits i 0 9
  let k := bits fn 0 6
  match maj, (bits fn 6 3).toNat with
  | 0x30, 0 => needs (d == 0 && b == 0 && k == 0) .reserved (.ok (.mfmt a))
  | 0x30, 1 => given (aregOf d) .register fun d => needs (a == 0 && b == 0 && k == 0) .reserved (.ok (.mzero d))
  | 0x30, 2 => given (vregOf d) .register fun d => given (aregOf a) .register fun a =>
      needs (b == 0 && bits k 4 2 == 0) .reserved <|
        let rh := bits k 0 4
        .ok (.maccToVector d a (bits rh 1 3) (bits rh 0 1 == 1))
  | 0x30, 3 => given (aregOf d) .register fun d => given (vregOf a) .register fun a =>
      needs (b == 0 && bits k 4 2 == 0) .reserved <|
        let rh := bits k 0 4
        .ok (.maccToAccumulator d a (bits rh 1 3) (bits rh 0 1 == 1))
  | 0x31, 0 => given (aregOf d) .register fun d => .ok (.mmul d a b k)
  | 0x31, 1 => given (aregOf d) .register fun d => needs (b == 0) .reserved (.ok (.mmulL d a k))
  | 0x32, 0 => given (aregOf d) .register fun d => .ok (.mmulSp d a b k)
  | 0x32, 1 => given (aregOf d) .register fun d => needs (b == 0) .reserved (.ok (.mmulSpL d a k))
  | 0x32, 2 => given (aregOf d) .register fun d => .ok (.mcb d a b k)
  | 0x32, 3 => given (aregOf d) .register fun d => needs (b == 0) .reserved (.ok (.mcbL d a k))
  | 0x33, 0 => needs (d == 0 && b == 0) .reserved (.ok (.mbl a k))
  | 0x33, 1 => needs (d == 0 && a == 0 && b == 0 && k == 0) .reserved (.ok .mring)
  | 0x35, 0 => given (aregOf d) .register fun d => needs (k == 0) .reserved (.ok (.mepi d a b))
  | 0x35, 1 => needs (d == 0 && a == 0 && b == 0 && bits k 1 5 == 0) .reserved (.ok (.mepiResume (bits k 0 1)))
  | 0x35, 2 => needs (d == 0 && a == 0 && b == 0 && bits k 1 5 == 0) .reserved (.ok (.mepiDrop (bits k 0 1)))
  | _, _ => .error .function

/-- Majors 0x36 to 0x39 (R293 to R299). -/
def decHyper (maj : Nat) (d a : BitVec 5) (i : BitVec 14) : Dec :=
  let b := bits i 9 5
  let fn := bits i 0 9
  let k := bits fn 0 6
  match maj, (bits fn 6 3).toNat with
  | 0x37, 0 => given (hregOf d) .register fun d => given (hregOf a) .register fun a =>
      given (hregOf b) .register fun b => needs (k == 0) .reserved (.ok (.hbind d a b))
  | 0x37, 1 => given (hregOf d) .register fun d => given (hregOf a) .register fun a =>
      needs (k == 0) .reserved (.ok (.hpermRegister d a b))
  | 0x37, 2 => given (hregOf d) .register fun d => given (hregOf a) .register fun a =>
      .ok (.hpermImmediate d a (0#1 ++ (b ++ k)))
  | 0x37, 3 => given (hregOf d) .register fun d => given (hregOf a) .register fun a =>
      .ok (.hpermImmediate d a (1#1 ++ (b ++ k)))
  | 0x37, 4 => needs (d == 0 && b == 0 && k == 0) .reserved (given (hregOf a) .register fun a => .ok (.hbund a))
  | 0x37, 5 => needs (a == 0 && b == 0 && k == 0) .reserved (given (HTarget.ofCode d) .code fun t => .ok (.hclr t))
  | 0x37, 6 => needs (a == 0 && b == 0 && k == 0) .reserved (given (hregOf d) .register fun d => .ok (.hthr d))
  | 0x37, 7 => needs (d == 0 && b == 0 && k == 0) .reserved (given (hregOf a) .register fun a => .ok (.htie a))
  | 0x38, 0 => given (hregOf a) .register fun a => given (hregOf b) .register fun b =>
      needs (k == 0) .reserved (.ok (.hdist d a b))
  | 0x38, 1 => given (hregOf a) .register fun a => needs (b == 0 && k == 0) .reserved (.ok (.hpop d a))
  | 0x39, 0 => given (hregOf a) .register fun a => needs (k == 0) .reserved (.ok (.hrcl d a b))
  | _, _ => .error .function

/-- Major 0x36 (R293). -/
def decHyperMem (d a : BitVec 5) (i : BitVec 14) : Dec :=
  let b := bits i 9 5
  let fn := bits i 0 9
  let lo := bits fn 0 8
  given (HTarget.ofCode d) .code fun t =>
    needs (b == 0 && bits lo 0 6 == 0) .reserved <| given (Space.ofCode (bits lo 6 2)) .code fun sp =>
      if bits fn 8 1 == 1 then .ok (.hst t a sp) else .ok (.hld t a sp)

/-- Majors 0x3A and 0x3B (R306, R314). -/
def decTask (maj : Nat) (d a : BitVec 5) (i : BitVec 14) : Dec :=
  let b := bits i 9 5
  let fn := bits i 0 9
  let k := bits fn 0 6
  match maj, (bits fn 6 3).toNat with
  | 0x3A, 0 => needs (d == 0 && a == 0 && b == 0 && k == 0) .reserved (.ok .done)
  | 0x3A, 1 =>
      if bits k 5 1 == 1 then
        needs (d == 0 && a == 0 && bits k 3 3 == 4) .reserved (.ok (.armImmediate (b ++ bits k 0 3)))
      else needs (d == 0 && b == 0 && k == 0) .reserved (.ok (.armRegister a))
  | 0x3A, 2 =>
      if bits k 5 1 == 1 then
        needs (d == 0 && a == 0 && bits k 3 3 == 4) .reserved (.ok (.disarmImmediate (b ++ bits k 0 3)))
      else needs (d == 0 && b == 0 && k == 0) .reserved (.ok (.disarmRegister a))
  | 0x3A, 3 => needs (b == 0) .reserved <|
      match k.toNat with
      | 0 => .ok (.ptest d a)
      | 1 => .ok (.ptestW d a)
      | 2 => needs (a == 0) .reserved (.ok (.estat d))
      | _ => .error .function
  | 0x3A, 4 => needs (d == 0 && a == 0 && b == 0 && bits k 4 2 == 0) .reserved (.ok (.claim (bits k 0 4)))
  | 0x3A, 5 => needs (d == 0 && a == 0 && b == 0 && bits k 4 2 == 0) .reserved (.ok (.unclaim (bits k 0 4)))
  | 0x3A, 6 => needs (a == 0 && b == 0 && k == 0) .reserved (.ok (.rng d))
  | 0x3A, 7 => needs (a == 0 && b == 0 && k == 0) .reserved (.ok (.tick d))
  | 0x3B, 0 => needs (k == 0) .reserved (.ok (.send d a b))
  | 0x3B, 1 => needs (a == 0 && b == 0 && k == 0) .reserved (.ok (.shape d))
  | 0x3B, 2 => needs (k == 0) .reserved (.ok (.ralloc d a b))
  | 0x3B, 3 => needs (d == 0 && k == 0) .reserved (.ok (.rtrim a b))
  | _, _ => .error .function

/-- Major 0x3E (R351). -/
def decSystem (d a : BitVec 5) (i : BitVec 14) : Dec :=
  let n := bits i 5 9
  match (bits i 0 5).toNat with
  | 0x00 => needs (d == 0 && a == 0) .reserved (.ok (.trap n))
  | 0x01 => needs (d == 0 && a == 0 && n == 0) .reserved (.ok .tret)
  | 0x02 => needs (d == 0 && a == 0 && n == 0) .reserved (.ok .tretEnd)
  | 0x03 => needs (a == 0) .reserved (.ok (.sget d n))
  | 0x04 => needs (d == 0) .reserved (.ok (.sset a n))
  | 0x05 => needs (n == 0) .reserved (.ok (.fsave d a))
  | 0x06 => needs (n == 0) .reserved (.ok (.fload d a))
  | 0x07 => needs (bits n 4 5 == 0) .reserved (.ok (.plbw d a (bits n 0 4)))
  | 0x08 => needs (d == 0 && a == 0 && bits n 4 5 == 0) .reserved (.ok (.plbi (bits n 0 4)))
  | 0x09 => needs (d == 0 && a == 0 && n == 0) .reserved (.ok .plbiAll)
  | 0x0A => needs (n == 0) .reserved (.ok (.remap d a))
  | 0x0B => needs (bits n 2 7 == 0) .reserved (given (Space.ofCode (bits n 0 2)) .code fun sp => .ok (.mcancel d a sp))
  | 0x0C => needs (bits n 2 7 == 0) .reserved (.ok (.pginv d a (bits n 0 2)))
  | 0x0D => needs (d == 0 && a == 0 && n == 0) .reserved (.ok .icinv)
  | 0x0E => needs (d == 0 && a == 0 && n == 0) .reserved (.ok .idle)
  | _ => .error .function

/-- The 32-bit form with major maj (R163); the entry's limits are checked after. -/
def decWide (maj : BitVec 6) (d a : BitVec 5) (i : BitVec 14) : Dec :=
  match maj.toNat with
  | 0x00 => decScalar 0 d a i | 0x01 => decScalar 1 d a i | 0x02 => decScalar 2 d a i | 0x03 => decScalar 3 d a i
  | 0x04 => decScalar 4 d a i | 0x05 => decCompare d a i | 0x06 => decField d a i | 0x07 => decScalar 7 d a i
  | 0x0C => .ok (.addImmediate d a i) | 0x0D => .ok (.andImmediate d a i)
  | 0x0E => .ok (.orImmediate d a i) | 0x0F => .ok (.xorImmediate d a i)
  | 0x10 => decShift d a i
  | 0x11 => .ok (.li d (a ++ i))
  | 0x12 =>
      let ai : BitVec 19 := a ++ i
      needs (bits ai 18 1 == 0) .reserved (.ok (.movh d (bits ai 16 2) (bits ai 0 16)))
  | 0x13 => .ok (.cmpImmediate d a (Cond.ofCode (bits i 11 3)) (bits i 0 11))
  | 0x14 => .ok (.bCond d a (Cond.ofCode (bits i 11 3)) (bits i 0 11))
  | 0x15 => .ok (.b (d ++ a ++ i)) | 0x16 => .ok (.call (d ++ a ++ i))
  | 0x17 => decJump d a i
  | 0x18 => given (bregOf d) .register fun b => .ok (.pbt b (a ++ i))
  | 0x19 => decSwarm d a i
  | 0x1C => decPlain 0x1C d a i | 0x1D => decPlain 0x1D d a i | 0x1E => decPlain 0x1E d a i
  | 0x1F => decPlain 0x1F d a i | 0x20 => decPlain 0x20 d a i | 0x21 => decPlain 0x21 d a i
  | 0x22 => decAcqRel d a i | 0x23 => decAmo d a i | 0x24 => decFullEmpty d a i | 0x25 => decEngine 0x25 d a i
  | 0x26 => decVecInt d a i | 0x27 => decVecFloat d a i | 0x28 => decVecCompare d a i | 0x29 => decVecMove d a i
  | 0x2A => decVecConvert d a i | 0x2B => decVecReduce 0x2B d a i | 0x2C => decVecReduce 0x2C d a i
  | 0x2D => decVecMem 0x2D d a i | 0x2E => decVecMem 0x2E d a i
  | 0x30 => decMatrix 0x30 d a i | 0x31 => decMatrix 0x31 d a i | 0x32 => decMatrix 0x32 d a i
  | 0x33 => decMatrix 0x33 d a i | 0x34 => decEngine 0x34 d a i | 0x35 => decMatrix 0x35 d a i
  | 0x36 => decHyperMem d a i | 0x37 => decHyper 0x37 d a i | 0x38 => decHyper 0x38 d a i
  | 0x39 => decHyper 0x39 d a i | 0x3A => decTask 0x3A d a i | 0x3B => decTask 0x3B d a i
  | 0x3C => decEngine 0x3C d a i | 0x3D => decEngine 0x3D d a i | 0x3E => decSystem d a i
  | _ => .error .major

/-- The compact form with quadrant q and op4 o (R166). -/
def decCompact (q : BitVec 2) (o : BitVec 4) (x y : BitVec 5) : Dec :=
  match q.toNat, o.toNat with
  | 0, 0 => .ok (.compactMov x y) | 0, 1 => .ok (.compactAdd x y) | 0, 2 => .ok (.compactSub x y)
  | 0, 3 => .ok (.compactAnd x y) | 0, 4 => .ok (.compactOr x y) | 0, 5 => .ok (.compactXor x y)
  | 0, 6 => .ok (.compactShl x y) | 0, 7 => .ok (.compactShr x y) | 0, 8 => .ok (.compactSar x y)
  | 0, 9 => .ok (.compactMul x y) | 0, 10 => .ok (.compactMin x y) | 0, 11 => .ok (.compactMax x y)
  | 0, 12 => .ok (.compactAndn x y) | 0, 13 => .ok (.compactLdT x y) | 0, 14 => .ok (.compactStT x y)
  | 0, 15 => .ok (.compactLd x y)
  | 1, 0 => .ok (.compactLi x y) | 1, 1 => .ok (.compactAddImmediate x y) | 1, 2 => .ok (.compactShlImmediate x y)
  | 1, 3 => .ok (.compactShrImmediate x y) | 1, 4 => .ok (.compactSarImmediate x y)
  | 1, 5 => .ok (.compactAndImmediate x y) | 1, 6 => .ok (.compactLdTFrame x y) | 1, 7 => .ok (.compactStTFrame x y)
  | 1, 8 => .ok (.compactLdTAbsolute x y) | 1, 9 => .ok (.compactStTAbsolute x y) | 1, 10 => .ok (.compactBEq x y)
  | 1, 11 => .ok (.compactBNe x y) | 1, 12 => .ok (.compactRotImmediate x y) | 1, 13 => .ok (.compactXorImmediate x y)
  | 1, 14 => .ok (.compactLdC x y) | 1, 15 => .ok (.compactStC x y)
  | 2, 0 => needs (x == 0 && y == 0) .limit (.ok .compactDone)
  | 2, 1 => needs (x == 0 && y == 0) .limit (.ok .compactRet)
  | 2, 2 => needs (x == 0) .limit (given (bregOf y) .limit fun b => .ok (.compactJbt b))
  | 2, 3 => .ok (.compactPop x y)
  | 2, 4 => needs (y == 0) .limit (.ok (.compactSgetLid x))
  | 2, 5 => needs (y == 0) .limit (.ok (.compactTick x))
  | 2, 6 => needs (y == 0) .limit (.ok (.compactRng x))
  | 2, 7 => needs (x == 0 && y == 0) .limit (.ok .compactSwjoin)
  | 2, 8 => needs (x == 0 && y == 0) .limit (.ok .compactSwleave)
  | 2, 9 => .ok (.compactClz x y) | 2, 10 => .ok (.compactCtz x y)
  | 2, 11 => needs (x == 0 && bits y 4 1 == 0) .limit (.ok (.compactClaim (bits y 0 4)))
  | 2, 12 => needs (x == 0 && bits y 4 1 == 0) .limit (.ok (.compactUnclaim (bits y 0 4)))
  | 2, 13 => .ok (.compactSt x y)
  | 2, 14 =>
      let lo := bits y 0 4
      needs (x == 0 && bits y 4 1 == 0) .limit <|
        given (Scope.ofCode (bits lo 0 3)) .limit fun sc => .ok (.compactFence (bits lo 3 1 == 1) sc)
  | 2, 15 => .ok (.compactNeg x y)
  | _, _ => .error .major

/-- Refuses an instruction whose fields break a limit of its entry. -/
def checked (r : Dec) : Dec :=
  match r with
  | .ok i => if i.wellFormed then .ok i else .error .limit
  | .error e => .error e

/-- The instruction of a 32-bit word W (R159). -/
def decodeWide (w : BitVec 32) : Dec :=
  checked (decWide (bits w 24 6) (bits w 19 5) (bits w 14 5) (bits w 0 14))

/-- The instruction of a compact parcel P (R166). -/
def decodeCompact (p : Parcel) : Dec :=
  checked (decCompact (bits p 14 2) (bits p 10 4) (bits p 5 5) (bits p 0 5))

/-- The instruction of one or two parcels, the first at the lower address (R159). -/
def decodeParcels (p q : Parcel) : Dec :=
  if bits p 14 2 = 3 then decodeWide (p ++ q) else decodeCompact p

/-- The length in bytes of the instruction whose first parcel is p (R159). -/
def parcelLength (p : Parcel) : Nat := if bits p 14 2 = 3 then 4 else 2

/-- The instruction at the head of some bytes, with its length (R158, R159). -/
def decode : List Byte → Except DecodeError (Instr × Nat)
  | b0 :: b1 :: rest =>
    let p : Parcel := b1 ++ b0
    if bits p 14 2 = 3 then
      match rest with
      | b2 :: b3 :: _ => (decodeWide (p ++ (b3 ++ b2 : Parcel))).map fun i => (i, 4)
      | _ => .error .truncated
    else (decodeCompact p).map fun i => (i, 2)
  | _ => .error .truncated

/-! ## The encoder -/

/-- The words of an encoding. -/
inductive Words where
  | wide (w : BitVec 32)
  | compact (p : Parcel)
  /-- a step that no parcel encodes -/
  | nothing
  deriving DecidableEq, Repr

/-- A 32-bit word from its major, d, a and low 14 bits (R161). -/
def packWide (maj : BitVec 6) (d a : BitVec 5) (i : BitVec 14) : BitVec 32 := 3#2 ++ maj ++ d ++ a ++ i

/-- A word of format W3 (R161). -/
def packW3 (maj : BitVec 6) (d a b : BitVec 5) (fn : BitVec 9) : Words := .wide (packWide maj d a (b ++ fn))

/-- A word of format WE (R161). -/
def packWE (maj : BitVec 6) (d : BitVec 5) (sub : BitVec 2) (x y p : BitVec 3) (t : BitVec 8) : Words :=
  .wide (packWide maj d (sub ++ x) (y ++ (p ++ t : BitVec 11)))

/-- A word of format WS (R161). -/
def packWS (d a : BitVec 5) (n : BitVec 9) (fn : BitVec 5) : Words := .wide (packWide 0x3E d a (n ++ fn))

/-- A compact parcel (R166). -/
def packC (q : BitVec 2) (o : BitVec 4) (x y : BitVec 5) : Words := .compact (q ++ o ++ x ++ y)

/-- A vector register as a field. -/
abbrev vf (r : VReg) : BitVec 5 := 0#1 ++ r
/-- A branch target as a field. -/
abbrev bf (r : BReg) : BitVec 5 := 0#3 ++ r
/-- An accumulator as a field. -/
abbrev af (r : AReg) : BitVec 5 := 0#4 ++ r
/-- A hypervector as a field. -/
abbrev hf (r : HReg) : BitVec 5 := 0#3 ++ r
/-- A queue register as a field. -/
abbrev qf (r : QReg) : BitVec 5 := 0#2 ++ r
/-- A flag as a field of one bit. -/
def b1 (x : Bool) : BitVec 1 := if x then 1 else 0

/-- The words of an instruction (R158 to R168). -/
def encode : Instr → Words
  | .add d a b => packW3 0x00 d a b 0 | .sub d a b => packW3 0x00 d a b 1 | .mul d a b => packW3 0x00 d a b 2
  | .mulh d a b => packW3 0x00 d a b 3 | .mulhu d a b => packW3 0x00 d a b 4 | .min d a b => packW3 0x00 d a b 5
  | .max d a b => packW3 0x00 d a b 6 | .minu d a b => packW3 0x00 d a b 7 | .maxu d a b => packW3 0x00 d a b 8
  | .div d a b => packW3 0x01 d a b 0 | .divu d a b => packW3 0x01 d a b 1
  | .rem d a b => packW3 0x01 d a b 2 | .remu d a b => packW3 0x01 d a b 3
  | .and d a b => packW3 0x02 d a b 0 | .or d a b => packW3 0x02 d a b 1
  | .xor d a b => packW3 0x02 d a b 2 | .andn d a b => packW3 0x02 d a b 3
  | .shl d a b => packW3 0x03 d a b 0 | .shr d a b => packW3 0x03 d a b 1
  | .sar d a b => packW3 0x03 d a b 2 | .rot d a b => packW3 0x03 d a b 3
  | .clz d a => packW3 0x04 d a 0 0 | .ctz d a => packW3 0x04 d a 0 1 | .pop d a => packW3 0x04 d a 0 2
  | .cmp d a b c => packW3 0x05 d a b (0#6 ++ c.code)
  | .sel d a b c => packW3 0x05 d a b (1#4 ++ c)
  | .bext d a p l => .wide (packWide 0x06 d a (0#2 ++ (p ++ l : BitVec 12)))
  | .bexts d a p l => .wide (packWide 0x06 d a (1#2 ++ (p ++ l : BitVec 12)))
  | .bins d a p l => .wide (packWide 0x06 d a (2#2 ++ (p ++ l : BitVec 12)))
  | .gaddr d a b => packW3 0x07 d a b 0
  | .addImmediate d a i => .wide (packWide 0x0C d a i) | .andImmediate d a i => .wide (packWide 0x0D d a i)
  | .orImmediate d a i => .wide (packWide 0x0E d a i) | .xorImmediate d a i => .wide (packWide 0x0F d a i)
  | .shlImmediate d a u => .wide (packWide 0x10 d a (0#2 ++ (0#6 ++ u : BitVec 12)))
  | .shrImmediate d a u => .wide (packWide 0x10 d a (1#2 ++ (0#6 ++ u : BitVec 12)))
  | .sarImmediate d a u => .wide (packWide 0x10 d a (2#2 ++ (0#6 ++ u : BitVec 12)))
  | .rotImmediate d a u => .wide (packWide 0x10 d a (3#2 ++ (0#6 ++ u : BitVec 12)))
  | .li d i => .wide (packWide 0x11 d (bits i 14 5) (bits i 0 14))
  | .movh d h i => let v : BitVec 19 := 0#1 ++ (h ++ i : BitVec 18)
      .wide (packWide 0x12 d (bits v 14 5) (bits v 0 14))
  | .cmpImmediate d a c i => .wide (packWide 0x13 d a (c.code ++ i))
  | .bCond d a c off => .wide (packWide 0x14 d a (c.code ++ off))
  | .b off => .wide (packWide 0x15 (bits off 19 5) (bits off 14 5) (bits off 0 14))
  | .call off => .wide (packWide 0x16 (bits off 19 5) (bits off 14 5) (bits off 0 14))
  | .ret => packW3 0x17 0 0 0 0 | .jbt b => packW3 0x17 0 0 (bf b) 1
  | .jbtCond d a b c => packW3 0x17 d a (bf b) (1#6 ++ c.code)
  | .callb b => packW3 0x17 0 0 (bf b) 0x10 | .getb d b => packW3 0x17 d 0 (bf b) 0x20
  | .setb a b => packW3 0x17 0 a (bf b) 0x21
  | .pbt b off => .wide (packWide 0x18 (bf b) (bits off 14 5) (bits off 0 14))
  | .swform d a b => packW3 0x19 d a b 0 | .swleave => packW3 0x19 0 0 0 1 | .swjoin => packW3 0x19 0 0 0 2
  | .ldT d a z off => .wide (packWide 0x1C d a (z.code ++ off))
  | .stT d a z off => .wide (packWide 0x1D d a ((0#1 ++ z.code : BitVec 3) ++ off))
  | .ldC d a z off => .wide (packWide 0x1E d a (z.code ++ off))
  | .stC d a z off => .wide (packWide 0x1F d a ((0#1 ++ z.code : BitVec 3) ++ off))
  | .ld d a z off => .wide (packWide 0x20 d a (z.code ++ off))
  | .st d a z off => .wide (packWide 0x21 d a ((0#1 ++ z.code : BitVec 3) ++ off))
  | .ldAcq d a z sp sc => packW3 0x22 d a 0 (0#2 ++ ((z.code ++ sp.code : BitVec 4) ++ sc.code : BitVec 7))
  | .stRel a b z sp sc => packW3 0x22 0 a b (1#2 ++ ((z.code ++ sp.code : BitVec 4) ++ sc.code : BitVec 7))
  | .amo d a b s sc o op => packW3 0x23 d a b (b1 s ++ (sc.code ++ (o.code ++ op.code : BitVec 5) : BitVec 8))
  | .ldq q a t sp m sc => packW3 0x24 (qf q) a (t ++ sp.code) (0#3 ++ (m.code ++ sc.code : BitVec 6))
  | .feFill a b sp m sc => packW3 0x24 (0#3 ++ sp.code) a b (1#3 ++ (m.code ++ sc.code : BitVec 6))
  | .feEmpty a b sp sc => packW3 0x24 (0#3 ++ sp.code) a b (1#3 ++ (SyncMode.wempty.code ++ sc.code : BitVec 6))
  | .feTest d a sp => packW3 0x24 d a (0#3 ++ sp.code) (2#3 ++ 0#6)
  | .fence l sc => packW3 0x24 0 0 0 (3#3 ++ ((0#2 ++ b1 l : BitVec 3) ++ sc.code : BitVec 6))
  | .pf a k => packW3 0x24 0 a 0 (4#3 ++ (0#4 ++ k.code : BitVec 6))
  | .rreq d x p t => packWE 0x25 d 0 x 0 p t
  | .vaddInt d a b e => packW3 0x26 (vf d) (vf a) (vf b) (0#6 ++ e)
  | .vsubInt d a b e => packW3 0x26 (vf d) (vf a) (vf b) (2#6 ++ e)
  | .vadds d a b e => packW3 0x26 (vf d) (vf a) (vf b) (4#6 ++ e)
  | .vsubs d a b e => packW3 0x26 (vf d) (vf a) (vf b) (6#6 ++ e)
  | .vmulInt d a b e => packW3 0x26 (vf d) (vf a) (vf b) (8#6 ++ e)
  | .vmulh d a b e => packW3 0x26 (vf d) (vf a) (vf b) (10#6 ++ e)
  | .vshl d a b e => packW3 0x26 (vf d) (vf a) (vf b) (12#6 ++ e)
  | .vshr d a b e => packW3 0x26 (vf d) (vf a) (vf b) (14#6 ++ e)
  | .vand d a b e => packW3 0x26 (vf d) (vf a) (vf b) (16#6 ++ e)
  | .vor d a b e => packW3 0x26 (vf d) (vf a) (vf b) (18#6 ++ e)
  | .vxor d a b e => packW3 0x26 (vf d) (vf a) (vf b) (20#6 ++ e)
  | .vandn d a b e => packW3 0x26 (vf d) (vf a) (vf b) (22#6 ++ e)
  | .vaddFp d a b r e => packW3 0x27 (vf d) (vf a) (vf b) (0#3 ++ ((b1 r ++ 0#1 : BitVec 2) ++ e.code : BitVec 6))
  | .vsubFp d a b r e => packW3 0x27 (vf d) (vf a) (vf b) (1#3 ++ ((b1 r ++ 0#1 : BitVec 2) ++ e.code : BitVec 6))
  | .vmulFp d a b r e => packW3 0x27 (vf d) (vf a) (vf b) (2#3 ++ ((b1 r ++ 0#1 : BitVec 2) ++ e.code : BitVec 6))
  | .vfma d a b r e => packW3 0x27 (vf d) (vf a) (vf b) (3#3 ++ ((b1 r ++ 0#1 : BitVec 2) ++ e.code : BitVec 6))
  | .vfnma d a b r e => packW3 0x27 (vf d) (vf a) (vf b) (4#3 ++ ((b1 r ++ 0#1 : BitVec 2) ++ e.code : BitVec 6))
  | .vabs d a e => packW3 0x27 (vf d) (vf a) 0 (5#3 ++ ((0#1 ++ 0#1 : BitVec 2) ++ e.code : BitVec 6))
  | .vneg d a e => packW3 0x27 (vf d) (vf a) 0 (6#3 ++ ((0#1 ++ 0#1 : BitVec 2) ++ e.code : BitVec 6))
  | .vmin d a b e => packW3 0x28 (vf d) (vf a) (vf b) (0#2 ++ (0#3 ++ e.code : BitVec 7))
  | .vmax d a b e => packW3 0x28 (vf d) (vf a) (vf b) (1#2 ++ (0#3 ++ e.code : BitVec 7))
  | .vcmp d a b c e => packW3 0x28 (vf d) (vf a) (vf b) (2#2 ++ (c.code ++ e.code : BitVec 7))
  | .vsel d a b => packW3 0x28 (vf d) (vf a) (vf b) (3#2 ++ (0#3 ++ 0#4 : BitVec 7))
  | .vshuf d a b => packW3 0x29 (vf d) (vf a) (vf b) 0
  | .vbcastScalar d a e => packW3 0x29 (vf d) a 0 (1#3 ++ (0#2 ++ e.code : BitVec 6))
  | .vbcastLane d a l e => packW3 0x29 (vf d) (vf a) l (2#3 ++ (0#2 ++ e.code : BitVec 6))
  | .vins d a l e => packW3 0x29 (vf d) a l (3#3 ++ (0#2 ++ e.code : BitVec 6))
  | .vext d a l e => packW3 0x29 d (vf a) l (4#3 ++ (0#2 ++ e.code : BitVec 6))
  | .vcvt d a p dt src o => packW3 0x2A (vf d) (vf a) (0#2 ++ p) ((dt.code ++ src.code : BitVec 8) ++ b1 o)
  | .vred d a r e => packW3 0x2B d (vf a) 0 (0#3 ++ (r.code ++ e.code : BitVec 6))
  | .vdot d a b e => packW3 0x2B (vf d) (vf a) (vf b) (1#3 ++ (0#2 ++ e.code : BitVec 6))
  | .vsmrg d a b => packW3 0x2B (vf d) (vf a) (vf b) (2#3 ++ 0#6)
  | .vsfu d a f => packW3 0x2C (vf d) (vf a) 0 (0#3 ++ (0#3 ++ f.code : BitVec 6))
  | .vld d a sp h off => .wide (packWide 0x2D (vf d) a ((sp.code ++ b1 h : BitVec 3) ++ off))
  | .vst d a sp h off => .wide (packWide 0x2E (vf d) a ((sp.code ++ b1 h : BitVec 3) ++ off))
  | .mfmt a => packW3 0x30 0 a 0 (0#3 ++ 0#6)
  | .mzero d => packW3 0x30 (af d) 0 0 (1#3 ++ 0#6)
  | .maccToVector d a r h => packW3 0x30 (vf d) (af a) 0 (2#3 ++ (0#2 ++ (r ++ b1 h : BitVec 4) : BitVec 6))
  | .maccToAccumulator d a r h => packW3 0x30 (af d) (vf a) 0 (3#3 ++ (0#2 ++ (r ++ b1 h : BitVec 4) : BitVec 6))
  | .mmul d a b k => packW3 0x31 (af d) a b (0#3 ++ k)
  | .mmulL d a k => packW3 0x31 (af d) a 0 (1#3 ++ k)
  | .mmulSp d a b k => packW3 0x32 (af d) a b (0#3 ++ k)
  | .mmulSpL d a k => packW3 0x32 (af d) a 0 (1#3 ++ k)
  | .mcb d a b k => packW3 0x32 (af d) a b (2#3 ++ k)
  | .mcbL d a k => packW3 0x32 (af d) a 0 (3#3 ++ k)
  | .mbl a k => packW3 0x33 0 a 0 (0#3 ++ k)
  | .mring => packW3 0x33 0 0 0 (1#3 ++ 0#6)
  | .mpass d x p t => packWE 0x34 d 0 x 0 p t
  | .mepi d a b => packW3 0x35 (af d) a b (0#3 ++ 0#6)
  | .mepiResume n => packW3 0x35 0 0 0 (1#3 ++ (0#5 ++ n : BitVec 6))
  | .mepiDrop n => packW3 0x35 0 0 0 (2#3 ++ (0#5 ++ n : BitVec 6))
  | .hld t a sp => packW3 0x36 t.code a 0 (0#1 ++ (sp.code ++ 0#6 : BitVec 8))
  | .hst t a sp => packW3 0x36 t.code a 0 (1#1 ++ (sp.code ++ 0#6 : BitVec 8))
  | .hbind d a b => packW3 0x37 (hf d) (hf a) (hf b) (0#3 ++ 0#6)
  | .hpermRegister d a b => packW3 0x37 (hf d) (hf a) b (1#3 ++ 0#6)
  | .hpermImmediate d a n => let lo : BitVec 11 := bits n 0 11
      packW3 0x37 (hf d) (hf a) (bits lo 6 5) ((1#2 ++ bits n 11 1 : BitVec 3) ++ bits lo 0 6)
  | .hbund a => packW3 0x37 0 (hf a) 0 (4#3 ++ 0#6)
  | .hclr t => packW3 0x37 t.code 0 0 (5#3 ++ 0#6)
  | .hthr d => packW3 0x37 (hf d) 0 0 (6#3 ++ 0#6)
  | .htie a => packW3 0x37 0 (hf a) 0 (7#3 ++ 0#6)
  | .hdist d a b => packW3 0x38 d (hf a) (hf b) (0#3 ++ 0#6)
  | .hpop d a => packW3 0x38 d (hf a) 0 (1#3 ++ 0#6)
  | .hrcl d a b => packW3 0x39 d (hf a) b (0#3 ++ 0#6)
  | .done => packW3 0x3A 0 0 0 (0#3 ++ 0#6)
  | .armRegister a => packW3 0x3A 0 a 0 (1#3 ++ 0#6)
  | .armImmediate t => packW3 0x3A 0 0 (bits t 3 5) (1#3 ++ (4#3 ++ bits t 0 3 : BitVec 6))
  | .disarmRegister a => packW3 0x3A 0 a 0 (2#3 ++ 0#6)
  | .disarmImmediate t => packW3 0x3A 0 0 (bits t 3 5) (2#3 ++ (4#3 ++ bits t 0 3 : BitVec 6))
  | .ptest d a => packW3 0x3A d a 0 (3#3 ++ 0#6)
  | .ptestW d a => packW3 0x3A d a 0 (3#3 ++ 1#6)
  | .estat d => packW3 0x3A d 0 0 (3#3 ++ 2#6)
  | .claim n => packW3 0x3A 0 0 0 (4#3 ++ (0#2 ++ n : BitVec 6))
  | .unclaim n => packW3 0x3A 0 0 0 (5#3 ++ (0#2 ++ n : BitVec 6))
  | .rng d => packW3 0x3A d 0 0 (6#3 ++ 0#6)
  | .tick d => packW3 0x3A d 0 0 (7#3 ++ 0#6)
  | .send d a b => packW3 0x3B d a b (0#3 ++ 0#6)
  | .shape d => packW3 0x3B d 0 0 (1#3 ++ 0#6)
  | .ralloc d a b => packW3 0x3B d a b (2#3 ++ 0#6)
  | .rtrim a b => packW3 0x3B 0 a b (3#3 ++ 0#6)
  | .copy d x y p t => packWE 0x3C d 0 x y p t
  | .cpst d x y p t => packWE 0x3C d 1 x y p t
  | .walk d x p t => packWE 0x3C d 2 x 0 p t
  | .barv d x p t => packWE 0x3C d 3 x 0 p t
  | .launch d x p t => packWE 0x3D d 0 x 0 p t
  | .enc d x p t => packWE 0x3D d 1 x 0 p t
  | .trap n => packWS 0 0 n 0 | .tret => packWS 0 0 0 1 | .tretEnd => packWS 0 0 0 2
  | .sget d k => packWS d 0 k 3 | .sset a k => packWS 0 a k 4
  | .fsave d a => packWS d a 0 5 | .fload d a => packWS d a 0 6
  | .plbw d a n => packWS d a (0#5 ++ n) 7 | .plbi n => packWS 0 0 (0#5 ++ n) 8
  | .plbiAll => packWS 0 0 0 9 | .remap d a => packWS d a 0 10
  | .mcancel d a sp => packWS d a (0#7 ++ sp.code) 11
  | .pginv d a z => packWS d a (0#7 ++ z) 12
  | .icinv => packWS 0 0 0 13 | .idle => packWS 0 0 0 14
  | .compactMov x y => packC 0 0 x y | .compactAdd x y => packC 0 1 x y | .compactSub x y => packC 0 2 x y
  | .compactAnd x y => packC 0 3 x y | .compactOr x y => packC 0 4 x y | .compactXor x y => packC 0 5 x y
  | .compactShl x y => packC 0 6 x y | .compactShr x y => packC 0 7 x y | .compactSar x y => packC 0 8 x y
  | .compactMul x y => packC 0 9 x y | .compactMin x y => packC 0 10 x y | .compactMax x y => packC 0 11 x y
  | .compactAndn x y => packC 0 12 x y | .compactLdT x y => packC 0 13 x y | .compactStT x y => packC 0 14 x y
  | .compactLd x y => packC 0 15 x y
  | .compactLi x i => packC 1 0 x i | .compactAddImmediate x i => packC 1 1 x i
  | .compactShlImmediate x u => packC 1 2 x u | .compactShrImmediate x u => packC 1 3 x u
  | .compactSarImmediate x u => packC 1 4 x u | .compactAndImmediate x i => packC 1 5 x i
  | .compactLdTFrame x u => packC 1 6 x u | .compactStTFrame x u => packC 1 7 x u
  | .compactLdTAbsolute x u => packC 1 8 x u | .compactStTAbsolute x u => packC 1 9 x u
  | .compactBEq x i => packC 1 10 x i | .compactBNe x i => packC 1 11 x i
  | .compactRotImmediate x u => packC 1 12 x u | .compactXorImmediate x i => packC 1 13 x i
  | .compactLdC x u => packC 1 14 x u | .compactStC x u => packC 1 15 x u
  | .compactDone => packC 2 0 0 0 | .compactRet => packC 2 1 0 0 | .compactJbt b => packC 2 2 0 (bf b)
  | .compactPop x y => packC 2 3 x y | .compactSgetLid x => packC 2 4 x 0 | .compactTick x => packC 2 5 x 0
  | .compactRng x => packC 2 6 x 0 | .compactSwjoin => packC 2 7 0 0 | .compactSwleave => packC 2 8 0 0
  | .compactClz x y => packC 2 9 x y | .compactCtz x y => packC 2 10 x y
  | .compactClaim n => packC 2 11 0 (0#1 ++ n) | .compactUnclaim n => packC 2 12 0 (0#1 ++ n)
  | .compactSt x y => packC 2 13 x y
  | .compactFence l sc => packC 2 14 0 (0#1 ++ (b1 l ++ sc.code : BitVec 4))
  | .compactNeg x y => packC 2 15 x y
  | _ => .nothing

/-- What the decoder reads from the words of an encoding. -/
def Words.decode : Words → Dec
  | .wide w => decodeWide w
  | .compact p => decodeCompact p
  | .nothing => .error .truncated

/-- The bytes of an encoding: each parcel little-endian, the first parcel at the lowest address (R158). -/
def Words.bytes : Words → List Byte
  | .wide w => [bits w 16 8, bits w 24 8, bits w 0 8, bits w 8 8]
  | .compact p => [bits p 0 8, bits p 8 8]
  | .nothing => []

/-- The instruction bits that a decode trap leaves in k.addr (R170). -/
def Words.addrBits : Words → Word
  | .wide w => putBits (w.setWidth 64) 32 1 1
  | .compact p => p.setWidth 64
  | .nothing => 0

/-- The bytes of an instruction that the opcode table numbers from bit 0 of its word (nbits bits of w). -/
def tableBytes (nbits w : Nat) : List Byte :=
  if nbits ≤ 16 then (Words.compact (BitVec.ofNat 16 w)).bytes ++ [0, 0]
  else (Words.wide (BitVec.ofNat 32 w)).bytes

/-- The instruction that the decoder reads from nbits bits w of the opcode table's numbering. -/
def decodeTableWord (nbits w : Nat) : Option Instr :=
  match decode (tableBytes nbits w) with
  | .ok (i, _) => some i
  | .error _ => none

end Sys2Proof
end

