-- ==== Sys2Proof/Machine/Fetch.lean ====
section
/-! DEFINITION. Fetching the next instruction (R158, R159, R169, R172), and the waits for registers whose value is on
its way (R222, R252). -/

namespace Sys2Proof

/-- Scalar registers that an instruction reads or writes (R162). -/
def Instr.sregs : Instr → List SReg
  | .add d a r | .sub d a r | .mul d a r | .mulh d a r | .mulhu d a r | .min d a r | .max d a r | .minu d a r
  | .maxu d a r | .div d a r | .divu d a r | .rem d a r | .remu d a r | .and d a r | .or d a r | .xor d a r
  | .andn d a r | .shl d a r | .shr d a r | .sar d a r | .rot d a r | .cmp d a r _ | .gaddr d a r
  | .swform d a r | .amo d a r _ _ _ _ | .ralloc d a r => [d, a, r]
  | .sel d a r c => [d, a, r, c]
  | .clz d a | .ctz d a | .pop d a | .bext d a _ _ | .bexts d a _ _ | .bins d a _ _ | .addImmediate d a _
  | .andImmediate d a _ | .orImmediate d a _ | .xorImmediate d a _ | .shlImmediate d a _ | .shrImmediate d a _
  | .sarImmediate d a _ | .rotImmediate d a _ | .cmpImmediate d a _ _ | .bCond d a _ _ | .jbtCond d a _ _
  | .ldT d a _ _ | .stT d a _ _ | .ldC d a _ _ | .stC d a _ _ | .ld d a _ _ | .st d a _ _ | .ldAcq d a _ _ _
  | .stRel d a _ _ _ | .feFill d a _ _ _ | .feEmpty d a _ _ | .feTest d a _ | .ptest d a | .ptestW d a
  | .rtrim d a | .fsave d a | .fload d a | .plbw d a _ | .remap d a | .mcancel d a _ | .pginv d a _
  | .mmul _ d a _ | .mmulSp _ d a _ | .mcb _ d a _ | .mepi _ d a => [d, a]
  | .li d _ | .movh d _ _ | .getb d _ | .setb d _ | .ldq _ d _ _ _ _ | .pf d _ | .vbcastScalar _ d _ | .vins _ d _ _
  | .vext d _ _ _ | .vred d _ _ _ | .vld _ d _ _ _ | .vst _ d _ _ _ | .mfmt d | .mmulL _ d _ | .mmulSpL _ d _
  | .mcbL _ d _ | .mbl d _ | .hld _ d _ | .hst _ d _ | .hpermRegister _ _ d | .hdist d _ _ | .hpop d _
  | .armRegister d | .disarmRegister d | .estat d | .rng d | .tick d | .shape d | .rreq d _ _ _ | .mpass d _ _ _
  | .copy d _ _ _ _ | .cpst d _ _ _ _ | .walk d _ _ _ | .barv d _ _ _ | .launch d _ _ _ | .enc d _ _ _
  | .sget d _ | .sset d _ => [d]
  | .hrcl d _ r => [d, r]
  | .send d a r => [d, a, a + 1, a + 2, r]
  | .compactMov x y | .compactAdd x y | .compactSub x y | .compactAnd x y | .compactOr x y | .compactXor x y
  | .compactShl x y | .compactShr x y | .compactSar x y | .compactMul x y | .compactMin x y | .compactMax x y
  | .compactAndn x y | .compactLdT x y | .compactStT x y | .compactLd x y | .compactPop x y | .compactClz x y
  | .compactCtz x y | .compactSt x y | .compactNeg x y => [x, y]
  | .compactLi x _ | .compactAddImmediate x _ | .compactShlImmediate x _ | .compactShrImmediate x _
  | .compactSarImmediate x _ | .compactAndImmediate x _ | .compactLdTAbsolute x _ | .compactStTAbsolute x _
  | .compactBEq x _ | .compactBNe x _ | .compactRotImmediate x _ | .compactXorImmediate x _ | .compactLdC x _
  | .compactStC x _ | .compactSgetLid x | .compactTick x | .compactRng x => [x]
  | .compactLdTFrame x _ | .compactStTFrame x _ => [x, 1]
  | _ => []

/-- Vector registers that an instruction reads or writes (R162). -/
def Instr.vregs : Instr → List VReg
  | .vaddInt d a r _ | .vsubInt d a r _ | .vadds d a r _ | .vsubs d a r _ | .vmulInt d a r _ | .vmulh d a r _
  | .vshl d a r _ | .vshr d a r _ | .vand d a r _ | .vor d a r _ | .vxor d a r _ | .vandn d a r _
  | .vaddFp d a r _ _ | .vsubFp d a r _ _ | .vmulFp d a r _ _ | .vfma d a r _ _ | .vfnma d a r _ _
  | .vmin d a r _ | .vmax d a r _ | .vcmp d a r _ _ | .vsel d a r | .vshuf d a r | .vdot d a r _ | .vsmrg d a r =>
    [d, a, r]
  | .vabs d a _ | .vneg d a _ | .vbcastLane d a _ _ | .vcvt d a _ _ _ _ | .vsfu d a _ => [d, a]
  | .vbcastScalar d _ _ | .vins d _ _ _ | .vext _ d _ _ | .vred _ d _ _ | .vld d _ _ _ _ | .vst d _ _ _ _
  | .maccToVector d _ _ _ | .maccToAccumulator _ d _ _ => [d]
  | _ => []

/-- An event that the schedule may name: the traps of fetch and decode belong to a core's own turn. -/
def Instr.schedulable : Instr → Bool
  | .illegalInstruction _ => false
  | .fetchFault _ _ => false
  | i => i.isEvent

/-- The instruction transfers control: it retires even where the pc stays. -/
def Instr.transfers : Instr → Bool
  | .bCond _ _ _ _ | .b _ | .call _ | .ret | .jbt _ | .jbtCond _ _ _ _ | .callb _ | .compactBEq _ _ | .compactBNe _ _
  | .compactRet | .compactJbt _ => true
  | _ => false

/-- The instruction's retirement ends with a SelectNext of its own (R38, R45, R308, R349, R359): an arrival of the same cycle is accepted
before it (R56). None of these changes by what an arrival is judged. -/
def Instr.selects : Instr → Bool
  | .done | .compactDone | .tret | .tretEnd | .idle | .armImmediate _ | .armRegister _ | .unclaim _ | .compactUnclaim _ => true
  | _ => false

namespace Machine

/-- Parcels that an instruction cache of 8 KiB holds (R172). -/
def icacheParcels : Nat := 4096

/-- The instruction cache with a parcel filled in; a full cache gives one up, which one the spec does not say: a free value picks
it (log entry 3). -/
def Core.fillCache (c : Core) (a : Nat) (p : Parcel) (pick : Nat) : Core :=
  let l := if c.icache.length < icacheParcels then c.icache else dropAt c.icache (pick % c.icache.length)
  { c with icache := Cells.put l a p }

/-- A parcel that the core holds on its own: in its instruction cache, or in its entry buffer (R172, R360). -/
def Core.cachedParcel (c : Core) (a : Nat) : Option Parcel :=
  match Cells.find c.icache a with
  | some p => some p
  | none => (((c.entryBuf.toList.flatMap id) ++ c.locked).find? fun e => e.1 == a).map (·.2)

/-- One parcel at a virtual address: from the core's own caches, else from memory into the instruction cache (R169, R172). The spec
is silent on the end of the address space and on what a hit checks: the pc wraps in 56 bits, a second parcel at 2^56 traps with cause
0x03, and a parcel held under a virtual address is checked for the right to execute alone, whatever its translation, poison or
domain have become: DESIGN CHOICE (log entry 26). -/
def State.fetchParcel (s : State) (a : Nat) : Res (State × Parcel) := do
  let c := s.me
  let e : Word := BitVec.ofNat 64 a
  demand (decide (a < 2 ^ 56) && (c.rights (BitVec.ofNat 56 a) (c.level == 7)).2.2) s (.trap 0x03 e)
  match c.cachedParcel a with
  | some p => .ok (s, p)
  | none =>
    demand (!isMgmt a) s (.trap 0x03 e)
    let (s, pa) ← s.xlate s.cur c.dom c.region a false
    demand (!s.poisoned (dieOf s.cur) pa) s (.trap 0x0D e)
    let (s, bs) := s.dieRead (dieOf s.cur) c.dom a pa 2
    let p : Parcel := BitVec.ofNat 16 (joinBytes bs)
    .ok (s.updMe fun c => c.fillCache a p (Config.freeWord s.free 2).toNat, p)

/-- The parcels of the instruction at pc: the second of a compact instruction is not fetched (R159). -/
def State.fetchParcels (s : State) : Res (State × Parcel × Parcel) := do
  let a := s.pc.toNat
  demand (decide (a % 2 = 0)) s (.trap 0x02 (BitVec.ofNat 64 a))
  let (s, p) ← s.fetchParcel a
  if parcelLength p = 2 then .ok (s, p, 0)
  else
    let (s, q) ← s.fetchParcel (a + 2)
    .ok (s, p, q)

/-- The instruction bits as k.addr holds them (R170). -/
def parcelBits (p q : Parcel) : Word :=
  if parcelLength p = 2 then p.setWidth 64 else (1#1 ++ (p ++ q) : BitVec 33).setWidth 64

/-- A register that the instruction names waits for a value (R222, R252): some stop, or none. -/
def Core.awaits (c : Core) (i : Instr) : Option Stop :=
  let b := c.here
  if b.spend = 0xFFFFFFFF ∨ i.sregs.any (fun r => b.spend.getLsbD r.toNat) then some .hold
  else if i.vregs.any (fun r => b.vpend.getLsbD r.toNat) then some .stall
  else none

/-- The membership of the running frame of a core (R209). -/
def Core.membership (c : Core) : Option Member := c.member.filter fun m => m.level == c.lvl

/-- What the leader has forwarded to a ganged core (R62, R210); none for a core that fetches for itself. -/
def Core.forwarded (c : Core) : Option (List Forwarded) := (c.membership.filter fun m => m.ganged).map (·.fwd)

/-- An instruction of the core in turn issues: a run of level-7 frames ends with one of a lower level (R343), and the window of a
join point ends with the member's next instruction (R210). -/
def State.issue (s : State) : State :=
  let c := s.me
  let s := if c.level ≠ 7 ∧ c.run7 ≠ 0 then s.updMe fun c => { c with run7 := 0 } else s
  match c.membership with
  | some m => if m.joinAt.isSome then s.updMe fun c => { c with member := some { m with joinAt := none } } else s
  | none => s

/-- The instruction that parcels give the core in turn: it issues, traps, or waits for a register. -/
def State.decodeNext (s : State) (p q : Parcel) : State × Option Instr :=
  match decodeParcels p q with
  | .error _ => (s.issue, some (.illegalInstruction (parcelBits p q)))
  | .ok i =>
    match s.me.awaits i with
    | some e => (s.stop e, none)
    | none => (s.issue, some i)

/-- What the core in turn executes next, after what waits for an instruction boundary: nothing when it is off, stopped, idle or
waiting; a frame that is stalled in an access to a queue register executes that again (R60). A ganged follower takes what its leader has forwarded, decodes it itself, and waits where nothing has been
forwarded (R171, R210). -/
def State.nextInstr (s : State) : State × Option Instr :=
  if !s.powered s.cur then (s, none)
  else
  let parks := s.mustPark s.cur
  let s := s.atBoundary s.cur
  let c := s.me
  if parks ∨ c.stopped ∨ c.level = 0xF then (s, none)
  else if c.here.queueOp.isSome then (s.queueRun, none)
  else
    match c.forwarded with
    | some [] => (s, none)
    | some (f :: _) => if f.at_ = c.pc then s.decodeNext f.p f.q else (s.detach s.cur, none)
    | none =>
      match s.fetchParcels with
      | .error (s, .trap cause a) => (s.issue, some (.fetchFault cause a))
      | .error (s, e) => (s.stop e, none)
      | .ok (s, p, q) => s.decodeNext p q

/-! ## Gangs (R210 to R212) -/

/-- Core n has retired the instruction i that it issued in state s at its pc: the frame is the same and has gone on. -/
def State.retired (s t : State) (n : CoreId) (i : Instr) : Bool :=
  let c := s.core n
  let d := t.core n
  c.level == d.level && (c.pc != d.pc || i.transfers) && !d.stopped

/-- The outcome of a conditional branch at the core in turn (R202, R204); other instructions have none. -/
def outcomeOf (i : Instr) (s : State) : Bool :=
  match i with
  | .bCond d a c _ => c.holds (s.rs d) (s.rs a)
  | .jbtCond d a _ c => c.holds (s.rs d) (s.rs a)
  | .compactBEq x _ => s.rs x == 0
  | .compactBNe x _ => s.rs x != 0
  | _ => false

/-- A follower has retired the oldest instruction forwarded to it: where its branch has another outcome than its leader's, or it goes on
elsewhere, it detaches (R212). -/
def State.follow (t : State) (n : CoreId) (taken : Bool) : State :=
  match (t.core n).membership with
  | some m =>
    match m.ganged, m.fwd with
    | true, f :: r =>
      if (t.core n).pc = f.next ∧ taken = f.taken then t.updCore n fun c => { c with member := some { m with fwd := r } } else t.detach n
    | _, _ => t
  | none => t

/-- The instruction that leader n has retired in state s is forwarded to every core that was ganged with it then and still is (R62,
R210). -/
def State.forward (s t : State) (n : CoreId) (f : Forwarded) : State :=
  match (t.core n).membership with
  | some m =>
    if m.lead ≠ (t.core n).lid then t
    else
      (upFrom 0 16).foldl (fun (t : State) i =>
        let k : CoreId := clusterOf n ++ BitVec.ofNat 4 i
        match (t.core k).member with
        | some x => if x.ganged ∧ x.lead = m.lead ∧ x.n = m.n ∧ k ≠ n ∧ (s.core k).member.any (fun y => y.ganged) then
            t.updCore k fun c => { c with member := some { x with fwd := x.fwd ++ [f] } } else t
        | none => t) t
  | none => t

/-- What gangs do around an instruction i that core n issued in state s and that left state t. -/
def State.gangStep (s t : State) (n : CoreId) (i : Instr) : State :=
  if (s.core n).membership.isNone ∨ !s.retired t n i then t
  else
    let w := (encode i).bytes
    let at_ (k : Nat) : Byte := (w[k]?).getD 0
    let taken := outcomeOf i { s with cur := n }
    s.forward (t.follow n taken) n { at_ := (s.core n).pc, p := at_ 1 ++ at_ 0, q := at_ 3 ++ at_ 2, next := (t.core n).pc, taken }

/-- The parcels of an instruction's bytes put where the core in turn fetches them. -/
def Core.placeParcels (c : Core) : Nat → List Byte → Core
  | a, x :: y :: r => Core.placeParcels { c with icache := Cells.put c.icache a (y ++ x) } (a + 2) r
  | _, _ => c

/-- A PLB entry that grants every right everywhere. -/
def PlbEntry.all : PlbEntry :=
  { valid := true, base := 0, limit := 0xFFFFFFFFFF, r := true, w := true, x := true, sonly := false }

/-- The core in turn ready to fetch: it is in no swarm, a frame is live, nothing is held for it, and it has the right to execute. An idle
core gets a level-7 frame, as a supervisor entry leaves it. -/
def Core.readyToFetch (c : Core) : Core :=
  let c := if c.level = 0xF then { c with level := 7, thresh := 7 } else c
  let c := { c with stopped := false, asleep := false, heldTraps := [], member := none, plb := c.plb.set 0 PlbEntry.all,
                    pc := if c.pc.getLsbD 0 then 0 else c.pc }
  c.updHere fun b => { b with live := true, squash := false, parkDue := false, spend := 0, vpend := 0, queueOp := none }

end Machine

end Sys2Proof
end

