-- ==== Sys2Proof/Machine/Hyper.lean ====
section
/-! DEFINITION. Hypervector instructions (majors 0x36 to 0x39, R287 to R301). -/

namespace Sys2Proof.Machine

/-- The running frame holds resource 0, or the instruction traps (R50, R289). -/
def State.needHyper (s : State) : Res Unit :=
  demand (s.me.here.claims.any fun x => x.res == 0) s (.trap 0x05 0)

/-- Number of 1 bits below bit n. -/
def popCount {w : Nat} (x : BitVec w) : Nat → Nat
  | 0 => 0
  | n + 1 => popCount x n + if x.getLsbD n then 1 else 0

/-! ## Progress (R291, R292) -/

/-- k.hprog and k.hpc for the instruction at pc. -/
def State.saveProgress (s : State) (kind : Bool) (next best bdist : Nat) : State :=
  s.updMe fun c =>
    { c with hprog := BitVec.ofNat 13 bdist ++ BitVec.ofNat 16 best ++ BitVec.ofNat 16 next ++ BitVec.ofBool kind ++
                      c.lvl ++ 1#1
             hpc := c.pc }

/-- The held progress is this instruction's. -/
def Core.resumes (c : Core) (kind : Bool) : Bool :=
  bits c.hprog 0 1 == 1 && bits c.hprog 1 3 == c.lvl && c.hpc == c.pc && bits c.hprog 4 1 == BitVec.ofBool kind

/-- The progress is cleared. -/
def State.clearProgress (s : State) : State := s.updMe fun c => { c with hprog := putBits c.hprog 0 1 0 }

/-- A push is pending at the boundary before chunk or item c. -/
def State.breaks (s : State) (c : Nat) : Bool :=
  match s.breakAt with
  | some k => decide (k ≤ c)
  | none => false

/-! ## Checks over a span (R294) -/

/-- Step 1 of R216 with alignment 64 and steps 2 and 3 for every byte of n, a multiple of 64, from ea: the areas, pages and
PLB ranges all begin and end on multiples of 64. -/
def State.checkSpan (s : State) (sp : Space) (ea : Word) (n : Nat) (wr : Bool) : Res Unit := do
  let c := s.me
  let a := ea.toNat
  let blocks := (upFrom 0 (n / 64)).map fun i => a + 64 * i
  demand (!s.topMgmt sp ea) s (.trap 0x03 ea)
  demand (decide (a % 64 = 0)) s (.trap 0x02 ea)
  match sp with
  | .tcm =>
    demand (decide (a + n ≤ 0xC000)) s (.trap 0x03 ea)
    demand (blocks.all fun x => c.tcmAllowed x wr) s (.trap 0x03 ea)
  | .scratch =>
    demand (decide (a + n ≤ 0x40000)) s (.trap 0x03 ea)
    demand (blocks.all fun x => bits (c.pageEntry x) 0 1 == 1 && (!wr || bits (c.pageEntry x) 1 1 == 1)) s (.trap 0x03 ea)
  | .global =>
    demand (decide (a + n ≤ 2 ^ 56) && blocks.all fun x => !isMgmt x) s (.trap 0x03 ea)
    demand (blocks.all fun x =>
      let r := c.rights (BitVec.ofNat 56 x) (c.level == 7)
      if wr then r.2.1 else r.1) s (.trap 0x03 ea)

/-! ## Transfers (R293 to R295) -/

/-- Chunks of a target. -/
def hChunks : HTarget → Nat
  | .k => 64
  | _ => 8

/-- Chunk c of a target. -/
def Core.hChunk (c : Core) (t : HTarget) (i : Nat) : BitVec 512 :=
  match t with
  | .h0 => (c.h.get 0).extractLsb' (512 * i) 512
  | .h1 => (c.h.get 1).extractLsb' (512 * i) 512
  | .h2 => (c.h.get 2).extractLsb' (512 * i) 512
  | .h3 => (c.h.get 3).extractLsb' (512 * i) 512
  | .ht => c.ht.extractLsb' (512 * i) 512
  | .k => c.kcnt.extractLsb' (512 * i) 512

/-- Chunk i of a target replaced. -/
def Core.setChunk (c : Core) (t : HTarget) (i : Nat) (x : BitVec 512) : Core :=
  let put (h : Hv) : Hv := putBits h (512 * i) 512 x.toNat
  match t with
  | .h0 => { c with h := c.h.set 0 (put (c.h.get 0)) }
  | .h1 => { c with h := c.h.set 1 (put (c.h.get 1)) }
  | .h2 => { c with h := c.h.set 2 (put (c.h.get 2)) }
  | .h3 => { c with h := c.h.set 3 (put (c.h.get 3)) }
  | .ht => { c with ht := put c.ht }
  | .k => { c with kcnt := putBits c.kcnt (512 * i) 512 x.toNat }

/-- n words loaded from a checked place on. -/
def State.loadWords (s : State) (sp : Space) : Acc → Nat → Res (State × List Byte)
  | _, 0 => .ok (s, [])
  | a, n + 1 => do
    let (s, bs) ← s.loadWord sp a 8
    let (s, r) ← State.loadWords s sp (a.plus 8) n
    .ok (s, bs ++ r)

/-- One chunk moved; an `hst.c` of a tentative instance parks before the first (R301). -/
def State.moveChunk (s : State) (t : HTarget) (sp : Space) (ea : Word) (wr : Bool) (i : Nat) : Res State := do
  let ea := ea + BitVec.ofNat 64 (64 * i)
  let (s, a) ← if wr then s.checkStore sp ea 64 else s.check sp ea 64 true false false
  if wr then
    let x := s.me.hChunk t i
    s.storeWords sp a ((upFrom 0 8).map fun j => x.extractLsb' (64 * j) 64)
  else
    let (s, bs) ← s.loadWords sp a 8
    .ok (s.updMe fun c => c.setChunk t i (BitVec.ofNat 512 (joinBytes bs)))

/-- Chunks moved from chunk i on, at most fuel of them; the progress is kept where the transfer stops. Its best and bdist fields, to which
R291 gives a meaning for a recall only, are 0 for a transfer, DESIGN CHOICE (log entry 28). -/
def State.moveChunks (s : State) (t : HTarget) (sp : Space) (ea : Word) (wr : Bool) : Nat → Nat → Res State
  | 0, _ => .ok s
  | k + 1, i =>
    if i ≥ hChunks t then .ok s
    else
      match s.moveChunk t sp ea wr i with
      | .error (s, e) => .error (s.saveProgress false i 0 0, e)
      | .ok s =>
        if s.breaks (i + 1) ∧ i + 1 < hChunks t then .error (s.saveProgress false (i + 1) 0 0, .hold)
        else State.moveChunks s t sp ea wr k (i + 1)

/-- `hld` or `hst` (R294). -/
def State.transfer (s : State) (t : HTarget) (a : SReg) (sp : Space) (wr : Bool) : Out :=
  finish do
    s.needHyper
    let ea := s.rs a
    s.checkSpan sp ea (64 * hChunks t) wr
    let i := if s.me.resumes false then (bits s.me.hprog 5 16).toNat else 0
    let s ← s.moveChunks t sp ea wr (hChunks t) i
    .ok (s.clearProgress.advance 4)

/-- `hld` (R294). -/
def execHld (t : HTarget) (a : SReg) (sp : Space) (s : State) : Out := s.transfer t a sp false
/-- `hst` (R294). -/
def execHst (t : HTarget) (a : SReg) (sp : Space) (s : State) : Out := s.transfer t a sp true

/-! ## Operations on the registers (R296 to R298) -/

/-- An operation of the unit: the state with its effect, and the pc past it. -/
def State.hyper (s : State) (f : State → State) : Out :=
  finish do
    s.needHyper
    .ok ((f s).advance 4)

/-- `hbind`. -/
def execHbind (d a b : HReg) (s : State) : Out := s.hyper fun s => s.wh d (s.rh a ^^^ s.rh b)
/-- `hperm` by a register. -/
def execHpermRegister (d a : HReg) (b : SReg) (s : State) : Out :=
  s.hyper fun s => s.wh d ((s.rh a).rotateLeft (bits (s.rs b) 0 12).toNat)
/-- `hperm` by an immediate. -/
def execHpermImmediate (d a : HReg) (n : BitVec 12) (s : State) : Out :=
  s.hyper fun s => s.wh d ((s.rh a).rotateLeft n.toNat)

/-- Counter i as an i8. -/
def counterAt (k : BitVec 32768) (i : Nat) : Int := (k.extractLsb' (8 * i) 8).toInt

/-- The counters after one bundle (R297). -/
def bundle (k : BitVec 32768) (h : Hv) : BitVec 32768 :=
  BitVec.ofNat 32768 (joinLanes 8 ((upFrom 0 4096).map fun i =>
    wrapN 8 (satI true 8 (counterAt k i + if h.getLsbD i then 1 else -1))))

/-- `hbund`. -/
def execHbund (a : HReg) (s : State) : Out :=
  s.hyper fun s => s.updMe fun c => { c with kcnt := bundle c.kcnt (s.rh a) }

/-- `hclr`. -/
def execHclr (t : HTarget) (s : State) : Out :=
  s.hyper fun s => s.updMe fun c =>
    match t with
    | .h0 => { c with h := c.h.set 0 0 }
    | .h1 => { c with h := c.h.set 1 0 }
    | .h2 => { c with h := c.h.set 2 0 }
    | .h3 => { c with h := c.h.set 3 0 }
    | .ht => { c with ht := 0 }
    | .k => { c with kcnt := 0 }

/-- The vector of the counters' signs, ties from ht (R297). -/
def threshold (k : BitVec 32768) (t : Hv) : Hv :=
  BitVec.ofNat 4096 (joinLanes 1 ((upFrom 0 4096).map fun i =>
    if counterAt k i > 0 then 1 else if counterAt k i < 0 then 0 else if t.getLsbD i then 1 else 0))

/-- `hthr`. -/
def execHthr (d : HReg) (s : State) : Out := s.hyper fun s => s.wh d (threshold s.me.kcnt s.me.ht)
/-- `htie`. -/
def execHtie (a : HReg) (s : State) : Out := s.hyper fun s => s.updMe fun c => { c with ht := s.rh a }

/-- `hdist`. -/
def execHdist (d : SReg) (a b : HReg) (s : State) : Out :=
  s.hyper fun s => s.ws d (BitVec.ofNat 64 (popCount (s.rh a ^^^ s.rh b) 4096))
/-- `hpop`. -/
def execHpop (d : SReg) (a : HReg) (s : State) : Out :=
  s.hyper fun s => s.ws d (BitVec.ofNat 64 (popCount (s.rh a) 4096))

/-! ## Recall (R299, R300) -/

/-- The image of an item, chunk by chunk. -/
def State.loadItem (s : State) (sp : Space) (ea : Word) : Nat → Nat → Res (State × List Byte)
  | 0, _ => .ok (s, [])
  | n + 1, i => do
    let (s, a) ← s.check sp (ea + BitVec.ofNat 64 (64 * i)) 64 true false false
    let (s, bs) ← s.loadWords sp a 8
    let (s, r) ← State.loadItem s sp ea n (i + 1)
    .ok (s, bs ++ r)

/-- Items scanned from item j on, at most fuel of them: the best item and its distance. -/
def State.scan (s : State) (sp : Space) (base : Word) (count : Nat) (q : Hv) :
    Nat → Nat → Nat → Nat → Res (State × Nat × Nat)
  | 0, _, bi, bd => .ok (s, bi, bd)
  | k + 1, j, bi, bd =>
    if j ≥ count then .ok (s, bi, bd)
    else
      match s.loadItem sp (base + BitVec.ofNat 64 (512 * j)) 8 0 with
      | .error (s, e) => .error (s.saveProgress true j bi bd, e)
      | .ok (s, bs) =>
        let dist := popCount (q ^^^ BitVec.ofNat 4096 (joinBytes bs)) 4096
        let bi' := if dist < bd then j else bi
        let bd' := if dist < bd then dist else bd
        if s.breaks (j + 1) ∧ j + 1 < count then .error (s.saveProgress true (j + 1) bi' bd', .hold)
        else State.scan s sp base count q k (j + 1) bi' bd'

/-- `hrcl` (R300). Where the array as a whole fails steps 1 to 3 of R216, k.addr is its first offset or address: R300 names no k.addr and
no ea for an array, DESIGN CHOICE (log entry 28). -/
def execHrcl (d : SReg) (a : HReg) (b : SReg) (s : State) : Out :=
  finish do
    s.needHyper
    let x := s.rs b
    let count := (bits x 18 16).toNat
    let base : Word := (bits x 0 18).setWidth 64
    let sp : Space := if bits x 34 2 = 1 then .scratch else .tcm
    demand (decide (count ≠ 0) && (bits x 34 2 == 1 || bits x 34 2 == 2) && bits x 36 28 == 0) s (.trap 0x01 x)
    s.checkSpan sp base (512 * count) false
    let p := s.me.hprog
    let from_ := if s.me.resumes true then ((bits p 5 16).toNat, (bits p 21 16).toNat, (bits p 37 13).toNat) else (0, 0, 4097)
    let (s, bi, bd) ← s.scan sp base count (s.rh a) count from_.1 from_.2.1 from_.2.2
    .ok ((s.clearProgress.ws d (BitVec.ofNat 64 (bd * 65536 + bi))).advance 4)

end Sys2Proof.Machine
end

