-- ==== Sys2Proof/Machine/Matrix.lean ====
section
/-! DEFINITION. The matrix engine (majors 0x30 to 0x35, R258 to R286): acceptance of its commands, and the events that
perform them. -/

namespace Sys2Proof.Machine

/-! ## Formats (R259, R260) -/

/-- The floating-point format of a code of R102. -/
def floatFmt (f : BitVec 4) : Fmt :=
  match f.toNat with
  | 9 => bf16
  | 10 => fp16
  | 11 => e4m3
  | 12 => e5m2
  | 13 => e2m1
  | _ => fp32

/-- afmt of a format context. -/
def ctxA (x : Word) : BitVec 4 := bits x 0 4
/-- bfmt of a format context. -/
def ctxB (x : Word) : BitVec 4 := bits x 4 4
/-- amx of a format context. -/
def ctxAmx (x : Word) : Bool := x.getLsbD 8
/-- bmx of a format context. -/
def ctxBmx (x : Word) : Bool := x.getLsbD 9

/-- A format context that R259 and R260 allow: whether it accumulates integers. -/
def ctxPair (x : Word) : Option Bool :=
  let a := (ctxA x).toNat
  let b := (ctxB x).toNat
  let mx (f : Nat) : Bool := f == 11 || f == 12 || f == 13
  let fp8 (f : Nat) : Bool := f == 11 || f == 12
  if bits x 10 54 ≠ 0 ∨ (ctxAmx x ∧ !mx a) ∨ (ctxBmx x ∧ !mx b) then none
  else if a = 4 ∧ b = 4 then some true
  else if (a = b ∧ (a = 9 ∨ a = 10 ∨ a = 13)) ∨ (fp8 a ∧ fp8 b) ∨ (a = 14 ∧ (b = 9 ∨ fp8 b)) then some false
  else none

/-! ## Operand tiles (R265, R266) -/

/-- Bytes of n elements of a format. -/
def fmtLen (f : BitVec 4) (n : Nat) : Nat := n * fmtBits f / 8

/-- Length of an A tile. -/
def aLen (k : AKind) (f : BitVec 4) (mx : Bool) (len : Nat) : Nat :=
  let scales := if mx then len / 4 else 0
  match k with
  | .dense => fmtLen f (8 * len) + scales
  | .sparse => fmtLen f (4 * len) + len + scales
  | .cb2 => 2 * len + len / 8

/-- Length of a B tile. -/
def bLen (f : BitVec 4) (mx : Bool) (len : Nat) : Nat := fmtLen f (8 * len) + if mx then len / 4 else 0

/-- The code of element i of packed elements from a on. -/
def elemCode (get : Nat → Byte) (f : BitVec 4) (a i : Nat) : Nat :=
  if f = 0xD then (get (a + i / 2)).toNat / 16 ^ (i % 2) % 16
  else joinBytes ((upFrom (a + i * fmtBytes f) (fmtBytes f)).map get)

/-- The exact value of a code (R137); i8 codes are integers. -/
def codeValue (f : BitVec 4) (x : Nat) : Ext := if f = 0x4 then ofInteger (intOf true 8 x) else (floatFmt f).value x

/-- The value under its block scale, if it has one (R141). -/
def scaled (mx : Bool) (scale : Byte) (x : Ext) : Ext := if mx then (e8m0 scale.toNat).mul x else x

/-- A[i][k] of a tile at a (R266, R270); none for an element that a sparse tile omits. -/
def aValue (kind : AKind) (get : Nat → Byte) (a len : Nat) (f : BitVec 4) (mx : Bool) (pos : List (BitVec 4)) (i k : Nat) :
    Option Ext :=
  match kind with
  | .dense =>
    some (scaled mx (get (a + fmtLen f (8 * len) + i * len / 32 + k / 32)) (codeValue f (elemCode get f a (i * len + k))))
  | .sparse =>
    let p := (pos[i * (len / 4) + k / 4]?).getD 0
    let at_ (t : Nat) : Option Ext :=
      some (scaled mx (get (a + fmtLen f (4 * len) + len + i * len / 32 + k / 32))
        (codeValue f (elemCode get f a (i * len / 2 + 2 * (k / 4) + t))))
    if k % 4 = (bits p 0 2).toNat then at_ 0 else if k % 4 = (bits p 2 2).toNat then at_ 1 else none
  | .cb2 =>
    let c := BitVec.ofNat 16 (elemCode get 0xE a (i * len / 8 + k / 8))
    let scale := e4m3.value (get (a + 2 * len + i * len / 64 + k / 64)).toNat
    some (scale.mul (cb2Weight c (k % 8)))

/-- B[k][j] of a tile at a (R266). -/
def bValue (get : Nat → Byte) (a len : Nat) (f : BitVec 4) (mx : Bool) (j k : Nat) : Ext :=
  scaled mx (get (a + fmtLen f (8 * len) + j * len / 32 + k / 32)) (codeValue f (elemCode get f a (j * len + k)))

/-- A product's operands; an omitted A element counts as a +0 product (R154). -/
def macPair (x : Option Ext) (y : Ext) : Ext × Ext :=
  match x with
  | some x => (x, y)
  | none => (.zero, .fin false 1 0)

/-- The value of an exact integer. -/
def extInt : Ext → Int
  | .fin a m e => alignTo a m e 0
  | _ => 0

/-- MatAcc on one accumulator element (R154, R155). -/
def matAcc (int : Bool) (acc : BitVec 32) (l : List (Ext × Ext)) : BitVec 32 :=
  if int then BitVec.ofInt 32 (acc.toInt + l.foldl (fun t p => t + extInt p.1 * extInt p.2) (0 : Int))
  else BitVec.ofNat 32 (accGroups l.length acc.toNat l)

/-- Every element of an accumulator after a multiply (R269). -/
def mulTile (int : Bool) (len : Nat) (a : Nat → Nat → Option Ext) (b : Nat → Nat → Ext) (acc : Vector (BitVec 32) 64) :
    Vector (BitVec 32) 64 :=
  Vector.ofFn fun (e : Fin 64) =>
    matAcc int (acc.get e) ((upFrom 0 len).map fun k => macPair (a (e.val / 8) k) (b (e.val % 8) k))

/-- The byte of core n's TCM at an offset. -/
def Core.tcmByte (c : Core) (a : Nat) : Byte := c.tcm.get a

/-- The first poisoned TCM word of n bytes from a. -/
def Core.poisonIn (c : Core) (a n : Nat) : Option Nat :=
  ((upFrom (a / 8) ((a + n + 7) / 8 - a / 8)).find? fun w => poisonGet c.tcmPoison w).map fun w => 8 * w

/-! ## Acceptance (R261, R263, R267) -/

/-- A slot, and a drained store buffer (R113, R261). -/
def State.matrixReady (s : State) : Res State := do
  s.needSlot 1
  s.drain s.cur

/-- The command enters the queue and the instruction retires. -/
def State.acceptMat (s : State) (op : MatOp) : State :=
  let x : MatCmd := { by_ := s.issuer, op, waited := 0 }
  (s.updMe fun c => { c.acceptCmd 1 with matQ := c.matQ ++ [x] }).advance 4

/-- The format context that the checks of a new command of the running level see (R261). -/
def Core.mctxAhead (c : Core) : Word :=
  c.matQ.foldl (fun x (q : MatCmd) =>
    match q.op with
    | .fmt y => if q.by_.level = c.lvl then y else x
    | _ => x) c.here.mctx

/-- L will be valid when a new command reaches the head (R285). -/
def Core.latchAhead (c : Core) : Bool :=
  c.matQ.foldl (fun x (q : MatCmd) =>
    match q.op with
    | .load _ _ _ => true
    | .ring => false
    | .mul _ _ _ _ latch _ _ _ _ => x || latch
    | _ => x) c.latchL.isSome

/-- The tile lies in the TCM, and in the areas open to the frame (R267). -/
def State.checkTile (s : State) (a : Word) (n : Nat) : Res Unit := do
  let c := s.me
  demand (decide (a.toNat % 16 = 0)) s (.trap 0x02 a)
  demand (decide (a.toNat + n ≤ 0xC000)) s (.trap 0x03 a)
  demand (decide (c.level = 7) || (upFrom 0 ((n + 15) / 16)).all fun i =>
    decide (a.toNat + 16 * i < c.slim.toNat) || inFrame c.here.fbase (frameSize c.here.fclass c.lvl) (a.toNat + 16 * i)) s
    (.trap 0x03 a)

/-- The running frame holds resource 1 (R50, R271). -/
def State.needLatch (s : State) : Res Unit :=
  demand (s.me.here.claims.any fun x => x.res == 1) s (.trap 0x05 1)

/-- The afmt condition of a form (R268). -/
def kindOk (k : AKind) (f : BitVec 4) : Bool :=
  match k with
  | .dense => f != 0xE
  | .sparse => f == 0x9 || f == 0xA || f == 0xB || f == 0xC
  | .cb2 => f == 0xE

/-- The metadata nibbles of a sparse tile, rows ascending (R270). -/
def Core.nibbles (c : Core) (a len : Nat) : List (BitVec 4) :=
  (upFrom a len).flatMap fun x => [bits (c.tcmByte x) 0 4, bits (c.tcmByte x) 4 4]

/-- The nibble is valid (R270). -/
def nibbleOk (p : BitVec 4) : Bool := decide ((bits p 0 2).toNat < (bits p 2 2).toNat)

/-- A multiply (R269): the reduction length is 8 (k + 1). -/
def State.multiply (s : State) (kind : AKind) (d : AReg) (a : SReg) (b : Option SReg) (k : BitVec 6) : Out :=
  finish do
    let s ← s.matrixReady
    let len := 8 * (k.toNat + 1)
    if b.isNone then s.needLatch
    let x := s.me.mctxAhead
    demand ((ctxPair x).isSome && kindOk kind (ctxA x) && (!(ctxAmx x || ctxBmx x) || decide (len % 32 = 0)) &&
      (kind != .cb2 || decide (len % 64 = 0))) s (.trap 0x01 x)
    let ta := s.rs a
    s.checkTile ta (aLen kind (ctxA x) (ctxAmx x) len)
    let tb := match b with
      | some r => s.rs r
      | none => 0
    if b.isSome then s.checkTile tb (bLen (ctxB x) (ctxBmx x) len)
    let meta_ := ta.toNat + fmtLen (ctxA x) (4 * len)
    let pos := if kind = .sparse then s.me.nibbles meta_ len else []
    let bad := if kind = .sparse then s.me.poisonIn meta_ len else none
    match firstIdx (fun p => !nibbleOk p) pos with
    | some i => .error (s, .trap 0x06 (BitVec.ofNat 64 (meta_ + i / 2 + 65536 * (i % 2))))
    | none =>
      demand (b.isSome || s.me.latchAhead || !s.tentative) s (.park 10 0)
      .ok (s.acceptMat (.mul kind d (bits ta 0 16) (bits tb 0 16) b.isNone len x pos bad))

/-- `mmul`. -/
def execMmul (d : AReg) (a b : SReg) (k : BitVec 6) (s : State) : Out := s.multiply .dense d a (some b) k
/-- `mmul.l`. -/
def execMmulL (d : AReg) (a : SReg) (k : BitVec 6) (s : State) : Out := s.multiply .dense d a none k
/-- `mmul.sp`. -/
def execMmulSp (d : AReg) (a b : SReg) (k : BitVec 6) (s : State) : Out := s.multiply .sparse d a (some b) k
/-- `mmul.sp.l`. -/
def execMmulSpL (d : AReg) (a : SReg) (k : BitVec 6) (s : State) : Out := s.multiply .sparse d a none k
/-- `mcb`. -/
def execMcb (d : AReg) (a b : SReg) (k : BitVec 6) (s : State) : Out := s.multiply .cb2 d a (some b) k
/-- `mcb.l`. -/
def execMcbL (d : AReg) (a : SReg) (k : BitVec 6) (s : State) : Out := s.multiply .cb2 d a none k

/-- `mbl` (R272). -/
def execMbl (a : SReg) (k : BitVec 6) (s : State) : Out :=
  finish do
    let s ← s.matrixReady
    let len := 8 * (k.toNat + 1)
    s.needLatch
    let x := s.me.mctxAhead
    demand (decide (fmtLen (ctxB x) (8 * len) ≤ 4096) && (!ctxBmx x || decide (len % 32 = 0))) s (.trap 0x01 x)
    s.checkTile (s.rs a) (bLen (ctxB x) (ctxBmx x) len)
    .ok (s.acceptMat (.load (bits (s.rs a) 0 16) len x))

/-- `mring` (R272). -/
def execMring (s : State) : Out :=
  finish do
    let s ← s.matrixReady
    s.needLatch
    s.parkTentative 10
    .ok (s.acceptMat .ring)

/-- `mfmt` (R274). -/
def execMfmt (a : SReg) (s : State) : Out :=
  finish do
    let s ← s.matrixReady
    demand (ctxPair (s.rs a)).isSome s (.trap 0x01 (s.rs a))
    .ok (s.acceptMat (.fmt (s.rs a)))

/-- `mzero` (R274). -/
def execMzero (d : AReg) (s : State) : Out :=
  finish do
    let s ← s.matrixReady
    .ok (s.acceptMat (.zero d))

/-- `macc` into an accumulator: v_a is read at acceptance (R274). -/
def execMaccToAccumulator (d : AReg) (a : VReg) (r : BitVec 3) (h : Bool) (s : State) : Out :=
  finish do
    let s ← s.matrixReady
    .ok (s.acceptMat (.moveIn d (s.rv a) r h))

/-- Place of lane m of a half row. -/
def halfAt (r : BitVec 3) (h : Bool) (m : Nat) : Nat := 8 * r.toNat + (if h then 4 else 0) + m

/-- Four elements of an accumulator as a vector (R274). -/
def accHalf (x : Vector (BitVec 32) 64) (r : BitVec 3) (h : Bool) : Vec :=
  ofLanes 32 ((upFrom 0 4).map fun m => (x.getD (halfAt r h m) 0).toNat)

/-- `macc` to a vector register: it waits for every earlier command, then is accepted, performed and ended in one
(R275, R310). -/
def execMaccToVector (d : VReg) (a : AReg) (r : BitVec 3) (h : Bool) (s : State) : Out :=
  finish do
    let s ← s.matrixReady
    demand s.me.matQ.isEmpty s .stall
    let s := (s.wv d (accHalf (s.me.here.ra a) r h)).updMe fun c => c.updEst 1 fun e => e.ending false (c.heldCmds 1)
    .ok (s.advance 4)

/-! ## The epilogue (R276 to R280) -/

/-- Bytes of an output row. -/
def rowSize (ofmt : BitVec 4) : Nat := fmtBits ofmt

/-- Bytes of a store unit (R279). -/
def unitSize (ofmt : BitVec 4) : Nat := Nat.min 8 (rowSize ofmt)

/-- ofmt suits the accumulation (R277). -/
def ofmtOk (int : Bool) (f : BitVec 4) : Bool :=
  if int then f == 0x4 || f == 0x6 || f == 0x8 else decide (8 ≤ f.toNat) && decide (f.toNat ≤ 13)

/-- The fields rnd, act, bias, boff and the reserved ones are as R277 states. -/
def epiOk (e : Word) (ofmt : BitVec 4) (int : Bool) : Bool :=
  ofmtOk int ofmt && (e.getLsbD 4 == false || decide (8 ≤ ofmt.toNat)) && decide ((bits e 5 2).toNat ≤ 1) &&
    bits e 10 6 == 0 && bits e 48 16 == 0 && decide ((bits e 32 16).toNat % 32 = 0) &&
    (e.getLsbD 7 || bits e 32 16 == 0)

/-- The output area of `mepi` passes steps 2 and 3 of R216 for its space (R278). -/
def State.outputOk (s : State) (sp : Space) (a rstride row : Nat) : Bool :=
  let c := s.me
  (upFrom 0 8).all fun i =>
    let lo := a + i * rstride
    match sp with
    | .tcm => decide (lo + row ≤ 0xC000) && c.tcmAllowed lo true && c.tcmAllowed (lo + row - 1) true
    | .scratch => decide (lo + row ≤ 0x40000) && bits (c.pageEntry lo) 0 2 == 3
    | .global => decide (lo + row ≤ 2 ^ 56) && !isMgmt lo && (c.rights (BitVec.ofNat 56 lo) (c.level == 7)).2.1

/-- Where a tentative instance's `mepi` parks (R285). -/
def State.epiParks (s : State) (sp : Space) (a rstride row : Nat) : Option (BitVec 4) :=
  let b := s.me.here
  if !s.tentative then none
  else
    match sp with
    | .global => none
    | .scratch => some 6
    | .tcm =>
      let fs := frameSize b.fclass s.me.lvl
      if (upFrom 0 8).all fun i => inFrame b.fbase fs (a + i * rstride) && inFrame b.fbase fs (a + i * rstride + row - 1) then
        none
      else some 6

/-- `mepi` (R278, R279): it takes its draws when it retires. -/
def execMepi (d : AReg) (a b : SReg) (s : State) : Out :=
  finish do
    let s ← s.matrixReady
    let e := s.rs b
    let addr := s.rs a
    let x := s.me.mctxAhead
    let ofmt := bits e 0 4
    let row := rowSize ofmt
    let rstride := (bits e 16 16).toNat
    let int := (ctxPair x).getD false
    demand (epiOk e ofmt int && bits e 8 2 != 3) s (.trap 0x01 e)
    demand (decide (addr.toNat % row = 0) && decide (rstride % row = 0) && decide (row ≤ rstride)) s (.trap 0x02 addr)
    let boff : Word := (bits e 32 16).setWidth 64
    if e.getLsbD 7 then
      match s.checkTile boff 32 with
      | .ok _ => pure ()
      | .error _ => .error (s, .trap 0x03 boff)
    let sp := (Space.ofCode (bits e 8 2)).getD .global
    demand (s.outputOk sp addr.toNat rstride row) s (.trap 0x03 addr)
    demand (!(s.me.epi0.isSome && s.me.epi1.isSome)) s (.trap 0x0A 2)
    match s.epiParks sp addr.toNat rstride row with
    | some why => .error (s, .park why 0)
    | none =>
      let base := s.me.sctr
      let s := if e.getLsbD 4 then s.updMe fun c => { c with sctr := c.sctr + 16 } else s
      .ok (s.acceptMat (.epi d addr e x base))

/-- Epilogue buffer n. -/
def Core.epiBuf (c : Core) (n : BitVec 1) : Option EpiBuf := if n = 0 then c.epi0 else c.epi1
/-- Epilogue buffer n replaced. -/
def Core.setEpi (c : Core) (n : BitVec 1) (b : Option EpiBuf) : Core :=
  if n = 0 then { c with epi0 := b } else { c with epi1 := b }

/-- `mepi.resume` and `mepi.drop` (R280, R285). -/
def State.epiCommand (s : State) (n : BitVec 1) (op : MatOp) : Out :=
  finish do
    let s ← s.matrixReady
    demand (s.me.epiBuf n).isSome s (.trap 0x01 (n.setWidth 64))
    s.parkTentative 10
    .ok (s.acceptMat op)

/-- `mepi.resume`. -/
def execMepiResume (n : BitVec 1) (s : State) : Out := s.epiCommand n (.resume n)
/-- `mepi.drop`. -/
def execMepiDrop (n : BitVec 1) (s : State) : Out := s.epiCommand n (.drop n)

/-! ## The pass (R281 to R283) -/

/-- Extent of dimension i of a map. -/
def TMap.size (m : TMap) (i : Nat) : Nat :=
  match m.dims[i]? with
  | some d => d.extent + 1
  | none => 1

/-- Reduction length that A's map gives (R282). -/
def passLen (a : TMap) : Nat := if a.efmt = 0xE then 8 * a.size 0 else a.size 0

/-- `mpass`. -/
def execMpass (d : SReg) (x : QReg) (sprio : BitVec 3) (stype : BitVec 8) (s : State) : Out :=
  finish do
    s.needSlot 1
    let succ ← s.checkSucc d sprio stype false
    let s ← s.matrixReady
    let off := s.desc x
    let k : Word := BitVec.ofNat 64 off
    let w ← s.record off
    let at_ (i : Nat) : Word := (w[i]?).getD 0
    let am ← s.readMap (bits (at_ 0) 0 16).toNat
    let bm ← s.readMap (bits (at_ 0) 16 16).toNat
    let cm ← s.readMap (bits (at_ 0) 32 16).toNat
    let epi := at_ 1
    let ctx : Word := (bits (at_ 4) 32 2 ++ bm.efmt ++ am.efmt).setWidth 64
    demand (bits (at_ 0) 48 16 == 0 && bits epi 0 4 == 0 && bits epi 8 2 == 0 && bits epi 16 16 == 0 &&
      bits (at_ 2) 56 8 == 0 && bits (at_ 3) 56 8 == 0 && bits (at_ 4) 34 30 == 0 && at_ 6 == 0 && at_ 7 == 0 &&
      decide (am.dims.length = 2) && decide (bm.dims.length = 2) && decide (cm.dims.length = 2) &&
      (ctxPair ctx).isSome && epiOk epi cm.efmt ((ctxPair ctx).getD false)) s (.trap 0x01 k)
    demand (decide (passLen am = bm.size 0) && decide (am.size 1 = cm.size 1) && decide (bm.size 1 = cm.size 0)) s
      (.trap 0x01 (k + 0x10000))
    s.parkTentative 10
    .ok (s.acceptMat (.pass succ am bm cm epi (bits (at_ 2) 0 56) (bits (at_ 3) 0 56) (bits (at_ 4) 0 32)
      ((at_ 4).getLsbD 32) ((at_ 4).getLsbD 33) (at_ 5)))

/-! ## Performing a command (R261 to R264) -/

/-- The head command of core n leaves the queue and ends; fault as R311. -/
def State.endMat (s : State) (n : CoreId) (q : MatCmd) (fault : Bool) : State :=
  (s.updCore n fun c => { c with matQ := c.matQ.tail }).endCmd n q.by_.lid 1 fault

/-- The head command is handed back (R262, R320). -/
def State.failMat (s : State) (n : CoreId) (q : MatCmd) (cmd : BitVec 4) (cause : BitVec 5) (addr progress : Word) : State :=
  (s.endMat n q true).handback q.by_ cmd cause s.anySucc addr progress

/-- The next core of the ring (R271). -/
def nextOfRing (n : CoreId) : CoreId := clusterOf n ++ (slotOf n + 1#4)

/-- TakeLatch (R273): none while it must wait. A wait that has ended is counted no further. -/
def State.takeLatch (s : State) (n : CoreId) : Option State :=
  let c := s.core n
  if c.latchL.isSome then some s
  else if c.latchI.isSome then some (s.updCore n fun c =>
    { c with latchL := c.latchI, latchI := none, matQ := updAt (fun (q : MatCmd) => { q with waited := 0 }) c.matQ 0 })
  else none

/-- The first poisoned word of an A tile: of its metadata as read at acceptance, of its other bytes now (R262, R270). -/
def Core.badTile (c : Core) (kind : AKind) (f : BitVec 4) (mx : Bool) (len a : Nat) (bad : Option Nat) : Option Nat :=
  if kind = .sparse then
    ((c.poisonIn a (fmtLen f (4 * len))).orElse fun _ => bad).orElse fun _ =>
      if mx then c.poisonIn (a + fmtLen f (4 * len) + len) (len / 4) else none
  else c.poisonIn a (aLen kind f mx len)

/-- A multiply is performed (R269). -/
def State.performMul (s : State) (n : CoreId) (q : MatCmd) (kind : AKind) (d : AReg) (a b : Nat) (latch : Bool) (len : Nat)
    (x : Word) (pos : List (BitVec 4)) (marked : Option Nat) : State :=
  let c := s.core n
  let int := (ctxPair x).getD false
  let get (i : Nat) : Byte := c.tcmByte i
  let bad := (c.badTile kind (ctxA x) (ctxAmx x) len a marked).orElse fun _ =>
    if latch then none else c.poisonIn b (bLen (ctxB x) (ctxBmx x) len)
  let fits : Bool := match latch, c.latchL with
    | true, some l => decide (l.len = len) && l.bfmt == ctxB x && l.bmx == ctxBmx x
    | true, none => false
    | false, _ => true
  if !fits then s.failMat n q 8 0x01 0 0
  else
    match bad with
    | some w => s.failMat n q 8 0x0D (BitVec.ofNat 64 w) 0
    | none =>
      let slot : List Byte := match c.latchL with
        | some l => l.bytes
        | none => []
      let getB (i : Nat) : Byte := if latch then (slot[i]?).getD 0 else c.tcmByte i
      let fa := aValue kind get a len (ctxA x) (ctxAmx x) pos
      let fb := bValue getB (if latch then 0 else b) len (ctxB x) (ctxBmx x)
      (s.updCore n fun c => c.updBank q.by_.level fun k => k.wa d (mulTile int len fa fb (k.ra d))).endMat n q false

/-- `mbl` is performed (R272). -/
def State.performLoad (s : State) (n : CoreId) (q : MatCmd) (a len : Nat) (x : Word) : State :=
  let c := s.core n
  let size := bLen (ctxB x) (ctxBmx x) len
  match c.poisonIn a size with
  | some w => s.failMat n q 8 0x0D (BitVec.ofNat 64 w) 0
  | none =>
    (s.updCore n fun c => { c with latchL := some { len, bfmt := ctxB x, bmx := ctxBmx x, bytes := c.tcm.read a size } }).endMat
      n q false

/-- Ring (R273): L passes on when the next core's I is free; none while it must wait. -/
def State.passOn (s : State) (n : CoreId) (q : MatCmd) : Option State :=
  let m := nextOfRing n
  match (s.core n).latchL with
  | some l =>
    if (s.core m).latchI.isSome then none
    else some (((s.updCore n fun c => { c with latchL := none }).updCore m fun c => { c with latchI := some l }).endMat n q
      false)
  | none => none

/-! ## The epilogue performed (R279, R280) -/

/-- Max(y, +0) of R140. -/
def relu (y : Ext) : Ext :=
  match y with
  | .nan => .nan
  | y => if y.neg ∨ y.isZero then .zero else y

/-- One output code (R279). Without bias an element of -0 stays -0: the routine adds a zero whose sign the spec does not state, DESIGN
CHOICE (log entry 26). -/
def outCode (int : Bool) (ofmt : BitVec 4) (act : Bool) (draw : Option Nat) (x : BitVec 32) (bias : Option (BitVec 32)) :
    Nat :=
  let value (v : BitVec 32) : Ext := if int then ofInteger v.toInt else fp32.value v.toNat
  let y := match bias with
    | some v => (value x).add (value v)
    | none => value x
  let y := if act then relu y else y
  if ofmt.toNat < 8 then wrapN (fmtBits ofmt) (toInteger true (fmtBits ofmt) none y)
  else (floatFmt ofmt).round draw y

/-- The 64 outputs as bytes, row by row (R277, R279). -/
def captureBytes (c : Core) (int : Bool) (ofmt : BitVec 4) (epi base : Word) (x : Vector (BitVec 32) 64)
    (bias : Nat → Option (BitVec 32)) : List Byte :=
  let cb := { c with sctr := base }
  let code (e : Nat) : Nat :=
    outCode int ofmt (bits epi 5 2 == 1) (if epi.getLsbD 4 then some (cb.draw e) else none) (x.getD e 0) (bias (e % 8))
  (upFrom 0 8).flatMap fun i => splitBytes (rowSize ofmt) (joinLanes (fmtBits ofmt) ((upFrom 0 8).map fun j => code (8 * i + j)))

/-- The bias of a column, read from the TCM (R277, R279). -/
def Core.biasAt (c : Core) (epi : Word) (j : Nat) : Option (BitVec 32) :=
  if epi.getLsbD 7 then some (BitVec.ofNat 32 (joinBytes (c.tcm.read ((bits epi 32 16).toNat + 4 * j) 4))) else none

/-- The poisoned word of a bias vector, if any. -/
def Core.badBias (c : Core) (epi : Word) : Option Nat :=
  if epi.getLsbD 7 then c.poisonIn (bits epi 32 16).toNat 32 else none

/-- The engine of core n for a command. -/
def MatCmd.user (q : MatCmd) (n : CoreId) : EngUser := { core := n, by_ := q.by_, top := q.by_.level == 7 }

/-- Address of store unit w of a buffer (R279). -/
def EpiBuf.unitAddr (b : EpiBuf) (w : Nat) : Int :=
  let unit := unitSize (bits b.epi 0 4)
  let per := rowSize (bits b.epi 0 4) / unit
  b.addr.toNat + (w / per) * (bits b.epi 16 16).toNat + (w % per) * unit

/-- EpiStore from unit w on, at most fuel units: the first unit not stored and why (R279). -/
def State.epiStore (s : State) (u : EngUser) (b : EpiBuf) : Nat → Nat → State × Option (Nat × EngFault)
  | 0, _ => (s, none)
  | k + 1, w =>
    let ofmt := bits b.epi 0 4
    let unit := unitSize ofmt
    let per := rowSize ofmt / unit
    if w ≥ 8 * per then (s, none)
    else
      match s.engWrite u ((Space.ofCode (bits b.epi 8 2)).getD .global) (b.unitAddr w) ((b.bytes.drop (w * unit)).take unit) with
      | .ok s => State.epiStore s u b k (w + 1)
      | .error (s, e) => (s, some (w, e))

/-- Buffer n is stored from its next unit on, and freed or held again (R280, R285); a unit that waits at its word's owner is stored
later (R408). -/
def State.storeBuffer (s : State) (n : CoreId) (q : MatCmd) (i : BitVec 1) (b : EpiBuf) : State :=
  let u : EngUser := { q.user n with by_ := b.by_ }
  match s.epiStore u b 64 b.next with
  | (s, none) => (s.updCore n fun c => c.setEpi i none).endMat n q false
  | (s, some (w, e)) =>
    let progress : Word := BitVec.ofNat 64 (i.toNat + 16 * w)
    let withheld := e.cause == 0x0B
    let s := s.updCore n fun c => c.setEpi i (some { b with next := w, withheld })
    if e.wait then
      s.updCore n fun c => { c with matQ := updAt (fun (x : MatCmd) => { x with op := .resume i }) c.matQ 0 }
    else if withheld then (s.endMat n q true).duePark u
    else s.failMat n q 9 e.cause e.addr progress

/-- `mepi` is performed: phase 1, then phase 2 (R279, R280). A poisoned bias vector captures no buffer and hands back progress 0: the
spec gives a progress word for store faults alone, DESIGN CHOICE (log entry 26). -/
def State.performEpi (s : State) (n : CoreId) (q : MatCmd) (d : AReg) (addr epi x base : Word) : State :=
  let c := s.core n
  let free : Option (BitVec 1) := if c.epi0.isNone then some 0 else if c.epi1.isNone then some 1 else none
  match free with
  | none => s.failMat n q 9 0x0A 0 0
  | some i =>
    match c.badBias epi with
    | some w => s.failMat n q 9 0x0D (BitVec.ofNat 64 w) 0
    | none =>
      let ofmt := bits epi 0 4
      let bytes := captureBytes c ((ctxPair x).getD false) ofmt epi base ((c.bank q.by_.level).ra d) (c.biasAt epi)
      let b : EpiBuf := { by_ := q.by_, bytes, addr, epi, next := 0, withheld := false }
      (s.updCore n fun c => c.setEpi i (some b)).storeBuffer n q i b

/-- `mepi.resume` or `mepi.drop` is performed on buffer n as it then stands (R280). -/
def State.performHeld (s : State) (n : CoreId) (q : MatCmd) (i : BitVec 1) (drop : Bool) : State :=
  match (s.core n).epiBuf i with
  | none => s.failMat n q 9 0x01 (i.setWidth 64) (i.setWidth 64)
  | some b => if drop then (s.updCore n fun c => c.setEpi i none).endMat n q false else s.storeBuffer n q i b

/-- MATRIX_COMMAND_PERFORM: the engine of core n performs the command at its queue's head; one that must wait for a
latch waits, and a pass has its own event (R261). -/
def execMatrixCommandPerform (n : CoreId) (s : State) : Out :=
  match (s.core n).matQ with
  | [] => .next s
  | q :: _ =>
    let bank (f : Bank → Bank) : State := (s.updCore n fun c => c.updBank q.by_.level f).endMat n q false
    match q.op with
    | .fmt x => .next (bank fun b => { b with mctx := x })
    | .zero d => .next (bank fun b => b.wa d (.replicate 64 0))
    | .moveIn d x r h =>
      .next (bank fun b => b.wa d ((upFrom 0 4).foldl (fun v m =>
        v.setIfInBounds (halfAt r h m) (bits x (32 * m) 32)) (b.ra d)))
    | .mul kind d a b latch len x pos bad =>
      match (if latch then s.takeLatch n else some s) with
      | none => .next s
      | some s => .next (s.performMul n q kind d a.toNat b.toNat latch len x pos bad)
    | .load a len x => .next (s.performLoad n q a.toNat len x)
    | .ring =>
      match s.takeLatch n with
      | none => .next s
      | some s => .next ((s.passOn n q).getD s)
    | .epi d addr epi x base => .next (s.performEpi n q d addr epi x base)
    | .resume i => .next (s.performHeld n q i false)
    | .drop i => .next (s.performHeld n q i true)
    | .pass _ _ _ _ _ _ _ _ _ _ _ => .next s

/-- The head command of core n that uses the latch, if it is one. -/
def Core.latchHead (c : Core) : Option MatCmd :=
  match c.matQ with
  | q :: _ =>
    match q.op with
    | .ring => some q
    | .mul _ _ _ _ latch _ _ _ _ => if latch then some q else none
    | _ => none
  | [] => none

/-- LATCH_TAKE: a waiting latch command takes I into L (R273). -/
def execLatchTake (n : CoreId) (s : State) : Out :=
  .next (if (s.core n).latchHead.isSome then (s.takeLatch n).getD s else s)

/-- RING_HANDOFF: a waiting `mring` passes L into the next core's I (R273). -/
def execRingHandoff (n : CoreId) (s : State) : Out :=
  match (s.core n).latchHead with
  | some q => .next (if q.op = .ring then (s.passOn n q).getD s else s)
  | none => .next s

/-- The head latch command of core n waits (R273). -/
def State.latchWaits (s : State) (n : CoreId) (q : MatCmd) : Bool :=
  let c := s.core n
  if c.latchL.isSome then q.op == .ring && (s.core (nextOfRing n)).latchI.isSome else c.latchI.isNone

/-- LATCH_WAIT_TIMEOUT: cc cycles of a latch wait are counted; past the watchdog the command is handed back (R273). -/
def execLatchWaitTimeout (n : CoreId) (cc : BitVec 40) (s : State) : Out :=
  match (s.core n).latchHead with
  | none => .next s
  | some q =>
    if !s.latchWaits n q then .next s
    else
      let t := q.waited + cc.setWidth 41
      if t.toNat > (s.core n).wdog.toNat then .next (s.failMat n q 8 0x0C 0 0)
      else .next (s.updCore n fun c => { c with matQ := { q with waited := t } :: c.matQ.tail })

/-! ## A pass performed (R284) -/

/-- What a pass needs of its record and maps. -/
structure Pass where
  a : TMap
  b : TMap
  c : TMap
  epi : Word
  ascale : BitVec 56
  bscale : BitVec 56
  amx : Bool
  bmx : Bool
  base : Word
  deriving DecidableEq, Repr

/-- Rows, columns and tiles of a pass (R284). -/
def Pass.rows (p : Pass) : Nat := p.c.size 1
/-- Columns of a pass. -/
def Pass.cols (p : Pass) : Nat := p.c.size 0
/-- Tiles in one row of tiles. -/
def Pass.across (p : Pass) : Nat := (p.cols + 7) / 8
/-- Tiles of a pass. -/
def Pass.tiles (p : Pass) : Nat := (p.rows + 7) / 8 * p.across

/-- The scale byte of a row and block in an operand's scale array (R282). -/
def State.readScale (s : State) (u : EngUser) (m : TMap) (base : BitVec 56) (row len bs k : Nat) : Eng (State × Nat) := do
  let (s, x) ← s.engRead u m.space ((base.toNat + row * ((len + bs - 1) / bs) + k / bs : Nat) : Int) 1
  .ok (s, joinBytes x)

/-- A[row][k] read through its map (R284). -/
def State.passA (s : State) (u : EngUser) (p : Pass) (row k : Nat) : Eng (State × Ext) := do
  let len := passLen p.a
  if p.a.efmt = 0xE then
    let (s, c) ← s.readElem u p.a [k / 8, row]
    let (s, z) ← s.readScale u p.a p.ascale row len 64 k
    .ok (s, (e4m3.value z).mul (cb2Weight (BitVec.ofNat 16 c) (k % 8)))
  else
    let (s, x) ← s.readElem u p.a [k, row]
    if p.amx then
      let (s, z) ← s.readScale u p.a p.ascale row len 32 k
      .ok (s, (e8m0 z).mul (codeValue p.a.efmt x))
    else .ok (s, codeValue p.a.efmt x)

/-- B[k][col] read through its map (R284). -/
def State.passB (s : State) (u : EngUser) (p : Pass) (col k : Nat) : Eng (State × Ext) := do
  let (s, x) ← s.readElem u p.b [k, col]
  if p.bmx then
    let (s, z) ← s.readScale u p.b p.bscale col (passLen p.a) 32 k
    .ok (s, (e8m0 z).mul (codeValue p.b.efmt x))
  else .ok (s, codeValue p.b.efmt x)

/-- The operands of one element from k on, in the order the routine reads them. -/
def State.passPairs (s : State) (u : EngUser) (p : Pass) (row col : Nat) : Nat → Nat → Eng (State × List (Ext × Ext))
  | 0, _ => .ok (s, [])
  | n + 1, k => do
    let (s, x) ← s.passA u p row k
    let (s, y) ← s.passB u p col k
    let (s, r) ← State.passPairs s u p row col n (k + 1)
    .ok (s, (x, y) :: r)

/-- The elements of tile t from e on; those outside the output stay zero. -/
def State.passElems (s : State) (u : EngUser) (p : Pass) (int : Bool) (t : Nat) :
    Nat → Nat → Eng (State × List (BitVec 32))
  | 0, _ => .ok (s, [])
  | n + 1, e => do
    let row := 8 * (t / p.across) + e / 8
    let col := 8 * (t % p.across) + e % 8
    let (s, x) ← (if row < p.rows ∧ col < p.cols then do
        let (s, l) ← s.passPairs u p row col (passLen p.a) 0
        .ok (s, matAcc int 0 l)
      else .ok (s, 0))
    let (s, r) ← State.passElems s u p int t n (e + 1)
    .ok (s, x :: r)

/-- The store units of tile t from w on, through the C map; coordinates outside C are dropped (R103, R284). -/
def State.passStore (s : State) (u : EngUser) (p : Pass) (t : Nat) (bytes : List Byte) : Nat → Nat → Eng State
  | 0, _ => .ok s
  | n + 1, w => do
    let unit := unitSize p.c.efmt
    let per := rowSize p.c.efmt / unit
    let count := unit * 8 / fmtBits p.c.efmt
    let row := 8 * (t / p.across) + w / per
    let col := 8 * (t % p.across) + (w % per) * count
    if w ≥ 8 * per then .ok s
    else if row < p.rows ∧ col < p.cols then
      let keep := fmtLen p.c.efmt (Nat.min count (p.cols - col))
      let a := p.c.addr [col, row]
      match s.engWrite u p.c.space a ((bytes.drop (w * unit)).take keep) with
      | .ok s => State.passStore s u p t bytes n (w + 1)
      | .error (s, e) => .error (s, { e with addr := BitVec.ofInt 64 a })
    else State.passStore s u p t bytes n (w + 1)

/-- The elements of a pass's bias vector from j on, which the pass reads as any other: each where the issuer may read the TCM, and of
words that are not poisoned (R284, R321). -/
def State.passBias (s : State) (u : EngUser) (epi : Word) : Nat → Nat → Eng Unit
  | 0, _ => .ok ()
  | n + 1, j => do
    let _ ← s.engRead u .tcm (((bits epi 32 16).toNat + 4 * j : Nat) : Int) 4
    State.passBias s u epi n (j + 1)

/-- Tile t computed and stored. -/
def State.passTile (s : State) (u : EngUser) (p : Pass) (int : Bool) (t : Nat) : Eng State := do
  let (s, l) ← s.passElems u p int t 64 0
  s.passBias u p.epi (if p.epi.getLsbD 7 then 8 else 0) 0
  let c := s.core u.core
  let x : Vector (BitVec 32) 64 := Vector.ofFn fun (e : Fin 64) => (l[e.val]?).getD 0
  let bytes := captureBytes c int p.c.efmt p.epi (p.base + BitVec.ofNat 64 (16 * t)) x (c.biasAt p.epi)
  s.passStore u p t bytes 32 0

/-- Tiles from t on, at most fuel of them: the tile at which a fault stopped the pass. -/
def State.passTiles (s : State) (u : EngUser) (p : Pass) (int : Bool) : Nat → Nat → State × Option (Nat × EngFault)
  | 0, _ => (s, none)
  | n + 1, t =>
    if t ≥ p.tiles then (s, none)
    else
      match s.passTile u p int t with
      | .ok s => State.passTiles s u p int n (t + 1)
      | .error (s, e) => (s, some (t, e))

/-- A pass that starts at tile t. -/
def MatCmd.from (q : MatCmd) (t : Nat) : MatCmd :=
  match q.op with
  | .pass su a b c epi ascale bscale _ amx bmx base =>
    { q with op := .pass su a b c epi ascale bscale (BitVec.ofNat 32 t) amx bmx base }
  | _ => q

/-- A pass that cannot go on at tile t is handed back, or goes on there later where an access waits at its word's owner (R284, R408). -/
def State.stopPass (s : State) (n : CoreId) (q : MatCmd) (succ : Succ) (e : EngFault) (t : Nat) : State :=
  if e.wait then
    s.updCore n fun c => { c with matQ := q.from t :: c.matQ.tail }
  else (s.endMat n q true).handback q.by_ 7 e.cause succ e.addr (BitVec.ofNat 64 t)

/-- MPASS_RUN: the engine of core n performs the pass at its queue's head (R284). -/
def execMpassRun (n : CoreId) (s : State) : Out :=
  match (s.core n).matQ with
  | [] => .next s
  | q :: _ =>
    match q.op with
    | .pass succ a b c epi ascale bscale t0 amx bmx base =>
      let p : Pass := { a, b, c, epi, ascale, bscale, amx, bmx, base }
      let int := decide (a.efmt = 0x4)
      match s.passTiles (q.user n) p int p.tiles t0.toNat with
      | (s, none) =>
        let k : Word := BitVec.ofNat 64 p.tiles
        .next ((s.updCore n fun c => { c with matQ := c.matQ.tail }).completeFar n q.by_ 7 succ [k] k false)
      | (s, some (t, e)) => .next (s.stopPass n q succ e t)
    | _ => .next s

/-- The engine of core n stores one tile of the pass at its queue's head, and goes on later: other agents may act between two tiles
(R126, R284). The last tile is left to MPASS_RUN. -/
def State.passOne (s : State) (n : CoreId) : State :=
  match (s.core n).matQ with
  | [] => s
  | q :: rest =>
    match q.op with
    | .pass succ a b c epi ascale bscale t0 amx bmx base =>
      let p : Pass := { a, b, c, epi, ascale, bscale, amx, bmx, base }
      if p.tiles ≤ t0.toNat + 1 then s
      else
        match s.passTiles (q.user n) p (decide (a.efmt = 0x4)) 1 t0.toNat with
        | (s, none) => s.updCore n fun k =>
            { k with matQ := { q with op := .pass succ a b c epi ascale bscale (t0 + 1) amx bmx base } :: rest }
        | (s, some (t, e)) => s.stopPass n q succ e t
    | _ => s

end Sys2Proof.Machine
end

