-- ==== Sys2Proof/Machine/System.lean ====
section
/-! DEFINITION. System instructions (major 0x3E, R343 to R359) but `fsave` and `fload`, with the supervisor registers. -/

namespace Sys2Proof.Machine

/-- The effect of a privileged instruction: at levels 0 to 6 it traps with cause 0x03 and the instruction bits
(R169 step 7, R170, R351). -/
def State.privileged (s : State) (i : Instr) (k : State → Out) : Out :=
  if s.me.level = 7 then k s else .next (s.stop (.trap 0x03 (encode i).addrBits))

/-- No frame at levels 0 to 6 (R345). -/
def Core.noFrame (c : Core) : Bool := (upFrom 0 7).all fun l => !(c.bank (BitVec.ofNat 3 l)).live

/-! ## Traps and returns -/

/-- `trap n`: it retires and enters the supervisor (R348, R351). -/
def execTrap (n : BitVec 9) (s : State) : Out :=
  .next ((s.updMe fun c => if c.level = 7 then c else { c with stalls := c.stalls.set c.lvl.toFin 0 }).takeTrap s.cur 0x0F
    (n.setWidth 64) (s.pc + 4) false)

/-- `tret` (R349). -/
def execTret (s : State) : Out := s.privileged .tret fun s => .next (s.trapReturn s.cur false)
/-- The instance that `tret.end` ends and counts. -/
def Core.endingInst (c : Core) : Option Inst :=
  if causeLevel c.cause = 0xF ∨ causeCode c.cause = 0x08 ∨ causeCode c.cause = 0x0B ∨ !causeEntered c.cause then none
  else (c.bank (bits (causeLevel c.cause) 0 3)).inst

/-- `tret.end` (R349). -/
def execTretEnd (s : State) : Out := s.privileged .tretEnd fun s => finish do
  let s ← s.beforeEnd s.me.endingInst
  .ok (s.trapReturn s.cur true)

/-- `idle`: an arrival-entered frame pops as `done` does; a core left without a frame or a startable arrival stops its
clock (R359). -/
def execIdle (s : State) : Out := s.privileged .idle fun s =>
  let c := s.me
  if causeEntered c.cause then .next (s.nestedTrap s.cur 0x01)
  else
    match c.here.claims with
    | x :: _ => .next (s.stop (.trap 0x05 (claimAddr x.res.toNat 3)))
    | [] =>
      let s := s.endTask s.cur true
      .next (if s.me.level = 0xF ∧ (s.nextFrom s.cur 8).isNone then s.updMe fun c => { c with asleep := true } else s)

/-! ## Supervisor registers (R344 to R346) -/

/-- k.qbind of a queue register (R96). -/
def QueueReg.word (q : QueueReg) : Word :=
  (q.allow ++ 0#2 ++ BitVec.ofNat 4 q.entries.length ++ q.chan ++ q.level ++ q.kind).setWidth 64

/-- The window that k.tw0 to k.tw31 name, if they are usable (R346). k.cause.tlevel may be written to 8 to 0xE, which name no level: its
low three bits are taken, DESIGN CHOICE (log entry 28). -/
def Core.twLevel (c : Core) : Option (BitVec 3) :=
  if c.level = 7 ∧ causeEntered c.cause ∧ causeLevel c.cause ≠ 0xF then some (bits (causeLevel c.cause) 0 3) else none

/-- A supervisor register read, zero-extended (R344). -/
def Core.sysRead (c : Core) (k : BitVec 9) : Word :=
  match k.toNat with
  | 0x000 => c.lid.setWidth 64
  | 0x001 => c.level.setWidth 64
  | 0x002 => c.thresh.setWidth 64
  | 0x003 => c.sp.setWidth 64
  | 0x004 => c.slim.setWidth 64
  | 0x005 => c.vbase.setWidth 64
  | 0x006 => c.ceil.setWidth 64
  | 0x007 => c.cause.setWidth 64
  | 0x008 => c.epc.setWidth 64
  | 0x009 => c.addr
  | 0x00A => c.dom.setWidth 64
  | 0x00B => c.tvec.setWidth 64
  | 0x00C => c.seed
  | 0x00D => c.sctr
  | 0x00E => c.estat
  | 0x00F => c.hprog.setWidth 64
  | 0x010 => c.hpc.setWidth 64
  | 0x011 => c.wdog.setWidth 64
  | 0x012 => if c.mig then 1 else 0
  | 0x013 => c.sscr
  | 0x014 => c.xepc ++ 0#3 ++ c.xcause
  | n =>
    if 0x18 ≤ n ∧ n ≤ 0x1F then (c.rq (BitVec.ofNat 3 n)).word
    else if 0x20 ≤ n ∧ n ≤ 0x3F then
      match c.twLevel with
      | some l => (c.bank l).rs (BitVec.ofNat 5 n)
      | none => 0
    else 0

/-- The RW fields of one engine's status written (R310). -/
def EStat.write (w : Word) (e : Nat) : EStat :=
  { ended := bits w (16 * e) 8, done := w.getLsbD (16 * e + 9), fault := w.getLsbD (16 * e + 10) }

/-- A supervisor register written under its access (R345). For k.vbase the value held against the range is the one that would be stored,
bits [10:0] dropped: R345 does not say which is compared, DESIGN CHOICE (log entry 28). -/
def Core.sysWrite (c : Core) (k : BitVec 9) (x : Word) : Core :=
  match k.toNat with
  | 0x004 => if c.noFrame then { c with slim := bits x 10 6 ++ 0#10 } else c
  | 0x005 =>
    let v : BitVec 16 := bits x 11 5 ++ 0#11
    if c.noFrame ∧ 0x4000 ≤ v.toNat ∧ v.toNat ≤ 0xB000 then { c with vbase := v, sp := v } else c
  | 0x006 => if c.noFrame then { c with ceil := fixCeil (bits x 0 48) } else c
  | 0x007 => { c with cause := bits c.cause 13 1 ++ bits x 12 1 ++ bits x 8 4 ++ 0#3 ++ bits x 0 5 }
  | 0x008 => { c with epc := bits x 0 56 }
  | 0x009 => { c with addr := x }
  | 0x00A => if c.noFrame then { c with dom := bits x 0 16 } else c
  | 0x00B => { c with tvec := bits x 1 55 ++ 0#1 }
  | 0x00C => { c with seed := x }
  | 0x00D => { c with sctr := x }
  | 0x00E => { c with estCopy := EStat.write x 0, estMat := EStat.write x 1, estRem := EStat.write x 2 }
  | 0x00F => { c with hprog := bits x 0 50 }
  | 0x010 => { c with hpc := bits x 0 56 }
  | 0x011 => { c with wdog := bits x 0 40 }
  | 0x012 => { c with mig := x.getLsbD 0 }
  | 0x013 => { c with sscr := x }
  | n =>
    if 0x18 ≤ n ∧ n ≤ 0x1F then c.updQ (BitVec.ofNat 3 n) fun q =>
      { q with kind := bits x 0 2, level := bits x 2 3, chan := bits x 5 5, allow := bits x 16 8 }
    else if 0x20 ≤ n ∧ n ≤ 0x3F then
      match c.twLevel with
      | some l => c.updBank l fun b => b.ws (BitVec.ofNat 5 n) x
      | none => c
    else c

/-- `sget`: at levels 0 to 6 only k.lid (R27, R344). -/
def execSget (d : SReg) (k : BitVec 9) (s : State) : Out :=
  if k = 0 then s.retire d (s.me.sysRead k) 4
  else s.privileged (.sget d k) fun s => s.retire d (s.me.sysRead k) 4

/-- Compact `sget` of k.lid. -/
def execCompactSgetLid (x : SReg) (s : State) : Out := s.retire x (s.me.sysRead 0) 2

/-- `sset` (R345). -/
def execSset (a : SReg) (k : BitVec 9) (s : State) : Out := s.privileged (.sset a k) fun s =>
  .next ((s.updMe fun c => c.sysWrite k (s.rs a)).advance 4)

/-! ## The PLB (R355, R383) -/

/-- The entry that a range word and a rights word write. -/
def plbEntryOf (range rights : Word) : PlbEntry :=
  let base : BitVec 40 := bits range 16 40
  let limit : BitVec 40 := bits rights 16 40
  if bits range 0 16 = 0 ∧ bits range 56 8 = 0 ∧ bits rights 4 12 = 0 ∧ bits rights 56 8 = 0 ∧
      base.toNat ≤ limit.toNat then
    { valid := true, base, limit, r := rights.getLsbD 0, w := rights.getLsbD 1, x := rights.getLsbD 2,
      sonly := rights.getLsbD 3 }
  else PlbEntry.reset

/-- `plbw n`. The stage to which the core is bound is not released before such a write (R367 step 6). -/
def execPlbw (d a : SReg) (n : BitVec 4) (s : State) : Out := s.privileged (.plbw d a n) fun s =>
  .next ((s.updMe fun c => { c with plb := c.plb.set n.toFin (plbEntryOf (s.rs d) (s.rs a))
                                    binding := c.binding.map fun b => { b with plbDone := true } }).advance 4)

/-- `plbi n`. -/
def execPlbi (n : BitVec 4) (s : State) : Out := s.privileged (.plbi n) fun s =>
  .next ((s.updMe fun c => { c with plb := c.plb.set n.toFin PlbEntry.reset }).advance 4)

/-- `plbi.all`. -/
def execPlbiAll (s : State) : Out := s.privileged .plbiAll fun s =>
  .next ((s.updMe fun c => { c with plb := .replicate 16 PlbEntry.reset }).advance 4)

/-! ## The remap table (R356) -/

/-- A present LID other than lid names the physical core n of its die (R356). -/
def State.namedByOther (s : State) (lid n : CoreId) : Bool :=
  let t := (s.die (dieOf n)).remap
  t.any (fun e => e.2.present && e.2.phys == bits n 0 14 && e.1 != (bits lid 0 14).toNat) ||
    ((Cells.find t (bits n 0 14).toNat).isNone && bits n 0 14 != bits lid 0 14 && (s.mapOf n).present)

/-- What core old holds for a LID that moves to core n goes there, marked as moved and in its order: the arrivals of a core that was
loading its context, or that has been reset (R446, R448). The arrivals at an interface follow by MOVED_REDIRECT (R447). -/
def State.moveHeld (s : State) (lid old n : CoreId) : State :=
  let c := s.core old
  if c.loading = some lid ∨ (c.wasReset ∧ c.lid = lid) then
    let s := s.updCore n fun k => (upFrom 0 8).foldl (fun (k : Core) l =>
      let p : BitVec 3 := BitVec.ofNat 3 l
      k.setHeld p (k.held p ++ (c.held p).map Arr.moved)) k
    s.updCore old fun k => { k with inbox := .replicate 8 [], loading := none, wasReset := false }
  else s

/-- A core that holds what arrives for a LID does so no longer once a `remap` has moved the LID to another core n (R447). -/
def State.releaseHolds (s : State) (lid n : CoreId) : State :=
  { s with cores := s.cores.map fun (e : Nat × Core) =>
      if e.1 ≠ n.toNat ∧ e.2.holds ∧ e.2.savedLid = some lid then (e.1, { e.2 with holds := false }) else e }

/-- `remap` (R356): a present LID that moves marks its new core as loading, and its old core no longer (R448). -/
def execRemap (d a : SReg) (s : State) : Out := s.privileged (.remap d a) fun s =>
  let x := s.rs a
  let lid : CoreId := bits x 0 18
  let n : CoreId := dieOf s.cur ++ bits x 18 14
  let present := x.getLsbD 32
  let refused := bits x 33 31 != 0 || dieOf lid != dieOf s.cur ||
    (present && (n == s.serviceCore (sectorOf n) || s.disabled.contains n || s.namedByOther lid n))
  if refused then s.retire d 1 4
  else
    let old := s.physOf lid
    let moved := present && s.present lid && old != n
    let s := s.updDie (dieOf s.cur) fun k =>
      { k with remap := Cells.put k.remap (bits lid 0 14).toNat { phys := bits x 18 14, present } }
    let s := if present then s.releaseHolds lid n else s
    let s := if moved then (s.moveHeld lid old n).updCore n fun c => { c with loading := some lid } else s
    s.retire d 0 4

/-! ## Cancelling sync accesses (R95, R357) -/

/-- The word that `mcancel` names at its owner: none where no owner can be found, for an absent page, an unmapped scratchpad page, an
address beyond the space, or one of the management space, which no walk translates (R432). The instruction then finds no entry and
answers 0: R357 does not say, DESIGN CHOICE (log entry 28). -/
def State.cancelSpot (s : State) (a : Word) (sp : Space) : State × Option Spot :=
  let n := s.cur
  let x := a.toNat / 8 * 8
  let c := s.core n
  let at_ (va : Nat) : State × Option Spot :=
    if va ≥ 2 ^ 56 ∨ isMgmt va then (s, none)
    else
      match s.translate (dieOf n) (BitVec.ofNat 56 va) c.sbuf with
      | (s, .page pa) => (s, some (s.spot c.dom (.mem pa)))
      | (s, .absent _ _) => (s, none)
  match sp with
  | .tcm => (s, if x ≤ 0xBFFF then some (s.spot c.dom (.tcm n x)) else none)
  | .global => at_ x
  | .scratch =>
    let e := c.pageEntry x
    if x ≥ 0x40000 ∨ bits e 0 1 = 0 then (s, none)
    else
      let va := (bits e 12 44).toNat * 4096 + x % 4096
      if (s.frameAt (clusterOf n) c.dom va).isSome then (s, some (s.spot c.dom (.page (clusterOf n) va))) else at_ va

/-- The entry is a sync access: no atomic and no plain access, which wait for a credit alone. -/
def Mooring.isSync (m : Mooring) : Bool := m.amo.isNone && m.plain.isNone

/-- The entry is a sync access that waits for the word. -/
def Mooring.at_ (m : Mooring) (p : Spot) : Bool :=
  m.owner == p.owner && m.word == p.word && m.dom == p.dom && m.isSync

/-- A weir entry that waits for the word; those of a core's TCM are keyed by its LID (R352). -/
def State.moors (s : State) (e : WeirEntry) (p : Spot) : Bool :=
  match e.item with
  | .moor m => e.queue == s.mooringQueue p.owner && m.word == p.word && m.dom == p.dom && m.isSync
  | _ => false

/-- The entries with property p in the lists are cancelled, and then those with property q in the weir: each completes with
status 1 and the word as it was (R95). The number cancelled is answered, too. -/
def State.cancelAll (s : State) (p : Mooring → Bool) (q : WeirEntry → Bool) : State × Nat :=
  let inList := s.moorings.filter p
  let inWeir := s.weir.filter q
  let s := { s with moorings := s.moorings.filter fun (m : Mooring) => !p m
                    weir := s.weir.filter fun (e : WeirEntry) => !q e }
  let s := inList.foldl (fun (s : State) (m : Mooring) => s.syncReply m 0 1) s
  let s := inWeir.foldl (fun (s : State) (e : WeirEntry) =>
    match e.item with
    | .moor m => (s.syncReply m 0 1).weirFell e.region
    | _ => s) s
  (s, inList.length + inWeir.length)

/-- Every entry of a word is cancelled (R95). -/
def State.cancelAt (s : State) (p : Spot) : State × Nat := s.cancelAll (fun m => m.at_ p) (fun e => s.moors e p)

/-- The entry is a sync access of the domain to a word of the 64 KiB frame. -/
def Mooring.ofFrame (m : Mooring) (dom : BitVec 16) (frame : Nat) : Bool :=
  m.owner.isMem && m.adom == dom && m.word / 8192 == frame && m.isSync

/-- A frame is reclaimed from a domain: the domain's entries at its words are cancelled (R95). -/
def State.reclaim (s : State) (dom : BitVec 16) (frame : Nat) : State :=
  (s.cancelAll (fun m => m.ofFrame dom frame) fun e => match e.item with
    | .moor m => m.ofFrame dom frame
    | _ => false).1

/-- `mcancel` (R357). -/
def execMcancel (d a : SReg) (sp : Space) (s : State) : Out := s.privileged (.mcancel d a sp) fun s =>
  match s.cancelSpot (s.rs a) sp with
  | (s, none) => s.retire d 0 4
  | (s, some p) =>
    let r := s.cancelAt p
    r.1.retire d (BitVec.ofNat 64 r.2) 4

/-! ## Invalidations (R358, R359) -/

/-- `pginv`: it retires at once; the dies finish later (R358). -/
def execPginv (d a : SReg) (z : BitVec 2) (s : State) : Out := s.privileged (.pginv d a z) fun s =>
  let x := s.rs a
  let n := 2 ^ (16 + 10 * z.toNat)
  let p : Pginv := { core := s.cur, lid := s.me.lid, page := x.toNat % 2 ^ 56 / n * n, level := z,
                     dom := bits (s.rs d) 0 16, addr := x }
  .next ({ s with pginvs := s.pginvs ++ [p] }.advance 4)

/-- `icinv` (R359). -/
def execIcinv (s : State) : Out := s.privileged .icinv fun s =>
  .next ((s.invalidateCode s.cur).advance 4)

end Sys2Proof.Machine
end

