-- ==== Sys2Proof/Machine/SaveLoad.lean ====
section
/-! DEFINITION. `fsave` and `fload`: saving and restoring a context (R352 to R354, R447, R448). -/

namespace Sys2Proof.Machine

/-! ## The save area (R353) -/

/-- The list with zeros up to n words. -/
def padTo (n : Nat) (l : List Word) : List Word := l.take n ++ List.replicate (n - l.length) 0

/-- The level of the highest frame below level 7; 0xF when there is none. -/
def Core.topFrame (c : Core) : BitVec 4 :=
  match c.liveBelow 7 with
  | some l => l.setWidth 4
  | none => 0xF

/-- The stream that occupies the copy engine. -/
def Core.stream (c : Core) : Option CopyCmd := c.copyQ.find? fun (q : CopyCmd) => q.q.isSome

/-- The waiting entries of a core's TCM, oldest first. -/
def State.tcmMoorings (s : State) (n : CoreId) : List Mooring :=
  s.moorings.filter fun (m : Mooring) => m.owner == .tcm n

/-- Fields of n bits side by side, the first lowest. -/
def packFields (n : Nat) (l : List Nat) : Word := BitVec.ofNat 64 (l.foldr (fun x r => x % 2 ^ n + 2 ^ n * r) 0)

/-- Words 0 to 31 of the area. -/
def Core.saveHeader (c : Core) (moor : Nat) : List Word :=
  let (sq, next, dest, st) : BitVec 4 × Nat × Word × Word := match c.stream with
    | some q => ((q.q.getD 0) ++ 1#1, q.next, putBits q.succ.dest 36 28 0, (q.succ.sprio ++ q.succ.stype).setWidth 64)
    | none => (0, 0, 0, 0)
  let w0 : Word := (sq ++ 0x01#8 ++ 0#2 ++ c.topFrame ++ c.lid).setWidth 64
  let epib : BitVec 2 := BitVec.ofBool c.epi1.isSome ++ BitVec.ofBool c.epi0.isSome
  padTo 32
    [w0, (c.slim ++ c.vbase).setWidth 64, c.ceil.setWidth 64, c.dom.setWidth 64, c.seed, c.sctr, c.estat,
     c.hprog.setWidth 64, c.hpc.setWidth 64, c.wdog.setWidth 64, BitVec.ofNat 64 next, dest, st,
     packFields 4 (c.q.toList.map fun (q : QueueReg) => q.resv),
     packFields 5 ((c.inbox.toList.take 7).map fun (l : List Arr) => l.length),
     (epib ++ BitVec.ofNat 7 moor).setWidth 64]

/-- The words of a held arrival. -/
def Arr.words (a : Arr) : List Word := padTo 4 (a.msg.hdr :: a.msg.payload)

/-- The words of a waiting entry: its reply route is not stated, and nothing reads it. -/
def State.mooringWords (s : State) (i : Nat) (m : Mooring) : List Word :=
  [(m.mode.code ++ BitVec.ofNat 16 (8 * m.word)).setWidth 64, m.data, Config.freeWord s.free (2 * i),
   Config.freeWord s.free (2 * i + 1)]

/-- The words of an epilogue buffer. -/
def epiWords : Option EpiBuf → List Word
  | none => List.replicate 64 0
  | some b =>
    padTo 32 ((upFrom 0 32).map fun i => BitVec.ofNat 64 (joinBytes ((b.bytes.drop (8 * i)).take 8))) ++
      padTo 32 [b.addr, b.epi, BitVec.ofNat 64 b.next]

/-- The words of level block l. -/
def Core.levelBlock (c : Core) (l : BitVec 3) : List Word :=
  let b := c.bank l
  if !b.live then List.replicate 192 0
  else
    let trapped := causeEntered c.cause && causeLevel c.cause == l.setWidth 4
    let at_ := if trapped then c.epc else b.rpc
    padTo 192 (padTo 8 [at_.setWidth 64, (BitVec.ofBool trapped ++ b.mtype ++ b.fclass ++ 1#1).setWidth 64, shapeWord b.inst] ++
      b.image)

/-- The whole area, word by word. -/
def State.saveArea (s : State) (n : CoreId) : List Word :=
  let c := s.core n
  let moor := s.tcmMoorings n
  c.saveHeader moor.length ++ c.q.toList.map QueueReg.word ++ padTo 24 c.d.toList ++
    c.q.toList.flatMap (fun (q : QueueReg) => padTo 16 (vecWords (q.entries.map fun (e : QEnt) => e.data))) ++
    padTo 512 ((c.inbox.toList.take 7).flatMap fun (l : List Arr) => padTo 64 (l.flatMap Arr.words)) ++
    padTo 256 (((upFrom 0 moor.length).zip moor).flatMap fun p => s.mooringWords p.1 p.2) ++
    padTo 192 (epiWords c.epi0 ++ epiWords c.epi1) ++
    padTo 1408 ((upFrom 0 7).flatMap fun l => c.levelBlock (BitVec.ofNat 3 l)) ++
    padTo 512 (hvWords c.h c.ht) ++ padTo 1024 ((upFrom 0 512).map fun i => c.kcnt.extractLsb' (64 * i) 64) ++
    (upFrom 0 6144).map fun i => if 8 * i < c.vbase.toNat + 0xA00 then c.tcmWord (8 * i) else 0

/-- The words stored in domain 0 with the rights of the core in turn: on a failure, its address. -/
def State.storeArea (s : State) : Nat → List Word → State × Option Nat
  | _, [] => (s, none)
  | ea, w :: r =>
    match s.checkGlobal s.cur 0 true s.me.region ea false true false with
    | .ok (s, a) => State.storeArea (s.dieWrite (dieOf s.cur) 0 ea a.pa (splitBytes 8 w.toNat)) (ea + 8) r
    | .error (s, _) => (s, some ea)

/-- n words read in domain 0 with the rights of the core in turn: on a failure, its address. -/
def State.loadArea (s : State) : Nat → Nat → State × Except Nat (List Word)
  | _, 0 => (s, .ok [])
  | ea, n + 1 =>
    match s.checkGlobal s.cur 0 true s.me.region ea true false false with
    | .error (s, _) => (s, .error ea)
    | .ok (s, a) =>
      if s.poisoned (dieOf s.cur) a.pa then (s, .error ea)
      else
        let (s, bs) := s.dieRead (dieOf s.cur) 0 ea a.pa 8
        match State.loadArea s (ea + 8) n with
        | (s, .ok r) => (s, .ok (BitVec.ofNat 64 (joinBytes bs) :: r))
        | (s, .error e) => (s, .error e)

/-! ## `fsave` (R352) -/

/-- The conditions of status 1. -/
def State.saveRefused (s : State) (n : CoreId) : Bool :=
  let c := s.core n
  c.latchL.isSome || c.latchI.isSome || c.copyQ.any (fun (q : CopyCmd) => q.q.isNone) || !c.matQ.isEmpty ||
    c.remQ.any (fun (r : RemCmd) => match r.op with | .rreq _ => !r.passed | _ => false) || c.closing.any (fun x => x.2 != 1) ||
    (s.outbound n).any fun (t : Transit) => t.held

/-- The conditions of status 2. -/
def areaBad (a : Word) : Bool := bits a 0 16 != 0 || decide (a.toNat ≥ 2 ^ 56)

/-- What the part keeps of the context beside its area. -/
def State.savedOf (s : State) (n : CoreId) (area : Nat) : Saved :=
  let c := s.core n
  { lid := c.lid, area, current := true, core := n, banks := c.banks, inbox := c.inbox,
    heldTraps := c.heldTraps.filter fun (t : HeldTrap) => decide (t.level.toNat < 7), q := c.q, tcmFe := c.tcmFe,
    tcmPoison := c.tcmPoison, moorings := s.tcmMoorings n, epi0 := c.epi0, epi1 := c.epi1, estat := c.estat, streams := c.copyQ,
    binding := c.binding, budgets := c.budgets }

/-- The core as a save leaves it (R352, R447). -/
def State.leaveSaved (s : State) (n : CoreId) (area : Nat) : State :=
  let keep := s.savedOf n area
  let older := (s.saved.filter fun (x : Saved) => x.area != area).map fun (x : Saved) =>
    if x.lid = keep.lid then { x with current := false } else x
  let s := { s with saved := older ++ [keep] }
  let s := ((s.detachFollowers n).unpin n).dropTcmMoorings n
  s.updCore n fun c =>
    let c := c.cleared
    let c := (upFrom 0 7).foldl (fun (c : Core) l => (c.setHeld (BitVec.ofNat 3 l) []).updBank (BitVec.ofNat 3 l) fun b =>
      { b with live := false, claims := [], inst := none, contract := none, squash := false, parkDue := false,
               vpend := 0, queueOp := none, fencing := false }) c
    { c with copyQ := [], binding := none, budgets := [], savedLid := some c.lid, holds := true,
             remQ := c.remQ.map fun (q : RemCmd) => { q with passed := true }
             heldTraps := c.heldTraps.filter fun (t : HeldTrap) => !decide (t.level.toNat < 7)
             cause := putBits c.cause 8 4 0xF, stalls := .replicate 8 0 }

/-- The `fence` of a frame below level 7 waits for acknowledgements (R132). -/
def Core.fencedBelow (c : Core) : Bool :=
  (upFrom 0 7).any fun l => (c.bank (BitVec.ofNat 3 l)).live && (c.bank (BitVec.ofNat 3 l)).fencing

/-- `fsave`. -/
def execFsave (d a : SReg) (s : State) : Out := s.privileged (.fsave d a) fun s => finish do
  let x := s.rs a
  if areaBad x then .ok ((s.ws d 2).advance 4)
  else if s.saveRefused s.cur then .ok ((s.ws d 1).advance 4)
  else
    let s ← s.drain s.cur
    let s := s.flightsFrom s.cur s.me.flight.length
    let c := s.me
    demand (c.flight.isEmpty && c.replies.isEmpty && (c.sfu.all fun (r : SfuReq) => r.voided) && c.closing.isEmpty &&
      (s.outbound s.cur).isEmpty && (c.unacked.isEmpty || !c.fencedBelow)) s .hold
    match s.storeArea x.toNat (s.saveArea s.cur) with
    | (t, some ea) => .ok (((t.updMe fun c => { c with addr := BitVec.ofNat 64 ea }).ws d 3).advance 4)
    | (t, none) => .ok (((t.leaveSaved t.cur x.toNat).ws d 0).advance 4)

/-! ## `fload` (R354) -/

/-- The n words from word i of an area. -/
def areaWords (w : Array Word) (i n : Nat) : List Word := (upFrom i n).map fun j => (w[j]?).getD 0

/-- The arrival whose words an area holds, with what the part has kept of it. -/
def arrivalOf (w : List Word) (kept : Option Arr) : Arr :=
  let hdr := w.headD 0
  let m : Msg := { hdr, payload := w.tail.take (hdrPlen hdr).toNat }
  match kept with
  | some a => { a with msg := m }
  | none => { msg := m, inst := none, contract := none, srcMod := 0, resume := none, far := false }

/-- The epilogue buffer whose words an area holds, with what the part has kept of it. -/
def epiOf (w : List Word) (kept : Option EpiBuf) : Option EpiBuf :=
  kept.map fun b =>
    { b with bytes := ((w.take 32).flatMap fun x => splitBytes 8 x.toNat).take b.bytes.length, addr := (w[32]?).getD 0,
             epi := (w[33]?).getD 0, next := ((w[34]?).getD 0).toNat }

/-- The frame of level l from its block, its base sp down from there; the base of the next frame above is answered. -/
def Core.loadFrame (c : Core) (w : Array Word) (kept : Option Saved) (l : BitVec 3) : Core :=
  let at_ := 1152 + 192 * l.toNat
  let blk := areaWords w at_ 192
  let w1 := (blk[1]?).getD 0
  if !w1.getLsbD 0 then c
  else
    let fc : BitVec 3 := bits w1 1 3
    let sp := c.sp - BitVec.ofNat 16 (frameSize fc l)
    let old : Option Bank := kept.map fun k => k.banks.get l.toFin
    let hv : Bool := match old with
      | some k => k.claims.any fun x => x.res == 0
      | none => false
    { c.updBank l fun b =>
        { b.ofImage (blk.drop 8) hv with
            live := true, fclass := fc, mtype := bits w1 4 8, fbase := sp, rpc := bits (blk.headD 0) 0 56,
            inst := old.bind (·.inst), contract := old.bind (·.contract), squash := (old.map (·.squash)).getD false,
            parkDue := (old.map (·.parkDue)).getD false, queueOp := old.bind (·.queueOp), fencing := false, vpend := 0,
            spend := 0 } with sp }

/-- The registers, frames and queues of the saved context over those of the core (R354). -/
def Core.loadContext (c : Core) (w : Array Word) (kept : Option Saved) : Core :=
  let at_ (i : Nat) : Word := (w[i]?).getD 0
  let vbase : BitVec 16 := bits (at_ 1) 0 16
  let top := (vbase.toNat + 0xA00) / 8
  let c := { c with lid := bits (at_ 0) 0 18, vbase, slim := bits (at_ 1) 16 16, sp := vbase, ceil := fixCeil (bits (at_ 2) 0 48),
                    dom := bits (at_ 3) 0 16, seed := at_ 4, sctr := at_ 5, hprog := bits (at_ 7) 0 50,
                    hpc := bits (at_ 8) 0 56, wdog := bits (at_ 9) 0 40
                    d := (upFrom 0 8).foldl (fun v i => v.setIfInBounds i (at_ (40 + i))) c.d
                    h := (upFrom 0 4).foldl (fun v i => v.setIfInBounds i (hvOf (areaWords w (2560 + 64 * i) 64) 0)) c.h
                    ht := hvOf (areaWords w 2816 64) 0, kcnt := kcntOf (areaWords w 3072 512) 0
                    tcm := c.tcm.write 0 ((areaWords w 4096 top).flatMap fun x => splitBytes 8 x.toNat)
                    tcmFe := (match kept with
                      | some k => k.tcmFe.filter fun e => decide (e.1 < top)
                      | none => []) ++ c.tcmFe.filter fun e => decide (top ≤ e.1)
                    tcmPoison := (match kept with
                      | some k => k.tcmPoison.filter fun e => decide (e.1 < top)
                      | none => []) ++ c.tcmPoison.filter fun e => decide (top ≤ e.1)
                    epi0 := if (at_ 15).getLsbD 7 then epiOf (areaWords w 960 64) (kept.bind (·.epi0)) else none
                    epi1 := if (at_ 15).getLsbD 8 then epiOf (areaWords w 1024 64) (kept.bind (·.epi1)) else none
                    copyQ := (if (at_ 0).getLsbD 32 then
                        updAt (fun (q : CopyCmd) => { q with next := (bits (at_ 10) 0 28).toNat })
                          ((kept.map (·.streams)).getD []) 0
                      else []) ++ c.copyQ
                    heldTraps := c.heldTraps ++ (kept.map (·.heldTraps)).getD []
                    binding := kept.bind (·.binding), budgets := (kept.map (·.budgets)).getD [], stalls := .replicate 8 0, loading := none,
                    savedLid := none, holds := false, wasReset := false }
  let c := (upFrom 0 7).foldl (fun (c : Core) l => c.loadFrame w kept (BitVec.ofNat 3 l)) c
  let c := (upFrom 0 8).foldl (fun (c : Core) i =>
    let b := at_ (32 + i)
    let old : Option QueueReg := kept.map fun k => k.q.get (BitVec.ofNat 3 i).toFin
    c.updQ (BitVec.ofNat 3 i) fun _ =>
      { kind := bits b 0 2, level := bits b 2 3, chan := bits b 5 5, allow := bits b 16 8,
        entries := (upFrom 0 (bits b 10 4).toNat).map fun j =>
          { data := at_ (64 + 16 * i + 2 * j + 1) ++ at_ (64 + 16 * i + 2 * j),
            src := old.bind fun q => (q.entries[j]?).bind (·.src)
            scope := old.bind fun q => (q.entries[j]?).bind (·.scope) },
        resv := (bits (at_ 13) (4 * i) 4).toNat, peer := (old.map (·.peer)).getD 0, peerQ := (old.map (·.peerQ)).getD 0 }) c
  (upFrom 0 7).foldl (fun (c : Core) l =>
    let p : BitVec 3 := BitVec.ofNat 3 l
    let old : List Arr := (kept.map fun k => k.inbox.get p.toFin).getD []
    let saved := (upFrom 0 (bits (at_ 14) (5 * l) 5).toNat).map fun j =>
      arrivalOf (areaWords w (192 + 64 * l + 4 * j) 4) (old[j]?)
    c.setHeld p (saved ++ c.held p)) c

/-- The waiting entries of the saved TCM again, in their order, at core n: offset, mode and data as the area holds them. -/
def restoredMoorings (w : Array Word) (kept : Option Saved) (n : CoreId) : List Mooring :=
  let at_ (i : Nat) : Word := (w[i]?).getD 0
  match kept with
  | none => []
  | some k => ((upFrom 0 (bits (at_ 15) 0 7).toNat).zip k.moorings).map fun p =>
    { p.2 with owner := .tcm n, word := (bits (at_ (704 + 4 * p.1)) 0 16).toNat / 8,
               mode := (SyncMode.ofCode (bits (at_ (704 + 4 * p.1)) 16 3)).getD p.2.mode, data := at_ (705 + 4 * p.1) }

/-- k.estat after a load (R354): the saved fields, then the status steps that the passed commands made meanwhile; one whose successor
was dropped is a step of a handback (R21). -/
def State.loadStatus (s : State) (n lid : CoreId) (estat : Word) : State :=
  let mine (r : RemCmd) : Bool := r.passed && r.by_.lid == lid
  let moved := (s.cores.flatMap fun (e : Nat × Core) => e.2.remQ.filter mine).map fun (r : RemCmd) => { r with passed := false }
  let without (c : Core) : Core := { c with remQ := c.remQ.filter fun (r : RemCmd) => !mine r }
  let s : State := { s with cores := s.cores.map fun (e : Nat × Core) => if e.2.remQ.any mine then (e.1, without e.2) else e }
  let owed := s.owed.filter fun (o : CoreId × BitVec 4 × Bool) => o.1 == lid
  let dropped := s.amends.filter fun (o : CoreId × BitVec 4 × Byte) => o.1 == lid
  let s : State := { s with owed := s.owed.filter fun (o : CoreId × BitVec 4 × Bool) => o.1 != lid
                            amends := s.amends.filter fun (o : CoreId × BitVec 4 × Byte) => o.1 != lid }
  s.updCore n fun c =>
    let amend (e : BitVec 4) (x : EStat) : EStat :=
      if dropped.any fun o => o.2.1 == e && o.2.2 == x.ended then { x with fault := true, done := false } else x
    let c := { c with remQ := c.remQ ++ moved, estCopy := amend 0 (EStat.write estat 0), estMat := amend 1 (EStat.write estat 1),
                      estRem := amend 2 (EStat.write estat 2) }
    ((upFrom 0 owed.length).zip owed).foldl (fun (c : Core) (p : Nat × CoreId × BitVec 4 × Bool) =>
      c.updEst p.2.2.1 fun x => amend p.2.2.1 (x.ending p.2.2.2 (c.heldCmds p.2.2.1 + (owed.length - 1 - p.1)))) c

/-- The units of allowance that came back to a saved context's registers reach them (R97, R354). -/
def State.payAllowance (s : State) (n lid : CoreId) : State :=
  let mine := s.allowOwed.filter fun (x : CoreId × QReg) => x.1 == lid
  let s : State := { s with allowOwed := s.allowOwed.filter fun (x : CoreId × QReg) => x.1 != lid }
  s.updCore n fun c => mine.foldl (fun (c : Core) x => c.gainAllowance x.2) c

/-- What the part keeps beside an area for a LID: of that area, else of the LID's last one. -/
def State.keptOf (s : State) (lid : CoreId) (area : Nat) : Option Saved :=
  let mine := s.saved.filter fun (x : Saved) => x.lid == lid
  (mine.find? fun (x : Saved) => x.area == area).orElse fun _ =>
    (mine.find? fun (x : Saved) => x.current).orElse fun _ => mine.getLast?

/-- The context of an area is loaded on the core in turn: its queues change hands, so the core's pages are unpinned (R77), and its
instruction cache is invalidated (R172). What the part keeps beside the area stays for a further load of it. -/
def State.loadFrom (s : State) (area : Nat) (w : Array Word) : State :=
  let at_ (i : Nat) : Word := (w[i]?).getD 0
  let n := s.cur
  let lid : CoreId := bits (at_ 0) 0 18
  let kept := s.keptOf lid area
  let s := (s.unpin n).updCore n fun c => c.loadContext w kept
  let s := { s with moorings := s.moorings ++ restoredMoorings w kept n
                    saved := s.saved.map fun (x : Saved) => if x.lid = lid then { x with current := false, core := n } else x
                    launches := match kept with
                      | some k => s.launches.map fun (l : Launch) =>
                        { l with stages := l.stages.map fun (g : Stage) =>
                            { g with cores := g.cores.map fun (m : CoreId) => if m = k.core then n else m } }
                      | none => s.launches }
  let s := ((s.loadStatus n lid (at_ 6)).payAllowance n lid).invalidateCode n
  s.updCore n fun c =>
    if causeEntered c.cause then
      let top := c.topFrame
      { c with cause := putBits (putBits c.cause 0 5 0x0E) 8 4 top.toNat
               epc := if top = 0xF then 0 else (c.bank (bits top 0 3)).rpc }
    else c

/-- `fload` past its first checks, once the core's store buffer has drained: what is stored there is older than what it writes. -/
def State.loadSaved (s : State) (d : SReg) (x : Word) : Out :=
  let fail (s : State) (ea : Nat) : Out := (s.updMe fun c => { c with addr := BitVec.ofNat 64 ea }).retire d 3 4
  match s.loadArea x.toNat 1 with
  | (s, .error ea) => fail s ea
  | (s, .ok h) =>
    let w0 := h.headD 0
    let lid : CoreId := bits w0 0 18
    if bits w0 24 8 ≠ 0x01 ∨ dieOf lid ≠ dieOf s.cur ∨ !s.present lid ∨ s.physOf lid ≠ s.cur then s.retire d 1 4
    else
      match s.loadArea x.toNat 10240 with
      | (s, .error ea) => fail s ea
      | (s, .ok w) => (s.loadFrom x.toNat w.toArray).retire d 0 4

/-- `fload`. -/
def execFload (d a : SReg) (s : State) : Out := s.privileged (.fload d a) fun s =>
  let x := s.rs a
  if areaBad x then s.retire d 2 4
  else if !s.me.noFrame ∨ s.me.hprog.getLsbD 0 then s.retire d 1 4
  else
    match s.drain s.cur with
    | .ok s => s.loadSaved d x
    | .error (s, e) => .next (s.stop e)

end Sys2Proof.Machine
end

