-- ==== Sys2Proof/Machine/Scalar.lean ====
section
/-! DEFINITION. Scalar instructions of majors 0x00 to 0x13 and their compact forms (R184 to R201). -/

namespace Sys2Proof.Machine

/-! ## Register forms -/

/-- `add` (R186). -/
def execAdd (d a b : SReg) (s : State) : Out := s.retire d (s.rs a + s.rs b) 4

/-- `sub` (R186). -/
def execSub (d a b : SReg) (s : State) : Out := s.retire d (s.rs a - s.rs b) 4

/-- `mul` (R186). -/
def execMul (d a b : SReg) (s : State) : Out := s.retire d (s.rs a * s.rs b) 4

/-- `mulh` (R186). -/
def execMulh (d a b : SReg) (s : State) : Out := s.retire d (mulHigh (s.rs a) (s.rs b)) 4

/-- `mulhu` (R186). -/
def execMulhu (d a b : SReg) (s : State) : Out := s.retire d (mulHighU (s.rs a) (s.rs b)) 4

/-- `min` (R186). -/
def execMin (d a b : SReg) (s : State) : Out := s.retire d (if (s.rs b).slt (s.rs a) then s.rs b else s.rs a) 4

/-- `max` (R186). -/
def execMax (d a b : SReg) (s : State) : Out := s.retire d (if (s.rs a).slt (s.rs b) then s.rs b else s.rs a) 4

/-- `minu` (R186). -/
def execMinu (d a b : SReg) (s : State) : Out := s.retire d (if (s.rs b).ult (s.rs a) then s.rs b else s.rs a) 4

/-- `maxu` (R186). -/
def execMaxu (d a b : SReg) (s : State) : Out := s.retire d (if (s.rs a).ult (s.rs b) then s.rs b else s.rs a) 4

/-- `div` (R187). -/
def execDiv (d a b : SReg) (s : State) : Out := s.retire d (divS (s.rs a) (s.rs b)) 4

/-- `divu` (R187). -/
def execDivu (d a b : SReg) (s : State) : Out := s.retire d (divU (s.rs a) (s.rs b)) 4

/-- `rem` (R187). -/
def execRem (d a b : SReg) (s : State) : Out := s.retire d (remS (s.rs a) (s.rs b)) 4

/-- `remu` (R187). -/
def execRemu (d a b : SReg) (s : State) : Out := s.retire d (remU (s.rs a) (s.rs b)) 4

/-- `and` (R189). -/
def execAnd (d a b : SReg) (s : State) : Out := s.retire d (s.rs a &&& s.rs b) 4

/-- `or` (R189). -/
def execOr (d a b : SReg) (s : State) : Out := s.retire d (s.rs a ||| s.rs b) 4

/-- `xor` (R189). -/
def execXor (d a b : SReg) (s : State) : Out := s.retire d (s.rs a ^^^ s.rs b) 4

/-- `andn` (R189). -/
def execAndn (d a b : SReg) (s : State) : Out := s.retire d (s.rs a &&& ~~~s.rs b) 4

/-- `shl` (R190). -/
def execShl (d a b : SReg) (s : State) : Out := s.retire d (s.rs a <<< amount (s.rs b)) 4

/-- `shr` (R190). -/
def execShr (d a b : SReg) (s : State) : Out := s.retire d (s.rs a >>> amount (s.rs b)) 4

/-- `sar` (R190). -/
def execSar (d a b : SReg) (s : State) : Out := s.retire d ((s.rs a).sshiftRight (amount (s.rs b))) 4

/-- `rot` (R190). -/
def execRot (d a b : SReg) (s : State) : Out := s.retire d ((s.rs a).rotateLeft (amount (s.rs b))) 4

/-- `clz` (R191). -/
def execClz (d a : SReg) (s : State) : Out := s.retire d (clzW (s.rs a)) 4

/-- `ctz` (R191). -/
def execCtz (d a : SReg) (s : State) : Out := s.retire d (BitVec.ofNat 64 (ctzFrom (s.rs a) 64 0)) 4

/-- `pop` (R191). -/
def execPop (d a : SReg) (s : State) : Out := s.retire d (BitVec.ofNat 64 (popBelow (s.rs a) 64)) 4

/-- `cmp` (R192). -/
def execCmp (d a b : SReg) (c : Cond) (s : State) : Out := s.retire d (if c.holds (s.rs a) (s.rs b) then 1 else 0) 4

/-- `sel` (R193). -/
def execSel (d a b c : SReg) (s : State) : Out := s.retire d (if s.rs c ≠ 0 then s.rs a else s.rs b) 4

/-- `bext` (R194). -/
def execBext (d a : SReg) (pos lenm1 : BitVec 6) (s : State) : Out := s.retire d (fieldZ (s.rs a) pos lenm1) 4

/-- `bexts` (R194). -/
def execBexts (d a : SReg) (pos lenm1 : BitVec 6) (s : State) : Out := s.retire d (fieldS (s.rs a) pos lenm1) 4

/-- `bins` (R194). -/
def execBins (d a : SReg) (pos lenm1 : BitVec 6) (s : State) : Out := 
  s.retire d (putBits (s.rs d) pos.toNat (lenm1.toNat + 1) (s.rs a).toNat) 4

/-! ## The distribution table (R105, R106, R195) -/

/-- The mapping of coordinates x through the words of a table at offset t, from dimension i on, n dimensions to go:
the LID and the local offset, or the trap. -/
def gaddrFrom (tab : List Word) (t : Word) (x : Word) : Nat → Nat → CoreId → Nat → Except Stop (CoreId × Nat)
  | 0, _, lid, off => .ok (lid, off)
  | n + 1, i, lid, off =>
    let w := (tab[i + 1]?).getD 0
    let bsize := (bits w 0 16).toNat
    let grid := (bits w 16 16).toNat
    if bsize = 0 ∨ grid = 0 then
      .error (.trap 0x01 (BitVec.ofNat 64 (t.toNat % 65536 + 65536 * i)))
    else
      let xi := x.toNat / 2 ^ (16 * i) % 65536
      let j := xi / bsize
      let g := j % grid
      let loc := j / grid * bsize + xi % bsize
      gaddrFrom tab t x n (i + 1) (lid + BitVec.ofNat 18 (g * (bits w 48 16).toNat))
        (off + loc * (bits w 32 16).toNat)

/-- GAddrMap (R106). -/
def gaddrMap (tab : List Word) (t x : Word) : Except Stop (CoreId × Nat) :=
  let w := (tab[0]?).getD 0
  match gaddrFrom tab t x ((bits w 18 2).toNat + 1) 0 (bits w 0 18) (bits w 20 16).toNat with
  | .ok (lid, off) => if off > 0xBFFF then .error (.trap 0x03 (BitVec.ofNat 64 off)) else .ok (lid, off)
  | .error e => .error e

/-- n words of the core's TCM from off with no sync read under way, its own buffered stores included (R113): a poisoned word traps
(R216). -/
def State.ownWords (s : State) : Nat → Nat → Res (List Word)
  | _, 0 => .ok []
  | off, n + 1 => do
    let (_, bs) ← s.loadWord .tcm { loc := .tcm s.cur off, va := off, pa := 0 } 8
    let r ← State.ownWords s (off + 8) n
    .ok (BitVec.ofNat 64 (joinBytes bs) :: r)

/-- `gaddr` (R195). -/
def execGaddr (d a b : SReg) (s : State) : Out :=
  let t := s.rs b
  finish do
    demand (decide (t.toNat % 64 = 0)) s (.trap 0x02 t)
    demand (decide (t.toNat + 64 ≤ 0xC000) && (s.me.level == 7 || decide (t.toNat + 64 ≤ s.me.slim.toNat))) s
      (.trap 0x03 t)
    let s ← s.settleFlights s.cur
    let tab ← s.ownWords t.toNat 8
    match gaddrMap tab t (s.rs a) with
    | .ok (lid, off) => .ok ((s.ws d (BitVec.ofNat 64 (off % 65536 + 65536 * lid.toNat))).advance 4)
    | .error e => .error (s, e)

/-! ## Immediate forms -/

/-- `add` with an immediate (R197). -/
def execAddImmediate (d a : SReg) (imm : BitVec 14) (s : State) : Out := s.retire d (s.rs a + sext imm) 4

/-- `and` with an immediate (R197). -/
def execAndImmediate (d a : SReg) (imm : BitVec 14) (s : State) : Out := s.retire d (s.rs a &&& sext imm) 4

/-- `or` with an immediate (R197). -/
def execOrImmediate (d a : SReg) (imm : BitVec 14) (s : State) : Out := s.retire d (s.rs a ||| sext imm) 4

/-- `xor` with an immediate (R197). -/
def execXorImmediate (d a : SReg) (imm : BitVec 14) (s : State) : Out := s.retire d (s.rs a ^^^ sext imm) 4

/-- `shl` by an immediate (R198). -/
def execShlImmediate (d a : SReg) (u : BitVec 6) (s : State) : Out := s.retire d (s.rs a <<< u.toNat) 4

/-- `shr` by an immediate (R198). -/
def execShrImmediate (d a : SReg) (u : BitVec 6) (s : State) : Out := s.retire d (s.rs a >>> u.toNat) 4

/-- `sar` by an immediate (R198). -/
def execSarImmediate (d a : SReg) (u : BitVec 6) (s : State) : Out := s.retire d ((s.rs a).sshiftRight u.toNat) 4

/-- `rot` by an immediate (R198). -/
def execRotImmediate (d a : SReg) (u : BitVec 6) (s : State) : Out := s.retire d ((s.rs a).rotateLeft u.toNat) 4

/-- `li` (R199). -/
def execLi (d : SReg) (imm : BitVec 19) (s : State) : Out := s.retire d (sext imm) 4

/-- `movh` (R200). -/
def execMovh (d : SReg) (h : BitVec 2) (imm : BitVec 16) (s : State) : Out := 
  s.retire d (putBits (s.rs d) (16 * h.toNat) 16 imm.toNat) 4

/-- `cmp` with an immediate (R201). -/
def execCmpImmediate (d a : SReg) (c : Cond) (imm : BitVec 11) (s : State) : Out := 
  s.retire d (if c.holds (s.rs a) (sext imm) then 1 else 0) 4

/-! ## Compact forms (R166, R167): the operation of the 32-bit form, with a step of 2 -/

/-- Compact `mov`. -/
def execCompactMov (x y : SReg) (s : State) : Out := s.retire x (s.rs y) 2

/-- Compact `add`. -/
def execCompactAdd (x y : SReg) (s : State) : Out := s.retire x (s.rs x + s.rs y) 2

/-- Compact `sub`. -/
def execCompactSub (x y : SReg) (s : State) : Out := s.retire x (s.rs x - s.rs y) 2

/-- Compact `and`. -/
def execCompactAnd (x y : SReg) (s : State) : Out := s.retire x (s.rs x &&& s.rs y) 2

/-- Compact `or`. -/
def execCompactOr (x y : SReg) (s : State) : Out := s.retire x (s.rs x ||| s.rs y) 2

/-- Compact `xor`. -/
def execCompactXor (x y : SReg) (s : State) : Out := s.retire x (s.rs x ^^^ s.rs y) 2

/-- Compact `shl`. -/
def execCompactShl (x y : SReg) (s : State) : Out := s.retire x (s.rs x <<< amount (s.rs y)) 2

/-- Compact `shr`. -/
def execCompactShr (x y : SReg) (s : State) : Out := s.retire x (s.rs x >>> amount (s.rs y)) 2

/-- Compact `sar`. -/
def execCompactSar (x y : SReg) (s : State) : Out := s.retire x ((s.rs x).sshiftRight (amount (s.rs y))) 2

/-- Compact `mul`. -/
def execCompactMul (x y : SReg) (s : State) : Out := s.retire x (s.rs x * s.rs y) 2

/-- Compact `min`. -/
def execCompactMin (x y : SReg) (s : State) : Out := s.retire x (if (s.rs y).slt (s.rs x) then s.rs y else s.rs x) 2

/-- Compact `max`. -/
def execCompactMax (x y : SReg) (s : State) : Out := s.retire x (if (s.rs x).slt (s.rs y) then s.rs y else s.rs x) 2

/-- Compact `andn`. -/
def execCompactAndn (x y : SReg) (s : State) : Out := s.retire x (s.rs x &&& ~~~s.rs y) 2

/-- Compact `neg`. -/
def execCompactNeg (x y : SReg) (s : State) : Out := s.retire x (0 - s.rs y) 2

/-- Compact `pop`. -/
def execCompactPop (x y : SReg) (s : State) : Out := s.retire x (BitVec.ofNat 64 (popBelow (s.rs y) 64)) 2

/-- Compact `clz`. -/
def execCompactClz (x y : SReg) (s : State) : Out := s.retire x (clzW (s.rs y)) 2

/-- Compact `ctz`. -/
def execCompactCtz (x y : SReg) (s : State) : Out := s.retire x (BitVec.ofNat 64 (ctzFrom (s.rs y) 64 0)) 2

/-- Compact `li`. -/
def execCompactLi (x : SReg) (i : BitVec 5) (s : State) : Out := s.retire x (sext i) 2

/-- Compact `add` with an immediate. -/
def execCompactAddImmediate (x : SReg) (i : BitVec 5) (s : State) : Out := s.retire x (s.rs x + sext i) 2

/-- Compact `and` with an immediate. -/
def execCompactAndImmediate (x : SReg) (i : BitVec 5) (s : State) : Out := s.retire x (s.rs x &&& sext i) 2

/-- Compact `xor` with an immediate. -/
def execCompactXorImmediate (x : SReg) (i : BitVec 5) (s : State) : Out := s.retire x (s.rs x ^^^ sext i) 2

/-- Compact `shl` with an immediate. -/
def execCompactShlImmediate (x : SReg) (u : BitVec 5) (s : State) : Out := s.retire x (s.rs x <<< u.toNat) 2

/-- Compact `shr` with an immediate. -/
def execCompactShrImmediate (x : SReg) (u : BitVec 5) (s : State) : Out := s.retire x (s.rs x >>> u.toNat) 2

/-- Compact `sar` with an immediate. -/
def execCompactSarImmediate (x : SReg) (u : BitVec 5) (s : State) : Out := s.retire x ((s.rs x).sshiftRight u.toNat) 2

/-- Compact `rot` with an immediate. -/
def execCompactRotImmediate (x : SReg) (u : BitVec 5) (s : State) : Out := s.retire x ((s.rs x).rotateLeft u.toNat) 2

end Sys2Proof.Machine
end

