-- ==== Sys2Proof/Machine/Shape.lean ====
section
/-! DEFINITION. Shape resolution (R328 to R330): squashes, commits, trims, resumptions and the tail launch. -/

namespace Sys2Proof.Machine

/-- The instance is a tentative one of a launch. -/
def Inst.ofLaunch (i : Inst) (id : Nat) : Bool := !i.walk && i.id == id && i.tentative

/-- A tentative instance of the launch at n or above: it is squashed or dropped (R328). -/
def lostInst (id n : Nat) (i : Option Inst) : Bool :=
  match i with
  | some i => i.ofLaunch id && decide (n ≤ i.index.toNat)
  | none => false

/-- A tentative instance of the launch below n: it becomes firm (R328). -/
def firmInst (id n : Nat) (i : Option Inst) : Option Inst :=
  i.map fun i => if i.ofLaunch id ∧ i.index.toNat < n then { i with tentative := false } else i

/-- An arrival of an instance that becomes firm. -/
def Arr.firm (a : Arr) (id n : Nat) : Arr := { a with inst := firmInst id n a.inst }

/-- Held arrivals after resolution: those at n or above are dropped. -/
def resolveHeld (id n : Nat) (l : List Arr) : List Arr :=
  (l.filter fun (a : Arr) => !lostInst id n a.inst).map fun (a : Arr) => a.firm id n

/-- A message under way after resolution: none when its instance is dropped. -/
def Transit.resolve (t : Transit) (id n : Nat) : Option Transit :=
  match t.cargo with
  | .message a => if lostInst id n a.inst then none else some { t with cargo := .message (a.firm id n) }
  | .channel _ _ _ => some t

/-- A frame after resolution: squashed, or firm. -/
def Bank.resolve (b : Bank) (id n : Nat) : Bank :=
  if b.live ∧ lostInst id n b.inst then { b with squash := true, parkDue := false }
  else { b with inst := firmInst id n b.inst }

/-- A core's frames and arrivals after resolution. -/
def Core.resolve (c : Core) (id n : Nat) : Core :=
  { c with banks := c.banks.map fun (b : Bank) => b.resolve id n, inbox := c.inbox.map (resolveHeld id n)
           ni := c.ni.filterMap fun t => t.resolve id n }

/-- The core holds an instance of the launch in a frame or an arrival. -/
def Core.touches (c : Core) (id : Nat) : Bool :=
  let mine (i : Option Inst) : Bool := match i with
    | some i => i.ofLaunch id
    | none => false
  c.banks.toList.any (fun b => mine b.inst) || c.inbox.toList.any (fun l => l.any fun a => mine a.inst) ||
    c.ni.any fun t => match t.cargo with
      | .message a => mine a.inst
      | .channel _ _ _ => false

/-- A weir entry after resolution: none when it holds a dropped instance. -/
def WeirEntry.resolve (e : WeirEntry) (id n : Nat) : Option WeirEntry :=
  match e.item with
  | .arr a => if lostInst id n a.inst then none else some { e with item := .arr (a.firm id n) }
  | .record r =>
    if lostInst id n (some r.inst) then none
    else some { e with item := .record { r with inst := (firmInst id n (some r.inst)).getD r.inst } }
  | _ => some e

/-- A dispenser's records after resolution. -/
def Block.resolve (k : Block) (id n : Nat) : Block :=
  { k with records := (k.records.filter fun (r : InstRec) => !lostInst id n (some r.inst)).map fun (r : InstRec) =>
      { r with inst := (firmInst id n (some r.inst)).getD r.inst } }

/-- The instances of a launch move as R328 says, wherever they are: starts end and squashes are sent before any commit
(R329). -/
def State.resolveInstances (s : State) (id n : Nat) (region : Region) : State :=
  let s := s.cores.foldl (fun (s : State) e =>
    if e.2.touches id then s.updCore (BitVec.ofNat 18 e.1) fun c => c.resolve id n else s) s
  let s := s.blocks.foldl (fun (s : State) e => s.updBlock (BitVec.ofNat 10 e.1) fun k => k.resolve id n) s
  let s := { s with net := s.net.filterMap fun (t : Transit) => t.resolve id n
                    weir := s.weir.filterMap fun (e : WeirEntry) => e.resolve id n
                    saved := s.saved.map fun (k : Saved) =>
                      { k with banks := k.banks.map fun (b : Bank) => b.resolve id n, inbox := k.inbox.map (resolveHeld id n) } }
  s.weirFell (some region)

/-- One provisional store becomes visible at its home: every die's copy of the word goes there first (R87, R130). -/
def State.commitOne (s : State) (p : Prov) : State :=
  let s := (upFrom 0 16).foldl (fun (s : State) d => s.evictCopy (BitVec.ofNat 4 d) (p.pa / 8)) s
  s.homeStore p.dom (s.live p.pa) p.data

/-- Instance indices below n that hold provisional stores of a launch, in ascending order. -/
def committing (l : List Prov) (id n : Nat) : List Nat :=
  l.foldl (fun (r : List Nat) p =>
    let i := p.index.toNat
    if p.launch = id ∧ i < n ∧ !r.contains i then
      r.takeWhile (fun x => decide (x < i)) ++ [i] ++ r.dropWhile fun x => decide (x < i)
    else r) []

/-- The provisional stores of instances below n commit in ascending order, each instance's in its own order; the rest are
discarded (R87). A commit is a release at system scope: what the dies have stored reaches its homes first (R117, R130). -/
def State.commitProv (s : State) (id n : Nat) : State :=
  let mine := s.prov.filter fun (p : Prov) => p.launch == id
  let s := if (committing mine id n).isEmpty then s
    else (upFrom 0 16).foldl (fun (s : State) d => s.releaseDie (BitVec.ofNat 4 d)) s
  let s := (committing mine id n).foldl (fun (s : State) i =>
    (mine.filter fun (p : Prov) => p.index.toNat == i).foldl State.commitOne s) s
  { s with prov := s.prov.filter fun (p : Prov) => p.launch != id }

/-- A parked instance of the launch resumes, or its record is discarded (R328, R391): not where the part cannot write it (R392). -/
def State.resolveRecord (s : State) (die : BitVec 4) (n : Nat) (r : Record) : State :=
  match r.inst with
  | none => s
  | some i =>
    if i.index.toNat < n then
      let s := { s with records := s.records.map fun (x : Record) =>
        if x.addr = r.addr then { x with inst := some { i with tentative := false } } else x }
      s.postOwn 0x0B r.level 0 r.lid [r.addr.setWidth 64] 0
    else
      let gone (s : State) : State := { s with records := s.records.filter fun (x : Record) => x.addr != r.addr }
      if r.why = 8 then
        match s.partStore die (r.addr.toNat + 40) 0 with
        | some s => gone s
        | none => s.machineCheck die 0x03 0 (r.addr.setWidth 64 + 40) (some r.region)
      else gone s

/-- A held epilogue buffer whose handback was withheld: it is sent when the instance is firm, else the buffer is free
(R285). -/
def State.resolveBuffer (s : State) (id n : Nat) (i : Nat) (b : Option EpiBuf) : State × Option EpiBuf :=
  match b with
  | none => (s, none)
  | some b =>
    let mine : Bool := match b.by_.inst with
      | some x => x.ofLaunch id
      | none => false
    if !b.withheld ∨ !mine then (s, some b)
    else if lostInst id n b.by_.inst then (s, none)
    else
      let by_ := { b.by_ with inst := firmInst id n b.by_.inst }
      (s.handback by_ 9 0x0B s.anySucc (BitVec.ofNat 64 (wrapAddr (b.unitAddr b.next))) (BitVec.ofNat 64 (i + 16 * b.next)), some { b with by_, withheld := false })

/-- The epilogue buffers of every core, and of every saved context. -/
def State.resolveBuffers (s : State) (id n : Nat) : State :=
  let s := s.cores.foldl (fun (s : State) e =>
    if e.2.epi0.isNone ∧ e.2.epi1.isNone then s
    else
      let (s, b0) := s.resolveBuffer id n 0 e.2.epi0
      let (s, b1) := s.resolveBuffer id n 1 e.2.epi1
      s.updCore (BitVec.ofNat 18 e.1) fun c => { c with epi0 := b0, epi1 := b1 }) s
  let (s, l) := s.saved.foldl (fun (p : State × List Saved) k =>
    if !k.current then (p.1, p.2 ++ [k])
    else
    let (s, b0) := p.1.resolveBuffer id n 0 k.epi0
    let (s, b1) := s.resolveBuffer id n 1 k.epi1
    (s, p.2 ++ [{ k with epi0 := b0, epi1 := b1 }])) (s, [])
  { s with saved := l }

/-- The launch resolves with the word that filled its shape word (R328, R329). -/
def State.resolveShape (s : State) (l : Launch) (word : Word) : State :=
  let count := shapeCount word
  let n := count.toNat
  let die := dieOf l.by_.core
  let parked := s.records.filter fun (r : Record) => match r.inst with
    | some i => i.ofLaunch l.id
    | none => false
  let s := s.resolveInstances l.id n l.region
  let s := s.updLaunch l.id fun (x : Launch) => { x with count := some count, fill := none }
  let s := (s.commitProv l.id n).trimTied l n
  let s := s.tellShape l count
  let s := s.placeRecords l.id
  let s := s.updSlot l.sector l.record.slot fun k => k.note count
  let s := parked.foldl (fun (s : State) r => s.resolveRecord die n r) s
  let s := s.resolveBuffers l.id n
  match s.launches.find? fun (x : Launch) => x.id == l.id with
  | some l => s.finishLaunch l
  | none => s

/-- SHAPE_RESOLVE: a launch whose shape word a sync write has filled resolves (R328). -/
def execShapeResolve (l : BitVec 32) (s : State) : Out :=
  match s.launches.find? fun (x : Launch) => x.id == l.toNat with
  | none => .next s
  | some x =>
    match x.fill, x.count with
    | some w, none => .next (s.resolveShape x w)
    | _, _ => .next s

end Sys2Proof.Machine
end

