-- ==== Sys2Proof/Machine/Dispatch.lean ====
section
/-! DEFINITION. The one match over instructions: each arm is one call of its meaning. -/

namespace Sys2Proof.Machine

/-- The meaning of an instruction or event. -/
def exec (i : Instr) (s : State) : Host.Outcome State Fault Refusal :=
  match i with
  | .add d a b => Sys2Proof.Machine.execAdd d a b s
  | .sub d a b => Sys2Proof.Machine.execSub d a b s
  | .mul d a b => Sys2Proof.Machine.execMul d a b s
  | .mulh d a b => Sys2Proof.Machine.execMulh d a b s
  | .mulhu d a b => Sys2Proof.Machine.execMulhu d a b s
  | .min d a b => Sys2Proof.Machine.execMin d a b s
  | .max d a b => Sys2Proof.Machine.execMax d a b s
  | .minu d a b => Sys2Proof.Machine.execMinu d a b s
  | .maxu d a b => Sys2Proof.Machine.execMaxu d a b s
  | .div d a b => Sys2Proof.Machine.execDiv d a b s
  | .divu d a b => Sys2Proof.Machine.execDivu d a b s
  | .rem d a b => Sys2Proof.Machine.execRem d a b s
  | .remu d a b => Sys2Proof.Machine.execRemu d a b s
  | .and d a b => Sys2Proof.Machine.execAnd d a b s
  | .or d a b => Sys2Proof.Machine.execOr d a b s
  | .xor d a b => Sys2Proof.Machine.execXor d a b s
  | .andn d a b => Sys2Proof.Machine.execAndn d a b s
  | .shl d a b => Sys2Proof.Machine.execShl d a b s
  | .shr d a b => Sys2Proof.Machine.execShr d a b s
  | .sar d a b => Sys2Proof.Machine.execSar d a b s
  | .rot d a b => Sys2Proof.Machine.execRot d a b s
  | .clz d a => Sys2Proof.Machine.execClz d a s
  | .ctz d a => Sys2Proof.Machine.execCtz d a s
  | .pop d a => Sys2Proof.Machine.execPop d a s
  | .cmp d a b c => Sys2Proof.Machine.execCmp d a b c s
  | .sel d a b c => Sys2Proof.Machine.execSel d a b c s
  | .bext d a pos lenm1 => Sys2Proof.Machine.execBext d a pos lenm1 s
  | .bexts d a pos lenm1 => Sys2Proof.Machine.execBexts d a pos lenm1 s
  | .bins d a pos lenm1 => Sys2Proof.Machine.execBins d a pos lenm1 s
  | .gaddr d a b => Sys2Proof.Machine.execGaddr d a b s
  | .addImmediate d a imm => Sys2Proof.Machine.execAddImmediate d a imm s
  | .andImmediate d a imm => Sys2Proof.Machine.execAndImmediate d a imm s
  | .orImmediate d a imm => Sys2Proof.Machine.execOrImmediate d a imm s
  | .xorImmediate d a imm => Sys2Proof.Machine.execXorImmediate d a imm s
  | .shlImmediate d a u => Sys2Proof.Machine.execShlImmediate d a u s
  | .shrImmediate d a u => Sys2Proof.Machine.execShrImmediate d a u s
  | .sarImmediate d a u => Sys2Proof.Machine.execSarImmediate d a u s
  | .rotImmediate d a u => Sys2Proof.Machine.execRotImmediate d a u s
  | .li d imm => Sys2Proof.Machine.execLi d imm s
  | .movh d h imm => Sys2Proof.Machine.execMovh d h imm s
  | .cmpImmediate d a c imm => Sys2Proof.Machine.execCmpImmediate d a c imm s
  | .bCond d a c off => Sys2Proof.Machine.execBCond d a c off s
  | .b off => Sys2Proof.Machine.execB off s
  | .call off => Sys2Proof.Machine.execCall off s
  | .ret => Sys2Proof.Machine.execRet s
  | .jbt b => Sys2Proof.Machine.execJbt b s
  | .jbtCond d a b c => Sys2Proof.Machine.execJbtCond d a b c s
  | .callb b => Sys2Proof.Machine.execCallb b s
  | .getb d b => Sys2Proof.Machine.execGetb d b s
  | .setb a b => Sys2Proof.Machine.execSetb a b s
  | .pbt b off => Sys2Proof.Machine.execPbt b off s
  | .swform d a b => Sys2Proof.Machine.execSwform d a b s
  | .swleave => Sys2Proof.Machine.execSwleave s
  | .swjoin => Sys2Proof.Machine.execSwjoin s
  | .ldT d a z off => Sys2Proof.Machine.execLdT d a z off s
  | .stT d a z off => Sys2Proof.Machine.execStT d a z off s
  | .ldC d a z off => Sys2Proof.Machine.execLdC d a z off s
  | .stC d a z off => Sys2Proof.Machine.execStC d a z off s
  | .ld d a z off => Sys2Proof.Machine.execLd d a z off s
  | .st d a z off => Sys2Proof.Machine.execSt d a z off s
  | .ldAcq d a z sp sc => Sys2Proof.Machine.execLdAcq d a z sp sc s
  | .stRel a b z sp sc => Sys2Proof.Machine.execStRel a b z sp sc s
  | .amo d a b scratch sc o op => Sys2Proof.Machine.execAmo d a b scratch sc o op s
  | .ldq q a tag sp m sc => Sys2Proof.Machine.execLdq q a tag sp m sc s
  | .feFill a b sp m sc => Sys2Proof.Machine.execFeFill a b sp m sc s
  | .feEmpty a b sp sc => Sys2Proof.Machine.execFeEmpty a b sp sc s
  | .feTest d a sp => Sys2Proof.Machine.execFeTest d a sp s
  | .fence visible sc => Sys2Proof.Machine.execFence visible sc s
  | .pf a k => Sys2Proof.Machine.execPf a k s
  | .rreq d x sprio stype => Sys2Proof.Machine.execRreq d x sprio stype s
  | .vaddInt d a b e => Sys2Proof.Machine.execVaddInt d a b e s
  | .vsubInt d a b e => Sys2Proof.Machine.execVsubInt d a b e s
  | .vadds d a b e => Sys2Proof.Machine.execVadds d a b e s
  | .vsubs d a b e => Sys2Proof.Machine.execVsubs d a b e s
  | .vmulInt d a b e => Sys2Proof.Machine.execVmulInt d a b e s
  | .vmulh d a b e => Sys2Proof.Machine.execVmulh d a b e s
  | .vshl d a b e => Sys2Proof.Machine.execVshl d a b e s
  | .vshr d a b e => Sys2Proof.Machine.execVshr d a b e s
  | .vand d a b e => Sys2Proof.Machine.execVand d a b e s
  | .vor d a b e => Sys2Proof.Machine.execVor d a b e s
  | .vxor d a b e => Sys2Proof.Machine.execVxor d a b e s
  | .vandn d a b e => Sys2Proof.Machine.execVandn d a b e s
  | .vaddFp d a b sr e => Sys2Proof.Machine.execVaddFp d a b sr e s
  | .vsubFp d a b sr e => Sys2Proof.Machine.execVsubFp d a b sr e s
  | .vmulFp d a b sr e => Sys2Proof.Machine.execVmulFp d a b sr e s
  | .vfma d a b sr e => Sys2Proof.Machine.execVfma d a b sr e s
  | .vfnma d a b sr e => Sys2Proof.Machine.execVfnma d a b sr e s
  | .vabs d a e => Sys2Proof.Machine.execVabs d a e s
  | .vneg d a e => Sys2Proof.Machine.execVneg d a e s
  | .vmin d a b e => Sys2Proof.Machine.execVmin d a b e s
  | .vmax d a b e => Sys2Proof.Machine.execVmax d a b e s
  | .vcmp d a b c e => Sys2Proof.Machine.execVcmp d a b c e s
  | .vsel d a b => Sys2Proof.Machine.execVsel d a b s
  | .vshuf d a b => Sys2Proof.Machine.execVshuf d a b s
  | .vbcastScalar d a e => Sys2Proof.Machine.execVbcastScalar d a e s
  | .vbcastLane d a lane e => Sys2Proof.Machine.execVbcastLane d a lane e s
  | .vins d a lane e => Sys2Proof.Machine.execVins d a lane e s
  | .vext d a lane e => Sys2Proof.Machine.execVext d a lane e s
  | .vcvt d a part dt st opt => Sys2Proof.Machine.execVcvt d a part dt st opt s
  | .vred d a r e => Sys2Proof.Machine.execVred d a r e s
  | .vdot d a b e => Sys2Proof.Machine.execVdot d a b e s
  | .vsmrg d a b => Sys2Proof.Machine.execVsmrg d a b s
  | .vsfu d a f => Sys2Proof.Machine.execVsfu d a f s
  | .vld d a sp half off => Sys2Proof.Machine.execVld d a sp half off s
  | .vst d a sp half off => Sys2Proof.Machine.execVst d a sp half off s
  | .mfmt a => Sys2Proof.Machine.execMfmt a s
  | .mzero d => Sys2Proof.Machine.execMzero d s
  | .maccToVector d a r h => Sys2Proof.Machine.execMaccToVector d a r h s
  | .maccToAccumulator d a r h => Sys2Proof.Machine.execMaccToAccumulator d a r h s
  | .mmul d a b k => Sys2Proof.Machine.execMmul d a b k s
  | .mmulL d a k => Sys2Proof.Machine.execMmulL d a k s
  | .mmulSp d a b k => Sys2Proof.Machine.execMmulSp d a b k s
  | .mmulSpL d a k => Sys2Proof.Machine.execMmulSpL d a k s
  | .mcb d a b k => Sys2Proof.Machine.execMcb d a b k s
  | .mcbL d a k => Sys2Proof.Machine.execMcbL d a k s
  | .mbl a k => Sys2Proof.Machine.execMbl a k s
  | .mring => Sys2Proof.Machine.execMring s
  | .mpass d x sprio stype => Sys2Proof.Machine.execMpass d x sprio stype s
  | .mepi d a b => Sys2Proof.Machine.execMepi d a b s
  | .mepiResume n => Sys2Proof.Machine.execMepiResume n s
  | .mepiDrop n => Sys2Proof.Machine.execMepiDrop n s
  | .hld t a sp => Sys2Proof.Machine.execHld t a sp s
  | .hst t a sp => Sys2Proof.Machine.execHst t a sp s
  | .hbind d a b => Sys2Proof.Machine.execHbind d a b s
  | .hpermRegister d a b => Sys2Proof.Machine.execHpermRegister d a b s
  | .hpermImmediate d a n => Sys2Proof.Machine.execHpermImmediate d a n s
  | .hbund a => Sys2Proof.Machine.execHbund a s
  | .hclr t => Sys2Proof.Machine.execHclr t s
  | .hthr d => Sys2Proof.Machine.execHthr d s
  | .htie a => Sys2Proof.Machine.execHtie a s
  | .hdist d a b => Sys2Proof.Machine.execHdist d a b s
  | .hpop d a => Sys2Proof.Machine.execHpop d a s
  | .hrcl d a b => Sys2Proof.Machine.execHrcl d a b s
  | .done => Sys2Proof.Machine.execDone s
  | .armRegister a => Sys2Proof.Machine.execArmRegister a s
  | .armImmediate t => Sys2Proof.Machine.execArmImmediate t s
  | .disarmRegister a => Sys2Proof.Machine.execDisarmRegister a s
  | .disarmImmediate t => Sys2Proof.Machine.execDisarmImmediate t s
  | .ptest d a => Sys2Proof.Machine.execPtest d a s
  | .ptestW d a => Sys2Proof.Machine.execPtestW d a s
  | .estat d => Sys2Proof.Machine.execEstat d s
  | .claim n => Sys2Proof.Machine.execClaim n s
  | .unclaim n => Sys2Proof.Machine.execUnclaim n s
  | .rng d => Sys2Proof.Machine.execRng d s
  | .tick d => Sys2Proof.Machine.execTick d s
  | .send d a b => Sys2Proof.Machine.execSend d a b s
  | .shape d => Sys2Proof.Machine.execShape d s
  | .ralloc d a b => Sys2Proof.Machine.execRalloc d a b s
  | .rtrim a b => Sys2Proof.Machine.execRtrim a b s
  | .copy d x y sprio stype => Sys2Proof.Machine.execCopy d x y sprio stype s
  | .cpst d x y sprio stype => Sys2Proof.Machine.execCpst d x y sprio stype s
  | .walk d x sprio stype => Sys2Proof.Machine.execWalk d x sprio stype s
  | .barv d x sprio stype => Sys2Proof.Machine.execBarv d x sprio stype s
  | .launch d x sprio stype => Sys2Proof.Machine.execLaunch d x sprio stype s
  | .enc d x sprio stype => Sys2Proof.Machine.execEnc d x sprio stype s
  | .trap n => Sys2Proof.Machine.execTrap n s
  | .tret => Sys2Proof.Machine.execTret s
  | .tretEnd => Sys2Proof.Machine.execTretEnd s
  | .sget d k => Sys2Proof.Machine.execSget d k s
  | .sset a k => Sys2Proof.Machine.execSset a k s
  | .fsave d a => Sys2Proof.Machine.execFsave d a s
  | .fload d a => Sys2Proof.Machine.execFload d a s
  | .plbw d a n => Sys2Proof.Machine.execPlbw d a n s
  | .plbi n => Sys2Proof.Machine.execPlbi n s
  | .plbiAll => Sys2Proof.Machine.execPlbiAll s
  | .remap d a => Sys2Proof.Machine.execRemap d a s
  | .mcancel d a sp => Sys2Proof.Machine.execMcancel d a sp s
  | .pginv d a z => Sys2Proof.Machine.execPginv d a z s
  | .icinv => Sys2Proof.Machine.execIcinv s
  | .idle => Sys2Proof.Machine.execIdle s
  | .compactMov x y => Sys2Proof.Machine.execCompactMov x y s
  | .compactAdd x y => Sys2Proof.Machine.execCompactAdd x y s
  | .compactSub x y => Sys2Proof.Machine.execCompactSub x y s
  | .compactAnd x y => Sys2Proof.Machine.execCompactAnd x y s
  | .compactOr x y => Sys2Proof.Machine.execCompactOr x y s
  | .compactXor x y => Sys2Proof.Machine.execCompactXor x y s
  | .compactShl x y => Sys2Proof.Machine.execCompactShl x y s
  | .compactShr x y => Sys2Proof.Machine.execCompactShr x y s
  | .compactSar x y => Sys2Proof.Machine.execCompactSar x y s
  | .compactMul x y => Sys2Proof.Machine.execCompactMul x y s
  | .compactMin x y => Sys2Proof.Machine.execCompactMin x y s
  | .compactMax x y => Sys2Proof.Machine.execCompactMax x y s
  | .compactAndn x y => Sys2Proof.Machine.execCompactAndn x y s
  | .compactLdT x y => Sys2Proof.Machine.execCompactLdT x y s
  | .compactStT x y => Sys2Proof.Machine.execCompactStT x y s
  | .compactLd x y => Sys2Proof.Machine.execCompactLd x y s
  | .compactLi x imm => Sys2Proof.Machine.execCompactLi x imm s
  | .compactAddImmediate x imm => Sys2Proof.Machine.execCompactAddImmediate x imm s
  | .compactShlImmediate x u => Sys2Proof.Machine.execCompactShlImmediate x u s
  | .compactShrImmediate x u => Sys2Proof.Machine.execCompactShrImmediate x u s
  | .compactSarImmediate x u => Sys2Proof.Machine.execCompactSarImmediate x u s
  | .compactAndImmediate x imm => Sys2Proof.Machine.execCompactAndImmediate x imm s
  | .compactLdTFrame x u => Sys2Proof.Machine.execCompactLdTFrame x u s
  | .compactStTFrame x u => Sys2Proof.Machine.execCompactStTFrame x u s
  | .compactLdTAbsolute x u => Sys2Proof.Machine.execCompactLdTAbsolute x u s
  | .compactStTAbsolute x u => Sys2Proof.Machine.execCompactStTAbsolute x u s
  | .compactBEq x imm => Sys2Proof.Machine.execCompactBEq x imm s
  | .compactBNe x imm => Sys2Proof.Machine.execCompactBNe x imm s
  | .compactRotImmediate x u => Sys2Proof.Machine.execCompactRotImmediate x u s
  | .compactXorImmediate x imm => Sys2Proof.Machine.execCompactXorImmediate x imm s
  | .compactLdC x u => Sys2Proof.Machine.execCompactLdC x u s
  | .compactStC x u => Sys2Proof.Machine.execCompactStC x u s
  | .compactDone => Sys2Proof.Machine.execCompactDone s
  | .compactRet => Sys2Proof.Machine.execCompactRet s
  | .compactJbt b => Sys2Proof.Machine.execCompactJbt b s
  | .compactPop x y => Sys2Proof.Machine.execCompactPop x y s
  | .compactSgetLid x => Sys2Proof.Machine.execCompactSgetLid x s
  | .compactTick x => Sys2Proof.Machine.execCompactTick x s
  | .compactRng x => Sys2Proof.Machine.execCompactRng x s
  | .compactSwjoin => Sys2Proof.Machine.execCompactSwjoin s
  | .compactSwleave => Sys2Proof.Machine.execCompactSwleave s
  | .compactClz x y => Sys2Proof.Machine.execCompactClz x y s
  | .compactCtz x y => Sys2Proof.Machine.execCompactCtz x y s
  | .compactClaim n => Sys2Proof.Machine.execCompactClaim n s
  | .compactUnclaim n => Sys2Proof.Machine.execCompactUnclaim n s
  | .compactSt x y => Sys2Proof.Machine.execCompactSt x y s
  | .compactFence visible sc => Sys2Proof.Machine.execCompactFence visible sc s
  | .compactNeg x y => Sys2Proof.Machine.execCompactNeg x y s
  | .illegalInstruction addr => Sys2Proof.Machine.execIllegalInstruction addr s
  | .fetchFault cause addr => Sys2Proof.Machine.execFetchFault cause addr s
  | .arrivalAccept n => Sys2Proof.Machine.execArrivalAccept n s
  | .stallWatchdog n cc => Sys2Proof.Machine.execStallWatchdog n cc s
  | .supervisorRunLimit n cc => Sys2Proof.Machine.execSupervisorRunLimit n cc s
  | .swarmJoinTimeout n => Sys2Proof.Machine.execSwarmJoinTimeout n s
  | .swarmDetach n => Sys2Proof.Machine.execSwarmDetach n s
  | .dieEntryResolve k => Sys2Proof.Machine.execDieEntryResolve k s
  | .movedRedirect n => Sys2Proof.Machine.execMovedRedirect n s
  | .weirRefill k => Sys2Proof.Machine.execWeirRefill k s
  | .weirFullReply n => Sys2Proof.Machine.execWeirFullReply n s
  | .weirSpaceReply n => Sys2Proof.Machine.execWeirSpaceReply n s
  | .storeBufferDrain n => Sys2Proof.Machine.execStoreBufferDrain n s
  | .syncAccessAtOwner n => Sys2Proof.Machine.execSyncAccessAtOwner n s
  | .ldqEntryDeliver n => Sys2Proof.Machine.execLdqEntryDeliver n s
  | .atomicReply n => Sys2Proof.Machine.execAtomicReply n s
  | .pageRefill cl => Sys2Proof.Machine.execPageRefill cl s
  | .pageWalk die va => Sys2Proof.Machine.execPageWalk die va s
  | .gatedReply n => Sys2Proof.Machine.execGatedReply n s
  | .remoteRequestPerform n => Sys2Proof.Machine.execRemoteRequestPerform n s
  | .remoteRequestComplete n status data => Sys2Proof.Machine.execRemoteRequestComplete n status data s
  | .copyEngineRun n => Sys2Proof.Machine.execCopyEngineRun n s
  | .streamEntryAppend n => Sys2Proof.Machine.execStreamEntryAppend n s
  | .matrixCommandPerform n => Sys2Proof.Machine.execMatrixCommandPerform n s
  | .latchTake n => Sys2Proof.Machine.execLatchTake n s
  | .ringHandoff n => Sys2Proof.Machine.execRingHandoff n s
  | .latchWaitTimeout n cc => Sys2Proof.Machine.execLatchWaitTimeout n cc s
  | .mpassRun n => Sys2Proof.Machine.execMpassRun n s
  | .sfuAccept cl => Sys2Proof.Machine.execSfuAccept cl s
  | .sfuLand n => Sys2Proof.Machine.execSfuLand n s
  | .channelEntrySend n q => Sys2Proof.Machine.execChannelEntrySend n q s
  | .channelEntryArrive k => Sys2Proof.Machine.execChannelEntryArrive k s
  | .allowanceReturn n q => Sys2Proof.Machine.execAllowanceReturn n q s
  | .launchFrontEndCheck sector => Sys2Proof.Machine.execLaunchFrontEndCheck sector s
  | .dispenserRound blk => Sys2Proof.Machine.execDispenserRound blk s
  | .stageRelease l => Sys2Proof.Machine.execStageRelease l s
  | .unbind l => Sys2Proof.Machine.execUnbind l s
  | .tileWalkerRun blk tile lid => Sys2Proof.Machine.execTileWalkerRun blk tile lid s
  | .barrierArrive n => Sys2Proof.Machine.execBarrierArrive n s
  | .gangBarrierNotice sector => Sys2Proof.Machine.execGangBarrierNotice sector s
  | .shapeResolve l => Sys2Proof.Machine.execShapeResolve l s
  | .allocationService sector => Sys2Proof.Machine.execAllocationService sector s
  | .periodRelease n => Sys2Proof.Machine.execPeriodRelease n s
  | .budgetOverrun n idx rt => Sys2Proof.Machine.execBudgetOverrun n idx rt s
  | .pacerRelease die => Sys2Proof.Machine.execPacerRelease die s
  | .loadExchange n => Sys2Proof.Machine.execLoadExchange n s
  | .loadFigure n => Sys2Proof.Machine.execLoadFigure n s
  | .pginvComplete n => Sys2Proof.Machine.execPginvComplete n s
  | .pageMigration p p2 => Sys2Proof.Machine.execPageMigration p p2 s
  | .oldHomeForward n => Sys2Proof.Machine.execOldHomeForward n s
  | .forwardCredit k => Sys2Proof.Machine.execForwardCredit k s
  | .acknowledgement n => Sys2Proof.Machine.execAcknowledgement n s
  | .hostMemAccess ld off write data => Sys2Proof.Machine.execHostMemAccess ld off write data s
  | .doorbell ld w tail => Sys2Proof.Machine.execDoorbell ld w tail s
  | .hostRequestTake ld w => Sys2Proof.Machine.execHostRequestTake ld w s
  | .rcbWindowGo => Sys2Proof.Machine.execRcbWindowGo s
  | .keySlotCommit bay slot => Sys2Proof.Machine.execKeySlotCommit bay slot s
  | .dividerWrite cl data => Sys2Proof.Machine.execDividerWrite cl data s
  | .powerSwitchWrite cl data => Sys2Proof.Machine.execPowerSwitchWrite cl data s
  | .scratchpadGateRequest cl => Sys2Proof.Machine.execScratchpadGateRequest cl s
  | .clusterGateRequest cl => Sys2Proof.Machine.execClusterGateRequest cl s
  | .gateDrainComplete cl => Sys2Proof.Machine.execGateDrainComplete cl s
  | .gateWake cl data => Sys2Proof.Machine.execGateWake cl data s
  | .wakeComplete cl => Sys2Proof.Machine.execWakeComplete cl s
  | .coreReset cl data => Sys2Proof.Machine.execCoreReset cl data s
  | .pacerEnable die data => Sys2Proof.Machine.execPacerEnable die data s
  | .mgmtRegisterWrite va data => Sys2Proof.Machine.execMgmtRegisterWrite va data s
  | .thermalNotify n temp => Sys2Proof.Machine.execThermalNotify n temp s
  | .sramRailWindow cl corrected uncorrected => Sys2Proof.Machine.execSramRailWindow cl corrected uncorrected s
  | .logicRailLower cl => Sys2Proof.Machine.execLogicRailLower cl s
  | .timingReplay n second => Sys2Proof.Machine.execTimingReplay n second s
  | .coreCheck n => Sys2Proof.Machine.execCoreCheck n s
  | .evictionError pa dom => Sys2Proof.Machine.execEvictionError pa dom s
  | .icacheParityError n va => Sys2Proof.Machine.execIcacheParityError n va s
  | .linkRetransmit port => Sys2Proof.Machine.execLinkRetransmit port s
  | .settleFlit port flit => Sys2Proof.Machine.execSettleFlit port flit s
  | .encQueueAccept n => Sys2Proof.Machine.execEncQueueAccept n s
  | .encJobStart die => Sys2Proof.Machine.execEncJobStart die s
  | .encRowReady die => Sys2Proof.Machine.execEncRowReady die s
  | .encRowTimeout die rt => Sys2Proof.Machine.execEncRowTimeout die rt s
  | .encUnitWrite die => Sys2Proof.Machine.execEncUnitWrite die s
  | .moduleReset => Sys2Proof.Machine.execModuleReset s
  | .linkRetrain port lanes speed => Sys2Proof.Machine.execLinkRetrain port lanes speed s
  | .armedFlagRearm n temp => Sys2Proof.Machine.execArmedFlagRearm n temp s

end Sys2Proof.Machine
end

