-- ==== Sys2Proof/Machine/Turns.lean ====
section
/-! DEFINITION. The turns of the schedule that are neither a core's instruction nor an event of the table: accesses to queue
registers (R97), ownership of lines (R92), what other modules and the host do, and counters. -/

namespace Sys2Proof.Machine

/-- A register of request window w written by the host (R418). -/
def State.windowWrite (s : State) (ld : BitVec 4) (w : BitVec 6) (off : Nat) (x : Word) : State :=
  s.updWindow ld w fun k =>
    match off with
    | 0x000 => { k with rbase := bits x 6 50 ++ 0#6 }
    | 0x008 => { k with rsize := bits x 0 4 }
    | 0x010 => { k with tail := bits x 0 16 }
    | 0x020 => { k with err := k.err && !x.getLsbD 0, stop := x.getLsbD 1 }
    | 0x028 => { k with vec := bits x 0 11 }
    | _ => k

/-- A write of the host in BAR2 of a logical device (R418, R452). The write that rings go is an event of its own. -/
def State.barWrite (s : State) (ld : BitVec 4) (off : Nat) (x : Word) : State :=
  if off < 0x40000 then s.windowWrite ld (BitVec.ofNat 6 (off / 4096)) (off % 4096) x
  else if ld ≠ 0 then s
  else
    let o := off - 0x40000
    let k := s.rcbWindow
    if o < 0x80 ∧ o % 8 = 0 then { s with rcbWindow := { k with image := updAt (fun _ => x) k.image (o / 8) } }
    else if o = 0x80 then { s with rcbWindow := { k with addr := bits x 0 56 } }
    else if o = 0x90 then { s with rcbWindow := { k with root := bits x 0 56 } }
    else s

/-- The L2 slice of a block of the home die takes a line exclusively: not while entries wait for its words elsewhere (R92). -/
def State.lineTake (s : State) (pa : Nat) (blk : BitVec 10) : State :=
  let line := s.live pa / 64
  if isHost pa ∨ bits blk 6 4 ≠ homeDie (line * 64) ∨
      s.moorings.any (fun m => m.owner.isMem && m.word / 8 == line) then s
  else { s with exclusive := Cells.put s.exclusive line (blk.toNat + 1) }

/-- An L2 slice holds a line exclusively no longer: it stays while its mooring list holds entries for the line (R92). -/
def State.lineGive (s : State) (pa : Nat) : State :=
  let line := s.live pa / 64
  if s.moorings.any (fun m => m.owner.isMem && m.word / 8 == line) then s
  else { s with exclusive := Cells.erase s.exclusive line }

/-- What a turn of the schedule other than a core's or an event's does. -/
def State.otherTurn (s : State) : Turn → State
  | .evict die pa => s.evictCopy die (pa / 8)
  | .evictLine pa => { s with lines := Cells.erase s.lines (pa / 64) }
  | .time cl rt => s.updCluster cl fun k => { k with counter := k.counter + rt }
  | .encTime die rt => s.updDie die fun d => { d with encCounter := d.encCounter + rt }
  | .temperature n t => ((s.setTemp n t).rearm n).notifyHeat n
  | .remoteIn m => s.remoteIn m
  | .queueRead n q v => { s with cur := n }.queueRead q v
  | .queueWrite n q v => { s with cur := n }.queueWrite q v
  | .lineTake pa blk => s.lineTake pa blk
  | .lineGive pa => s.lineGive pa
  | .wordError pa => s.wordError pa
  | .copyError die pa => s.copyError die pa
  | .pageError cl i w => s.pageError cl i w
  | .tcmError n => s.tcmError n
  | .bringUp b => { s with bring := b }
  | .reclaim dom frame => s.reclaim dom frame
  | .wireAck k => s.wireAck k
  | .wireAbsent k => s.wireAbsent k
  | .wireFull k => s.wireFull k
  | .wireSpace m => s.wireSpace m
  | .remoteTaken n id => s.remoteTaken n id
  | .passTile n => s.passOne n
  | .supervisorUnbind l => s.supervisorUnbind l
  | .remoteDone n id data status => s.remoteDone n id data status
  | .guestRequest g => s.guestRequest g
  | .icEvict n va => s.updCore n fun c => { c with icache := Cells.erase c.icache va }
  | .barWrite ld off x => s.barWrite ld off x
  | .creditOut o => if s.noCredit.contains o ∨ !o.isMem then s else { s with noCredit := s.noCredit ++ [o] }
  | _ => s

end Sys2Proof.Machine
end

