-- ==== Sys2Proof/Machine/Step.lean ====
section
/-! DEFINITION. One step of the module: the next agent of the schedule acts; with none named, the core in turn runs its
next instruction. -/

namespace Sys2Proof.Machine

/-- The core in turn runs one instruction; a gang forwards or follows it (R210). -/
def State.runCore (s : State) : Out :=
  match s.nextInstr with
  | (s, some i) =>
    match exec i s with
    | .next t => .next (s.gangStep t s.cur i)
    | r => r
  | (s, none) => .next s

/-- The core in turn runs one instruction and accepts an arrival in the same cycle: retirement, acceptance, one selection (R56). The
arrival is judged as the instruction leaves the core; before an instruction whose retirement ends with a selection it is only put in its
place, where that selection finds it. -/
def State.runAccepting (s : State) : Out :=
  match s.nextInstr with
  | (s, some i) =>
    let (s, late) := if i.selects then s.acceptLoose s.cur else (s, none)
    match exec i s with
    | .next t =>
      let t := s.gangStep t s.cur i
      .next (if i.selects then (t.settleLoose s.cur late).selectNext s.cur else t.acceptOne s.cur)
    | r => r
  | (s, none) => .next (s.acceptOne s.cur)

/-- One step. -/
def step (s : State) : Out :=
  let s := { s with free := s.free + 1, breakAt := none }
  match s.turns with
  | [] => { s with slow := false }.runCore
  | t :: r =>
    let s := { s with turns := r }
    match t with
    | .core n => { s with cur := n, slow := false }.runCore
    | .coreSlow n => { s with cur := n, slow := true }.runCore
    | .coreAccept n => { s with cur := n, slow := false }.runAccepting
    | .coreBreak n k => { s with cur := n, slow := false, breakAt := some k }.runCore
    | .event i => if i.schedulable then exec i s else .fault .badTurn
    | t => .next (s.otherTurn t)

/-- s with an instruction of the opcode table placed where the core in turn fetches its next one (log entry 4). -/
def State.withFetchWord (s : State) (nbits w : Nat) : State :=
  { s.updMe fun c =>
      let c := c.readyToFetch
      c.placeParcels c.pc.toNat (tableBytes nbits w) with turns := [] }

end Sys2Proof.Machine
end

