-- ==== Sys2Proof/Safety.lean ====
section
/-! DEFINITION. What a safe step is, and the words in which the statements say what an instruction changes and what it
leaves alone. -/

namespace Sys2Proof.Machine

/-- The step from s ends in a next state: no fault and no refusal. -/
def State.Safe (s : State) : Prop := ∃ t, step s = .next t

/-! ## Memory left alone -/

/-- A resident page without its pins. -/
def Frame.unpinned (f : Frame) : Frame := { f with pins := 0 }

/-- Every byte of memory reads as before: device and host memory, the TCM of every core, the resident pages of every
scratchpad (but for which cores pin them, R77), and the copies that dies hold. -/
def SameMemory (s t : State) : Prop :=
  (∀ a, t.mem.get a = s.mem.get a) ∧ (∀ n a, (t.core n).tcm.get a = (s.core n).tcm.get a) ∧
    (∀ cl, (t.cluster cl).frames.map Frame.unpinned = (s.cluster cl).frames.map Frame.unpinned) ∧
    (∀ x, (t.die x).copies = (s.die x).copies)

/-! ## Frames of the instructions that act on registers only -/

/-- t is s but for the pc and the stall counts of the core in turn. -/
def KeepsButPc (s t : State) : Prop :=
  ∃ (pc : BitVec 56) (st : Vector (BitVec 41) 8), t = s.updMe fun c => { c with pc, stalls := st }

/-- t is s but for the scalar registers of the running frame, and the pc and stall counts of the core in turn. -/
def KeepsButScalars (s t : State) : Prop :=
  ∃ (w : Vector Word 32) (pc : BitVec 56) (st : Vector (BitVec 41) 8),
    t = s.updMe fun c => { c.updHere fun b => { b with s := w } with pc, stalls := st }

/-- t is s but for the vector registers of the running frame, and the pc and stall counts of the core in turn. -/
def KeepsButVectors (s t : State) : Prop :=
  ∃ (w : Vector Vec 16) (pc : BitVec 56) (st : Vector (BitVec 41) 8),
    t = s.updMe fun c => { c.updHere fun b => { b with v := w } with pc, stalls := st }

/-- t is s but for b0 to b3, and the pc and stall counts of the core in turn. -/
def KeepsButTargets (s t : State) : Prop :=
  ∃ (w : Vector Word 4) (pc : BitVec 56) (st : Vector (BitVec 41) 8),
    t = s.updMe fun c => { c with b := w, pc, stalls := st }

/-- t is s but for the hypervector state, and the pc and stall counts of the core in turn. -/
def KeepsButHyper (s t : State) : Prop :=
  ∃ (h : Vector Hv 4) (ht : Hv) (k : BitVec 32768) (hp : BitVec 50) (hc : BitVec 56) (pc : BitVec 56)
    (st : Vector (BitVec 41) 8),
    t = s.updMe fun c => { c with h, ht, kcnt := k, hprog := hp, hpc := hc, pc, stalls := st }

/-- t is s but for swarm memberships, the scalar registers of cores, and their pcs and stall counts. -/
def KeepsButMembers (s t : State) : Prop :=
  t = { s with cores := t.cores } ∧ ∀ n, ∃ (m : Option Member) (w : Vector Word 32) (pc : BitVec 56)
    (st : Vector (BitVec 41) 8), t.core n =
      { (s.core n).updHere (fun b => { b with s := w }) with member := m, pc, stalls := st }

/-- From s to t the instruction of len bytes put a store into the store buffer of the core in turn and did nothing else: the
entry gets a number of its own, which waits for its acknowledgement. -/
def Buffers (s t : State) (e : StoreEntry) (len : Nat) : Prop :=
  SameMemory s t ∧ ∃ st : Vector (BitVec 41) 8,
    t = { (s.updMe fun c => { c with sbuf := c.sbuf ++ [{ e with tag := s.nextId }], unacked := c.unacked ++ [s.nextId],
                                     pc := c.pc + BitVec.ofNat 56 len, stalls := st }) with nextId := s.nextId + 1 }

/-- From s to t the instruction of len bytes wrote x to s_d; every other scalar register of the running frame keeps its
value. -/
def ReadsInto (s t : State) (d : SReg) (x : Word) (len : Nat) : Prop :=
  t.pc = s.pc + BitVec.ofNat 56 len ∧ ∀ r, t.rs r = if r = d ∧ d ≠ 0 then x else s.rs r

/-- From s to t the instruction of len bytes went on behind itself with every scalar register of the running frame as it
was. -/
def PassesBy (s t : State) (len : Nat) : Prop := t.pc = s.pc + BitVec.ofNat 56 len ∧ ∀ r, t.rs r = s.rs r

/-- Device and host memory and the TCM of every core read as before. -/
def SameStores (s t : State) : Prop :=
  (∀ a, t.mem.get a = s.mem.get a) ∧ ∀ n a, (t.core n).tcm.get a = (s.core n).tcm.get a

/-- From s to t the instruction of len bytes wrote x to s_d and nothing else: a write to s0 is discarded (R162). -/
def WritesS (s t : State) (d : SReg) (x : Word) (len : Nat) : Prop :=
  KeepsButScalars s t ∧ SameMemory s t ∧ t.pc = s.pc + BitVec.ofNat 56 len ∧
    ∀ r, t.rs r = if r = d ∧ d ≠ 0 then x else s.rs r

/-- From s to t the instruction of 4 bytes wrote x to v_d and nothing else. -/
def WritesV (s t : State) (d : VReg) (x : Vec) : Prop :=
  KeepsButVectors s t ∧ SameMemory s t ∧ t.pc = s.pc + 4 ∧ ∀ r, t.rv r = if r = d then x else s.rv r

/-- From s to t the instruction of 4 bytes wrote x to b_d and nothing else. -/
def WritesB (s t : State) (d : BReg) (x : Word) : Prop :=
  KeepsButTargets s t ∧ SameMemory s t ∧ t.pc = s.pc + 4 ∧ ∀ r, t.rb r = if r = d then x else s.rb r

/-- The instruction completes with x in s_d and no other effect. -/
def Retires (s : State) (i : Instr) (d : SReg) (x : Word) (len : Nat) : Prop :=
  ∃ t, exec i s = .next t ∧ WritesS s t d x len

/-- The instruction completes with x in v_d and no other effect. -/
def RetiresV (s : State) (i : Instr) (d : VReg) (x : Vec) : Prop := ∃ t, exec i s = .next t ∧ WritesV s t d x

/-- The instruction completes with x in b_d and no other effect. -/
def RetiresB (s : State) (i : Instr) (d : BReg) (x : Word) : Prop := ∃ t, exec i s = .next t ∧ WritesB s t d x

/-- The instruction completes with n lanes of w bits in v_d, lane j the low w bits of f j, and no other effect. -/
def Lanewise (s : State) (i : Instr) (d : VReg) (w n : Nat) (f : Nat → Nat) : Prop :=
  ∃ v, RetiresV s i d v ∧ ∀ j, j < n → lane v w j = f j % 2 ^ w

/-- The instruction completes with n lanes of w bits in v_d, lane j the low w bits of f j; the draw counter advances by k and
nothing else changes. -/
def LanewiseDraws (s : State) (i : Instr) (d : VReg) (w n : Nat) (f : Nat → Nat) (k : Nat) : Prop :=
  ∃ t, exec i s = .next t ∧ SameMemory s t ∧ t.pc = s.pc + 4 ∧ t.me.sctr = s.me.sctr + BitVec.ofNat 64 k ∧
    (∀ j, j < n → lane (t.rv d) w j = f j % 2 ^ w) ∧ (∀ r, r ≠ d → t.rv r = s.rv r) ∧
    ∃ (v : Vector Vec 16) (x : Word) (pc : BitVec 56) (st : Vector (BitVec 41) 8),
      t = s.updMe fun c => { c.updHere fun b => { b with v := v } with sctr := x, pc, stalls := st }

/-- The instruction completes with only the hypervector state, the pc and the stall counts of the core changed, and p holds of
the state it leaves. -/
def HyperGives (s : State) (i : Instr) (p : State → Prop) : Prop :=
  ∃ t, exec i s = .next t ∧ KeepsButHyper s t ∧ SameMemory s t ∧ t.pc = s.pc + 4 ∧ p t

/-- The instruction completes and goes on at a, with no other effect. -/
def GoesTo (s : State) (i : Instr) (a : BitVec 56) : Prop :=
  ∃ t, exec i s = .next t ∧ KeepsButPc s t ∧ SameMemory s t ∧ t.pc = a

/-- The relation of R165 for a condition, on the integers that the words stand for. -/
def Relation (c : Cond) (x y : Word) : Prop :=
  match c with
  | .eq => x = y
  | .ne => x ≠ y
  | .lt => x.toInt < y.toInt
  | .ge => y.toInt ≤ x.toInt
  | .ltu => x.toNat < y.toNat
  | .geu => y.toNat ≤ x.toNat
  | .any => x &&& y ≠ 0
  | .none => x &&& y = 0

/-- The instruction takes a precise trap at its own address: cause c with k.addr a (R347, R348). -/
def Traps (s : State) (i : Instr) (c : BitVec 5) (a : Word) : Prop :=
  exec i s = .next (s.takeTrap s.cur c a s.pc false)

/-- The running frame parks at the instruction for the reason why, with nothing of it done (R86, R330). -/
def Parks (s : State) (i : Instr) (why : BitVec 4) : Prop := exec i s = .next (s.stop (.park why 0))

/-- At an instruction to which a tentative instance has no right, a firm frame does p and a tentative instance parks (R86). -/
def FirmDoes (s : State) (i : Instr) (why : BitVec 4) (p : Prop) : Prop :=
  (s.tentative = false → p) ∧ (s.tentative = true → Parks s i why)

/-! ## Commands of the engines -/

/-- The instruction completes with op behind the other commands of the core's matrix engine, `draws` draws taken, and nothing
else changed (R261, R311). -/
def EntersMatrix (s : State) (i : Instr) (op : MatOp) (draws : Nat) : Prop :=
  ∃ st : Vector (BitVec 41) 8, exec i s = .next (s.updMe fun c =>
    { c with matQ := c.matQ ++ [{ by_ := s.issuer, op, waited := 0 }], estMat := { c.estMat with done := false },
             sctr := c.sctr + BitVec.ofNat 64 draws, pc := c.pc + 4, stalls := st })

/-- The instruction completes with op behind the other commands of the core's remote-request engine, under a number of its
own, and nothing else changed (R310, R311); an access counts for a fence (R410). -/
def EntersRemote (s : State) (i : Instr) (x : Succ) (op : RemOp) (access : Bool) : Prop :=
  ∃ st : Vector (BitVec 41) 8, exec i s = .next { (s.updMe fun c =>
    { c with remQ := c.remQ ++ [{ id := s.nextId, by_ := s.issuer, succ := x, op, phase := .issued, tag := s.nextId, passed := false }],
             unacked := c.unacked ++ (if access then [s.nextId] else []), estRem := { c.estRem with done := false },
             pc := c.pc + 4, stalls := st }) with nextId := s.nextId + 1 }

/-- The destination and the successor fields of a WE command pass the checks of R303. -/
def SuccessorOk (s : State) (d : SReg) (sprio : BitVec 3) (stype : Byte) (start : Bool) : Prop :=
  let w := s.destWord d
  (start = true ∨ w.toNat / 2 ^ 36 = 0) ∧ (w.getLsbD 34 = true → w.toNat % 2 ^ 34 = 0) ∧
    (s.me.level = 7 ∨ w.getLsbD 35 = true ∨ (0x20 ≤ stype.toNat ∧ sprio ≠ 7)) ∧
    (w.getLsbD 35 = true ∨ w.getLsbD 34 = true ∨ s.moduleOf (bits w 18 16) ≠ s.modu ∨ s.present (bits w 0 18) = true)

/-- The n bytes of an operand tile at a lie in the TCM and in the areas open to the running frame (R267). -/
def TileOk (s : State) (a : Word) (n : Nat) : Prop :=
  a.toNat % 16 = 0 ∧ a.toNat + n ≤ 0xC000 ∧ (s.me.level = 7 ∨ ∀ i, i < (n + 15) / 16 →
    a.toNat + 16 * i < s.me.slim.toNat ∨ (s.me.here.fbase.toNat ≤ a.toNat + 16 * i ∧
      a.toNat + 16 * i < s.me.here.fbase.toNat + frameSize s.me.here.fclass s.me.lvl))

/-- From s to t one message was put on its way: a type-0x01 handback to the issuer's LID for command cmd with a cause, an
address and a progress word (R320). -/
def HandsBack (s t : State) (by_ : Issuer) (cmd : BitVec 4) (cause : BitVec 5) (a progress : Word) : Prop :=
  ∃ (m : Transit) (x : Arr) (w : Word), t.net = s.net ++ [m] ∧ m.dst = by_.lid ∧ m.cargo = .message x ∧
    hdrType x.msg.hdr = 0x01 ∧ hdrPrio x.msg.hdr = 7 ∧ x.msg.payload = [w, a, progress] ∧ bits w 4 4 = cmd ∧
    bits w 8 8 = cause.setWidth 8

/-- From s to t the successor x of a command of by_ was released with a payload: one message of its type and priority to its
destination, or none when it names none (R302, R304). -/
def Releases (s t : State) (by_ : Issuer) (x : Succ) (payload : List Word) : Prop :=
  if x.nosucc then t.net = s.net
  else ∃ (m : Transit) (y : Arr), t.net = s.net ++ [m] ∧ m.cargo = .message y ∧ hdrType y.msg.hdr = x.stype ∧
    hdrPrio y.msg.hdr = x.sprio ∧ y.msg.payload = payload ∧
    m.dst = (if x.self then by_.lid else x.lid) ∧ m.dstMod = (if x.self then s.modu else s.moduleOf x.modu)

/-- The status step at the end of a command, with n commands then held (R311). -/
def EndsWith (x y : EStat) (fault : Bool) (n : Nat) : Prop :=
  y.ended = x.ended + 1 ∧ y.fault = fault ∧ y.done = (!fault && decide (n = 0))

/-- Core n holds the LID and has not been saved. -/
def HoldsLid (s : State) (n : CoreId) (lid : CoreId) : Prop := (s.core n).lid = lid ∧ (s.core n).savedLid ≠ some lid

/-- From s to t a command cmd of core n that made its last effect in s ended (R21, R304, R311): its successor is released, and the
status step is made at once, or, where the successor goes to a core of this module, when its message enters its die; one whose
successor's LID is absent is handed back with its progress (log entry 9). -/
def Completes (s t : State) (n : CoreId) (by_ : Issuer) (cmd : BitVec 4) (x : Succ) (payload : List Word) (progress : Word) : Prop :=
  let e := engineOf cmd
  let steps : Bool → Prop := fun f => HoldsLid s n by_.lid → EndsWith ((s.core n).est e) ((t.core n).est e) f ((t.core n).heldCmds e)
  (s.successorAbsent x = true → HandsBack s t by_ cmd 0x03 (x.lid.setWidth 64) progress ∧ steps true) ∧
    (s.successorAbsent x = false → Releases s t by_ x payload ∧
      (s.successorHere x = false → steps false) ∧
      (s.successorHere x = true → (t.core n).est e = (s.core n).est e ∧ (t.core n).closing = (s.core n).closing ++ [(s.nextId, cmd)]))

/-! ## Tasks -/

/-- Nothing waits for the next instruction boundary of core n: no trap is held, and no frame is due to be squashed or to park (R54,
R285, R348). -/
def NoneDue (s : State) (n : CoreId) : Prop :=
  (s.core n).heldTraps = [] ∧ ∀ j, ((s.core n).bank j).squash = false ∧ ((s.core n).bank j).parkDue = false

/-- Core n holds no arrival, in its inbox or in the weir, nothing waits for its next boundary, it has no membership, and no migration
trap is due: the end of its frame starts nothing. -/
def Quiet (s : State) (n : CoreId) : Prop :=
  (∀ p, s.heldAt n p = []) ∧ NoneDue s n ∧ (s.core n).mig = false ∧ (s.core n).member = none

/-- Of the arrivals that core n holds, a is the one that a selection looks at: the first startable one of level p, with none startable
at a higher level (R45); before and after stand the others of its level. -/
def FirstHeld (s : State) (n : CoreId) (p : BitVec 3) (a : Arr) (before after : List Arr) : Prop :=
  s.heldAt n p = before ++ a :: after ∧ (∀ x ∈ before, (s.core n).startable x p = false) ∧ (s.core n).startable a p = true ∧
    ∀ q : BitVec 3, p.toNat < q.toNat → ∀ x ∈ s.heldAt n q, (s.core n).startable x q = false

/-- Core k has become d by the push of an arrival at priority p (R37, R347): the frame below sp, the registers s1 to s5, b0 to b3 as
the level's last frame left them, level and threshold, and the interrupted frame saved; at level 7 the supervisor registers say that an
arrival entered it. -/
def Started (k d : Core) (a : Arr) (p : BitVec 3) : Prop :=
  let h := a.msg.hdr
  let sp := k.sp - BitVec.ofNat 16 (k.arrSize a p)
  d.level = p.setWidth 4 ∧ d.thresh = p.setWidth 4 ∧ d.pc = bits (k.vector (hdrType h)) 0 56 ∧ d.sp = sp ∧ d.b = (k.bank p).rb ∧
    (d.bank p).live = true ∧ (d.bank p).fbase = sp ∧ (d.bank p).mtype = hdrType h ∧ (d.bank p).inst = a.inst ∧
    (d.bank p).rs 1 = sp.setWidth 64 ∧ (d.bank p).rs 2 = h ∧ (d.bank p).rs 3 = a.msg.word 0 ∧ (d.bank p).rs 4 = a.msg.word 1 ∧
    (d.bank p).rs 5 = a.msg.word 2 ∧ (∀ q : SReg, 5 < q.toNat → (d.bank p).rs q = (k.bank p).rs q) ∧ (d.bank p).v = (k.bank p).v ∧
    (k.level ≠ 0xF → d.bank k.lvl = { k.bank k.lvl with rpc := k.pc, rthresh := k.thresh, rb := k.b }) ∧
    (∀ l, l ≠ p → l ≠ k.lvl → d.bank l = k.bank l) ∧ d.epc = k.epc ∧
    (p = 7 → causeCode d.cause = (if hdrType h = 0x01 then 0x07 else 0) ∧ causeLevel d.cause = k.level ∧
      causeEntered d.cause = false ∧ d.addr = if hdrType h = 0x01 then a.msg.word 1 else k.addr) ∧
    (p ≠ 7 → d.cause = k.cause ∧ d.addr = k.addr)

/-- Core k has become d by a trap of cause c: the supervisor runs at its vector with the frame it interrupted saved, if the core was not
idle (R347). -/
def EntersSupervisor (k d : Core) (c : BitVec 5) (a : Word) (epc : BitVec 56) (async : Bool) : Prop :=
  d.level = 7 ∧ d.thresh = 7 ∧ d.pc = k.tvec ∧ d.epc = epc ∧ d.addr = a ∧ causeCode d.cause = c ∧
    causeLevel d.cause = k.level ∧ causeAsync d.cause = async ∧ causeEntered d.cause = true ∧ d.sp = k.sp ∧
    d.b = (k.bank 7).rb ∧
    (k.level ≠ 0xF → d.bank k.lvl = { k.bank k.lvl with rpc := epc, rthresh := k.thresh, rb := k.b }) ∧
    ((d.bank 7).live = true ∧ (d.bank 7).fclass = 0 ∧ (d.bank 7).fbase = k.sp ∧ (d.bank 7).claims = [] ∧
      (d.bank 7).s = (k.bank 7).s ∧ (d.bank 7).v = (k.bank 7).v ∧ (d.bank 7).acc = (k.bank 7).acc) ∧
    (∀ l, l ≠ k.lvl → l ≠ 7 → d.bank l = k.bank l) ∧ d.tcm = k.tcm ∧ d.h = k.h ∧ d.kcnt = k.kcnt ∧ d.plb = k.plb

/-- Core m has become stopped by a trap of cause c at level 7 by the instruction at an address: its frame and its supervisor registers
but k.xcause stay (R347). -/
def CoreChecked (k d : Core) (c : BitVec 5) (at_ : BitVec 56) : Prop :=
  d.stopped = true ∧ d.xcause = c ∧ d.xepc = at_ ∧ d.cause = k.cause ∧ d.epc = k.epc ∧ d.addr = k.addr ∧ d.level = k.level ∧
    d.pc = k.pc ∧ d.banks = k.banks

/-- Core k has become d by the end of the frame of level l: its stack is free again, and the highest lower frame runs where it
was interrupted; with none the core is idle (R38). -/
def Popped (k d : Core) (l : BitVec 3) : Prop :=
  d.sp = k.sp + BitVec.ofNat 16 (frameSize (k.bank l).fclass l) ∧ (d.bank l).live = false ∧ (d.bank l).claims = [] ∧
    (∀ j, j ≠ l → j ≠ 7 → d.bank j = k.bank j) ∧
    ((∀ j : BitVec 3, j.toNat < l.toNat → (k.bank j).live = false) → d.level = 0xF ∧ d.thresh = 0xF) ∧
    (∀ j : BitVec 3, j.toNat < l.toNat → (k.bank j).live = true →
      (∀ i : BitVec 3, j.toNat < i.toNat → i.toNat < l.toNat → (k.bank i).live = false) →
      d.level = j.setWidth 4 ∧ d.thresh = (k.bank j).rthresh ∧ d.b = (k.bank j).rb ∧ d.pc = (k.bank j).rpc)

end Sys2Proof.Machine
end

