-- ==== Sys2Proof/Certificates/Slice0/Obligations.lean ====
section
/-! DEFINITION. The statements for the provers, from the numbered rules of the spec. Each is true or false of the model
alone; Safety holds the words they share. -/

open Sys2Proof Sys2Proof.Machine

/-! ## Scalar instructions -/

/-- R186, and the compact forms of R166: the results of `add`, `sub`, `mul`, `mulh`, `mulhu`, `min`, `max`, `minu` and
`maxu`, computed on integers, in every state, with no other effect. -/
def Obligations.ArithmeticResults : Prop :=
  ∀ (s : State) (d a b : SReg),
    let x := s.rs a
    let y := s.rs b
    let u := s.rs d
    let wrap : Int → Word := BitVec.ofInt 64
    Retires s (.add d a b) d (wrap (x.toInt + y.toInt)) 4 ∧
    Retires s (.sub d a b) d (wrap (x.toInt - y.toInt)) 4 ∧
    Retires s (.mul d a b) d (wrap (x.toInt * y.toInt)) 4 ∧
    Retires s (.mulh d a b) d (wrap (x.toInt * y.toInt / 2 ^ 64)) 4 ∧
    Retires s (.mulhu d a b) d (wrap ((x.toNat : Int) * y.toNat / 2 ^ 64)) 4 ∧
    Retires s (.min d a b) d (if x.toInt ≤ y.toInt then x else y) 4 ∧
    Retires s (.max d a b) d (if y.toInt ≤ x.toInt then x else y) 4 ∧
    Retires s (.minu d a b) d (if x.toNat ≤ y.toNat then x else y) 4 ∧
    Retires s (.maxu d a b) d (if y.toNat ≤ x.toNat then x else y) 4 ∧
    Retires s (.compactAdd d b) d (wrap (u.toInt + y.toInt)) 2 ∧
    Retires s (.compactSub d b) d (wrap (u.toInt - y.toInt)) 2 ∧
    Retires s (.compactNeg d b) d (wrap (-y.toInt)) 2 ∧
    Retires s (.compactMul d b) d (wrap (u.toInt * y.toInt)) 2 ∧
    Retires s (.compactMin d b) d (if u.toInt ≤ y.toInt then u else y) 2 ∧
    Retires s (.compactMax d b) d (if y.toInt ≤ u.toInt then u else y) 2

/-- R187: quotients round towards zero, the remainder has the dividend's sign, and a divisor of 0 gives all ones and the
dividend; each completes in every state. -/
def Obligations.DivisionResults : Prop :=
  ∀ (s : State) (d a b : SReg),
    let x := s.rs a
    let y := s.rs b
    Retires s (.div d a b) d (if y = 0 then -1 else BitVec.ofInt 64 (x.toInt.tdiv y.toInt)) 4 ∧
    Retires s (.rem d a b) d (if y = 0 then x else BitVec.ofInt 64 (x.toInt - x.toInt.tdiv y.toInt * y.toInt)) 4 ∧
    Retires s (.divu d a b) d (if y = 0 then -1 else BitVec.ofNat 64 (x.toNat / y.toNat)) 4 ∧
    Retires s (.remu d a b) d (if y = 0 then x else BitVec.ofNat 64 (x.toNat - x.toNat / y.toNat * y.toNat)) 4

/-- R189, R190 and R198, and the compact forms of R166: bitwise results, and shifts and rotates by bits 5 to 0 of a register
or by a constant, computed on numbers, in every state, with no other effect. -/
def Obligations.LogicAndShiftResults : Prop :=
  ∀ (s : State) (d a b : SReg) (u : BitVec 6) (v : BitVec 5),
    let x := s.rs a
    let y := s.rs b
    let z := s.rs d
    let n := y.toNat % 64
    let shl : Word → Nat → Word := fun w k => BitVec.ofNat 64 (w.toNat * 2 ^ k)
    let shr : Word → Nat → Word := fun w k => BitVec.ofNat 64 (w.toNat / 2 ^ k)
    let sar : Word → Nat → Word := fun w k => BitVec.ofInt 64 (w.toInt / 2 ^ k)
    let rot : Word → Nat → Word := fun w k => BitVec.ofNat 64 (w.toNat * 2 ^ k + w.toNat / 2 ^ (64 - k))
    Retires s (.and d a b) d (x &&& y) 4 ∧ Retires s (.or d a b) d (x ||| y) 4 ∧
    Retires s (.xor d a b) d (x ^^^ y) 4 ∧ Retires s (.andn d a b) d (x &&& ~~~y) 4 ∧
    Retires s (.shl d a b) d (shl x n) 4 ∧ Retires s (.shr d a b) d (shr x n) 4 ∧
    Retires s (.sar d a b) d (sar x n) 4 ∧ Retires s (.rot d a b) d (rot x n) 4 ∧
    Retires s (.shlImmediate d a u) d (shl x u.toNat) 4 ∧ Retires s (.shrImmediate d a u) d (shr x u.toNat) 4 ∧
    Retires s (.sarImmediate d a u) d (sar x u.toNat) 4 ∧ Retires s (.rotImmediate d a u) d (rot x u.toNat) 4 ∧
    Retires s (.compactMov d b) d y 2 ∧ Retires s (.compactAnd d b) d (z &&& y) 2 ∧
    Retires s (.compactOr d b) d (z ||| y) 2 ∧ Retires s (.compactXor d b) d (z ^^^ y) 2 ∧
    Retires s (.compactAndn d b) d (z &&& ~~~y) 2 ∧ Retires s (.compactShl d b) d (shl z n) 2 ∧
    Retires s (.compactShr d b) d (shr z n) 2 ∧ Retires s (.compactSar d b) d (sar z n) 2 ∧
    Retires s (.compactShlImmediate d v) d (shl z v.toNat) 2 ∧
    Retires s (.compactShrImmediate d v) d (shr z v.toNat) 2 ∧
    Retires s (.compactSarImmediate d v) d (sar z v.toNat) 2 ∧
    Retires s (.compactRotImmediate d v) d (rot z v.toNat) 2

/-- R192, R193 and R201: a compare writes 1 where its relation of R165 holds and 0 where it does not; `sel` takes s_a where
s_c is not 0. -/
def Obligations.CompareAndSelect : Prop :=
  ∀ (s : State) (d a b c : SReg) (r : Cond) (imm : BitVec 11),
    (Relation r (s.rs a) (s.rs b) → Retires s (.cmp d a b r) d 1 4) ∧
    (¬ Relation r (s.rs a) (s.rs b) → Retires s (.cmp d a b r) d 0 4) ∧
    (Relation r (s.rs a) (imm.signExtend 64) → Retires s (.cmpImmediate d a r imm) d 1 4) ∧
    (¬ Relation r (s.rs a) (imm.signExtend 64) → Retires s (.cmpImmediate d a r imm) d 0 4) ∧
    Retires s (.sel d a b c) d (if s.rs c ≠ 0 then s.rs a else s.rs b) 4

/-- R191 and R194, and the compact forms of R166: the counts of `clz`, `ctz` and `pop`, by the bits of the source; `bext`, `bexts`
and `bins` on the field of lenm1 + 1 bits from bit pos, bit by bit, where the field ends within the word. -/
def Obligations.CountAndFieldResults : Prop :=
  ∀ (s : State) (d a : SReg) (pos lenm1 : BitVec 6),
    let x := s.rs a
    (∃ k : Nat, k ≤ 64 ∧ (∀ i, 64 - k ≤ i → x.getLsbD i = false) ∧ (k < 64 → x.getLsbD (63 - k) = true) ∧
      Retires s (.clz d a) d (BitVec.ofNat 64 k) 4 ∧ Retires s (.compactClz d a) d (BitVec.ofNat 64 k) 2) ∧
    (∃ k : Nat, k ≤ 64 ∧ (∀ i, i < k → x.getLsbD i = false) ∧ (k < 64 → x.getLsbD k = true) ∧
      Retires s (.ctz d a) d (BitVec.ofNat 64 k) 4 ∧ Retires s (.compactCtz d a) d (BitVec.ofNat 64 k) 2) ∧
    Retires s (.pop d a) d (BitVec.ofNat 64 ((List.range 64).filter fun i => x.getLsbD i).length) 4 ∧
    Retires s (.compactPop d a) d (BitVec.ofNat 64 ((List.range 64).filter fun i => x.getLsbD i).length) 2 ∧
    (pos.toNat + lenm1.toNat ≤ 63 →
      ∃ x y z : Word,
        Retires s (.bext d a pos lenm1) d x 4 ∧ Retires s (.bexts d a pos lenm1) d y 4 ∧
        Retires s (.bins d a pos lenm1) d z 4 ∧
        ∀ j, j < 64 →
          x.getLsbD j = (decide (j ≤ lenm1.toNat) && (s.rs a).getLsbD (pos.toNat + j)) ∧
          y.getLsbD j = (s.rs a).getLsbD (pos.toNat + min j lenm1.toNat) ∧
          z.getLsbD j = (if pos.toNat ≤ j ∧ j ≤ pos.toNat + lenm1.toNat then (s.rs a).getLsbD (j - pos.toNat)
            else (s.rs d).getLsbD j))

/-- R197, R199 and R200, and the compact forms of R166: the immediate is sign-extended; `movh` replaces one 16-bit slice. -/
def Obligations.ImmediateResults : Prop :=
  ∀ (s : State) (d a : SReg) (i14 : BitVec 14) (i19 : BitVec 19) (h : BitVec 2) (i16 : BitVec 16) (i5 : BitVec 5),
    let x := s.rs a
    let z := s.rs d
    Retires s (.addImmediate d a i14) d (BitVec.ofInt 64 (x.toInt + i14.toInt)) 4 ∧
    Retires s (.andImmediate d a i14) d (x &&& i14.signExtend 64) 4 ∧
    Retires s (.orImmediate d a i14) d (x ||| i14.signExtend 64) 4 ∧
    Retires s (.xorImmediate d a i14) d (x ^^^ i14.signExtend 64) 4 ∧
    Retires s (.li d i19) d (BitVec.ofInt 64 i19.toInt) 4 ∧
    (∃ y : Word, Retires s (.movh d h i16) d y 4 ∧ ∀ j, j < 64 →
      y.getLsbD j = if j / 16 = h.toNat then i16.getLsbD (j % 16) else z.getLsbD j) ∧
    Retires s (.compactLi d i5) d (BitVec.ofInt 64 i5.toInt) 2 ∧
    Retires s (.compactAddImmediate d i5) d (BitVec.ofInt 64 (z.toInt + i5.toInt)) 2 ∧
    Retires s (.compactAndImmediate d i5) d (z &&& i5.signExtend 64) 2 ∧
    Retires s (.compactXorImmediate d i5) d (z ^^^ i5.signExtend 64) 2

/-- R195: `gaddr` traps with cause 0x02 on a table that is not a multiple of 64, and with 0x03 on one that ends past the TCM
or, below level 7, past k.slim; on a table whose words can be read, with no sync read under way (R113) and no atomic of the core ahead
(R120), it writes what GAddrMap of
R106 gives, or takes the trap that it names. -/
def Obligations.GaddrResults : Prop :=
  ∀ (s : State) (d a b : SReg),
    let t := s.rs b
    (t.toNat % 64 ≠ 0 → Traps s (.gaddr d a b) 0x02 t) ∧
    (t.toNat % 64 = 0 → 0xC000 < t.toNat + 64 → Traps s (.gaddr d a b) 0x03 t) ∧
    (t.toNat % 64 = 0 → s.me.level ≠ 7 → s.me.slim.toNat < t.toNat + 64 → Traps s (.gaddr d a b) 0x03 t) ∧
    (∀ tab, t.toNat % 64 = 0 → t.toNat + 64 ≤ 0xC000 → (s.me.level = 7 ∨ t.toNat + 64 ≤ s.me.slim.toNat) →
      s.me.flight = [] → s.me.amoWait = false →
      s.ownWords t.toNat 8 = .ok tab →
      match gaddrMap tab t (s.rs a) with
      | .ok (lid, off) => Retires s (.gaddr d a b) d (BitVec.ofNat 64 (lid.toNat * 65536 + off % 65536)) 4
      | .error e => exec (.gaddr d a b) s = .next (s.stop e)) ∧
    (t.toNat % 64 = 0 → t.toNat + 64 ≤ 0xC000 → s.me.sbuf = [] → s.me.flight = [] → s.me.amoWait = false →
      s.me.tcmPoison = [] →
      s.ownWords t.toNat 8 = .ok ((List.range 8).map fun i => s.me.tcmWord (t.toNat + 8 * i)))

/-! ## Control transfer -/

/-- R203 to R205 and R166: a transfer whose target is an even address goes there, and the two calls leave pc + 4 in b3; an
untaken branch goes on behind itself; R205 and R206: `getb`, `setb` and `pbt` move a branch target, with no check and no other
effect.
R202: a taken transfer traps with cause 0x02 on an odd target, else with cause 0x03 on one below 0 or from 2^56 on, with
k.addr the target and before any register changes. -/
def Obligations.TransferResults : Prop :=
  (∀ (s : State) (d a : SReg) (b : BReg) (r : Cond) (o11 : BitVec 11) (o24 : BitVec 24) (o5 : BitVec 5)
     (o19 : BitVec 19),
     let good : Int → Prop := fun t => t % 2 = 0 ∧ 0 ≤ t ∧ t < 2 ^ 56
     let rel : Int → Int := fun off => s.pc.toNat + 2 * off
     let jumps : Instr → Int → Prop := fun i t => good t → GoesTo s i (BitVec.ofInt 56 t)
     let calls : Instr → Int → Prop := fun i t => good t →
       ∃ u, exec i s = .next u ∧ KeepsButTargets s u ∧ SameMemory s u ∧ u.pc = BitVec.ofInt 56 t ∧
         (∀ q, u.rb q = if q = 3 then BitVec.ofNat 64 (s.pc.toNat + 4) else s.rb q)
     (Relation r (s.rs d) (s.rs a) → jumps (.bCond d a r o11) (rel o11.toInt)) ∧
     (¬ Relation r (s.rs d) (s.rs a) → GoesTo s (.bCond d a r o11) (s.pc + 4)) ∧
     jumps (.b o24) (rel o24.toInt) ∧ calls (.call o24) (rel o24.toInt) ∧
     jumps .ret (s.rb 3).toNat ∧ jumps (.jbt b) (s.rb b).toNat ∧
     (Relation r (s.rs d) (s.rs a) → jumps (.jbtCond d a b r) (s.rb b).toNat) ∧
     (¬ Relation r (s.rs d) (s.rs a) → GoesTo s (.jbtCond d a b r) (s.pc + 4)) ∧
     calls (.callb b) (s.rb b).toNat ∧
     (s.rs d = 0 → jumps (.compactBEq d o5) (rel o5.toInt)) ∧
     (s.rs d ≠ 0 → GoesTo s (.compactBEq d o5) (s.pc + 2)) ∧
     (s.rs d ≠ 0 → jumps (.compactBNe d o5) (rel o5.toInt)) ∧
     (s.rs d = 0 → GoesTo s (.compactBNe d o5) (s.pc + 2)) ∧
     jumps .compactRet (s.rb 3).toNat ∧ jumps (.compactJbt b) (s.rb b).toNat ∧
     Retires s (.getb d b) d (s.rb b) 4 ∧ RetiresB s (.setb d b) b (s.rs d) ∧
     RetiresB s (.pbt b o19) b (BitVec.ofInt 64 (s.pc.toNat + 2 * o19.toInt))) ∧
  (∀ (s : State) (d a : SReg) (b : BReg) (r : Cond) (o11 : BitVec 11) (o24 : BitVec 24) (o5 : BitVec 5),
     let rel : Int → Int := fun off => s.pc.toNat + 2 * off
     let checked : Instr → Int → Prop := fun i t =>
       (t % 2 = 1 → Traps s i 0x02 (BitVec.ofInt 64 t)) ∧
       (t % 2 = 0 → (t < 0 ∨ 2 ^ 56 ≤ t) → Traps s i 0x03 (BitVec.ofInt 64 t))
     (Relation r (s.rs d) (s.rs a) → checked (.bCond d a r o11) (rel o11.toInt)) ∧
     checked (.b o24) (rel o24.toInt) ∧ checked (.call o24) (rel o24.toInt) ∧
     checked .ret (s.rb 3).toNat ∧ checked (.jbt b) (s.rb b).toNat ∧
     (Relation r (s.rs d) (s.rs a) → checked (.jbtCond d a b r) (s.rb b).toNat) ∧
     checked (.callb b) (s.rb b).toNat ∧
     (s.rs d = 0 → checked (.compactBEq d o5) (rel o5.toInt)) ∧
     (s.rs d ≠ 0 → checked (.compactBNe d o5) (rel o5.toInt)) ∧
     checked .compactRet (s.rb 3).toNat ∧ checked (.compactJbt b) (s.rb b).toNat)
/-! ## Swarms -/

/-- R209, R210, R212 to R214: `swform` ends the membership of the running level, makes the member and writes 1 to a leader and 2 to
another core; it writes 0 where a membership of another level is held, or where the LIDs are no row run around the core, which then
holds none. A join point opens the window of its address, and leaves the member ganged where its leader, another core, holds a
membership of the same swarm that names itself and stands at the same address; where the core is itself the leader, the members
of its cluster that stand at the address are ganged. `swleave` ends the membership of the running level; the window's end and a detachment
change the membership alone. -/
def Obligations.SwarmResults : Prop :=
  ∀ (s : State) (d a b : SReg) (n : CoreId) (m y : Member),
    let x := s.rs a
    let k := (s.rs b).toNat
    let l : CoreId := bits x 0 18
    let run : Prop := x.toNat < 2 ^ 18 ∧ 2 ≤ k ∧ k ≤ 16 ∧ l.toNat ≤ s.me.lid.toNat ∧
      s.me.lid.toNat ≤ l.toNat + k - 1 ∧ s.rowRun l k = true
    let meets : State → Member → Prop := fun u w =>
      s.physOf w.lead ≠ s.cur ∧ ∃ z, (u.core (s.physOf w.lead)).member = some z ∧ z.lead = (u.core (s.physOf w.lead)).lid ∧
        z.lead = w.lead ∧ z.n = w.n ∧ z.joinAt = some s.pc
    let joins : State → State → Member → Prop := fun u t w =>
      (meets u w → t.me.member = some { w with ganged := true, joinAt := none, fwd := [] }) ∧
      (¬ meets u w → t.me.member = some { w with joinAt := some s.pc })
    let other : Prop := s.me.member = some m ∧ m.level ≠ s.me.lvl
    (¬ (∃ w, s.me.member = some w ∧ w.level ≠ s.me.lvl) → run →
      ∃ t, exec (.swform d a b) s = .next t ∧ KeepsButMembers s t ∧ SameMemory s t ∧
        ReadsInto s t d (if s.me.lid = l then 1 else 2) 4 ∧
        joins (s.leave s.cur) t
          { lead := l, n := BitVec.ofNat 5 k, level := s.me.lvl, ganged := false, joinAt := none, fwd := [] }) ∧
    (s.me.member = some m → m.level = s.me.lvl → ¬ run →
      ∃ t, exec (.swform d a b) s = .next t ∧ KeepsButMembers s t ∧ SameMemory s t ∧ ReadsInto s t d 0 4 ∧ t.me.member = none) ∧
    (s.me.member = none → ¬ run → Retires s (.swform d a b) d 0 4) ∧
    (other → Retires s (.swform d a b) d 0 4) ∧
    ((s.me.member = none ∨ other) →
      GoesTo s .swjoin (s.pc + 4) ∧ GoesTo s .compactSwjoin (s.pc + 2) ∧
      GoesTo s .swleave (s.pc + 4) ∧ GoesTo s .compactSwleave (s.pc + 2)) ∧
    (s.me.member = some m → m.level = s.me.lvl →
      (∃ t, exec .swjoin s = .next t ∧ KeepsButMembers s t ∧ SameMemory s t ∧ PassesBy s t 4 ∧ joins s t m) ∧
      (∃ t, exec .compactSwjoin s = .next t ∧ KeepsButMembers s t ∧ SameMemory s t ∧ PassesBy s t 2 ∧ joins s t m) ∧
      (∃ t, exec .swleave s = .next t ∧ KeepsButMembers s t ∧ SameMemory s t ∧ PassesBy s t 4 ∧ t.me.member = none) ∧
      (∃ t, exec .compactSwleave s = .next t ∧ KeepsButMembers s t ∧ SameMemory s t ∧ PassesBy s t 2 ∧
        t.me.member = none)) ∧
    (s.me.member = some m → m.level = s.me.lvl → m.lead = s.me.lid → s.physOf m.lead = s.cur → n ≠ s.cur →
      clusterOf n = clusterOf s.cur → (s.core n).member = some y → y.lead = m.lead → y.n = m.n → y.joinAt = some s.pc →
      ∃ t, exec .swjoin s = .next t ∧ (t.core n).member = some { y with ganged := true, joinAt := none, fwd := [] }) ∧
    ((s.core n).member = some m →
      exec (.swarmJoinTimeout n) s = .next (s.updCore n fun c => { c with member := some { m with joinAt := none } }) ∧
      exec (.swarmDetach n) s = .next (s.updCore n fun c => { c with member := some { m with ganged := false, joinAt := none, fwd := [] } }))

/-! ## Loads and stores -/

/-- R216, steps 1 and 2, and R70, R71 for the TCM: an access that is not aligned to its size traps with cause 0x02, one from
0xC000 on with 0x03, and below level 7 one outside the named area, the running frame and, for a load, the supervisor's
vector area with 0x03; in each case k.addr is the effective address. R68: a load, a store, an atomic or a sync access of each form that
majors 0x1C to 0x24 and the compact formats have (a compact form at an offset of 8u is always aligned), and a vector load or store, that
is not aligned to its size traps so; `ldq` does where its queue register is bound to receive a stream, since the model tests the binding
first (the model's choice, log entry 13). R432: in the management space each of these traps with cause 0x03 at level 7, aligned or
not, but for aligned 8-byte loads and stores. -/
def Obligations.AccessTraps : Prop :=
  ∀ (s : State) (d a b : SReg) (v : VReg) (z : LdSize) (y : MemSize) (off : BitVec 11) (sp : Space) (sc : Scope) (r : AOrd)
    (op : AmoOp) (m : SyncMode) (c h : Bool) (q : QReg) (tag : BitVec 3) (u : BitVec 5),
    let ea := s.rs a + off.signExtend 64
    let x := s.rs a
    let o := ea.toNat
    let framed := s.rs 1 + BitVec.ofNat 64 (8 * u.toNat)
    let named : Prop := s.me.level = 7 ∨ o < s.me.slim.toNat ∨
      (s.me.here.fbase.toNat ≤ o ∧ o < s.me.here.fbase.toNat + frameSize s.me.here.fclass s.me.lvl)
    let vectors : Prop := s.me.vbase.toNat ≤ o ∧ o < s.me.vbase.toNat + 0xA00
    let mgmt : Space → Word → Prop := fun sp e => sp = .global ∧ s.me.level = 7 ∧ e.toNat / 2 ^ 48 = 0xFF
    let bound : Prop := (s.me.rq q).kind = 3 ∧ (s.me.rq q).level = s.me.lvl ∧ s.me.streaming q = false
    (o % z.bytes ≠ 0 → Traps s (.ldT d a z off) 0x02 ea) ∧
    (o % y.bytes ≠ 0 → Traps s (.stT d a y off) 0x02 ea) ∧
    (o % z.bytes = 0 → 0xBFFF < o → Traps s (.ldT d a z off) 0x03 ea) ∧
    (o % y.bytes = 0 → 0xBFFF < o → Traps s (.stT d a y off) 0x03 ea) ∧
    (o % z.bytes = 0 → o ≤ 0xBFFF → ¬ named → ¬ vectors → Traps s (.ldT d a z off) 0x03 ea) ∧
    (o % y.bytes = 0 → o ≤ 0xBFFF → ¬ named → Traps s (.stT d a y off) 0x03 ea) ∧
    (s.me.tcmAllowed o true = true ↔ named) ∧ (s.me.tcmAllowed o false = true ↔ named ∨ vectors) ∧
    (x.toNat % 8 ≠ 0 → Traps s (.compactLdT d a) 0x02 x ∧ Traps s (.compactStT d a) 0x02 x) ∧
    (framed.toNat % 8 ≠ 0 → Traps s (.compactLdTFrame d u) 0x02 framed ∧ Traps s (.compactStTFrame d u) 0x02 framed) ∧
    (o % z.bytes ≠ 0 → Traps s (.ldC d a z off) 0x02 ea ∧ (¬ mgmt .global ea → Traps s (.ld d a z off) 0x02 ea)) ∧
    (o % y.bytes ≠ 0 → Traps s (.stC d a y off) 0x02 ea ∧ (¬ mgmt .global ea → Traps s (.st d a y off) 0x02 ea)) ∧
    (x.toNat % y.bytes ≠ 0 → ¬ mgmt sp x → Traps s (.ldAcq d a y sp sc) 0x02 x ∧ Traps s (.stRel a b y sp sc) 0x02 x) ∧
    (x.toNat % 8 ≠ 0 → ¬ mgmt (if c then .scratch else .global) x → Traps s (.amo d a b c sc r op) 0x02 x) ∧
    (x.toNat % 8 ≠ 0 → ¬ mgmt sp x → Traps s (.feFill a b sp m sc) 0x02 x ∧ Traps s (.feEmpty a b sp sc) 0x02 x ∧
      Traps s (.feTest d a sp) 0x02 x ∧ (bound → Traps s (.ldq q a tag sp m sc) 0x02 x)) ∧
    (x.toNat % 8 ≠ 0 → ¬ mgmt .global x → Traps s (.compactLd d a) 0x02 x ∧ Traps s (.compactSt d a) 0x02 x) ∧
    (o % (if h then 8 else 16) ≠ 0 → ¬ mgmt sp ea → Traps s (.vld v a sp h off) 0x02 ea ∧ Traps s (.vst v a sp h off) 0x02 ea) ∧
    (mgmt .global ea →
      ((z ≠ .b8 ∨ o % 8 ≠ 0) → Traps s (.ld d a z off) 0x03 ea) ∧ ((y ≠ .b8 ∨ o % 8 ≠ 0) → Traps s (.st d a y off) 0x03 ea) ∧
      Traps s (.vld v a .global h off) 0x03 ea ∧ Traps s (.vst v a .global h off) 0x03 ea) ∧
    (mgmt .global x →
      (x.toNat % 8 ≠ 0 → Traps s (.compactLd d a) 0x03 x ∧ Traps s (.compactSt d a) 0x03 x) ∧
      Traps s (.ldAcq d a y .global sc) 0x03 x ∧ Traps s (.stRel a b y .global sc) 0x03 x ∧
      Traps s (.amo d a b false sc r op) 0x03 x ∧ Traps s (.feFill a b .global m sc) 0x03 x ∧
      Traps s (.feEmpty a b .global sc) 0x03 x ∧ Traps s (.feTest d a .global) 0x03 x ∧
      (bound → Traps s (.ldq q a tag .global m sc) 0x03 x))

/-- R219 and R113 for the TCM: with no sync read under way and no atomic of the core ahead (R120), an allowed aligned load of a word that is not poisoned writes the bytes from ea, the first the
least significant, as the core's own buffered stores leave them, extended by the size's suffix; the compact forms load 8
bytes. -/
def Obligations.TcmLoadResults : Prop :=
  ∀ (s : State) (d a : SReg) (z : LdSize) (off : BitVec 11) (u : BitVec 5),
    let ok : Nat → Nat → Prop := fun o n => o % n = 0 ∧ o ≤ 0xBFFF ∧ s.me.tcmAllowed o false = true ∧
      poisonGet s.me.tcmPoison (o / 8) = false ∧ s.me.flight = [] ∧ s.me.amoWait = false
    let value : Nat → Nat → Nat := fun o n =>
      joinBytes ((List.range n).map fun i => fwdByte s.me.sbuf .tcm s.me.dom (o + i) (s.me.tcm.get (o + i)))
    let loads : Instr → Word → Prop := fun i ea => ok ea.toNat 8 → Retires s i d (BitVec.ofNat 64 (value ea.toNat 8)) 2
    (ok (s.rs a + off.signExtend 64).toNat z.bytes →
      Retires s (.ldT d a z off) d (z.extend (value (s.rs a + off.signExtend 64).toNat z.bytes)) 4) ∧
    loads (.compactLdT d a) (s.rs a) ∧
    loads (.compactLdTFrame d u) (s.rs 1 + BitVec.ofNat 64 (8 * u.toNat)) ∧
    loads (.compactLdTAbsolute d u) (BitVec.ofNat 64 (8 * u.toNat)) ∧
    (∀ v, (LdSize.n8.extend v).toNat = v % 2 ^ 8 ∧ (LdSize.n16.extend v).toNat = v % 2 ^ 16 ∧
      (LdSize.n32.extend v).toNat = v % 2 ^ 32 ∧ (LdSize.b8.extend v).toNat = v % 2 ^ 64 ∧
      (LdSize.i8.extend v).toInt = (BitVec.ofNat 8 v).toInt ∧ (LdSize.i16.extend v).toInt = (BitVec.ofNat 16 v).toInt ∧
      (LdSize.i32.extend v).toInt = (BitVec.ofNat 32 v).toInt)

/-- R217 and R219 for the TCM: an allowed aligned store of a firm frame, or of a tentative one into its own frame, with room in
the store buffer retires with its entry there; memory changes when the entry drains; a tentative one elsewhere parks (R236).
R113: with no sync read under way and no atomic of the core ahead, STORE_BUFFER_DRAIN performs the oldest plain store to the TCM: its bytes, the first the least significant, and no
other byte of any memory; with R219, an 8-byte load from the TCM address just stored to gives the value stored while the store
is still in the buffer. -/
def Obligations.TcmStoreResults : Prop :=
  (∀ (s : State) (x a : SReg) (z : MemSize) (off : BitVec 11) (u : BitVec 5),
     let ok : Nat → Nat → Prop := fun o n => o % n = 0 ∧ o ≤ 0xBFFF ∧ s.me.tcmAllowed o true = true ∧
       s.me.sbuf.length < 16 ∧ (s.tentative = false ∨
         (s.me.here.fbase.toNat ≤ o ∧ o < s.me.here.fbase.toNat + frameSize s.me.here.fclass s.me.lvl))
     let entry : Nat → Nat → StoreEntry := fun o n =>
       { space := .tcm, va := o, pa := 0, size := n, data := s.rs x, mode := none, tag := 0, dom := s.me.dom,
         region := s.me.region, scope := .core }
     let elsewhere : Nat → Nat → Prop := fun o n => o % n = 0 ∧ o ≤ 0xBFFF ∧ s.me.tcmAllowed o true = true ∧
       s.tentative = true ∧ (o < s.me.here.fbase.toNat ∨
         s.me.here.fbase.toNat + frameSize s.me.here.fclass s.me.lvl ≤ o)
     let stores : Instr → Word → Prop := fun i ea =>
       (ok ea.toNat 8 → ∃ t, exec i s = .next t ∧ Buffers s t (entry ea.toNat 8) 2) ∧
       (elsewhere ea.toNat 8 → Parks s i 6)
     (ok (s.rs a + off.signExtend 64).toNat z.bytes →
       ∃ t, exec (.stT x a z off) s = .next t ∧ Buffers s t (entry (s.rs a + off.signExtend 64).toNat z.bytes) 4) ∧
     (elsewhere (s.rs a + off.signExtend 64).toNat z.bytes → Parks s (.stT x a z off) 6) ∧
     stores (.compactStT x a) (s.rs a) ∧
     stores (.compactStTFrame x u) (s.rs 1 + BitVec.ofNat 64 (8 * u.toNat)) ∧
     stores (.compactStTAbsolute x u) (BitVec.ofNat 64 (8 * u.toNat))) ∧
  (∀ (s : State) (n : CoreId) (e : StoreEntry) (r : List StoreEntry) (x d a : SReg) (off : BitVec 11),
     let o := (s.rs a + off.signExtend 64).toNat
     ((s.core n).sbuf = e :: r → (s.core n).flight = [] → (s.core n).amoWait = false → e.mode = none → e.space = .tcm →
       ∃ t, exec (.storeBufferDrain n) s = .next t ∧ (t.core n).sbuf = r ∧ (t.core n).acks = (s.core n).acks ++ [e.tag] ∧
         (∀ i, i < e.size → i < 8 → (t.core n).tcm.get (e.va + i) = bits e.data (8 * i) 8) ∧
         (∀ a, a < e.va ∨ e.va + e.size ≤ a → (t.core n).tcm.get a = (s.core n).tcm.get a) ∧
         (∀ m, m ≠ n → t.core m = s.core m) ∧ t = { s with cores := t.cores } ∧
         t.core n = { s.core n with tcm := (t.core n).tcm, tcmPoison := (t.core n).tcmPoison, sbuf := r,
                                    acks := (s.core n).acks ++ [e.tag] }) ∧
     (o % 8 = 0 → o ≤ 0xBFFF → s.me.tcmAllowed o true = true → s.me.sbuf.length < 16 →
       (s.tentative = false ∨ (s.me.here.fbase.toNat ≤ o ∧ o < s.me.here.fbase.toNat + frameSize s.me.here.fclass s.me.lvl)) →
       poisonGet s.me.tcmPoison (o / 8) = false → s.me.flight = [] → s.me.amoWait = false →
       ∃ t, exec (.stT x a .b8 off) s = .next t ∧ Retires t (.ldT d a .b8 off) d (s.rs x) 4))


/-- R219, R236 and R432: loads and stores of the scratchpad and of global space. Where the checks of R216 pass and the word is
not poisoned, a load writes the extended bytes and leaves every stored byte alone; a store of a firm frame puts its entry
into the buffer of the state that the checks leave; a tentative one parks at a store to the scratchpad, and its global store is
provisional where the quota and the set have room (R85, R86), else it parks. In the management space an 8-byte access at level 7 with an empty
store buffer, no sync read under way and no atomic ahead reads or writes the register it names.
R216 steps 2 to 4 for global space: a load or store at 2^56 or beyond or in the management space, a load without the read right or a
store without the write right in the PLB traps with cause 0x03; one whose page is absent traps with cause 0x04, or parks where the entry's
akind is 1 (R390); k.addr is the address; one to a page that the walker finds present, with the rights, passes. For the scratchpad: an
offset beyond 0x3FFFF, an invalid entry of the page map, and for a store an entry without its wr bit, trap with cause 0x03 and
k.addr the offset (R76); where the page is not resident, or the scratchpad is gated, the read right and the translation of the backing
address are checked, with causes 0x03 and 0x04 and k.addr the backing address (R78). -/
def Obligations.ScratchAndGlobalAccesses : Prop :=
  (∀ (s : State) (d a : SReg) (z : LdSize) (y : MemSize) (off : BitVec 11) (u : BitVec 5),
     let ea := s.rs a + off.signExtend 64
     let x8 := BitVec.ofNat 64 (8 * u.toNat)
     let loads : Space → Instr → Word → Nat → (Nat → Word) → Nat → Prop := fun sp i e n f len =>
       ∀ t p w bs, s.me.level ≠ 0xF → s.check sp e n true false false = .ok (t, p) → t.loadWord sp p n = .ok (w, bs) →
         ∃ r, exec i s = .next r ∧ ReadsInto s r d (f (joinBytes bs)) len ∧ SameStores w r
     let stores : Space → Instr → Word → Nat → Nat → Prop := fun sp i e n len =>
       ∀ t p, s.tentative = false → s.check sp e n false true false = .ok (t, p) → t.me.sbuf.length < 16 →
         ∃ r, exec i s = .next r ∧
           Buffers t r { space := sp, va := p.va, pa := p.pa, size := n, data := s.rs d, mode := none, tag := 0,
                         dom := s.me.dom, region := s.me.region, scope := .core } len
     let provisional : Instr → Word → Nat → Nat → Prop := fun i e n len =>
       ∀ t p x, s.me.here.inst = some x → x.tentative = true → s.check .global e n false true false = .ok (t, p) →
         (t.provRoom x (t.live p.pa) = true → ∃ r, exec i s = .next r ∧ PassesBy t r len ∧ SameMemory t r ∧ r.me.sbuf = t.me.sbuf ∧
           r.prov = t.prov ++ [{ launch := x.id, index := x.index, pa := t.live p.pa, va := p.va, dom := s.me.dom,
                                 data := splitBytes n (s.rs d).toNat }]) ∧
         (t.provRoom x (t.live p.pa) = false → exec i s = .next (t.stop (.park 5 0)))
     let parks : Instr → Word → Nat → Prop := fun i e n =>
       s.tentative = true → s.checkEa .scratch e n false true = .ok () → Parks s i 6
     let mgmt : Word → Prop := fun e => s.me.level = 7 ∧ e.toNat < 2 ^ 56 ∧ e.toNat / 2 ^ 48 = 0xFF ∧ e.toNat % 8 = 0 ∧
       s.me.sbuf = [] ∧ s.me.flight = [] ∧ s.me.amoWait = false
     loads .scratch (.ldC d a z off) ea z.bytes z.extend 4 ∧ loads .global (.ld d a z off) ea z.bytes z.extend 4 ∧
     loads .scratch (.compactLdC d u) x8 8 (BitVec.ofNat 64) 2 ∧
     loads .global (.compactLd d a) (s.rs a) 8 (BitVec.ofNat 64) 2 ∧
     stores .scratch (.stC d a y off) ea y.bytes 4 ∧ stores .global (.st d a y off) ea y.bytes 4 ∧
     stores .scratch (.compactStC d u) x8 8 2 ∧ stores .global (.compactSt d a) (s.rs a) 8 2 ∧
     parks (.stC d a y off) ea y.bytes ∧ parks (.compactStC d u) x8 8 ∧
     provisional (.st d a y off) ea y.bytes 4 ∧ provisional (.compactSt d a) (s.rs a) 8 2 ∧
     (mgmt ea → Retires s (.ld d a .b8 off) d (s.mgmtRead ea.toNat) 4) ∧
     (mgmt ea → (s.mgmtWrite ea.toNat (s.rs d)).me.level = 7 →
       exec (.st d a .b8 off) s = .next ((s.mgmtWrite ea.toNat (s.rs d)).advance 4))) ∧
  (∀ (s : State) (d a : SReg) (z : LdSize) (y : MemSize) (off : BitVec 11) (pa : Nat) (t : State),
     let ea := s.rs a + off.signExtend 64
     let o := ea.toNat
     let rights := s.me.rights (BitVec.ofNat 56 o) (s.me.level == 7)
     let found : Nat → Xlate → Prop := fun v x => s.translate (dieOf s.cur) (BitVec.ofNat 56 v) s.me.sbuf = (t, x)
     let device : Prop := o < 2 ^ 56 ∧ o / 2 ^ 48 ≠ 0xFF
     let fails : Instr → Bool → Prop := fun i right =>
       (2 ^ 56 ≤ o → Traps s i 0x03 ea) ∧
       (o / 2 ^ 48 = 0xFF → s.me.level ≠ 7 → Traps s i 0x03 ea) ∧
       (device → right = false → Traps s i 0x03 ea) ∧
       (device → right = true → found o (.absent 0 false) → exec i s = .next (t.takeTrap s.cur 0x04 ea s.pc false)) ∧
       (device → right = true → found o (.absent 1 false) → exec i s = .next (t.stop (.park 8 ea)))
     (o % z.bytes = 0 → fails (.ld d a z off) rights.1) ∧ (o % y.bytes = 0 → fails (.st d a y off) rights.2.1) ∧
     (o / 2 ^ 48 = 0xFF → o % z.bytes = 0 → z ≠ .b8 → Traps s (.ld d a z off) 0x03 ea) ∧
     (device → found o (.page pa) →
       (o % z.bytes = 0 → rights.1 = true →
         s.check .global ea z.bytes true false false = .ok (t, { loc := .mem pa, va := o, pa := pa })) ∧
       (o % y.bytes = 0 → rights.2.1 = true →
         s.check .global ea y.bytes false true false = .ok (t, { loc := .mem pa, va := o, pa := pa }))) ∧
     let entry := s.me.pageEntry o
     let b := (bits entry 12 44 : BitVec 44).toNat * 4096 + o % 4096
     let back : Word := BitVec.ofNat 64 b
     let away : Prop := (s.cluster (clusterOf s.cur)).gstate ≠ 0 ∨ s.frameAt (clusterOf s.cur) s.me.dom b = none
     let right := (s.me.rights (BitVec.ofNat 56 b) (s.me.level == 7)).1
     let outside : Instr → Bool → Prop := fun i open_ =>
       (0x40000 ≤ o → Traps s i 0x03 ea) ∧ (o < 0x40000 → open_ = false → Traps s i 0x03 ea)
     let behind : Instr → Prop := fun i =>
       (b / 2 ^ 48 = 0xFF ∨ right = false → Traps s i 0x03 back) ∧
       (b / 2 ^ 48 ≠ 0xFF → right = true → found b (.absent 0 false) →
         exec i s = .next (t.takeTrap s.cur 0x04 back s.pc false))
     let reads : Bool := entry.getLsbD 0
     let writes : Bool := entry.getLsbD 0 && entry.getLsbD 1
     (o % z.bytes = 0 → outside (.ldC d a z off) reads ∧ (o < 0x40000 → reads = true → away → behind (.ldC d a z off))) ∧
     (o % y.bytes = 0 → outside (.stC d a y off) writes ∧
       (o < 0x40000 → writes = true → s.tentative = false → away → behind (.stC d a y off))))


/-! ## Ordering, atomics and sync words -/

/-- R114, R117 and R220: `ld.acq` drains the buffer, discards the die's copies at module or system scope, and reads the word
from then on; `st.rel` of a firm frame drains the buffer and publishes the die's stores before its own entry follows; a tentative
one parks (R236). -/
def Obligations.AcquireAndRelease : Prop :=
  ∀ (s : State) (d a b : SReg) (z : MemSize) (sp : Space) (sc : Scope) (t u : State) (p : Acc),
    (∀ v bs, s.check sp (s.rs a) z.bytes true false false = .ok (t, p) → t.drain t.cur = .ok u →
      (u.acquireAt (dieOf u.cur) sc).loadWord sp p z.bytes = .ok (v, bs) →
      ∃ r, exec (.ldAcq d a z sp sc) s = .next r ∧ ReadsInto u r d (BitVec.ofNat 64 (joinBytes bs)) 4) ∧
    (s.check sp (s.rs a) z.bytes false true false = .ok (t, p) → s.tentative = false → t.drain t.cur = .ok u →
      ∃ r, exec (.stRel a b z sp sc) s = .next r ∧
        Buffers (u.releaseAt (dieOf u.cur) sc) r
          { space := sp, va := p.va, pa := p.pa, size := z.bytes, data := s.rs b, mode := none, tag := 0,
            dom := u.me.dom, region := u.me.region, scope := sc } 4) ∧
    (s.checkEa sp (s.rs a) z.bytes false true = .ok () → s.tentative = true → Parks s (.stRel a b z sp sc) 9) ∧
    ((sc = .module ∨ sc = .system) → ((s.acquireAt (dieOf s.cur) sc).die (dieOf s.cur)).copies = []) ∧
    ((sc = .module ∨ sc = .system) →
      ∀ w c, Cells.find ((s.releaseAt (dieOf s.cur) sc).die (dieOf s.cur)).copies w = some c → c.dirty = 0)

/-- R221 and R120: an atomic of a firm frame on a word that its owner can perform returns the old value in s_d and leaves the new value
of its operation in the word, with the full-empty bit as it was; an unequal cas writes nothing; an acquire, where it asks for one,
follows. A poisoned word traps with cause 0x0D and k.addr its address. R222: with the reply late s_d waits for the value or the trap,
and ATOMIC_REPLY writes the value into the window of the level that asked, or holds the trap for that frame; the reply to a frame that
has ended is dropped (the model's choice, log entry 16), and one that has neither value nor trap yet stays. R408: at a controller without
forward credit, or whose forward needs one, and behind an entry of the word that waits so, the atomic waits in the mooring list. A
tentative instance parks (R236). -/
def Obligations.AtomicResults : Prop :=
  (∀ (s : State) (d a b : SReg) (c : Bool) (sc : Scope) (o : AOrd) (op : AmoOp) (t u : State) (p : Acc),
     s.check (if c then .scratch else .global) (s.rs a) 8 true true false = .ok (t, p) → s.tentative = false →
     t.drain t.cur = .ok u →
     let v := u.amoRelease o sc p.loc
     let w := v.spot v.me.dom p.loc
     let old := v.spotData w v.me.dom
     let y := s.rs b
     let new : Word := match op with
       | .add => BitVec.ofInt 64 (old.toInt + y.toInt)
       | .min => if old.toInt ≤ y.toInt then old else y
       | .max => if y.toInt ≤ old.toInt then old else y
       | .and => old &&& y
       | .or => old ||| y
       | .xor => old ^^^ y
       | .swp => y
       | .cas => if old = s.rs d then y else old
     let equal : Prop := op = .cas → old = s.rs d
     let served : Prop := w.owner.isMem = false ∨ (v.noCredit.contains w.owner = false ∧ v.behindFwd w = false ∧
       (w.owner = w.home ∨ v.noCredit.contains w.home = false))
     let acquires : Option Scope := if o = AOrd.acquire ∨ o = AOrd.acqrel then some sc else none
     let performs : State → Prop := fun z =>
       (equal → z.spotData w v.me.dom = new) ∧ (¬ equal → z.mem = v.mem ∧ z.clusters = v.clusters ∧ z.cores = v.cores) ∧
         z.spotFull w = v.spotFull w
     let awaits : State → Option Word → Option (BitVec 5 × Word) → Prop := fun z value trap =>
       ∃ (r : State) (e : Reply), exec (.amo d a b c sc o op) s = .next r ∧ SameMemory z r ∧ r.pc = u.pc + 4 ∧
         r.moorings = z.moorings ∧ r.weir = z.weir ∧ r.me.replies = z.me.replies ++ [e] ∧ e.level = u.me.lvl ∧ e.d = d ∧
         e.epc = u.pc ∧ e.value = value ∧ e.trap = trap ∧ e.acquire = acquires ∧ (d ≠ 0 → r.me.here.spend.getLsbD d.toNat = true)
     let request : Owner → Mooring := fun k =>
       { owner := k, word := w.word, dom := w.dom, adom := v.me.dom, mode := .plain, data := y,
         route := .amo v.cur v.nextId, region := v.me.region, fwd := true, amo := some (op, s.rs d),
         plain := none }
     let page : Prop := ∀ cl, w.owner = .scratch cl → (v.frameAt cl w.dom (8 * w.word)).isSome = true
     let poison : BitVec 5 × Word := (0x0D, BitVec.ofNat 64 p.va)
     (served → v.spotPoison w = false → page → s.slow = false →
       ∃ z r : State, exec (.amo d a b c sc o op) s = .next r ∧ ReadsInto u r d old 4 ∧ performs z ∧
         r = ((match acquires with
               | some x => z.acquireAt (dieOf u.cur) x
               | none => z).ws d old).advance 4) ∧
     (served → v.spotPoison w = true → s.slow = false →
       exec (.amo d a b c sc o op) s = .next (v.takeTrap v.cur poison.1 poison.2 v.pc false)) ∧
     (served → v.spotPoison w = false → page → s.slow = true → ∃ z, performs z ∧ awaits z (some old) none) ∧
     (served → v.spotPoison w = true → s.slow = true → awaits v none (some poison)) ∧
     (¬ served → u.me.level ≠ 0xF → ∃ k, v.waitsAt w = some k ∧
       ∀ z, v.moor (request k) v.cur = some z → awaits z none none)) ∧
  (∀ (s : State) (d a b : SReg) (c : Bool) (sc : Scope) (o : AOrd) (op : AmoOp),
     s.checkEa (if c then .scratch else .global) (s.rs a) 8 true true = .ok () → s.tentative = true →
     Parks s (.amo d a b c sc o op) 1) ∧
  (∀ (s : State) (n : CoreId) (r : Reply) (rest : List Reply) (v : Word),
     (s.core n).replies = r :: rest →
     let wide : Prop := r.acquire = some .module ∨ r.acquire = some .system
     let arrives : Word → State → Prop := fun x t =>
       (t.core n).replies = rest ∧
       (∀ q, ((t.core n).bank r.level).rs q = if q = r.d ∧ r.d ≠ 0 then x else ((s.core n).bank r.level).rs q) ∧
       ((t.core n).bank r.level).spend.getLsbD r.d.toNat = false ∧ (t.core n).pc = (s.core n).pc ∧
       (∀ l, l ≠ r.level → (t.core n).bank l = (s.core n).bank l) ∧ ∀ m, m ≠ n → t.core m = s.core m
     (r.value = none → r.trap = none → exec (.atomicReply n) s = .next s) ∧
     (r.voided = true → (r.value.isSome = true ∨ r.trap.isSome = true) → ∃ t, exec (.atomicReply n) s = .next t ∧
       t.core n = { s.core n with replies := rest } ∧ (∀ m, m ≠ n → t.core m = s.core m)) ∧
     (r.value = some v → r.voided = false →
       ∃ t, exec (.atomicReply n) s = .next t ∧ arrives v t ∧ (t.core n).heldTraps = (s.core n).heldTraps ∧
         (¬ wide → SameMemory s t) ∧ (wide → (t.die (dieOf n)).copies = [])) ∧
     (∀ cause a, r.value = none → r.trap = some (cause, a) → r.voided = false →
       ∃ t, exec (.atomicReply n) s = .next t ∧ arrives (((s.core n).bank r.level).rs r.d) t ∧ SameMemory s t ∧
         (t.core n).heldTraps = (s.core n).heldTraps ++
           [{ level := r.level.setWidth 4, cause, addr := a, epc := some r.epc }]))


/-- R224 to R227 and R114: `ldq` from a firm frame reserves an entry of its queue register and its read leaves for the owner;
`fe.fill` and `fe.empty` of a firm frame put a sync write into the store buffer once it has drained; `fe.test` reads the full-empty
bit of a word that no older entry keeps back. `ldq` to a register that is not bound as stream receive at the running level, or has a
copy stream active, traps with cause 0x03, whatever its address: the model tests the binding before the checks of R216 (the model's
choice, log entry 13). A tentative instance parks at each but `fe.test` (R236). -/
def Obligations.SyncInstructionResults : Prop :=
  ∀ (s : State) (d a b : SReg) (q : QReg) (tag : BitVec 3) (sp : Space) (m : SyncMode) (sc : Scope) (t u : State) (p : Acc),
    (((s.me.rq q).kind ≠ 3 ∨ (s.me.rq q).level ≠ s.me.lvl ∨ s.me.streaming q = true) → Traps s (.ldq q a tag sp m sc) 0x03 0) ∧
    ((s.me.rq q).kind = 3 → (s.me.rq q).level = s.me.lvl → s.me.streaming q = false →
      s.check sp (s.rs a) 8 true false true = .ok (t, p) → s.tentative = false →
      (s.me.rq q).entries.length + (s.me.rq q).resv < 8 → t.drain t.cur = .ok u →
      ∃ r, exec (.ldq q a tag sp m sc) s = .next r ∧ PassesBy u r 4 ∧
        (r.me.rq q).resv = (u.me.rq q).resv + 1 ∧ (r.me.rq q).entries = (u.me.rq q).entries ∧
        r.me.flight = u.me.flight ++ [{ space := sp, ea := (s.rs a).toNat, va := p.va, pa := p.pa, mode := m, q := q,
                                        level := s.me.lvl, itag := tag, scope := sc, tag := u.nextId, dom := s.me.dom,
                                        region := s.me.region }] ∧
        SameMemory u r) ∧
    (∀ md, s.check sp (s.rs a) 8 false true true = .ok (t, p) → s.tentative = false → t.drain t.cur = .ok u →
      let entry : StoreEntry := { space := sp, va := p.va, pa := p.pa, size := 8, data := s.rs b, mode := some md, tag := 0,
                                  dom := u.me.dom, region := u.me.region, scope := sc }
      (md = m → ∃ r, exec (.feFill a b sp m sc) s = .next r ∧ Buffers u r entry 4) ∧
      (md = .wempty → ∃ r, exec (.feEmpty a b sp sc) s = .next r ∧ Buffers u r entry 4)) ∧
    ((s.me.rq q).kind = 3 → (s.me.rq q).level = s.me.lvl → s.me.streaming q = false →
      s.checkEa sp (s.rs a) 8 true false = .ok () → s.tentative = true → Parks s (.ldq q a tag sp m sc) 2) ∧
    (s.checkEa sp (s.rs a) 8 false true = .ok () → s.tentative = true →
      Parks s (.feFill a b sp m sc) 2 ∧ Parks s (.feEmpty a b sp sc) 2) ∧
    (s.check sp (s.rs a) 8 true false true = .ok (t, p) → t.settleFlights t.cur = .ok u →
      u.plainWait u.cur s.me.dom p.loc s.me.region = none → u.accPoisoned u.cur s.me.dom p = false →
      ∃ r, exec (.feTest d a sp) s = .next r ∧ SameStores (u.rawRead u.cur s.me.dom p 8).1 r ∧
        ReadsInto u r d (if u.spotFull (u.spot s.me.dom p.loc) then 1 else 0) 4)

/-- R118, R119, R228 and R229: a `fence` of a firm frame whose store buffer has drained retires when every earlier access is
acknowledged. It goes on behind itself with every register as it was; at module or system scope it leaves no copy on its die, and at
level visible no copy on any die; and there each byte that the die held stored is in memory, where no other domain's bytes of the same
16-byte block are written back with it (R399). `pf` completes in every state and has
no effect. A tentative instance parks at a `fence` (R236). -/
def Obligations.FenceAndPrefetch : Prop :=
  ∀ (s u : State) (v : Bool) (sc : Scope) (a : SReg) (k : PfKind),
    let die := dieOf u.cur
    let wide : Prop := v = true ∨ sc = .module ∨ sc = .system
    let done : State → Prop := fun t =>
      (sc = .module ∨ sc = .system → (t.die die).copies = []) ∧ (v = true → ∀ x, (t.die x).copies = []) ∧
      (¬ wide → SameMemory u t) ∧
      ∀ w c i, wide → u.migrations = [] → Cells.find (u.die die).copies w = some c →
        (∀ e, e ∈ (u.die die).copies → (e.1 = w → e.2 = c) ∧ (e.1 / 2 = w / 2 → e.2.dirty = 0 ∨ e.2.dom = c.dom)) →
        (v = true → ∀ x e, x ≠ die → e ∈ (u.die x).copies →
          (e.1 = w → e.2.dirty = 0) ∧ (e.1 / 2 = w / 2 → e.2.dirty = 0 ∨ e.2.dom = c.dom)) →
        i < 8 → c.dirty.getLsbD i = true → t.mem.get (8 * w + i) = bits c.data (8 * i) 8
    (s.tentative = false → s.drain s.cur = .ok u →
      (∀ x, x ∈ u.me.unacked → u.slow = false ∧ x ∈ u.me.acks) →
      (∃ t, exec (.fence v sc) s = .next t ∧ PassesBy u t 4 ∧ done t) ∧
      (∃ t, exec (.compactFence v sc) s = .next t ∧ PassesBy u t 2 ∧ done t)) ∧
    (s.tentative = true → Parks s (.fence v sc) 9 ∧ Parks s (.compactFence v sc) 9) ∧
    GoesTo s (.pf a k) (s.pc + 4)
/-! ## Vector instructions -/

/-- R240: the integer lanes of `vadd`, `vsub`, `vadds`, `vsubs`, `vmul`, `vmulh`, `vshl` and `vshr`, and the bitwise
operations over the whole registers, with no other effect. -/
def Obligations.VectorIntegerResults : Prop :=
  ∀ (s : State) (d a b : VReg) (e : BitVec 3),
    let t := intEt e
    let w := t.width
    let n := t.lanes
    let x : Nat → Int := fun j => t.int (lane (s.rv a) w j)
    let y : Nat → Int := fun j => t.int (lane (s.rv b) w j)
    let by_ : Nat → Nat := fun j => lane (s.rv b) w j % w
    let wrap : Int → Nat := fun z => (z % 2 ^ w).toNat
    let lo : Int := if t.signed then -2 ^ (w - 1) else 0
    let hi : Int := if t.signed then 2 ^ (w - 1) - 1 else 2 ^ w - 1
    let sat : Int → Nat := fun z => wrap (max lo (min hi z))
    Lanewise s (.vaddInt d a b e) d w n (fun j => wrap (x j + y j)) ∧
    Lanewise s (.vsubInt d a b e) d w n (fun j => wrap (x j - y j)) ∧
    Lanewise s (.vadds d a b e) d w n (fun j => sat (x j + y j)) ∧
    Lanewise s (.vsubs d a b e) d w n (fun j => sat (x j - y j)) ∧
    Lanewise s (.vmulInt d a b e) d w n (fun j => wrap (x j * y j)) ∧
    Lanewise s (.vmulh d a b e) d w n (fun j => wrap (x j * y j / 2 ^ w)) ∧
    Lanewise s (.vshl d a b e) d w n (fun j => wrap (x j * 2 ^ by_ j)) ∧
    Lanewise s (.vshr d a b e) d w n (fun j => wrap (x j / 2 ^ by_ j)) ∧
    RetiresV s (.vand d a b e) d (s.rv a &&& s.rv b) ∧ RetiresV s (.vor d a b e) d (s.rv a ||| s.rv b) ∧
    RetiresV s (.vxor d a b e) d (s.rv a ^^^ s.rv b) ∧ RetiresV s (.vandn d a b e) d (s.rv a &&& ~~~ s.rv b)

/-- R241 and R146: each lane of `vadd`, `vsub`, `vmul`, `vfma` and `vfnma` is the exact result rounded once, to nearest even
or by the lane's draw, and rounding by draws advances the counter by a quarter of the lanes; `vabs` and `vneg` change the
sign bit and make a NaN canonical. -/
def Obligations.VectorFloatResults : Prop :=
  ∀ (s : State) (d a b : VReg) (sr : Bool) (e : Et), e = .f32 ∨ e = .bf16 ∨ e = .f16 →
    let w := e.width
    let n := e.lanes
    let x : Nat → Ext := fun j => e.ext (lane (s.rv a) w j)
    let y : Nat → Ext := fun j => e.ext (lane (s.rv b) w j)
    let z : Nat → Ext := fun j => e.ext (lane (s.rv d) w j)
    let gives : Instr → (Nat → Ext) → Prop := fun i f =>
      LanewiseDraws s i d w n (fun j => (fmtOf e).round (if sr then some (s.me.draw j) else none) (f j))
        (if sr then (n + 3) / 4 else 0)
    let signs : Instr → (Nat → Nat) → Prop := fun i f =>
      Lanewise s i d w n fun j => if (x j).isNan then (fmtOf e).ofNan else f (lane (s.rv a) w j)
    gives (.vaddFp d a b sr e) (fun j => (x j).add (y j)) ∧
    gives (.vsubFp d a b sr e) (fun j => (x j).add (y j).flip) ∧
    gives (.vmulFp d a b sr e) (fun j => (x j).mul (y j)) ∧
    gives (.vfma d a b sr e) (fun j => ((x j).mul (y j)).add (z j)) ∧
    gives (.vfnma d a b sr e) (fun j => (z j).add ((x j).mul (y j)).flip) ∧
    signs (.vabs d a e) (fun c => c % 2 ^ (w - 1)) ∧ signs (.vneg d a e) (fun c => c ^^^ 2 ^ (w - 1))

/-- R242 and R243: the smaller and the larger lane, all ones in the lanes where a relation holds and zero elsewhere, and the
bitwise choice of `vsel`. -/
def Obligations.VectorCompareResults : Prop :=
  ∀ (s : State) (d a b : VReg) (e : Et) (c : VRel),
    let w := e.width
    let n := e.lanes
    let p : Nat → Nat := fun j => lane (s.rv a) w j
    let q : Nat → Nat := fun j => lane (s.rv b) w j
    let x : Nat → Int := fun j => e.int (p j)
    let y : Nat → Int := fun j => e.int (q j)
    (e.isFloat = false →
      Lanewise s (.vmin d a b e) d w n (fun j => if x j ≤ y j then p j else q j) ∧
      Lanewise s (.vmax d a b e) d w n (fun j => if y j ≤ x j then p j else q j) ∧
      Lanewise s (.vcmp d a b c e) d w n (fun j =>
        if (match c with
          | .eq => decide (x j = y j)
          | .ne => decide (x j ≠ y j)
          | .lt => decide (x j < y j)
          | .ge => decide (y j ≤ x j)
          | .le => decide (x j ≤ y j)
          | .gt => decide (y j < x j)
          | .un => false) = true then 2 ^ w - 1 else 0)) ∧
    (e.isFloat = true →
      Lanewise s (.vmin d a b e) d w n (fun j => (fmtOf e).minmax false (p j) (q j)) ∧
      Lanewise s (.vmax d a b e) d w n (fun j => (fmtOf e).minmax true (p j) (q j)) ∧
      Lanewise s (.vcmp d a b c e) d w n (fun j =>
        if (match c with
          | .eq => (e.ext (p j)).eqv (e.ext (q j))
          | .ne => !(e.ext (p j)).eqv (e.ext (q j))
          | .lt => (e.ext (p j)).lt (e.ext (q j))
          | .gt => (e.ext (q j)).lt (e.ext (p j))
          | .le => (e.ext (p j)).lt (e.ext (q j)) || (e.ext (p j)).eqv (e.ext (q j))
          | .ge => (e.ext (q j)).lt (e.ext (p j)) || (e.ext (p j)).eqv (e.ext (q j))
          | .un => (e.ext (p j)).isNan || (e.ext (q j)).isNan) = true then 2 ^ w - 1 else 0)) ∧
    ∃ v, RetiresV s (.vsel d a b) d v ∧ ∀ j, j < 128 →
      v.getLsbD j = if (s.rv d).getLsbD j then (s.rv a).getLsbD j else (s.rv b).getLsbD j

/-- R244: shuffles, broadcasts, insertion and extraction of lanes. -/
def Obligations.VectorMoveResults : Prop :=
  ∀ (s : State) (d a b : VReg) (r : SReg) (l : BitVec 5) (e : Et),
    let w := e.width
    Lanewise s (.vshuf d a b) d 8 16 (fun j =>
      let k := lane (s.rv b) 8 j
      if 128 ≤ k then 0 else if k % 32 < 16 then lane (s.rv a) 8 (k % 32) else lane (s.rv d) 8 (k % 32 - 16)) ∧
    Lanewise s (.vbcastScalar d r e) d w e.lanes (fun _ => (s.rs r).toNat) ∧
    Lanewise s (.vbcastLane d a l e) d w e.lanes (fun _ => lane (s.rv a) w l.toNat) ∧
    (l.toNat < e.lanes → Lanewise s (.vins d r l e) d w e.lanes fun j =>
      if j = l.toNat then (s.rs r).toNat else lane (s.rv d) w j) ∧
    Retires s (.vext r a l e) r (BitVec.ofInt 64 (e.int (lane (s.rv a) w l.toNat))) 4

/-- R245 to R250: conversions write the lanes of the wider type and leave the narrow destination's other lanes as they were;
sums, minima and maxima of lanes; dot products; the softmax merge. -/
def Obligations.VectorConversionsAndReductions : Prop :=
  ∀ (s : State) (d a b : VReg) (r : SReg) (part : BitVec 3) (dt st e : Et) (opt : Bool),
    let n := cvtLanes dt st
    let sr := opt && st.isFloat
    let src := if st.width < dt.width then part.toNat * n else 0
    let dst := if dt.width < st.width then part.toNat * n else 0
    let ls := lanesOf e (s.rv a)
    ((Instr.vcvt d a part dt st opt).wellFormed = true →
      LanewiseDraws s (.vcvt d a part dt st opt) d dt.width dt.lanes (fun j =>
        if dst ≤ j ∧ j < dst + n then
          cvtLane dt st opt (if sr then some (s.me.draw (j - dst)) else none) (lane (s.rv a) st.width (src + (j - dst)))
        else lane (s.rv d) dt.width j) (if sr then (n + 3) / 4 else 0)) ∧
    (e.isFloat = false →
      Retires s (.vred r a .add e) r (BitVec.ofInt 64 (ls.map e.int).sum) 4 ∧
      (∃ x ∈ ls, (∀ y ∈ ls, e.int x ≤ e.int y) ∧ Retires s (.vred r a .min e) r (BitVec.ofInt 64 (e.int x)) 4) ∧
      (∃ x ∈ ls, (∀ y ∈ ls, e.int y ≤ e.int x) ∧ Retires s (.vred r a .max e) r (BitVec.ofInt 64 (e.int x)) 4)) ∧
    (e.isFloat = true →
      Retires s (.vred r a .add e) r (BitVec.ofNat 64 (fp32.rne ((ls.map e.ext).foldl Ext.add .negZero))) 4 ∧
      let extreme : Bool → Word := fun m => BitVec.ofNat 64 (fp32.rne (e.ext (ls.tail.foldl ((fmtOf e).minmax m) (ls.headD 0))))
      Retires s (.vred r a .min e) r (extreme false) 4 ∧ Retires s (.vred r a .max e) r (extreme true) 4) ∧
    (e.isFloat = false → 4 ≤ e.lanes →
      Lanewise s (.vdot d a b e) d 32 4 fun j =>
        let g := e.lanes / 4
        ((((BitVec.ofNat 32 (lane (s.rv d) 32 j)).toInt + ((List.range g).map fun i =>
          e.int (lane (s.rv a) e.width (g * j + i)) * e.int (lane (s.rv b) e.width (g * j + i))).sum) % 2 ^ 32).toNat)) ∧
    (e.isFloat = true →
      Lanewise s (.vdot d a b e) d 32 4 fun j =>
        let g := e.lanes / 4
        accGroup (lane (s.rv d) 32 j) ((upFrom 0 g).map fun i =>
          (e.ext (lane (s.rv a) e.width (g * j + i)), e.ext (lane (s.rv b) e.width (g * j + i))))) ∧
    Lanewise s (.vsmrg d a b) d 32 4 fun j =>
      let m := smerge (lane (s.rv a) 32 (j / 2 * 2)) (lane (s.rv a) 32 (j / 2 * 2 + 1))
        (lane (s.rv b) 32 (j / 2 * 2)) (lane (s.rv b) 32 (j / 2 * 2 + 1))
      if j % 2 = 0 then m.1 else m.2

/-- R256 and R257: where the checks of R216 pass and no word is poisoned, `vld` writes 16 bytes, or 8 with zeros above, to v_d;
`vst` of a firm frame, or of a tentative one into its own frame, puts one entry a word into the store buffer, the low word's first,
which is the model's choice (log entry 26); a tentative one's is provisional in global space where there is room, and parks
elsewhere (R257). -/
def Obligations.VectorLoadsAndStores : Prop :=
  ∀ (s : State) (d : VReg) (a : SReg) (sp : Space) (off : BitVec 11) (t u v : State) (p : Acc) (lo hi : List Byte),
    let ea := s.rs a + off.signExtend 64
    let entry : Nat → StoreEntry := fun k =>
      { space := sp, va := p.va + 8 * k, pa := p.pa + 8 * k, size := 8, data := bits (s.rv d) (64 * k) 64, mode := none,
        tag := s.nextId, dom := s.me.dom, region := s.me.region, scope := .core }
    (s.me.level ≠ 0xF → s.check sp ea 8 true false false = .ok (t, p) → t.loadWord sp p 8 = .ok (u, lo) →
      ∃ r, exec (.vld d a sp true off) s = .next r ∧ r.pc = s.pc + 4 ∧ SameStores u r ∧
        ∀ q, r.rv q = if q = d then BitVec.ofNat 128 (joinBytes lo) else s.rv q) ∧
    (s.me.level ≠ 0xF → s.check sp ea 16 true false false = .ok (t, p) → t.loadWord sp p 8 = .ok (u, lo) →
      u.loadWord sp (p.plus 8) 8 = .ok (v, hi) →
      ∃ r, exec (.vld d a sp false off) s = .next r ∧ r.pc = s.pc + 4 ∧ SameStores v r ∧
        ∀ q, r.rv q = if q = d then BitVec.ofNat 128 (joinBytes (lo ++ hi)) else s.rv q) ∧
    let own : Nat → Prop := fun n => sp = .tcm ∧ s.me.here.fbase.toNat ≤ ea.toNat ∧
      ea.toNat + n ≤ s.me.here.fbase.toNat + frameSize s.me.here.fclass s.me.lvl
    (s.check sp ea 8 false true false = .ok (t, p) → s.tentative = false ∨ own 8 → t.me.sbuf.length < 16 →
      ∃ r, exec (.vst d a sp true off) s = .next r ∧ r.pc = s.pc + 4 ∧ SameMemory t r ∧
        r.me.sbuf = t.me.sbuf ++ [{ entry 0 with tag := t.nextId }]) ∧
    (s.check sp ea 16 false true false = .ok (t, p) → s.tentative = false ∨ own 16 → t.me.sbuf.length < 15 →
      ∃ r, exec (.vst d a sp false off) s = .next r ∧ r.pc = s.pc + 4 ∧ SameMemory t r ∧
        r.me.sbuf = t.me.sbuf ++ [{ entry 0 with tag := t.nextId }, { entry 1 with tag := t.nextId + 1 }]) ∧
    (∀ h, s.tentative = true → s.checkEa sp ea (if h then 8 else 16) false true = .ok () →
      (sp = .scratch ∨ (sp = .tcm ∧ (ea.toNat < s.me.here.fbase.toNat ∨
        s.me.here.fbase.toNat + frameSize s.me.here.fclass s.me.lvl ≤ ea.toNat)) → Parks s (.vst d a sp h off) 6)) ∧
    (∀ x, s.me.here.inst = some x → x.tentative = true → sp = .global →
      let half : Nat → Prov := fun k => { launch := x.id, index := x.index, pa := t.live (p.pa + 8 * k), va := p.va + 8 * k,
                                          dom := s.me.dom, data := splitBytes 8 (bits (s.rv d) (64 * k) 64 : Word).toNat }
      let goes : Bool → List Prov → Prop := fun h l =>
        ∃ r, exec (.vst d a sp h off) s = .next r ∧ r.pc = s.pc + 4 ∧ SameMemory t r ∧ r.me.sbuf = t.me.sbuf ∧ r.prov = t.prov ++ l
      let more : Bool := ({ t with prov := t.prov ++ [half 0] } : State).provRoom x (t.live (p.pa + 8))
      (s.check sp ea 8 false true false = .ok (t, p) →
        (t.provRoom x (t.live p.pa) = true → goes true [half 0]) ∧
        (t.provRoom x (t.live p.pa) = false → exec (.vst d a sp true off) s = .next (t.stop (.park 5 0)))) ∧
      (s.check sp ea 16 false true false = .ok (t, p) →
        (t.provRoom x (t.live p.pa) = true → more = true → goes false [half 0, half 1]) ∧
        (t.provRoom x (t.live p.pa) = false ∨ more = false → exec (.vst d a sp false off) s = .next (t.stop (.park 5 0)))))

/-- R251 to R254: `vsfu` takes a free latch slot and v_d waits for the result; SFU_ACCEPT serves the next core of the block in
turn; SFU_LAND writes an accepted result into the bank of its level, or discards one that was voided. -/
def Obligations.SpecialFunctionUnit : Prop :=
  ∀ (s : State) (d a : VReg) (f : SfuFn) (n : CoreId) (cl : BitVec 14) (r : SfuReq) (l : List SfuReq) (k : Nat),
    (s.me.sfu.length < 4 →
      ∃ t, exec (.vsfu d a f) s = .next t ∧ t.pc = s.pc + 4 ∧ SameMemory s t ∧ (∀ q, t.rv q = s.rv q) ∧
        (∀ q, t.rs q = s.rs q) ∧ t.me.here.vpend = s.me.here.vpend ||| (1#16 <<< d.toNat) ∧
        t.me.sfu = s.me.sfu ++ [{ level := s.me.lvl, d := d, fn := f, x := s.rv a, cluster := s.sfuOf s.cur,
                                  accepted := false, voided := false }]) ∧
    ((s.cluster cl).gstate = 0 → k < 256 →
      (∀ j, j < k → (s.core (blockCore cl (((s.cluster cl).rr.toNat + 1 + j) % 256))).asks cl = false) →
      let i := ((s.cluster cl).rr.toNat + 1 + k) % 256
      (s.core (blockCore cl i)).asks cl = true →
      ∃ t, exec (.sfuAccept cl) s = .next t ∧ SameStores s t ∧ (t.cluster cl).rr.toNat = i ∧
        t.core (blockCore cl i) = { s.core (blockCore cl i) with sfu := acceptFirst cl (s.core (blockCore cl i)).sfu } ∧
        ∀ m, m ≠ blockCore cl i → t.core m = s.core m) ∧
    ((s.core n).sfu = r :: l → r.accepted = true →
      ∃ t, exec (.sfuLand n) s = .next t ∧ SameMemory s t ∧ (t.core n).sfu = l ∧ (t.core n).pc = (s.core n).pc ∧
        (∀ m, m ≠ n → t.core m = s.core m) ∧ (∀ j, j ≠ r.level → (t.core n).bank j = (s.core n).bank j) ∧
        (r.voided = true → (t.core n).bank r.level = (s.core n).bank r.level) ∧
        (r.voided = false → ((t.core n).bank r.level).vpend.getLsbD r.d.toNat = false ∧
          (∀ j, j < 4 → lane (((t.core n).bank r.level).rv r.d) 32 j = sfuLane r.fn (lane r.x 32 j) % 2 ^ 32) ∧
          ∀ q, q ≠ r.d → ((t.core n).bank r.level).rv q = ((s.core n).bank r.level).rv q))

/-! ## Hypervectors -/

/-- R296 to R298: with resource 0 held by the running frame, `hbind`, `hperm`, `hbund`, `hclr`, `hthr` and `htie` change the
hypervector state bit by bit as their entries say, and `hdist` and `hpop` count; R50 and R289: without it every hypervector
instruction traps with cause 0x05 and k.addr 0. -/
def Obligations.HypervectorResults : Prop :=
  ∀ (s : State) (d a b : HReg) (r q : SReg) (n : BitVec 12) (t : HTarget) (sp : Space),
    let held := s.me.here.claims.any fun x => x.res == 0
    let only : State → HReg → Prop := fun u d => (∀ q, q ≠ d → u.rh q = s.rh q) ∧ u.me.ht = s.me.ht ∧ u.me.kcnt = s.me.kcnt
    let rotated : Nat → State → Prop := fun k u => only u d ∧
      ∀ j, j < 4096 → (u.rh d).getLsbD j = (s.rh a).getLsbD ((j + 4096 - k) % 4096)
    (held = true →
      HyperGives s (.hbind d a b) (fun u => only u d ∧ u.rh d = s.rh a ^^^ s.rh b) ∧
      HyperGives s (.hpermRegister d a r) (rotated ((s.rs r).toNat % 4096)) ∧
      HyperGives s (.hpermImmediate d a n) (rotated n.toNat) ∧
      HyperGives s (.hbund a) (fun u => (∀ q, u.rh q = s.rh q) ∧ u.me.ht = s.me.ht ∧
        ∀ j, j < 4096 → counterAt u.me.kcnt j =
          max (-128) (min 127 (counterAt s.me.kcnt j + if (s.rh a).getLsbD j then 1 else -1))) ∧
      HyperGives s (.hthr d) (fun u => only u d ∧ ∀ j, j < 4096 → (u.rh d).getLsbD j =
        (decide (0 < counterAt s.me.kcnt j) || (decide (counterAt s.me.kcnt j = 0) && s.me.ht.getLsbD j))) ∧
      HyperGives s (.htie a) (fun u => (∀ q, u.rh q = s.rh q) ∧ u.me.ht = s.rh a ∧ u.me.kcnt = s.me.kcnt) ∧
      HyperGives s (.hclr t) (fun u =>
        (∀ q : HReg, u.rh q = if (t = .h0 ∧ q = 0) ∨ (t = .h1 ∧ q = 1) ∨ (t = .h2 ∧ q = 2) ∨ (t = .h3 ∧ q = 3) then 0
          else s.rh q) ∧
        u.me.ht = (if t = .ht then 0 else s.me.ht) ∧ u.me.kcnt = (if t = .k then 0 else s.me.kcnt)) ∧
      Retires s (.hdist r a b) r
        (BitVec.ofNat 64 ((List.range 4096).filter fun j => (s.rh a).getLsbD j != (s.rh b).getLsbD j).length) 4 ∧
      Retires s (.hpop r a) r (BitVec.ofNat 64 ((List.range 4096).filter fun j => (s.rh a).getLsbD j).length) 4) ∧
    (held = false →
      Traps s (.hbind d a b) 0x05 0 ∧ Traps s (.hpermRegister d a r) 0x05 0 ∧ Traps s (.hpermImmediate d a n) 0x05 0 ∧
      Traps s (.hbund a) 0x05 0 ∧ Traps s (.hthr d) 0x05 0 ∧ Traps s (.htie a) 0x05 0 ∧ Traps s (.hclr t) 0x05 0 ∧
      Traps s (.hdist r a b) 0x05 0 ∧ Traps s (.hpop r a) 0x05 0 ∧ Traps s (.hld t r sp) 0x05 0 ∧
      Traps s (.hst t r sp) 0x05 0 ∧ Traps s (.hrcl r a q) 0x05 0)

/-- R293 to R295, R299 and R300 in the TCM: with resource 0 held, no progress held, nothing buffered, and no sync
read under way and no atomic ahead, `hld` brings the bytes
of its span into the target, `hst` leaves the target's bytes where the core's own loads see them, and `hrcl` gives the
least distance and the lowest index that has it; an `hst` of a tentative instance to the scratchpad, or outside its own frame, parks
before the first chunk (R301). -/
def Obligations.HypervectorTransfers : Prop :=
  ∀ (s : State) (t : HTarget) (r a : SReg) (h : HReg),
    s.me.here.claims.any (fun x => x.res == 0) = true → s.me.hprog.getLsbD 0 = false → s.breakAt = none →
    s.me.sbuf = [] → s.me.flight = [] → s.me.amoWait = false → s.me.tcmPoison = [] → s.slow = false →
    let o := (s.rs a).toNat
    let n := if t = .k then 4096 else 512
    let own : Nat → Prop := fun i => s.me.here.fbase.toNat ≤ i ∧ i < s.me.here.fbase.toNat + frameSize s.me.here.fclass s.me.lvl
    let byte : Core → HTarget → Nat → Byte := fun c t i =>
      bits (c.hChunk t (i / 64)) (8 * (i % 64)) 8
    let allowed : Bool → Nat → Nat → Prop := fun wr o n => o % 64 = 0 ∧ o + n ≤ 0xC000 ∧
      ∀ i, i < n → s.me.tcmAllowed (o + i) wr = true
    (allowed false o n →
      ∃ u, exec (.hld t a .tcm) s = .next u ∧ SameMemory s u ∧ PassesBy s u 4 ∧
        (∀ i, i < n → byte u.me t i = s.me.tcm.get (o + i)) ∧
        ∀ t', t' ≠ t → ∀ i, i < 512 → byte u.me t' i = byte s.me t' i) ∧
    (allowed true o n → s.tentative = true → ¬ own o →
      exec (.hst t a .tcm) s = .next ((s.saveProgress false 0 0 0).stop (.park 6 0))) ∧
    (s.checkSpan .scratch (s.rs a) n true = .ok () → s.tentative = true →
      exec (.hst t a .scratch) s = .next ((s.saveProgress false 0 0 0).stop (.park 6 0))) ∧
    (allowed true o n → (s.tentative = false ∨ ∀ i, i < n → own (o + i)) →
      ∃ u, exec (.hst t a .tcm) s = .next u ∧ PassesBy s u 4 ∧ u.mem = s.mem ∧
        (∀ i, i < n → fwdByte u.me.sbuf .tcm u.me.dom (o + i) (u.me.tcm.get (o + i)) = byte s.me t i) ∧
        ∀ i, i < o ∨ o + n ≤ i → fwdByte u.me.sbuf .tcm u.me.dom i (u.me.tcm.get i) = s.me.tcm.get i) ∧
    (let x := s.rs a
     let base := x.toNat % 2 ^ 18
     let count := x.toNat / 2 ^ 18 % 2 ^ 16
     let dist : Nat → Nat := fun j => ((List.range 4096).filter fun i =>
       (s.rh h).getLsbD i != (s.me.tcm.get (base + 512 * j + i / 8)).getLsbD (i % 8)).length
     x.toNat / 2 ^ 34 = 2 → count ≠ 0 → allowed false base (512 * count) →
       ∃ u, exec (.hrcl r h a) s = .next u ∧ SameMemory s u ∧
         ∃ j, j < count ∧ (∀ i, i < count → dist j ≤ dist i) ∧ (∀ i, i < j → dist j < dist i) ∧
           ReadsInto s u r (BitVec.ofNat 64 (dist j * 65536 + j)) 4) ∧
    ((s.rs a).toNat / 2 ^ 18 % 2 ^ 16 = 0 → Traps s (.hrcl r h a) 0x01 (s.rs a))

/-! ## The matrix engine -/

/-- R261, R263, R267 to R272, R274, R278 and R280: with a free queue slot, an empty store buffer and no sync read or atomic under way, each matrix command whose
checks pass enters the queue behind the commands there and the instruction retires; `macc` to a vector register with an empty
queue writes the half row and ends at once (R275). A tentative instance parks where R285 says. -/
def Obligations.MatrixCommandsEnter : Prop :=
  ∀ (s : State) (d : AReg) (a b : SReg) (v : VReg) (k : BitVec 6) (r : BitVec 3) (h : Bool) (n : BitVec 1),
    s.me.heldCmds 1 < 2 → s.me.sbuf = [] → s.me.flight = [] → s.me.amoWait = false →
    let len := 8 * (k.toNat + 1)
    let x := s.me.mctxAhead
    let ta := s.rs a
    let tb := s.rs b
    let at_ : Word → BitVec 16 := fun p => BitVec.ofNat 16 p.toNat
    let fits : AKind → Prop := fun i => (ctxPair x).isSome = true ∧ kindOk i (ctxA x) = true ∧
      ((ctxAmx x || ctxBmx x) = true → len % 32 = 0) ∧ (i = .cb2 → len % 64 = 0) ∧
      TileOk s ta (aLen i (ctxA x) (ctxAmx x) len)
    let tileB : Prop := TileOk s tb (bLen (ctxB x) (ctxBmx x) len)
    let latch : Prop := s.me.here.claims.any (fun c => c.res == 1) = true
    let pos := s.me.nibbles (ta.toNat + fmtLen (ctxA x) (4 * len)) len
    let marked := s.me.poisonIn (ta.toNat + fmtLen (ctxA x) (4 * len)) len
    let good : Prop := ∀ p ∈ pos, (bits p 0 2).toNat < (bits p 2 2).toNat
    let latched : Instr → MatOp → Prop := fun i op =>
      (s.me.latchAhead = true ∨ s.tentative = false → EntersMatrix s i op 0) ∧
      (s.me.latchAhead = false → s.tentative = true → Parks s i 10)
    ((ctxPair ta).isSome = true → EntersMatrix s (.mfmt a) (.fmt ta) 0) ∧
    EntersMatrix s (.mzero d) (.zero d) 0 ∧
    EntersMatrix s (.maccToAccumulator d v r h) (.moveIn d (s.rv v) r h) 0 ∧
    (s.me.matQ = [] →
      ∃ t, exec (.maccToVector v d r h) s = .next t ∧ SameMemory s t ∧ t.pc = s.pc + 4 ∧
        EndsWith s.me.estMat t.me.estMat false (s.me.heldCmds 1) ∧
        (∀ m, m < 4 → lane (t.rv v) 32 m =
          ((s.me.here.ra d).getD (8 * r.toNat + (if h then 4 else 0) + m) 0).toNat) ∧
        (∀ q, q ≠ v → t.rv q = s.rv q) ∧ ∀ q, t.rs q = s.rs q) ∧
    (fits .dense → tileB → EntersMatrix s (.mmul d a b k) (.mul .dense d (at_ ta) (at_ tb) false len x [] none) 0) ∧
    (fits .cb2 → tileB → EntersMatrix s (.mcb d a b k) (.mul .cb2 d (at_ ta) (at_ tb) false len x [] none) 0) ∧
    (fits .sparse → tileB → good →
      EntersMatrix s (.mmulSp d a b k) (.mul .sparse d (at_ ta) (at_ tb) false len x pos marked) 0) ∧
    (latch → fits .dense → latched (.mmulL d a k) (.mul .dense d (at_ ta) 0 true len x [] none)) ∧
    (latch → fits .cb2 → latched (.mcbL d a k) (.mul .cb2 d (at_ ta) 0 true len x [] none)) ∧
    (latch → fits .sparse → good → latched (.mmulSpL d a k) (.mul .sparse d (at_ ta) 0 true len x pos marked)) ∧
    (latch → fmtLen (ctxB x) (8 * len) ≤ 4096 → (ctxBmx x = true → len % 32 = 0) →
      TileOk s ta (bLen (ctxB x) (ctxBmx x) len) → EntersMatrix s (.mbl a k) (.load (at_ ta) len x) 0) ∧
    (latch → FirmDoes s .mring 10 (EntersMatrix s .mring .ring 0)) ∧
    ((s.me.epiBuf n).isSome = true →
      FirmDoes s (.mepiResume n) 10 (EntersMatrix s (.mepiResume n) (.resume n) 0) ∧
      FirmDoes s (.mepiDrop n) 10 (EntersMatrix s (.mepiDrop n) (.drop n) 0)) ∧
    (let e := tb
     let row := rowSize (bits e 0 4)
     let rstride := (bits e 16 16).toNat
     epiOk e (bits e 0 4) ((ctxPair x).getD false) = true → bits e 8 2 ≠ 3 → ta.toNat % row = 0 → rstride % row = 0 →
       row ≤ rstride → (e.getLsbD 7 = true → TileOk s ((bits e 32 16).setWidth 64) 32) →
       s.outputOk ((Space.ofCode (bits e 8 2)).getD .global) ta.toNat rstride row = true →
       (s.me.epi0 = none ∨ s.me.epi1 = none) →
       let own : Prop := ∀ i, i < 8 → ∀ j, j = 0 ∨ j = row - 1 →
         s.me.here.fbase.toNat ≤ ta.toNat + i * rstride + j ∧
           ta.toNat + i * rstride + j < s.me.here.fbase.toNat + frameSize s.me.here.fclass s.me.lvl
       (s.tentative = false ∨ bits e 8 2 = 0 ∨ (bits e 8 2 = 2 ∧ own) →
         EntersMatrix s (.mepi d a b) (.epi d ta e x s.me.sctr) (if e.getLsbD 4 then 16 else 0)) ∧
       (s.tentative = true → bits e 8 2 = 1 ∨ (bits e 8 2 = 2 ∧ ¬ own) → Parks s (.mepi d a b) 6)) ∧
    (s.me.matQ = [] → x = s.me.here.mctx)

/-- R261, R267, R268, R270, R271 and R280, with a free slot, an empty store buffer and no sync read or atomic under way, the checks in the model's
order (log entry 8): a format context that R260 does not allow traps with cause 0x01, the forms of the latch trap with 0x05 without resource 1, a tile that is not 16-byte aligned with 0x02 and
one past the TCM with 0x03, a bad metadata nibble with 0x06 and its place, an epilogue buffer that is not held with 0x01, and a
third epilogue with 0x0A. -/
def Obligations.MatrixCommandTraps : Prop :=
  ∀ (s : State) (d : AReg) (a b : SReg) (k : BitVec 6) (n : BitVec 1) (i : Nat),
    s.me.heldCmds 1 < 2 → s.me.sbuf = [] → s.me.flight = [] → s.me.amoWait = false →
    let len := 8 * (k.toNat + 1)
    let x := s.me.mctxAhead
    let ta := s.rs a
    let base := ta.toNat + fmtLen (ctxA x) (4 * len)
    let pos := s.me.nibbles base len
    let bad : BitVec 4 → Prop := fun p => (bits p 2 2).toNat ≤ (bits p 0 2).toNat
    let mixed : Prop := (ctxAmx x || ctxBmx x) = true → len % 32 = 0
    (ctxPair ta = none → Traps s (.mfmt a) 0x01 ta) ∧
    (ctxPair x = none → Traps s (.mmul d a b k) 0x01 x ∧ Traps s (.mmulSp d a b k) 0x01 x ∧ Traps s (.mcb d a b k) 0x01 x) ∧
    (s.me.here.claims.any (fun c => c.res == 1) = false →
      Traps s (.mmulL d a k) 0x05 1 ∧ Traps s (.mmulSpL d a k) 0x05 1 ∧ Traps s (.mcbL d a k) 0x05 1 ∧
      Traps s (.mbl a k) 0x05 1 ∧ Traps s .mring 0x05 1) ∧
    ((ctxPair x).isSome = true → kindOk .dense (ctxA x) = true → mixed →
      (ta.toNat % 16 ≠ 0 → Traps s (.mmul d a b k) 0x02 ta) ∧
      (ta.toNat % 16 = 0 → 0xC000 < ta.toNat + aLen .dense (ctxA x) (ctxAmx x) len → Traps s (.mmul d a b k) 0x03 ta)) ∧
    ((ctxPair x).isSome = true → kindOk .sparse (ctxA x) = true → mixed →
      TileOk s ta (aLen .sparse (ctxA x) (ctxAmx x) len) → TileOk s (s.rs b) (bLen (ctxB x) (ctxBmx x) len) →
      i < 2 * len → bad (pos.getD i 0) → (∀ j, j < i → ¬ bad (pos.getD j 0)) →
      Traps s (.mmulSp d a b k) 0x06 (BitVec.ofNat 64 (base + i / 2 + 65536 * (i % 2)))) ∧
    (s.me.epiBuf n = none → Traps s (.mepiResume n) 0x01 (n.setWidth 64) ∧ Traps s (.mepiDrop n) 0x01 (n.setWidth 64)) ∧
    (let e := s.rs b
     let row := rowSize (bits e 0 4)
     let rstride := (bits e 16 16).toNat
     epiOk e (bits e 0 4) ((ctxPair x).getD false) = true → bits e 8 2 ≠ 3 → ta.toNat % row = 0 → rstride % row = 0 →
       row ≤ rstride → e.getLsbD 7 = false →
       s.outputOk ((Space.ofCode (bits e 8 2)).getD .global) ta.toNat rstride row = true →
       s.me.epi0.isSome = true → s.me.epi1.isSome = true → Traps s (.mepi d a b) 0x0A 2)

/-- R261, R262, R269, R270 and R272 to R275: MATRIX_COMMAND_PERFORM gives the command at the head its effect on the bank of its level,
element by element, and ends it; operands whose words are poisoned, the metadata of a sparse tile as acceptance read them, hand a
multiply back instead, with the accumulator as it was. -/
def Obligations.MatrixCommandResults : Prop :=
  ∀ (s : State) (n : CoreId) (q : MatCmd) (r : List MatCmd) (d : AReg) (x : Word) (v : Vec) (h : BitVec 3) (up : Bool)
    (kind : AKind) (a b : BitVec 16) (len : Nat) (pos : List (BitVec 4)) (l : LatchSlot) (w : Nat) (i : BitVec 1)
    (e : EpiBuf) (bad : Option Nat),
    (s.core n).matQ = q :: r → HoldsLid s n q.by_.lid →
    let k := q.by_.level
    let old := (s.core n).bank k
    let elem : Core → Nat → BitVec 32 := fun c j => ((c.bank k).ra d).getD j 0
    let ends : Bool → State → Prop := fun f t =>
      exec (.matrixCommandPerform n) s = .next t ∧ (t.core n).matQ = r ∧
      EndsWith (s.core n).estMat (t.core n).estMat f ((s.core n).heldCmds 1 - 1) ∧ SameMemory s t ∧ (∀ m, m ≠ n → t.core m = s.core m) ∧
      (∀ m, m ≠ k → (t.core n).bank m = (s.core n).bank m) ∧
      ∃ (y : Vector (Vector (BitVec 32) 64) 2) (z : Word), (t.core n).bank k = { old with acc := y, mctx := z }
    let others : Core → Prop := fun c => (∀ m, m ≠ d → (c.bank k).ra m = old.ra m) ∧ (c.bank k).mctx = old.mctx
    let int := (ctxPair x).getD false
    let get : Nat → Byte := (s.core n).tcm.get
    let product : (Nat → Byte) → Nat → State → Prop := fun getB b t => ends false t ∧ others (t.core n) ∧
      ∀ i j, i < 8 → j < 8 → elem (t.core n) (8 * i + j) = matAcc int (elem (s.core n) (8 * i + j))
        ((List.range len).map fun m => macPair (aValue kind get a.toNat len (ctxA x) (ctxAmx x) pos i m)
          (bValue getB b len (ctxB x) (ctxBmx x) j m))
    let clean : Nat → Nat → Prop := fun p m => (s.core n).poisonIn p m = none
    let sizeA := aLen kind (ctxA x) (ctxAmx x) len
    let sizeB := bLen (ctxB x) (ctxBmx x) len
    let elems := fmtLen (ctxA x) (4 * len)
    let cleanA : Prop := if kind = .sparse then clean a.toNat elems ∧ bad = none ∧
        (ctxAmx x = true → clean (a.toNat + elems + len) (len / 4))
      else clean a.toNat sizeA
    (q.op = .fmt x → ∃ t, ends false t ∧ (t.core n).bank k = { old with mctx := x }) ∧
    (q.op = .zero d → ∃ t, ends false t ∧ others (t.core n) ∧ ∀ j, elem (t.core n) j = 0) ∧
    (q.op = .moveIn d v h up → ∃ t, ends false t ∧ others (t.core n) ∧
      ∀ j, j < 64 → elem (t.core n) j =
        (if j / 4 = 2 * h.toNat + (if up then 1 else 0) then bits v (32 * (j % 4)) 32 else elem (s.core n) j)) ∧
    (q.op = .mul kind d a b false len x pos bad → cleanA → clean b.toNat sizeB →
      ∃ t, product get b.toNat t) ∧
    (q.op = .mul kind d a b true len x pos bad → (s.core n).latchL = some l → l.len = len → l.bfmt = ctxB x →
      l.bmx = ctxBmx x → cleanA → ∃ t, product (fun j => l.bytes.getD j 0) 0 t) ∧
    (q.op = .mul kind d a b false len x pos bad →
      (if kind = .sparse then clean a.toNat elems ∧ bad = some w else (s.core n).poisonIn a.toNat sizeA = some w) →
      ∃ t, ends true t ∧ (t.core n).bank k = old ∧ HandsBack s t q.by_ 8 0x0D (BitVec.ofNat 64 w) 0) ∧
    (q.op = .load a len x → clean a.toNat sizeB →
      ∃ t, ends false t ∧ (t.core n).bank k = old ∧ (t.core n).latchL =
        some { len := len, bfmt := ctxB x, bmx := ctxBmx x, bytes := (List.range sizeB).map fun j => get (a.toNat + j) }) ∧
    (q.op = .drop i → (s.core n).epiBuf i = some e →
      ∃ t, ends false t ∧ (t.core n).bank k = old ∧ (t.core n).epiBuf i = none) ∧
    (q.op = .resume i → (s.core n).epiBuf i = none →
      ∃ t, ends true t ∧ (t.core n).bank k = old ∧ HandsBack s t q.by_ 9 0x01 (i.setWidth 64) (i.setWidth 64))

/-- R271, R273 and R284: LATCH_TAKE moves I into L for a latch command that waits; RING_HANDOFF passes L into the I of the next
core of the ring and ends `mring`; LATCH_WAIT_TIMEOUT counts one wait and hands the command back past the watchdog; MPASS_RUN
releases the pass's successor with the number of tiles, hands the pass back with the tile that failed, or, where the successor's
LID has gone absent (R21), with the number of tiles; a pass whose access waits at its word's owner goes on later at its tile (R408). The
address word 0 of a latch wait past the watchdog, and the LID and the number of tiles in the handback of a pass whose successor's LID is absent,
are the model's reading (log entry 9). -/
def Obligations.LatchAndPassEvents : Prop :=
  ∀ (s : State) (n : CoreId) (q : MatCmd) (r : List MatCmd) (l : LatchSlot) (cc : BitVec 40) (succ : Succ) (a b c : TMap)
    (epi base : Word) (as_ bs : BitVec 56) (t0 : BitVec 32) (amx bmx : Bool) (u : State) (k : Nat) (f : EngFault),
    (s.core n).matQ = q :: r →
    let next := nextOfRing n
    let total := q.waited + cc.setWidth 41
    let p : Pass := { a := a, b := b, c := c, epi := epi, ascale := as_, bscale := bs, amx := amx, bmx := bmx, base := base }
    let run := s.passTiles (q.user n) p (decide (a.efmt = 0x4)) p.tiles t0.toNat
    let pass := MatOp.pass succ a b c epi as_ bs t0 amx bmx base
    next ≠ n ∧ clusterOf next = clusterOf n ∧
    ((s.core n).latchHead = some q → (s.core n).latchL = none → (s.core n).latchI = some l →
      ∃ t, exec (.latchTake n) s = .next t ∧ SameMemory s t ∧
        t.core n = { s.core n with latchL := some l, latchI := none, matQ := { q with waited := 0 } :: r } ∧ ∀ m, m ≠ n → t.core m = s.core m) ∧
    (q.op = .ring → HoldsLid s n q.by_.lid → (s.core n).latchL = some l → (s.core next).latchI = none →
      ∃ t, exec (.ringHandoff n) s = .next t ∧ SameMemory s t ∧ (t.core n).latchL = none ∧ (t.core n).matQ = r ∧
        EndsWith (s.core n).estMat (t.core n).estMat false ((s.core n).heldCmds 1 - 1) ∧
        t.core next = { s.core next with latchI := some l } ∧ ∀ m, m ≠ n → m ≠ next → t.core m = s.core m) ∧
    ((s.core n).latchHead = some q → s.latchWaits n q = true →
      (total.toNat ≤ (s.core n).wdog.toNat →
        exec (.latchWaitTimeout n cc) s =
          .next (s.updCore n fun c => { c with matQ := { q with waited := total } :: r })) ∧
      ((s.core n).wdog.toNat < total.toNat →
        ∃ t, exec (.latchWaitTimeout n cc) s = .next t ∧ SameMemory s t ∧ (t.core n).matQ = r ∧
          HandsBack s t q.by_ 8 0x0C 0 0)) ∧
    (q.op = pass → p.tiles ≤ t0.toNat → s.successorAbsent succ = false →
      ∃ t, exec (.mpassRun n) s = .next t ∧ (t.core n).matQ = r ∧
        Completes s t n q.by_ 7 succ [BitVec.ofNat 64 p.tiles] (BitVec.ofNat 64 p.tiles)) ∧
    (q.op = pass → run = (u, none) →
      ∃ t, exec (.mpassRun n) s = .next t ∧ (t.core n).matQ = (u.core n).matQ.tail ∧
        Completes u t n q.by_ 7 succ [BitVec.ofNat 64 p.tiles] (BitVec.ofNat 64 p.tiles)) ∧
    (q.op = pass → run = (u, some (k, f)) → f.wait = true →
      ∃ t, exec (.mpassRun n) s = .next t ∧ t.net = u.net ∧ SameMemory u t ∧ (t.core n).estMat = (u.core n).estMat ∧
        (t.core n).matQ = { q with op := .pass succ a b c epi as_ bs (BitVec.ofNat 32 k) amx bmx base } :: (u.core n).matQ.tail) ∧
    (q.op = pass → run = (u, some (k, f)) → f.wait = false →
      ∃ t, exec (.mpassRun n) s = .next t ∧ (t.core n).matQ = (u.core n).matQ.tail ∧
        HandsBack u t q.by_ 7 f.cause f.addr (BitVec.ofNat 64 k))

/-! ## Traps, tasks and returns -/

/-- R347, R348, R350 and R351: a trap of an idle core or of a frame at levels 0 to 6 saves what the frame needs to go on, and enters
level 7 at k.tvec with cause, address and interrupted level in the supervisor registers, and leaves b0 to b3 as the previous frame at
level 7 left them, which is the model's reading (log entry 26); one at level 7 keeps those registers, records itself in k.xcause and stops
the core. Of the traps held for the frame that runs, or for none, the boundary takes the first in cause order, 0x08 first, and a selection
takes it before it looks at any arrival; k.ctl.mig raises cause 0x0E once. `trap` traps behind itself with cause 0x0F, at level 7 as any
other; a reserved encoding with 0x01 at itself; a failed fetch with its own cause. R330 and R390: a frame that parks leaves its record in
the region's record area and enters level 7 with cause 0x0B and the record's address; that its frame stays there beneath, with its
instance cleared, is the model's reading (log entry 11), and so is the wait for its stores; where the area cannot hold the record, a fault
of a translation traps with cause 0x04 and another park waits. -/
def Obligations.TrapEntry : Prop :=
  ∀ (s : State) (m : CoreId) (c : BitVec 5) (a : Word) (epc : BitVec 56) (async : Bool) (n : BitVec 9) (h : HeldTrap),
    let k := s.core m
    let t := s.takeTrap m c a epc async
    let d := t.core m
    let below : Prop := k.level.toNat < 7 ∨ k.level = 0xF
    let for_ : HeldTrap → Prop := fun g => g.level = k.level ∨ g.level = 0xF
    let soonest : Prop := h ∈ k.heldTraps ∧ for_ h ∧ ∀ g ∈ k.heldTraps, for_ g → g ≠ h →
      g.cause ≠ 0x08 ∧ (h.cause = 0x08 ∨ h.cause.toNat < g.cause.toNat)
    let taken : State → Prop := fun u => SameMemory s u ∧
      EntersSupervisor k (u.core m) h.cause h.addr (h.epc.getD (if k.level = 0xF then 0 else k.pc)) h.epc.isNone
    (below → EntersSupervisor k d c a epc async ∧ SameMemory s t) ∧
    (k.level = 7 → CoreChecked k d c k.pc ∧ SameMemory s t) ∧
    (below → k.stopped = false → (k.level ≠ 0xF → k.here.squash = false) → soonest →
      taken (s.boundary m) ∧ ((s.boundary m).core m).heldTraps = k.heldTraps.erase h ∧ (k.here.parkDue = false → taken (s.selectNext m))) ∧
    (k.level.toNat < 7 → k.stopped = false → k.here.squash = true →
      EntersSupervisor (k.updHere fun b => { b with squash := false, parkDue := false }) ((s.boundary m).core m) 0x08 0 k.pc true) ∧
    (NoneDue s m → s.boundary m = s) ∧
    (let v := s.migTrap m
     (k.mig = false → v = s) ∧
     (k.mig = true → SameMemory s v ∧ (v.core m).mig = false ∧
      (below → EntersSupervisor k (v.core m) 0x0E 0 (if k.level = 0xF then 0 else k.pc) true) ∧
      (k.level = 7 → CoreChecked k (v.core m) 0x0E k.pc))) ∧
    (∀ why va u, s.me.level.toNat < 7 → s.park s.cur why va s.pc false = (u, true) →
      s.stop (.park why va) = u ∧ u.me.level = 7 ∧ u.pc = s.me.tvec ∧ u.me.epc = s.pc ∧ causeCode u.me.cause = 0x0B ∧
        causeLevel u.me.cause = s.me.level ∧ causeAsync u.me.cause = false ∧ causeEntered u.me.cause = true ∧
        (u.me.bank s.me.lvl).inst = none ∧
        ∃ r, u.records = s.records ++ [r] ∧ r.addr = u.me.addr.setWidth 56 ∧ r.why = why ∧ r.inst = s.me.here.inst ∧
          r.lid = s.me.lid ∧ r.level = s.me.lvl ∧ some r.region = s.me.region) ∧
    (∀ why va u, s.me.level.toNat < 7 → s.park s.cur why va s.pc false = (u, false) →
      let left := (s.drainFrom s.cur s.me.sbuf.length).settled s.cur
      (left = false → s.stop (.park why va) = s.drainFrom s.cur s.me.sbuf.length) ∧
      (left = true → s.stop (.park why va) = if why = 8 then u.takeTrap s.cur 0x04 va s.pc false else u)) ∧
    (∀ why va, s.me.level = 7 → s.stop (.park why va) = s.takeTrap s.cur 0x04 va s.pc false) ∧
    (s.me.level.toNat < 7 → ∃ t, exec (.trap n) s = .next t ∧ SameMemory s t ∧
      EntersSupervisor s.me t.me 0x0F (n.setWidth 64) (s.pc + 4) false) ∧
    (s.me.level = 7 → ∃ t, exec (.trap n) s = .next t ∧ SameMemory s t ∧ CoreChecked s.me t.me 0x0F s.pc) ∧
    Traps s (.illegalInstruction a) 0x01 a ∧ Traps s (.fetchFault c a) c a

/-- R349 and R359: in a frame that a trap entered, `tret` and `done` go on at k.epc with the saved threshold and branch
targets, or leave an idle core idle; `tret.end`, and `tret` after causes 0x08 and 0x0B, end the interrupted task; `idle` in a
frame that an arrival entered ends it, and stops the clock of a core left without a frame or a startable arrival. R45: each ends with
one selection among the arrivals that the core holds. -/
def Obligations.TrapReturn : Prop :=
  ∀ (s : State),
    let k := s.me
    let l := causeLevel k.cause
    let b : BitVec 3 := BitVec.ofNat 3 l.toNat
    let ended : Prop := causeCode k.cause = 0x08 ∨ causeCode k.cause = 0x0B
    let resumed : State → Prop := fun t => SameMemory s t ∧ t.me.level = l ∧ t.me.thresh = (k.bank b).rthresh ∧
      t.me.b = (k.bank b).rb ∧ t.pc = k.epc ∧ causeEntered t.me.cause = false ∧ (t.me.bank 7).live = false ∧
      t.me.sp = k.sp ∧ ∀ j, j ≠ 7 → t.me.bank j = k.bank j
    let idles : State → Prop := fun t => SameMemory s t ∧ t.me.level = 0xF ∧ t.me.thresh = 0xF ∧
      causeEntered t.me.cause = false ∧ (t.me.bank 7).live = false
    let ends : State → Prop := fun t => SameStores s t ∧ Popped k t.me b ∧ causeEntered t.me.cause = false
    let leaves : State → Prop := fun t => SameStores s t ∧ Popped k t.me 7
    -- the instruction leaves u, among whose arrivals, the same as before, one selection follows
    let selects : Instr → (State → Prop) → Prop := fun i p => ∃ u, exec i s = .next ((u.selectNext s.cur).idleRun s.cur) ∧ p u ∧
      NoneDue u s.cur ∧ ∀ q, u.heldAt s.cur q = s.heldAt s.cur q
    k.level = 7 → NoneDue s s.cur → k.mig = false → k.member = none →
    (causeEntered k.cause = true → exec .done s = exec .tret s ∧ exec .compactDone s = exec .tret s) ∧
    (causeEntered k.cause = true → l = 0xF → selects .tret idles ∧ selects .tretEnd idles) ∧
    (causeEntered k.cause = true → l.toNat < 7 → ¬ ended → selects .tret resumed) ∧
    (causeEntered k.cause = true → l.toNat < 7 → (k.bank b).inst = none → ∀ i : Instr, i = .tretEnd ∨ i = .tret ∧ ended → selects i ends) ∧
    (Quiet s s.cur →
      (causeEntered k.cause = true → l = 0xF → ∀ i : Instr, i = .tret ∨ i = .tretEnd → ∃ t, exec i s = .next t ∧ idles t) ∧
      (causeEntered k.cause = true → l.toNat < 7 → ¬ ended → ∃ t, exec .tret s = .next t ∧ resumed t) ∧
      (causeEntered k.cause = true → l.toNat < 7 → (k.bank b).inst = none → ∀ i : Instr, i = .tretEnd ∨ i = .tret ∧ ended →
        ∃ t, exec i s = .next t ∧ ends t)) ∧
    (causeEntered k.cause = false → k.here.claims = [] → k.here.inst = none →
      (Quiet s s.cur → ∃ t, exec .idle s = .next t ∧ leaves t ∧ (t.me.level = 0xF → t.me.asleep = true)) ∧
      ∃ u, leaves u ∧ NoneDue u s.cur ∧ (∀ q, u.heldAt s.cur q = s.heldAt s.cur q) ∧
        let v := (u.selectNext s.cur).idleRun s.cur
        exec .idle s = .next (if v.me.level = 0xF ∧ (v.nextFrom s.cur 8).isNone then v.updMe fun c => { c with asleep := true } else v))

/-- R38 and R307: `done` of a frame that no trap entered ends the task when it holds no claim, and its instance counts once its stores
have left the store buffer; with a claim held it traps with cause 0x05 and k.addr 0x30 above the newest claim's resource. R45: one
selection among the arrivals that the core holds follows, after the trap 0x0E that k.ctl.mig raises (R350). -/
def Obligations.TaskEnds : Prop :=
  ∀ (s : State) (i : Inst) (x : Claim) (r : List Claim) (e : Instr), e = .done ∨ e = .compactDone →
    let k := s.me
    let n := s.cur
    let counts : List Launch := s.launches.map fun l =>
      if l.id = i.id ∧ i.index ∉ l.ended then { l with ended := i.index :: l.ended } else l
    k.level ≠ 0xF → ¬ (k.level = 7 ∧ causeEntered k.cause = true) →
    (k.here.claims = x :: r → Traps s e 0x05 (BitVec.ofNat 64 (48 + x.res.toNat))) ∧
    (k.here.claims = [] → k.here.inst = some i → ∀ u w, s.drain n = .error (u, w) → exec e s = .next (u.stop w)) ∧
    (NoneDue s n → k.member = none → k.here.claims = [] → k.here.inst = none →
      ∃ u, exec e s = .next (((u.migTrap n).selectNext n).idleRun n) ∧ SameStores s u ∧ Popped k u.me k.lvl ∧ NoneDue u n ∧
        u.me.mig = k.mig ∧ u.launches = s.launches ∧ u.net = s.net ∧ ∀ p, u.heldAt n p = s.heldAt n p) ∧
    (Quiet s n → k.here.claims = [] →
      (k.here.inst = none →
        ∃ t, exec e s = .next t ∧ SameStores s t ∧ Popped k t.me k.lvl ∧ t.launches = s.launches ∧ t.net = s.net) ∧
      (k.here.inst = some i → i.walk = false → (∀ l ∈ s.launches, l.id = i.id → l.count = none) →
        k.sbuf = [] → k.flight = [] → k.amoWait = false →
        ∃ t, exec e s = .next t ∧ SameStores s t ∧ Popped k t.me k.lvl ∧ t.launches = counts))

/-- R36, R37, R45 and R347: an arrival of a priority above the threshold of a powered core that holds no other and that its LID names, with
its type enabled and room on the stack, starts its handler, which at level 7 finds k.cause and k.addr as R347 states; one that is not
above the threshold is held. R45 and R46: a selection looks at the first startable held arrival of the highest level that has one: it
starts that arrival where it is above the threshold and fits, leaves all as it was where it is not or does not, and removes one that can
never fit, with trap 0x0A held for the core. R350: with k.ctl.mig set, cause 0x0E is raised before the handler's first instruction. -/
def Obligations.ArrivalStartsTask : Prop :=
  ∀ (s : State) (n : CoreId) (t : Transit) (r : List Transit) (a : Arr),
    let k := s.core n
    let h := a.msg.hdr
    -- an arrival that brings no acquire and names no record
    let plain : Prop := a.resume = none ∧ a.far = false ∧ a.srcMod = s.modu ∧ dieOf (hdrSrc h) = dieOf n ∧
      hdrType h ∉ [0x00, 0x05, 0x08, 0x0A, 0x0B]
    -- no other domain's bytes wait on the die to be written home, which the read of the handler's first line would do
    let clean : Prop := ∀ e ∈ (s.die (dieOf n)).copies, e.2.dom = k.dom
    -- there is room for it above the frame that runs
    let goes : BitVec 3 → Prop := fun p => k.above p = true ∧ k.arrSize a p ≤ k.freeStack ∧ (k.level = 0xF ∨ k.level.toNat < p.toNat)
    (let p := k.effPrio h
     s.powered n = true → s.present t.dst = true → s.physOf t.dst = n → k.ni = t :: r → t.cargo = .message a → plain →
     hdrType h ≠ 0x09 ∨ a.inst = none → k.savedLid ≠ some t.dst → (∀ l, s.heldAt n l = []) → s.weirHas (.inbox t.dst p) = false →
     k.tooLarge a p = false → t.tag = none → k.mig = false → NoneDue s n →
      (k.above p = false →
        ∃ u, exec (.arrivalAccept n) s = .next u ∧ SameMemory s u ∧ (u.core n).ni = r ∧ (u.core n).held p = [a] ∧
          (u.core n).level = k.level ∧ (u.core n).pc = k.pc ∧ (u.core n).banks = k.banks) ∧
      (goes p → k.startable a p = true → k.stopped = false → k.member = none →
        ∃ u, exec (.arrivalAccept n) s = .next u ∧ (clean → SameStores s u) ∧ Started k (u.core n) a p ∧ (u.core n).ni = r)) ∧
    (∀ p before after, NoneDue s n → k.stopped = false → FirstHeld s n p a before after → plain →
      let u := s.selectNext n
      (k.tooLarge a p = false → goes p → k.member = none → (clean → SameStores s u) ∧ u.heldAt n p = before ++ after ∧
        (∀ q, q ≠ p → u.heldAt n q = s.heldAt n q) ∧
        (k.mig = false → Started k (u.core n) a p) ∧
        (k.mig = true → ∃ d, Started k d a p ∧ (u.core n).mig = false ∧
          (p ≠ 7 → EntersSupervisor d (u.core n) 0x0E 0 d.pc true) ∧ (p = 7 → CoreChecked d (u.core n) 0x0E d.pc))) ∧
      (k.tooLarge a p = false → (k.above p = false ∨ k.freeStack < k.arrSize a p) → u = s) ∧
      (k.tooLarge a p = true → k.level ≠ 0xF → before = [] → after = [] → (∀ q, q ≠ p → s.heldAt n q = []) →
        (∀ q, u.heldAt n q = []) ∧ (u.core n).level = k.level ∧ (u.core n).heldTraps =
          [{ level := 0xF, cause := 0x0A, addr := BitVec.ofNat 64 ((hdrType h).toNat + 256 * p.toNat), epc := none }])) ∧
    (NoneDue s n → (∀ p, ∀ x ∈ s.heldAt n p, k.startable x p = false) → s.selectNext n = s)

/-- R44, R308 to R310, R313 and R316: `arm` and `disarm` set and clear bit 62 of one vector table entry, and below level 7 only
of a type from 0x20 on, and a tentative instance parks at them (R331); a selection follows `arm` (R45); `ptest` and `ptest.w` read
pending bits, `estat` the status of the engines, `tick` the reference counter of the cluster and `shape` the instance; `rng` mixes seed,
LID and draw counter and takes one draw. -/
def Obligations.PendingAndStatus : Prop :=
  ∀ (s : State) (d a : SReg) (ty : BitVec 8) (e : BitVec 4) (on : Bool) (w : Instr),
    let k := s.me
    let x := s.rs a
    let holds : BitVec 8 → Prop := fun ty =>
      (∃ p, ∃ m ∈ k.held p, hdrType m.msg.hdr = ty) ∨
      (k.savedLid ≠ some k.lid ∧ s.contextOut k.lid = false ∧
        ∃ v ∈ s.weir, ∃ p m, v.queue = .inbox k.lid p ∧ v.item = .arr m ∧ hdrType m.msg.hdr = ty)
    let names : BitVec 8 → Prop := fun ty =>
      if on then w = .armImmediate ty ∨ (w = .armRegister a ∧ ty = BitVec.ofNat 8 x.toNat)
      else w = .disarmImmediate ty ∨ (w = .disarmRegister a ∧ ty = BitVec.ofNat 8 x.toNat)
    let at_ := k.vbase.toNat + 8 * ty.toNat + 7
    (names ty → k.level ≠ 7 → ty.toNat < 0x20 → Traps s w 0x03 (ty.setWidth 64)) ∧
    (names ty → (k.level = 7 ∨ 0x20 ≤ ty.toNat) → s.tentative = true → Parks s w 7) ∧
    (names ty → (k.level = 7 ∨ 0x20 ≤ ty.toNat) → s.tentative = false → k.sbuf = [] →
      ∃ (m : Memory) (st : Vector (BitVec 41) 8),
        let u := s.updMe fun c => { c with tcm := m, pc := c.pc + 4, stalls := st }
        exec w s = .next (if on then u.selectNext s.cur else u) ∧
        (NoneDue s s.cur → (∀ p, s.heldAt s.cur p = []) → exec w s = .next u) ∧
        ∀ b j, j < 8 → (m.get b).getLsbD j = if b = at_ ∧ j = 6 then on else (k.tcm.get b).getLsbD j) ∧
    (holds (BitVec.ofNat 8 x.toNat) → Retires s (.ptest d a) d 1 4) ∧
    (¬ holds (BitVec.ofNat 8 x.toNat) → Retires s (.ptest d a) d 0 4) ∧
    (∃ y : Word, Retires s (.ptestW d a) d y 4 ∧ ∀ j, j < 64 →
      (y.getLsbD j = true ↔ holds (BitVec.ofNat 8 (64 * (x.toNat % 4) + j)))) ∧
    (∃ y : Word, Retires s (.estat d) d y 4 ∧ bits y 48 16 = 0 ∧ (e.toNat < 3 →
      bits y (16 * e.toNat) 8 = (k.est e).ended ∧ y.getLsbD (16 * e.toNat + 8) = decide (k.heldCmds e ≠ 0) ∧
      y.getLsbD (16 * e.toNat + 9) = (k.est e).done ∧ y.getLsbD (16 * e.toNat + 10) = (k.est e).fault ∧
      (bits y (16 * e.toNat + 11) 2).toNat = k.heldCmds e % 4)) ∧
    Retires s (.tick d) d (s.cluster (clusterOf s.cur)).counter 4 ∧
    Retires s (.compactTick d) d (s.cluster (clusterOf s.cur)).counter 2 ∧
    (∃ y : Word, Retires s (.shape d) d y 4 ∧
      match k.here.inst with
      | none => y = 0
      | some i => bits y 0 32 = i.index ∧ y.getLsbD 32 = i.tentative ∧ y.getLsbD 33 = true ∧ y.toNat < 2 ^ 34) ∧
    (let z0 := k.seed + k.lid.setWidth 64 * 0xD1B54A32D192ED03 + k.sctr * 0x9E3779B97F4A7C15
     let z1 := (z0 ^^^ (z0 >>> 30)) * 0xBF58476D1CE4E5B9
     let z2 := (z1 ^^^ (z1 >>> 27)) * 0x94D049BB133111EB
     let draws : Instr → Nat → Prop := fun i len =>
       ∃ t, exec i s = .next t ∧ SameMemory s t ∧ ReadsInto s t d (z2 ^^^ (z2 >>> 31)) len ∧ t.me.sctr = k.sctr + 1 ∧
         t.me.seed = k.seed
     draws (.rng d) 4 ∧ draws (.compactRng d) 2)

/-- R47, R48 and R312: `claim` pushes the resource with the threshold to restore and raises the threshold to the ceiling, a ceiling
of 7 taken as 6;
`unclaim` of the newest claim restores it, and a selection follows (R45); each of the other cases traps with cause 0x05 and its reason in
k.addr, before any change. -/
def Obligations.ClaimResults : Prop :=
  ∀ (s : State) (n : BitVec 4) (x : Claim) (r : List Claim),
    let k := s.me
    let ceiling := min 6 (bits k.ceil (3 * n.toNat) 3).toNat
    let held := k.here.claims.any fun c => c.res == n
    let reason : Nat → Word := fun q => BitVec.ofNat 64 (16 * q + n.toNat)
    let after : Nat → List Claim → BitVec 4 → Vector (BitVec 41) 8 → State := fun len cl th st => s.updMe fun c =>
      { c.updHere fun b => { b with claims := cl } with thresh := th, pc := c.pc + BitVec.ofNat 56 len, stalls := st }
    let sets : Instr → Nat → List Claim → BitVec 4 → Prop := fun i len cl th => ∃ st, exec i s = .next (after len cl th st)
    let both : (Instr → Nat → Prop) → (BitVec 4 → Instr) × (BitVec 4 → Instr) → Prop := fun p f => p (f.1 n) 4 ∧ p (f.2 n) 2
    let claims : (BitVec 4 → Instr) × (BitVec 4 → Instr) := (.claim, .compactClaim)
    let unclaims : (BitVec 4 → Instr) × (BitVec 4 → Instr) := (.unclaim, .compactUnclaim)
    (held = true → both (fun i _ => Traps s i 0x05 (reason 1)) claims) ∧
    (held = false → ceiling < k.lvl.toNat → both (fun i _ => Traps s i 0x05 (reason 4)) claims) ∧
    (held = false → k.lvl.toNat ≤ ceiling →
      both (fun i len => sets i len ({ res := n, saved := k.thresh } :: k.here.claims)
        (BitVec.ofNat 4 (max k.thresh.toNat ceiling))) claims) ∧
    (k.here.claims = [] → both (fun i _ => Traps s i 0x05 (reason 0)) unclaims) ∧
    (k.here.claims = x :: r → x.res ≠ n →
      both (fun i _ => Traps s i 0x05 (reason (if r.any (fun c => c.res == n) then 2 else 0))) unclaims) ∧
    (k.here.claims = x :: r → x.res = n →
      both (fun i len => ∃ st, exec i s = .next ((after len r x.saved st).selectNext s.cur)) unclaims ∧
      (NoneDue s s.cur → (∀ p, s.heldAt s.cur p = []) → both (fun i len => sets i len r x.saved) unclaims))

/-! ## Messages and allocations -/

/-- R113, R122 and R315: `send` with an empty store buffer, no sync read or atomic under way and a free place in the outbound buffer puts one message with the
core's own LID and the named payload registers on its way; a reserved bit or payload registers beyond s31 trap with cause 0x01,
and a type below 0x20 from below level 7 and an absent LID with 0x03; with no free place it waits, or, where a message of the buffer has
been taken back for a full weir, traps with 0x0A (R378). A tentative instance parks at a `send` (R331). -/
def Obligations.SendResults : Prop :=
  ∀ (s : State) (d a b : SReg),
    let h := s.rs d
    let k := s.me
    let n := (hdrPlen h).toNat
    let modu := if b = 0 then s.modu else s.moduleOf (bits (s.rs b) 0 16)
    let fields : Prop := h.toNat < 2 ^ 54 ∧ a.toNat + n ≤ 32 ∧ (b = 0 ∨ (s.rs b).toNat < 2 ^ 16)
    let allowed : Prop := k.level = 7 ∨ 0x20 ≤ (hdrType h).toNat
    let named : Prop := modu ≠ s.modu ∨ s.present (hdrDst h) = true
    let u := s.releaseAt (dieOf s.cur) (s.covering s.cur modu (hdrDst h))
    (¬ fields → Traps s (.send d a b) 0x01 h) ∧
    (fields → ¬ allowed → Traps s (.send d a b) 0x03 h) ∧
    (fields → allowed → ¬ named → Traps s (.send d a b) 0x03 ((hdrDst h).setWidth 64)) ∧
    (s.covering s.cur modu (hdrDst h) ≠ .module → s.covering s.cur modu (hdrDst h) ≠ .system → u = s) ∧
    (fields → allowed → named → s.tentative = true → Parks s (.send d a b) 3) ∧
    (fields → allowed → named → s.tentative = false → k.sbuf = [] → k.flight = [] → k.amoWait = false →
      4 ≤ (u.outbound s.cur).length → exec (.send d a b) s = .next
        (if (u.outbound s.cur).any (fun t => t.held) then u.takeTrap s.cur 0x0A 0x53 s.pc false else u)) ∧
    (fields → allowed → named → s.tentative = false → k.sbuf = [] → k.flight = [] → k.amoWait = false →
      (u.outbound s.cur).length < 4 →
      ∃ (m : Transit) (x : Arr) (st : Vector (BitVec 41) 8),
        exec (.send d a b) s = .next { (u.updMe fun c =>
          { c with unacked := c.unacked ++ [u.nextId], pc := c.pc + 4, stalls := st }) with
            net := u.net ++ [m], nextId := u.nextId + 1 } ∧
        m.cargo = .message x ∧ m.dst = hdrDst h ∧ m.dstMod = modu ∧ m.from_ = some s.cur ∧ m.held = false ∧
        hdrType x.msg.hdr = hdrType h ∧ hdrPrio x.msg.hdr = hdrPrio h ∧ hdrChan x.msg.hdr = hdrChan h ∧
        hdrDst x.msg.hdr = hdrDst h ∧ hdrPlen x.msg.hdr = hdrPlen h ∧ hdrSrc x.msg.hdr = k.lid ∧
        x.msg.payload = (List.range n).map fun i => s.rs (a + BitVec.ofNat 5 i))

/-- R317, R318 and R339: `ralloc` of a firm frame takes a 64-byte aligned place that no allocation of the region holds, where the pool
has one, for one slot or, tied to an accepted launch whose shape has not resolved, for nmax slots charged as predicted, and writes its
base; `rtrim` cuts an allocation to a multiple of 64 bytes, and what it returns is spoiled; neither has another effect. Sizes,
addresses, a full pool and a seventeenth tied allocation trap with the causes stated; a `ralloc` whose launch still stands in an engine
waits for it. A request that leaves the core makes the frame
wait, and ALLOCATION_SERVICE performs the sector's oldest and writes its reply into the waiting window, where the registers of atomics under way go on waiting, or holds its trap for the
frame. -/
def Obligations.AllocationResults : Prop :=
  ∀ (s : State) (d a b : SReg) (r : Region) (i : RegInfo) (x : Alloc) (sec : BitVec 6) (q : AllocReq) (l : List AllocReq)
    (t : State) (v : Word) (y : Reply) (id nmax p : Nat) (e : BitVec 5 × Word),
    let n := (s.rs b).toNat
    let size : Prop := n ≠ 0 ∧ n % 64 = 0
    -- no launch with the shape word stands in an engine, where it is not accepted yet
    let ready : Prop := a ≠ 0 → s.shapePending (s.rs a) = false
    let mine : List Alloc := s.allocs.filter fun z => z.region == r
    let inPool : Nat → Nat → Prop := fun g m => i.poolBase ≤ g ∧ g + m ≤ i.poolBase + i.poolSize
    let free : Nat → Nat → Prop := fun g m => inPool g m ∧ ∀ z ∈ mine, g + m ≤ z.base ∨ z.base + z.size ≤ g
    let tied := (s.allocs.filter fun z => z.tied == some id).length
    let takes : Nat → Nat → Option Nat → SReg → Prop := fun m charge tie a =>
      ∃ (g : Nat) (u : State), free g m ∧ g % 64 = 0 ∧ exec (.ralloc d a b) s = .next u ∧
        ReadsInto s u d (BitVec.ofNat 64 g) 4 ∧ SameMemory s u ∧
        KeepsButScalars { s with allocs := s.allocs ++
          [{ region := r, base := g, size := m, slot := n, charge := charge, tied := tie }] } u
    let asks : Instr → Bool → Option Word → Word → SReg → Prop := fun w trim a b d =>
      ∃ (z : Reply) (f : AllocReq) (u : State), exec w s = .next u ∧ u.pc = s.pc + 4 ∧ SameMemory s u ∧
        u.me.here.spend = 0xFFFFFFFF ∧ u.me.replies = s.me.replies ++ [z] ∧ z.d = d ∧ z.level = s.me.lvl ∧ z.value = none ∧
        z.trap = none ∧ f.reply = z.id ∧ f.by_ = s.issuer ∧ f.trim = trim ∧ f.a = a ∧ f.b = b ∧
        (u.sector (sectorOf s.cur)).allocs = (s.sector (sectorOf s.cur)).allocs ++ [f]
    let served := s.updSector sec fun k => { k with allocs := l }
    let core := s.core q.by_.core
    let waits := (core.replies.find? fun z => z.id == q.reply) = some y
    let answers : State → (SReg → Word) → List HeldTrap → Prop := fun w f h =>
      ∃ u, exec (.allocationService sec) s = .next u ∧ (u.sector sec).allocs = l ∧ u.allocs = w.allocs ∧
        (u.core q.by_.core).replies = core.replies.filter (fun z => z.id != q.reply) ∧
        (∀ j : SReg, ((u.core q.by_.core).bank y.level).spend.getLsbD j.toNat = (core.replies.any fun z =>
          z.id != q.reply && z.amo && !z.voided && z.level == y.level && z.d == j && j != 0)) ∧ (u.core q.by_.core).heldTraps = core.heldTraps ++ h ∧
        ∀ z, ((u.core q.by_.core).bank y.level).rs z = f z
    let same : SReg → Word := fun z => (core.bank y.level).rs z
    let held : List HeldTrap := [{ level := y.level.setWidth 4, cause := e.1, addr := e.2, epc := some y.epc }]
    (s.tentative = true → Parks s (.ralloc d a b) 7 ∧ Parks s (.rtrim a b) 7) ∧
    (s.tentative = false →
    (¬ ready → exec (.ralloc d a b) s = .next s) ∧
    (s.slow = false → ready → ¬ size → Traps s (.ralloc d a b) 0x02 (s.rs b)) ∧
    (s.slow = false → ready → size → a ≠ 0 → s.shapedAt (s.rs a) = none → Traps s (.ralloc d a b) 0x03 (s.rs a)) ∧
    (s.slow = false → size → s.me.region = some r → s.infoOf r = some i → i.poolBase % 64 = 0 →
      (∀ z ∈ mine, inPool z.base z.size ∧ (z.base + z.size) % 64 = 0) →
      ((∃ g, free g n) → takes n n none 0) ∧
      ((¬ ∃ g, free g n) → Traps s (.ralloc d 0 b) 0x0A (s.rs b)) ∧
      (ready → a ≠ 0 → s.shapedAt (s.rs a) = some (id, nmax, p) → 0 < nmax →
        ((∃ g, free g (nmax * n)) → tied < 16 → takes (nmax * n) (p * n) (some id) a) ∧
        ((∃ g, free g (nmax * n)) → 16 ≤ tied → Traps s (.ralloc d a b) 0x0A 0) ∧
        ((¬ ∃ g, free g (nmax * n)) → Traps s (.ralloc d a b) 0x0A (BitVec.ofNat 64 (nmax * n))))) ∧
    (s.slow = false → (∀ z ∈ s.allocs, some z.region = s.me.region → z.base ≠ (s.rs a).toNat) →
      Traps s (.rtrim a b) 0x03 (s.rs a)) ∧
    (s.slow = false → s.allocs.find? (fun z => some z.region == s.me.region && z.base == (s.rs a).toNat) = some x →
      (n % 64 ≠ 0 ∨ x.size < n → Traps s (.rtrim a b) 0x01 (s.rs b)) ∧
      (n % 64 = 0 → n ≤ x.size →
        let kept : List Alloc := if n = 0 then s.allocs.filter fun z => !(z.region == x.region && z.base == x.base)
          else s.allocs.map fun z => if z.region = x.region ∧ z.base = x.base then
            { z with size := n, charge := min z.charge n } else z
        ∃ u, exec (.rtrim a b) s = .next u ∧ PassesBy s u 4 ∧ u.allocs = kept ∧
          KeepsButPc (State.spoil { s with allocs := kept } (dieOf s.cur) (x.base + n) (x.size - n)) u)) ∧
    (s.slow = true → (ready → asks (.ralloc d a b) false (if a = 0 then none else some (s.rs a)) (s.rs b) d) ∧
      asks (.rtrim a b) true (some (s.rs a)) (s.rs b) 0)) ∧
    ((s.sector sec).allocs = q :: l → waits →
      (q.trim = false → served.allocate q.by_ q.a q.b = .ok (t, v) →
        answers t (fun z => if z = y.d ∧ y.d ≠ 0 then v else same z) []) ∧
      (q.trim = false → served.allocate q.by_ q.a q.b = .error e → answers s same held) ∧
      (q.trim = true → served.trim q.by_ (q.a.getD 0) q.b = .ok t →
        answers t (fun z => if z = y.d ∧ y.d ≠ 0 then 0 else same z) []) ∧
      (q.trim = true → served.trim q.by_ (q.a.getD 0) q.b = .error e → answers s same held))

/-! ## Commands of the copy and remote-request engines -/

/-- R303, R319, R324, R325 and R327, with an empty store buffer, no sync read or atomic under way and a free slot: `walk`, `barv`, `launch` and
`rreq` of a firm frame whose checks pass enter the remote-request engine with the record they read and retire; `enc` enters it with
the place of its record, which the encoder reads later (R425). A tentative instance parks at each (R236, R331). That a poisoned word of
a record is read as its bytes is the model's choice (log entry 28). -/
def Obligations.RemoteCommandsEnter : Prop :=
  ∀ (s : State) (d : SReg) (x : QReg) (sprio : BitVec 3) (stype : BitVec 8),
    let succ : Succ := { stype := stype, sprio := sprio, dest := s.destWord d }
    let off := (bits (s.rd x) 0 16).toNat
    let w : Nat → Word := fun i => s.me.tcmWord (off + 8 * i)
    let zero : List Nat → Prop := fun l => ∀ i ∈ l, w i = 0
    let record : Prop := off % 64 = 0 ∧ off + 64 ≤ s.me.slim.toNat
    let enters : Instr → BitVec 4 → RemOp → Bool → Prop := fun i why op access =>
      FirmDoes s i why (EntersRemote s i succ op access)
    SuccessorOk s d sprio stype false → s.me.sbuf = [] → s.me.flight = [] → s.me.amoWait = false → s.me.heldCmds 2 < 2 →
    (off % 8 = 0 → off < s.me.slim.toNat → enters (.barv d x sprio stype) 4 (.barv (w 0)) false) ∧
    (record → enters (.enc d x sprio stype) 4 (.enc off) false) ∧
    (let r : LaunchRec := { rcb := bits (w 0) 0 56, shapew := bits (w 1) 0 56, nmin := bits (w 2) 0 32,
                            nmax := bits (w 2) 32 32, slot := bits (w 3) 0 6, policy := bits (w 3) 6 2, arg := w 4 }
     record → (w 0).toNat < 2 ^ 56 → (w 1).toNat < 2 ^ 56 → (w 3).toNat < 2 ^ 8 → zero [5, 6, 7] →
       r.shapew.toNat % 8 = 0 → r.policy ≠ 3 →
       (if r.shapew = 0 then r.nmax = 0 else r.nmin.toNat ≤ r.nmax.toNat) →
       enters (.launch d x sprio stype) 4 (.launch r) false) ∧
    (let itype : Byte := bits (w 0) 16 8
     let iprio : BitVec 3 := bits (w 0) 24 3
     let lid0 : CoreId := bits (w 1) 0 18
     let ncores := (bits (w 1) 18 15).toNat
     ∀ m, record → (w 0).toNat < 2 ^ 27 → (w 1).toNat < 2 ^ 33 → zero [2, 3, 4, 5, 6, 7] → 0x20 ≤ itype.toNat → iprio ≠ 7 →
       1 ≤ ncores → ncores ≤ 16384 → s.readMap (bits (w 0) 0 16).toNat = .ok m → m.tiles < 2 ^ 32 →
       lid0.toNat + ncores ≤ 2 ^ 18 →
       (∀ i, i < ncores → dieOf (BitVec.ofNat 18 (lid0.toNat + i)) = dieOf s.cur ∧
         s.present (BitVec.ofNat 18 (lid0.toNat + i)) = true) →
       enters (.walk d x sprio stype) 4
         (.walk { tmap := m, itype := itype, iprio := iprio, lid0 := lid0, ncores := ncores, tiles := m.tiles }) false) ∧
    (∀ (sc : Scope) (mode : SyncMode),
      let r : RreqRec := { lid := bits (w 0) 0 18, modu := s.moduleOf (bits (w 0) 18 16), toff := bits (w 0) 34 16,
                           op := bits (w 0) 50 4, scope := sc, ord := bits (w 0) 57 2, aop := AmoOp.ofCode (bits (w 0) 59 3),
                           loff := bits (w 1) 0 16, len := (bits (w 1) 16 5).toNat + 1, mode := mode, operand := w 2,
                           expect := w 3 }
      record → rreqOk w = true → Scope.ofCode (bits (w 0) 54 3) = some sc → SyncMode.ofCode (bits (w 1) 24 3) = some mode →
        r.toff.toNat % 8 = 0 → r.loff.toNat % 8 = 0 → r.loff.toNat + 8 * r.len ≤ s.me.slim.toNat →
        (r.modu ≠ s.modu ∨ s.present r.lid = true) →
        enters (.rreq d x sprio stype) 3 (.rreq r) true)

/-- R303: a WE command traps with cause 0x01 on reserved destination bits, else with 0x03 on a successor type or priority
that its level may not name, else with 0x03 on an absent LID, `mpass` once its engine has a slot (R261), in the order of log entry 8;
and R319: a record that is not aligned or not below k.slim traps
with cause 0x03. -/
def Obligations.CommandTraps : Prop :=
  ∀ (s : State) (d : SReg) (x y : QReg) (sprio : BitVec 3) (stype : BitVec 8) (i : Instr),
    let w := s.destWord d
    let off := (bits (s.rd x) 0 16).toNat
    let start := decide (i = .copy d x y sprio stype ∨ i = .cpst d x y sprio stype)
    let reserved : Prop := (start = false ∧ w.toNat / 2 ^ 36 ≠ 0) ∨ (w.getLsbD 34 = true ∧ w.toNat % 2 ^ 34 ≠ 0)
    let type : Prop := s.me.level ≠ 7 ∧ w.getLsbD 35 = false ∧ (stype.toNat < 0x20 ∨ sprio = 7)
    let absent : Prop := w.getLsbD 35 = false ∧ w.getLsbD 34 = false ∧ s.moduleOf (bits w 18 16) = s.modu ∧
      s.present (bits w 0 18) = false
    let records : List Instr := [.walk d x sprio stype, .launch d x sprio stype, .enc d x sprio stype, .rreq d x sprio stype]
    i ∈ records ++ [.barv d x sprio stype, .mpass d x sprio stype, .copy d x y sprio stype, .cpst d x y sprio stype] →
    (i = .mpass d x sprio stype → s.me.heldCmds 1 < 2) →
    (reserved → Traps s i 0x01 w) ∧
    (¬ reserved → type → Traps s i 0x03 ((sprio ++ stype).setWidth 64)) ∧
    (¬ reserved → ¬ type → absent → Traps s i 0x03 ((bits w 0 18).setWidth 64)) ∧
    (i ∈ records → SuccessorOk s d sprio stype false → s.me.sbuf = [] → s.me.flight = [] → s.me.amoWait = false → (off % 64 ≠ 0 ∨ s.me.slim.toNat < off + 64) →
      Traps s i 0x03 (BitVec.ofNat 64 off))

/-- R104, R282, R303, R321 and R322, with an empty store buffer, no sync read or atomic under way and a free slot: `copy`, `cpst` and `mpass`
whose maps and checks pass enter their engines, `cpst` binding its register to the stream; a map is read from its 256 aligned
bytes below k.slim. A tentative instance parks at `mpass` (R285), and at a `copy` that R331 does not let it perform. -/
def Obligations.MapCommandsEnter : Prop :=
  ∀ (s : State) (d : SReg) (x y : QReg) (sprio : BitVec 3) (stype : BitVec 8) (m n o : TMap),
    let k := s.me
    let succ : Succ := { stype := stype, sprio := sprio, dest := s.destWord d }
    let start := (s.destWord d).toNat / 2 ^ 36
    let at_ : QReg → Nat := fun r => (bits (s.rd r) 0 16).toNat
    let boxes : TMap → List Nat := fun m => m.dims.map fun d => d.box
    let cmd : TMap → TMap → Option QReg → CopyCmd := fun src dst q =>
      { by_ := s.issuer, succ := succ, src := src, dst := dst, q := q, start := start, next := start }
    k.sbuf = [] → k.flight = [] → k.amoWait = false →
    (∀ off, off % 256 = 0 → off + 256 ≤ k.slim.toNat → mapFault (fun i => k.tcmWord (off + 8 * i)) = none →
      s.readMap off = .ok (tmapOf fun i => k.tcmWord (off + 8 * i))) ∧
    (SuccessorOk s d sprio stype true → k.heldCmds 0 < 2 → s.readMap (at_ x) = .ok m → s.readMap (at_ y) = .ok n →
      n.efmt = m.efmt → boxes n = boxes m → n.count ≤ 2 ^ 28 →
      (n.efmt = 0xD → ((boxes n).headD 0 + 1) % 2 = 0 ∧ start % 2 = 0) →
      let here : Prop := (succ.self = true ∨ succ.nosucc = true) ∧ (m.space = .global ∨ (m.space = .tcm ∧
        (k.here.fbase.toNat : Int) ≤ m.span.1 ∧ m.span.2 ≤ (k.here.fbase.toNat + frameSize k.here.fclass k.lvl : Nat)))
      (s.tentative = true → ¬ here → Parks s (.copy d x y sprio stype) 11) ∧
      (s.tentative = false ∨ here →
        ∃ st : Vector (BitVec 41) 8, exec (.copy d x y sprio stype) s = .next (s.updMe fun c =>
          { c with copyQ := c.copyQ ++ [cmd n m none], estCopy := { c.estCopy with done := false }, pc := c.pc + 4,
                   stalls := st }))) ∧
    (SuccessorOk s d sprio stype true → k.heldCmds 0 < 2 → s.readMap (at_ y) = .ok n → n.space ≠ .global →
      ((k.rq x).kind = 0 ∨ ((k.rq x).kind = 3 ∧ (k.rq x).level = k.lvl ∧ k.streaming x = false ∧ (k.rq x).entries = [] ∧
        (k.rq x).resv = 0)) →
      ∃ t, exec (.cpst d x y sprio stype) s = .next t ∧ SameMemory s t ∧ t.pc = s.pc + 4 ∧
        t.me.copyQ = k.copyQ ++ [cmd n n (some x)] ∧ t.me.estCopy = { k.estCopy with done := false } ∧
        t.me.rq x = { k.rq x with kind := 3, level := k.lvl } ∧ ∀ z, z ≠ x → t.me.rq z = k.rq z) ∧
    (let w : Nat → Word := fun i => k.tcmWord (at_ x + 8 * i)
     let ctx : Word := (bits (w 4) 32 2 ++ n.efmt ++ m.efmt).setWidth 64
     SuccessorOk s d sprio stype false → k.heldCmds 1 < 2 → at_ x % 64 = 0 → at_ x + 64 ≤ k.slim.toNat →
       s.readMap (bits (w 0) 0 16).toNat = .ok m → s.readMap (bits (w 0) 16 16).toNat = .ok n →
       s.readMap (bits (w 0) 32 16).toNat = .ok o → (w 0).toNat < 2 ^ 48 → bits (w 1) 0 4 = 0 → bits (w 1) 8 2 = 0 →
       bits (w 1) 16 16 = 0 → (w 2).toNat < 2 ^ 56 → (w 3).toNat < 2 ^ 56 → (w 4).toNat < 2 ^ 34 → w 6 = 0 → w 7 = 0 →
       m.dims.length = 2 → n.dims.length = 2 → o.dims.length = 2 → (ctxPair ctx).isSome = true →
       epiOk (w 1) o.efmt ((ctxPair ctx).getD false) = true →
       passLen m = n.size 0 → m.size 1 = o.size 1 → n.size 1 = o.size 0 →
       FirmDoes s (.mpass d x sprio stype) 10 (EntersMatrix s (.mpass d x sprio stype)
         (.pass succ m n o (w 1) (bits (w 2) 0 56) (bits (w 3) 0 56) (bits (w 4) 0 32) ((w 4).getLsbD 32) ((w 4).getLsbD 33)
           (w 5)) 0))

/-- R231 to R235, R310, R320 to R324: the engines perform their oldest commands. A copy moves the elements left to it and releases
its successor, one of bytes along one dimension of the named area byte by byte, or is handed back at the element that faults; a stream
appends an entry where its register has room. A remote request reads, writes or makes atomic the target's TCM, waits there as a sync
access, leaves for another module, or is handed back; one that is performed or answered stores its words and releases its successor,
and one refused by its module is handed back: the status 0 of a read of a poisoned word, and that a write takes its source words first,
are the model's choice (log entry 26); that a refusal is handed back with the target offset, or with the LID where it is absent, and an
arrival at a full barrier with the barrier's address, is its reading (log entry 9). What an access waits for at its word's owner keeps
its engine's command at its place (R408). A walker sends each tile once. A barrier records an arrival's successor, and its last arrival
releases every one in order. -/
def Obligations.EngineEvents : Prop :=
  ∀ (s : State) (n m : CoreId) (q : CopyCmd) (l : List CopyCmd) (x y : Dim) (z : QReg) (v k : Nat) (u : State) (f : EngFault)
    (c : RemCmd) (r : RreqRec) (ws : List Word) (st : BitVec 2) (w : Walk) (wr : WalkRec) (blk : BitVec 10)
    (tile : BitVec 32) (b : Word) (p : Acc) (e : Stop) (pa : Nat),
    let core := s.core n
    let user : EngUser := { core := n, by_ := q.by_, top := false }
    let run := s.copyFrom user q q.src.count (q.src.count - q.next) q.next
    let byteMap : TMap → Dim → Prop := fun m d => m.efmt = 0 ∧ m.space = .tcm ∧ m.dims = [d] ∧ d.box ≤ d.extent
    let area : TMap → Dim → Prop := fun m d => m.base.toNat + d.box < core.slim.toNat ∧ core.slim.toNat ≤ 0xC000
    let mov : Word := BitVec.ofNat 64 (q.src.count - q.start)
    let per := 128 / fmtBits q.src.efmt
    (core.copyQ = q :: l → q.q = none → byteMap q.src x → byteMap q.dst y → x.box = y.box → area q.src x → area q.dst y →
      q.start = 0 → q.next = 0 → q.by_.inst = none → core.tcmPoison = [] →
      (q.src.base.toNat + x.box < q.dst.base.toNat ∨ q.dst.base.toNat + x.box < q.src.base.toNat) →
      ∃ t, exec (.copyEngineRun n) s = .next t ∧ (t.core n).copyQ = l ∧
        Completes s t n q.by_ 0 q.succ [BitVec.ofNat 64 (x.box + 1)] (BitVec.ofNat 64 (x.box + 1)) ∧
        ∀ a, (t.core n).tcm.get a =
          if q.dst.base.toNat ≤ a ∧ a ≤ q.dst.base.toNat + x.box then
            core.tcm.get (q.src.base.toNat + (a - q.dst.base.toNat)) else core.tcm.get a) ∧
    (core.copyQ = q :: l → q.q = none → run = (u, none) →
      ∃ t, exec (.copyEngineRun n) s = .next t ∧ (t.core n).copyQ = (u.core n).copyQ.tail ∧
        Completes u t n q.by_ 0 q.succ [mov] (BitVec.ofNat 64 q.src.count)) ∧
    (core.copyQ = q :: l → q.q = none → run = (u, some (k, f)) →
      let held := u.updCore n fun k' => { k' with copyQ := updAt (fun o => { o with next := k }) k'.copyQ 0 }
      (f.wait = true → exec (.copyEngineRun n) s = .next held) ∧
      (f.wait = false → f.cause ≠ 0x0B → ∃ t, exec (.copyEngineRun n) s = .next t ∧ (t.core n).copyQ = (u.core n).copyQ.tail ∧
        HandsBack u t q.by_ 0 f.cause f.addr (BitVec.ofNat 64 k)) ∧
      (f.wait = false → f.cause = 0x0B → exec (.copyEngineRun n) s = .next (held.duePark user))) ∧
    (core.copyQ = q :: l → q.q = some z →
      (q.src.count ≤ q.next → ∃ t, exec (.streamEntryAppend n) s = .next t ∧ (t.core n).copyQ = l ∧
        Completes s t n q.by_ 1 q.succ [mov] (BitVec.ofNat 64 q.src.count)) ∧
      (q.next < q.src.count → (core.rq z).room = false → exec (.streamEntryAppend n) s = .next s) ∧
      (q.next < q.src.count → (core.rq z).room = true →
        (s.streamElems user q.src q.src.count per q.next = .ok (u, v) →
          ∃ t, exec (.streamEntryAppend n) s = .next t ∧
            ((t.core n).rq z).entries = ((u.core n).rq z).entries ++ [{ data := BitVec.ofNat 128 v, src := none, scope := none }] ∧
            (if q.src.count ≤ q.next + per then
              (t.core n).copyQ = (u.core n).copyQ.tail ∧ Completes u t n q.by_ 1 q.succ [mov] (BitVec.ofNat 64 q.src.count)
            else t.net = u.net ∧ (t.core n).copyQ = updAt (fun o => { o with next := q.next + per }) (u.core n).copyQ 0)) ∧
        (s.streamElems user q.src q.src.count per q.next = .error (u, f) → f.wait = true → exec (.streamEntryAppend n) s = .next u) ∧
        (s.streamElems user q.src q.src.count per q.next = .error (u, f) → f.wait = false →
          ∃ t, exec (.streamEntryAppend n) s = .next t ∧ (t.core n).copyQ = (u.core n).copyQ.tail ∧
            HandsBack u t q.by_ 1 f.cause f.addr (BitVec.ofNat 64 q.next)))) ∧
    (core.remHead = some c → c.op = .rreq r →
      let o := r.toff.toNat
      let target := s.core m
      let back : BitVec 5 → Word → Prop := fun cause a =>
        ∃ t, exec (.remoteRequestPerform n) s = .next t ∧ SameMemory s t ∧
          (t.core n).remQ = core.remQ.filter (fun e => e.id != c.id) ∧ HandsBack s t c.by_ 6 cause a 0
      (∀ a, core.poisonedSource r = some a → back 0x0D (BitVec.ofNat 64 a)) ∧
      (core.poisonedSource r = none → r.modu ≠ s.modu →
        exec (.remoteRequestPerform n) s = .next ((s.releaseDie (dieOf n)).updCore n fun k =>
          { k with remQ := k.remQ.map fun e => if e.id = c.id then { e with phase := .waiting } else e })) ∧
      (core.poisonedSource r = none → r.modu = s.modu → s.present r.lid = false → back 0x03 (r.lid.setWidth 64)) ∧
      (core.poisonedSource r = none → r.modu = s.modu → s.present r.lid = true → s.physOf r.lid = m →
        (target.defers r.lid = true → exec (.remoteRequestPerform n) s = .next s) ∧
        (target.defers r.lid = false →
          (s.coreGated m = true ∨ target.slim.toNat < o + 8 * r.len → back 0x03 (r.toff.setWidth 64)) ∧
          (s.coreGated m = false → o + 8 * r.len ≤ target.slim.toNat →
            let h := s.releaseAt (dieOf n) (if dieOf m = dieOf n then r.scope else .module)
            let performs : List Word → BitVec 2 → (Nat → Byte) → Prop := fun d st get =>
              ∃ t, exec (.remoteRequestPerform n) s = .next t ∧ t.mem = h.mem ∧ c.id ∉ (t.core n).unacked ∧
                (t.core n).remQ = core.remQ.map (fun e => if e.id = c.id then { e with phase := .result d st } else e) ∧
                ∀ a, (t.core m).tcm.get a = get a
            let old := target.tcmWord o
            let new := amoNew r.aop old r.expect r.operand
            (r.op = 0 → performs (target.remoteRead o r.len) 0 target.tcm.get) ∧
            (r.op = 1 → performs [] 0 fun a =>
              if o ≤ a ∧ a < o + 8 * r.len then core.tcm.get (r.loff.toNat + (a - o)) else target.tcm.get a) ∧
            (r.op = 2 → o % 8 = 0 → poisonGet target.tcmPoison (o / 8) = false → performs [old] 0 fun a =>
              if o ≤ a ∧ a < o + 8 then bits new (8 * (a - o)) 8 else target.tcm.get a) ∧
            (r.op = 2 → o % 8 = 0 → poisonGet target.tcmPoison (o / 8) = true → performs [] 2 target.tcm.get) ∧
            (3 ≤ r.op.toNat →
              let waits : Mooring := { owner := .tcm m, word := o / 8, dom := 0, adom := c.by_.dom, mode := r.mode,
                                       data := if r.op = 4 ∧ 0 < r.len then core.tcmWord r.loff.toNat else 0,
                                       route := .rreq n c.id, region := c.by_.region, fwd := false, amo := none, plain := none }
              let at_ := (h.updCore n fun k =>
                { k with remQ := k.remQ.map fun e => if e.id = c.id then { e with phase := .waiting } else e }).syncArrive waits n
              (at_ = some u → exec (.remoteRequestPerform n) s =
                .next (u.updCore n fun k => { k with unacked := k.unacked.filter fun t => t != c.id })) ∧
              (at_ = none → exec (.remoteRequestPerform n) s = .next s)))))) ∧
    (c.op = .rreq r →
      let ends : List Word → BitVec 2 → Prop := fun d a =>
        ∃ t, exec (.remoteRequestComplete n st ws) s = .next t ∧ (t.core n).remQ = core.remQ.filter (fun e => e.id != c.id) ∧
          Completes s t n c.by_ 6 c.succ [d.headD 0, a.setWidth 64] 0 ∧
          ∀ i, (t.core n).tcm.get i = if r.loff.toNat ≤ i ∧ i < r.loff.toNat + 8 * d.length then
            bits (d.getD ((i - r.loff.toNat) / 8) 0) (8 * ((i - r.loff.toNat) % 8)) 8 else core.tcm.get i
      (∀ d a, core.performed = some c → c.phase = .result d a → ends d a) ∧
      (core.performed = none → core.abroad s.modu = some c →
        (st = 3 → ∃ t, exec (.remoteRequestComplete n st ws) s = .next t ∧ SameMemory s t ∧
          (t.core n).remQ = core.remQ.filter (fun e => e.id != c.id) ∧ HandsBack s t c.by_ 6 0x03 (if ws = [] then r.lid.setWidth 64 else r.toff.setWidth 64) 0) ∧
        (st ≠ 3 → ends ((List.range (if r.op = 0 then r.len else if (r.op = 2 ∨ r.op = 3) ∧ st = 0 then 1 else 0)).map
          fun i => ws.getD i 0) st)) ∧
      (core.performed = none → core.abroad s.modu = none → exec (.remoteRequestComplete n st ws) s = .next s)) ∧
    (let h := s.takeWalk blk
     let sends : Prop := tile.toNat < w.record.tiles ∧ tile ∉ w.sent ∧ w.record.lid0.toNat ≤ m.toNat ∧
       m.toNat < w.record.lid0.toNat + w.record.ncores
     ((s.walking blk).isSome = true → h = s) ∧
     (s.walking blk = none →
       s.oldestRem (fun n op => blockOf n == blk && (match op with | .walk _ => true | _ => false)) = some (n, c) →
       c.op = .walk wr →
       h.walks = s.walks ++ [{ id := s.nextId, by_ := c.by_, succ := c.succ, record := wr, blk := blk, sent := [], ended := [],
                               done := false }] ∧
         (h.core n).remQ = core.remQ.filter (fun e => e.id != c.id)) ∧
     (h.walking blk = none → exec (.tileWalkerRun blk tile m) s = .next h) ∧
     (h.walking blk = some w → ¬ sends → exec (.tileWalkerRun blk tile m) s = .next h) ∧
     (h.walking blk = some w → sends →
       ∃ (t : State) (e : Transit) (a : Arr), exec (.tileWalkerRun blk tile m) s = .next t ∧ SameMemory h t ∧
         t.net = h.net ++ [e] ∧ e.dst = m ∧ e.cargo = .message a ∧ hdrType a.msg.hdr = w.record.itype ∧
         hdrPrio a.msg.hdr = w.record.iprio ∧ a.msg.word 0 = tile.setWidth 64 ∧
         a.inst = some { id := w.id, walk := true, index := tile, tentative := false } ∧
         t.walks = h.walks.map fun o => if o.id = w.id then { o with sent := tile :: o.sent } else o)) ∧
    (core.remHead = some c → c.op = .barv b →
      let back : State → BitVec 5 → Word → Prop := fun u cause a =>
        ∃ t, exec (.barrierArrive n) s = .next t ∧ HandsBack u t c.by_ 3 cause a 0
      let check := s.checkGlobal n c.by_.dom (c.by_.level == 7) c.by_.region b.toNat true true true
      let h := (u.releaseDie (dieOf n)).acquireDie (dieOf n)
      (b.toNat % 16 ≠ 0 → back s 0x02 b) ∧
      (b.toNat % 16 = 0 → check = .error (u, e) → back u e.engFault.cause e.engFault.addr) ∧
      (b.toNat % 16 = 0 → check = .ok (u, p) →
        (h.arriveAt n c b p.pa = .error f → back h f.cause f.addr) ∧
        (h.arriveAt n c b p.pa = .ok none → exec (.barrierArrive n) s = .next h) ∧
        ∀ t, h.arriveAt n c b p.pa = .ok (some t) →
          ∃ o, exec (.barrierArrive n) s = .next o ∧ (o.core n).remQ = (t.core n).remQ.filter (fun e => e.id != c.id) ∧
            o.barriers = t.barriers ∧ o.net = t.net ∧ o.mem = t.mem)) ∧
    (let d := c.by_.dom
     let at_ := s.spot d (.mem pa)
     let gen := s.spot d (.mem (pa + 8))
     let a := s.spotData at_ d
     let g := s.spotData gen d
     let count := a.toNat % 2 ^ 32
     let there := a.toNat / 2 ^ 32
     let h := (s.spotTouch at_ d).underBarrier n (8 * at_.word)
     let steps := h.endedAt n c.by_.lid 2 + 1
     let all := s.recorded (8 * at_.word) ++ [(c.by_, c.succ, steps)]
     ((s.waitsAt at_).isSome = true ∨ (s.waitsAt gen).isSome = true → s.arriveAt n c b pa = .ok none) ∧
     (pa % 16 = 0 → s.waitsAt at_ = none → s.waitsAt gen = none → s.spotPoison at_ = false → s.spotPoison gen = false →
     (count = 0 ∨ count ≤ there → s.arriveAt n c b pa = .error { cause := 0x01, addr := b }) ∧
     (there + 1 < count →
       (∀ v, h.recordSucc (8 * at_.word) c.by_ c.succ steps = some v →
         ∃ t, s.arriveAt n c b pa = .ok (some t) ∧ t.barriers = v.barriers ∧ t.net = v.net ∧
           t.spotData at_ d = BitVec.ofNat 64 (count + 2 ^ 32 * (there + 1))) ∧
       (h.recordSucc (8 * at_.word) c.by_ c.succ steps = none → s.arriveAt n c b pa = .ok none)) ∧
     (there + 1 = count →
       ∃ (t : State) (out notices : List Transit), s.arriveAt n c b pa = .ok (some t) ∧ t.recorded (8 * at_.word) = [] ∧
         t.spotData gen d = g + 1 ∧ t.spotData at_ d = BitVec.ofNat 64 count ∧ t.net = s.net ++ out ++ notices ∧
         out.map (fun e => (e.dst, e.dstMod, match e.cargo with | .message x => x.msg.payload | .channel _ _ _ => [])) =
           (all.filter fun o => !o.2.1.nosucc).map (fun o => (if o.2.1.self then o.1.lid else o.2.1.lid,
             if o.2.1.self then s.modu else s.moduleOf o.2.1.modu, [g])) ∧
         ∀ e ∈ notices, ∃ o, e.cargo = .message o ∧ hdrType o.msg.hdr = 0x07)))

/-! ## System instructions -/

/-- R169 step 7, R170 and R351: below level 7 every privileged instruction traps with cause 0x03 and its own bits in k.addr; the
only supervisor register that such a level may read is k.lid. -/
def Obligations.PrivilegeTraps : Prop :=
  ∀ (s : State) (d a : SReg) (k : BitVec 9) (n : BitVec 4) (sp : Space) (z : BitVec 2) (i : Instr),
    s.me.level ≠ 7 →
    (i ∈ [.tret, .tretEnd, .idle, .sset a k, .fsave d a, .fload d a, .plbw d a n, .plbi n, .plbiAll, .remap d a,
      .mcancel d a sp, .pginv d a z, .icinv] → Traps s i 0x03 (encode i).addrBits) ∧
    (k ≠ 0 → Traps s (.sget d k) 0x03 (encode (.sget d k)).addrBits) ∧
    (encode .icinv).addrBits = 0x1FE00000D ∧ (encode (.sget 3 0x013)).addrBits = 0x1FE180263

/-- R27 and R344 to R346: `sget` reads k.lid at every level, and at level 7 each supervisor register, zero-extended; `sset`
writes the fields of those that are writable, k.slim, k.vbase, k.ceil and k.dom only while no frame stands below level 7, and
leaves the read-only ones as they are; k.tw0 to k.tw31 are the window of level k.cause.tlevel of the frame that trapped. What a tlevel of 8
to 0xE names, and what a write of 0xB001 to 0xB7FF to k.vbase leaves, is the model's choice (log entry 28), which MachineControl states. -/
def Obligations.SupervisorRegisters : Prop :=
  ∀ (s : State) (d a : SReg) (i : QReg) (r : SReg),
    let c := s.me
    let x := s.rs a
    let q := c.rq i
    let noFrame : Prop := ∀ l : BitVec 3, l ≠ 7 → (c.bank l).live = false
    let frame : BitVec 3 := BitVec.ofNat 3 (causeLevel c.cause).toNat
    let trapped : Prop := causeEntered c.cause = true ∧ (causeLevel c.cause).toNat < 8
    let other : Prop := causeEntered c.cause = false ∨ causeLevel c.cause = 0xF
    let reads : BitVec 9 → Word → Prop := fun k v => Retires s (.sget d k) d v 4
    let sets : BitVec 9 → (Core → Core) → Prop := fun k f => ∃ st : Vector (BitVec 41) 8,
      exec (.sset a k) s = .next (s.updMe fun c => { f c with pc := c.pc + 4, stalls := st })
    reads 0x000 (c.lid.setWidth 64) ∧ Retires s (.compactSgetLid d) d (c.lid.setWidth 64) 2 ∧
    (c.level = 7 →
      reads 0x001 7 ∧ reads 0x002 (c.thresh.setWidth 64) ∧ reads 0x003 (c.sp.setWidth 64) ∧
      reads 0x004 (c.slim.setWidth 64) ∧ reads 0x005 (c.vbase.setWidth 64) ∧ reads 0x006 (c.ceil.setWidth 64) ∧
      reads 0x007 (c.cause.setWidth 64) ∧ reads 0x008 (c.epc.setWidth 64) ∧ reads 0x009 c.addr ∧
      reads 0x00A (c.dom.setWidth 64) ∧ reads 0x00B (c.tvec.setWidth 64) ∧ reads 0x00C c.seed ∧ reads 0x00D c.sctr ∧ reads 0x00E c.estat ∧
      reads 0x00F (c.hprog.setWidth 64) ∧ reads 0x010 (c.hpc.setWidth 64) ∧ reads 0x011 (c.wdog.setWidth 64) ∧
      reads 0x012 (if c.mig then 1 else 0) ∧ reads 0x013 c.sscr ∧
      reads 0x014 (BitVec.ofNat 64 (c.xcause.toNat + 256 * c.xepc.toNat)) ∧
      (∃ v, reads (BitVec.ofNat 9 (0x18 + i.toNat)) v ∧ bits v 0 2 = q.kind ∧ bits v 2 3 = q.level ∧ bits v 5 5 = q.chan ∧
        (bits v 10 4).toNat = q.entries.length % 16 ∧ bits v 16 8 = q.allow ∧ v.toNat < 2 ^ 24) ∧
      (trapped → reads (BitVec.ofNat 9 (0x20 + r.toNat)) ((c.bank frame).rs r)) ∧
      (other → reads (BitVec.ofNat 9 (0x20 + r.toNat)) 0) ∧ reads 0x020 0 ∧ sets 0x020 id) ∧
    (c.level = 7 →
      (∀ k : BitVec 9, k.toNat < 4 ∨ k = 0x014 → sets k id) ∧
      (noFrame → sets 0x004 (fun c => { c with slim := BitVec.ofNat 16 (x.toNat % 2 ^ 16 / 2 ^ 10 * 2 ^ 10) }) ∧
        sets 0x00A (fun c => { c with dom := bits x 0 16 }) ∧
        (∃ v, sets 0x006 (fun c => { c with ceil := v }) ∧
          ∀ j, j < 16 → bits v (3 * j) 3 = if bits x (3 * j) 3 = 7 then 6 else bits x (3 * j) 3) ∧
        (let w := x.toNat % 2 ^ 16
         let v := w / 2 ^ 11 * 2 ^ 11
         (0x4000 ≤ w → w ≤ 0xB000 → sets 0x005 (fun c => { c with vbase := BitVec.ofNat 16 v, sp := BitVec.ofNat 16 v })) ∧
         (w < 0x4000 ∨ 0xB800 ≤ w → sets 0x005 id))) ∧
      (¬ noFrame → sets 0x004 id ∧ sets 0x005 id ∧ sets 0x006 id ∧ sets 0x00A id) ∧
      (∃ v, sets 0x007 (fun c => { c with cause := v }) ∧ causeCode v = bits x 0 5 ∧ causeLevel v = bits x 8 4 ∧
        causeAsync v = x.getLsbD 12 ∧ causeEntered v = causeEntered c.cause ∧ bits v 5 3 = 0) ∧
      sets 0x008 (fun c => { c with epc := bits x 0 56 }) ∧ sets 0x009 (fun c => { c with addr := x }) ∧
      sets 0x00B (fun c => { c with tvec := BitVec.ofNat 56 (x.toNat % 2 ^ 56 / 2 * 2) }) ∧
      sets 0x00C (fun c => { c with seed := x }) ∧ sets 0x00D (fun c => { c with sctr := x }) ∧
      sets 0x00E (fun c => { c with estCopy := EStat.write x 0, estMat := EStat.write x 1, estRem := EStat.write x 2 }) ∧
      sets 0x00F (fun c => { c with hprog := bits x 0 50 }) ∧ sets 0x010 (fun c => { c with hpc := bits x 0 56 }) ∧
      sets 0x011 (fun c => { c with wdog := bits x 0 40 }) ∧ sets 0x012 (fun c => { c with mig := x.getLsbD 0 }) ∧
      sets 0x013 (fun c => { c with sscr := x }) ∧
      sets (BitVec.ofNat 9 (0x18 + i.toNat)) (fun c => c.updQ i fun q =>
        { q with kind := bits x 0 2, level := bits x 2 3, chan := bits x 5 5, allow := bits x 16 8 }) ∧
      (trapped → sets (BitVec.ofNat 9 (0x20 + r.toNat)) (fun c => c.updBank frame fun b => b.ws r x)) ∧
      (other → sets (BitVec.ofNat 9 (0x20 + r.toNat)) id))

/-- R95 and R355 to R359 at level 7: `plbw` writes an entry with valid fields and clears it otherwise, `plbi` and `plbi.all`
clear; `remap` sets one entry of the die's table and answers 0, or answers 1 and changes nothing; `mcancel` completes every
sync access that waits for a TCM word with status 1 and counts them; `pginv` is noted with its page and retires; `icinv` empties
the instruction cache and the entry buffer, and reloads the locked lines. A `remap` that moves a LID ends the hold that a save of it
has left (R447), and takes along what a core that was loading it holds (R448). That `mcancel` answers 0 for an offset with no TCM word, that a
write of 0xB001 to 0xB7FF to k.vbase leaves 0xB000, and that a k.cause.tlevel of 8 to 0xE names its window by its low three bits, is the
model's choice (log entry 28). -/
def Obligations.MachineControl : Prop :=
  ∀ (s : State) (d a : SReg) (n : BitVec 4) (z : BitVec 2) (m : Mooring) (o lid v : CoreId) (j : BitVec 3) (q : QReg) (tag : BitVec 3) (ad : Nat)
    (sc : Option Scope) (r : SReg),
    let x := s.rs a
    let y := s.rs d
    s.me.level = 7 →
    let core : Instr → (Core → Core) → Prop := fun i f => ∃ st : Vector (BitVec 41) 8,
      exec i s = .next (s.updMe fun c => { f c with pc := c.pc + 4, stalls := st })
    let valid : Prop := y.toNat % 2 ^ 16 = 0 ∧ y.toNat < 2 ^ 56 ∧ x.toNat % 2 ^ 16 < 16 ∧ x.toNat < 2 ^ 56 ∧
      y.toNat / 2 ^ 16 ≤ x.toNat / 2 ^ 16
    let entry : PlbEntry :=
      { valid := true, base := bits y 16 40, limit := bits x 16 40, r := x.getLsbD 0, w := x.getLsbD 1, x := x.getLsbD 2,
        sonly := x.getLsbD 3 }
    let written : Core → Option Binding := fun c => c.binding.map fun b => { b with plbDone := true }
    (valid → core (.plbw d a n) (fun c => { c with plb := c.plb.set n.toFin entry, binding := written c })) ∧
    (¬ valid → core (.plbw d a n) (fun c => { c with plb := c.plb.set n.toFin .reset, binding := written c })) ∧
    core (.plbi n) (fun c => { c with plb := c.plb.set n.toFin .reset }) ∧
    core .plbiAll (fun c => { c with plb := .replicate 16 .reset }) ∧
    (let empty : Core → Core := fun c => { c with icache := [], entryBuf := .replicate 8 [] }
     (∃ t, exec .icinv s = .next t ∧ t.pc = s.pc + 4 ∧ t.me.icache = [] ∧ t.me.entryBuf = .replicate 8 [] ∧ t.me.banks = s.me.banks ∧
       t.me.locked = ((s.updMe empty).lockLines s.cur).me.locked) ∧
     (s.me.binding = none → core .icinv (fun c => { empty c with locked := [] }))) ∧
    (let size := 2 ^ (16 + 10 * z.toNat)
     let e : Pginv :=
       { core := s.cur, lid := s.me.lid, page := x.toNat % 2 ^ 56 / size * size, level := z, dom := bits y 0 16, addr := x }
     ∃ st : Vector (BitVec 41) 8, exec (.pginv d a z) s = .next
       { (s.updMe fun c => { c with pc := c.pc + 4, stalls := st }) with pginvs := s.pginvs ++ [e] }) ∧
    (let l : CoreId := bits x 0 18
     let p : CoreId := dieOf s.cur ++ bits x 18 14
     let on := x.getLsbD 32
     let refused : Prop := x.toNat / 2 ^ 33 ≠ 0 ∨ dieOf l ≠ dieOf s.cur ∨ (on = true ∧
       (p = s.serviceCore (sectorOf p) ∨ p ∈ s.disabled ∨ s.namedByOther l p = true))
     (refused → Retires s (.remap d a) d 1 4) ∧
     (¬ refused → ∃ t, exec (.remap d a) s = .next t ∧ SameMemory s t ∧ ReadsInto s t d 0 4 ∧
       t.mapOf l = { phys := bits x 18 14, present := on } ∧ (∀ v, v ≠ l → t.mapOf v = s.mapOf v) ∧
       (on = true → v ≠ p → (s.core v).savedLid = some l → (t.core v).holds = false) ∧
       (on = true → s.present l = true → s.physOf l ≠ p →
         (t.core p).loading = some l ∧ (t.core (s.physOf l)).loading ≠ some l ∧
         ((s.core (s.physOf l)).loading = some l →
           (t.core p).held j = (s.core p).held j ++ ((s.core (s.physOf l)).held j).map Arr.moved ∧
           (t.core (s.physOf l)).held j = [])))) ∧
    (let w := x.toNat / 8
     let hit : Mooring → Bool := fun m => m.owner == .tcm s.cur && m.word == w && m.dom == 0 && m.isSync
     let wait : WeirEntry → Bool := fun e => match e.item with
       | .moor m => e.queue == .tcm s.me.lid && m.word == w && m.dom == 0 && m.isSync
       | _ => false
     x.toNat ≤ 0xBFFF →
       ∃ t, exec (.mcancel d a .tcm) s = .next t ∧ SameMemory s t ∧ t.moorings = s.moorings.filter (fun m => !hit m) ∧
         t.weir = s.weir.filter (fun e => !wait e) ∧
         ReadsInto s t d (BitVec.ofNat 64 ((s.moorings.filter hit).length + (s.weir.filter wait).length)) 4 ∧
         (m ∈ s.moorings → hit m = true → m.route = .ldq o lid q tag ad sc →
           ∃ e ∈ (t.core o).deliver, e.lid = lid ∧ e.q = q ∧ bits e.entry 0 64 = 0 ∧ bits e.entry 64 3 = tag ∧
             bits e.entry 67 2 = 1)) ∧
    (0xBFFF < x.toNat / 8 * 8 → Retires s (.mcancel d a .tcm) d 0 4) ∧
    ((∀ l : BitVec 3, l ≠ 7 → (s.me.bank l).live = false) → 0xB000 < x.toNat % 2 ^ 16 → x.toNat % 2 ^ 16 < 0xB800 →
      core (.sset a 0x005) fun c => { c with vbase := 0xB000, sp := 0xB000 }) ∧
    (let l := causeLevel s.me.cause
     let frame : BitVec 3 := BitVec.ofNat 3 l.toNat
     causeEntered s.me.cause = true → 8 ≤ l.toNat → l ≠ 0xF →
       Retires s (.sget d (BitVec.ofNat 9 (0x20 + r.toNat))) d ((s.me.bank frame).rs r) 4 ∧
       core (.sset a (BitVec.ofNat 9 (0x20 + r.toNat))) fun c => c.updBank frame fun b => b.ws r x)

/-- R352 to R354 and R447 at level 7: `fsave` and `fload` answer 2 for an area that is not aligned or addressable, and 1 in the states
that forbid them; a save that stores its area answers 0 and leaves the core as binding leaves it, with no frame or arrival below level 7,
and holding what comes for its LID; a load that reads a valid area answers 0 with everything that the area holds in the core: registers,
windows, vector and accumulator banks, frames, queue registers, status fields, hypervector state, held arrivals and TCM; a word that
cannot be stored or read answers 3 with its address in k.addr. -/
def Obligations.SaveAndLoad : Prop :=
  ∀ (s : State) (d a : SReg) (u v : State) (ea o : Nat) (h w : List Word) (i : QReg) (l : BitVec 3) (r : SReg) (e : BitVec 4)
    (j : Fin 16) (b : Fin 2) (f : Fin 64) (g : Fin 4),
    let x := s.rs a
    let c := s.me
    let bad : Prop := x.toNat % 2 ^ 16 ≠ 0 ∨ 2 ^ 56 ≤ x.toNat
    let drained : Prop := c.sbuf = [] ∧ c.flight = [] ∧ c.amoWait = false
    let idle : Prop := drained ∧ c.replies = [] ∧ (∀ y ∈ c.sfu, y.voided = true) ∧ c.closing = [] ∧ s.outbound s.cur = [] ∧
      (c.unacked = [] ∨ c.fencedBelow = false)
    let at_ : Nat → Word := fun i => w.getD i 0
    let area := s.saveArea s.cur
    c.level = 7 → l ≠ 7 →
    (bad → Retires s (.fsave d a) d 2 4 ∧ Retires s (.fload d a) d 2 4) ∧
    (¬ bad → s.saveRefused s.cur = true → Retires s (.fsave d a) d 1 4) ∧
    (¬ bad → s.saveRefused s.cur = false → idle → s.storeArea x.toNat (s.saveArea s.cur) = (u, some ea) →
      ∃ t, exec (.fsave d a) s = .next t ∧ ReadsInto s t d 3 4 ∧ t.me.addr = BitVec.ofNat 64 ea) ∧
    (¬ bad → s.saveRefused s.cur = false → idle → s.storeArea x.toNat (s.saveArea s.cur) = (u, none) →
      ∃ t, exec (.fsave d a) s = .next t ∧ ReadsInto s t d 0 4 ∧ t.mem = u.mem ∧ t.me.savedLid = some c.lid ∧
        t.me.holds = true ∧ t.me.binding = none ∧ (t.me.bank l).live = false ∧ t.me.held l = [] ∧ t.me.held 7 = c.held 7 ∧
        t.me.sp = c.vbase ∧ causeLevel t.me.cause = 0xF ∧ t.me.q = .replicate 8 .reset ∧ t.me.d = .replicate 8 0 ∧
        t.me.h = .replicate 4 0 ∧ t.me.ht = 0 ∧ t.me.kcnt = 0 ∧ t.me.hprog.getLsbD 0 = false ∧ t.me.member = none ∧
        t.me.epi0 = none ∧ t.me.epi1 = none ∧ (∀ m ∈ t.moorings, m.owner ≠ .tcm s.cur) ∧
        (o < c.vbase.toNat + 0xA00 → t.me.tcm.get o = 0 ∧ feGet t.me.tcmFe (o / 8) = true) ∧
        (∃ k ∈ t.saved, k.lid = c.lid ∧ k.area = x.toNat ∧ k.current = true ∧ k.banks = c.banks ∧ k.binding = c.binding) ∧
        area.length = 10240 ∧ bits (area.getD 0 0) 0 18 = c.lid ∧ area.getD 4 0 = c.seed ∧ area.getD 5 0 = c.sctr ∧
        area.getD 6 0 = c.estat ∧ area.getD (40 + i.toNat) 0 = c.d.get i.toFin ∧
        ((c.bank l).live = true → bits (area.getD (1153 + 192 * l.toNat) 0) 0 12 = (c.bank l).mtype ++ (c.bank l).fclass ++ 1#1 ∧
          area.getD (1160 + 192 * l.toNat + r.toNat) 0 = (c.bank l).rs r) ∧
        (8 * o < c.vbase.toNat + 0xA00 → o < 6144 → area.getD (4096 + o) 0 = c.tcmWord (8 * o))) ∧
    (¬ bad → (¬ (∀ l : BitVec 3, l ≠ 7 → (c.bank l).live = false) ∨ c.hprog.getLsbD 0 = true) →
      Retires s (.fload d a) d 1 4) ∧
    (¬ bad → (∀ l : BitVec 3, l ≠ 7 → (c.bank l).live = false) → c.hprog.getLsbD 0 = false → drained →
      (s.loadArea x.toNat 1 = (u, .error ea) →
        ∃ t, exec (.fload d a) s = .next t ∧ ReadsInto s t d 3 4 ∧ t.me.addr = BitVec.ofNat 64 ea) ∧
      (s.loadArea x.toNat 1 = (u, .ok h) →
        let lid : CoreId := bits (h.headD 0) 0 18
        let fits : Prop := bits (h.headD 0) 24 8 = 0x01 ∧ dieOf lid = dieOf s.cur ∧ u.present lid = true ∧
          u.physOf lid = s.cur
        (¬ fits → ∃ t, exec (.fload d a) s = .next t ∧ ReadsInto s t d 1 4) ∧
        (fits → u.loadArea x.toNat 10240 = (v, .ok w) →
          ∃ t, exec (.fload d a) s = .next t ∧ ReadsInto s t d 0 4 ∧ t.me.lid = bits (at_ 0) 0 18 ∧
            t.me.vbase = bits (at_ 1) 0 16 ∧ t.me.slim = bits (at_ 1) 16 16 ∧
            (∀ j, j < 16 → bits t.me.ceil (3 * j) 3 = if bits (at_ 2) (3 * j) 3 = 7 then 6 else bits (at_ 2) (3 * j) 3) ∧
            t.me.dom = bits (at_ 3) 0 16 ∧ t.me.seed = at_ 4 ∧ t.me.sctr = at_ 5 ∧ t.me.wdog = bits (at_ 9) 0 40 ∧
            t.rd i = at_ (40 + i.toNat) ∧ t.me.savedLid = none ∧ t.me.loading = none ∧ t.me.icache = [] ∧
            t.me.hprog = bits (at_ 7) 0 50 ∧ t.me.hpc = bits (at_ 8) 0 56 ∧
            bits (t.me.h.get g) (64 * f.val) 64 = at_ (2560 + 64 * g.val + f.val) ∧
            bits t.me.ht (64 * f.val) 64 = at_ (2816 + f.val) ∧ (o < 512 → bits t.me.kcnt (64 * o) 64 = at_ (3072 + o)) ∧
            (let q := t.me.rq i
             let y := at_ (32 + i.toNat)
             q.kind = bits y 0 2 ∧ q.level = bits y 2 3 ∧ q.chan = bits y 5 5 ∧ q.allow = bits y 16 8 ∧
               q.resv = (bits (at_ 13) (4 * i.toNat) 4).toNat ∧ q.entries.length = (bits y 10 4).toNat ∧
               ∀ n, n < q.entries.length → q.entries[n]?.map QEnt.data =
                 some (at_ (65 + 16 * i.toNat + 2 * n) ++ at_ (64 + 16 * i.toNat + 2 * n))) ∧
            ((∀ z ∈ v.owed, z.1 ≠ t.me.lid) → (∀ z ∈ v.amends, z.1 ≠ t.me.lid) → t.me.est e = EStat.write (at_ 6) (min e.toNat 2)) ∧
            (∃ y, t.me.held l = y ++ v.me.held l ∧ y.length = (bits (at_ 14) (5 * l.toNat) 5).toNat ∧
              ∀ n, n < y.length → y[n]?.map (fun z => z.msg.hdr) = some (at_ (192 + 64 * l.toNat + 4 * n))) ∧
            (let top := (t.me.vbase.toNat + 0xA00) / 8
             (o / 8 < top → t.me.tcm.get o = bits (at_ (4096 + o / 8)) (8 * (o % 8)) 8) ∧
               (top ≤ o / 8 → t.me.tcm.get o = v.me.tcm.get o)) ∧
            (let k := 1152 + 192 * l.toNat
             let size : BitVec 3 → Nat := fun n =>
               let y := at_ (1153 + 192 * n.toNat)
               if y.getLsbD 0 then frameSize (bits y 1 3) n else 0
             let top : Nat → BitVec 16 := fun n =>
               t.me.vbase - BitVec.ofNat 16 ((upFrom 0 n).foldl (fun x m => x + size (BitVec.ofNat 3 m)) 0)
             let n := t.me.bank l
             t.me.sp = top 7 ∧ n.live = (at_ (k + 1)).getLsbD 0 ∧
               (n.live = true → n.fclass = bits (at_ (k + 1)) 1 3 ∧ n.mtype = bits (at_ (k + 1)) 4 8 ∧
                 n.fbase = top (l.toNat + 1) ∧ n.rpc = bits (at_ k) 0 56 ∧ (r ≠ 0 → n.rs r = at_ (k + 8 + r.toNat)) ∧
                 n.rb.get g = at_ (k + 40 + g.val) ∧ n.rthresh = bits (at_ (k + 44)) 0 4 ∧ n.mctx = at_ (k + 160) ∧
                 n.v.get j = at_ (k + 65 + 2 * j.val) ++ at_ (k + 64 + 2 * j.val) ∧
                 (n.acc.get b).get f = bits (at_ (k + 96 + 32 * b.val + f.val / 2)) (32 * (f.val % 2)) 32)))))

/-! ## Encodings -/

/-- R158 to R168: for every well-formed instruction, the decoder reads from the bytes of its encoding, whatever follows them, the
instruction itself and its length; and bytes that decode at all are the encoding of the well-formed instruction they decode to, of
two or four bytes. -/
def Obligations.EncodingRoundTrip : Prop :=
  (∀ (i : Instr) (r : List Byte), i.wellFormed = true →
    decode ((encode i).bytes ++ r) = .ok (i, (encode i).bytes.length)) ∧
  (∀ (bs : List Byte) (i : Instr) (n : Nat), decode bs = .ok (i, n) →
    i.wellFormed = true ∧ (n = 2 ∨ n = 4) ∧ bs.take n = (encode i).bytes)

/-- R158 to R168, on words written out from the tables of the encoding and family chapters: the worked routine of
06_encoding.md, one word of some 32-bit families, and parcels and words that the tables leave reserved or unassigned. -/
def Obligations.DecodedWords : Prop :=
  let wide : BitVec 32 → List Byte := fun w => [bits w 16 8, bits w 24 8, bits w 0 8, bits w 8 8]
  let reads : List Byte → Instr → Nat → Prop := fun bs i n => decode bs = .ok (i, n)
  let refused : List Byte → Prop := fun bs => ∀ x, decode bs ≠ .ok x
  reads [0xC4, 0x40] (.compactLi 6 4) 2 ∧ reads [0xE0, 0x40] (.compactLi 7 0) 2 ∧
  reads [0x18, 0xCC, 0xE8, 0xC3] (.addImmediate 3 3 1000) 4 ∧ reads [0xA7, 0x34] (.compactLdT 5 7) 2 ∧
  reads [0xA3, 0x04] (.compactAdd 5 3) 2 ∧ reads [0xA7, 0x38] (.compactStT 5 7) 2 ∧
  reads [0xE8, 0x44] (.compactAddImmediate 7 8) 2 ∧ reads [0xDF, 0x44] (.compactAddImmediate 6 (-1)) 2 ∧
  reads [0xDB, 0x6C] (.compactBNe 6 (-5)) 2 ∧ reads [0x00, 0x80] .compactDone 2 ∧
  reads (wide 0b11000000000110000100010000000000) (.add 3 1 2) 4 ∧
  reads (wide 0b11010100000110000100111111111110) (.bCond 3 1 .ne 2046) 4 ∧
  reads (wide 0b11011100001010011101111111111000) (.ldT 5 7 .b8 (-8)) 4 ∧
  reads (wide 0b11111110001110000000000001100011) (.sget 7 3) 4 ∧
  reads (wide 0b11111100000000000100101101000000) (.copy 0 1 1 3 0x40) 4 ∧
  refused [0x00, 0x00] ∧ refused [0xFF, 0xFF, 0xFF, 0xFF] ∧ refused (wide 0xC8000000) ∧ refused (wide 0xFF000000) ∧
  refused (wide 0xC00001FF) ∧ refused [0x04, 0x88]

/-! ## Steps -/

/-- R159, R160, R169 to R172: a step of the core in turn runs the instruction that its parcels at pc decode to, when no trap waits for
the boundary and no register it names waits: an odd pc, a parcel that may not be executed or read and a reserved encoding trap with the
causes of R169, in its order; a parcel that the core does not hold is read at the address its page has and kept in its instruction
cache. A core that is off or stopped and one with no frame do nothing, and a frame that is stalled in an access to a queue
register executes that again (R60). An arrival that the core accepts in the same cycle comes after the retirement (R56). A ganged follower takes what its leader has forwarded, waits
while nothing has been, and detaches where the pc is another; what a member of a swarm runs is forwarded or followed (R210, R212).
That a held parcel is checked for the right to execute alone, and what happens at the end of the address space, are the model's choice
(log entry 26). Only the model's own fields change besides, and the count of a run of level-7 frames, which an instruction of a lower level ends (R343;
log entry 2): the schedule names the core, or none and the core in turn goes on.
Log entry 2: the step of a schedule that names an event of the table is that event's meaning, with the schedule moved on;
a schedule that names a trap of fetch or decode is no schedule of the part, and stops the model. -/
def Obligations.StepRunsDecoded : Prop :=
  (∀ (s : State) (m : CoreId) (r : List Turn) (late : Bool) (at_ : Option Nat) (p q : Parcel) (i : Instr) (n : Nat)
     (e : Stop) (u v : State) (pa : Nat) (bs : List Byte) (kind : BitVec 2) (f : Forwarded) (l : List Forwarded),
     let k := s.core m
     let a := k.pc.toNat
     let t : State := { s with cur := m, turns := r, slow := late, breakAt := at_, free := s.free + 1 }
     let go : State → State := fun x =>
       if k.level ≠ 7 ∧ k.run7 ≠ 0 then x.updMe fun c => { c with run7 := 0 } else x
     let wide : Prop := bits p 14 2 = 3
     let bytes : List Byte := [bits p 0 8, bits p 8 8, bits q 0 8, bits q 8 8]
     let word : Word := k.pc.setWidth 64
     let mayRun : BitVec 56 → Prop := fun x => (k.rights x (k.level == 7)).2.2 = true
     let away : Prop := a % 2 = 0 ∧ mayRun k.pc ∧ k.cachedParcel a = none
     let first : Prop := a % 2 = 0 ∧ mayRun k.pc ∧ k.cachedParcel a = some p
     let fetched : Prop := first ∧ (wide → a + 2 < 2 ^ 56 ∧ mayRun (k.pc + 2) ∧ k.cachedParcel (a + 2) = some q)
     let chosen : Prop :=
       (s.turns = [] ∧ m = s.cur ∧ r = [] ∧ late = false ∧ at_ = none) ∨
       (s.turns = .core m :: r ∧ late = false ∧ at_ = none) ∨ (s.turns = .coreSlow m :: r ∧ late = true ∧ at_ = none) ∨
       (∃ c, s.turns = .coreBreak m c :: r ∧ late = false ∧ at_ = some c)
     let untrapped : Prop := ∀ h ∈ k.heldTraps, h.level ≠ k.level ∧ (h.level ≠ 0xF ∨ k.level = 7)
     let able : Prop := s.powered m = true ∧ k.stopped = false ∧ k.level ≠ 0xF ∧ untrapped ∧ k.here.parkDue = false ∧
       (k.level = 7 ∨ k.here.squash = false)
     let ready : Prop := able ∧ k.here.queueOp = none
     (s.turns = .coreAccept m :: r → late = false → at_ = none → ready → k.membership = none → fetched → decode bytes = .ok (i, n) →
       k.awaits i = none → i.selects = false → exec i (go t) = .next u → step s = .next (u.acceptOne m)) ∧
     (chosen →
     (s.powered m = false ∨ k.stopped = true ∨ k.level = 0xF ∧ untrapped → step s = .next t) ∧
     (able → k.here.queueOp ≠ none → step s = .next t.queueRun) ∧
     (ready → k.membership = none →
       (a % 2 = 1 → step s = exec (.fetchFault 0x02 word) (go t)) ∧
       (a % 2 = 0 → ¬ mayRun k.pc → step s = exec (.fetchFault 0x03 word) (go t)) ∧
       (away → isMgmt a = true → step s = exec (.fetchFault 0x03 word) (go t)) ∧
       (away → isMgmt a = false → t.translate (dieOf m) k.pc k.sbuf = (u, .absent kind false) → kind ≠ 1 →
         step s = exec (.fetchFault 0x04 word) (go u)) ∧
       (away → isMgmt a = false → t.translate (dieOf m) k.pc k.sbuf = (u, .absent 1 false) →
         step s = .next (u.stop (.park 8 word))) ∧
       (away → isMgmt a = false → t.translate (dieOf m) k.pc k.sbuf = (u, .page pa) → u.poisoned (dieOf m) pa = true →
         step s = exec (.fetchFault 0x0D word) (go u)) ∧
       (away → isMgmt a = false → t.translate (dieOf m) k.pc k.sbuf = (u, .page pa) → u.poisoned (dieOf m) pa = false →
         u.dieRead (dieOf m) k.dom a pa 2 = (v, bs) → p = BitVec.ofNat 16 (joinBytes bs) → ¬ wide →
         decode bytes = .ok (i, n) → k.awaits i = none →
         ∃ pick, step s = exec i (go (v.updMe fun c => c.fillCache a p pick))) ∧
       (t.fetchParcels = .ok (u, p, q) → decode bytes = .ok (i, n) → k.awaits i = none → step s = exec i (go u)) ∧
       (first → wide → a + 2 < 2 ^ 56 → ¬ mayRun (k.pc + 2) →
         step s = exec (.fetchFault 0x03 ((k.pc + 2).setWidth 64)) (go t)) ∧
       (fetched → (∀ x, decode bytes ≠ .ok x) →
         (wide → step s = exec (.illegalInstruction ((p ++ q : BitVec 32).setWidth 64 + 0x100000000)) (go t)) ∧
         (¬ wide → step s = exec (.illegalInstruction (p.setWidth 64)) (go t))) ∧
       (fetched → decode bytes = .ok (i, n) → k.awaits i = none → step s = exec i (go t)) ∧
       (fetched → decode bytes = .ok (i, n) → k.awaits i = some e → step s = .next (t.stop e))) ∧
     (ready → k.forwarded = none → fetched → decode bytes = .ok (i, n) → k.awaits i = none → exec i t.issue = .next u →
       step s = .next (t.issue.gangStep u m i)) ∧
     (ready → k.forwarded = some [] → step s = .next t) ∧
     (ready → k.forwarded = some (f :: l) → f.at_ ≠ k.pc → step s = .next (t.detach m)) ∧
     (ready → k.forwarded = some (f :: l) → f.at_ = k.pc → f.p = p → f.q = q → decode bytes = .ok (i, n) →
       (k.awaits i = none → exec i t.issue = .next u → step s = .next (t.issue.gangStep u m i)) ∧
       (k.awaits i = some e → step s = .next (t.stop e))))) ∧
  (∀ (s : State) (i : Instr) (r : List Turn),
     s.turns = .event i :: r →
     (i.schedulable = true → step s = exec i { s with turns := r, free := s.free + 1, breakAt := none }) ∧
     (i.schedulable = false → step s = .fault .badTurn))


/-! ## The whole machine -/

/-- R20, R89, R259, R271, R287, R345, R380, R383, R434, R445 and R449: what reset and bring-up leave. Every core is unbound, idle and
powered with its supervisor registers at the values of R345, its TCM zero and full and its PLB clear; every word of memory is zero
and full; every cluster is open at the values of R434; predictor slots and machine-check rings are zero; the service core of a
sector is its first core, and recorded as such (R16). That host memory reads as zero, and that no core is disabled at test, is the
model's choice (log entries 1 and 25). -/
def Obligations.ResetState : Prop :=
  let s := State.reset
  (∀ (n : CoreId) (l : BitVec 3) (r : HReg) (e : Fin 16),
    let k := s.core n
    k.lid = n ∧ k.level = 0xF ∧ k.thresh = 0xF ∧ k.sp = 0xB000 ∧ k.slim = 0 ∧ k.vbase = 0xB000 ∧
      bits k.ceil (3 * e.val) 3 = (6 : BitVec 3) ∧ causeCode k.cause = 0 ∧ causeLevel k.cause = 0xF ∧
      causeAsync k.cause = false ∧ causeEntered k.cause = false ∧ k.epc = 0 ∧ k.addr = 0 ∧ k.dom = 0 ∧ k.tvec = 0 ∧
      k.wdog = 0x100000 ∧ k.mig = false ∧ k.sscr = 0 ∧ k.xcause = 0 ∧ k.xepc = 0 ∧ (k.bank l).mctx = 0x99 ∧
      (k.bank l).live = false ∧ (k.bank l).claims = [] ∧ k.h.get r.toFin = 0 ∧ k.ht = 0 ∧ k.kcnt = 0 ∧
      (k.plb.get e).valid = false ∧ k.latchL = none ∧ k.latchI = none ∧ k.binding = none ∧ k.stopped = false ∧
      (s.cluster (clusterOf n)).pon.getLsbD (slotOf n).toNat = true ∧
      ∀ a, k.tcm.get a = 0 ∧ feGet k.tcmFe a = true ∧ poisonGet k.tcmPoison a = false) ∧
  (∀ a, s.mem.get a = 0 ∧ feGet s.fe a = true ∧ poisonGet s.poison a = false) ∧
  (∀ cl, s.readCluster cl 0 = 0 ∧ s.readCluster cl 0x008 = 0xFFFF ∧ s.readCluster cl 0x010 = 0x642850 ∧
    s.readCluster cl 0x018 = 0x4643250 ∧ s.readCluster cl 0x030 = 0xFFFF055F ∧ s.readCluster cl 0x038 = 0 ∧
    s.readCluster cl 0x040 = 0 ∧ s.readCluster cl 0x050 = 0) ∧
  (∀ d i, i ∈ [0, 8, 16, 24, 32] → s.readDie d i = 0) ∧
  (∀ (x : BitVec 6) (i : Fin 64), (s.sector x).slots.get i = { v1 := 0, v2 := 0, v3 := 0, v4 := 0, policy := 0, dom := 0 }) ∧
  (∀ x : BitVec 6, s.serviceCore x = x ++ 0#12 ∧ (x, s.serviceCore x) ∈ s.services) ∧
  s.mem.wf = true ∧ s.launches = [] ∧ s.net = []

/-- Every step keeps the canonical form of memory, in every state that has it: addresses strictly rising, no byte listed that
an unlisted address reads as. -/
def Obligations.StepKeepsMemoryCanonical : Prop :=
  ∀ s t : State, s.mem.wf = true → step s = .next t → t.mem.wf = true

/-! ## Events of a core, of the fabric and of the weir -/

/-- R22, R61, R97, R98, R303, R305, R343, R377, R406 and R409: the watchdogs count and trap; a message enters its die and reaches the
interface of the core that has its LID, leaves through a port, or comes back as a handback; the command whose successor it is makes its
status step then, of a completion or of a handback (R21, R311; log entry 9); a waiting entry of the weir returns to its queue; a full weir
holds a flow at its sender and frees it again, and an entry that takes a region beyond its quota raises cause 0x0A once, with its kind in
k.addr (R378); channel entries and allowance move in order, and what comes back for a saved context waits for its load. A frame's own reads
and writes of queue registers, for which the table has no instruction (log entry 24), trap where the register is not bound to its level and
direction, stall on an empty or full one, and execute again while they have not completed. -/
def Obligations.FabricEvents : Prop :=
  ∀ (s : State) (n : CoreId) (cc : BitVec 40) (run : BitVec 16) (place : BitVec 16) (t : Transit) (a : Arr)
    (back : Owed) (by_ : Issuer) (port : BitVec 5) (e : WeirEntry) (p : BitVec 3) (id : Nat) (x : BitVec 6)
    (blk : BitVec 10) (rec_ : InstRec) (v : QEnt) (q z : QReg) (chan : BitVec 5) (lid : CoreId) (l : List QEnt)
    (r : List Transit) (o : Owner) (y : Mooring) (w : VReg) (item : WeirItem) (wq : WeirQueue) (g : Region) (ef : Eff) (kind : Nat),
    let k := s.core n
    let m := s.physOf t.dst
    let lost : List Transit := s.net.take place.toNat ++ s.net.drop (place.toNat + 1)
    let stall := k.stalls.get k.lvl.toFin
    let freed : Transit → Transit := fun y =>
      if y.dstMod = s.modu ∧ s.physOf y.dst = n then { y with held := false } else y
    let ready : Prop := s.net[place.toNat]? = some t ∧ t.cargo = .message a ∧ t.held = false ∧
      (∀ u ∈ s.net.take place.toNat, u.flow ≠ t.flow) ∧
      ∀ c ∈ s.cores, c.1 = m.toNat ∨ ∀ u ∈ c.2.ni, u.flow ≠ t.flow
    let here : Prop := t.dstMod = s.modu ∧ t.isNotice = false
    (k.level ≠ 0xF → k.stopped = false → stall ≠ 0 →
      (stall.toNat + cc.toNat ≤ k.wdog.toNat → exec (.stallWatchdog n cc) s =
        .next (s.updCore n fun c => { c with stalls := k.stalls.set k.lvl.toFin (stall + cc.setWidth 41) })) ∧
      (k.wdog.toNat < stall.toNat + cc.toNat → stall.toNat ≤ k.wdog.toNat →
        ∃ u, exec (.stallWatchdog n cc) s = .next u ∧ SameMemory s u ∧
          (k.level.toNat < 7 → EntersSupervisor k (u.core n) 0x0C 0 k.pc false) ∧
          (k.level = 7 → (u.core n).stopped = true ∧ (u.core n).xcause = 0x0C ∧ (u.core n).xepc = k.pc))) ∧
    (k.level = 7 → k.stopped = false → (∃ j : BitVec 3, j ≠ 7 ∧ ((k.bank j).live = true ∨ k.held j ≠ [])) →
      (k.run7.toNat + run.toNat ≤ 2048 →
        exec (.supervisorRunLimit n run) s = .next (s.updCore n fun c => { c with run7 := k.run7 + run })) ∧
      (2048 < k.run7.toNat + run.toNat → ∃ u, exec (.supervisorRunLimit n run) s = .next u ∧ SameMemory s u ∧
        (u.core n).stopped = true ∧ (u.core n).xcause = 0x0C ∧ (u.core n).xepc = k.pc ∧ (u.core n).cause = k.cause ∧
        (u.core n).epc = k.epc)) ∧
    let closes : State → Bool → Prop := fun u fault => t.back = some back → back.close = some id → t.owner = some n →
      by_.lid = hdrSrc a.msg.hdr → (∃ c ∈ k.closing, c.1 = id) → HoldsLid s n by_.lid →
      EndsWith (k.est (engineOf back.cmd)) ((u.core n).est (engineOf back.cmd)) fault ((u.core n).heldCmds (engineOf back.cmd)) ∧
        ∀ c ∈ (u.core n).closing, c.1 ≠ id
    (ready → here → s.present t.dst = true →
      ∃ u z, exec (.dieEntryResolve place) s = .next u ∧ SameMemory s u ∧ u.net = lost ∧
        (u.core m).ni = (s.core m).ni ++ [{ t with back := z }] ∧ (t.back.bind Owed.close = none → z = t.back) ∧ closes u false) ∧
    (ready → here → s.present t.dst = false → t.back = some back → by_.lid = hdrSrc a.msg.hdr →
      let d := s.core (s.physOf by_.lid)
      ∃ u, exec (.dieEntryResolve place) s = .next u ∧ SameMemory s u ∧
        HandsBack { s with net := lost } u by_ back.cmd 0x03 (t.dst.setWidth 64) back.progress ∧
        (back.ended = none → closes u true) ∧
        (HoldsLid s (s.physOf by_.lid) by_.lid → back.close = none → back.ended = some (d.est (engineOf back.cmd)).ended →
          ((u.core (s.physOf by_.lid)).est (engineOf back.cmd)).fault = true ∧
          ((u.core (s.physOf by_.lid)).est (engineOf back.cmd)).done = false)) ∧
    (ready → t.dstMod ≠ s.modu → s.portOf t = some port →
      ∃ u, exec (.dieEntryResolve place) s = .next u ∧ SameMemory s u ∧ u.net = lost ∧
        u.wire = s.wire ++ [{ port := port, msg := t }]) ∧
    (k.ni = t :: r → t.cargo = .message a → t.isHeat = false → s.present t.dst = true → m ≠ n →
      ∃ u, exec (.movedRedirect n) s = .next u ∧ SameMemory s u ∧ (u.core n).ni = r ∧ (u.core m).ni = (s.core m).ni ++
        [{ t with cargo := .message { a with msg := { a.msg with hdr := a.msg.hdr ||| (1 <<< 54) } } }]) ∧
    (k.ni = t :: r → t.cargo = .message a → t.isHeat = false → s.present t.dst = false → t.back = some back → by_.lid = hdrSrc a.msg.hdr →
      ∃ u, exec (.movedRedirect n) s = .next u ∧ SameMemory s u ∧ (u.core n).ni = r ∧
        HandsBack s u by_ back.cmd 0x03 (t.dst.setWidth 64) back.progress) ∧
    (s.weir[place.toNat]? = some e → (∀ o ∈ s.weir.take place.toNat, o.queue ≠ e.queue) →
      let left := s.weir.take place.toNat ++ s.weir.drop (place.toNat + 1)
      let d := s.core (s.physOf lid)
      let back : (State → Prop) → Prop := fun f => ∃ u, exec (.weirRefill place) s = .next u ∧ u.weir = left ∧ f u
      (e.queue = .inbox lid p → e.item = .arr a → s.contextIn lid = true → (d.held p).length < 16 → d.thresh = 7 →
        NoneDue s (s.physOf lid) →
        (∀ j b, b ∈ s.heldAt (s.physOf lid) j ∨ (b = a ∧ j = p) → hdrType b.msg.hdr ≠ 0x0B ∧ d.tooLarge b j = false) →
        back fun u => (u.core (s.physOf lid)).held p = d.held p ++ [a]) ∧
      (e.queue = .launch x → e.item = .launch id → (s.sector x).launchQ.length < 16 →
        back fun u => (u.sector x).launchQ = (s.sector x).launchQ ++ [id]) ∧
      (e.queue = .records blk → e.item = .record rec_ → (s.block blk).records.length < 256 →
        back fun u => (u.block blk).records = (s.block blk).records ++ [rec_]) ∧
      (e.queue = .mooring o → e.item = .moor y → y.owner = o → o.isMem = false → s.mooringCount o < o.capacity →
        y.mode.holds (s.spotFull { owner := o, word := y.word, dom := y.dom }) = false →
        back fun u => u.moorings = s.moorings ++ [y]) ∧
      (e.queue = .tcm lid → e.item = .moor y → s.contextIn lid = true → s.mooringCount (.tcm (s.physOf lid)) < 64 →
        y.mode.holds (s.spotFull { owner := .tcm (s.physOf lid), word := y.word, dom := y.dom }) = false →
        back fun u => u.moorings = s.moorings ++ [{ y with owner := .tcm (s.physOf lid) }]) ∧
      (e.queue = .recv lid q → e.item = .entry v → s.contextIn lid = true → (d.rq q).room = true →
        back fun u => ((u.core (s.physOf lid)).rq q).entries = (d.rq q).entries ++ [v])) ∧
    (k.ni = t :: r → t.cargo = .message a → hdrType a.msg.hdr ∉ [0x00, 0x05, 0x08, 0x0B] →
      (hdrType a.msg.hdr = 0x09 → a.inst = none) → s.powered n = true → s.present t.dst = true → m = n →
      k.savedLid ≠ some t.dst → k.tooLarge a (k.effPrio a.msg.hdr) = false →
      s.startsNow n a (k.effPrio a.msg.hdr) = false → s.weirHas (.inbox t.dst (k.effPrio a.msg.hdr)) = true →
      s.weirFull k.bound_ (.arr a) = true →
      ∃ u, exec (.weirFullReply n) s = .next u ∧ SameMemory s u ∧ (u.core n).ni = r.filter (fun y => y.flow != t.flow) ∧
        u.net = ((t :: r.filter fun y => y.flow == t.flow).map fun y => { y with held := true }) ++
          s.net.map fun y => if y.flow = t.flow then { y with held := true } else y) ∧
    exec (.weirSpaceReply n) s = .next { s with net := s.net.map freed } ∧
    ((k.rq q).kind = 2 → (k.rq q).entries = v :: l → (k.rq q).allow ≠ 0 →
      ∃ (u : State) (y : Transit), exec (.channelEntrySend n q) s = .next u ∧ u.net = s.net ++ [y] ∧ y.dst = (k.rq q).peer ∧
        y.cargo = .channel { v with src := some (k.lid, q) } (k.rq q).peerQ (k.rq q).chan ∧
        (u.core n).rq q = { k.rq q with entries := l, allow := (k.rq q).allow - 1 }) ∧
    (s.net = t :: r → t.cargo = .channel v q chan → t.held = false → (∀ c ∈ s.cores, ∀ u ∈ c.2.ni, u.flow ≠ t.flow) →
      s.present t.dst = true → (s.core m).defers t.dst = false → ((s.core m).rq q).room = true → s.weirHas (.recv t.dst q) = false →
      ∃ u, exec (.channelEntryArrive 0) s = .next u ∧ SameMemory s u ∧ u.net = r ∧
        ((u.core m).rq q).entries = ((s.core m).rq q).entries ++ [v]) ∧
    (s.powered n = true → k.stopped = false → k.level = (k.rq q).level.setWidth 4 → ((k.rq q).kind = 1 ∨ (k.rq q).kind = 3) →
      (k.rq q).entries = v :: l → v.src = some (lid, z) →
      let d := s.core (s.physOf lid)
      let there : Prop := HoldsLid s (s.physOf lid) lid ∧ d.loading ≠ some lid
      ∃ u, exec (.allowanceReturn n q) s = .next u ∧ ((u.core n).rq q).entries = l ∧
        (there → (d.rq z).kind = 2 → (u.core (s.physOf lid)).rq z = { d.rq z with allow := (d.rq z).allow + 1 }) ∧
        (¬ there → u.allowOwed = s.allowOwed ++ [(lid, z)])) ∧
    (let en : WeirEntry := { queue := wq, region := some g, item := item }
     let put : State := { s with weir := s.weir ++ [en] }
     let quota := ef.weirq.toNat * 1024
     let code : Word := BitVec.ofNat 64 (0x3 + 16 * kind)
     let names : Prop := (∃ l p, wq = .inbox l p) ∧ kind = 0 ∨ ((∃ o, wq = .mooring o) ∨ ∃ l, wq = .tcm l) ∧ kind = 1 ∨
       (∃ x, wq = .launch x) ∧ kind = 2 ∨ (∃ b, wq = .records b) ∧ kind = 3 ∨ (∃ l q, wq = .recv l q) ∧ kind = 4
     let full : Prop := quota + (quota / 16 + 63) / 64 * 64 < s.weirBytes (some g) + item.size
     let first : Prop := quota < put.weirBytes (some g) ∧ g ∉ s.weirOver
     s.ringEff (some g) = some ef → names →
       (full → s.weirAdd wq (some g) item n = none) ∧
       (¬ full → ¬ first → s.weirAdd wq (some g) item n = some put) ∧
       (¬ full → first → ∃ u, s.weirAdd wq (some g) item n = some u ∧ u.weir = put.weir ∧ u.weirOver = g :: s.weirOver ∧
         (k.level = 0xF → k.stopped = false → EntersSupervisor k (u.core n) 0x0A code 0 true) ∧
         (k.level ≠ 0xF → (u.core n).heldTraps = k.heldTraps ++ [{ level := 0xF, cause := 0x0A, addr := code, epc := none }]))) ∧
    (n = s.cur → s.powered n = true → k.stopped = false → k.level ≠ 0xF → NoneDue s n → k.here.queueOp = none →
      let with_ : Bool → State := fun wr => s.updMe fun c => c.updHere fun b => { b with queueOp := some { write := wr, q := q, v := w } }
      let free : Prop := k.here.vpend.getLsbD w.toNat = false
      let ended : State → Prop := fun u => u.me.here.queueOp = none ∧ u.me.stalls.get k.lvl.toFin = 0 ∧ u.pc = k.pc
      let reads : Prop := k.level = (k.rq q).level.setWidth 4 ∧ ((k.rq q).kind = 1 ∨ (k.rq q).kind = 3)
      let writes : Prop := k.level = (k.rq q).level.setWidth 4 ∧ (k.rq q).kind = 2
      (¬ reads → s.queueRead q w = (with_ false).takeTrap n 0x03 0 k.pc false) ∧
      (reads → (k.rq q).entries = [] ∨ ¬ free → s.queueRead q w = (with_ false).stop .stall) ∧
      (reads → free → (k.rq q).entries = v :: l →
        (s.queueRead q w).rv w = v.data ∧ ((s.queueRead q w).me.rq q).entries = l ∧ ended (s.queueRead q w)) ∧
      (¬ writes → s.queueWrite q w = (with_ true).takeTrap n 0x03 0 k.pc false) ∧
      (writes → 8 ≤ (k.rq q).entries.length ∨ ¬ free → s.queueWrite q w = (with_ true).stop .stall) ∧
      (writes → free → (k.rq q).entries.length < 8 → k.sbuf = [] → k.flight = [] → k.amoWait = false →
        ended (s.queueWrite q w) ∧ ((s.queueWrite q w).me.rq q).entries =
          (k.rq q).entries ++ [{ data := s.rv w, src := some (k.lid, q), scope := none }]))

/-- R131 and R413 to R416: a resent flit changes nothing but timing; a port that retrains is not settled, and its settle flit states
full width, what training found, and its module and number; a flit that agrees with it settles the port on the lowest lanes that carry
its width, and one that does not narrows it, and the port sends its next flit, until no lane is left or the third mismatch quarantines
it, which the controller records, under a code of the model's choice (log entry 6). -/
def Obligations.LinkEvents : Prop :=
  ∀ (s : State) (port other : BitVec 5) (lanes : BitVec 8) (speed : BitVec 2) (flit : BitVec 256),
    let p := s.port port
    let count : BitVec 8 → Nat := fun x => (List.range 8).countP fun i => x.getLsbD i
    let most : BitVec 8 → Nat := fun x => if 8 ≤ count x then 3 else if 4 ≤ count x then 2 else if 2 ≤ count x then 1 else 0
    let sends : Port → Prop := fun x => x.sent = BitVec.ofNat 256 (0x5E + x.width.toNat * 2 ^ 8 + x.lanes.toNat * 2 ^ 10 +
      x.speed.toNat * 2 ^ 18 + x.attempt.toNat * 2 ^ 20 + s.modu.toNat * 2 ^ 24 + port.toNat * 2 ^ 40)
    let theirs : BitVec 8 := bits flit 10 8
    let agrees : Prop := bits flit 0 8 = (0x5E : BitVec 8) ∧ flit.toNat < 2 ^ 45 ∧ bits flit 8 2 = p.width ∧
      theirs = p.lanes ∧ bits flit 18 2 = p.speed ∧ 2 ^ p.width.toNat ≤ count p.lanes
    exec (.linkRetransmit port) s = .next s ∧
    (∃ u, exec (.linkRetrain port lanes speed) s = .next u ∧ SameMemory s u ∧ u.net = s.net ∧
      u.port port = { settled := false, quarantined := false, width := 3, lanes := lanes, speed := speed, mismatches := 0,
                      attempt := 1, sent := (u.port port).sent } ∧ sends (u.port port) ∧
      (other ≠ port → u.port other = s.port other)) ∧
    (p.settled = false → p.quarantined = false →
      ∃ u, exec (.settleFlit port flit) s = .next u ∧ SameMemory s u ∧ u.net = s.net ∧
        (other ≠ port → u.port other = s.port other) ∧
        (agrees → (u.port port).settled = true ∧ (u.port port).mismatches = 0 ∧ (u.port port).width = p.width ∧
          (u.port port).speed = p.speed ∧ count (u.port port).lanes = 2 ^ p.width.toNat ∧
          (∀ i, (u.port port).lanes.getLsbD i = true → p.lanes.getLsbD i = true) ∧ u.ctrlLog = s.ctrlLog) ∧
        (¬ agrees → (u.port port).settled = false ∧ (u.port port).mismatches = p.mismatches + 1 ∧
          (u.port port).attempt = p.attempt + 1 ∧ (u.port port).lanes = p.lanes &&& theirs ∧
          (u.port port).width.toNat = Nat.min (Nat.min p.width.toNat (bits flit 8 2 : BitVec 2).toNat) (most (p.lanes &&& theirs)) ∧
          (u.port port).speed.toNat = Nat.min p.speed.toNat (bits flit 18 2 : BitVec 2).toNat ∧
          ((u.port port).quarantined = false → sends (u.port port)) ∧
          ((u.port port).quarantined = true ↔ p.lanes &&& theirs = 0 ∨ p.mismatches + 1 = 3) ∧
          u.ctrlLog = s.ctrlLog ++ (if (u.port port).quarantined then [(0x02, port.setWidth 64)] else [])))

/-! ## Events of memory -/

/-- R90, R93, R94 and R224: at its owner, here the TCM of the issuing core with no other access waiting, a sync write, behind
the sync reads before it, and a sync read whose condition holds are performed, with the word's bit as the mode leaves it and the
read's entry on its way to its queue register with the scope at which its read is an acquire (R128); one whose condition does not hold waits in the owner's list. The entry then reaches the register. -/
def Obligations.SyncEvents : Prop :=
  ∀ (s : State) (n : CoreId) (e : StoreEntry) (md : SyncMode) (r : List StoreEntry) (f : Flight) (l : List Flight)
    (d : Delivery) (ds : List Delivery),
    let k := s.core n
    let full : Nat → Bool := fun o => feGet k.tcmFe (o / 8)
    let alone : Nat → Prop := fun o => (∀ m ∈ s.moorings, m.owner ≠ .tcm n) ∧ .tcm n ∉ s.noCredit ∧ o % 8 = 0 ∧
      poisonGet k.tcmPoison (o / 8) = false ∧ s.weirHas (.tcm k.lid) = false
    (k.sbuf = e :: r → k.flight = [] → k.amoWait = false → e.mode = some md → e.space = .tcm → alone e.va →
      (md.holds (full e.va) = true →
        ∃ t, exec (.syncAccessAtOwner n) s = .next t ∧ (t.core n).sbuf = r ∧ t.moorings = s.moorings ∧
          (∀ w, feGet (t.core n).tcmFe w = if w = e.va / 8 then md.after (full e.va) else feGet k.tcmFe w) ∧
          ∀ a, (t.core n).tcm.get a =
            if md.writes = true ∧ e.va ≤ a ∧ a < e.va + 8 then bits e.data (8 * (a - e.va)) 8 else k.tcm.get a) ∧
      (md.holds (full e.va) = false →
        ∃ (t : State) (m : Mooring), exec (.syncAccessAtOwner n) s = .next t ∧ (t.core n).sbuf = r ∧
          (t.core n).tcm = k.tcm ∧ (t.core n).tcmFe = k.tcmFe ∧ t.moorings = s.moorings ++ [m] ∧ m.owner = .tcm n ∧
          m.word = e.va / 8 ∧ m.mode = md ∧ m.data = e.data ∧ m.fwd = false)) ∧
    (k.sbuf = [] → k.flight = f :: l → f.space = .tcm → f.mode.writes = false → alone f.va →
      (f.mode.holds (full f.va) = true →
        ∃ (t : State) (x : Vec), exec (.syncAccessAtOwner n) s = .next t ∧ SameMemory s t ∧ (t.core n).flight = l ∧
          (t.core n).deliver = k.deliver ++ [{ lid := k.lid, q := f.q, entry := x,
                                                   scope := if f.mode = .plain then none else some f.scope }] ∧ bits x 0 64 = k.tcmWord f.va ∧
          bits x 64 3 = f.itag ∧ bits x 67 2 = (0 : BitVec 2) ∧ bits x 69 3 = f.mode.code ∧
          ∀ w, feGet (t.core n).tcmFe w = if w = f.va / 8 then f.mode.after (full f.va) else feGet k.tcmFe w) ∧
      (f.mode.holds (full f.va) = false →
        ∃ (t : State) (m : Mooring), exec (.syncAccessAtOwner n) s = .next t ∧ SameMemory s t ∧ (t.core n).flight = l ∧
          (t.core n).deliver = k.deliver ∧ t.moorings = s.moorings ++ [m] ∧ m.owner = .tcm n ∧ m.word = f.va / 8 ∧
          m.mode = f.mode)) ∧
    (k.deliver = d :: ds → d.lid = k.lid → k.savedLid ≠ some k.lid → k.loading ≠ some k.lid → s.contextOut k.lid = false →
      ∃ t, exec (.ldqEntryDeliver n) s = .next t ∧ SameMemory s t ∧ (t.core n).deliver = ds ∧
        (t.core n).rq d.q = { k.rq d.q with resv := (k.rq d.q).resv - 1,
                                            entries := (k.rq d.q).entries ++ [{ data := d.entry, src := none, scope := d.scope }] } ∧
        ∀ z, z ≠ d.q → (t.core n).rq z = k.rq z)

/-- R78 to R80, R172, R358, R387, R389, R396, R397, R402, R408 and R410: a refill brings a page into a free frame; a gated cluster's store
and one to a granule that has moved are performed at the backing word and at the new home, where only a store under another key changes
bytes beside it, those of its block of 16 (R399); a walk is kept; an acknowledgement is
counted; a credit frees the oldest access that waits for one; a `pginv` with no store of its page under way finishes, leaves no translation of
its page and says so; a page of 64 KiB starts to move, a larger one does not, and a granule moves with its bits and its waiting entries;
an eviction error poisons its granule, of which no copy is left; a bad line leaves the instruction cache. -/
def Obligations.MemoryEvents : Prop :=
  ∀ (s : State) (n : CoreId) (cl : BitVec 14) (die : BitVec 4) (dom : BitVec 16) (backing : BitVec 44) (pa : Nat)
    (refills : List (BitVec 16 × BitVec 44 × Nat)) (va : BitVec 56) (level : Nat) (e : StoreEntry) (r : List StoreEntry)
    (tag : Nat) (tags : List Nat) (place : BitVec 16) (o : Owner) (m : Mooring) (ms : List Mooring) (p : Pginv)
    (ps : List Pginv) (f g : BitVec 24) (mv : Migration) (bad : BitVec 52) (wait : Mooring),
    let k := s.core n
    let c := s.cluster cl
    let home := s.live e.pa
    let lands : Instr → Prop := fun i => ∃ t, exec i s = .next t ∧ (t.core n).sbuf = r ∧ ∀ a,
      (home ≤ a ∧ a < home + e.size → t.mem.get a = bits e.data (8 * (a - home)) 8) ∧
      (¬ (home ≤ a ∧ a < home + e.size) → a / 16 ≠ home / 16 ∨ Cells.getD s.bkey (home / 16) 0 = s.keyOf e.dom home →
        t.mem.get a = s.mem.get a)
    let line := s.live (bad.toNat / 64 * 64)
    let free : Prop := k.flight = [] ∧ k.amoWait = false ∧ s.behindFwd (s.spot e.dom (.mem e.pa)) = false ∧
      s.plainStuck n e.dom (.mem e.pa) = none ∧ e.pa % 8 + e.size ≤ 8
    let src := f.toNat * 65536 + 64 * mv.next
    let dst := mv.p2 * 65536 + 64 * mv.next
    (c.refills = (dom, backing, pa) :: refills → c.gstate = 0 → c.frames.length < 64 → c.findFrame dom backing = none →
      ∃ (t : State) (x : Frame), exec (.pageRefill cl) s = .next t ∧ (t.cluster cl).frames = c.frames ++ [x] ∧
        x.dom = dom ∧ x.backing = backing ∧ x.pa = pa ∧ x.pins = 0 ∧ x.dirty = [] ∧
        (∀ i, i < 4096 → some (x.mem.get i) = (s.peek (bits cl 10 4) dom (pa + 8 * (i / 8)) 8)[i % 8]?) ∧
        ∀ w, w < 512 → feGet x.fe w = feGet s.fe (s.live (pa + 8 * w) / 8)) ∧
    (c.refills = (dom, backing, pa) :: refills → c.gstate ≠ 0 →
      exec (.pageRefill cl) s = .next (s.updCluster cl fun c => { c with refills := refills })) ∧
    ((s.die die).tlbFind va = none → isMgmt va.toNat = false → s.walkFrom die [] va 0 4 = (.page pa, level) → level < 4 →
      ∃ (t : State) (x : TlbEntry), exec (.pageWalk die va) s = .next t ∧ SameMemory s t ∧
        (t.die die).tlb = x :: (s.die die).tlb ∧ x.page = va.toNat / 2 ^ (16 + 10 * level) ∧ x.level.toNat = level ∧
        x.frame = pa - va.toNat % 2 ^ (16 + 10 * level)) ∧
    ((s.die die).tlbFind va = some pa → exec (.pageWalk die va) s = .next s) ∧
    ((s.cluster (clusterOf n)).gstate ≠ 0 → k.sbuf = e :: r → e.space = .scratch → e.mode = none →
      s.frameAt (clusterOf n) e.dom e.va = none → free → homedOn (dieOf n) home = true → lands (.gatedReply n)) ∧
    (k.sbuf = e :: r → e.space = .global → e.mode = none → home ≠ e.pa → free → homedOn (dieOf n) home = true →
      lands (.oldHomeForward n)) ∧
    (k.acks = tag :: tags → ∃ t, exec (.acknowledgement n) s = .next t ∧ SameMemory s t ∧ (t.core n).acks = tags ∧
      (t.core n).unacked = k.unacked.filter (fun x => x != tag) ∧ t.wire = s.wire.filter fun w => w.msg.tag != some tag) ∧
    (s.noCredit[place.toNat]? = some o →
      ((∀ x ∈ s.moorings, x.owner = o → x.fwd = false) → exec (.forwardCredit place) s = .next
        { s with noCredit := s.noCredit.take place.toNat ++ s.noCredit.drop (place.toNat + 1) }) ∧
      (s.moorings = m :: ms → m.fwd = true → m.owner = o → o = s.memOwner (8 * m.word) →
        let full := s.spotFull { owner := o, word := m.word, dom := m.dom }
        (m.mode.holds full = false →
          exec (.forwardCredit place) s = .next { s with moorings := { m with fwd := false } :: ms }) ∧
        (m.mode.holds full = true → m.amo = none → m.plain = none → ms = [] → o = .home die → poisonGet s.poison m.word = false →
          ∃ t, exec (.forwardCredit place) s = .next t ∧ t.moorings = [] ∧ feGet t.fe m.word = m.mode.after full))) ∧
    (s.pginvs = p :: ps → p.core = n → (∀ x ∈ s.cores, x.2.usesRange p.page (p.page + pageSize p.level) = false) →
      ∃ (t : State) (y : Transit) (a : Arr), exec (.pginvComplete n) s = .next t ∧ t.pginvs = ps ∧ t.net = s.net ++ [y] ∧
        y.dst = p.lid ∧ y.cargo = .message a ∧ hdrType a.msg.hdr = 0x02 ∧ hdrPrio a.msg.hdr = 7 ∧
        a.msg.payload = [p.addr] ∧
        ∀ d, ∀ x ∈ (t.die d).tlb, (x.page + 1) * pageSize x.level ≤ p.page ∨ p.page + pageSize p.level ≤ x.page * pageSize x.level) ∧
    ((∀ x ∈ s.migrations, x.p ≠ f.toNat ∧ x.p ≠ g.toNat ∧ x.p2 ≠ f.toNat ∧ x.p2 ≠ g.toNat) → f ≠ g →
      (∀ x ∈ s.prov, x.pa / 65536 ≠ f.toNat) →
      (s.inLargePage f.toNat = false → exec (.pageMigration f g) s =
        .next { s with migrations := s.migrations ++ [{ p := f.toNat, p2 := g.toNat, next := 0 }] }) ∧
      (s.inLargePage f.toNat = true → exec (.pageMigration f g) s = .next s)) ∧
    (s.migrations.find? (fun x => x.p == f.toNat) = some mv → mv.next < 1024 → mv.p2 ≠ f.toNat →
      (∀ d w, w < 8 → Cells.find (s.die d).copies (src / 8 + w) = none) →
      ∃ t, exec (.pageMigration f g) s = .next t ∧
        t.migrations = s.migrations.map (fun x => if x.p = f.toNat then { x with next := x.next + 1 } else x) ∧
        (∀ i, i < 64 → t.mem.get (dst + i) = s.mem.get (src + i)) ∧
        (wait ∈ s.moorings → wait.owner.isMem = true → src / 8 ≤ wait.word → wait.word < src / 8 + 8 →
          { wait with owner := .home (homeDie dst), word := dst / 8 + (wait.word - src / 8) } ∈ t.moorings) ∧
        (∀ a, (a < src ∨ src + 64 ≤ a) → (a < dst ∨ dst + 64 ≤ a) → t.mem.get a = s.mem.get a) ∧
        (∀ w, w < 8 → feGet t.fe (dst / 8 + w) = feGet s.fe (src / 8 + w) ∧
          poisonGet t.poison (dst / 8 + w) = poisonGet s.poison (src / 8 + w))) ∧
    ((s.die (homeDie line)).mcsize = 0 →
      ∃ t, exec (.evictionError bad dom) s = .next t ∧
        (∀ w, w < 8 → poisonGet t.poison (line / 8 + w) = true ∧
          ∀ d, Cells.find (t.die d).copies (bad.toNat / 64 * 8 + w) = none) ∧
        (s.dirtyFrame (bad.toNat / 64 * 64) = none →
          (∀ d w, w < 8 → Cells.find (s.die d).copies (bad.toNat / 64 * 8 + w) = none) →
          SameMemory s t ∧ ∀ w, poisonGet t.poison w = (decide (line / 8 ≤ w ∧ w < line / 8 + 8) || poisonGet s.poison w))) ∧
    (∃ t, exec (.icacheParityError n va) s = .next t ∧ SameMemory s t ∧ (∀ q, q ≠ n → t.core q = s.core q) ∧
      ∀ x, Cells.find (t.core n).icache x = if x / 64 = va.toNat / 64 then none else Cells.find k.icache x)

/-! ## Events of launch and scheduling -/

/-- R324, R326, R328, R329, R363, R365, R367 to R369 and R443: the front end takes the oldest `launch` of its sector, hands one that
fails the checks back, one whose RCB is not aligned to 128 bytes with cause 0x01 and its address (log entry 18), and queues one that passes;
a dispenser with nothing to bind gives an open core the record with the lowest index; a launch is released once the PLB entries of its cores
are written, and places its records; a finished launch gives its cores up, and the supervisor
unbinds one that is not, once its engines are empty; a notice decides whether a gang that is bound under its barrier is withheld as one
unit, and a core of any other stage is withheld by itself; a
filled shape word fixes the count, makes frames firm or squashes them, and discards what is left provisional; a core's binding
leaves the state of R367, with the micro-kernel's own vector entries (log entry 18). -/
def Obligations.LaunchEvents : Prop :=
  (∀ (s : State) (sector : BitVec 6) (n : CoreId) (q : RemCmd) (r : LaunchRec) (f : TreeFault) (info : TreeInfo),
     let t := s.releaseDie (dieOf n)
     let others := (s.core n).remQ.filter fun x => x.id != q.id
     s.oldestRem (fun n op => sectorOf n == sector && (match op with | .launch _ => true | _ => false)) = some (n, q) →
     q.op = .launch r →
     (t.checkTree (dieOf n) r.rcb = .error f → f.unread = false →
       ∃ u, exec (.launchFrontEndCheck sector) s = .next u ∧ HandsBack s u q.by_ 4 f.cause f.addr f.progress ∧
         (u.core n).remQ = others ∧ u.launches = s.launches) ∧
     (r.rcb.toNat % 128 ≠ 0 → t.checkTree (dieOf n) r.rcb =
       .error { cause := 0x01, addr := r.rcb.setWidth 64, progress := 0, unread := false }) ∧
     (t.checkTree (dieOf n) r.rcb = .ok info → r.shapew = 0 → (s.sector sector).launchQ.length < 16 →
       s.weirHas (.launch sector) = false →
       ∃ (u : State) (x : Launch), exec (.launchFrontEndCheck sector) s = .next u ∧ u.launches = s.launches ++ [x] ∧
         (u.sector sector).launchQ = (s.sector sector).launchQ ++ [x.id] ∧ (u.core n).remQ = others ∧ u.net = s.net ∧
         x.id = q.id ∧ x.record = r ∧ x.by_ = q.by_ ∧ x.succ = q.succ ∧ x.stages = info.stages ∧
         x.region = info.region ∧ x.count = some r.nmin ∧ x.pred = r.nmin ∧ x.bound = false)) ∧
  (∀ (s : State) (blk : BitVec 10) (n : CoreId) (b : Binding),
     let h := s.refreshHolds blk
     let mine : InstRec → Prop := fun x => x.launch = b.launch ∧ x.stage = b.stage
     s.waiting = [] → blockOf n = blk → (s.core n).binding = some b →
     (∀ m, blockOf m = blk → m ≠ n → (s.core m).binding = none) →
     h.openCore n = true → (∃ x ∈ (s.block blk).records, mine x) →
     ∃ (u : State) (x : InstRec) (y : Transit) (a : Arr), exec (.dispenserRound blk) s = .next u ∧ SameMemory s u ∧
       x ∈ (s.block blk).records ∧ mine x ∧
       (∀ z ∈ (s.block blk).records, mine z → x.inst.index.toNat ≤ z.inst.index.toNat) ∧
       (u.block blk).records = (s.block blk).records.filter (fun z => z != x) ∧
       (u.core n).ni = (s.core n).ni ++ [y] ∧ y.cargo = .message a ∧ y.dst = s.lidOf n ∧ a.inst = some x.inst ∧
       a.msg.payload = x.msg.payload ∧ hdrType a.msg.hdr = hdrType x.msg.hdr) ∧
  (∀ (s : State) (l : BitVec 32) (x : Launch) (g : Stage) (gs : List Stage) (n : CoreId),
     let blk := blockOf n
     s.launches.find? (fun y => y.id == l.toNat) = some x → x.bound = true → x.stages = g :: gs → g.cores = [n] →
     (∀ e ∈ x.stages, ∀ m ∈ e.cores, ∀ y, (s.core m).binding = some y → y.plbDone = true) → x.issued = 0 → x.ended = [] → 0 < x.limit → (s.block blk).records.length + x.limit ≤ 256 →
     s.weirHas (.records blk) = false →
     ∃ (u : State) (f : Nat → InstRec), exec (.stageRelease l) s = .next u ∧ SameMemory s u ∧ u.net = s.net ∧
       (u.block blk).records = (s.block blk).records ++ (List.range x.limit).map f ∧
       (∀ y ∈ u.launches, y.id = x.id → y.released = true) ∧
       ∀ i, i < x.limit → (f i).launch = x.id ∧ (f i).stage = 0 ∧ hdrType (f i).msg.hdr = g.itype ∧
         hdrPrio (f i).msg.hdr = g.iprio ∧
         (f i).msg.payload = [(BitVec.ofNat 32 i).setWidth 64, x.record.arg] ∧
         (f i).inst = { id := x.id, walk := false, index := BitVec.ofNat 32 i,
                        tentative := x.count.isNone && decide (x.record.nmin.toNat ≤ i) }) ∧
  (∀ (s : State) (l : BitVec 32) (x : Launch), s.launches.find? (fun y => y.id == l.toNat) = some x →
     let gone : State → Prop := fun u => u.launches.map Launch.id = (s.launches.map Launch.id).filter (fun y => y != x.id)
     let empty : CoreId → Prop := fun n => (s.core n).copyQ = [] ∧ (s.core n).matQ = [] ∧ (s.core n).remQ = [] ∧ (s.core n).closing = []
     (x.done = true → (∀ g ∈ x.stages, ∀ n ∈ g.cores, (s.core n).level = 0xF ∧ empty n ∧
         (s.core n).binding.map (fun b => b.launch) = some x.id) →
       ∃ u, exec (.unbind l) s = .next u ∧ gone u ∧
         ∀ g ∈ x.stages, ∀ n ∈ g.cores, (u.core n).binding = none ∧ (u.core n).budgets = [] ∧ (u.core n).level = 0xF) ∧
     (x.done = false → exec (.unbind l) s = .next s) ∧
     ((∃ e ∈ x.stages, ∃ n ∈ e.cores, (s.core n).matQ ≠ []) → s.supervisorUnbind l.toNat = s) ∧
     ((∀ g ∈ x.stages, ∀ n ∈ g.cores, empty n) →
       let u := s.supervisorUnbind l.toNat
       gone u ∧
         ∀ g ∈ x.stages, ∀ n ∈ g.cores, (u.core n).binding = none ∧ (u.core n).budgets = [])) ∧
  (∀ (s : State) (x : BitVec 6) (l : Launch) (k : Nat) (g : Stage) (n : CoreId) (ns : List CoreId) (t : Transit) (r : List Transit)
     (a : Arr) (pa : Nat) (m : CoreId) (b : Binding),
     let out : State := { s with net := r }
     let h := out.refreshHolds (blockOf n)
     (s.net = t :: r → t.cargo = .message a → t.isNotice = true → sectorOf t.dst = x → s.gangBars = [(l.id, k, pa)] →
       (s.live pa ≠ (a.msg.word 0).toNat → exec (.gangBarrierNotice x) s = .next out) ∧
       (s.live pa = (a.msg.word 0).toNat → s.launches.find? (fun y => y.id == l.id) = some l → l.stages[k]? = some g →
         g.cores = n :: ns →
         ∃ u, exec (.gangBarrierNotice x) s = .next u ∧ SameMemory s u ∧ u.net = r ∧ u.cores = h.cores ∧
           (∀ i, i ≠ (l.id, k) → (i ∈ u.gangHeld ↔ i ∈ s.gangHeld)) ∧
           ((l.id, k) ∈ u.gangHeld ↔ ∃ n ∈ g.cores, h.heldBack n = true))) ∧
     ((s.core m).binding = some b →
       ((∀ e ∈ s.gangBars, (e.1, e.2.1) ≠ (b.launch, b.stage)) → s.withholds m = s.heldBack m) ∧
       ((∃ e ∈ s.gangBars, (e.1, e.2.1) = (b.launch, b.stage)) →
         (s.withholds m = true ↔ (b.launch, b.stage) ∈ s.gangHeld)))) ∧
  (∀ (s : State) (l : BitVec 32) (x : Launch) (w : Word) (n : CoreId) (v : BitVec 3) (i : Inst),
     let count := min w.toNat 0xFFFFFFFF
     s.launches.find? (fun y => y.id == l.toNat) = some x → x.fill = some w → x.count = none → x.released = false →
     s.records = [] → s.allocs = [] →
     ∃ (u : State) (y : Transit) (a : Arr), exec (.shapeResolve l) s = .next u ∧
       (∀ z ∈ u.launches, z.id = x.id → z.count = some (BitVec.ofNat 32 count) ∧ z.fill = none) ∧
       (∀ p ∈ u.prov, p.launch ≠ x.id) ∧
       y ∈ u.net ∧ y.dst = x.by_.lid ∧ y.cargo = .message a ∧ hdrType a.msg.hdr = 0x06 ∧
       a.msg.payload = [BitVec.ofNat 64 count, x.pred.setWidth 64] ∧
       (((s.core n).bank v).live = true → ((s.core n).bank v).inst = some i → i.walk = false → i.id = x.id →
         i.tentative = true →
         (count ≤ i.index.toNat → ((u.core n).bank v).squash = true) ∧
         (i.index.toNat < count → ((u.core n).bank v).inst = some { i with tentative := false } ∧
           ((u.core n).bank v).squash = ((s.core n).bank v).squash))) ∧
  (∀ (s : State) (n : CoreId) (g : Stage) (l : Launch) (k : Nat) (im : Images) (i : Nat) (v : BitVec 3),
     let c := s.core n
     let d := (s.bindCore n l g k im).core n
     let own : Nat → Word := fun i => c.tcmWord (c.vbase.toNat + 8 * i)
     d.dom = l.dom ∧ d.vbase = g.vbase ∧ d.sp = g.vbase ∧ d.slim = g.slim ∧ d.ceil = g.ceil ∧ d.wdog = g.eff.wdog ∧
       d.seed = l.seed ∧ d.hprog = 0 ∧ (v ≠ 7 → d.held v = []) ∧ d.entryBuf = .replicate 8 [] ∧ d.h = .replicate 4 0 ∧ d.ht = 0 ∧ d.kcnt = 0 ∧ d.latchL = none ∧ d.latchI = none ∧ d.member = none ∧
       d.plb = .replicate 16 PlbEntry.reset ∧ d.icache = [] ∧ d.q = .replicate 8 QueueReg.reset ∧ d.lid = c.lid ∧
       d.banks = c.banks ∧ d.tvec = c.tvec ∧ (d.binding.map fun b => (b.stageRcb, b.plbDone)) = some (g.rcb, false) ∧
       (8 * im.named.length ≤ g.vbase.toNat → im.vtab.length = 320 →
         (i < im.named.length → d.tcmWord (8 * i) = im.named.getD i 0) ∧
         (im.named.length ≤ i → 8 * i + 8 ≤ g.vbase.toNat → d.tcmWord (8 * i) = 0) ∧
         (i < 32 → (∃ j, j < 32 ∧ own j ≠ 0) → d.tcmWord (g.vbase.toNat + 8 * i) = own i) ∧
         (i < 32 → (∀ j, j < 32 → own j = 0) → d.tcmWord (g.vbase.toNat + 8 * i) = c.svec.toList.getD i 0) ∧
         (32 ≤ i → i < 320 → d.tcmWord (g.vbase.toNat + 8 * i) = im.vtab.getD i 0)) ∧
       (i < 8 → d.d.toList.getD i 0 = im.dimg.getD i 0))

/-- R375, R376, R379 and R431: a period release starts the contract's activation on each of its cores, the receiving one, too, if it is
among them, and renews the budget; a budget counts the time its frames run, and that of the supervisor for them, and, past C, traps once a
period or throttles; a pacer's period sends the next release; cores of one
stage tell their neighbours their load, and a core moves its youngest movable arrivals to one with less, each in a type-0x09
message whose payload is the arrival's header and payload (log entry 16). -/
def Obligations.ContractEvents : Prop :=
  (∀ (s : State) (n : CoreId) (t : Transit) (r : List Transit) (a : Arr) (g : Stage) (c : Contract),
     let ms := (g.cores.drop c.cfirst.toNat).take c.ccount.toNat
     (s.core n).ni = t :: r → t.cargo = .message a → hdrType a.msg.hdr = 0x05 → s.stageRcb (a.msg.word 0) = some g →
     g.contracts.find? (fun x => x.idx == bits (a.msg.word 1) 0 3) = some c →
     ms.Nodup → s.saved = [] → (∀ m ∈ ms, s.physOf (s.core m).lid = m ∧ (∀ p, s.heldAt m p = []) ∧ NoneDue s m) →
     ∃ u : State, exec (.periodRelease n) s = .next u ∧ SameMemory s u ∧ (n ∉ ms → (u.core n).ni = r) ∧ ∀ m ∈ ms,
       ∃ (y : Transit) (b : Arr), (u.core m).ni = (if m = n then r else (s.core m).ni) ++ [y] ∧ y.cargo = .message b ∧ hdrType b.msg.hdr = c.ctype ∧
       hdrPrio b.msg.hdr = c.prio ∧ b.contract = some c.idx ∧
       b.msg.payload = [(bits (a.msg.word 1) 32 32 : BitVec 32).setWidth 64, c.idx.setWidth 64] ∧
       (u.core m).budgets = (s.core m).budgets.map fun x => if x.idx = c.idx then
         { x with count := if c.act then min (x.count - c.budget.toNat) c.budget.toNat else 0, overrun := false,
                  throttled := false } else x) ∧
  (∀ (s : State) (n : CoreId) (idx : BitVec 3) (rt : BitVec 32) (bd : Binding) (ct : Contract) (b : Budget),
     let k := s.core n
     let total := b.count + rt.toNat
     let past := decide (ct.budget.toNat < total)
     let budgets := k.budgets.map fun x => if x.idx = idx then
       { x with count := total, overrun := x.overrun || past, throttled := x.throttled || (past && ct.act) } else x
     let l : BitVec 3 := if k.level = 7 then bits (causeLevel k.cause) 0 3 else k.lvl
     k.level.toNat < 7 ∨ k.level = 7 ∧ (causeLevel k.cause).toNat < 7 → k.stopped = false → (k.bank l).live = true →
     (k.bank l).contract = some idx → k.binding = some bd →
     bd.contracts.find? (fun x => x.idx == idx) = some ct → k.budgets.find? (fun x => x.idx == idx) = some b →
     ∃ u, exec (.budgetOverrun n idx rt) s = .next u ∧ SameMemory s u ∧ (u.core n).budgets = budgets ∧
       (past = true → ct.act = false → b.overrun = false →
         (k.level ≠ 7 → EntersSupervisor k (u.core n) 0x09 (idx.setWidth 64) k.pc true) ∧
         (k.level = 7 → (u.core n).level = 7 ∧ (u.core n).heldTraps = k.heldTraps ++
           [{ level := l.setWidth 4, cause := 0x09, addr := idx.setWidth 64, epc := none }])) ∧
       (past = false ∨ ct.act = true ∨ b.overrun = true → u.core n = { k with budgets := budgets })) ∧
  (∀ (s : State) (die : BitVec 4),
     let p := (s.die die).pacer
     (p.en = true → p.now ≠ 0 →
       ∃ (u : State) (y : Transit) (a : Arr), exec (.pacerRelease die) s = .next u ∧ SameMemory s u ∧ u.net = s.net ++ [y] ∧
         y.dst = p.lid ∧ y.cargo = .message a ∧ hdrType a.msg.hdr = 0x05 ∧ hdrPrio a.msg.hdr = 7 ∧
         a.msg.payload = [p.rcb.setWidth 64, BitVec.ofNat 64 (p.cidx.toNat + p.seq.toNat * 2 ^ 32)] ∧
         (u.die die).pacer = { p with seq := p.seq + 1, now := p.period }) ∧
     (p.en = false ∨ p.now = 0 → exec (.pacerRelease die) s = .next s)) ∧
  (∀ (s : State) (n : CoreId),
     ∃ (u : State) (l : List Transit), exec (.loadExchange n) s = .next u ∧ SameMemory s u ∧ u.cores = s.cores ∧
       u.net = s.net ++ l ∧ l.map (fun t => t.dst) =
         ((neighbours n).filter fun m => s.sameStage n m).map (fun m => (s.core m).lid) ∧
       ∀ t ∈ l, ∃ a, t.cargo = .message a ∧ hdrType a.msg.hdr = 0x08 ∧
         a.msg.payload = [BitVec.ofNat 64 (s.loadFigure n)]) ∧
  (∀ (s : State) (n : CoreId) (t : Transit) (r : List Transit) (a : Arr) (held moved : List Arr),
     let m := s.physOf (hdrSrc a.msg.hdr)
     let more := s.loadFigure n - (a.msg.word 0).toNat
     (s.core n).ni = t :: r → t.cargo = .message a → hdrType a.msg.hdr = 0x08 →
     (s.sameStage n m = false ∨ more ≤ 2 →
       exec (.loadFigure n) s = .next ((s.updCore n fun c => { c with ni := r }).ackTo t)) ∧
     (s.sameStage n m = true → 2 < more → more / 10 = moved.length → s.weir = [] → (s.core n).held 0 = held ++ moved →
       (∀ b ∈ moved, s.movable b = true) →
       ∃ (u : State) (l : List Transit), exec (.loadFigure n) s = .next u ∧ SameMemory s u ∧ (u.core n).ni = r ∧
         (u.core n).held 0 = held ∧ u.net = s.net ++ l ∧ l.length = moved.length ∧
         ∀ (i : Nat) (y : Transit) (b : Arr), l[i]? = some y → moved.reverse[i]? = some b → y.dst = (s.core m).lid ∧ ∃ z : Arr, y.cargo = .message z ∧
           hdrType z.msg.hdr = 0x09 ∧ hdrPrio z.msg.hdr = hdrPrio b.msg.hdr ∧ hdrDst z.msg.hdr = (s.core m).lid ∧
           z.msg.payload = b.msg.hdr :: b.msg.payload ∧ z.inst = b.inst))

/-! ## Events of the host, the management space, power and errors -/

/-- R392, R403, R404, R418 to R420, R449 and R452: the host reads and writes words of its window at their homes, and beyond hsize, or
where a page is absent, it gets poisoned data and machine check 0x03; a doorbell moves a tail; a request record is delivered or refused,
with its status stored and its window's head moved on; the RCB window stores its image and says whether it could, with a machine check
where its store faults; a key slot takes the material written; module reset leaves the state that bring-up leaves, with its failures
recorded. The model's choices: the part knows partitions by the RCBs stored through the window, and walks the host's addresses with the
walkers of die 0 (log entry 19); host memory keeps its contents over a module reset, whose failures are what the state says (log
entry 25). -/
def Obligations.HostEvents : Prop :=
  (∀ (s : State) (ld : BitVec 4) (off a : BitVec 56) (write : Bool) (data : Word) (p : Partition) (pa : Nat) (t : State) (r : Xlate),
     let o := off.toNat / 8 * 8
     let h := t.live pa
     let q := s.touchPartitions
     let at0 := BitVec.ofNat 56 (p.hbase + o)
     let refused : State → Prop := fun k =>
       ∃ x, exec (.hostMemAccess ld off write data) s = .next { k with free := k.free + 1, hostData := x, hostPoison := true }
     let checked : State → State := fun k => k.machineCheck 0 0x03 p.hdom (BitVec.ofNat 64 (p.hbase + o)) none
     (s.partitionOf ld = none → s.partitionFault = none → refused s) ∧
     (s.partitionOf ld = none → s.partitionFault = some a → refused (s.machineCheck 0 0x03 0 (a.setWidth 64) none)) ∧
     (s.partitionOf ld = some p → (p.hsize ≤ o ∨ 2 ^ 56 ≤ p.hbase + o) → refused (checked q)) ∧
     (s.partitionOf ld = some p → o < p.hsize → p.hbase + o < 2 ^ 56 → q.translate 0 at0 = (t, r) → (∀ b, r ≠ .page b) →
       refused (checked t)) ∧
     (s.partitionOf ld = some p → o < p.hsize → p.hbase + o < 2 ^ 56 → q.translate 0 at0 = (t, .page pa) → pa % 8 = 0 →
       t.behindFwd (t.spot p.hdom (.mem pa)) = false → t.homeStuck none (t.spot p.hdom (.mem pa)) = none →
       (∃ u, exec (.hostMemAccess ld off true data) s = .next u ∧ u.cores = s.cores ∧
         (∀ i, i < 8 → u.mem.get (h + i) = bits data (8 * i) 8) ∧
         (∀ b, b / 16 ≠ h / 16 → u.mem.get b = t.mem.get b) ∧
         (isHost h = true ∨ (Cells.getD t.bkey (h / 16) 0 = t.keyOf p.hdom h ∧
             ∀ x : BitVec 4, Cells.find (t.die x).copies (pa / 8) = none) →
           ∀ b, b < h ∨ h + 8 ≤ b → u.mem.get b = t.mem.get b)) ∧
       (poisonGet t.poison (h / 8) = false →
         ∃ u, exec (.hostMemAccess ld off false data) s = .next u ∧ SameMemory t u ∧ u.hostPoison = false ∧
           u.hostData = BitVec.ofNat 64 (joinBytes (t.homeBytes p.hdom h 8))) ∧
       (poisonGet t.poison (h / 8) = true → write = false → refused t))) ∧
  (∀ (s : State) (ld : BitVec 4) (w : BitVec 6) (tail : BitVec 16) (p : Partition) (ws : List Word) (pa : Nat),
     let k := s.window ld w
     let at0 := k.rbase.toNat + 64 * (k.head.toNat % k.records)
     let word : Nat → Word := fun i => (ws[i]?).getD 0
     let st := s.requestStatus p word
     let q := s.touchPartitions
     let head : BitVec 16 := BitVec.ofNat 16 ((k.head.toNat + 1) % k.records)
     exec (.doorbell ld w tail) s = .next (s.updWindow ld w fun c => { c with tail := tail }) ∧
     (k.head = k.tail ∨ k.stop = true → exec (.hostRequestTake ld w) s = .next s) ∧
     (k.head ≠ k.tail → k.stop = false → s.partitionOf ld = none → exec (.hostRequestTake ld w) s = .next s.noPartition) ∧
     (k.head ≠ k.tail → k.stop = false → s.partitionOf ld = some p → q.hdmWords p at0 8 = none →
       exec (.hostRequestTake ld w) s =
         .next (q.machineCheck (bits w 2 4) 0x03 p.hdom (BitVec.ofNat 64 (p.hbase + at0)) none)) ∧
     (k.head ≠ k.tail → k.stop = false → s.partitionOf ld = some p → q.hdmWords p at0 8 = some ws →
       (q.hdm p at0).2 = some pa →
       ∃ u, exec (.hostRequestTake ld w) s = .next u ∧ u.cores = s.cores ∧ u.mem.get (s.live pa + 3) = st ∧
         u.window ld w = { k with head := head, err := k.err || st != 1, ecode := if st = 1 then k.ecode else st } ∧
         u.msix = s.msix ++ (if head = k.tail then [(ld, k.vec)] else []) ∧
         (st ≠ 1 → u.net = s.net) ∧
         (st = 1 → ∃ (y : Transit) (a : Arr), u.net = s.net ++ [y] ∧ y.dst = bits (word 0) 0 18 ∧ y.cargo = .message a ∧
           hdrType a.msg.hdr = 0x0A ∧ hdrPrio a.msg.hdr = bits (word 0) 18 3 ∧
           a.msg.payload = (List.range (bits (word 0) 21 2).toNat).map fun i => word (i + 1)))) ∧
  (∀ (s t : State),
     let k := s.rcbWindow
     let marks : Byte → State := fun x => { s with rcbWindow := { k with st := x } }
     (k.st = 3 → exec .rcbWindowGo s = .next s) ∧
     (k.st ≠ 3 → k.addr.toNat % 128 ≠ 0 → exec .rcbWindowGo s = .next (marks 2)) ∧
     (k.st ≠ 3 → k.addr.toNat % 128 = 0 → s.systemStore k.addr.toNat k.image = none → exec .rcbWindowGo s =
       .next { s.machineCheck 0 0x03 0 (k.addr.setWidth 64) none with rcbWindow := { k with st := 2 } }) ∧
     (k.st ≠ 3 → k.addr.toNat % 128 = 0 → s.systemStore k.addr.toNat k.image = some t →
       ∃ u, exec .rcbWindowGo s = .next u ∧ SameMemory t u ∧ u.rcbWindow = { k with st := 1 } ∧
         (∀ a, a ≠ k.addr → (a ∈ u.partitions ↔ a ∈ t.partitions)) ∧
         (k.addr ∈ u.partitions ↔ bits (k.image.headD 0) 56 3 = (1 : BitVec 3)))) ∧
  (∀ (s : State) (bay x : BitVec 4) (slot : BitVec 8) (n : Nat),
     ∃ u, exec (.keySlotCommit bay slot) s = .next u ∧ SameMemory s u ∧ u.cores = s.cores ∧
       Cells.find (u.quay bay).keys slot.toNat = some (s.quay bay).material ∧
       (n ≠ slot.toNat → Cells.find (u.quay bay).keys n = Cells.find (s.quay bay).keys n) ∧
       (x ≠ bay → u.quay x = s.quay x)) ∧
  (∀ s : State, ∃ t, exec .moduleReset s = .next t ∧
     t = { State.reset with cur := s.cur, turns := s.turns, free := s.free, nextId := s.nextId, modu := s.modu,
                            disabled := s.bring.cores, boot := s.bring, bring := s.bring,
                            ctrlLog := s.bring.cores.map (fun n => (0x03, n.setWidth 64)) ++
                              s.bring.ports.map fun p => (0x02, p.setWidth 64)
                            services := t.services, mem := t.mem, ports := t.ports } ∧
     (∀ n, t.core n = Core.booted s.bring n) ∧
     (∀ p, p ∈ s.bring.ports → (t.port p).quarantined = true ∧ (t.port p).settled = false) ∧
     (∀ p, p ∉ s.bring.ports → t.port p = Port.reset) ∧
     (∀ x, (x, t.serviceCore x) ∈ t.services) ∧
     ∀ a, t.mem.get a = if isHost a then s.mem.get a else 0)

/-- R15 and R431 to R446: dividers, power switches, of which one that opens or closes leaves its core as at reset, gating and waking of
a cluster, the rails by their error counts, heat and its armed flags, a core's reset and its check, and writes of the registers of the
cluster, die, quay die and encoder windows of the management space. The code of the controller's record, the rails beyond a ceiling, and what R446 leaves open of a core's reset are
the model's choice (log entries 6, 18 and 22). -/
def Obligations.PowerEvents : Prop :=
  (∀ (s : State) (cl : BitVec 14) (data : Word) (c : BitVec 4) (b : Binding) (i : RegInfo),
     let k := s.cluster cl
     let n := coreOf cl c.toNat
     let x := (bits data (4 * c.toNat) 4).toNat
     let on := k.pon.getLsbD c.toNat
     let turned := if data.getLsbD c.toNat then !on else on && s.mayOpen n
     ((∀ j, j < 16 → (s.core (coreOf cl j)).binding = none) →
       exec (.dividerWrite cl data) s = .next (s.updCluster cl fun k => { k with div := data })) ∧
     ((s.core n).binding = some b → s.infoOf b.region = some i → b.contracts ≠ [] → i.dmax.toNat < x + 1 →
       ∃ u, exec (.dividerWrite cl data) s = .next u ∧ SameMemory s u ∧ u.cores = s.cores ∧
         bits (u.cluster cl).div (4 * c.toNat) 4 = BitVec.ofNat 4 (i.dmax.toNat - 1)) ∧
     (∃ u, exec (.powerSwitchWrite cl data) s = .next u ∧
       (u.cluster cl).pon.getLsbD c.toNat = (data.getLsbD c.toNat || (k.pon.getLsbD c.toNat && !s.mayOpen n)) ∧
       u.core n = (if turned then { Core.reset n with ni := (s.core n).ni } else s.core n))) ∧
  (∀ (s : State) (cl : BitVec 14),
     let k := s.cluster cl
     let asks : Instr → (Cluster → Prop) → Prop := fun i f => ∃ u, exec i s = .next u ∧ (u.cluster cl).gstate = 1 ∧
       (u.cluster cl).frames = [] ∧ (u.cluster cl).refills = [] ∧ f (u.cluster cl)
     let becomes : Instr → (Cluster → Cluster) → Prop := fun i f => exec i s = .next (s.updCluster cl f)
     (k.gstate = 0 → asks (.scratchpadGateRequest cl) fun c => c.sgreq = true ∧ c.cgreq = k.cgreq) ∧
     (k.gstate ≠ 0 → becomes (.scratchpadGateRequest cl) fun c => { c with sgreq := true }) ∧
     (k.cgreq = false → s.mayGate cl = true → (k.gstate = 0 ∨ k.gstate = 2) →
       asks (.clusterGateRequest cl) fun c => c.cgreq = true ∧ c.sgreq = k.sgreq) ∧
     (k.cgreq = true ∨ s.mayGate cl = false → exec (.clusterGateRequest cl) s = .next s) ∧
     (k.gstate = 1 → becomes (.gateDrainComplete cl) fun c =>
       { c with gstate := if k.cgreq then 3 else 2, waking := !k.cgreq && !k.sgreq }) ∧
     (k.sgreq = true → k.cgreq = false → k.gstate = 2 →
       becomes (.gateWake cl 0) fun c => { c with sgreq := false, waking := true }) ∧
     (k.cgreq = true → k.sgreq = false → k.gstate = 3 →
       becomes (.gateWake cl 0) fun c => { c with cgreq := false, waking := true }) ∧
     (k.waking = true → k.gstate ≠ 3 → becomes (.wakeComplete cl) fun c =>
       { c with gstate := if k.sgreq then 2 else 0, waking := false, frames := [] }) ∧
     (k.waking = true → k.gstate = 3 → ∃ u, exec (.wakeComplete cl) s = .next u ∧ (u.cluster cl).waking = false ∧
       (u.cluster cl).gstate = 0 ∧
       ∀ i, i < 16 → u.core (coreOf cl i) = { Core.reset (coreOf cl i) with ni := (s.core (coreOf cl i)).ni }) ∧
     (k.waking = false → exec (.wakeComplete cl) s = .next s)) ∧
  (∀ (s : State) (cl : BitVec 14) (bad gone : BitVec 32),
     let k := s.cluster cl
     let cur := if gone = 0 then k.scur.toNat else min (k.scur.toNat + 2 * gone.toNat) (max k.scur.toNat k.sceil.toNat)
     let stop := if gone = 0 then k.noLower else 17
     let window : Nat → Prop := fun x => exec (.sramRailWindow cl bad gone) s = .next (s.updCluster cl fun c =>
       { c with scur := BitVec.ofNat 8 x, cerr := k.cerr + bad, uerr := k.uerr + gone, noLower := stop - 1 })
     (bad.toNat < k.sset.toNat → stop = 0 → k.sfloor.toNat < cur → window (cur - 1)) ∧
     (bad.toNat < k.sset.toNat → (0 < stop ∨ cur ≤ k.sfloor.toNat) → window cur) ∧
     (2 * k.sset.toNat < bad.toNat → window (min (cur + 1) (max cur k.sceil.toNat))) ∧
     (k.sset.toNat ≤ bad.toNat → bad.toNat ≤ 2 * k.sset.toNat → window cur) ∧
     exec (.logicRailLower cl) s = .next (s.updCluster cl fun c =>
       { c with lcur := if k.lfloor.toNat < k.lcur.toNat then k.lcur - 1 else k.lcur })) ∧
  (∀ (s : State) (n : CoreId) (temp : BitVec 8),
     let cl := clusterOf n
     let k := s.cluster cl
     let i := (slotOf n).toNat
     let read : Vector Byte 16 := k.temp.set (slotOf n).toFin temp
     let tells : Prop := k.armed.getLsbD i = true ∧ k.nmask.getLsbD i = true ∧ k.tlim.toNat ≤ temp.toNat
     exec (.timingReplay n false) s = .next s ∧
     exec (.timingReplay n true) s = .next (s.updCluster cl fun c =>
       { c with lcur := if k.lcur.toNat < k.lceil.toNat then k.lcur + 1 else k.lcur }) ∧
     (tells → ∃ (u : State) (y : Transit) (a : Arr), exec (.thermalNotify n temp) s = .next u ∧ SameMemory s u ∧
       (u.cluster cl).temp = read ∧ (u.cluster cl).armed.getLsbD i = false ∧ (u.core n).ni = (s.core n).ni ++ [y] ∧
       y.cargo = .message a ∧ hdrType a.msg.hdr = 0x0C ∧ hdrPrio a.msg.hdr = 7 ∧
       a.msg.payload = [temp.setWidth 64, BitVec.ofNat 64 i]) ∧
     (¬ tells → exec (.thermalNotify n temp) s = .next (s.updCluster cl fun c => { c with temp := read })) ∧
     (∃ u, exec (.armedFlagRearm n temp) s = .next u ∧ SameMemory s u ∧ u.cores = s.cores ∧ (u.cluster cl).temp = read ∧
       (u.cluster cl).armed.getLsbD i =
         (k.armed.getLsbD i || decide (temp.toNat + k.hyst.toNat ≤ k.tlim.toNat)))) ∧
  (∀ (s : State) (n : CoreId) (cl : BitVec 14) (data : Word) (i : Nat),
     let m := s.serviceCore (sectorOf n)
     let d := coreOf cl i
     let b := (s.core d).fresh
     (m ≠ n → (s.core m).level.toNat < 7 → (s.core m).stopped = false →
       ∃ u, exec (.coreCheck n) s = .next u ∧ SameMemory s u ∧ (u.core n).stopped = true ∧ (u.core n).pc = (s.core n).pc ∧
         u.ctrlLog = s.ctrlLog ++ [(0x01, n.setWidth 64)] ∧
         EntersSupervisor (s.core m) (u.core m) 0 (n.setWidth 64) (s.core m).pc true) ∧
     (i < 16 → data.getLsbD i = true → ∃ u, exec (.coreReset cl data) s = .next u ∧
       (u.core d).level = 0xF ∧ (u.core d).thresh = 0xF ∧ (u.core d).stopped = false ∧ (u.core d).binding = none ∧
       (u.core d).copyQ = [] ∧ (u.core d).matQ = [] ∧ (u.core d).closing = [] ∧ (u.core d).sbuf = [] ∧
       (u.core d).remQ = ((s.core d).remQ.filter fun q => q.passed) ∧ (u.core d).wasReset = true ∧
       (u.core d).vbase = b.vbase ∧ (u.core d).sp = b.vbase ∧ (u.core d).slim = b.slim ∧ (u.core d).ceil = b.ceil ∧
       (u.core d).dom = b.dom ∧ (u.core d).wdog = b.wdog ∧ (u.core d).seed = b.seed ∧ (u.core d).sctr = b.sctr ∧
       (u.core d).d = b.d ∧ (u.core d).q = b.q ∧ (u.core d).tcm = b.tcm ∧
       (u.core d).banks = .replicate 8 Bank.reset ∧ (u.core d).cause = 0xF00 ∧ (u.core d).member = none ∧
       (u.core d).inbox = (s.core d).inbox ∧ (u.core d).ni = (s.core d).ni ∧ (u.core d).lid = (s.core d).lid ∧
       u.net = s.net)) ∧
  (∀ (s : State) (die : BitVec 4) (data : Word) (va : BitVec 56),
     let p := (s.die die).pacer
     let set : Bool → BitVec 32 → BitVec 32 → Pacer := fun en q now =>
       { p with en := en, cidx := bits data 1 3, lid := bits data 4 18, seq := q, now := now }
     (data.getLsbD 0 = false → exec (.pacerEnable die data) s = .next (s.updDie die fun d => { d with pacer := set false p.seq p.now })) ∧
     (data.getLsbD 0 = true → p.period ≠ 0 →
       ∃ (u : State) (y : Transit) (a : Arr), exec (.pacerEnable die data) s = .next u ∧ SameMemory s u ∧
         u.net = s.net ++ [y] ∧ y.dst = bits data 4 18 ∧ y.cargo = .message a ∧ hdrType a.msg.hdr = 0x05 ∧
         a.msg.payload = [p.rcb.setWidth 64, (bits data 1 3 : BitVec 3).setWidth 64] ∧ (u.die die).pacer = set true 1 p.period) ∧
     (data.getLsbD 0 = true → p.period = 0 → exec (.pacerEnable die data) s = .next (s.updDie die fun d => { d with pacer := set true 0 0 })) ∧
     (va.toNat / 2 ^ 48 ≠ 0xFF ∨ va.toNat % 8 ≠ 0 ∨ va.toNat / 2 ^ 26 % 2 ^ 14 ≠ 0 →
       exec (.mgmtRegisterWrite va data) s = .next s)) ∧
  (∀ (s : State) (die : BitVec 4) (unit : BitVec 10) (va : BitVec 56) (data : Word) (i : Nat),
     let cl : BitVec 14 := die ++ unit
     let k := s.cluster cl
     let p := (s.die die).pacer
     let at_ : Nat → Nat → Prop := fun cls off => va.toNat = 0xFF * 2 ^ 48 + cls * 2 ^ 44 + die.toNat * 2 ^ 40 + off
     let inCluster : Nat → Prop := fun off => at_ 0 (unit.toNat * 2 ^ 16 + off)
     let same : Instr → Prop := fun x => exec (.mgmtRegisterWrite va data) s = exec x s
     let cluster : (Cluster → Cluster) → Prop := fun f => exec (.mgmtRegisterWrite va data) s = .next (s.updCluster cl f)
     let onDie : (Die → Die) → Prop := fun f => exec (.mgmtRegisterWrite va data) s = .next (s.updDie die f)
     let kept : Prop := exec (.mgmtRegisterWrite va data) s = .next s
     let n := coreOf cl i
     let temp := k.temp[i]!.toNat
     let armed := k.armed.getLsbD i || decide (temp + (bits data 8 8).toNat ≤ (bits data 0 8).toNat)
     let tells := armed && data.getLsbD (16 + i) && decide ((bits data 0 8).toNat ≤ temp)
     (inCluster 0x000 → same (.dividerWrite cl data)) ∧ (inCluster 0x008 → same (.powerSwitchWrite cl data)) ∧
     (inCluster 0x010 → cluster fun c => ({ c with lfloor := bits data 8 8, lceil := bits data 16 8 } : Cluster).keepLogic) ∧
     (inCluster 0x018 → cluster fun c => { c with sfloor := bits data 8 8, sceil := bits data 16 8, sset := bits data 24 8 }) ∧
     (inCluster 0x030 → i < 16 → ∃ u, exec (.mgmtRegisterWrite va data) s = .next u ∧ SameMemory s u ∧
       (u.cluster cl).tlim = bits data 0 8 ∧ (u.cluster cl).hyst = bits data 8 8 ∧ (u.cluster cl).nmask = bits data 16 16 ∧
       (u.cluster cl).armed.getLsbD i = (armed && !tells) ∧ (tells = false → u.core n = s.core n) ∧
       (tells = true → ∃ (y : Transit) (a : Arr), u.core n = { s.core n with ni := (s.core n).ni ++ [y] } ∧ y.cargo = .message a ∧
         hdrType a.msg.hdr = 0x0C ∧ a.msg.payload = [k.temp[i]!.setWidth 64, BitVec.ofNat 64 i])) ∧
     (inCluster 0x038 → same (.gateWake cl data)) ∧ (inCluster 0x048 → same (.coreReset cl data)) ∧
     (inCluster 0x040 → cluster fun c => { c with cerr := c.cerr &&& ~~~(bits data 0 32), uerr := c.uerr &&& ~~~(bits data 32 32) }) ∧
     (inCluster 0x020 ∨ inCluster 0x028 ∨ inCluster 0x050 → kept) ∧
     (at_ 2 0x000 → onDie fun d => { d with mcbase := bits data 0 56 }) ∧
     (at_ 2 0x008 → onDie fun d => { d with mcsize := bits data 0 16 }) ∧ (at_ 2 0x010 → kept) ∧
     (at_ 2 0x018 → onDie fun d => { d with mchead := bits data 0 16 }) ∧
     (at_ 2 0x020 → onDie fun d => { d with mclost := d.mclost &&& ~~~(bits data 0 32) }) ∧
     (at_ 3 0x000 → same (.keySlotCommit die (bits data 0 8))) ∧
     (i < 8 → at_ 3 (0x040 + 8 * i) → exec (.mgmtRegisterWrite va data) s =
       .next (s.updQuay die fun q => { q with material := q.material.setIfInBounds i data })) ∧
     (at_ 4 0x000 → same (.pacerEnable die data)) ∧
     (at_ 4 0x008 → onDie fun d => { d with pacer := { p with
       period := bits data 0 32, now := if p.en ∧ p.now ≠ 0 then p.now else bits data 0 32 } }) ∧
     (at_ 4 0x010 → onDie fun d => { d with pacer := { p with rcb := bits data 0 56 } }) ∧ (at_ 4 0x018 → kept))

/-! ## Events of the encoders -/

/-- R421 to R430: an `enc` enters the queue of its die's encoder; an encoder with no job takes the next one, reads
its records and starts it, or hands it back when they fail the checks, with address word 0 (log entry 9); a row that is ready is taken in,
one with another sequence number ends the job with status 4, and one that waits too long, in its list or outside, with status 3; a complete
frame that does not fit in the ring is dropped with status 2, and one that fits is written and its length and place returned: a temporal
delimiter, a sequence header on a key frame, one frame OBU, whose coded contents are the encoder's own choice (log entries 3 and 27), at
constant quality with the qindex that the stream names, and with status 1 and qindex 255 where it is over its budget. -/
def Obligations.EncoderEvents : Prop :=
  (∀ (s : State) (n : CoreId) (q : RemCmd) (l : List RemCmd) (off : Nat),
     (s.core n).remQ = q :: l → q.phase = .issued → q.op = .enc off → (∀ x ∈ l, x.id ≠ q.id) → HoldsLid s n q.by_.lid →
     ((s.die (dieOf n)).encQ.length < 32 →
       ∃ u, exec (.encQueueAccept n) s = .next u ∧ SameMemory s u ∧ (u.core n).remQ = l ∧ u.net = s.net ∧
         EndsWith (s.core n).estRem (u.core n).estRem false ((u.core n).heldCmds 2) ∧
         (u.die (dieOf n)).encQ = (s.die (dieOf n)).encQ ++ [{ by_ := q.by_, succ := q.succ, off := off, words := [] }]) ∧
     (32 ≤ (s.die (dieOf n)).encQ.length → exec (.encQueueAccept n) s = .next s)) ∧
  (∀ (s t : State) (die : BitVec 4) (j k : EncJob) (rest : List EncJob) (st : List Word) (f : EngFault),
     let field : Nat → Word := fun i => (st[i]?).getD 0
     (s.die die).encRun = none → (s.die die).encQ = j :: rest →
     (s.readJob j = .ok (t, k, st) → encOk k field = true →
       ∃ (u : State) (r : EncRun), exec (.encJobStart die) s = .next u ∧ u.net = t.net ∧ (u.die die).encRun = some r ∧
         (u.die die).encQ = rest ∧ r.job = k ∧ k = { j with words := k.words } ∧ r.stream = st ∧ r.row = 0 ∧ r.frame = [] ∧ r.complete = false) ∧
     (s.readJob j = .ok (t, k, st) → encOk k field = false →
       ∃ u, exec (.encJobStart die) s = .next u ∧ (u.die die).encRun = none ∧ (u.die die).encQ = rest ∧ HandsBack t u j.by_ 5 0x01 0 0) ∧
     (s.readJob j = .error (t, f) → f.wait = true → exec (.encJobStart die) s = .next t) ∧
     (s.readJob j = .error (t, f) → f.wait = false →
       ∃ u, exec (.encJobStart die) s = .next u ∧ (u.die die).encRun = none ∧ (u.die die).encQ = rest ∧ HandsBack t u j.by_ 5 f.cause f.addr 0)) ∧
  (∀ (s t v : State) (die : BitVec 4) (r : EncRun) (w : Word) (rt : BitVec 32) (ls cs : List Word),
     let j := r.job
     let limit := bits (j.word 6) 32 32
     let waits := r.moored = true ∨ r.asked = true
     let late := s.updRun die fun x => { x with waited := BitVec.ofNat 32 (min (r.waited.toNat + rt.toNat) (2 ^ 32 - 1)) }
     let initOk : State → Prop := fun x => ∃ y, x.markInit r = .ok y
     let ended : Instr → Nat → Nat → Prop := fun i status wptr => ∃ u, exec i s = .next u ∧ (u.die die).encRun = none ∧
       Releases s u j.by_ j.succ [BitVec.ofNat 64 (status * 2 ^ 32), (bits (j.word 6) 0 32 : BitVec 32).setWidth 64,
         BitVec.ofNat 64 wptr]
     (s.die die).encRun = some r → r.complete = false →
     (r.ready = some w → r.poisoned = false → bits w 0 32 ≠ (bits (j.word 6) 0 32 : BitVec 32) →
       initOk (s.acquireDie die) → ended (.encRowReady die) 4 r.wptr) ∧
     (r.ready = some w → r.poisoned = true → ∃ u, exec (.encRowReady die) s = .next u ∧ (u.die die).encRun = none ∧
       HandsBack s u j.by_ 5 0x0D (BitVec.ofNat 64 ((bits (j.word 4) 0 56).toNat + 8 * r.row)) (BitVec.ofNat 64 r.full)) ∧
     (r.ready = some w → r.poisoned = false → bits w 0 32 = (bits (j.word 6) 0 32 : BitVec 32) → r.row = 0 → 1 < j.rows →
       (s.acquireDie die).readLines j (bits (j.word 0) 0 56).toNat 0 (j.lines 0 - 1) = .ok (t, ls) →
       t.readLines j (bits (j.word 1) 0 56).toNat 0 (j.lines 0 / 2 - 1) = .ok (v, cs) →
       ∃ (u : State) (x : EncRun), exec (.encRowReady die) s = .next u ∧ (u.die die).encRun = some x ∧ x.job = j ∧ x.row = 1 ∧
         x.frame = r.frame ++ (ls ++ cs) ∧ x.ready = none ∧ x.complete = false ∧ u.net = v.net) ∧
     (waits → limit ≠ 0 → limit.toNat < r.waited.toNat + rt.toNat →
       (initOk (late.cancelEnc die) → ended (.encRowTimeout die rt) 3 r.wptr) ∧
       ∀ u, exec (.encRowTimeout die rt) s = .next u → ∀ m ∈ u.moorings, m.route ≠ .enc die) ∧
     (¬ waits → exec (.encRowTimeout die rt) s = .next s) ∧
     (waits → (limit = 0 ∨ r.waited.toNat + rt.toNat ≤ limit.toNat) → r.waited.toNat + rt.toNat < 2 ^ 32 →
       exec (.encRowTimeout die rt) s = .next (s.updDie die fun d => { d with encRun := some { r with waited := r.waited + rt } }))) ∧
  (∀ (s t v o y : State) (die : BitVec 4) (r : EncRun) (p refs : List Word),
     let j := r.job
     let key := (j.word 2).getLsbD 33 || !(r.word 6).getLsbD 32 || s.encKey.contains j.streamAt
     let inputs := j.words ++ r.stream ++ BitVec.ofNat 64 (if key then 1 else 0) :: r.frame ++ refs
     let x := r.unit inputs key
     let obus := x.obus
     let owes : State := { v with encKey := oweKey v.encKey j.streamAt true }
     let size := (bits (r.word 1) 0 32).toNat
     let space := size - (((r.wptr : Int) - (bits (p.headD 0) 0 32).toNat) % size).toNat - 64
     let next := (r.wptr + x.size) % size
     let pts : Word := (bits (j.word 6) 0 32 : BitVec 32).setWidth 64
     (s.die die).encRun = some r → r.complete = true →
     (s.acquireDie die).encWords j.user (j.streamAt.toNat + 24) 1 = .ok (t, p) → t.readRefs r key = .ok (v, refs) →
     (obus.take 2 = [0x12, 0x00] ∧ obus[2]? = some (if key then 0x0A else 0x32)) ∧
     (x.status = if j.fbudget ≠ 0 ∧ j.fbudget < x.len then 1 else 0) ∧ (x.status = 1 → x.qidx = 255) ∧
     (bits (r.word 4) 0 2 = (2 : BitVec 2) → j.fbudget = 0 → x.qidx = bits (r.word 4) 2 8) ∧
     (space < x.size → owes.markInit r = .ok y → ∃ u, exec (.encUnitWrite die) s = .next u ∧ (u.die die).encRun = none ∧
       u.encKey.contains j.streamAt = true ∧
       Releases y u j.by_ j.succ [BitVec.ofNat 64 (2 * 2 ^ 32), pts, BitVec.ofNat 64 r.wptr]) ∧
     (x.size ≤ space →
       v.ringWrite j.user (bits (r.word 0) 0 56).toNat size r.wptr
         (x.header (bits (j.word 6) 0 32) ++ obuWords obus ((x.size - 16) / 8)) = .ok o →
       ∀ z, o.storeStream die r inputs next = .ok z →
       ∃ u, exec (.encUnitWrite die) s = .next u ∧ (u.die die).encRun = none ∧
         u.encKey.contains j.streamAt = false ∧
         Releases z u j.by_ j.succ [BitVec.ofNat 64 (x.len % 2 ^ 32 + x.status * 2 ^ 32), pts, BitVec.ofNat 64 next]))
end

