-- ==== Sys2Proof/Laws/Cells.lean ====
section
/-! SUPPORT. The laws of sparse maps: reading after writing, and that every operation keeps the canonical form. -/

namespace Sys2Proof.Machine

variable {α : Type}

@[simp] theorem Cells.find_nil (k : Nat) : Cells.find ([] : Cells α) k = none := rfl

theorem Cells.find_erase_same (m : Cells α) (k : Nat) : Cells.find (Cells.erase m k) k = none := by
  induction m with
  | nil => rfl
  | cons p r ih =>
    obtain ⟨j, v⟩ := p
    by_cases h : j = k
    · simp [Cells.erase, h, ih]
    · simp [Cells.erase, Cells.find, h, ih]

theorem Cells.find_erase_other (m : Cells α) {k j : Nat} (h : j ≠ k) :
    Cells.find (Cells.erase m k) j = Cells.find m j := by
  induction m with
  | nil => rfl
  | cons p r ih =>
    obtain ⟨i, v⟩ := p
    by_cases hi : i = k
    · have hk : ¬ k = j := fun e => h e.symm
      simp [Cells.erase, Cells.find, hi, ih, hk]
    · by_cases hj : i = j
      · simp [Cells.erase, Cells.find, hj, h]
      · simp [Cells.erase, Cells.find, hi, hj, ih]

theorem Cells.find_place_same (m : Cells α) (k : Nat) (v : α) (h : Cells.find m k = none) :
    Cells.find (Cells.place m k v) k = some v := by
  induction m with
  | nil => simp [Cells.place, Cells.find]
  | cons p r ih =>
    obtain ⟨j, w⟩ := p
    by_cases hj : j = k
    · simp [Cells.find, hj] at h
    · have hr : Cells.find r k = none := by simpa [Cells.find, hj] using h
      by_cases hl : k < j
      · simp [Cells.place, Cells.find, hl]
      · simp [Cells.place, Cells.find, hl, hj, ih hr]

theorem Cells.find_place_other (m : Cells α) {k j : Nat} (v : α) (h : j ≠ k) :
    Cells.find (Cells.place m k v) j = Cells.find m j := by
  have hk : ¬ k = j := fun e => h e.symm
  induction m with
  | nil => simp [Cells.place, Cells.find, hk]
  | cons p r ih =>
    obtain ⟨i, w⟩ := p
    by_cases hl : k < i
    · simp [Cells.place, Cells.find, hl, hk]
    · by_cases hi : i = j
      · subst hi; simp [Cells.place, Cells.find, hl]
      · simp [Cells.place, Cells.find, hl, hi, ih]

/-- Reading what was put. -/
@[simp] theorem Cells.find_put_same (m : Cells α) (k : Nat) (v : α) : Cells.find (Cells.put m k v) k = some v :=
  Cells.find_place_same _ _ _ (Cells.find_erase_same m k)

/-- A put leaves every other key alone. -/
theorem Cells.find_put_other (m : Cells α) {k j : Nat} (v : α) (h : j ≠ k) :
    Cells.find (Cells.put m k v) j = Cells.find m j := by
  rw [Cells.put, Cells.find_place_other _ _ h, Cells.find_erase_other _ h]

theorem Cells.getD_put_same (m : Cells α) (k : Nat) (v d : α) : Cells.getD (Cells.put m k v) k d = v := by
  simp [Cells.getD]

theorem Cells.getD_put_other (m : Cells α) {k j : Nat} (v d : α) (h : j ≠ k) :
    Cells.getD (Cells.put m k v) j d = Cells.getD m j d := by
  simp [Cells.getD, Cells.find_put_other m v h]

/-- Reading what was written, the absent value included. -/
theorem Cells.getD_putD_same [DecidableEq α] (d : α) (m : Cells α) (k : Nat) (v : α) :
    Cells.getD (Cells.putD d m k v) k d = v := by
  by_cases h : v = d
  · simp [Cells.putD, Cells.getD, h, Cells.find_erase_same]
  · simp [Cells.putD, Cells.getD, h, Cells.find_place_same _ _ _ (Cells.find_erase_same m k)]

/-- A write leaves every other key alone. -/
theorem Cells.getD_putD_other [DecidableEq α] (d : α) (m : Cells α) {k j : Nat} (v : α) (h : j ≠ k) :
    Cells.getD (Cells.putD d m k v) j d = Cells.getD m j d := by
  by_cases hv : v = d
  · simp [Cells.putD, Cells.getD, hv, Cells.find_erase_other _ h]
  · simp [Cells.putD, Cells.getD, hv, Cells.find_place_other _ _ h, Cells.find_erase_other _ h]

/-! ## The canonical form -/

section
variable [DecidableEq α]

theorem Cells.wfFrom_mono (d : α) {lo lo' : Nat} (m : Cells α) (h : lo' ≤ lo) (w : Cells.wfFrom d lo m = true) :
    Cells.wfFrom d lo' m = true := by
  cases m with
  | nil => rfl
  | cons p r =>
    obtain ⟨j, v⟩ := p
    simp only [Cells.wfFrom, Bool.and_eq_true, decide_eq_true_eq] at w ⊢
    exact ⟨⟨Nat.le_trans h w.1.1, w.1.2⟩, w.2⟩

theorem Cells.wfFrom_erase (d : α) (m : Cells α) (k : Nat) :
    ∀ {lo : Nat}, Cells.wfFrom d lo m = true → Cells.wfFrom d lo (Cells.erase m k) = true := by
  induction m with
  | nil => intro lo h; exact h
  | cons p r ih =>
    obtain ⟨j, v⟩ := p
    intro lo w
    simp only [Cells.wfFrom, Bool.and_eq_true, decide_eq_true_eq] at w
    by_cases h : j = k
    · simp only [Cells.erase, h, if_true]
      exact ih (Cells.wfFrom_mono d r (by omega) w.2)
    · simp only [Cells.erase, h, if_false, Cells.wfFrom, Bool.and_eq_true, decide_eq_true_eq]
      exact ⟨w.1, ih w.2⟩

theorem Cells.wfFrom_place (d : α) (m : Cells α) (k : Nat) (v : α) (hv : v ≠ d) :
    ∀ {lo : Nat}, lo ≤ k → Cells.find m k = none → Cells.wfFrom d lo m = true →
      Cells.wfFrom d lo (Cells.place m k v) = true := by
  induction m with
  | nil => intro lo h _ _; simp [Cells.place, Cells.wfFrom, h, hv]
  | cons p r ih =>
    obtain ⟨j, x⟩ := p
    intro lo hlo hf w
    simp only [Cells.wfFrom, Bool.and_eq_true, decide_eq_true_eq] at w
    have hj : j ≠ k := fun e => by simp [Cells.find, e] at hf
    have hr : Cells.find r k = none := by simpa [Cells.find, hj] using hf
    by_cases hl : k < j
    · simp only [Cells.place, hl, if_true, Cells.wfFrom, Bool.and_eq_true, decide_eq_true_eq]
      exact ⟨⟨hlo, hv⟩, ⟨by omega, w.1.2⟩, w.2⟩
    · simp only [Cells.place, hl, if_false, Cells.wfFrom, Bool.and_eq_true, decide_eq_true_eq]
      exact ⟨w.1, ih (by omega) hr w.2⟩

/-- A write keeps the canonical form. -/
theorem Cells.wf_putD (d : α) (m : Cells α) (k : Nat) (v : α) (w : Cells.wf d m = true) :
    Cells.wf d (Cells.putD d m k v) = true := by
  have he := Cells.wfFrom_erase d m k w
  by_cases h : v = d
  · simpa [Cells.putD, Cells.wf, h] using he
  · simpa [Cells.putD, Cells.wf, h] using
      Cells.wfFrom_place d _ k v h (Nat.zero_le k) (Cells.find_erase_same m k) he

/-- Removing entries keeps the canonical form. -/
theorem Cells.wfFrom_drop (d : α) (p : Nat → Bool) (m : Cells α) :
    ∀ {lo : Nat}, Cells.wfFrom d lo m = true → Cells.wfFrom d lo (Cells.drop m p) = true := by
  induction m with
  | nil => intro lo h; exact h
  | cons q r ih =>
    obtain ⟨j, v⟩ := q
    intro lo w
    simp only [Cells.wfFrom, Bool.and_eq_true, decide_eq_true_eq] at w
    cases hp : p j with
    | true => simp only [Cells.drop, hp, if_true]; exact ih (Cells.wfFrom_mono d r (by omega) w.2)
    | false =>
      simp only [Cells.drop, hp, Bool.false_eq_true, if_false, Cells.wfFrom, Bool.and_eq_true, decide_eq_true_eq]
      exact ⟨w.1, ih w.2⟩

end

end Sys2Proof.Machine
end

