-- ==== Sys2Proof/Laws/State.lean ====
section
/-! SUPPORT. Reading a part of the state after replacing another: one law per field and replacement, and the laws of
cores, banks and registers. -/

namespace Sys2Proof.Machine

/-! ## Parts of the module -/

theorem Cells.erase_of_find_none {α : Type} (m : Cells α) (k : Nat) (h : Cells.find m k = none) : Cells.erase m k = m := by
  induction m with
  | nil => rfl
  | cons p r ih =>
    obtain ⟨j, v⟩ := p
    by_cases hj : j = k
    · simp [Cells.find, hj] at h
    · simp [Cells.erase, hj, ih (by simpa [Cells.find, hj] using h)]

theorem Cells.erase_place {α : Type} (m : Cells α) (k : Nat) (v : α) (h : Cells.find m k = none) :
    Cells.erase (Cells.place m k v) k = m := by
  induction m with
  | nil => simp [Cells.place, Cells.erase]
  | cons p r ih =>
    obtain ⟨j, w⟩ := p
    by_cases hj : j = k
    · simp [Cells.find, hj] at h
    · have hr : Cells.find r k = none := by simpa [Cells.find, hj] using h
      by_cases hl : k < j
      · simp [Cells.place, Cells.erase, hl, hj, Cells.erase_of_find_none r k hr]
      · simp [Cells.place, Cells.erase, hl, hj, ih hr]

/-- The later of two puts at one key stands. -/
@[simp] theorem Cells.put_put {α : Type} (m : Cells α) (k : Nat) (v w : α) :
    Cells.put (Cells.put m k v) k w = Cells.put m k w := by
  rw [Cells.put, Cells.put, Cells.erase_place _ _ _ (Cells.find_erase_same m k), Cells.put]

@[simp] theorem State.core_setCore_same (s : State) (n : CoreId) (c : Core) : (s.setCore n c).core n = c := by
  simp [State.core, State.setCore]

theorem State.core_setCore_other (s : State) {n m : CoreId} (c : Core) (h : m ≠ n) :
    (s.setCore n c).core m = s.core m := by
  have : m.toNat ≠ n.toNat := fun e => h (BitVec.eq_of_toNat_eq e)
  simp [State.core, State.setCore, Cells.find_put_other _ _ this]

@[simp] theorem State.core_updCore_same (s : State) (n : CoreId) (f : Core → Core) :
    (s.updCore n f).core n = f (s.core n) := State.core_setCore_same s n _

theorem State.core_updCore_other (s : State) {n m : CoreId} (f : Core → Core) (h : m ≠ n) :
    (s.updCore n f).core m = s.core m := State.core_setCore_other s _ h

@[simp] theorem State.me_setMe (s : State) (c : Core) : (s.setMe c).me = c := State.core_setCore_same s s.cur c

@[simp] theorem State.me_updMe (s : State) (f : Core → Core) : (s.updMe f).me = f s.me := State.me_setMe s _

theorem State.core_updMe_other (s : State) {m : CoreId} (f : Core → Core) (h : m ≠ s.cur) :
    (s.updMe f).core m = s.core m := State.core_setCore_other s _ h

@[simp] theorem State.setCore_setCore (s : State) (n : CoreId) (c d : Core) :
    (s.setCore n c).setCore n d = s.setCore n d := by simp [State.setCore]

@[simp] theorem State.updCore_updCore (s : State) (n : CoreId) (f g : Core → Core) :
    (s.updCore n f).updCore n g = s.updCore n fun c => g (f c) := by simp [State.updCore]

@[simp] theorem State.setMe_setMe (s : State) (c d : Core) : (s.setMe c).setMe d = s.setMe d :=
  State.setCore_setCore s s.cur c d

@[simp] theorem State.updMe_updMe (s : State) (f g : Core → Core) :
    (s.updMe f).updMe g = s.updMe fun c => g (f c) := by simp [State.updMe]

@[simp] theorem State.cluster_updCluster_same (s : State) (x : BitVec 14) (f : Cluster → Cluster) :
    (s.updCluster x f).cluster x = f (s.cluster x) := by simp [State.cluster, State.updCluster]

theorem State.cluster_updCluster_other (s : State) {x y : BitVec 14} (f : Cluster → Cluster) (h : y ≠ x) :
    (s.updCluster x f).cluster y = s.cluster y := by
  have : y.toNat ≠ x.toNat := fun e => h (BitVec.eq_of_toNat_eq e)
  simp [State.cluster, State.updCluster, Cells.find_put_other _ _ this]

@[simp] theorem State.block_updBlock_same (s : State) (x : BitVec 10) (f : Block → Block) :
    (s.updBlock x f).block x = f (s.block x) := by simp [State.block, State.updBlock]

theorem State.block_updBlock_other (s : State) {x y : BitVec 10} (f : Block → Block) (h : y ≠ x) :
    (s.updBlock x f).block y = s.block y := by
  have : y.toNat ≠ x.toNat := fun e => h (BitVec.eq_of_toNat_eq e)
  simp [State.block, State.updBlock, Cells.find_put_other _ _ this]

@[simp] theorem State.sector_updSector_same (s : State) (x : BitVec 6) (f : Sector → Sector) :
    (s.updSector x f).sector x = f (s.sector x) := by simp [State.sector, State.updSector]

theorem State.sector_updSector_other (s : State) {x y : BitVec 6} (f : Sector → Sector) (h : y ≠ x) :
    (s.updSector x f).sector y = s.sector y := by
  have : y.toNat ≠ x.toNat := fun e => h (BitVec.eq_of_toNat_eq e)
  simp [State.sector, State.updSector, Cells.find_put_other _ _ this]

@[simp] theorem State.die_updDie_same (s : State) (x : BitVec 4) (f : Die → Die) :
    (s.updDie x f).die x = f (s.die x) := by simp [State.die, State.updDie]

theorem State.die_updDie_other (s : State) {x y : BitVec 4} (f : Die → Die) (h : y ≠ x) :
    (s.updDie x f).die y = s.die y := by
  have : y.toNat ≠ x.toNat := fun e => h (BitVec.eq_of_toNat_eq e)
  simp [State.die, State.updDie, Cells.find_put_other _ _ this]

@[simp] theorem State.port_updPort_same (s : State) (x : BitVec 5) (f : Port → Port) :
    (s.updPort x f).port x = f (s.port x) := by simp [State.port, State.updPort]

theorem State.port_updPort_other (s : State) {x y : BitVec 5} (f : Port → Port) (h : y ≠ x) :
    (s.updPort x f).port y = s.port y := by
  have : y.toNat ≠ x.toNat := fun e => h (BitVec.eq_of_toNat_eq e)
  simp [State.port, State.updPort, Cells.find_put_other _ _ this]

@[simp] theorem State.quay_updQuay_same (s : State) (x : BitVec 4) (f : Quay → Quay) :
    (s.updQuay x f).quay x = f (s.quay x) := by simp [State.quay, State.updQuay]

theorem State.quay_updQuay_other (s : State) {x y : BitVec 4} (f : Quay → Quay) (h : y ≠ x) :
    (s.updQuay x f).quay y = s.quay y := by
  have : y.toNat ≠ x.toNat := fun e => h (BitVec.eq_of_toNat_eq e)
  simp [State.quay, State.updQuay, Cells.find_put_other _ _ this]

/-! ## Fields of the module -/

@[simp] theorem State.setCore_cur (s : State) (n : CoreId) (c : Core) : (s.setCore n c).cur = s.cur := rfl
@[simp] theorem State.setCore_turns (s : State) (n : CoreId) (c : Core) : (s.setCore n c).turns = s.turns := rfl
@[simp] theorem State.setCore_slow (s : State) (n : CoreId) (c : Core) : (s.setCore n c).slow = s.slow := rfl
@[simp] theorem State.setCore_breakAt (s : State) (n : CoreId) (c : Core) : (s.setCore n c).breakAt = s.breakAt := rfl
@[simp] theorem State.setCore_free (s : State) (n : CoreId) (c : Core) : (s.setCore n c).free = s.free := rfl
@[simp] theorem State.setCore_nextId (s : State) (n : CoreId) (c : Core) : (s.setCore n c).nextId = s.nextId := rfl
@[simp] theorem State.setCore_modu (s : State) (n : CoreId) (c : Core) : (s.setCore n c).modu = s.modu := rfl
@[simp] theorem State.setCore_clusters (s : State) (n : CoreId) (c : Core) : (s.setCore n c).clusters = s.clusters := rfl
@[simp] theorem State.setCore_blocks (s : State) (n : CoreId) (c : Core) : (s.setCore n c).blocks = s.blocks := rfl
@[simp] theorem State.setCore_sectors (s : State) (n : CoreId) (c : Core) : (s.setCore n c).sectors = s.sectors := rfl
@[simp] theorem State.setCore_dies (s : State) (n : CoreId) (c : Core) : (s.setCore n c).dies = s.dies := rfl
@[simp] theorem State.setCore_quays (s : State) (n : CoreId) (c : Core) : (s.setCore n c).quays = s.quays := rfl
@[simp] theorem State.setCore_ports (s : State) (n : CoreId) (c : Core) : (s.setCore n c).ports = s.ports := rfl
@[simp] theorem State.setCore_mem (s : State) (n : CoreId) (c : Core) : (s.setCore n c).mem = s.mem := rfl
@[simp] theorem State.setCore_fe (s : State) (n : CoreId) (c : Core) : (s.setCore n c).fe = s.fe := rfl
@[simp] theorem State.setCore_poison (s : State) (n : CoreId) (c : Core) : (s.setCore n c).poison = s.poison := rfl
@[simp] theorem State.setCore_bkey (s : State) (n : CoreId) (c : Core) : (s.setCore n c).bkey = s.bkey := rfl
@[simp] theorem State.setCore_lines (s : State) (n : CoreId) (c : Core) : (s.setCore n c).lines = s.lines := rfl
@[simp] theorem State.setCore_exclusive (s : State) (n : CoreId) (c : Core) : (s.setCore n c).exclusive = s.exclusive := rfl
@[simp] theorem State.setCore_disabled (s : State) (n : CoreId) (c : Core) : (s.setCore n c).disabled = s.disabled := rfl
@[simp] theorem State.setCore_services (s : State) (n : CoreId) (c : Core) : (s.setCore n c).services = s.services := rfl
@[simp] theorem State.setCore_net (s : State) (n : CoreId) (c : Core) : (s.setCore n c).net = s.net := rfl
@[simp] theorem State.setCore_wire (s : State) (n : CoreId) (c : Core) : (s.setCore n c).wire = s.wire := rfl
@[simp] theorem State.setCore_seen (s : State) (n : CoreId) (c : Core) : (s.setCore n c).seen = s.seen := rfl
@[simp] theorem State.setCore_guests (s : State) (n : CoreId) (c : Core) : (s.setCore n c).guests = s.guests := rfl
@[simp] theorem State.setCore_weir (s : State) (n : CoreId) (c : Core) : (s.setCore n c).weir = s.weir := rfl
@[simp] theorem State.setCore_regions (s : State) (n : CoreId) (c : Core) : (s.setCore n c).regions = s.regions := rfl
@[simp] theorem State.setCore_weirOver (s : State) (n : CoreId) (c : Core) : (s.setCore n c).weirOver = s.weirOver := rfl
@[simp] theorem State.setCore_moorings (s : State) (n : CoreId) (c : Core) : (s.setCore n c).moorings = s.moorings := rfl
@[simp] theorem State.setCore_noCredit (s : State) (n : CoreId) (c : Core) : (s.setCore n c).noCredit = s.noCredit := rfl
@[simp] theorem State.setCore_launches (s : State) (n : CoreId) (c : Core) : (s.setCore n c).launches = s.launches := rfl
@[simp] theorem State.setCore_walks (s : State) (n : CoreId) (c : Core) : (s.setCore n c).walks = s.walks := rfl
@[simp] theorem State.setCore_prov (s : State) (n : CoreId) (c : Core) : (s.setCore n c).prov = s.prov := rfl
@[simp] theorem State.setCore_allocs (s : State) (n : CoreId) (c : Core) : (s.setCore n c).allocs = s.allocs := rfl
@[simp] theorem State.setCore_records (s : State) (n : CoreId) (c : Core) : (s.setCore n c).records = s.records := rfl
@[simp] theorem State.setCore_barriers (s : State) (n : CoreId) (c : Core) : (s.setCore n c).barriers = s.barriers := rfl
@[simp] theorem State.setCore_pginvs (s : State) (n : CoreId) (c : Core) : (s.setCore n c).pginvs = s.pginvs := rfl
@[simp] theorem State.setCore_migrations (s : State) (n : CoreId) (c : Core) : (s.setCore n c).migrations = s.migrations := rfl
@[simp] theorem State.setCore_allowOwed (s : State) (n : CoreId) (c : Core) : (s.setCore n c).allowOwed = s.allowOwed := rfl
@[simp] theorem State.setCore_owed (s : State) (n : CoreId) (c : Core) : (s.setCore n c).owed = s.owed := rfl
@[simp] theorem State.setCore_amends (s : State) (n : CoreId) (c : Core) : (s.setCore n c).amends = s.amends := rfl
@[simp] theorem State.setCore_saved (s : State) (n : CoreId) (c : Core) : (s.setCore n c).saved = s.saved := rfl
@[simp] theorem State.setCore_encKey (s : State) (n : CoreId) (c : Core) : (s.setCore n c).encKey = s.encKey := rfl
@[simp] theorem State.setCore_gangBars (s : State) (n : CoreId) (c : Core) : (s.setCore n c).gangBars = s.gangBars := rfl
@[simp] theorem State.setCore_gangHeld (s : State) (n : CoreId) (c : Core) : (s.setCore n c).gangHeld = s.gangHeld := rfl
@[simp] theorem State.setCore_windows (s : State) (n : CoreId) (c : Core) : (s.setCore n c).windows = s.windows := rfl
@[simp] theorem State.setCore_msix (s : State) (n : CoreId) (c : Core) : (s.setCore n c).msix = s.msix := rfl
@[simp] theorem State.setCore_rcbWindow (s : State) (n : CoreId) (c : Core) : (s.setCore n c).rcbWindow = s.rcbWindow := rfl
@[simp] theorem State.setCore_partitions (s : State) (n : CoreId) (c : Core) : (s.setCore n c).partitions = s.partitions := rfl
@[simp] theorem State.setCore_hostData (s : State) (n : CoreId) (c : Core) : (s.setCore n c).hostData = s.hostData := rfl
@[simp] theorem State.setCore_hostPoison (s : State) (n : CoreId) (c : Core) : (s.setCore n c).hostPoison = s.hostPoison := rfl
@[simp] theorem State.setCore_ctrlLog (s : State) (n : CoreId) (c : Core) : (s.setCore n c).ctrlLog = s.ctrlLog := rfl
@[simp] theorem State.setCore_boot (s : State) (n : CoreId) (c : Core) : (s.setCore n c).boot = s.boot := rfl
@[simp] theorem State.setCore_bring (s : State) (n : CoreId) (c : Core) : (s.setCore n c).bring = s.bring := rfl

@[simp] theorem State.updCore_cur (s : State) (n : CoreId) (f : Core → Core) : (s.updCore n f).cur = s.cur := rfl
@[simp] theorem State.updCore_turns (s : State) (n : CoreId) (f : Core → Core) : (s.updCore n f).turns = s.turns := rfl
@[simp] theorem State.updCore_slow (s : State) (n : CoreId) (f : Core → Core) : (s.updCore n f).slow = s.slow := rfl
@[simp] theorem State.updCore_breakAt (s : State) (n : CoreId) (f : Core → Core) : (s.updCore n f).breakAt = s.breakAt := rfl
@[simp] theorem State.updCore_free (s : State) (n : CoreId) (f : Core → Core) : (s.updCore n f).free = s.free := rfl
@[simp] theorem State.updCore_nextId (s : State) (n : CoreId) (f : Core → Core) : (s.updCore n f).nextId = s.nextId := rfl
@[simp] theorem State.updCore_modu (s : State) (n : CoreId) (f : Core → Core) : (s.updCore n f).modu = s.modu := rfl
@[simp] theorem State.updCore_clusters (s : State) (n : CoreId) (f : Core → Core) : (s.updCore n f).clusters = s.clusters := rfl
@[simp] theorem State.updCore_blocks (s : State) (n : CoreId) (f : Core → Core) : (s.updCore n f).blocks = s.blocks := rfl
@[simp] theorem State.updCore_sectors (s : State) (n : CoreId) (f : Core → Core) : (s.updCore n f).sectors = s.sectors := rfl
@[simp] theorem State.updCore_dies (s : State) (n : CoreId) (f : Core → Core) : (s.updCore n f).dies = s.dies := rfl
@[simp] theorem State.updCore_quays (s : State) (n : CoreId) (f : Core → Core) : (s.updCore n f).quays = s.quays := rfl
@[simp] theorem State.updCore_ports (s : State) (n : CoreId) (f : Core → Core) : (s.updCore n f).ports = s.ports := rfl
@[simp] theorem State.updCore_mem (s : State) (n : CoreId) (f : Core → Core) : (s.updCore n f).mem = s.mem := rfl
@[simp] theorem State.updCore_fe (s : State) (n : CoreId) (f : Core → Core) : (s.updCore n f).fe = s.fe := rfl
@[simp] theorem State.updCore_poison (s : State) (n : CoreId) (f : Core → Core) : (s.updCore n f).poison = s.poison := rfl
@[simp] theorem State.updCore_bkey (s : State) (n : CoreId) (f : Core → Core) : (s.updCore n f).bkey = s.bkey := rfl
@[simp] theorem State.updCore_lines (s : State) (n : CoreId) (f : Core → Core) : (s.updCore n f).lines = s.lines := rfl
@[simp] theorem State.updCore_exclusive (s : State) (n : CoreId) (f : Core → Core) : (s.updCore n f).exclusive = s.exclusive := rfl
@[simp] theorem State.updCore_disabled (s : State) (n : CoreId) (f : Core → Core) : (s.updCore n f).disabled = s.disabled := rfl
@[simp] theorem State.updCore_services (s : State) (n : CoreId) (f : Core → Core) : (s.updCore n f).services = s.services := rfl
@[simp] theorem State.updCore_net (s : State) (n : CoreId) (f : Core → Core) : (s.updCore n f).net = s.net := rfl
@[simp] theorem State.updCore_wire (s : State) (n : CoreId) (f : Core → Core) : (s.updCore n f).wire = s.wire := rfl
@[simp] theorem State.updCore_seen (s : State) (n : CoreId) (f : Core → Core) : (s.updCore n f).seen = s.seen := rfl
@[simp] theorem State.updCore_guests (s : State) (n : CoreId) (f : Core → Core) : (s.updCore n f).guests = s.guests := rfl
@[simp] theorem State.updCore_weir (s : State) (n : CoreId) (f : Core → Core) : (s.updCore n f).weir = s.weir := rfl
@[simp] theorem State.updCore_regions (s : State) (n : CoreId) (f : Core → Core) : (s.updCore n f).regions = s.regions := rfl
@[simp] theorem State.updCore_weirOver (s : State) (n : CoreId) (f : Core → Core) : (s.updCore n f).weirOver = s.weirOver := rfl
@[simp] theorem State.updCore_moorings (s : State) (n : CoreId) (f : Core → Core) : (s.updCore n f).moorings = s.moorings := rfl
@[simp] theorem State.updCore_noCredit (s : State) (n : CoreId) (f : Core → Core) : (s.updCore n f).noCredit = s.noCredit := rfl
@[simp] theorem State.updCore_launches (s : State) (n : CoreId) (f : Core → Core) : (s.updCore n f).launches = s.launches := rfl
@[simp] theorem State.updCore_walks (s : State) (n : CoreId) (f : Core → Core) : (s.updCore n f).walks = s.walks := rfl
@[simp] theorem State.updCore_prov (s : State) (n : CoreId) (f : Core → Core) : (s.updCore n f).prov = s.prov := rfl
@[simp] theorem State.updCore_allocs (s : State) (n : CoreId) (f : Core → Core) : (s.updCore n f).allocs = s.allocs := rfl
@[simp] theorem State.updCore_records (s : State) (n : CoreId) (f : Core → Core) : (s.updCore n f).records = s.records := rfl
@[simp] theorem State.updCore_barriers (s : State) (n : CoreId) (f : Core → Core) : (s.updCore n f).barriers = s.barriers := rfl
@[simp] theorem State.updCore_pginvs (s : State) (n : CoreId) (f : Core → Core) : (s.updCore n f).pginvs = s.pginvs := rfl
@[simp] theorem State.updCore_migrations (s : State) (n : CoreId) (f : Core → Core) : (s.updCore n f).migrations = s.migrations := rfl
@[simp] theorem State.updCore_allowOwed (s : State) (n : CoreId) (f : Core → Core) : (s.updCore n f).allowOwed = s.allowOwed := rfl
@[simp] theorem State.updCore_owed (s : State) (n : CoreId) (f : Core → Core) : (s.updCore n f).owed = s.owed := rfl
@[simp] theorem State.updCore_amends (s : State) (n : CoreId) (f : Core → Core) : (s.updCore n f).amends = s.amends := rfl
@[simp] theorem State.updCore_saved (s : State) (n : CoreId) (f : Core → Core) : (s.updCore n f).saved = s.saved := rfl
@[simp] theorem State.updCore_encKey (s : State) (n : CoreId) (f : Core → Core) : (s.updCore n f).encKey = s.encKey := rfl
@[simp] theorem State.updCore_gangBars (s : State) (n : CoreId) (f : Core → Core) : (s.updCore n f).gangBars = s.gangBars := rfl
@[simp] theorem State.updCore_gangHeld (s : State) (n : CoreId) (f : Core → Core) : (s.updCore n f).gangHeld = s.gangHeld := rfl
@[simp] theorem State.updCore_windows (s : State) (n : CoreId) (f : Core → Core) : (s.updCore n f).windows = s.windows := rfl
@[simp] theorem State.updCore_msix (s : State) (n : CoreId) (f : Core → Core) : (s.updCore n f).msix = s.msix := rfl
@[simp] theorem State.updCore_rcbWindow (s : State) (n : CoreId) (f : Core → Core) : (s.updCore n f).rcbWindow = s.rcbWindow := rfl
@[simp] theorem State.updCore_partitions (s : State) (n : CoreId) (f : Core → Core) : (s.updCore n f).partitions = s.partitions := rfl
@[simp] theorem State.updCore_hostData (s : State) (n : CoreId) (f : Core → Core) : (s.updCore n f).hostData = s.hostData := rfl
@[simp] theorem State.updCore_hostPoison (s : State) (n : CoreId) (f : Core → Core) : (s.updCore n f).hostPoison = s.hostPoison := rfl
@[simp] theorem State.updCore_ctrlLog (s : State) (n : CoreId) (f : Core → Core) : (s.updCore n f).ctrlLog = s.ctrlLog := rfl
@[simp] theorem State.updCore_boot (s : State) (n : CoreId) (f : Core → Core) : (s.updCore n f).boot = s.boot := rfl
@[simp] theorem State.updCore_bring (s : State) (n : CoreId) (f : Core → Core) : (s.updCore n f).bring = s.bring := rfl

@[simp] theorem State.setMe_cur (s : State) (c : Core) : (s.setMe c).cur = s.cur := rfl
@[simp] theorem State.setMe_turns (s : State) (c : Core) : (s.setMe c).turns = s.turns := rfl
@[simp] theorem State.setMe_slow (s : State) (c : Core) : (s.setMe c).slow = s.slow := rfl
@[simp] theorem State.setMe_breakAt (s : State) (c : Core) : (s.setMe c).breakAt = s.breakAt := rfl
@[simp] theorem State.setMe_free (s : State) (c : Core) : (s.setMe c).free = s.free := rfl
@[simp] theorem State.setMe_nextId (s : State) (c : Core) : (s.setMe c).nextId = s.nextId := rfl
@[simp] theorem State.setMe_modu (s : State) (c : Core) : (s.setMe c).modu = s.modu := rfl
@[simp] theorem State.setMe_clusters (s : State) (c : Core) : (s.setMe c).clusters = s.clusters := rfl
@[simp] theorem State.setMe_blocks (s : State) (c : Core) : (s.setMe c).blocks = s.blocks := rfl
@[simp] theorem State.setMe_sectors (s : State) (c : Core) : (s.setMe c).sectors = s.sectors := rfl
@[simp] theorem State.setMe_dies (s : State) (c : Core) : (s.setMe c).dies = s.dies := rfl
@[simp] theorem State.setMe_quays (s : State) (c : Core) : (s.setMe c).quays = s.quays := rfl
@[simp] theorem State.setMe_ports (s : State) (c : Core) : (s.setMe c).ports = s.ports := rfl
@[simp] theorem State.setMe_mem (s : State) (c : Core) : (s.setMe c).mem = s.mem := rfl
@[simp] theorem State.setMe_fe (s : State) (c : Core) : (s.setMe c).fe = s.fe := rfl
@[simp] theorem State.setMe_poison (s : State) (c : Core) : (s.setMe c).poison = s.poison := rfl
@[simp] theorem State.setMe_bkey (s : State) (c : Core) : (s.setMe c).bkey = s.bkey := rfl
@[simp] theorem State.setMe_lines (s : State) (c : Core) : (s.setMe c).lines = s.lines := rfl
@[simp] theorem State.setMe_exclusive (s : State) (c : Core) : (s.setMe c).exclusive = s.exclusive := rfl
@[simp] theorem State.setMe_disabled (s : State) (c : Core) : (s.setMe c).disabled = s.disabled := rfl
@[simp] theorem State.setMe_services (s : State) (c : Core) : (s.setMe c).services = s.services := rfl
@[simp] theorem State.setMe_net (s : State) (c : Core) : (s.setMe c).net = s.net := rfl
@[simp] theorem State.setMe_wire (s : State) (c : Core) : (s.setMe c).wire = s.wire := rfl
@[simp] theorem State.setMe_seen (s : State) (c : Core) : (s.setMe c).seen = s.seen := rfl
@[simp] theorem State.setMe_guests (s : State) (c : Core) : (s.setMe c).guests = s.guests := rfl
@[simp] theorem State.setMe_weir (s : State) (c : Core) : (s.setMe c).weir = s.weir := rfl
@[simp] theorem State.setMe_regions (s : State) (c : Core) : (s.setMe c).regions = s.regions := rfl
@[simp] theorem State.setMe_weirOver (s : State) (c : Core) : (s.setMe c).weirOver = s.weirOver := rfl
@[simp] theorem State.setMe_moorings (s : State) (c : Core) : (s.setMe c).moorings = s.moorings := rfl
@[simp] theorem State.setMe_noCredit (s : State) (c : Core) : (s.setMe c).noCredit = s.noCredit := rfl
@[simp] theorem State.setMe_launches (s : State) (c : Core) : (s.setMe c).launches = s.launches := rfl
@[simp] theorem State.setMe_walks (s : State) (c : Core) : (s.setMe c).walks = s.walks := rfl
@[simp] theorem State.setMe_prov (s : State) (c : Core) : (s.setMe c).prov = s.prov := rfl
@[simp] theorem State.setMe_allocs (s : State) (c : Core) : (s.setMe c).allocs = s.allocs := rfl
@[simp] theorem State.setMe_records (s : State) (c : Core) : (s.setMe c).records = s.records := rfl
@[simp] theorem State.setMe_barriers (s : State) (c : Core) : (s.setMe c).barriers = s.barriers := rfl
@[simp] theorem State.setMe_pginvs (s : State) (c : Core) : (s.setMe c).pginvs = s.pginvs := rfl
@[simp] theorem State.setMe_migrations (s : State) (c : Core) : (s.setMe c).migrations = s.migrations := rfl
@[simp] theorem State.setMe_allowOwed (s : State) (c : Core) : (s.setMe c).allowOwed = s.allowOwed := rfl
@[simp] theorem State.setMe_owed (s : State) (c : Core) : (s.setMe c).owed = s.owed := rfl
@[simp] theorem State.setMe_amends (s : State) (c : Core) : (s.setMe c).amends = s.amends := rfl
@[simp] theorem State.setMe_saved (s : State) (c : Core) : (s.setMe c).saved = s.saved := rfl
@[simp] theorem State.setMe_encKey (s : State) (c : Core) : (s.setMe c).encKey = s.encKey := rfl
@[simp] theorem State.setMe_gangBars (s : State) (c : Core) : (s.setMe c).gangBars = s.gangBars := rfl
@[simp] theorem State.setMe_gangHeld (s : State) (c : Core) : (s.setMe c).gangHeld = s.gangHeld := rfl
@[simp] theorem State.setMe_windows (s : State) (c : Core) : (s.setMe c).windows = s.windows := rfl
@[simp] theorem State.setMe_msix (s : State) (c : Core) : (s.setMe c).msix = s.msix := rfl
@[simp] theorem State.setMe_rcbWindow (s : State) (c : Core) : (s.setMe c).rcbWindow = s.rcbWindow := rfl
@[simp] theorem State.setMe_partitions (s : State) (c : Core) : (s.setMe c).partitions = s.partitions := rfl
@[simp] theorem State.setMe_hostData (s : State) (c : Core) : (s.setMe c).hostData = s.hostData := rfl
@[simp] theorem State.setMe_hostPoison (s : State) (c : Core) : (s.setMe c).hostPoison = s.hostPoison := rfl
@[simp] theorem State.setMe_ctrlLog (s : State) (c : Core) : (s.setMe c).ctrlLog = s.ctrlLog := rfl
@[simp] theorem State.setMe_boot (s : State) (c : Core) : (s.setMe c).boot = s.boot := rfl
@[simp] theorem State.setMe_bring (s : State) (c : Core) : (s.setMe c).bring = s.bring := rfl

@[simp] theorem State.updMe_cur (s : State) (f : Core → Core) : (s.updMe f).cur = s.cur := rfl
@[simp] theorem State.updMe_turns (s : State) (f : Core → Core) : (s.updMe f).turns = s.turns := rfl
@[simp] theorem State.updMe_slow (s : State) (f : Core → Core) : (s.updMe f).slow = s.slow := rfl
@[simp] theorem State.updMe_breakAt (s : State) (f : Core → Core) : (s.updMe f).breakAt = s.breakAt := rfl
@[simp] theorem State.updMe_free (s : State) (f : Core → Core) : (s.updMe f).free = s.free := rfl
@[simp] theorem State.updMe_nextId (s : State) (f : Core → Core) : (s.updMe f).nextId = s.nextId := rfl
@[simp] theorem State.updMe_modu (s : State) (f : Core → Core) : (s.updMe f).modu = s.modu := rfl
@[simp] theorem State.updMe_clusters (s : State) (f : Core → Core) : (s.updMe f).clusters = s.clusters := rfl
@[simp] theorem State.updMe_blocks (s : State) (f : Core → Core) : (s.updMe f).blocks = s.blocks := rfl
@[simp] theorem State.updMe_sectors (s : State) (f : Core → Core) : (s.updMe f).sectors = s.sectors := rfl
@[simp] theorem State.updMe_dies (s : State) (f : Core → Core) : (s.updMe f).dies = s.dies := rfl
@[simp] theorem State.updMe_quays (s : State) (f : Core → Core) : (s.updMe f).quays = s.quays := rfl
@[simp] theorem State.updMe_ports (s : State) (f : Core → Core) : (s.updMe f).ports = s.ports := rfl
@[simp] theorem State.updMe_mem (s : State) (f : Core → Core) : (s.updMe f).mem = s.mem := rfl
@[simp] theorem State.updMe_fe (s : State) (f : Core → Core) : (s.updMe f).fe = s.fe := rfl
@[simp] theorem State.updMe_poison (s : State) (f : Core → Core) : (s.updMe f).poison = s.poison := rfl
@[simp] theorem State.updMe_bkey (s : State) (f : Core → Core) : (s.updMe f).bkey = s.bkey := rfl
@[simp] theorem State.updMe_lines (s : State) (f : Core → Core) : (s.updMe f).lines = s.lines := rfl
@[simp] theorem State.updMe_exclusive (s : State) (f : Core → Core) : (s.updMe f).exclusive = s.exclusive := rfl
@[simp] theorem State.updMe_disabled (s : State) (f : Core → Core) : (s.updMe f).disabled = s.disabled := rfl
@[simp] theorem State.updMe_services (s : State) (f : Core → Core) : (s.updMe f).services = s.services := rfl
@[simp] theorem State.updMe_net (s : State) (f : Core → Core) : (s.updMe f).net = s.net := rfl
@[simp] theorem State.updMe_wire (s : State) (f : Core → Core) : (s.updMe f).wire = s.wire := rfl
@[simp] theorem State.updMe_seen (s : State) (f : Core → Core) : (s.updMe f).seen = s.seen := rfl
@[simp] theorem State.updMe_guests (s : State) (f : Core → Core) : (s.updMe f).guests = s.guests := rfl
@[simp] theorem State.updMe_weir (s : State) (f : Core → Core) : (s.updMe f).weir = s.weir := rfl
@[simp] theorem State.updMe_regions (s : State) (f : Core → Core) : (s.updMe f).regions = s.regions := rfl
@[simp] theorem State.updMe_weirOver (s : State) (f : Core → Core) : (s.updMe f).weirOver = s.weirOver := rfl
@[simp] theorem State.updMe_moorings (s : State) (f : Core → Core) : (s.updMe f).moorings = s.moorings := rfl
@[simp] theorem State.updMe_noCredit (s : State) (f : Core → Core) : (s.updMe f).noCredit = s.noCredit := rfl
@[simp] theorem State.updMe_launches (s : State) (f : Core → Core) : (s.updMe f).launches = s.launches := rfl
@[simp] theorem State.updMe_walks (s : State) (f : Core → Core) : (s.updMe f).walks = s.walks := rfl
@[simp] theorem State.updMe_prov (s : State) (f : Core → Core) : (s.updMe f).prov = s.prov := rfl
@[simp] theorem State.updMe_allocs (s : State) (f : Core → Core) : (s.updMe f).allocs = s.allocs := rfl
@[simp] theorem State.updMe_records (s : State) (f : Core → Core) : (s.updMe f).records = s.records := rfl
@[simp] theorem State.updMe_barriers (s : State) (f : Core → Core) : (s.updMe f).barriers = s.barriers := rfl
@[simp] theorem State.updMe_pginvs (s : State) (f : Core → Core) : (s.updMe f).pginvs = s.pginvs := rfl
@[simp] theorem State.updMe_migrations (s : State) (f : Core → Core) : (s.updMe f).migrations = s.migrations := rfl
@[simp] theorem State.updMe_allowOwed (s : State) (f : Core → Core) : (s.updMe f).allowOwed = s.allowOwed := rfl
@[simp] theorem State.updMe_owed (s : State) (f : Core → Core) : (s.updMe f).owed = s.owed := rfl
@[simp] theorem State.updMe_amends (s : State) (f : Core → Core) : (s.updMe f).amends = s.amends := rfl
@[simp] theorem State.updMe_saved (s : State) (f : Core → Core) : (s.updMe f).saved = s.saved := rfl
@[simp] theorem State.updMe_encKey (s : State) (f : Core → Core) : (s.updMe f).encKey = s.encKey := rfl
@[simp] theorem State.updMe_gangBars (s : State) (f : Core → Core) : (s.updMe f).gangBars = s.gangBars := rfl
@[simp] theorem State.updMe_gangHeld (s : State) (f : Core → Core) : (s.updMe f).gangHeld = s.gangHeld := rfl
@[simp] theorem State.updMe_windows (s : State) (f : Core → Core) : (s.updMe f).windows = s.windows := rfl
@[simp] theorem State.updMe_msix (s : State) (f : Core → Core) : (s.updMe f).msix = s.msix := rfl
@[simp] theorem State.updMe_rcbWindow (s : State) (f : Core → Core) : (s.updMe f).rcbWindow = s.rcbWindow := rfl
@[simp] theorem State.updMe_partitions (s : State) (f : Core → Core) : (s.updMe f).partitions = s.partitions := rfl
@[simp] theorem State.updMe_hostData (s : State) (f : Core → Core) : (s.updMe f).hostData = s.hostData := rfl
@[simp] theorem State.updMe_hostPoison (s : State) (f : Core → Core) : (s.updMe f).hostPoison = s.hostPoison := rfl
@[simp] theorem State.updMe_ctrlLog (s : State) (f : Core → Core) : (s.updMe f).ctrlLog = s.ctrlLog := rfl
@[simp] theorem State.updMe_boot (s : State) (f : Core → Core) : (s.updMe f).boot = s.boot := rfl
@[simp] theorem State.updMe_bring (s : State) (f : Core → Core) : (s.updMe f).bring = s.bring := rfl

@[simp] theorem State.updCluster_cur (s : State) (x : BitVec 14) (f : Cluster → Cluster) : (s.updCluster x f).cur = s.cur := rfl
@[simp] theorem State.updCluster_turns (s : State) (x : BitVec 14) (f : Cluster → Cluster) : (s.updCluster x f).turns = s.turns := rfl
@[simp] theorem State.updCluster_slow (s : State) (x : BitVec 14) (f : Cluster → Cluster) : (s.updCluster x f).slow = s.slow := rfl
@[simp] theorem State.updCluster_breakAt (s : State) (x : BitVec 14) (f : Cluster → Cluster) : (s.updCluster x f).breakAt = s.breakAt := rfl
@[simp] theorem State.updCluster_free (s : State) (x : BitVec 14) (f : Cluster → Cluster) : (s.updCluster x f).free = s.free := rfl
@[simp] theorem State.updCluster_nextId (s : State) (x : BitVec 14) (f : Cluster → Cluster) : (s.updCluster x f).nextId = s.nextId := rfl
@[simp] theorem State.updCluster_modu (s : State) (x : BitVec 14) (f : Cluster → Cluster) : (s.updCluster x f).modu = s.modu := rfl
@[simp] theorem State.updCluster_cores (s : State) (x : BitVec 14) (f : Cluster → Cluster) : (s.updCluster x f).cores = s.cores := rfl
@[simp] theorem State.updCluster_blocks (s : State) (x : BitVec 14) (f : Cluster → Cluster) : (s.updCluster x f).blocks = s.blocks := rfl
@[simp] theorem State.updCluster_sectors (s : State) (x : BitVec 14) (f : Cluster → Cluster) : (s.updCluster x f).sectors = s.sectors := rfl
@[simp] theorem State.updCluster_dies (s : State) (x : BitVec 14) (f : Cluster → Cluster) : (s.updCluster x f).dies = s.dies := rfl
@[simp] theorem State.updCluster_quays (s : State) (x : BitVec 14) (f : Cluster → Cluster) : (s.updCluster x f).quays = s.quays := rfl
@[simp] theorem State.updCluster_ports (s : State) (x : BitVec 14) (f : Cluster → Cluster) : (s.updCluster x f).ports = s.ports := rfl
@[simp] theorem State.updCluster_mem (s : State) (x : BitVec 14) (f : Cluster → Cluster) : (s.updCluster x f).mem = s.mem := rfl
@[simp] theorem State.updCluster_fe (s : State) (x : BitVec 14) (f : Cluster → Cluster) : (s.updCluster x f).fe = s.fe := rfl
@[simp] theorem State.updCluster_poison (s : State) (x : BitVec 14) (f : Cluster → Cluster) : (s.updCluster x f).poison = s.poison := rfl
@[simp] theorem State.updCluster_bkey (s : State) (x : BitVec 14) (f : Cluster → Cluster) : (s.updCluster x f).bkey = s.bkey := rfl
@[simp] theorem State.updCluster_lines (s : State) (x : BitVec 14) (f : Cluster → Cluster) : (s.updCluster x f).lines = s.lines := rfl
@[simp] theorem State.updCluster_exclusive (s : State) (x : BitVec 14) (f : Cluster → Cluster) : (s.updCluster x f).exclusive = s.exclusive := rfl
@[simp] theorem State.updCluster_disabled (s : State) (x : BitVec 14) (f : Cluster → Cluster) : (s.updCluster x f).disabled = s.disabled := rfl
@[simp] theorem State.updCluster_services (s : State) (x : BitVec 14) (f : Cluster → Cluster) : (s.updCluster x f).services = s.services := rfl
@[simp] theorem State.updCluster_net (s : State) (x : BitVec 14) (f : Cluster → Cluster) : (s.updCluster x f).net = s.net := rfl
@[simp] theorem State.updCluster_wire (s : State) (x : BitVec 14) (f : Cluster → Cluster) : (s.updCluster x f).wire = s.wire := rfl
@[simp] theorem State.updCluster_seen (s : State) (x : BitVec 14) (f : Cluster → Cluster) : (s.updCluster x f).seen = s.seen := rfl
@[simp] theorem State.updCluster_guests (s : State) (x : BitVec 14) (f : Cluster → Cluster) : (s.updCluster x f).guests = s.guests := rfl
@[simp] theorem State.updCluster_weir (s : State) (x : BitVec 14) (f : Cluster → Cluster) : (s.updCluster x f).weir = s.weir := rfl
@[simp] theorem State.updCluster_regions (s : State) (x : BitVec 14) (f : Cluster → Cluster) : (s.updCluster x f).regions = s.regions := rfl
@[simp] theorem State.updCluster_weirOver (s : State) (x : BitVec 14) (f : Cluster → Cluster) : (s.updCluster x f).weirOver = s.weirOver := rfl
@[simp] theorem State.updCluster_moorings (s : State) (x : BitVec 14) (f : Cluster → Cluster) : (s.updCluster x f).moorings = s.moorings := rfl
@[simp] theorem State.updCluster_noCredit (s : State) (x : BitVec 14) (f : Cluster → Cluster) : (s.updCluster x f).noCredit = s.noCredit := rfl
@[simp] theorem State.updCluster_launches (s : State) (x : BitVec 14) (f : Cluster → Cluster) : (s.updCluster x f).launches = s.launches := rfl
@[simp] theorem State.updCluster_walks (s : State) (x : BitVec 14) (f : Cluster → Cluster) : (s.updCluster x f).walks = s.walks := rfl
@[simp] theorem State.updCluster_prov (s : State) (x : BitVec 14) (f : Cluster → Cluster) : (s.updCluster x f).prov = s.prov := rfl
@[simp] theorem State.updCluster_allocs (s : State) (x : BitVec 14) (f : Cluster → Cluster) : (s.updCluster x f).allocs = s.allocs := rfl
@[simp] theorem State.updCluster_records (s : State) (x : BitVec 14) (f : Cluster → Cluster) : (s.updCluster x f).records = s.records := rfl
@[simp] theorem State.updCluster_barriers (s : State) (x : BitVec 14) (f : Cluster → Cluster) : (s.updCluster x f).barriers = s.barriers := rfl
@[simp] theorem State.updCluster_pginvs (s : State) (x : BitVec 14) (f : Cluster → Cluster) : (s.updCluster x f).pginvs = s.pginvs := rfl
@[simp] theorem State.updCluster_migrations (s : State) (x : BitVec 14) (f : Cluster → Cluster) : (s.updCluster x f).migrations = s.migrations := rfl
@[simp] theorem State.updCluster_allowOwed (s : State) (x : BitVec 14) (f : Cluster → Cluster) : (s.updCluster x f).allowOwed = s.allowOwed := rfl
@[simp] theorem State.updCluster_owed (s : State) (x : BitVec 14) (f : Cluster → Cluster) : (s.updCluster x f).owed = s.owed := rfl
@[simp] theorem State.updCluster_amends (s : State) (x : BitVec 14) (f : Cluster → Cluster) : (s.updCluster x f).amends = s.amends := rfl
@[simp] theorem State.updCluster_saved (s : State) (x : BitVec 14) (f : Cluster → Cluster) : (s.updCluster x f).saved = s.saved := rfl
@[simp] theorem State.updCluster_encKey (s : State) (x : BitVec 14) (f : Cluster → Cluster) : (s.updCluster x f).encKey = s.encKey := rfl
@[simp] theorem State.updCluster_gangBars (s : State) (x : BitVec 14) (f : Cluster → Cluster) : (s.updCluster x f).gangBars = s.gangBars := rfl
@[simp] theorem State.updCluster_gangHeld (s : State) (x : BitVec 14) (f : Cluster → Cluster) : (s.updCluster x f).gangHeld = s.gangHeld := rfl
@[simp] theorem State.updCluster_windows (s : State) (x : BitVec 14) (f : Cluster → Cluster) : (s.updCluster x f).windows = s.windows := rfl
@[simp] theorem State.updCluster_msix (s : State) (x : BitVec 14) (f : Cluster → Cluster) : (s.updCluster x f).msix = s.msix := rfl
@[simp] theorem State.updCluster_rcbWindow (s : State) (x : BitVec 14) (f : Cluster → Cluster) : (s.updCluster x f).rcbWindow = s.rcbWindow := rfl
@[simp] theorem State.updCluster_partitions (s : State) (x : BitVec 14) (f : Cluster → Cluster) : (s.updCluster x f).partitions = s.partitions := rfl
@[simp] theorem State.updCluster_hostData (s : State) (x : BitVec 14) (f : Cluster → Cluster) : (s.updCluster x f).hostData = s.hostData := rfl
@[simp] theorem State.updCluster_hostPoison (s : State) (x : BitVec 14) (f : Cluster → Cluster) : (s.updCluster x f).hostPoison = s.hostPoison := rfl
@[simp] theorem State.updCluster_ctrlLog (s : State) (x : BitVec 14) (f : Cluster → Cluster) : (s.updCluster x f).ctrlLog = s.ctrlLog := rfl
@[simp] theorem State.updCluster_boot (s : State) (x : BitVec 14) (f : Cluster → Cluster) : (s.updCluster x f).boot = s.boot := rfl
@[simp] theorem State.updCluster_bring (s : State) (x : BitVec 14) (f : Cluster → Cluster) : (s.updCluster x f).bring = s.bring := rfl

@[simp] theorem State.updBlock_cur (s : State) (x : BitVec 10) (f : Block → Block) : (s.updBlock x f).cur = s.cur := rfl
@[simp] theorem State.updBlock_turns (s : State) (x : BitVec 10) (f : Block → Block) : (s.updBlock x f).turns = s.turns := rfl
@[simp] theorem State.updBlock_slow (s : State) (x : BitVec 10) (f : Block → Block) : (s.updBlock x f).slow = s.slow := rfl
@[simp] theorem State.updBlock_breakAt (s : State) (x : BitVec 10) (f : Block → Block) : (s.updBlock x f).breakAt = s.breakAt := rfl
@[simp] theorem State.updBlock_free (s : State) (x : BitVec 10) (f : Block → Block) : (s.updBlock x f).free = s.free := rfl
@[simp] theorem State.updBlock_nextId (s : State) (x : BitVec 10) (f : Block → Block) : (s.updBlock x f).nextId = s.nextId := rfl
@[simp] theorem State.updBlock_modu (s : State) (x : BitVec 10) (f : Block → Block) : (s.updBlock x f).modu = s.modu := rfl
@[simp] theorem State.updBlock_cores (s : State) (x : BitVec 10) (f : Block → Block) : (s.updBlock x f).cores = s.cores := rfl
@[simp] theorem State.updBlock_clusters (s : State) (x : BitVec 10) (f : Block → Block) : (s.updBlock x f).clusters = s.clusters := rfl
@[simp] theorem State.updBlock_sectors (s : State) (x : BitVec 10) (f : Block → Block) : (s.updBlock x f).sectors = s.sectors := rfl
@[simp] theorem State.updBlock_dies (s : State) (x : BitVec 10) (f : Block → Block) : (s.updBlock x f).dies = s.dies := rfl
@[simp] theorem State.updBlock_quays (s : State) (x : BitVec 10) (f : Block → Block) : (s.updBlock x f).quays = s.quays := rfl
@[simp] theorem State.updBlock_ports (s : State) (x : BitVec 10) (f : Block → Block) : (s.updBlock x f).ports = s.ports := rfl
@[simp] theorem State.updBlock_mem (s : State) (x : BitVec 10) (f : Block → Block) : (s.updBlock x f).mem = s.mem := rfl
@[simp] theorem State.updBlock_fe (s : State) (x : BitVec 10) (f : Block → Block) : (s.updBlock x f).fe = s.fe := rfl
@[simp] theorem State.updBlock_poison (s : State) (x : BitVec 10) (f : Block → Block) : (s.updBlock x f).poison = s.poison := rfl
@[simp] theorem State.updBlock_bkey (s : State) (x : BitVec 10) (f : Block → Block) : (s.updBlock x f).bkey = s.bkey := rfl
@[simp] theorem State.updBlock_lines (s : State) (x : BitVec 10) (f : Block → Block) : (s.updBlock x f).lines = s.lines := rfl
@[simp] theorem State.updBlock_exclusive (s : State) (x : BitVec 10) (f : Block → Block) : (s.updBlock x f).exclusive = s.exclusive := rfl
@[simp] theorem State.updBlock_disabled (s : State) (x : BitVec 10) (f : Block → Block) : (s.updBlock x f).disabled = s.disabled := rfl
@[simp] theorem State.updBlock_services (s : State) (x : BitVec 10) (f : Block → Block) : (s.updBlock x f).services = s.services := rfl
@[simp] theorem State.updBlock_net (s : State) (x : BitVec 10) (f : Block → Block) : (s.updBlock x f).net = s.net := rfl
@[simp] theorem State.updBlock_wire (s : State) (x : BitVec 10) (f : Block → Block) : (s.updBlock x f).wire = s.wire := rfl
@[simp] theorem State.updBlock_seen (s : State) (x : BitVec 10) (f : Block → Block) : (s.updBlock x f).seen = s.seen := rfl
@[simp] theorem State.updBlock_guests (s : State) (x : BitVec 10) (f : Block → Block) : (s.updBlock x f).guests = s.guests := rfl
@[simp] theorem State.updBlock_weir (s : State) (x : BitVec 10) (f : Block → Block) : (s.updBlock x f).weir = s.weir := rfl
@[simp] theorem State.updBlock_regions (s : State) (x : BitVec 10) (f : Block → Block) : (s.updBlock x f).regions = s.regions := rfl
@[simp] theorem State.updBlock_weirOver (s : State) (x : BitVec 10) (f : Block → Block) : (s.updBlock x f).weirOver = s.weirOver := rfl
@[simp] theorem State.updBlock_moorings (s : State) (x : BitVec 10) (f : Block → Block) : (s.updBlock x f).moorings = s.moorings := rfl
@[simp] theorem State.updBlock_noCredit (s : State) (x : BitVec 10) (f : Block → Block) : (s.updBlock x f).noCredit = s.noCredit := rfl
@[simp] theorem State.updBlock_launches (s : State) (x : BitVec 10) (f : Block → Block) : (s.updBlock x f).launches = s.launches := rfl
@[simp] theorem State.updBlock_walks (s : State) (x : BitVec 10) (f : Block → Block) : (s.updBlock x f).walks = s.walks := rfl
@[simp] theorem State.updBlock_prov (s : State) (x : BitVec 10) (f : Block → Block) : (s.updBlock x f).prov = s.prov := rfl
@[simp] theorem State.updBlock_allocs (s : State) (x : BitVec 10) (f : Block → Block) : (s.updBlock x f).allocs = s.allocs := rfl
@[simp] theorem State.updBlock_records (s : State) (x : BitVec 10) (f : Block → Block) : (s.updBlock x f).records = s.records := rfl
@[simp] theorem State.updBlock_barriers (s : State) (x : BitVec 10) (f : Block → Block) : (s.updBlock x f).barriers = s.barriers := rfl
@[simp] theorem State.updBlock_pginvs (s : State) (x : BitVec 10) (f : Block → Block) : (s.updBlock x f).pginvs = s.pginvs := rfl
@[simp] theorem State.updBlock_migrations (s : State) (x : BitVec 10) (f : Block → Block) : (s.updBlock x f).migrations = s.migrations := rfl
@[simp] theorem State.updBlock_allowOwed (s : State) (x : BitVec 10) (f : Block → Block) : (s.updBlock x f).allowOwed = s.allowOwed := rfl
@[simp] theorem State.updBlock_owed (s : State) (x : BitVec 10) (f : Block → Block) : (s.updBlock x f).owed = s.owed := rfl
@[simp] theorem State.updBlock_amends (s : State) (x : BitVec 10) (f : Block → Block) : (s.updBlock x f).amends = s.amends := rfl
@[simp] theorem State.updBlock_saved (s : State) (x : BitVec 10) (f : Block → Block) : (s.updBlock x f).saved = s.saved := rfl
@[simp] theorem State.updBlock_encKey (s : State) (x : BitVec 10) (f : Block → Block) : (s.updBlock x f).encKey = s.encKey := rfl
@[simp] theorem State.updBlock_gangBars (s : State) (x : BitVec 10) (f : Block → Block) : (s.updBlock x f).gangBars = s.gangBars := rfl
@[simp] theorem State.updBlock_gangHeld (s : State) (x : BitVec 10) (f : Block → Block) : (s.updBlock x f).gangHeld = s.gangHeld := rfl
@[simp] theorem State.updBlock_windows (s : State) (x : BitVec 10) (f : Block → Block) : (s.updBlock x f).windows = s.windows := rfl
@[simp] theorem State.updBlock_msix (s : State) (x : BitVec 10) (f : Block → Block) : (s.updBlock x f).msix = s.msix := rfl
@[simp] theorem State.updBlock_rcbWindow (s : State) (x : BitVec 10) (f : Block → Block) : (s.updBlock x f).rcbWindow = s.rcbWindow := rfl
@[simp] theorem State.updBlock_partitions (s : State) (x : BitVec 10) (f : Block → Block) : (s.updBlock x f).partitions = s.partitions := rfl
@[simp] theorem State.updBlock_hostData (s : State) (x : BitVec 10) (f : Block → Block) : (s.updBlock x f).hostData = s.hostData := rfl
@[simp] theorem State.updBlock_hostPoison (s : State) (x : BitVec 10) (f : Block → Block) : (s.updBlock x f).hostPoison = s.hostPoison := rfl
@[simp] theorem State.updBlock_ctrlLog (s : State) (x : BitVec 10) (f : Block → Block) : (s.updBlock x f).ctrlLog = s.ctrlLog := rfl
@[simp] theorem State.updBlock_boot (s : State) (x : BitVec 10) (f : Block → Block) : (s.updBlock x f).boot = s.boot := rfl
@[simp] theorem State.updBlock_bring (s : State) (x : BitVec 10) (f : Block → Block) : (s.updBlock x f).bring = s.bring := rfl

@[simp] theorem State.updSector_cur (s : State) (x : BitVec 6) (f : Sector → Sector) : (s.updSector x f).cur = s.cur := rfl
@[simp] theorem State.updSector_turns (s : State) (x : BitVec 6) (f : Sector → Sector) : (s.updSector x f).turns = s.turns := rfl
@[simp] theorem State.updSector_slow (s : State) (x : BitVec 6) (f : Sector → Sector) : (s.updSector x f).slow = s.slow := rfl
@[simp] theorem State.updSector_breakAt (s : State) (x : BitVec 6) (f : Sector → Sector) : (s.updSector x f).breakAt = s.breakAt := rfl
@[simp] theorem State.updSector_free (s : State) (x : BitVec 6) (f : Sector → Sector) : (s.updSector x f).free = s.free := rfl
@[simp] theorem State.updSector_nextId (s : State) (x : BitVec 6) (f : Sector → Sector) : (s.updSector x f).nextId = s.nextId := rfl
@[simp] theorem State.updSector_modu (s : State) (x : BitVec 6) (f : Sector → Sector) : (s.updSector x f).modu = s.modu := rfl
@[simp] theorem State.updSector_cores (s : State) (x : BitVec 6) (f : Sector → Sector) : (s.updSector x f).cores = s.cores := rfl
@[simp] theorem State.updSector_clusters (s : State) (x : BitVec 6) (f : Sector → Sector) : (s.updSector x f).clusters = s.clusters := rfl
@[simp] theorem State.updSector_blocks (s : State) (x : BitVec 6) (f : Sector → Sector) : (s.updSector x f).blocks = s.blocks := rfl
@[simp] theorem State.updSector_dies (s : State) (x : BitVec 6) (f : Sector → Sector) : (s.updSector x f).dies = s.dies := rfl
@[simp] theorem State.updSector_quays (s : State) (x : BitVec 6) (f : Sector → Sector) : (s.updSector x f).quays = s.quays := rfl
@[simp] theorem State.updSector_ports (s : State) (x : BitVec 6) (f : Sector → Sector) : (s.updSector x f).ports = s.ports := rfl
@[simp] theorem State.updSector_mem (s : State) (x : BitVec 6) (f : Sector → Sector) : (s.updSector x f).mem = s.mem := rfl
@[simp] theorem State.updSector_fe (s : State) (x : BitVec 6) (f : Sector → Sector) : (s.updSector x f).fe = s.fe := rfl
@[simp] theorem State.updSector_poison (s : State) (x : BitVec 6) (f : Sector → Sector) : (s.updSector x f).poison = s.poison := rfl
@[simp] theorem State.updSector_bkey (s : State) (x : BitVec 6) (f : Sector → Sector) : (s.updSector x f).bkey = s.bkey := rfl
@[simp] theorem State.updSector_lines (s : State) (x : BitVec 6) (f : Sector → Sector) : (s.updSector x f).lines = s.lines := rfl
@[simp] theorem State.updSector_exclusive (s : State) (x : BitVec 6) (f : Sector → Sector) : (s.updSector x f).exclusive = s.exclusive := rfl
@[simp] theorem State.updSector_disabled (s : State) (x : BitVec 6) (f : Sector → Sector) : (s.updSector x f).disabled = s.disabled := rfl
@[simp] theorem State.updSector_services (s : State) (x : BitVec 6) (f : Sector → Sector) : (s.updSector x f).services = s.services := rfl
@[simp] theorem State.updSector_net (s : State) (x : BitVec 6) (f : Sector → Sector) : (s.updSector x f).net = s.net := rfl
@[simp] theorem State.updSector_wire (s : State) (x : BitVec 6) (f : Sector → Sector) : (s.updSector x f).wire = s.wire := rfl
@[simp] theorem State.updSector_seen (s : State) (x : BitVec 6) (f : Sector → Sector) : (s.updSector x f).seen = s.seen := rfl
@[simp] theorem State.updSector_guests (s : State) (x : BitVec 6) (f : Sector → Sector) : (s.updSector x f).guests = s.guests := rfl
@[simp] theorem State.updSector_weir (s : State) (x : BitVec 6) (f : Sector → Sector) : (s.updSector x f).weir = s.weir := rfl
@[simp] theorem State.updSector_regions (s : State) (x : BitVec 6) (f : Sector → Sector) : (s.updSector x f).regions = s.regions := rfl
@[simp] theorem State.updSector_weirOver (s : State) (x : BitVec 6) (f : Sector → Sector) : (s.updSector x f).weirOver = s.weirOver := rfl
@[simp] theorem State.updSector_moorings (s : State) (x : BitVec 6) (f : Sector → Sector) : (s.updSector x f).moorings = s.moorings := rfl
@[simp] theorem State.updSector_noCredit (s : State) (x : BitVec 6) (f : Sector → Sector) : (s.updSector x f).noCredit = s.noCredit := rfl
@[simp] theorem State.updSector_launches (s : State) (x : BitVec 6) (f : Sector → Sector) : (s.updSector x f).launches = s.launches := rfl
@[simp] theorem State.updSector_walks (s : State) (x : BitVec 6) (f : Sector → Sector) : (s.updSector x f).walks = s.walks := rfl
@[simp] theorem State.updSector_prov (s : State) (x : BitVec 6) (f : Sector → Sector) : (s.updSector x f).prov = s.prov := rfl
@[simp] theorem State.updSector_allocs (s : State) (x : BitVec 6) (f : Sector → Sector) : (s.updSector x f).allocs = s.allocs := rfl
@[simp] theorem State.updSector_records (s : State) (x : BitVec 6) (f : Sector → Sector) : (s.updSector x f).records = s.records := rfl
@[simp] theorem State.updSector_barriers (s : State) (x : BitVec 6) (f : Sector → Sector) : (s.updSector x f).barriers = s.barriers := rfl
@[simp] theorem State.updSector_pginvs (s : State) (x : BitVec 6) (f : Sector → Sector) : (s.updSector x f).pginvs = s.pginvs := rfl
@[simp] theorem State.updSector_migrations (s : State) (x : BitVec 6) (f : Sector → Sector) : (s.updSector x f).migrations = s.migrations := rfl
@[simp] theorem State.updSector_allowOwed (s : State) (x : BitVec 6) (f : Sector → Sector) : (s.updSector x f).allowOwed = s.allowOwed := rfl
@[simp] theorem State.updSector_owed (s : State) (x : BitVec 6) (f : Sector → Sector) : (s.updSector x f).owed = s.owed := rfl
@[simp] theorem State.updSector_amends (s : State) (x : BitVec 6) (f : Sector → Sector) : (s.updSector x f).amends = s.amends := rfl
@[simp] theorem State.updSector_saved (s : State) (x : BitVec 6) (f : Sector → Sector) : (s.updSector x f).saved = s.saved := rfl
@[simp] theorem State.updSector_encKey (s : State) (x : BitVec 6) (f : Sector → Sector) : (s.updSector x f).encKey = s.encKey := rfl
@[simp] theorem State.updSector_gangBars (s : State) (x : BitVec 6) (f : Sector → Sector) : (s.updSector x f).gangBars = s.gangBars := rfl
@[simp] theorem State.updSector_gangHeld (s : State) (x : BitVec 6) (f : Sector → Sector) : (s.updSector x f).gangHeld = s.gangHeld := rfl
@[simp] theorem State.updSector_windows (s : State) (x : BitVec 6) (f : Sector → Sector) : (s.updSector x f).windows = s.windows := rfl
@[simp] theorem State.updSector_msix (s : State) (x : BitVec 6) (f : Sector → Sector) : (s.updSector x f).msix = s.msix := rfl
@[simp] theorem State.updSector_rcbWindow (s : State) (x : BitVec 6) (f : Sector → Sector) : (s.updSector x f).rcbWindow = s.rcbWindow := rfl
@[simp] theorem State.updSector_partitions (s : State) (x : BitVec 6) (f : Sector → Sector) : (s.updSector x f).partitions = s.partitions := rfl
@[simp] theorem State.updSector_hostData (s : State) (x : BitVec 6) (f : Sector → Sector) : (s.updSector x f).hostData = s.hostData := rfl
@[simp] theorem State.updSector_hostPoison (s : State) (x : BitVec 6) (f : Sector → Sector) : (s.updSector x f).hostPoison = s.hostPoison := rfl
@[simp] theorem State.updSector_ctrlLog (s : State) (x : BitVec 6) (f : Sector → Sector) : (s.updSector x f).ctrlLog = s.ctrlLog := rfl
@[simp] theorem State.updSector_boot (s : State) (x : BitVec 6) (f : Sector → Sector) : (s.updSector x f).boot = s.boot := rfl
@[simp] theorem State.updSector_bring (s : State) (x : BitVec 6) (f : Sector → Sector) : (s.updSector x f).bring = s.bring := rfl

@[simp] theorem State.updDie_cur (s : State) (x : BitVec 4) (f : Die → Die) : (s.updDie x f).cur = s.cur := rfl
@[simp] theorem State.updDie_turns (s : State) (x : BitVec 4) (f : Die → Die) : (s.updDie x f).turns = s.turns := rfl
@[simp] theorem State.updDie_slow (s : State) (x : BitVec 4) (f : Die → Die) : (s.updDie x f).slow = s.slow := rfl
@[simp] theorem State.updDie_breakAt (s : State) (x : BitVec 4) (f : Die → Die) : (s.updDie x f).breakAt = s.breakAt := rfl
@[simp] theorem State.updDie_free (s : State) (x : BitVec 4) (f : Die → Die) : (s.updDie x f).free = s.free := rfl
@[simp] theorem State.updDie_nextId (s : State) (x : BitVec 4) (f : Die → Die) : (s.updDie x f).nextId = s.nextId := rfl
@[simp] theorem State.updDie_modu (s : State) (x : BitVec 4) (f : Die → Die) : (s.updDie x f).modu = s.modu := rfl
@[simp] theorem State.updDie_cores (s : State) (x : BitVec 4) (f : Die → Die) : (s.updDie x f).cores = s.cores := rfl
@[simp] theorem State.updDie_clusters (s : State) (x : BitVec 4) (f : Die → Die) : (s.updDie x f).clusters = s.clusters := rfl
@[simp] theorem State.updDie_blocks (s : State) (x : BitVec 4) (f : Die → Die) : (s.updDie x f).blocks = s.blocks := rfl
@[simp] theorem State.updDie_sectors (s : State) (x : BitVec 4) (f : Die → Die) : (s.updDie x f).sectors = s.sectors := rfl
@[simp] theorem State.updDie_quays (s : State) (x : BitVec 4) (f : Die → Die) : (s.updDie x f).quays = s.quays := rfl
@[simp] theorem State.updDie_ports (s : State) (x : BitVec 4) (f : Die → Die) : (s.updDie x f).ports = s.ports := rfl
@[simp] theorem State.updDie_mem (s : State) (x : BitVec 4) (f : Die → Die) : (s.updDie x f).mem = s.mem := rfl
@[simp] theorem State.updDie_fe (s : State) (x : BitVec 4) (f : Die → Die) : (s.updDie x f).fe = s.fe := rfl
@[simp] theorem State.updDie_poison (s : State) (x : BitVec 4) (f : Die → Die) : (s.updDie x f).poison = s.poison := rfl
@[simp] theorem State.updDie_bkey (s : State) (x : BitVec 4) (f : Die → Die) : (s.updDie x f).bkey = s.bkey := rfl
@[simp] theorem State.updDie_lines (s : State) (x : BitVec 4) (f : Die → Die) : (s.updDie x f).lines = s.lines := rfl
@[simp] theorem State.updDie_exclusive (s : State) (x : BitVec 4) (f : Die → Die) : (s.updDie x f).exclusive = s.exclusive := rfl
@[simp] theorem State.updDie_disabled (s : State) (x : BitVec 4) (f : Die → Die) : (s.updDie x f).disabled = s.disabled := rfl
@[simp] theorem State.updDie_services (s : State) (x : BitVec 4) (f : Die → Die) : (s.updDie x f).services = s.services := rfl
@[simp] theorem State.updDie_net (s : State) (x : BitVec 4) (f : Die → Die) : (s.updDie x f).net = s.net := rfl
@[simp] theorem State.updDie_wire (s : State) (x : BitVec 4) (f : Die → Die) : (s.updDie x f).wire = s.wire := rfl
@[simp] theorem State.updDie_seen (s : State) (x : BitVec 4) (f : Die → Die) : (s.updDie x f).seen = s.seen := rfl
@[simp] theorem State.updDie_guests (s : State) (x : BitVec 4) (f : Die → Die) : (s.updDie x f).guests = s.guests := rfl
@[simp] theorem State.updDie_weir (s : State) (x : BitVec 4) (f : Die → Die) : (s.updDie x f).weir = s.weir := rfl
@[simp] theorem State.updDie_regions (s : State) (x : BitVec 4) (f : Die → Die) : (s.updDie x f).regions = s.regions := rfl
@[simp] theorem State.updDie_weirOver (s : State) (x : BitVec 4) (f : Die → Die) : (s.updDie x f).weirOver = s.weirOver := rfl
@[simp] theorem State.updDie_moorings (s : State) (x : BitVec 4) (f : Die → Die) : (s.updDie x f).moorings = s.moorings := rfl
@[simp] theorem State.updDie_noCredit (s : State) (x : BitVec 4) (f : Die → Die) : (s.updDie x f).noCredit = s.noCredit := rfl
@[simp] theorem State.updDie_launches (s : State) (x : BitVec 4) (f : Die → Die) : (s.updDie x f).launches = s.launches := rfl
@[simp] theorem State.updDie_walks (s : State) (x : BitVec 4) (f : Die → Die) : (s.updDie x f).walks = s.walks := rfl
@[simp] theorem State.updDie_prov (s : State) (x : BitVec 4) (f : Die → Die) : (s.updDie x f).prov = s.prov := rfl
@[simp] theorem State.updDie_allocs (s : State) (x : BitVec 4) (f : Die → Die) : (s.updDie x f).allocs = s.allocs := rfl
@[simp] theorem State.updDie_records (s : State) (x : BitVec 4) (f : Die → Die) : (s.updDie x f).records = s.records := rfl
@[simp] theorem State.updDie_barriers (s : State) (x : BitVec 4) (f : Die → Die) : (s.updDie x f).barriers = s.barriers := rfl
@[simp] theorem State.updDie_pginvs (s : State) (x : BitVec 4) (f : Die → Die) : (s.updDie x f).pginvs = s.pginvs := rfl
@[simp] theorem State.updDie_migrations (s : State) (x : BitVec 4) (f : Die → Die) : (s.updDie x f).migrations = s.migrations := rfl
@[simp] theorem State.updDie_allowOwed (s : State) (x : BitVec 4) (f : Die → Die) : (s.updDie x f).allowOwed = s.allowOwed := rfl
@[simp] theorem State.updDie_owed (s : State) (x : BitVec 4) (f : Die → Die) : (s.updDie x f).owed = s.owed := rfl
@[simp] theorem State.updDie_amends (s : State) (x : BitVec 4) (f : Die → Die) : (s.updDie x f).amends = s.amends := rfl
@[simp] theorem State.updDie_saved (s : State) (x : BitVec 4) (f : Die → Die) : (s.updDie x f).saved = s.saved := rfl
@[simp] theorem State.updDie_encKey (s : State) (x : BitVec 4) (f : Die → Die) : (s.updDie x f).encKey = s.encKey := rfl
@[simp] theorem State.updDie_gangBars (s : State) (x : BitVec 4) (f : Die → Die) : (s.updDie x f).gangBars = s.gangBars := rfl
@[simp] theorem State.updDie_gangHeld (s : State) (x : BitVec 4) (f : Die → Die) : (s.updDie x f).gangHeld = s.gangHeld := rfl
@[simp] theorem State.updDie_windows (s : State) (x : BitVec 4) (f : Die → Die) : (s.updDie x f).windows = s.windows := rfl
@[simp] theorem State.updDie_msix (s : State) (x : BitVec 4) (f : Die → Die) : (s.updDie x f).msix = s.msix := rfl
@[simp] theorem State.updDie_rcbWindow (s : State) (x : BitVec 4) (f : Die → Die) : (s.updDie x f).rcbWindow = s.rcbWindow := rfl
@[simp] theorem State.updDie_partitions (s : State) (x : BitVec 4) (f : Die → Die) : (s.updDie x f).partitions = s.partitions := rfl
@[simp] theorem State.updDie_hostData (s : State) (x : BitVec 4) (f : Die → Die) : (s.updDie x f).hostData = s.hostData := rfl
@[simp] theorem State.updDie_hostPoison (s : State) (x : BitVec 4) (f : Die → Die) : (s.updDie x f).hostPoison = s.hostPoison := rfl
@[simp] theorem State.updDie_ctrlLog (s : State) (x : BitVec 4) (f : Die → Die) : (s.updDie x f).ctrlLog = s.ctrlLog := rfl
@[simp] theorem State.updDie_boot (s : State) (x : BitVec 4) (f : Die → Die) : (s.updDie x f).boot = s.boot := rfl
@[simp] theorem State.updDie_bring (s : State) (x : BitVec 4) (f : Die → Die) : (s.updDie x f).bring = s.bring := rfl

@[simp] theorem State.updPort_cur (s : State) (x : BitVec 5) (f : Port → Port) : (s.updPort x f).cur = s.cur := rfl
@[simp] theorem State.updPort_turns (s : State) (x : BitVec 5) (f : Port → Port) : (s.updPort x f).turns = s.turns := rfl
@[simp] theorem State.updPort_slow (s : State) (x : BitVec 5) (f : Port → Port) : (s.updPort x f).slow = s.slow := rfl
@[simp] theorem State.updPort_breakAt (s : State) (x : BitVec 5) (f : Port → Port) : (s.updPort x f).breakAt = s.breakAt := rfl
@[simp] theorem State.updPort_free (s : State) (x : BitVec 5) (f : Port → Port) : (s.updPort x f).free = s.free := rfl
@[simp] theorem State.updPort_nextId (s : State) (x : BitVec 5) (f : Port → Port) : (s.updPort x f).nextId = s.nextId := rfl
@[simp] theorem State.updPort_modu (s : State) (x : BitVec 5) (f : Port → Port) : (s.updPort x f).modu = s.modu := rfl
@[simp] theorem State.updPort_cores (s : State) (x : BitVec 5) (f : Port → Port) : (s.updPort x f).cores = s.cores := rfl
@[simp] theorem State.updPort_clusters (s : State) (x : BitVec 5) (f : Port → Port) : (s.updPort x f).clusters = s.clusters := rfl
@[simp] theorem State.updPort_blocks (s : State) (x : BitVec 5) (f : Port → Port) : (s.updPort x f).blocks = s.blocks := rfl
@[simp] theorem State.updPort_sectors (s : State) (x : BitVec 5) (f : Port → Port) : (s.updPort x f).sectors = s.sectors := rfl
@[simp] theorem State.updPort_dies (s : State) (x : BitVec 5) (f : Port → Port) : (s.updPort x f).dies = s.dies := rfl
@[simp] theorem State.updPort_quays (s : State) (x : BitVec 5) (f : Port → Port) : (s.updPort x f).quays = s.quays := rfl
@[simp] theorem State.updPort_mem (s : State) (x : BitVec 5) (f : Port → Port) : (s.updPort x f).mem = s.mem := rfl
@[simp] theorem State.updPort_fe (s : State) (x : BitVec 5) (f : Port → Port) : (s.updPort x f).fe = s.fe := rfl
@[simp] theorem State.updPort_poison (s : State) (x : BitVec 5) (f : Port → Port) : (s.updPort x f).poison = s.poison := rfl
@[simp] theorem State.updPort_bkey (s : State) (x : BitVec 5) (f : Port → Port) : (s.updPort x f).bkey = s.bkey := rfl
@[simp] theorem State.updPort_lines (s : State) (x : BitVec 5) (f : Port → Port) : (s.updPort x f).lines = s.lines := rfl
@[simp] theorem State.updPort_exclusive (s : State) (x : BitVec 5) (f : Port → Port) : (s.updPort x f).exclusive = s.exclusive := rfl
@[simp] theorem State.updPort_disabled (s : State) (x : BitVec 5) (f : Port → Port) : (s.updPort x f).disabled = s.disabled := rfl
@[simp] theorem State.updPort_services (s : State) (x : BitVec 5) (f : Port → Port) : (s.updPort x f).services = s.services := rfl
@[simp] theorem State.updPort_net (s : State) (x : BitVec 5) (f : Port → Port) : (s.updPort x f).net = s.net := rfl
@[simp] theorem State.updPort_wire (s : State) (x : BitVec 5) (f : Port → Port) : (s.updPort x f).wire = s.wire := rfl
@[simp] theorem State.updPort_seen (s : State) (x : BitVec 5) (f : Port → Port) : (s.updPort x f).seen = s.seen := rfl
@[simp] theorem State.updPort_guests (s : State) (x : BitVec 5) (f : Port → Port) : (s.updPort x f).guests = s.guests := rfl
@[simp] theorem State.updPort_weir (s : State) (x : BitVec 5) (f : Port → Port) : (s.updPort x f).weir = s.weir := rfl
@[simp] theorem State.updPort_regions (s : State) (x : BitVec 5) (f : Port → Port) : (s.updPort x f).regions = s.regions := rfl
@[simp] theorem State.updPort_weirOver (s : State) (x : BitVec 5) (f : Port → Port) : (s.updPort x f).weirOver = s.weirOver := rfl
@[simp] theorem State.updPort_moorings (s : State) (x : BitVec 5) (f : Port → Port) : (s.updPort x f).moorings = s.moorings := rfl
@[simp] theorem State.updPort_noCredit (s : State) (x : BitVec 5) (f : Port → Port) : (s.updPort x f).noCredit = s.noCredit := rfl
@[simp] theorem State.updPort_launches (s : State) (x : BitVec 5) (f : Port → Port) : (s.updPort x f).launches = s.launches := rfl
@[simp] theorem State.updPort_walks (s : State) (x : BitVec 5) (f : Port → Port) : (s.updPort x f).walks = s.walks := rfl
@[simp] theorem State.updPort_prov (s : State) (x : BitVec 5) (f : Port → Port) : (s.updPort x f).prov = s.prov := rfl
@[simp] theorem State.updPort_allocs (s : State) (x : BitVec 5) (f : Port → Port) : (s.updPort x f).allocs = s.allocs := rfl
@[simp] theorem State.updPort_records (s : State) (x : BitVec 5) (f : Port → Port) : (s.updPort x f).records = s.records := rfl
@[simp] theorem State.updPort_barriers (s : State) (x : BitVec 5) (f : Port → Port) : (s.updPort x f).barriers = s.barriers := rfl
@[simp] theorem State.updPort_pginvs (s : State) (x : BitVec 5) (f : Port → Port) : (s.updPort x f).pginvs = s.pginvs := rfl
@[simp] theorem State.updPort_migrations (s : State) (x : BitVec 5) (f : Port → Port) : (s.updPort x f).migrations = s.migrations := rfl
@[simp] theorem State.updPort_allowOwed (s : State) (x : BitVec 5) (f : Port → Port) : (s.updPort x f).allowOwed = s.allowOwed := rfl
@[simp] theorem State.updPort_owed (s : State) (x : BitVec 5) (f : Port → Port) : (s.updPort x f).owed = s.owed := rfl
@[simp] theorem State.updPort_amends (s : State) (x : BitVec 5) (f : Port → Port) : (s.updPort x f).amends = s.amends := rfl
@[simp] theorem State.updPort_saved (s : State) (x : BitVec 5) (f : Port → Port) : (s.updPort x f).saved = s.saved := rfl
@[simp] theorem State.updPort_encKey (s : State) (x : BitVec 5) (f : Port → Port) : (s.updPort x f).encKey = s.encKey := rfl
@[simp] theorem State.updPort_gangBars (s : State) (x : BitVec 5) (f : Port → Port) : (s.updPort x f).gangBars = s.gangBars := rfl
@[simp] theorem State.updPort_gangHeld (s : State) (x : BitVec 5) (f : Port → Port) : (s.updPort x f).gangHeld = s.gangHeld := rfl
@[simp] theorem State.updPort_windows (s : State) (x : BitVec 5) (f : Port → Port) : (s.updPort x f).windows = s.windows := rfl
@[simp] theorem State.updPort_msix (s : State) (x : BitVec 5) (f : Port → Port) : (s.updPort x f).msix = s.msix := rfl
@[simp] theorem State.updPort_rcbWindow (s : State) (x : BitVec 5) (f : Port → Port) : (s.updPort x f).rcbWindow = s.rcbWindow := rfl
@[simp] theorem State.updPort_partitions (s : State) (x : BitVec 5) (f : Port → Port) : (s.updPort x f).partitions = s.partitions := rfl
@[simp] theorem State.updPort_hostData (s : State) (x : BitVec 5) (f : Port → Port) : (s.updPort x f).hostData = s.hostData := rfl
@[simp] theorem State.updPort_hostPoison (s : State) (x : BitVec 5) (f : Port → Port) : (s.updPort x f).hostPoison = s.hostPoison := rfl
@[simp] theorem State.updPort_ctrlLog (s : State) (x : BitVec 5) (f : Port → Port) : (s.updPort x f).ctrlLog = s.ctrlLog := rfl
@[simp] theorem State.updPort_boot (s : State) (x : BitVec 5) (f : Port → Port) : (s.updPort x f).boot = s.boot := rfl
@[simp] theorem State.updPort_bring (s : State) (x : BitVec 5) (f : Port → Port) : (s.updPort x f).bring = s.bring := rfl

@[simp] theorem State.updQuay_cur (s : State) (x : BitVec 4) (f : Quay → Quay) : (s.updQuay x f).cur = s.cur := rfl
@[simp] theorem State.updQuay_turns (s : State) (x : BitVec 4) (f : Quay → Quay) : (s.updQuay x f).turns = s.turns := rfl
@[simp] theorem State.updQuay_slow (s : State) (x : BitVec 4) (f : Quay → Quay) : (s.updQuay x f).slow = s.slow := rfl
@[simp] theorem State.updQuay_breakAt (s : State) (x : BitVec 4) (f : Quay → Quay) : (s.updQuay x f).breakAt = s.breakAt := rfl
@[simp] theorem State.updQuay_free (s : State) (x : BitVec 4) (f : Quay → Quay) : (s.updQuay x f).free = s.free := rfl
@[simp] theorem State.updQuay_nextId (s : State) (x : BitVec 4) (f : Quay → Quay) : (s.updQuay x f).nextId = s.nextId := rfl
@[simp] theorem State.updQuay_modu (s : State) (x : BitVec 4) (f : Quay → Quay) : (s.updQuay x f).modu = s.modu := rfl
@[simp] theorem State.updQuay_cores (s : State) (x : BitVec 4) (f : Quay → Quay) : (s.updQuay x f).cores = s.cores := rfl
@[simp] theorem State.updQuay_clusters (s : State) (x : BitVec 4) (f : Quay → Quay) : (s.updQuay x f).clusters = s.clusters := rfl
@[simp] theorem State.updQuay_blocks (s : State) (x : BitVec 4) (f : Quay → Quay) : (s.updQuay x f).blocks = s.blocks := rfl
@[simp] theorem State.updQuay_sectors (s : State) (x : BitVec 4) (f : Quay → Quay) : (s.updQuay x f).sectors = s.sectors := rfl
@[simp] theorem State.updQuay_dies (s : State) (x : BitVec 4) (f : Quay → Quay) : (s.updQuay x f).dies = s.dies := rfl
@[simp] theorem State.updQuay_ports (s : State) (x : BitVec 4) (f : Quay → Quay) : (s.updQuay x f).ports = s.ports := rfl
@[simp] theorem State.updQuay_mem (s : State) (x : BitVec 4) (f : Quay → Quay) : (s.updQuay x f).mem = s.mem := rfl
@[simp] theorem State.updQuay_fe (s : State) (x : BitVec 4) (f : Quay → Quay) : (s.updQuay x f).fe = s.fe := rfl
@[simp] theorem State.updQuay_poison (s : State) (x : BitVec 4) (f : Quay → Quay) : (s.updQuay x f).poison = s.poison := rfl
@[simp] theorem State.updQuay_bkey (s : State) (x : BitVec 4) (f : Quay → Quay) : (s.updQuay x f).bkey = s.bkey := rfl
@[simp] theorem State.updQuay_lines (s : State) (x : BitVec 4) (f : Quay → Quay) : (s.updQuay x f).lines = s.lines := rfl
@[simp] theorem State.updQuay_exclusive (s : State) (x : BitVec 4) (f : Quay → Quay) : (s.updQuay x f).exclusive = s.exclusive := rfl
@[simp] theorem State.updQuay_disabled (s : State) (x : BitVec 4) (f : Quay → Quay) : (s.updQuay x f).disabled = s.disabled := rfl
@[simp] theorem State.updQuay_services (s : State) (x : BitVec 4) (f : Quay → Quay) : (s.updQuay x f).services = s.services := rfl
@[simp] theorem State.updQuay_net (s : State) (x : BitVec 4) (f : Quay → Quay) : (s.updQuay x f).net = s.net := rfl
@[simp] theorem State.updQuay_wire (s : State) (x : BitVec 4) (f : Quay → Quay) : (s.updQuay x f).wire = s.wire := rfl
@[simp] theorem State.updQuay_seen (s : State) (x : BitVec 4) (f : Quay → Quay) : (s.updQuay x f).seen = s.seen := rfl
@[simp] theorem State.updQuay_guests (s : State) (x : BitVec 4) (f : Quay → Quay) : (s.updQuay x f).guests = s.guests := rfl
@[simp] theorem State.updQuay_weir (s : State) (x : BitVec 4) (f : Quay → Quay) : (s.updQuay x f).weir = s.weir := rfl
@[simp] theorem State.updQuay_regions (s : State) (x : BitVec 4) (f : Quay → Quay) : (s.updQuay x f).regions = s.regions := rfl
@[simp] theorem State.updQuay_weirOver (s : State) (x : BitVec 4) (f : Quay → Quay) : (s.updQuay x f).weirOver = s.weirOver := rfl
@[simp] theorem State.updQuay_moorings (s : State) (x : BitVec 4) (f : Quay → Quay) : (s.updQuay x f).moorings = s.moorings := rfl
@[simp] theorem State.updQuay_noCredit (s : State) (x : BitVec 4) (f : Quay → Quay) : (s.updQuay x f).noCredit = s.noCredit := rfl
@[simp] theorem State.updQuay_launches (s : State) (x : BitVec 4) (f : Quay → Quay) : (s.updQuay x f).launches = s.launches := rfl
@[simp] theorem State.updQuay_walks (s : State) (x : BitVec 4) (f : Quay → Quay) : (s.updQuay x f).walks = s.walks := rfl
@[simp] theorem State.updQuay_prov (s : State) (x : BitVec 4) (f : Quay → Quay) : (s.updQuay x f).prov = s.prov := rfl
@[simp] theorem State.updQuay_allocs (s : State) (x : BitVec 4) (f : Quay → Quay) : (s.updQuay x f).allocs = s.allocs := rfl
@[simp] theorem State.updQuay_records (s : State) (x : BitVec 4) (f : Quay → Quay) : (s.updQuay x f).records = s.records := rfl
@[simp] theorem State.updQuay_barriers (s : State) (x : BitVec 4) (f : Quay → Quay) : (s.updQuay x f).barriers = s.barriers := rfl
@[simp] theorem State.updQuay_pginvs (s : State) (x : BitVec 4) (f : Quay → Quay) : (s.updQuay x f).pginvs = s.pginvs := rfl
@[simp] theorem State.updQuay_migrations (s : State) (x : BitVec 4) (f : Quay → Quay) : (s.updQuay x f).migrations = s.migrations := rfl
@[simp] theorem State.updQuay_allowOwed (s : State) (x : BitVec 4) (f : Quay → Quay) : (s.updQuay x f).allowOwed = s.allowOwed := rfl
@[simp] theorem State.updQuay_owed (s : State) (x : BitVec 4) (f : Quay → Quay) : (s.updQuay x f).owed = s.owed := rfl
@[simp] theorem State.updQuay_amends (s : State) (x : BitVec 4) (f : Quay → Quay) : (s.updQuay x f).amends = s.amends := rfl
@[simp] theorem State.updQuay_saved (s : State) (x : BitVec 4) (f : Quay → Quay) : (s.updQuay x f).saved = s.saved := rfl
@[simp] theorem State.updQuay_encKey (s : State) (x : BitVec 4) (f : Quay → Quay) : (s.updQuay x f).encKey = s.encKey := rfl
@[simp] theorem State.updQuay_gangBars (s : State) (x : BitVec 4) (f : Quay → Quay) : (s.updQuay x f).gangBars = s.gangBars := rfl
@[simp] theorem State.updQuay_gangHeld (s : State) (x : BitVec 4) (f : Quay → Quay) : (s.updQuay x f).gangHeld = s.gangHeld := rfl
@[simp] theorem State.updQuay_windows (s : State) (x : BitVec 4) (f : Quay → Quay) : (s.updQuay x f).windows = s.windows := rfl
@[simp] theorem State.updQuay_msix (s : State) (x : BitVec 4) (f : Quay → Quay) : (s.updQuay x f).msix = s.msix := rfl
@[simp] theorem State.updQuay_rcbWindow (s : State) (x : BitVec 4) (f : Quay → Quay) : (s.updQuay x f).rcbWindow = s.rcbWindow := rfl
@[simp] theorem State.updQuay_partitions (s : State) (x : BitVec 4) (f : Quay → Quay) : (s.updQuay x f).partitions = s.partitions := rfl
@[simp] theorem State.updQuay_hostData (s : State) (x : BitVec 4) (f : Quay → Quay) : (s.updQuay x f).hostData = s.hostData := rfl
@[simp] theorem State.updQuay_hostPoison (s : State) (x : BitVec 4) (f : Quay → Quay) : (s.updQuay x f).hostPoison = s.hostPoison := rfl
@[simp] theorem State.updQuay_ctrlLog (s : State) (x : BitVec 4) (f : Quay → Quay) : (s.updQuay x f).ctrlLog = s.ctrlLog := rfl
@[simp] theorem State.updQuay_boot (s : State) (x : BitVec 4) (f : Quay → Quay) : (s.updQuay x f).boot = s.boot := rfl
@[simp] theorem State.updQuay_bring (s : State) (x : BitVec 4) (f : Quay → Quay) : (s.updQuay x f).bring = s.bring := rfl

@[simp] theorem State.updWindow_cur (s : State) (l : BitVec 4) (w : BitVec 6) (f : Window → Window) : (s.updWindow l w f).cur = s.cur := rfl
@[simp] theorem State.updWindow_turns (s : State) (l : BitVec 4) (w : BitVec 6) (f : Window → Window) : (s.updWindow l w f).turns = s.turns := rfl
@[simp] theorem State.updWindow_slow (s : State) (l : BitVec 4) (w : BitVec 6) (f : Window → Window) : (s.updWindow l w f).slow = s.slow := rfl
@[simp] theorem State.updWindow_breakAt (s : State) (l : BitVec 4) (w : BitVec 6) (f : Window → Window) : (s.updWindow l w f).breakAt = s.breakAt := rfl
@[simp] theorem State.updWindow_free (s : State) (l : BitVec 4) (w : BitVec 6) (f : Window → Window) : (s.updWindow l w f).free = s.free := rfl
@[simp] theorem State.updWindow_nextId (s : State) (l : BitVec 4) (w : BitVec 6) (f : Window → Window) : (s.updWindow l w f).nextId = s.nextId := rfl
@[simp] theorem State.updWindow_modu (s : State) (l : BitVec 4) (w : BitVec 6) (f : Window → Window) : (s.updWindow l w f).modu = s.modu := rfl
@[simp] theorem State.updWindow_cores (s : State) (l : BitVec 4) (w : BitVec 6) (f : Window → Window) : (s.updWindow l w f).cores = s.cores := rfl
@[simp] theorem State.updWindow_clusters (s : State) (l : BitVec 4) (w : BitVec 6) (f : Window → Window) : (s.updWindow l w f).clusters = s.clusters := rfl
@[simp] theorem State.updWindow_blocks (s : State) (l : BitVec 4) (w : BitVec 6) (f : Window → Window) : (s.updWindow l w f).blocks = s.blocks := rfl
@[simp] theorem State.updWindow_sectors (s : State) (l : BitVec 4) (w : BitVec 6) (f : Window → Window) : (s.updWindow l w f).sectors = s.sectors := rfl
@[simp] theorem State.updWindow_dies (s : State) (l : BitVec 4) (w : BitVec 6) (f : Window → Window) : (s.updWindow l w f).dies = s.dies := rfl
@[simp] theorem State.updWindow_quays (s : State) (l : BitVec 4) (w : BitVec 6) (f : Window → Window) : (s.updWindow l w f).quays = s.quays := rfl
@[simp] theorem State.updWindow_ports (s : State) (l : BitVec 4) (w : BitVec 6) (f : Window → Window) : (s.updWindow l w f).ports = s.ports := rfl
@[simp] theorem State.updWindow_mem (s : State) (l : BitVec 4) (w : BitVec 6) (f : Window → Window) : (s.updWindow l w f).mem = s.mem := rfl
@[simp] theorem State.updWindow_fe (s : State) (l : BitVec 4) (w : BitVec 6) (f : Window → Window) : (s.updWindow l w f).fe = s.fe := rfl
@[simp] theorem State.updWindow_poison (s : State) (l : BitVec 4) (w : BitVec 6) (f : Window → Window) : (s.updWindow l w f).poison = s.poison := rfl
@[simp] theorem State.updWindow_bkey (s : State) (l : BitVec 4) (w : BitVec 6) (f : Window → Window) : (s.updWindow l w f).bkey = s.bkey := rfl
@[simp] theorem State.updWindow_lines (s : State) (l : BitVec 4) (w : BitVec 6) (f : Window → Window) : (s.updWindow l w f).lines = s.lines := rfl
@[simp] theorem State.updWindow_exclusive (s : State) (l : BitVec 4) (w : BitVec 6) (f : Window → Window) : (s.updWindow l w f).exclusive = s.exclusive := rfl
@[simp] theorem State.updWindow_disabled (s : State) (l : BitVec 4) (w : BitVec 6) (f : Window → Window) : (s.updWindow l w f).disabled = s.disabled := rfl
@[simp] theorem State.updWindow_services (s : State) (l : BitVec 4) (w : BitVec 6) (f : Window → Window) : (s.updWindow l w f).services = s.services := rfl
@[simp] theorem State.updWindow_net (s : State) (l : BitVec 4) (w : BitVec 6) (f : Window → Window) : (s.updWindow l w f).net = s.net := rfl
@[simp] theorem State.updWindow_wire (s : State) (l : BitVec 4) (w : BitVec 6) (f : Window → Window) : (s.updWindow l w f).wire = s.wire := rfl
@[simp] theorem State.updWindow_seen (s : State) (l : BitVec 4) (w : BitVec 6) (f : Window → Window) : (s.updWindow l w f).seen = s.seen := rfl
@[simp] theorem State.updWindow_guests (s : State) (l : BitVec 4) (w : BitVec 6) (f : Window → Window) : (s.updWindow l w f).guests = s.guests := rfl
@[simp] theorem State.updWindow_weir (s : State) (l : BitVec 4) (w : BitVec 6) (f : Window → Window) : (s.updWindow l w f).weir = s.weir := rfl
@[simp] theorem State.updWindow_regions (s : State) (l : BitVec 4) (w : BitVec 6) (f : Window → Window) : (s.updWindow l w f).regions = s.regions := rfl
@[simp] theorem State.updWindow_weirOver (s : State) (l : BitVec 4) (w : BitVec 6) (f : Window → Window) : (s.updWindow l w f).weirOver = s.weirOver := rfl
@[simp] theorem State.updWindow_moorings (s : State) (l : BitVec 4) (w : BitVec 6) (f : Window → Window) : (s.updWindow l w f).moorings = s.moorings := rfl
@[simp] theorem State.updWindow_noCredit (s : State) (l : BitVec 4) (w : BitVec 6) (f : Window → Window) : (s.updWindow l w f).noCredit = s.noCredit := rfl
@[simp] theorem State.updWindow_launches (s : State) (l : BitVec 4) (w : BitVec 6) (f : Window → Window) : (s.updWindow l w f).launches = s.launches := rfl
@[simp] theorem State.updWindow_walks (s : State) (l : BitVec 4) (w : BitVec 6) (f : Window → Window) : (s.updWindow l w f).walks = s.walks := rfl
@[simp] theorem State.updWindow_prov (s : State) (l : BitVec 4) (w : BitVec 6) (f : Window → Window) : (s.updWindow l w f).prov = s.prov := rfl
@[simp] theorem State.updWindow_allocs (s : State) (l : BitVec 4) (w : BitVec 6) (f : Window → Window) : (s.updWindow l w f).allocs = s.allocs := rfl
@[simp] theorem State.updWindow_records (s : State) (l : BitVec 4) (w : BitVec 6) (f : Window → Window) : (s.updWindow l w f).records = s.records := rfl
@[simp] theorem State.updWindow_barriers (s : State) (l : BitVec 4) (w : BitVec 6) (f : Window → Window) : (s.updWindow l w f).barriers = s.barriers := rfl
@[simp] theorem State.updWindow_pginvs (s : State) (l : BitVec 4) (w : BitVec 6) (f : Window → Window) : (s.updWindow l w f).pginvs = s.pginvs := rfl
@[simp] theorem State.updWindow_migrations (s : State) (l : BitVec 4) (w : BitVec 6) (f : Window → Window) : (s.updWindow l w f).migrations = s.migrations := rfl
@[simp] theorem State.updWindow_allowOwed (s : State) (l : BitVec 4) (w : BitVec 6) (f : Window → Window) : (s.updWindow l w f).allowOwed = s.allowOwed := rfl
@[simp] theorem State.updWindow_owed (s : State) (l : BitVec 4) (w : BitVec 6) (f : Window → Window) : (s.updWindow l w f).owed = s.owed := rfl
@[simp] theorem State.updWindow_amends (s : State) (l : BitVec 4) (w : BitVec 6) (f : Window → Window) : (s.updWindow l w f).amends = s.amends := rfl
@[simp] theorem State.updWindow_saved (s : State) (l : BitVec 4) (w : BitVec 6) (f : Window → Window) : (s.updWindow l w f).saved = s.saved := rfl
@[simp] theorem State.updWindow_encKey (s : State) (l : BitVec 4) (w : BitVec 6) (f : Window → Window) : (s.updWindow l w f).encKey = s.encKey := rfl
@[simp] theorem State.updWindow_gangBars (s : State) (l : BitVec 4) (w : BitVec 6) (f : Window → Window) : (s.updWindow l w f).gangBars = s.gangBars := rfl
@[simp] theorem State.updWindow_gangHeld (s : State) (l : BitVec 4) (w : BitVec 6) (f : Window → Window) : (s.updWindow l w f).gangHeld = s.gangHeld := rfl
@[simp] theorem State.updWindow_msix (s : State) (l : BitVec 4) (w : BitVec 6) (f : Window → Window) : (s.updWindow l w f).msix = s.msix := rfl
@[simp] theorem State.updWindow_rcbWindow (s : State) (l : BitVec 4) (w : BitVec 6) (f : Window → Window) : (s.updWindow l w f).rcbWindow = s.rcbWindow := rfl
@[simp] theorem State.updWindow_partitions (s : State) (l : BitVec 4) (w : BitVec 6) (f : Window → Window) : (s.updWindow l w f).partitions = s.partitions := rfl
@[simp] theorem State.updWindow_hostData (s : State) (l : BitVec 4) (w : BitVec 6) (f : Window → Window) : (s.updWindow l w f).hostData = s.hostData := rfl
@[simp] theorem State.updWindow_hostPoison (s : State) (l : BitVec 4) (w : BitVec 6) (f : Window → Window) : (s.updWindow l w f).hostPoison = s.hostPoison := rfl
@[simp] theorem State.updWindow_ctrlLog (s : State) (l : BitVec 4) (w : BitVec 6) (f : Window → Window) : (s.updWindow l w f).ctrlLog = s.ctrlLog := rfl
@[simp] theorem State.updWindow_boot (s : State) (l : BitVec 4) (w : BitVec 6) (f : Window → Window) : (s.updWindow l w f).boot = s.boot := rfl
@[simp] theorem State.updWindow_bring (s : State) (l : BitVec 4) (w : BitVec 6) (f : Window → Window) : (s.updWindow l w f).bring = s.bring := rfl

@[simp] theorem State.ws_cur (s : State) (r : SReg) (x : Word) : (s.ws r x).cur = s.cur := rfl
@[simp] theorem State.ws_turns (s : State) (r : SReg) (x : Word) : (s.ws r x).turns = s.turns := rfl
@[simp] theorem State.ws_slow (s : State) (r : SReg) (x : Word) : (s.ws r x).slow = s.slow := rfl
@[simp] theorem State.ws_breakAt (s : State) (r : SReg) (x : Word) : (s.ws r x).breakAt = s.breakAt := rfl
@[simp] theorem State.ws_free (s : State) (r : SReg) (x : Word) : (s.ws r x).free = s.free := rfl
@[simp] theorem State.ws_nextId (s : State) (r : SReg) (x : Word) : (s.ws r x).nextId = s.nextId := rfl
@[simp] theorem State.ws_modu (s : State) (r : SReg) (x : Word) : (s.ws r x).modu = s.modu := rfl
@[simp] theorem State.ws_clusters (s : State) (r : SReg) (x : Word) : (s.ws r x).clusters = s.clusters := rfl
@[simp] theorem State.ws_blocks (s : State) (r : SReg) (x : Word) : (s.ws r x).blocks = s.blocks := rfl
@[simp] theorem State.ws_sectors (s : State) (r : SReg) (x : Word) : (s.ws r x).sectors = s.sectors := rfl
@[simp] theorem State.ws_dies (s : State) (r : SReg) (x : Word) : (s.ws r x).dies = s.dies := rfl
@[simp] theorem State.ws_quays (s : State) (r : SReg) (x : Word) : (s.ws r x).quays = s.quays := rfl
@[simp] theorem State.ws_ports (s : State) (r : SReg) (x : Word) : (s.ws r x).ports = s.ports := rfl
@[simp] theorem State.ws_mem (s : State) (r : SReg) (x : Word) : (s.ws r x).mem = s.mem := rfl
@[simp] theorem State.ws_fe (s : State) (r : SReg) (x : Word) : (s.ws r x).fe = s.fe := rfl
@[simp] theorem State.ws_poison (s : State) (r : SReg) (x : Word) : (s.ws r x).poison = s.poison := rfl
@[simp] theorem State.ws_bkey (s : State) (r : SReg) (x : Word) : (s.ws r x).bkey = s.bkey := rfl
@[simp] theorem State.ws_lines (s : State) (r : SReg) (x : Word) : (s.ws r x).lines = s.lines := rfl
@[simp] theorem State.ws_exclusive (s : State) (r : SReg) (x : Word) : (s.ws r x).exclusive = s.exclusive := rfl
@[simp] theorem State.ws_disabled (s : State) (r : SReg) (x : Word) : (s.ws r x).disabled = s.disabled := rfl
@[simp] theorem State.ws_services (s : State) (r : SReg) (x : Word) : (s.ws r x).services = s.services := rfl
@[simp] theorem State.ws_net (s : State) (r : SReg) (x : Word) : (s.ws r x).net = s.net := rfl
@[simp] theorem State.ws_wire (s : State) (r : SReg) (x : Word) : (s.ws r x).wire = s.wire := rfl
@[simp] theorem State.ws_seen (s : State) (r : SReg) (x : Word) : (s.ws r x).seen = s.seen := rfl
@[simp] theorem State.ws_guests (s : State) (r : SReg) (x : Word) : (s.ws r x).guests = s.guests := rfl
@[simp] theorem State.ws_weir (s : State) (r : SReg) (x : Word) : (s.ws r x).weir = s.weir := rfl
@[simp] theorem State.ws_regions (s : State) (r : SReg) (x : Word) : (s.ws r x).regions = s.regions := rfl
@[simp] theorem State.ws_weirOver (s : State) (r : SReg) (x : Word) : (s.ws r x).weirOver = s.weirOver := rfl
@[simp] theorem State.ws_moorings (s : State) (r : SReg) (x : Word) : (s.ws r x).moorings = s.moorings := rfl
@[simp] theorem State.ws_noCredit (s : State) (r : SReg) (x : Word) : (s.ws r x).noCredit = s.noCredit := rfl
@[simp] theorem State.ws_launches (s : State) (r : SReg) (x : Word) : (s.ws r x).launches = s.launches := rfl
@[simp] theorem State.ws_walks (s : State) (r : SReg) (x : Word) : (s.ws r x).walks = s.walks := rfl
@[simp] theorem State.ws_prov (s : State) (r : SReg) (x : Word) : (s.ws r x).prov = s.prov := rfl
@[simp] theorem State.ws_allocs (s : State) (r : SReg) (x : Word) : (s.ws r x).allocs = s.allocs := rfl
@[simp] theorem State.ws_records (s : State) (r : SReg) (x : Word) : (s.ws r x).records = s.records := rfl
@[simp] theorem State.ws_barriers (s : State) (r : SReg) (x : Word) : (s.ws r x).barriers = s.barriers := rfl
@[simp] theorem State.ws_pginvs (s : State) (r : SReg) (x : Word) : (s.ws r x).pginvs = s.pginvs := rfl
@[simp] theorem State.ws_migrations (s : State) (r : SReg) (x : Word) : (s.ws r x).migrations = s.migrations := rfl
@[simp] theorem State.ws_allowOwed (s : State) (r : SReg) (x : Word) : (s.ws r x).allowOwed = s.allowOwed := rfl
@[simp] theorem State.ws_owed (s : State) (r : SReg) (x : Word) : (s.ws r x).owed = s.owed := rfl
@[simp] theorem State.ws_amends (s : State) (r : SReg) (x : Word) : (s.ws r x).amends = s.amends := rfl
@[simp] theorem State.ws_saved (s : State) (r : SReg) (x : Word) : (s.ws r x).saved = s.saved := rfl
@[simp] theorem State.ws_encKey (s : State) (r : SReg) (x : Word) : (s.ws r x).encKey = s.encKey := rfl
@[simp] theorem State.ws_gangBars (s : State) (r : SReg) (x : Word) : (s.ws r x).gangBars = s.gangBars := rfl
@[simp] theorem State.ws_gangHeld (s : State) (r : SReg) (x : Word) : (s.ws r x).gangHeld = s.gangHeld := rfl
@[simp] theorem State.ws_windows (s : State) (r : SReg) (x : Word) : (s.ws r x).windows = s.windows := rfl
@[simp] theorem State.ws_msix (s : State) (r : SReg) (x : Word) : (s.ws r x).msix = s.msix := rfl
@[simp] theorem State.ws_rcbWindow (s : State) (r : SReg) (x : Word) : (s.ws r x).rcbWindow = s.rcbWindow := rfl
@[simp] theorem State.ws_partitions (s : State) (r : SReg) (x : Word) : (s.ws r x).partitions = s.partitions := rfl
@[simp] theorem State.ws_hostData (s : State) (r : SReg) (x : Word) : (s.ws r x).hostData = s.hostData := rfl
@[simp] theorem State.ws_hostPoison (s : State) (r : SReg) (x : Word) : (s.ws r x).hostPoison = s.hostPoison := rfl
@[simp] theorem State.ws_ctrlLog (s : State) (r : SReg) (x : Word) : (s.ws r x).ctrlLog = s.ctrlLog := rfl
@[simp] theorem State.ws_boot (s : State) (r : SReg) (x : Word) : (s.ws r x).boot = s.boot := rfl
@[simp] theorem State.ws_bring (s : State) (r : SReg) (x : Word) : (s.ws r x).bring = s.bring := rfl

@[simp] theorem State.wv_cur (s : State) (r : VReg) (x : Vec) : (s.wv r x).cur = s.cur := rfl
@[simp] theorem State.wv_turns (s : State) (r : VReg) (x : Vec) : (s.wv r x).turns = s.turns := rfl
@[simp] theorem State.wv_slow (s : State) (r : VReg) (x : Vec) : (s.wv r x).slow = s.slow := rfl
@[simp] theorem State.wv_breakAt (s : State) (r : VReg) (x : Vec) : (s.wv r x).breakAt = s.breakAt := rfl
@[simp] theorem State.wv_free (s : State) (r : VReg) (x : Vec) : (s.wv r x).free = s.free := rfl
@[simp] theorem State.wv_nextId (s : State) (r : VReg) (x : Vec) : (s.wv r x).nextId = s.nextId := rfl
@[simp] theorem State.wv_modu (s : State) (r : VReg) (x : Vec) : (s.wv r x).modu = s.modu := rfl
@[simp] theorem State.wv_clusters (s : State) (r : VReg) (x : Vec) : (s.wv r x).clusters = s.clusters := rfl
@[simp] theorem State.wv_blocks (s : State) (r : VReg) (x : Vec) : (s.wv r x).blocks = s.blocks := rfl
@[simp] theorem State.wv_sectors (s : State) (r : VReg) (x : Vec) : (s.wv r x).sectors = s.sectors := rfl
@[simp] theorem State.wv_dies (s : State) (r : VReg) (x : Vec) : (s.wv r x).dies = s.dies := rfl
@[simp] theorem State.wv_quays (s : State) (r : VReg) (x : Vec) : (s.wv r x).quays = s.quays := rfl
@[simp] theorem State.wv_ports (s : State) (r : VReg) (x : Vec) : (s.wv r x).ports = s.ports := rfl
@[simp] theorem State.wv_mem (s : State) (r : VReg) (x : Vec) : (s.wv r x).mem = s.mem := rfl
@[simp] theorem State.wv_fe (s : State) (r : VReg) (x : Vec) : (s.wv r x).fe = s.fe := rfl
@[simp] theorem State.wv_poison (s : State) (r : VReg) (x : Vec) : (s.wv r x).poison = s.poison := rfl
@[simp] theorem State.wv_bkey (s : State) (r : VReg) (x : Vec) : (s.wv r x).bkey = s.bkey := rfl
@[simp] theorem State.wv_lines (s : State) (r : VReg) (x : Vec) : (s.wv r x).lines = s.lines := rfl
@[simp] theorem State.wv_exclusive (s : State) (r : VReg) (x : Vec) : (s.wv r x).exclusive = s.exclusive := rfl
@[simp] theorem State.wv_disabled (s : State) (r : VReg) (x : Vec) : (s.wv r x).disabled = s.disabled := rfl
@[simp] theorem State.wv_services (s : State) (r : VReg) (x : Vec) : (s.wv r x).services = s.services := rfl
@[simp] theorem State.wv_net (s : State) (r : VReg) (x : Vec) : (s.wv r x).net = s.net := rfl
@[simp] theorem State.wv_wire (s : State) (r : VReg) (x : Vec) : (s.wv r x).wire = s.wire := rfl
@[simp] theorem State.wv_seen (s : State) (r : VReg) (x : Vec) : (s.wv r x).seen = s.seen := rfl
@[simp] theorem State.wv_guests (s : State) (r : VReg) (x : Vec) : (s.wv r x).guests = s.guests := rfl
@[simp] theorem State.wv_weir (s : State) (r : VReg) (x : Vec) : (s.wv r x).weir = s.weir := rfl
@[simp] theorem State.wv_regions (s : State) (r : VReg) (x : Vec) : (s.wv r x).regions = s.regions := rfl
@[simp] theorem State.wv_weirOver (s : State) (r : VReg) (x : Vec) : (s.wv r x).weirOver = s.weirOver := rfl
@[simp] theorem State.wv_moorings (s : State) (r : VReg) (x : Vec) : (s.wv r x).moorings = s.moorings := rfl
@[simp] theorem State.wv_noCredit (s : State) (r : VReg) (x : Vec) : (s.wv r x).noCredit = s.noCredit := rfl
@[simp] theorem State.wv_launches (s : State) (r : VReg) (x : Vec) : (s.wv r x).launches = s.launches := rfl
@[simp] theorem State.wv_walks (s : State) (r : VReg) (x : Vec) : (s.wv r x).walks = s.walks := rfl
@[simp] theorem State.wv_prov (s : State) (r : VReg) (x : Vec) : (s.wv r x).prov = s.prov := rfl
@[simp] theorem State.wv_allocs (s : State) (r : VReg) (x : Vec) : (s.wv r x).allocs = s.allocs := rfl
@[simp] theorem State.wv_records (s : State) (r : VReg) (x : Vec) : (s.wv r x).records = s.records := rfl
@[simp] theorem State.wv_barriers (s : State) (r : VReg) (x : Vec) : (s.wv r x).barriers = s.barriers := rfl
@[simp] theorem State.wv_pginvs (s : State) (r : VReg) (x : Vec) : (s.wv r x).pginvs = s.pginvs := rfl
@[simp] theorem State.wv_migrations (s : State) (r : VReg) (x : Vec) : (s.wv r x).migrations = s.migrations := rfl
@[simp] theorem State.wv_allowOwed (s : State) (r : VReg) (x : Vec) : (s.wv r x).allowOwed = s.allowOwed := rfl
@[simp] theorem State.wv_owed (s : State) (r : VReg) (x : Vec) : (s.wv r x).owed = s.owed := rfl
@[simp] theorem State.wv_amends (s : State) (r : VReg) (x : Vec) : (s.wv r x).amends = s.amends := rfl
@[simp] theorem State.wv_saved (s : State) (r : VReg) (x : Vec) : (s.wv r x).saved = s.saved := rfl
@[simp] theorem State.wv_encKey (s : State) (r : VReg) (x : Vec) : (s.wv r x).encKey = s.encKey := rfl
@[simp] theorem State.wv_gangBars (s : State) (r : VReg) (x : Vec) : (s.wv r x).gangBars = s.gangBars := rfl
@[simp] theorem State.wv_gangHeld (s : State) (r : VReg) (x : Vec) : (s.wv r x).gangHeld = s.gangHeld := rfl
@[simp] theorem State.wv_windows (s : State) (r : VReg) (x : Vec) : (s.wv r x).windows = s.windows := rfl
@[simp] theorem State.wv_msix (s : State) (r : VReg) (x : Vec) : (s.wv r x).msix = s.msix := rfl
@[simp] theorem State.wv_rcbWindow (s : State) (r : VReg) (x : Vec) : (s.wv r x).rcbWindow = s.rcbWindow := rfl
@[simp] theorem State.wv_partitions (s : State) (r : VReg) (x : Vec) : (s.wv r x).partitions = s.partitions := rfl
@[simp] theorem State.wv_hostData (s : State) (r : VReg) (x : Vec) : (s.wv r x).hostData = s.hostData := rfl
@[simp] theorem State.wv_hostPoison (s : State) (r : VReg) (x : Vec) : (s.wv r x).hostPoison = s.hostPoison := rfl
@[simp] theorem State.wv_ctrlLog (s : State) (r : VReg) (x : Vec) : (s.wv r x).ctrlLog = s.ctrlLog := rfl
@[simp] theorem State.wv_boot (s : State) (r : VReg) (x : Vec) : (s.wv r x).boot = s.boot := rfl
@[simp] theorem State.wv_bring (s : State) (r : VReg) (x : Vec) : (s.wv r x).bring = s.bring := rfl

@[simp] theorem State.wb_cur (s : State) (r : BReg) (x : Word) : (s.wb r x).cur = s.cur := rfl
@[simp] theorem State.wb_turns (s : State) (r : BReg) (x : Word) : (s.wb r x).turns = s.turns := rfl
@[simp] theorem State.wb_slow (s : State) (r : BReg) (x : Word) : (s.wb r x).slow = s.slow := rfl
@[simp] theorem State.wb_breakAt (s : State) (r : BReg) (x : Word) : (s.wb r x).breakAt = s.breakAt := rfl
@[simp] theorem State.wb_free (s : State) (r : BReg) (x : Word) : (s.wb r x).free = s.free := rfl
@[simp] theorem State.wb_nextId (s : State) (r : BReg) (x : Word) : (s.wb r x).nextId = s.nextId := rfl
@[simp] theorem State.wb_modu (s : State) (r : BReg) (x : Word) : (s.wb r x).modu = s.modu := rfl
@[simp] theorem State.wb_clusters (s : State) (r : BReg) (x : Word) : (s.wb r x).clusters = s.clusters := rfl
@[simp] theorem State.wb_blocks (s : State) (r : BReg) (x : Word) : (s.wb r x).blocks = s.blocks := rfl
@[simp] theorem State.wb_sectors (s : State) (r : BReg) (x : Word) : (s.wb r x).sectors = s.sectors := rfl
@[simp] theorem State.wb_dies (s : State) (r : BReg) (x : Word) : (s.wb r x).dies = s.dies := rfl
@[simp] theorem State.wb_quays (s : State) (r : BReg) (x : Word) : (s.wb r x).quays = s.quays := rfl
@[simp] theorem State.wb_ports (s : State) (r : BReg) (x : Word) : (s.wb r x).ports = s.ports := rfl
@[simp] theorem State.wb_mem (s : State) (r : BReg) (x : Word) : (s.wb r x).mem = s.mem := rfl
@[simp] theorem State.wb_fe (s : State) (r : BReg) (x : Word) : (s.wb r x).fe = s.fe := rfl
@[simp] theorem State.wb_poison (s : State) (r : BReg) (x : Word) : (s.wb r x).poison = s.poison := rfl
@[simp] theorem State.wb_bkey (s : State) (r : BReg) (x : Word) : (s.wb r x).bkey = s.bkey := rfl
@[simp] theorem State.wb_lines (s : State) (r : BReg) (x : Word) : (s.wb r x).lines = s.lines := rfl
@[simp] theorem State.wb_exclusive (s : State) (r : BReg) (x : Word) : (s.wb r x).exclusive = s.exclusive := rfl
@[simp] theorem State.wb_disabled (s : State) (r : BReg) (x : Word) : (s.wb r x).disabled = s.disabled := rfl
@[simp] theorem State.wb_services (s : State) (r : BReg) (x : Word) : (s.wb r x).services = s.services := rfl
@[simp] theorem State.wb_net (s : State) (r : BReg) (x : Word) : (s.wb r x).net = s.net := rfl
@[simp] theorem State.wb_wire (s : State) (r : BReg) (x : Word) : (s.wb r x).wire = s.wire := rfl
@[simp] theorem State.wb_seen (s : State) (r : BReg) (x : Word) : (s.wb r x).seen = s.seen := rfl
@[simp] theorem State.wb_guests (s : State) (r : BReg) (x : Word) : (s.wb r x).guests = s.guests := rfl
@[simp] theorem State.wb_weir (s : State) (r : BReg) (x : Word) : (s.wb r x).weir = s.weir := rfl
@[simp] theorem State.wb_regions (s : State) (r : BReg) (x : Word) : (s.wb r x).regions = s.regions := rfl
@[simp] theorem State.wb_weirOver (s : State) (r : BReg) (x : Word) : (s.wb r x).weirOver = s.weirOver := rfl
@[simp] theorem State.wb_moorings (s : State) (r : BReg) (x : Word) : (s.wb r x).moorings = s.moorings := rfl
@[simp] theorem State.wb_noCredit (s : State) (r : BReg) (x : Word) : (s.wb r x).noCredit = s.noCredit := rfl
@[simp] theorem State.wb_launches (s : State) (r : BReg) (x : Word) : (s.wb r x).launches = s.launches := rfl
@[simp] theorem State.wb_walks (s : State) (r : BReg) (x : Word) : (s.wb r x).walks = s.walks := rfl
@[simp] theorem State.wb_prov (s : State) (r : BReg) (x : Word) : (s.wb r x).prov = s.prov := rfl
@[simp] theorem State.wb_allocs (s : State) (r : BReg) (x : Word) : (s.wb r x).allocs = s.allocs := rfl
@[simp] theorem State.wb_records (s : State) (r : BReg) (x : Word) : (s.wb r x).records = s.records := rfl
@[simp] theorem State.wb_barriers (s : State) (r : BReg) (x : Word) : (s.wb r x).barriers = s.barriers := rfl
@[simp] theorem State.wb_pginvs (s : State) (r : BReg) (x : Word) : (s.wb r x).pginvs = s.pginvs := rfl
@[simp] theorem State.wb_migrations (s : State) (r : BReg) (x : Word) : (s.wb r x).migrations = s.migrations := rfl
@[simp] theorem State.wb_allowOwed (s : State) (r : BReg) (x : Word) : (s.wb r x).allowOwed = s.allowOwed := rfl
@[simp] theorem State.wb_owed (s : State) (r : BReg) (x : Word) : (s.wb r x).owed = s.owed := rfl
@[simp] theorem State.wb_amends (s : State) (r : BReg) (x : Word) : (s.wb r x).amends = s.amends := rfl
@[simp] theorem State.wb_saved (s : State) (r : BReg) (x : Word) : (s.wb r x).saved = s.saved := rfl
@[simp] theorem State.wb_encKey (s : State) (r : BReg) (x : Word) : (s.wb r x).encKey = s.encKey := rfl
@[simp] theorem State.wb_gangBars (s : State) (r : BReg) (x : Word) : (s.wb r x).gangBars = s.gangBars := rfl
@[simp] theorem State.wb_gangHeld (s : State) (r : BReg) (x : Word) : (s.wb r x).gangHeld = s.gangHeld := rfl
@[simp] theorem State.wb_windows (s : State) (r : BReg) (x : Word) : (s.wb r x).windows = s.windows := rfl
@[simp] theorem State.wb_msix (s : State) (r : BReg) (x : Word) : (s.wb r x).msix = s.msix := rfl
@[simp] theorem State.wb_rcbWindow (s : State) (r : BReg) (x : Word) : (s.wb r x).rcbWindow = s.rcbWindow := rfl
@[simp] theorem State.wb_partitions (s : State) (r : BReg) (x : Word) : (s.wb r x).partitions = s.partitions := rfl
@[simp] theorem State.wb_hostData (s : State) (r : BReg) (x : Word) : (s.wb r x).hostData = s.hostData := rfl
@[simp] theorem State.wb_hostPoison (s : State) (r : BReg) (x : Word) : (s.wb r x).hostPoison = s.hostPoison := rfl
@[simp] theorem State.wb_ctrlLog (s : State) (r : BReg) (x : Word) : (s.wb r x).ctrlLog = s.ctrlLog := rfl
@[simp] theorem State.wb_boot (s : State) (r : BReg) (x : Word) : (s.wb r x).boot = s.boot := rfl
@[simp] theorem State.wb_bring (s : State) (r : BReg) (x : Word) : (s.wb r x).bring = s.bring := rfl

@[simp] theorem State.wh_cur (s : State) (r : HReg) (x : Hv) : (s.wh r x).cur = s.cur := rfl
@[simp] theorem State.wh_turns (s : State) (r : HReg) (x : Hv) : (s.wh r x).turns = s.turns := rfl
@[simp] theorem State.wh_slow (s : State) (r : HReg) (x : Hv) : (s.wh r x).slow = s.slow := rfl
@[simp] theorem State.wh_breakAt (s : State) (r : HReg) (x : Hv) : (s.wh r x).breakAt = s.breakAt := rfl
@[simp] theorem State.wh_free (s : State) (r : HReg) (x : Hv) : (s.wh r x).free = s.free := rfl
@[simp] theorem State.wh_nextId (s : State) (r : HReg) (x : Hv) : (s.wh r x).nextId = s.nextId := rfl
@[simp] theorem State.wh_modu (s : State) (r : HReg) (x : Hv) : (s.wh r x).modu = s.modu := rfl
@[simp] theorem State.wh_clusters (s : State) (r : HReg) (x : Hv) : (s.wh r x).clusters = s.clusters := rfl
@[simp] theorem State.wh_blocks (s : State) (r : HReg) (x : Hv) : (s.wh r x).blocks = s.blocks := rfl
@[simp] theorem State.wh_sectors (s : State) (r : HReg) (x : Hv) : (s.wh r x).sectors = s.sectors := rfl
@[simp] theorem State.wh_dies (s : State) (r : HReg) (x : Hv) : (s.wh r x).dies = s.dies := rfl
@[simp] theorem State.wh_quays (s : State) (r : HReg) (x : Hv) : (s.wh r x).quays = s.quays := rfl
@[simp] theorem State.wh_ports (s : State) (r : HReg) (x : Hv) : (s.wh r x).ports = s.ports := rfl
@[simp] theorem State.wh_mem (s : State) (r : HReg) (x : Hv) : (s.wh r x).mem = s.mem := rfl
@[simp] theorem State.wh_fe (s : State) (r : HReg) (x : Hv) : (s.wh r x).fe = s.fe := rfl
@[simp] theorem State.wh_poison (s : State) (r : HReg) (x : Hv) : (s.wh r x).poison = s.poison := rfl
@[simp] theorem State.wh_bkey (s : State) (r : HReg) (x : Hv) : (s.wh r x).bkey = s.bkey := rfl
@[simp] theorem State.wh_lines (s : State) (r : HReg) (x : Hv) : (s.wh r x).lines = s.lines := rfl
@[simp] theorem State.wh_exclusive (s : State) (r : HReg) (x : Hv) : (s.wh r x).exclusive = s.exclusive := rfl
@[simp] theorem State.wh_disabled (s : State) (r : HReg) (x : Hv) : (s.wh r x).disabled = s.disabled := rfl
@[simp] theorem State.wh_services (s : State) (r : HReg) (x : Hv) : (s.wh r x).services = s.services := rfl
@[simp] theorem State.wh_net (s : State) (r : HReg) (x : Hv) : (s.wh r x).net = s.net := rfl
@[simp] theorem State.wh_wire (s : State) (r : HReg) (x : Hv) : (s.wh r x).wire = s.wire := rfl
@[simp] theorem State.wh_seen (s : State) (r : HReg) (x : Hv) : (s.wh r x).seen = s.seen := rfl
@[simp] theorem State.wh_guests (s : State) (r : HReg) (x : Hv) : (s.wh r x).guests = s.guests := rfl
@[simp] theorem State.wh_weir (s : State) (r : HReg) (x : Hv) : (s.wh r x).weir = s.weir := rfl
@[simp] theorem State.wh_regions (s : State) (r : HReg) (x : Hv) : (s.wh r x).regions = s.regions := rfl
@[simp] theorem State.wh_weirOver (s : State) (r : HReg) (x : Hv) : (s.wh r x).weirOver = s.weirOver := rfl
@[simp] theorem State.wh_moorings (s : State) (r : HReg) (x : Hv) : (s.wh r x).moorings = s.moorings := rfl
@[simp] theorem State.wh_noCredit (s : State) (r : HReg) (x : Hv) : (s.wh r x).noCredit = s.noCredit := rfl
@[simp] theorem State.wh_launches (s : State) (r : HReg) (x : Hv) : (s.wh r x).launches = s.launches := rfl
@[simp] theorem State.wh_walks (s : State) (r : HReg) (x : Hv) : (s.wh r x).walks = s.walks := rfl
@[simp] theorem State.wh_prov (s : State) (r : HReg) (x : Hv) : (s.wh r x).prov = s.prov := rfl
@[simp] theorem State.wh_allocs (s : State) (r : HReg) (x : Hv) : (s.wh r x).allocs = s.allocs := rfl
@[simp] theorem State.wh_records (s : State) (r : HReg) (x : Hv) : (s.wh r x).records = s.records := rfl
@[simp] theorem State.wh_barriers (s : State) (r : HReg) (x : Hv) : (s.wh r x).barriers = s.barriers := rfl
@[simp] theorem State.wh_pginvs (s : State) (r : HReg) (x : Hv) : (s.wh r x).pginvs = s.pginvs := rfl
@[simp] theorem State.wh_migrations (s : State) (r : HReg) (x : Hv) : (s.wh r x).migrations = s.migrations := rfl
@[simp] theorem State.wh_allowOwed (s : State) (r : HReg) (x : Hv) : (s.wh r x).allowOwed = s.allowOwed := rfl
@[simp] theorem State.wh_owed (s : State) (r : HReg) (x : Hv) : (s.wh r x).owed = s.owed := rfl
@[simp] theorem State.wh_amends (s : State) (r : HReg) (x : Hv) : (s.wh r x).amends = s.amends := rfl
@[simp] theorem State.wh_saved (s : State) (r : HReg) (x : Hv) : (s.wh r x).saved = s.saved := rfl
@[simp] theorem State.wh_encKey (s : State) (r : HReg) (x : Hv) : (s.wh r x).encKey = s.encKey := rfl
@[simp] theorem State.wh_gangBars (s : State) (r : HReg) (x : Hv) : (s.wh r x).gangBars = s.gangBars := rfl
@[simp] theorem State.wh_gangHeld (s : State) (r : HReg) (x : Hv) : (s.wh r x).gangHeld = s.gangHeld := rfl
@[simp] theorem State.wh_windows (s : State) (r : HReg) (x : Hv) : (s.wh r x).windows = s.windows := rfl
@[simp] theorem State.wh_msix (s : State) (r : HReg) (x : Hv) : (s.wh r x).msix = s.msix := rfl
@[simp] theorem State.wh_rcbWindow (s : State) (r : HReg) (x : Hv) : (s.wh r x).rcbWindow = s.rcbWindow := rfl
@[simp] theorem State.wh_partitions (s : State) (r : HReg) (x : Hv) : (s.wh r x).partitions = s.partitions := rfl
@[simp] theorem State.wh_hostData (s : State) (r : HReg) (x : Hv) : (s.wh r x).hostData = s.hostData := rfl
@[simp] theorem State.wh_hostPoison (s : State) (r : HReg) (x : Hv) : (s.wh r x).hostPoison = s.hostPoison := rfl
@[simp] theorem State.wh_ctrlLog (s : State) (r : HReg) (x : Hv) : (s.wh r x).ctrlLog = s.ctrlLog := rfl
@[simp] theorem State.wh_boot (s : State) (r : HReg) (x : Hv) : (s.wh r x).boot = s.boot := rfl
@[simp] theorem State.wh_bring (s : State) (r : HReg) (x : Hv) : (s.wh r x).bring = s.bring := rfl

@[simp] theorem State.setPc_cur (s : State) (a : BitVec 56) : (s.setPc a).cur = s.cur := rfl
@[simp] theorem State.setPc_turns (s : State) (a : BitVec 56) : (s.setPc a).turns = s.turns := rfl
@[simp] theorem State.setPc_slow (s : State) (a : BitVec 56) : (s.setPc a).slow = s.slow := rfl
@[simp] theorem State.setPc_breakAt (s : State) (a : BitVec 56) : (s.setPc a).breakAt = s.breakAt := rfl
@[simp] theorem State.setPc_free (s : State) (a : BitVec 56) : (s.setPc a).free = s.free := rfl
@[simp] theorem State.setPc_nextId (s : State) (a : BitVec 56) : (s.setPc a).nextId = s.nextId := rfl
@[simp] theorem State.setPc_modu (s : State) (a : BitVec 56) : (s.setPc a).modu = s.modu := rfl
@[simp] theorem State.setPc_clusters (s : State) (a : BitVec 56) : (s.setPc a).clusters = s.clusters := rfl
@[simp] theorem State.setPc_blocks (s : State) (a : BitVec 56) : (s.setPc a).blocks = s.blocks := rfl
@[simp] theorem State.setPc_sectors (s : State) (a : BitVec 56) : (s.setPc a).sectors = s.sectors := rfl
@[simp] theorem State.setPc_dies (s : State) (a : BitVec 56) : (s.setPc a).dies = s.dies := rfl
@[simp] theorem State.setPc_quays (s : State) (a : BitVec 56) : (s.setPc a).quays = s.quays := rfl
@[simp] theorem State.setPc_ports (s : State) (a : BitVec 56) : (s.setPc a).ports = s.ports := rfl
@[simp] theorem State.setPc_mem (s : State) (a : BitVec 56) : (s.setPc a).mem = s.mem := rfl
@[simp] theorem State.setPc_fe (s : State) (a : BitVec 56) : (s.setPc a).fe = s.fe := rfl
@[simp] theorem State.setPc_poison (s : State) (a : BitVec 56) : (s.setPc a).poison = s.poison := rfl
@[simp] theorem State.setPc_bkey (s : State) (a : BitVec 56) : (s.setPc a).bkey = s.bkey := rfl
@[simp] theorem State.setPc_lines (s : State) (a : BitVec 56) : (s.setPc a).lines = s.lines := rfl
@[simp] theorem State.setPc_exclusive (s : State) (a : BitVec 56) : (s.setPc a).exclusive = s.exclusive := rfl
@[simp] theorem State.setPc_disabled (s : State) (a : BitVec 56) : (s.setPc a).disabled = s.disabled := rfl
@[simp] theorem State.setPc_services (s : State) (a : BitVec 56) : (s.setPc a).services = s.services := rfl
@[simp] theorem State.setPc_net (s : State) (a : BitVec 56) : (s.setPc a).net = s.net := rfl
@[simp] theorem State.setPc_wire (s : State) (a : BitVec 56) : (s.setPc a).wire = s.wire := rfl
@[simp] theorem State.setPc_seen (s : State) (a : BitVec 56) : (s.setPc a).seen = s.seen := rfl
@[simp] theorem State.setPc_guests (s : State) (a : BitVec 56) : (s.setPc a).guests = s.guests := rfl
@[simp] theorem State.setPc_weir (s : State) (a : BitVec 56) : (s.setPc a).weir = s.weir := rfl
@[simp] theorem State.setPc_regions (s : State) (a : BitVec 56) : (s.setPc a).regions = s.regions := rfl
@[simp] theorem State.setPc_weirOver (s : State) (a : BitVec 56) : (s.setPc a).weirOver = s.weirOver := rfl
@[simp] theorem State.setPc_moorings (s : State) (a : BitVec 56) : (s.setPc a).moorings = s.moorings := rfl
@[simp] theorem State.setPc_noCredit (s : State) (a : BitVec 56) : (s.setPc a).noCredit = s.noCredit := rfl
@[simp] theorem State.setPc_launches (s : State) (a : BitVec 56) : (s.setPc a).launches = s.launches := rfl
@[simp] theorem State.setPc_walks (s : State) (a : BitVec 56) : (s.setPc a).walks = s.walks := rfl
@[simp] theorem State.setPc_prov (s : State) (a : BitVec 56) : (s.setPc a).prov = s.prov := rfl
@[simp] theorem State.setPc_allocs (s : State) (a : BitVec 56) : (s.setPc a).allocs = s.allocs := rfl
@[simp] theorem State.setPc_records (s : State) (a : BitVec 56) : (s.setPc a).records = s.records := rfl
@[simp] theorem State.setPc_barriers (s : State) (a : BitVec 56) : (s.setPc a).barriers = s.barriers := rfl
@[simp] theorem State.setPc_pginvs (s : State) (a : BitVec 56) : (s.setPc a).pginvs = s.pginvs := rfl
@[simp] theorem State.setPc_migrations (s : State) (a : BitVec 56) : (s.setPc a).migrations = s.migrations := rfl
@[simp] theorem State.setPc_allowOwed (s : State) (a : BitVec 56) : (s.setPc a).allowOwed = s.allowOwed := rfl
@[simp] theorem State.setPc_owed (s : State) (a : BitVec 56) : (s.setPc a).owed = s.owed := rfl
@[simp] theorem State.setPc_amends (s : State) (a : BitVec 56) : (s.setPc a).amends = s.amends := rfl
@[simp] theorem State.setPc_saved (s : State) (a : BitVec 56) : (s.setPc a).saved = s.saved := rfl
@[simp] theorem State.setPc_encKey (s : State) (a : BitVec 56) : (s.setPc a).encKey = s.encKey := rfl
@[simp] theorem State.setPc_gangBars (s : State) (a : BitVec 56) : (s.setPc a).gangBars = s.gangBars := rfl
@[simp] theorem State.setPc_gangHeld (s : State) (a : BitVec 56) : (s.setPc a).gangHeld = s.gangHeld := rfl
@[simp] theorem State.setPc_windows (s : State) (a : BitVec 56) : (s.setPc a).windows = s.windows := rfl
@[simp] theorem State.setPc_msix (s : State) (a : BitVec 56) : (s.setPc a).msix = s.msix := rfl
@[simp] theorem State.setPc_rcbWindow (s : State) (a : BitVec 56) : (s.setPc a).rcbWindow = s.rcbWindow := rfl
@[simp] theorem State.setPc_partitions (s : State) (a : BitVec 56) : (s.setPc a).partitions = s.partitions := rfl
@[simp] theorem State.setPc_hostData (s : State) (a : BitVec 56) : (s.setPc a).hostData = s.hostData := rfl
@[simp] theorem State.setPc_hostPoison (s : State) (a : BitVec 56) : (s.setPc a).hostPoison = s.hostPoison := rfl
@[simp] theorem State.setPc_ctrlLog (s : State) (a : BitVec 56) : (s.setPc a).ctrlLog = s.ctrlLog := rfl
@[simp] theorem State.setPc_boot (s : State) (a : BitVec 56) : (s.setPc a).boot = s.boot := rfl
@[simp] theorem State.setPc_bring (s : State) (a : BitVec 56) : (s.setPc a).bring = s.bring := rfl

@[simp] theorem State.advance_cur (s : State) (n : Nat) : (s.advance n).cur = s.cur := rfl
@[simp] theorem State.advance_turns (s : State) (n : Nat) : (s.advance n).turns = s.turns := rfl
@[simp] theorem State.advance_slow (s : State) (n : Nat) : (s.advance n).slow = s.slow := rfl
@[simp] theorem State.advance_breakAt (s : State) (n : Nat) : (s.advance n).breakAt = s.breakAt := rfl
@[simp] theorem State.advance_free (s : State) (n : Nat) : (s.advance n).free = s.free := rfl
@[simp] theorem State.advance_nextId (s : State) (n : Nat) : (s.advance n).nextId = s.nextId := rfl
@[simp] theorem State.advance_modu (s : State) (n : Nat) : (s.advance n).modu = s.modu := rfl
@[simp] theorem State.advance_clusters (s : State) (n : Nat) : (s.advance n).clusters = s.clusters := rfl
@[simp] theorem State.advance_blocks (s : State) (n : Nat) : (s.advance n).blocks = s.blocks := rfl
@[simp] theorem State.advance_sectors (s : State) (n : Nat) : (s.advance n).sectors = s.sectors := rfl
@[simp] theorem State.advance_dies (s : State) (n : Nat) : (s.advance n).dies = s.dies := rfl
@[simp] theorem State.advance_quays (s : State) (n : Nat) : (s.advance n).quays = s.quays := rfl
@[simp] theorem State.advance_ports (s : State) (n : Nat) : (s.advance n).ports = s.ports := rfl
@[simp] theorem State.advance_mem (s : State) (n : Nat) : (s.advance n).mem = s.mem := rfl
@[simp] theorem State.advance_fe (s : State) (n : Nat) : (s.advance n).fe = s.fe := rfl
@[simp] theorem State.advance_poison (s : State) (n : Nat) : (s.advance n).poison = s.poison := rfl
@[simp] theorem State.advance_bkey (s : State) (n : Nat) : (s.advance n).bkey = s.bkey := rfl
@[simp] theorem State.advance_lines (s : State) (n : Nat) : (s.advance n).lines = s.lines := rfl
@[simp] theorem State.advance_exclusive (s : State) (n : Nat) : (s.advance n).exclusive = s.exclusive := rfl
@[simp] theorem State.advance_disabled (s : State) (n : Nat) : (s.advance n).disabled = s.disabled := rfl
@[simp] theorem State.advance_services (s : State) (n : Nat) : (s.advance n).services = s.services := rfl
@[simp] theorem State.advance_net (s : State) (n : Nat) : (s.advance n).net = s.net := rfl
@[simp] theorem State.advance_wire (s : State) (n : Nat) : (s.advance n).wire = s.wire := rfl
@[simp] theorem State.advance_seen (s : State) (n : Nat) : (s.advance n).seen = s.seen := rfl
@[simp] theorem State.advance_guests (s : State) (n : Nat) : (s.advance n).guests = s.guests := rfl
@[simp] theorem State.advance_weir (s : State) (n : Nat) : (s.advance n).weir = s.weir := rfl
@[simp] theorem State.advance_regions (s : State) (n : Nat) : (s.advance n).regions = s.regions := rfl
@[simp] theorem State.advance_weirOver (s : State) (n : Nat) : (s.advance n).weirOver = s.weirOver := rfl
@[simp] theorem State.advance_moorings (s : State) (n : Nat) : (s.advance n).moorings = s.moorings := rfl
@[simp] theorem State.advance_noCredit (s : State) (n : Nat) : (s.advance n).noCredit = s.noCredit := rfl
@[simp] theorem State.advance_launches (s : State) (n : Nat) : (s.advance n).launches = s.launches := rfl
@[simp] theorem State.advance_walks (s : State) (n : Nat) : (s.advance n).walks = s.walks := rfl
@[simp] theorem State.advance_prov (s : State) (n : Nat) : (s.advance n).prov = s.prov := rfl
@[simp] theorem State.advance_allocs (s : State) (n : Nat) : (s.advance n).allocs = s.allocs := rfl
@[simp] theorem State.advance_records (s : State) (n : Nat) : (s.advance n).records = s.records := rfl
@[simp] theorem State.advance_barriers (s : State) (n : Nat) : (s.advance n).barriers = s.barriers := rfl
@[simp] theorem State.advance_pginvs (s : State) (n : Nat) : (s.advance n).pginvs = s.pginvs := rfl
@[simp] theorem State.advance_migrations (s : State) (n : Nat) : (s.advance n).migrations = s.migrations := rfl
@[simp] theorem State.advance_allowOwed (s : State) (n : Nat) : (s.advance n).allowOwed = s.allowOwed := rfl
@[simp] theorem State.advance_owed (s : State) (n : Nat) : (s.advance n).owed = s.owed := rfl
@[simp] theorem State.advance_amends (s : State) (n : Nat) : (s.advance n).amends = s.amends := rfl
@[simp] theorem State.advance_saved (s : State) (n : Nat) : (s.advance n).saved = s.saved := rfl
@[simp] theorem State.advance_encKey (s : State) (n : Nat) : (s.advance n).encKey = s.encKey := rfl
@[simp] theorem State.advance_gangBars (s : State) (n : Nat) : (s.advance n).gangBars = s.gangBars := rfl
@[simp] theorem State.advance_gangHeld (s : State) (n : Nat) : (s.advance n).gangHeld = s.gangHeld := rfl
@[simp] theorem State.advance_windows (s : State) (n : Nat) : (s.advance n).windows = s.windows := rfl
@[simp] theorem State.advance_msix (s : State) (n : Nat) : (s.advance n).msix = s.msix := rfl
@[simp] theorem State.advance_rcbWindow (s : State) (n : Nat) : (s.advance n).rcbWindow = s.rcbWindow := rfl
@[simp] theorem State.advance_partitions (s : State) (n : Nat) : (s.advance n).partitions = s.partitions := rfl
@[simp] theorem State.advance_hostData (s : State) (n : Nat) : (s.advance n).hostData = s.hostData := rfl
@[simp] theorem State.advance_hostPoison (s : State) (n : Nat) : (s.advance n).hostPoison = s.hostPoison := rfl
@[simp] theorem State.advance_ctrlLog (s : State) (n : Nat) : (s.advance n).ctrlLog = s.ctrlLog := rfl
@[simp] theorem State.advance_boot (s : State) (n : Nat) : (s.advance n).boot = s.boot := rfl
@[simp] theorem State.advance_bring (s : State) (n : Nat) : (s.advance n).bring = s.bring := rfl

/-! ## Banks and registers -/

/-- Reading the item of a vector that was set. -/
theorem vecGet_set_same {α : Type} {n : Nat} (v : Vector α n) (i : Fin n) (x : α) : (v.set i x).get i = x := by
  simp [Vector.get_eq_getElem]

/-- Setting an item of a vector leaves every other alone. -/
theorem vecGet_set_other {α : Type} {n : Nat} (v : Vector α n) {i j : Fin n} (x : α) (h : j ≠ i) :
    (v.set i x).get j = v.get j := by
  have : i.val ≠ j.val := fun e => h (Fin.ext e.symm)
  simp [Vector.get_eq_getElem, this]

theorem toFin_ne {w : Nat} {x y : BitVec w} (h : x ≠ y) : x.toFin ≠ y.toFin :=
  fun e => h (BitVec.eq_of_toNat_eq (congrArg Fin.val e))

@[simp] theorem Core.bank_setBank_same (c : Core) (l : BitVec 3) (b : Bank) : (c.setBank l b).bank l = b :=
  vecGet_set_same _ _ _

theorem Core.bank_setBank_other (c : Core) {l m : BitVec 3} (b : Bank) (h : m ≠ l) :
    (c.setBank l b).bank m = c.bank m := vecGet_set_other _ _ (toFin_ne h)

@[simp] theorem Core.bank_updBank_same (c : Core) (l : BitVec 3) (f : Bank → Bank) :
    (c.updBank l f).bank l = f (c.bank l) := Core.bank_setBank_same c l _

theorem Core.bank_updBank_other (c : Core) {l m : BitVec 3} (f : Bank → Bank) (h : m ≠ l) :
    (c.updBank l f).bank m = c.bank m := Core.bank_setBank_other c _ h

@[simp] theorem Core.setBank_lid (c : Core) (l : BitVec 3) (b : Bank) : (c.setBank l b).lid = c.lid := rfl
@[simp] theorem Core.setBank_level (c : Core) (l : BitVec 3) (b : Bank) : (c.setBank l b).level = c.level := rfl
@[simp] theorem Core.setBank_thresh (c : Core) (l : BitVec 3) (b : Bank) : (c.setBank l b).thresh = c.thresh := rfl
@[simp] theorem Core.setBank_sp (c : Core) (l : BitVec 3) (b : Bank) : (c.setBank l b).sp = c.sp := rfl
@[simp] theorem Core.setBank_slim (c : Core) (l : BitVec 3) (b : Bank) : (c.setBank l b).slim = c.slim := rfl
@[simp] theorem Core.setBank_vbase (c : Core) (l : BitVec 3) (b : Bank) : (c.setBank l b).vbase = c.vbase := rfl
@[simp] theorem Core.setBank_ceil (c : Core) (l : BitVec 3) (b : Bank) : (c.setBank l b).ceil = c.ceil := rfl
@[simp] theorem Core.setBank_cause (c : Core) (l : BitVec 3) (b : Bank) : (c.setBank l b).cause = c.cause := rfl
@[simp] theorem Core.setBank_epc (c : Core) (l : BitVec 3) (b : Bank) : (c.setBank l b).epc = c.epc := rfl
@[simp] theorem Core.setBank_addr (c : Core) (l : BitVec 3) (b : Bank) : (c.setBank l b).addr = c.addr := rfl
@[simp] theorem Core.setBank_dom (c : Core) (l : BitVec 3) (b : Bank) : (c.setBank l b).dom = c.dom := rfl
@[simp] theorem Core.setBank_tvec (c : Core) (l : BitVec 3) (b : Bank) : (c.setBank l b).tvec = c.tvec := rfl
@[simp] theorem Core.setBank_wdog (c : Core) (l : BitVec 3) (b : Bank) : (c.setBank l b).wdog = c.wdog := rfl
@[simp] theorem Core.setBank_mig (c : Core) (l : BitVec 3) (b : Bank) : (c.setBank l b).mig = c.mig := rfl
@[simp] theorem Core.setBank_sscr (c : Core) (l : BitVec 3) (b : Bank) : (c.setBank l b).sscr = c.sscr := rfl
@[simp] theorem Core.setBank_xcause (c : Core) (l : BitVec 3) (b : Bank) : (c.setBank l b).xcause = c.xcause := rfl
@[simp] theorem Core.setBank_xepc (c : Core) (l : BitVec 3) (b : Bank) : (c.setBank l b).xepc = c.xepc := rfl
@[simp] theorem Core.setBank_seed (c : Core) (l : BitVec 3) (b : Bank) : (c.setBank l b).seed = c.seed := rfl
@[simp] theorem Core.setBank_sctr (c : Core) (l : BitVec 3) (b : Bank) : (c.setBank l b).sctr = c.sctr := rfl
@[simp] theorem Core.setBank_hprog (c : Core) (l : BitVec 3) (b : Bank) : (c.setBank l b).hprog = c.hprog := rfl
@[simp] theorem Core.setBank_hpc (c : Core) (l : BitVec 3) (b : Bank) : (c.setBank l b).hpc = c.hpc := rfl
@[simp] theorem Core.setBank_pc (c : Core) (l : BitVec 3) (b : Bank) : (c.setBank l b).pc = c.pc := rfl
@[simp] theorem Core.setBank_b (c : Core) (l : BitVec 3) (b : Bank) : (c.setBank l b).b = c.b := rfl
@[simp] theorem Core.setBank_d (c : Core) (l : BitVec 3) (b : Bank) : (c.setBank l b).d = c.d := rfl
@[simp] theorem Core.setBank_q (c : Core) (l : BitVec 3) (b : Bank) : (c.setBank l b).q = c.q := rfl
@[simp] theorem Core.setBank_h (c : Core) (l : BitVec 3) (b : Bank) : (c.setBank l b).h = c.h := rfl
@[simp] theorem Core.setBank_ht (c : Core) (l : BitVec 3) (b : Bank) : (c.setBank l b).ht = c.ht := rfl
@[simp] theorem Core.setBank_kcnt (c : Core) (l : BitVec 3) (b : Bank) : (c.setBank l b).kcnt = c.kcnt := rfl
@[simp] theorem Core.setBank_tcm (c : Core) (l : BitVec 3) (b : Bank) : (c.setBank l b).tcm = c.tcm := rfl
@[simp] theorem Core.setBank_tcmFe (c : Core) (l : BitVec 3) (b : Bank) : (c.setBank l b).tcmFe = c.tcmFe := rfl
@[simp] theorem Core.setBank_tcmPoison (c : Core) (l : BitVec 3) (b : Bank) : (c.setBank l b).tcmPoison = c.tcmPoison := rfl
@[simp] theorem Core.setBank_plb (c : Core) (l : BitVec 3) (b : Bank) : (c.setBank l b).plb = c.plb := rfl
@[simp] theorem Core.setBank_svec (c : Core) (l : BitVec 3) (b : Bank) : (c.setBank l b).svec = c.svec := rfl
@[simp] theorem Core.setBank_icache (c : Core) (l : BitVec 3) (b : Bank) : (c.setBank l b).icache = c.icache := rfl
@[simp] theorem Core.setBank_entryBuf (c : Core) (l : BitVec 3) (b : Bank) : (c.setBank l b).entryBuf = c.entryBuf := rfl
@[simp] theorem Core.setBank_locked (c : Core) (l : BitVec 3) (b : Bank) : (c.setBank l b).locked = c.locked := rfl
@[simp] theorem Core.setBank_sbuf (c : Core) (l : BitVec 3) (b : Bank) : (c.setBank l b).sbuf = c.sbuf := rfl
@[simp] theorem Core.setBank_flight (c : Core) (l : BitVec 3) (b : Bank) : (c.setBank l b).flight = c.flight := rfl
@[simp] theorem Core.setBank_deliver (c : Core) (l : BitVec 3) (b : Bank) : (c.setBank l b).deliver = c.deliver := rfl
@[simp] theorem Core.setBank_replies (c : Core) (l : BitVec 3) (b : Bank) : (c.setBank l b).replies = c.replies := rfl
@[simp] theorem Core.setBank_sfu (c : Core) (l : BitVec 3) (b : Bank) : (c.setBank l b).sfu = c.sfu := rfl
@[simp] theorem Core.setBank_unacked (c : Core) (l : BitVec 3) (b : Bank) : (c.setBank l b).unacked = c.unacked := rfl
@[simp] theorem Core.setBank_acks (c : Core) (l : BitVec 3) (b : Bank) : (c.setBank l b).acks = c.acks := rfl
@[simp] theorem Core.setBank_inbox (c : Core) (l : BitVec 3) (b : Bank) : (c.setBank l b).inbox = c.inbox := rfl
@[simp] theorem Core.setBank_ni (c : Core) (l : BitVec 3) (b : Bank) : (c.setBank l b).ni = c.ni := rfl
@[simp] theorem Core.setBank_heldTraps (c : Core) (l : BitVec 3) (b : Bank) : (c.setBank l b).heldTraps = c.heldTraps := rfl
@[simp] theorem Core.setBank_savedLid (c : Core) (l : BitVec 3) (b : Bank) : (c.setBank l b).savedLid = c.savedLid := rfl
@[simp] theorem Core.setBank_holds (c : Core) (l : BitVec 3) (b : Bank) : (c.setBank l b).holds = c.holds := rfl
@[simp] theorem Core.setBank_loading (c : Core) (l : BitVec 3) (b : Bank) : (c.setBank l b).loading = c.loading := rfl
@[simp] theorem Core.setBank_wasReset (c : Core) (l : BitVec 3) (b : Bank) : (c.setBank l b).wasReset = c.wasReset := rfl
@[simp] theorem Core.setBank_copyQ (c : Core) (l : BitVec 3) (b : Bank) : (c.setBank l b).copyQ = c.copyQ := rfl
@[simp] theorem Core.setBank_matQ (c : Core) (l : BitVec 3) (b : Bank) : (c.setBank l b).matQ = c.matQ := rfl
@[simp] theorem Core.setBank_remQ (c : Core) (l : BitVec 3) (b : Bank) : (c.setBank l b).remQ = c.remQ := rfl
@[simp] theorem Core.setBank_estCopy (c : Core) (l : BitVec 3) (b : Bank) : (c.setBank l b).estCopy = c.estCopy := rfl
@[simp] theorem Core.setBank_estMat (c : Core) (l : BitVec 3) (b : Bank) : (c.setBank l b).estMat = c.estMat := rfl
@[simp] theorem Core.setBank_estRem (c : Core) (l : BitVec 3) (b : Bank) : (c.setBank l b).estRem = c.estRem := rfl
@[simp] theorem Core.setBank_closing (c : Core) (l : BitVec 3) (b : Bank) : (c.setBank l b).closing = c.closing := rfl
@[simp] theorem Core.setBank_latchL (c : Core) (l : BitVec 3) (b : Bank) : (c.setBank l b).latchL = c.latchL := rfl
@[simp] theorem Core.setBank_latchI (c : Core) (l : BitVec 3) (b : Bank) : (c.setBank l b).latchI = c.latchI := rfl
@[simp] theorem Core.setBank_epi0 (c : Core) (l : BitVec 3) (b : Bank) : (c.setBank l b).epi0 = c.epi0 := rfl
@[simp] theorem Core.setBank_epi1 (c : Core) (l : BitVec 3) (b : Bank) : (c.setBank l b).epi1 = c.epi1 := rfl
@[simp] theorem Core.setBank_member (c : Core) (l : BitVec 3) (b : Bank) : (c.setBank l b).member = c.member := rfl
@[simp] theorem Core.setBank_binding (c : Core) (l : BitVec 3) (b : Bank) : (c.setBank l b).binding = c.binding := rfl
@[simp] theorem Core.setBank_budgets (c : Core) (l : BitVec 3) (b : Bank) : (c.setBank l b).budgets = c.budgets := rfl
@[simp] theorem Core.setBank_stopped (c : Core) (l : BitVec 3) (b : Bank) : (c.setBank l b).stopped = c.stopped := rfl
@[simp] theorem Core.setBank_asleep (c : Core) (l : BitVec 3) (b : Bank) : (c.setBank l b).asleep = c.asleep := rfl
@[simp] theorem Core.setBank_run7 (c : Core) (l : BitVec 3) (b : Bank) : (c.setBank l b).run7 = c.run7 := rfl
@[simp] theorem Core.setBank_stalls (c : Core) (l : BitVec 3) (b : Bank) : (c.setBank l b).stalls = c.stalls := rfl
@[simp] theorem Core.setBank_withheld (c : Core) (l : BitVec 3) (b : Bank) : (c.setBank l b).withheld = c.withheld := rfl
@[simp] theorem Core.setBank_overPower (c : Core) (l : BitVec 3) (b : Bank) : (c.setBank l b).overPower = c.overPower := rfl
@[simp] theorem Core.setBank_lvl (c : Core) (l : BitVec 3) (b : Bank) : (c.setBank l b).lvl = c.lvl := rfl

@[simp] theorem Core.updBank_lid (c : Core) (l : BitVec 3) (f : Bank → Bank) : (c.updBank l f).lid = c.lid := rfl
@[simp] theorem Core.updBank_level (c : Core) (l : BitVec 3) (f : Bank → Bank) : (c.updBank l f).level = c.level := rfl
@[simp] theorem Core.updBank_thresh (c : Core) (l : BitVec 3) (f : Bank → Bank) : (c.updBank l f).thresh = c.thresh := rfl
@[simp] theorem Core.updBank_sp (c : Core) (l : BitVec 3) (f : Bank → Bank) : (c.updBank l f).sp = c.sp := rfl
@[simp] theorem Core.updBank_slim (c : Core) (l : BitVec 3) (f : Bank → Bank) : (c.updBank l f).slim = c.slim := rfl
@[simp] theorem Core.updBank_vbase (c : Core) (l : BitVec 3) (f : Bank → Bank) : (c.updBank l f).vbase = c.vbase := rfl
@[simp] theorem Core.updBank_ceil (c : Core) (l : BitVec 3) (f : Bank → Bank) : (c.updBank l f).ceil = c.ceil := rfl
@[simp] theorem Core.updBank_cause (c : Core) (l : BitVec 3) (f : Bank → Bank) : (c.updBank l f).cause = c.cause := rfl
@[simp] theorem Core.updBank_epc (c : Core) (l : BitVec 3) (f : Bank → Bank) : (c.updBank l f).epc = c.epc := rfl
@[simp] theorem Core.updBank_addr (c : Core) (l : BitVec 3) (f : Bank → Bank) : (c.updBank l f).addr = c.addr := rfl
@[simp] theorem Core.updBank_dom (c : Core) (l : BitVec 3) (f : Bank → Bank) : (c.updBank l f).dom = c.dom := rfl
@[simp] theorem Core.updBank_tvec (c : Core) (l : BitVec 3) (f : Bank → Bank) : (c.updBank l f).tvec = c.tvec := rfl
@[simp] theorem Core.updBank_wdog (c : Core) (l : BitVec 3) (f : Bank → Bank) : (c.updBank l f).wdog = c.wdog := rfl
@[simp] theorem Core.updBank_mig (c : Core) (l : BitVec 3) (f : Bank → Bank) : (c.updBank l f).mig = c.mig := rfl
@[simp] theorem Core.updBank_sscr (c : Core) (l : BitVec 3) (f : Bank → Bank) : (c.updBank l f).sscr = c.sscr := rfl
@[simp] theorem Core.updBank_xcause (c : Core) (l : BitVec 3) (f : Bank → Bank) : (c.updBank l f).xcause = c.xcause := rfl
@[simp] theorem Core.updBank_xepc (c : Core) (l : BitVec 3) (f : Bank → Bank) : (c.updBank l f).xepc = c.xepc := rfl
@[simp] theorem Core.updBank_seed (c : Core) (l : BitVec 3) (f : Bank → Bank) : (c.updBank l f).seed = c.seed := rfl
@[simp] theorem Core.updBank_sctr (c : Core) (l : BitVec 3) (f : Bank → Bank) : (c.updBank l f).sctr = c.sctr := rfl
@[simp] theorem Core.updBank_hprog (c : Core) (l : BitVec 3) (f : Bank → Bank) : (c.updBank l f).hprog = c.hprog := rfl
@[simp] theorem Core.updBank_hpc (c : Core) (l : BitVec 3) (f : Bank → Bank) : (c.updBank l f).hpc = c.hpc := rfl
@[simp] theorem Core.updBank_pc (c : Core) (l : BitVec 3) (f : Bank → Bank) : (c.updBank l f).pc = c.pc := rfl
@[simp] theorem Core.updBank_b (c : Core) (l : BitVec 3) (f : Bank → Bank) : (c.updBank l f).b = c.b := rfl
@[simp] theorem Core.updBank_d (c : Core) (l : BitVec 3) (f : Bank → Bank) : (c.updBank l f).d = c.d := rfl
@[simp] theorem Core.updBank_q (c : Core) (l : BitVec 3) (f : Bank → Bank) : (c.updBank l f).q = c.q := rfl
@[simp] theorem Core.updBank_h (c : Core) (l : BitVec 3) (f : Bank → Bank) : (c.updBank l f).h = c.h := rfl
@[simp] theorem Core.updBank_ht (c : Core) (l : BitVec 3) (f : Bank → Bank) : (c.updBank l f).ht = c.ht := rfl
@[simp] theorem Core.updBank_kcnt (c : Core) (l : BitVec 3) (f : Bank → Bank) : (c.updBank l f).kcnt = c.kcnt := rfl
@[simp] theorem Core.updBank_tcm (c : Core) (l : BitVec 3) (f : Bank → Bank) : (c.updBank l f).tcm = c.tcm := rfl
@[simp] theorem Core.updBank_tcmFe (c : Core) (l : BitVec 3) (f : Bank → Bank) : (c.updBank l f).tcmFe = c.tcmFe := rfl
@[simp] theorem Core.updBank_tcmPoison (c : Core) (l : BitVec 3) (f : Bank → Bank) : (c.updBank l f).tcmPoison = c.tcmPoison := rfl
@[simp] theorem Core.updBank_plb (c : Core) (l : BitVec 3) (f : Bank → Bank) : (c.updBank l f).plb = c.plb := rfl
@[simp] theorem Core.updBank_svec (c : Core) (l : BitVec 3) (f : Bank → Bank) : (c.updBank l f).svec = c.svec := rfl
@[simp] theorem Core.updBank_icache (c : Core) (l : BitVec 3) (f : Bank → Bank) : (c.updBank l f).icache = c.icache := rfl
@[simp] theorem Core.updBank_entryBuf (c : Core) (l : BitVec 3) (f : Bank → Bank) : (c.updBank l f).entryBuf = c.entryBuf := rfl
@[simp] theorem Core.updBank_locked (c : Core) (l : BitVec 3) (f : Bank → Bank) : (c.updBank l f).locked = c.locked := rfl
@[simp] theorem Core.updBank_sbuf (c : Core) (l : BitVec 3) (f : Bank → Bank) : (c.updBank l f).sbuf = c.sbuf := rfl
@[simp] theorem Core.updBank_flight (c : Core) (l : BitVec 3) (f : Bank → Bank) : (c.updBank l f).flight = c.flight := rfl
@[simp] theorem Core.updBank_deliver (c : Core) (l : BitVec 3) (f : Bank → Bank) : (c.updBank l f).deliver = c.deliver := rfl
@[simp] theorem Core.updBank_replies (c : Core) (l : BitVec 3) (f : Bank → Bank) : (c.updBank l f).replies = c.replies := rfl
@[simp] theorem Core.updBank_sfu (c : Core) (l : BitVec 3) (f : Bank → Bank) : (c.updBank l f).sfu = c.sfu := rfl
@[simp] theorem Core.updBank_unacked (c : Core) (l : BitVec 3) (f : Bank → Bank) : (c.updBank l f).unacked = c.unacked := rfl
@[simp] theorem Core.updBank_acks (c : Core) (l : BitVec 3) (f : Bank → Bank) : (c.updBank l f).acks = c.acks := rfl
@[simp] theorem Core.updBank_inbox (c : Core) (l : BitVec 3) (f : Bank → Bank) : (c.updBank l f).inbox = c.inbox := rfl
@[simp] theorem Core.updBank_ni (c : Core) (l : BitVec 3) (f : Bank → Bank) : (c.updBank l f).ni = c.ni := rfl
@[simp] theorem Core.updBank_heldTraps (c : Core) (l : BitVec 3) (f : Bank → Bank) : (c.updBank l f).heldTraps = c.heldTraps := rfl
@[simp] theorem Core.updBank_savedLid (c : Core) (l : BitVec 3) (f : Bank → Bank) : (c.updBank l f).savedLid = c.savedLid := rfl
@[simp] theorem Core.updBank_holds (c : Core) (l : BitVec 3) (f : Bank → Bank) : (c.updBank l f).holds = c.holds := rfl
@[simp] theorem Core.updBank_loading (c : Core) (l : BitVec 3) (f : Bank → Bank) : (c.updBank l f).loading = c.loading := rfl
@[simp] theorem Core.updBank_wasReset (c : Core) (l : BitVec 3) (f : Bank → Bank) : (c.updBank l f).wasReset = c.wasReset := rfl
@[simp] theorem Core.updBank_copyQ (c : Core) (l : BitVec 3) (f : Bank → Bank) : (c.updBank l f).copyQ = c.copyQ := rfl
@[simp] theorem Core.updBank_matQ (c : Core) (l : BitVec 3) (f : Bank → Bank) : (c.updBank l f).matQ = c.matQ := rfl
@[simp] theorem Core.updBank_remQ (c : Core) (l : BitVec 3) (f : Bank → Bank) : (c.updBank l f).remQ = c.remQ := rfl
@[simp] theorem Core.updBank_estCopy (c : Core) (l : BitVec 3) (f : Bank → Bank) : (c.updBank l f).estCopy = c.estCopy := rfl
@[simp] theorem Core.updBank_estMat (c : Core) (l : BitVec 3) (f : Bank → Bank) : (c.updBank l f).estMat = c.estMat := rfl
@[simp] theorem Core.updBank_estRem (c : Core) (l : BitVec 3) (f : Bank → Bank) : (c.updBank l f).estRem = c.estRem := rfl
@[simp] theorem Core.updBank_closing (c : Core) (l : BitVec 3) (f : Bank → Bank) : (c.updBank l f).closing = c.closing := rfl
@[simp] theorem Core.updBank_latchL (c : Core) (l : BitVec 3) (f : Bank → Bank) : (c.updBank l f).latchL = c.latchL := rfl
@[simp] theorem Core.updBank_latchI (c : Core) (l : BitVec 3) (f : Bank → Bank) : (c.updBank l f).latchI = c.latchI := rfl
@[simp] theorem Core.updBank_epi0 (c : Core) (l : BitVec 3) (f : Bank → Bank) : (c.updBank l f).epi0 = c.epi0 := rfl
@[simp] theorem Core.updBank_epi1 (c : Core) (l : BitVec 3) (f : Bank → Bank) : (c.updBank l f).epi1 = c.epi1 := rfl
@[simp] theorem Core.updBank_member (c : Core) (l : BitVec 3) (f : Bank → Bank) : (c.updBank l f).member = c.member := rfl
@[simp] theorem Core.updBank_binding (c : Core) (l : BitVec 3) (f : Bank → Bank) : (c.updBank l f).binding = c.binding := rfl
@[simp] theorem Core.updBank_budgets (c : Core) (l : BitVec 3) (f : Bank → Bank) : (c.updBank l f).budgets = c.budgets := rfl
@[simp] theorem Core.updBank_stopped (c : Core) (l : BitVec 3) (f : Bank → Bank) : (c.updBank l f).stopped = c.stopped := rfl
@[simp] theorem Core.updBank_asleep (c : Core) (l : BitVec 3) (f : Bank → Bank) : (c.updBank l f).asleep = c.asleep := rfl
@[simp] theorem Core.updBank_run7 (c : Core) (l : BitVec 3) (f : Bank → Bank) : (c.updBank l f).run7 = c.run7 := rfl
@[simp] theorem Core.updBank_stalls (c : Core) (l : BitVec 3) (f : Bank → Bank) : (c.updBank l f).stalls = c.stalls := rfl
@[simp] theorem Core.updBank_withheld (c : Core) (l : BitVec 3) (f : Bank → Bank) : (c.updBank l f).withheld = c.withheld := rfl
@[simp] theorem Core.updBank_overPower (c : Core) (l : BitVec 3) (f : Bank → Bank) : (c.updBank l f).overPower = c.overPower := rfl
@[simp] theorem Core.updBank_lvl (c : Core) (l : BitVec 3) (f : Bank → Bank) : (c.updBank l f).lvl = c.lvl := rfl

@[simp] theorem Core.updHere_lid (c : Core) (f : Bank → Bank) : (c.updHere f).lid = c.lid := rfl
@[simp] theorem Core.updHere_level (c : Core) (f : Bank → Bank) : (c.updHere f).level = c.level := rfl
@[simp] theorem Core.updHere_thresh (c : Core) (f : Bank → Bank) : (c.updHere f).thresh = c.thresh := rfl
@[simp] theorem Core.updHere_sp (c : Core) (f : Bank → Bank) : (c.updHere f).sp = c.sp := rfl
@[simp] theorem Core.updHere_slim (c : Core) (f : Bank → Bank) : (c.updHere f).slim = c.slim := rfl
@[simp] theorem Core.updHere_vbase (c : Core) (f : Bank → Bank) : (c.updHere f).vbase = c.vbase := rfl
@[simp] theorem Core.updHere_ceil (c : Core) (f : Bank → Bank) : (c.updHere f).ceil = c.ceil := rfl
@[simp] theorem Core.updHere_cause (c : Core) (f : Bank → Bank) : (c.updHere f).cause = c.cause := rfl
@[simp] theorem Core.updHere_epc (c : Core) (f : Bank → Bank) : (c.updHere f).epc = c.epc := rfl
@[simp] theorem Core.updHere_addr (c : Core) (f : Bank → Bank) : (c.updHere f).addr = c.addr := rfl
@[simp] theorem Core.updHere_dom (c : Core) (f : Bank → Bank) : (c.updHere f).dom = c.dom := rfl
@[simp] theorem Core.updHere_tvec (c : Core) (f : Bank → Bank) : (c.updHere f).tvec = c.tvec := rfl
@[simp] theorem Core.updHere_wdog (c : Core) (f : Bank → Bank) : (c.updHere f).wdog = c.wdog := rfl
@[simp] theorem Core.updHere_mig (c : Core) (f : Bank → Bank) : (c.updHere f).mig = c.mig := rfl
@[simp] theorem Core.updHere_sscr (c : Core) (f : Bank → Bank) : (c.updHere f).sscr = c.sscr := rfl
@[simp] theorem Core.updHere_xcause (c : Core) (f : Bank → Bank) : (c.updHere f).xcause = c.xcause := rfl
@[simp] theorem Core.updHere_xepc (c : Core) (f : Bank → Bank) : (c.updHere f).xepc = c.xepc := rfl
@[simp] theorem Core.updHere_seed (c : Core) (f : Bank → Bank) : (c.updHere f).seed = c.seed := rfl
@[simp] theorem Core.updHere_sctr (c : Core) (f : Bank → Bank) : (c.updHere f).sctr = c.sctr := rfl
@[simp] theorem Core.updHere_hprog (c : Core) (f : Bank → Bank) : (c.updHere f).hprog = c.hprog := rfl
@[simp] theorem Core.updHere_hpc (c : Core) (f : Bank → Bank) : (c.updHere f).hpc = c.hpc := rfl
@[simp] theorem Core.updHere_pc (c : Core) (f : Bank → Bank) : (c.updHere f).pc = c.pc := rfl
@[simp] theorem Core.updHere_b (c : Core) (f : Bank → Bank) : (c.updHere f).b = c.b := rfl
@[simp] theorem Core.updHere_d (c : Core) (f : Bank → Bank) : (c.updHere f).d = c.d := rfl
@[simp] theorem Core.updHere_q (c : Core) (f : Bank → Bank) : (c.updHere f).q = c.q := rfl
@[simp] theorem Core.updHere_h (c : Core) (f : Bank → Bank) : (c.updHere f).h = c.h := rfl
@[simp] theorem Core.updHere_ht (c : Core) (f : Bank → Bank) : (c.updHere f).ht = c.ht := rfl
@[simp] theorem Core.updHere_kcnt (c : Core) (f : Bank → Bank) : (c.updHere f).kcnt = c.kcnt := rfl
@[simp] theorem Core.updHere_tcm (c : Core) (f : Bank → Bank) : (c.updHere f).tcm = c.tcm := rfl
@[simp] theorem Core.updHere_tcmFe (c : Core) (f : Bank → Bank) : (c.updHere f).tcmFe = c.tcmFe := rfl
@[simp] theorem Core.updHere_tcmPoison (c : Core) (f : Bank → Bank) : (c.updHere f).tcmPoison = c.tcmPoison := rfl
@[simp] theorem Core.updHere_plb (c : Core) (f : Bank → Bank) : (c.updHere f).plb = c.plb := rfl
@[simp] theorem Core.updHere_svec (c : Core) (f : Bank → Bank) : (c.updHere f).svec = c.svec := rfl
@[simp] theorem Core.updHere_icache (c : Core) (f : Bank → Bank) : (c.updHere f).icache = c.icache := rfl
@[simp] theorem Core.updHere_entryBuf (c : Core) (f : Bank → Bank) : (c.updHere f).entryBuf = c.entryBuf := rfl
@[simp] theorem Core.updHere_locked (c : Core) (f : Bank → Bank) : (c.updHere f).locked = c.locked := rfl
@[simp] theorem Core.updHere_sbuf (c : Core) (f : Bank → Bank) : (c.updHere f).sbuf = c.sbuf := rfl
@[simp] theorem Core.updHere_flight (c : Core) (f : Bank → Bank) : (c.updHere f).flight = c.flight := rfl
@[simp] theorem Core.updHere_deliver (c : Core) (f : Bank → Bank) : (c.updHere f).deliver = c.deliver := rfl
@[simp] theorem Core.updHere_replies (c : Core) (f : Bank → Bank) : (c.updHere f).replies = c.replies := rfl
@[simp] theorem Core.updHere_sfu (c : Core) (f : Bank → Bank) : (c.updHere f).sfu = c.sfu := rfl
@[simp] theorem Core.updHere_unacked (c : Core) (f : Bank → Bank) : (c.updHere f).unacked = c.unacked := rfl
@[simp] theorem Core.updHere_acks (c : Core) (f : Bank → Bank) : (c.updHere f).acks = c.acks := rfl
@[simp] theorem Core.updHere_inbox (c : Core) (f : Bank → Bank) : (c.updHere f).inbox = c.inbox := rfl
@[simp] theorem Core.updHere_ni (c : Core) (f : Bank → Bank) : (c.updHere f).ni = c.ni := rfl
@[simp] theorem Core.updHere_heldTraps (c : Core) (f : Bank → Bank) : (c.updHere f).heldTraps = c.heldTraps := rfl
@[simp] theorem Core.updHere_savedLid (c : Core) (f : Bank → Bank) : (c.updHere f).savedLid = c.savedLid := rfl
@[simp] theorem Core.updHere_holds (c : Core) (f : Bank → Bank) : (c.updHere f).holds = c.holds := rfl
@[simp] theorem Core.updHere_loading (c : Core) (f : Bank → Bank) : (c.updHere f).loading = c.loading := rfl
@[simp] theorem Core.updHere_wasReset (c : Core) (f : Bank → Bank) : (c.updHere f).wasReset = c.wasReset := rfl
@[simp] theorem Core.updHere_copyQ (c : Core) (f : Bank → Bank) : (c.updHere f).copyQ = c.copyQ := rfl
@[simp] theorem Core.updHere_matQ (c : Core) (f : Bank → Bank) : (c.updHere f).matQ = c.matQ := rfl
@[simp] theorem Core.updHere_remQ (c : Core) (f : Bank → Bank) : (c.updHere f).remQ = c.remQ := rfl
@[simp] theorem Core.updHere_estCopy (c : Core) (f : Bank → Bank) : (c.updHere f).estCopy = c.estCopy := rfl
@[simp] theorem Core.updHere_estMat (c : Core) (f : Bank → Bank) : (c.updHere f).estMat = c.estMat := rfl
@[simp] theorem Core.updHere_estRem (c : Core) (f : Bank → Bank) : (c.updHere f).estRem = c.estRem := rfl
@[simp] theorem Core.updHere_closing (c : Core) (f : Bank → Bank) : (c.updHere f).closing = c.closing := rfl
@[simp] theorem Core.updHere_latchL (c : Core) (f : Bank → Bank) : (c.updHere f).latchL = c.latchL := rfl
@[simp] theorem Core.updHere_latchI (c : Core) (f : Bank → Bank) : (c.updHere f).latchI = c.latchI := rfl
@[simp] theorem Core.updHere_epi0 (c : Core) (f : Bank → Bank) : (c.updHere f).epi0 = c.epi0 := rfl
@[simp] theorem Core.updHere_epi1 (c : Core) (f : Bank → Bank) : (c.updHere f).epi1 = c.epi1 := rfl
@[simp] theorem Core.updHere_member (c : Core) (f : Bank → Bank) : (c.updHere f).member = c.member := rfl
@[simp] theorem Core.updHere_binding (c : Core) (f : Bank → Bank) : (c.updHere f).binding = c.binding := rfl
@[simp] theorem Core.updHere_budgets (c : Core) (f : Bank → Bank) : (c.updHere f).budgets = c.budgets := rfl
@[simp] theorem Core.updHere_stopped (c : Core) (f : Bank → Bank) : (c.updHere f).stopped = c.stopped := rfl
@[simp] theorem Core.updHere_asleep (c : Core) (f : Bank → Bank) : (c.updHere f).asleep = c.asleep := rfl
@[simp] theorem Core.updHere_run7 (c : Core) (f : Bank → Bank) : (c.updHere f).run7 = c.run7 := rfl
@[simp] theorem Core.updHere_stalls (c : Core) (f : Bank → Bank) : (c.updHere f).stalls = c.stalls := rfl
@[simp] theorem Core.updHere_withheld (c : Core) (f : Bank → Bank) : (c.updHere f).withheld = c.withheld := rfl
@[simp] theorem Core.updHere_overPower (c : Core) (f : Bank → Bank) : (c.updHere f).overPower = c.overPower := rfl
@[simp] theorem Core.updHere_lvl (c : Core) (f : Bank → Bank) : (c.updHere f).lvl = c.lvl := rfl

@[simp] theorem Core.here_updHere (c : Core) (f : Bank → Bank) : (c.updHere f).here = f c.here :=
  Core.bank_updBank_same c c.lvl f

@[simp] theorem Bank.wv_s (b : Bank) (r : VReg) (x : Vec) : (b.wv r x).s = b.s := rfl
@[simp] theorem Bank.wv_acc (b : Bank) (r : VReg) (x : Vec) : (b.wv r x).acc = b.acc := rfl
@[simp] theorem Bank.wv_mctx (b : Bank) (r : VReg) (x : Vec) : (b.wv r x).mctx = b.mctx := rfl
@[simp] theorem Bank.wv_vpend (b : Bank) (r : VReg) (x : Vec) : (b.wv r x).vpend = b.vpend := rfl
@[simp] theorem Bank.wv_spend (b : Bank) (r : VReg) (x : Vec) : (b.wv r x).spend = b.spend := rfl
@[simp] theorem Bank.wv_live (b : Bank) (r : VReg) (x : Vec) : (b.wv r x).live = b.live := rfl
@[simp] theorem Bank.wv_fclass (b : Bank) (r : VReg) (x : Vec) : (b.wv r x).fclass = b.fclass := rfl
@[simp] theorem Bank.wv_mtype (b : Bank) (r : VReg) (x : Vec) : (b.wv r x).mtype = b.mtype := rfl
@[simp] theorem Bank.wv_fbase (b : Bank) (r : VReg) (x : Vec) : (b.wv r x).fbase = b.fbase := rfl
@[simp] theorem Bank.wv_rpc (b : Bank) (r : VReg) (x : Vec) : (b.wv r x).rpc = b.rpc := rfl
@[simp] theorem Bank.wv_rthresh (b : Bank) (r : VReg) (x : Vec) : (b.wv r x).rthresh = b.rthresh := rfl
@[simp] theorem Bank.wv_rb (b : Bank) (r : VReg) (x : Vec) : (b.wv r x).rb = b.rb := rfl
@[simp] theorem Bank.wv_claims (b : Bank) (r : VReg) (x : Vec) : (b.wv r x).claims = b.claims := rfl
@[simp] theorem Bank.wv_inst (b : Bank) (r : VReg) (x : Vec) : (b.wv r x).inst = b.inst := rfl
@[simp] theorem Bank.wv_contract (b : Bank) (r : VReg) (x : Vec) : (b.wv r x).contract = b.contract := rfl
@[simp] theorem Bank.wv_squash (b : Bank) (r : VReg) (x : Vec) : (b.wv r x).squash = b.squash := rfl
@[simp] theorem Bank.wv_parkDue (b : Bank) (r : VReg) (x : Vec) : (b.wv r x).parkDue = b.parkDue := rfl
@[simp] theorem Bank.wv_queueOp (b : Bank) (r : VReg) (x : Vec) : (b.wv r x).queueOp = b.queueOp := rfl
@[simp] theorem Bank.wv_fencing (b : Bank) (r : VReg) (x : Vec) : (b.wv r x).fencing = b.fencing := rfl

@[simp] theorem Bank.wa_s (b : Bank) (r : AReg) (x : Vector (BitVec 32) 64) : (b.wa r x).s = b.s := rfl
@[simp] theorem Bank.wa_v (b : Bank) (r : AReg) (x : Vector (BitVec 32) 64) : (b.wa r x).v = b.v := rfl
@[simp] theorem Bank.wa_mctx (b : Bank) (r : AReg) (x : Vector (BitVec 32) 64) : (b.wa r x).mctx = b.mctx := rfl
@[simp] theorem Bank.wa_vpend (b : Bank) (r : AReg) (x : Vector (BitVec 32) 64) : (b.wa r x).vpend = b.vpend := rfl
@[simp] theorem Bank.wa_spend (b : Bank) (r : AReg) (x : Vector (BitVec 32) 64) : (b.wa r x).spend = b.spend := rfl
@[simp] theorem Bank.wa_live (b : Bank) (r : AReg) (x : Vector (BitVec 32) 64) : (b.wa r x).live = b.live := rfl
@[simp] theorem Bank.wa_fclass (b : Bank) (r : AReg) (x : Vector (BitVec 32) 64) : (b.wa r x).fclass = b.fclass := rfl
@[simp] theorem Bank.wa_mtype (b : Bank) (r : AReg) (x : Vector (BitVec 32) 64) : (b.wa r x).mtype = b.mtype := rfl
@[simp] theorem Bank.wa_fbase (b : Bank) (r : AReg) (x : Vector (BitVec 32) 64) : (b.wa r x).fbase = b.fbase := rfl
@[simp] theorem Bank.wa_rpc (b : Bank) (r : AReg) (x : Vector (BitVec 32) 64) : (b.wa r x).rpc = b.rpc := rfl
@[simp] theorem Bank.wa_rthresh (b : Bank) (r : AReg) (x : Vector (BitVec 32) 64) : (b.wa r x).rthresh = b.rthresh := rfl
@[simp] theorem Bank.wa_rb (b : Bank) (r : AReg) (x : Vector (BitVec 32) 64) : (b.wa r x).rb = b.rb := rfl
@[simp] theorem Bank.wa_claims (b : Bank) (r : AReg) (x : Vector (BitVec 32) 64) : (b.wa r x).claims = b.claims := rfl
@[simp] theorem Bank.wa_inst (b : Bank) (r : AReg) (x : Vector (BitVec 32) 64) : (b.wa r x).inst = b.inst := rfl
@[simp] theorem Bank.wa_contract (b : Bank) (r : AReg) (x : Vector (BitVec 32) 64) : (b.wa r x).contract = b.contract := rfl
@[simp] theorem Bank.wa_squash (b : Bank) (r : AReg) (x : Vector (BitVec 32) 64) : (b.wa r x).squash = b.squash := rfl
@[simp] theorem Bank.wa_parkDue (b : Bank) (r : AReg) (x : Vector (BitVec 32) 64) : (b.wa r x).parkDue = b.parkDue := rfl
@[simp] theorem Bank.wa_queueOp (b : Bank) (r : AReg) (x : Vector (BitVec 32) 64) : (b.wa r x).queueOp = b.queueOp := rfl
@[simp] theorem Bank.wa_fencing (b : Bank) (r : AReg) (x : Vector (BitVec 32) 64) : (b.wa r x).fencing = b.fencing := rfl

@[simp] theorem Bank.ws_v (b : Bank) (r : SReg) (x : Word) : (b.ws r x).v = b.v := by
  simp only [Bank.ws]; split <;> rfl
@[simp] theorem Bank.ws_acc (b : Bank) (r : SReg) (x : Word) : (b.ws r x).acc = b.acc := by
  simp only [Bank.ws]; split <;> rfl
@[simp] theorem Bank.ws_mctx (b : Bank) (r : SReg) (x : Word) : (b.ws r x).mctx = b.mctx := by
  simp only [Bank.ws]; split <;> rfl
@[simp] theorem Bank.ws_vpend (b : Bank) (r : SReg) (x : Word) : (b.ws r x).vpend = b.vpend := by
  simp only [Bank.ws]; split <;> rfl
@[simp] theorem Bank.ws_spend (b : Bank) (r : SReg) (x : Word) : (b.ws r x).spend = b.spend := by
  simp only [Bank.ws]; split <;> rfl
@[simp] theorem Bank.ws_live (b : Bank) (r : SReg) (x : Word) : (b.ws r x).live = b.live := by
  simp only [Bank.ws]; split <;> rfl
@[simp] theorem Bank.ws_fclass (b : Bank) (r : SReg) (x : Word) : (b.ws r x).fclass = b.fclass := by
  simp only [Bank.ws]; split <;> rfl
@[simp] theorem Bank.ws_mtype (b : Bank) (r : SReg) (x : Word) : (b.ws r x).mtype = b.mtype := by
  simp only [Bank.ws]; split <;> rfl
@[simp] theorem Bank.ws_fbase (b : Bank) (r : SReg) (x : Word) : (b.ws r x).fbase = b.fbase := by
  simp only [Bank.ws]; split <;> rfl
@[simp] theorem Bank.ws_rpc (b : Bank) (r : SReg) (x : Word) : (b.ws r x).rpc = b.rpc := by
  simp only [Bank.ws]; split <;> rfl
@[simp] theorem Bank.ws_rthresh (b : Bank) (r : SReg) (x : Word) : (b.ws r x).rthresh = b.rthresh := by
  simp only [Bank.ws]; split <;> rfl
@[simp] theorem Bank.ws_rb (b : Bank) (r : SReg) (x : Word) : (b.ws r x).rb = b.rb := by
  simp only [Bank.ws]; split <;> rfl
@[simp] theorem Bank.ws_claims (b : Bank) (r : SReg) (x : Word) : (b.ws r x).claims = b.claims := by
  simp only [Bank.ws]; split <;> rfl
@[simp] theorem Bank.ws_inst (b : Bank) (r : SReg) (x : Word) : (b.ws r x).inst = b.inst := by
  simp only [Bank.ws]; split <;> rfl
@[simp] theorem Bank.ws_contract (b : Bank) (r : SReg) (x : Word) : (b.ws r x).contract = b.contract := by
  simp only [Bank.ws]; split <;> rfl
@[simp] theorem Bank.ws_squash (b : Bank) (r : SReg) (x : Word) : (b.ws r x).squash = b.squash := by
  simp only [Bank.ws]; split <;> rfl
@[simp] theorem Bank.ws_parkDue (b : Bank) (r : SReg) (x : Word) : (b.ws r x).parkDue = b.parkDue := by
  simp only [Bank.ws]; split <;> rfl
@[simp] theorem Bank.ws_queueOp (b : Bank) (r : SReg) (x : Word) : (b.ws r x).queueOp = b.queueOp := by
  simp only [Bank.ws]; split <;> rfl
@[simp] theorem Bank.ws_fencing (b : Bank) (r : SReg) (x : Word) : (b.ws r x).fencing = b.fencing := by
  simp only [Bank.ws]; split <;> rfl

/-- s0 reads zero (R17). -/
@[simp] theorem Bank.rs_zero (b : Bank) : b.rs 0 = 0 := rfl

/-- Reading the scalar register written: s0 stays zero (R162). -/
theorem Bank.rs_ws_same (b : Bank) (r : SReg) (x : Word) : (b.ws r x).rs r = if r = 0 then 0 else x := by
  unfold Bank.rs Bank.ws
  split
  · rfl
  · exact vecGet_set_same _ _ _

/-- A write leaves every other scalar register alone. -/
theorem Bank.rs_ws_other (b : Bank) {r q : SReg} (x : Word) (h : q ≠ r) : (b.ws r x).rs q = b.rs q := by
  unfold Bank.rs Bank.ws
  by_cases hr : r = 0
  · rw [if_pos hr]
  · rw [if_neg hr]
    split
    · rfl
    · exact vecGet_set_other _ _ (toFin_ne h)

/-- Reading the vector register written. -/
@[simp] theorem Bank.rv_wv_same (b : Bank) (r : VReg) (x : Vec) : (b.wv r x).rv r = x := vecGet_set_same _ _ _

/-- A write leaves every other vector register alone. -/
theorem Bank.rv_wv_other (b : Bank) {r q : VReg} (x : Vec) (h : q ≠ r) : (b.wv r x).rv q = b.rv q :=
  vecGet_set_other _ _ (toFin_ne h)

@[simp] theorem State.rs_zero (s : State) : s.rs 0 = 0 := rfl

/-- The scalar registers of the running frame after a write (R162). -/
theorem State.rs_ws (s : State) (r q : SReg) (x : Word) :
    (s.ws r x).rs q = if q = r ∧ r ≠ 0 then x else s.rs q := by
  by_cases h : q = r
  · subst h
    by_cases h0 : q = 0
    · subst h0; rw [if_neg (fun e => e.2 rfl)]; rfl
    · rw [if_pos ⟨rfl, h0⟩]; simp only [State.rs, State.ws, State.me_updMe, Core.here_updHere, Bank.rs_ws_same, if_neg h0]
  · simp [State.rs, State.ws, Bank.rs_ws_other _ _ h, h]

/-- The vector registers of the running frame after a write. -/
theorem State.rv_wv (s : State) (r q : VReg) (x : Vec) : (s.wv r x).rv q = if q = r then x else s.rv q := by
  by_cases h : q = r
  · subst h; simp [State.rv, State.wv]
  · simp [State.rv, State.wv, Bank.rv_wv_other _ _ h, h]

@[simp] theorem State.rs_advance (s : State) (n : Nat) (q : SReg) : (s.advance n).rs q = s.rs q := by
  simp only [State.rs, State.advance, State.me_updMe]; rfl

@[simp] theorem State.rv_advance (s : State) (n : Nat) (q : VReg) : (s.advance n).rv q = s.rv q := by
  simp only [State.rv, State.advance, State.me_updMe]; rfl

/-- The pc moves past the instruction. -/
@[simp] theorem State.pc_advance (s : State) (n : Nat) : (s.advance n).pc = s.pc + BitVec.ofNat 56 n := by
  simp [State.pc, State.advance]

@[simp] theorem State.pc_ws (s : State) (r : SReg) (x : Word) : (s.ws r x).pc = s.pc := by
  simp [State.pc, State.ws]

@[simp] theorem State.pc_wv (s : State) (r : VReg) (x : Vec) : (s.wv r x).pc = s.pc := by
  simp [State.pc, State.wv]

@[simp] theorem State.pc_wb (s : State) (r : BReg) (x : Word) : (s.wb r x).pc = s.pc := by
  simp [State.pc, State.wb]

@[simp] theorem State.pc_setPc (s : State) (a : BitVec 56) : (s.setPc a).pc = a := by
  simp [State.pc, State.setPc]

/-- The branch-target registers after a write. -/
theorem State.rb_wb (s : State) (r q : BReg) (x : Word) : (s.wb r x).rb q = if q = r then x else s.rb q := by
  by_cases h : q = r
  · subst h
    unfold State.rb State.wb
    rw [State.me_updMe, if_pos rfl]
    exact vecGet_set_same _ _ _
  · unfold State.rb State.wb
    rw [State.me_updMe, if_neg h]
    exact vecGet_set_other _ _ (toFin_ne h)

/-- The hypervectors after a write. -/
theorem State.rh_wh (s : State) (r q : HReg) (x : Hv) : (s.wh r x).rh q = if q = r then x else s.rh q := by
  by_cases h : q = r
  · subst h
    unfold State.rh State.wh
    rw [State.me_updMe, if_pos rfl]
    exact vecGet_set_same _ _ _
  · unfold State.rh State.wh
    rw [State.me_updMe, if_neg h]
    exact vecGet_set_other _ _ (toFin_ne h)

/-- A bring-up in which the micro-kernel has written nothing leaves the core as its reset does (R449). -/
@[simp] theorem Core.booted_reset (n : CoreId) : Core.booted .reset n = Core.reset n := if_pos rfl

/-- A bring-up in which the micro-kernel has written nothing leaves the die as its reset does (R449). -/
@[simp] theorem Die.booted_reset (x : BitVec 4) : Die.booted .reset x = Die.reset := by
  simp [Die.booted, Bringup.reset]

end Sys2Proof.Machine
end

