-- ==== Sys2Proof/Laws/Claims.lean ====
section
/-! SUPPORT. What the shared ends of instructions do, in the words of Safety: every register-only instruction ends in one
of these. -/

namespace Sys2Proof.Machine

/-- Replacing the core in turn by one with the same TCM leaves all memory alone. -/
theorem sameMemory_setMe (s : State) (c : Core) (h : c.tcm = s.me.tcm) : SameMemory s (s.setMe c) := by
  refine ⟨fun _ => rfl, fun n a => ?_, fun _ => rfl, fun _ => rfl⟩
  by_cases hn : n = s.cur
  · subst hn
    show (State.me (s.setMe c)).tcm.get a = _
    rw [State.me_setMe, h]; rfl
  · rw [show (s.setMe c).core n = s.core n from State.core_setCore_other s c hn]

/-- What writing s_d and retiring does. -/
theorem writesS_retire (s : State) (d : SReg) (x : Word) (len : Nat) :
    WritesS s ((s.ws d x).advance len) d x len := by
  have e : (s.ws d x).advance len = s.updMe fun c =>
      { c.updHere fun b => { b with s := (b.ws d x).s } with
        pc := c.pc + BitVec.ofNat 56 len, stalls := c.stalls.set c.lvl.toFin 0 } := by
    simp only [State.ws, State.advance, State.updMe_updMe]
    congr 1; funext c
    have hb : (c.here.ws d x) = { c.here with s := (c.here.ws d x).s } := by
      unfold Bank.ws; split <;> rfl
    have : (c.updHere fun b => b.ws d x) = c.updHere fun b => { b with s := (b.ws d x).s } := by
      unfold Core.updHere Core.updBank
      show c.setBank c.lvl (c.here.ws d x) = c.setBank c.lvl _
      rw [hb]; rfl
    simp only [this]; rfl
  refine ⟨⟨_, _, _, e⟩, ?_, by simp, fun r => by rw [State.rs_advance, State.rs_ws]⟩
  rw [e]; exact sameMemory_setMe s _ rfl

theorem retires_retire {s : State} {i : Instr} {d : SReg} {x : Word} {len : Nat} (h : exec i s = s.retire d x len) :
    Retires s i d x len := ⟨_, h, writesS_retire s d x len⟩

/-- What writing v_d and retiring does. -/
theorem writesV_retire (s : State) (d : VReg) (x : Vec) : WritesV s ((s.wv d x).advance 4) d x := by
  have e : (s.wv d x).advance 4 = s.updMe fun c =>
      { c.updHere fun b => { b with v := (b.wv d x).v } with
        pc := c.pc + BitVec.ofNat 56 4, stalls := c.stalls.set c.lvl.toFin 0 } := by
    simp only [State.wv, State.advance, State.updMe_updMe]; rfl
  refine ⟨⟨_, _, _, e⟩, ?_, by simp, fun r => by rw [State.rv_advance, State.rv_wv]⟩
  rw [e]; exact sameMemory_setMe s _ rfl

theorem retiresV_retire {s : State} {i : Instr} {d : VReg} {x : Vec} (h : exec i s = s.retireV d x) :
    RetiresV s i d x := ⟨_, h, writesV_retire s d x⟩

/-- What writing b_d and retiring does. -/
theorem writesB_retire (s : State) (d : BReg) (x : Word) : WritesB s ((s.wb d x).advance 4) d x := by
  have e : (s.wb d x).advance 4 = s.updMe fun c =>
      { c with b := c.b.set d.toFin x, pc := c.pc + BitVec.ofNat 56 4, stalls := c.stalls.set c.lvl.toFin 0 } := by
    simp only [State.wb, State.advance, State.updMe_updMe]; rfl
  refine ⟨⟨_, _, _, e⟩, ?_, by simp, fun r => ?_⟩
  · rw [e]; exact sameMemory_setMe s _ rfl
  · show (((s.wb d x).advance 4).me.b.get r.toFin) = _
    rw [show ((s.wb d x).advance 4).me.b.get r.toFin = (s.wb d x).rb r by
      simp only [State.advance, State.me_updMe]; rfl]
    exact State.rb_wb s d r x

/-- An untaken branch goes on behind itself. -/
theorem goesTo_advance {s : State} {i : Instr} {len : Nat} (h : exec i s = .next (s.advance len)) :
    GoesTo s i (s.pc + BitVec.ofNat 56 len) :=
  ⟨_, h, ⟨_, _, rfl⟩, sameMemory_setMe s _ rfl, by simp⟩

/-- A transfer to an even address within 56 bits goes there (R202). -/
theorem jump_good (s s' : State) (t : Int) (h2 : t % 2 = 0) (h0 : 0 ≤ t) (h : t < 2 ^ 56) :
    s.jump s' t = .next ((s'.advance 0).setPc (BitVec.ofInt 56 t)) := by
  unfold State.jump
  rw [if_neg (by omega), if_neg (by omega)]

theorem goesTo_jump {s : State} {i : Instr} {t : Int} (e : exec i s = s.jump s t) (h2 : t % 2 = 0) (h0 : 0 ≤ t)
    (h : t < 2 ^ 56) : GoesTo s i (BitVec.ofInt 56 t) := by
  rw [jump_good s s t h2 h0 h] at e
  refine ⟨_, e, ?_, ?_, by simp⟩
  · exact ⟨BitVec.ofInt 56 t, s.me.stalls.set s.me.lvl.toFin 0, by
      simp only [State.advance, State.setPc, State.updMe_updMe]; rfl⟩
  · simp only [State.advance, State.setPc, State.updMe_updMe]; exact sameMemory_setMe s _ rfl

end Sys2Proof.Machine
end

