-- ==== Sys2Proof/Laws/Memory.lean ====
section
/-! SUPPORT. The laws of memory: reading after writing, and that every operation over memory keeps its canonical form. -/

namespace Sys2Proof.Machine

/-! ## One memory -/

/-- Reading the byte written. -/
@[simp] theorem Memory.get_set_same (m : Memory) (a : Nat) (b : Byte) : (m.set a b).get a = b :=
  Cells.getD_putD_same _ m a b

/-- A write leaves every other byte alone. -/
theorem Memory.get_set_other (m : Memory) {a c : Nat} (b : Byte) (h : c ≠ a) : (m.set a b).get c = m.get c :=
  Cells.getD_putD_other _ m b h

/-- Bytes outside those written read as before. -/
theorem Memory.get_write_other (l : List Byte) : ∀ (m : Memory) (a c : Nat), c < a ∨ a + l.length ≤ c →
    (m.write a l).get c = m.get c := by
  induction l with
  | nil => intro m a c _; rfl
  | cons b r ih =>
    intro m a c h
    simp only [List.length_cons] at h
    rw [Memory.write, ih _ _ _ (by omega), Memory.get_set_other _ _ (by omega)]

/-- Reading back all the bytes written. -/
theorem Memory.read_write_same (l : List Byte) : ∀ (m : Memory) (a : Nat), (m.write a l).read a l.length = l := by
  induction l with
  | nil => intro m a; rfl
  | cons b r ih =>
    intro m a
    rw [List.length_cons, Memory.read, Memory.write, ih, Memory.get_write_other _ _ _ _ (by omega),
      Memory.get_set_same]

/-- The bytes a value splits into join to that value. -/
theorem joinBytes_splitBytes (n : Nat) : ∀ v, joinBytes (splitBytes n v) = v % 256 ^ n := by
  induction n with
  | zero => intro v; simp [splitBytes, joinBytes, Nat.mod_one]
  | succ n ih =>
    intro v
    have h : v % (256 * 256 ^ n) = v % 256 + 256 * (v / 256 % 256 ^ n) := Nat.mod_mul
    rw [splitBytes, joinBytes, ih, BitVec.toNat_ofNat, Nat.pow_succ (n := 256), Nat.mul_comm (256 ^ n) 256, h]

@[simp] theorem splitBytes_length (n : Nat) : ∀ v, (splitBytes n v).length = n := by
  induction n with
  | zero => intro v; rfl
  | succ n ih => intro v; simp [splitBytes, ih]

theorem Memory.wf_set (m : Memory) (a : Nat) (b : Byte) (h : m.wf = true) : (m.set a b).wf = true :=
  Cells.wf_putD _ m a b h

theorem Memory.wf_write (l : List Byte) : ∀ (m : Memory) (a : Nat), m.wf = true → (m.write a l).wf = true := by
  induction l with
  | nil => intro m a h; exact h
  | cons b r ih => intro m a h; exact ih _ _ (Memory.wf_set m a b h)

theorem Memory.wf_clear (m : Memory) (lo hi : Nat) (h : m.wf = true) : (m.clear lo hi).wf = true :=
  Cells.wfFrom_drop _ _ m h

/-- Memory lists nothing after reset, in canonical form. -/
theorem reset_memory_wf : State.reset.mem.wf = true := rfl

/-! ## Operations that leave the module's memory as it is -/

/-- What every step of a fold keeps, the fold keeps. -/
theorem foldl_keeps {α σ : Type} (p : σ → Prop) (f : σ → α → σ) (hf : ∀ s x, p s → p (f s x)) :
    ∀ (l : List α) (s : σ), p s → p (l.foldl f s) := by
  intro l
  induction l with
  | nil => intro s h; exact h
  | cons x r ih => intro s h; exact ih _ (hf s x h)

@[simp] theorem State.touchLine_mem (s : State) (dom : BitVec 16) (pa : Nat) : (s.touchLine dom pa).mem = s.mem := by
  unfold State.touchLine; split <;> rfl

@[simp] theorem State.updFrame_mem (s : State) (cl : BitVec 14) (i : Nat) (f : Frame → Frame) :
    (s.updFrame cl i f).mem = s.mem := rfl

@[simp] theorem State.post_mem (s : State) (t : Transit) : (s.post t).mem = s.mem := rfl

@[simp] theorem State.unpin_mem (s : State) (n : CoreId) : (s.unpin n).mem = s.mem := by
  unfold State.unpin; dsimp only; split <;> rfl

/-- Refilling the nodes of a walk changes no byte. -/
@[simp] theorem State.touchNodes_mem (die : BitVec 4) (buf : List StoreEntry) (va : BitVec 56) (l : Nat) :
    ∀ (s : State) (n : Nat), (s.touchNodes die buf va n l).mem = s.mem := by
  induction l with
  | zero => intro s n; rfl
  | succ l ih =>
    intro s n
    unfold State.touchNodes
    dsimp only
    split <;> split <;> simp [ih]

@[simp] theorem State.translate_mem (s : State) (die : BitVec 4) (va : BitVec 56) (buf : List StoreEntry) :
    (s.translate die va buf).1.mem = s.mem := by
  unfold State.translate; split
  · rfl
  · dsimp only
    split <;> simp

/-- A copy taken changes no byte at its home. -/
@[simp] theorem State.takeCopy_mem (s : State) (die : BitVec 4) (dom : BitVec 16) (va pa : Nat) :
    (s.takeCopy die dom va pa).mem = s.mem := by simp [State.takeCopy]

/-- A further name of a copy changes no byte. -/
@[simp] theorem State.nameCopy_mem (s : State) (die : BitVec 4) (va pa : Nat) (c : Copy) :
    (s.nameCopy die va pa c).mem = s.mem := by unfold State.nameCopy; split <;> rfl

/-! ## Operations that write it -/

theorem State.rekey_wf (s : State) (dom : BitVec 16) (pa : Nat) (h : s.mem.wf = true) : (s.rekey dom pa).mem.wf = true := by
  unfold State.rekey
  split
  · exact h
  · exact Memory.wf_write _ _ _ h

theorem State.homeSet_wf (s : State) (dom : BitVec 16) (pa : Nat) (b : Byte) (h : s.mem.wf = true) :
    (s.homeSet dom pa b).mem.wf = true := Memory.wf_set _ _ _ (s.rekey_wf dom pa h)

theorem State.homeWrite_wf (dom : BitVec 16) (l : List Byte) : ∀ (s : State) (pa : Nat), s.mem.wf = true →
    (s.homeWrite dom pa l).mem.wf = true := by
  induction l with
  | nil => intro s pa h; exact h
  | cons b r ih => intro s pa h; exact ih _ _ (s.homeSet_wf dom pa b h)

theorem State.homeStore_wf (s : State) (dom : BitVec 16) (pa : Nat) (bs : List Byte) (h : s.mem.wf = true) :
    (s.homeStore dom pa bs).mem.wf = true := by
  have hw := State.homeWrite_wf dom bs s pa h
  unfold State.homeStore
  dsimp only
  split <;> simpa using hw

theorem State.writeBackFrom_wf (dom : BitVec 16) (word : Nat) (data : Word) (dirty : Byte) (n : Nat) :
    ∀ (s : State), s.mem.wf = true → (s.writeBackFrom dom word data dirty n).mem.wf = true := by
  induction n with
  | zero => intro s h; exact h
  | succ n ih =>
    intro s h
    unfold State.writeBackFrom
    dsimp only
    split
    · exact State.homeSet_wf _ _ _ _ (ih s h)
    · exact ih s h

theorem State.writeBack_wf (s : State) (word : Nat) (c : Copy) (h : s.mem.wf = true) :
    (s.writeBack word c).mem.wf = true := by
  have hw := State.writeBackFrom_wf c.dom word c.data c.dirty 8 s h
  unfold State.writeBack
  split
  · exact h
  · dsimp only
    split <;> simpa using hw

theorem State.releaseDie_wf (s : State) (die : BitVec 4) (h : s.mem.wf = true) : (s.releaseDie die).mem.wf = true := by
  unfold State.releaseDie
  exact foldl_keeps (fun s : State => s.mem.wf = true) _ (fun s x hs => s.writeBack_wf x.1 x.2 hs) _ s h

theorem State.acquireDie_wf (s : State) (die : BitVec 4) (h : s.mem.wf = true) : (s.acquireDie die).mem.wf = true := by
  unfold State.acquireDie
  exact foldl_keeps (fun s : State => s.mem.wf = true) _ (fun s x hs => s.writeBack_wf x.1 x.2 hs) _ s h

theorem State.releaseAt_wf (s : State) (die : BitVec 4) (sc : Scope) (h : s.mem.wf = true) :
    (s.releaseAt die sc).mem.wf = true := by
  cases sc <;> first | exact h | exact s.releaseDie_wf die h

theorem State.acquireAt_wf (s : State) (die : BitVec 4) (sc : Scope) (h : s.mem.wf = true) :
    (s.acquireAt die sc).mem.wf = true := by
  cases sc <;> first | exact h | exact s.acquireDie_wf die h

theorem State.evictCopy_wf (s : State) (die : BitVec 4) (word : Nat) (h : s.mem.wf = true) :
    (s.evictCopy die word).mem.wf = true := by
  unfold State.evictCopy
  split
  · exact s.writeBack_wf word _ h
  · exact h

theorem State.settle_wf (s : State) (die : BitVec 4) (l : Loc) (h : s.mem.wf = true) :
    (s.settle die l).mem.wf = true := by
  cases l <;> first | exact h | exact s.evictCopy_wf die _ h

theorem State.dieRead_wf (s : State) (die : BitVec 4) (dom : BitVec 16) (va pa n : Nat) (h : s.mem.wf = true) :
    (s.dieRead die dom va pa n).1.mem.wf = true := by
  unfold State.dieRead
  dsimp only
  split
  · simpa using h
  · split
    · split
      · rw [State.nameCopy_mem]; exact h
      · rw [State.takeCopy_mem]; exact s.evictCopy_wf die _ h
    · rw [State.takeCopy_mem]; exact h

theorem State.dieWrite_wf (s : State) (die : BitVec 4) (dom : BitVec 16) (va pa : Nat) (bs : List Byte)
    (h : s.mem.wf = true) : (s.dieWrite die dom va pa bs).mem.wf = true := by
  unfold State.dieWrite
  dsimp only
  split
  · exact s.homeStore_wf _ _ _ h
  · rw [State.updDie_mem]
    apply State.dieRead_wf
    split
    · split
      · exact h
      · exact s.evictCopy_wf die _ h
    · exact h

theorem State.partStore_wf (s : State) (die : BitVec 4) (va : Nat) (w : Word) {t : State} (h : s.mem.wf = true)
    (e : s.partStore die va w = some t) : t.mem.wf = true := by
  have ht := s.translate_mem die (BitVec.ofNat 56 va) []
  unfold State.partStore at e
  split at e
  · rename_i s' pa heq
    rw [heq] at ht
    cases e
    exact State.dieWrite_wf _ _ _ _ _ _ (by rw [ht]; exact h)
  · cases e

theorem State.partStore4_wf (s : State) (die : BitVec 4) (va : Nat) (x : BitVec 32) {t : State} (h : s.mem.wf = true)
    (e : s.partStore4 die va x = some t) : t.mem.wf = true := by
  have ht := s.translate_mem die (BitVec.ofNat 56 va) []
  unfold State.partStore4 at e
  split at e
  · rename_i s' pa heq
    rw [heq] at ht
    cases e
    exact State.dieWrite_wf _ _ _ _ _ _ (by rw [ht]; exact h)
  · cases e

theorem State.partStores_wf (die : BitVec 4) (l : List Word) : ∀ (s : State) (va : Nat) {t : State}, s.mem.wf = true →
    s.partStores die va l = some t → t.mem.wf = true := by
  induction l with
  | nil => intro s va t h e; cases e; exact h
  | cons w r ih =>
    intro s va t h e
    unfold State.partStores at e
    split at e
    · rename_i s' heq
      exact ih s' _ (s.partStore_wf die va w h heq) e
    · cases e

theorem State.putBytes_wf (die : BitVec 4) (f : Frame) (l : List Nat) : ∀ (s : State), s.mem.wf = true →
    (s.putBytes die f l).mem.wf = true := by
  induction l with
  | nil => intro s h; exact h
  | cons o r ih => intro s h; exact State.homeSet_wf _ _ _ _ (ih s h)

theorem State.writePage_wf (s : State) (die : BitVec 4) (f : Frame) (h : s.mem.wf = true) :
    (s.writePage die f).mem.wf = true := by
  let p (s : State) : Prop := s.mem.wf = true
  unfold State.writePage
  dsimp only
  have h1 := foldl_keeps p _ (fun s (w : Nat) hs => s.evictCopy_wf die ((f.pa + 8 * w) / 8) hs)
    ((upFrom 0 512).filter fun w => f.dirty.any (fun o => o / 8 == w) || f.dirtyFe.contains w) s h
  have h2 := State.putBytes_wf die f f.dirty _ h1
  have h3 := foldl_keeps p
    (fun (s : State) w => { s with fe := feSet s.fe (s.live (f.pa + 8 * w) / 8) (feGet f.fe w) })
    (fun s w hs => hs) f.dirtyFe _ h2
  have h4 := foldl_keeps p
    (fun (s : State) w => { s with poison := poisonSet s.poison (s.live (f.pa + 8 * w) / 8) false })
    (fun s w hs => hs) f.whole _ h3
  exact foldl_keeps p _ (fun s w hs => by show Memory.wf _ = true; rw [State.touchLine_mem]; exact hs) _ _ h4

theorem State.spotWrite_wf (s : State) (p : Spot) (dom : BitVec 16) (x : Word) (h : s.mem.wf = true) :
    (s.spotWrite p dom x).mem.wf = true := by
  unfold State.spotWrite
  split
  · exact h
  · split <;> exact h
  all_goals exact s.homeStore_wf _ _ _ h

theorem State.spotTouch_wf (s : State) (p : Spot) (dom : BitVec 16) (h : s.mem.wf = true) :
    (s.spotTouch p dom).mem.wf = true := by
  unfold State.spotTouch
  split
  · rw [State.touchLine_mem]; exact h
  · exact h

theorem State.recallAt_wf (s : State) (die : BitVec 4) (p : Spot) (h : s.mem.wf = true) :
    (s.recallAt die p).mem.wf = true := by
  have h1 := s.evictCopy_wf die p.word h
  unfold State.recallAt
  split
  · dsimp only
    split
    · exact State.evictCopy_wf _ _ _ h1
    · exact h1
  · exact h

theorem State.amoAt_wf (s : State) (p : Spot) (dom : BitVec 16) (op : AmoOp) (e y : Word) (h : s.mem.wf = true) :
    (s.amoAt p dom op e y).1.mem.wf = true := by
  unfold State.amoAt
  dsimp only
  split
  · exact State.spotWrite_wf _ _ _ _ (s.spotTouch_wf p dom h)
  · exact s.spotTouch_wf p dom h

@[simp] theorem State.spotSetFull_mem (s : State) (p : Spot) (x : Bool) : (s.spotSetFull p x).mem = s.mem := by
  unfold State.spotSetFull
  split
  · rfl
  · split
    · split <;> rfl
    · rfl
  all_goals rfl

/-- A reply changes no byte of memory. -/
@[simp] theorem State.syncReply_mem (s : State) (m : Mooring) (x : Word) (st : BitVec 2) : (s.syncReply m x st).mem = s.mem := by
  unfold State.syncReply
  split
  case h_4 => split <;> rfl
  all_goals rfl

@[simp] theorem State.shapeFilled_mem (s : State) (p : Spot) (b a : Bool) (x : Word) : (s.shapeFilled p b a x).mem = s.mem := by
  unfold State.shapeFilled; split <;> rfl

theorem State.recallFor_wf (s : State) (m : Mooring) (h : s.mem.wf = true) : (s.recallFor m).mem.wf = true := by
  unfold State.recallFor
  split
  · exact s.recallAt_wf _ _ h
  · exact h

/-- A sync access, an atomic or a plain access performed at its owner keeps the form of memory. -/
theorem State.syncApply_wf (s : State) (m : Mooring) (dom : BitVec 16) (h : s.mem.wf = true) :
    (s.syncApply m dom).mem.wf = true := by
  have h1 := s.recallFor_wf m h
  unfold State.syncApply
  dsimp only
  generalize s.recallFor m = u at h1 ⊢
  split
  · unfold State.plainAt
    rw [State.syncReply_mem]
    split
    · exact h1
    · exact u.homeStore_wf _ _ _ h1
  · split <;> rw [State.syncReply_mem]
    · exact h1
    · exact u.amoAt_wf _ _ _ _ _ h1
  · split <;> rw [State.syncReply_mem]
    · exact h1
    · have h2 := u.spotTouch_wf { owner := m.owner, word := m.word, dom := m.dom } dom h1
      split
      · rw [State.shapeFilled_mem, State.spotSetFull_mem]; exact State.spotWrite_wf _ _ _ _ h2
      · rw [State.spotSetFull_mem]; exact h2

theorem State.onChange_wf (p : Spot) (k : Nat) : ∀ s : State, s.mem.wf = true → (s.onChange p k).mem.wf = true := by
  induction k with
  | zero => intro s h; exact h
  | succ k ih =>
    intro s h
    unfold State.onChange
    split
    · split
      · exact ih _ (State.syncApply_wf _ _ _ h)
      · exact h
    · exact h

/-- The waiting entries of a page move without touching a byte (R80). -/
@[simp] theorem State.moveMoorings_mem (s : State) (cl : BitVec 14) (f : Frame) : (s.moveMoorings cl f).mem = s.mem := by
  unfold State.moveMoorings
  dsimp only
  refine foldl_keeps (fun t : State => t.mem = s.mem) _ (fun t x ht => ?_) _ _ rfl
  unfold State.moveMooring
  dsimp only
  split <;> exact ht

theorem State.wakePage_wf (s : State) (f : Frame) (h : s.mem.wf = true) : (s.wakePage f).mem.wf = true := by
  unfold State.wakePage
  split
  · exact h
  · exact foldl_keeps (fun s : State => s.mem.wf = true) _ (fun s w hs => State.onChange_wf _ _ s hs) _ s h

/-- A page that leaves its frame, with the entries that waited at its words, keeps the form of memory. -/
theorem State.evictFrame_wf (s : State) (cl : BitVec 14) (i : Nat) (h : s.mem.wf = true) :
    (s.evictFrame cl i).mem.wf = true := by
  unfold State.evictFrame
  split
  · refine State.wakePage_wf _ _ ?_
    rw [State.updCluster_mem, State.moveMoorings_mem]
    exact State.writePage_wf _ _ _ h
  · exact h

theorem State.makeRoom_wf (s : State) (cl : BitVec 14) (h : s.mem.wf = true) : (s.makeRoom cl).mem.wf = true := by
  unfold State.makeRoom
  split
  · split
    · exact s.evictFrame_wf cl _ h
    · exact h
  · exact h

theorem State.ownPage_wf (s : State) (die : BitVec 4) (dom : BitVec 16) (pa : Nat) (h : s.mem.wf = true) :
    (s.ownPage die dom pa).mem.wf = true := by
  unfold State.ownPage
  refine foldl_keeps (fun s : State => s.mem.wf = true) _ (fun s i hs => by rw [State.touchLine_mem]; exact hs) _ _ ?_
  refine foldl_keeps (fun s : State => s.mem.wf = true) _ (fun s w hs => ?_) _ _ h
  split
  · split
    · exact hs
    · exact s.evictCopy_wf _ _ hs
  · exact hs

@[simp] theorem State.putFrame_mem (s : State) (cl : BitVec 14) (f : Frame) : (s.putFrame cl f).mem = s.mem := rfl

theorem State.fillPage_wf (s : State) (cl : BitVec 14) (dom : BitVec 16) (backing : BitVec 44) (pa : Nat)
    (h : s.mem.wf = true) : (s.fillPage cl dom backing pa).mem.wf = true := by
  unfold State.fillPage
  rw [State.putFrame_mem]
  exact State.ownPage_wf _ _ _ _ (s.makeRoom_wf cl h)

end Sys2Proof.Machine
end

