-- ==== Sys2Proof/Laws/Ops.lean ====
section
/-! SUPPORT. One law for each shared operation of the instructions: what it answers, and what it leaves alone. -/

namespace Sys2Proof.Machine

/-! ## Demands and outcomes -/

@[simp] theorem demand_true (s : State) (e : Stop) : demand true s e = .ok () := rfl
@[simp] theorem demand_false (s : State) (e : Stop) : demand false s e = .error (s, e) := rfl

/-- A demand passes exactly when its condition holds. -/
theorem demand_ok {c : Bool} {s : State} {e : Stop} {u : Unit} : demand c s e = .ok u ↔ c = true := by
  cases c <;> simp

/-- A demand fails exactly with the stop it names. -/
theorem demand_error {c : Bool} {s : State} {e : Stop} {x : State × Stop} :
    demand c s e = .error x ↔ c = false ∧ x = (s, e) := by
  cases c <;> simp [eq_comm]

@[simp] theorem finish_ok (s : State) : finish (.ok s) = .next s := rfl
@[simp] theorem finish_error (s : State) (e : Stop) : finish (.error (s, e)) = .next (s.stop e) := rfl

/-- An operation's outcome is always a next state. -/
theorem finish_next (r : Except (State × Stop) State) : ∃ t, finish r = .next t := by
  rcases r with ⟨s, e⟩ | s <;> exact ⟨_, rfl⟩

/-- A sequence of operations passes exactly when each part passes. -/
theorem res_bind_ok {α β : Type} {x : Res α} {f : α → Res β} {b : β} :
    (x >>= f) = .ok b ↔ ∃ a, x = .ok a ∧ f a = .ok b := by
  cases x <;> simp [bind, Except.bind]

/-- A sequence of operations stops at the first part that stops. -/
theorem res_bind_error {α β : Type} {x : Res α} {f : α → Res β} {e : State × Stop} :
    (x >>= f) = .error e ↔ x = .error e ∨ ∃ a, x = .ok a ∧ f a = .error e := by
  cases x <;> simp [bind, Except.bind]

/-! ## Stops -/

@[simp] theorem State.stop_hold (s : State) : s.stop .hold = s := rfl
@[simp] theorem State.stop_trap (s : State) (c : BitVec 5) (a : Word) :
    s.stop (.trap c a) = s.takeTrap s.cur c a s.pc false := rfl

/-- An instruction that stops with a trap at its own address takes it. -/
theorem traps_stop {s : State} {i : Instr} {c : BitVec 5} {a : Word} (h : exec i s = .next (s.stop (.trap c a))) :
    Traps s i c a := h

theorem traps_finish {s : State} {i : Instr} {c : BitVec 5} {a : Word} {r : Except (State × Stop) State}
    (h : exec i s = finish r) (hr : r = .error (s, .trap c a)) : Traps s i c a := by
  show exec i s = _
  rw [h, hr]; rfl

/-! ## Memory left alone -/

theorem SameMemory.refl (s : State) : SameMemory s s := ⟨fun _ => rfl, fun _ _ => rfl, fun _ => rfl, fun _ => rfl⟩

theorem SameMemory.trans {s t u : State} (h : SameMemory s t) (k : SameMemory t u) : SameMemory s u :=
  ⟨fun a => (k.1 a).trans (h.1 a), fun n a => (k.2.1 n a).trans (h.2.1 n a), fun c => (k.2.2.1 c).trans (h.2.2.1 c),
    fun d => (k.2.2.2 d).trans (h.2.2.2 d)⟩

/-- Changing a core but not its TCM leaves all memory alone. -/
theorem sameMemory_updCore (s : State) (n : CoreId) (f : Core → Core) (h : ∀ c, (f c).tcm = c.tcm) :
    SameMemory s (s.updCore n f) := by
  refine ⟨fun _ => rfl, fun m a => ?_, fun _ => rfl, fun _ => rfl⟩
  by_cases hm : m = n
  · subst hm; rw [State.core_updCore_same, h]
  · rw [State.core_updCore_other s f hm]

/-- Putting a message on its way leaves all memory alone. -/
theorem sameMemory_post (s : State) (t : Transit) : SameMemory s (s.post t) := SameMemory.refl s

/-- What every step of a fold leaves alone, the fold leaves alone. -/
theorem sameMemory_foldl {α : Type} (f : State → α → State) (h : ∀ s x, SameMemory s (f s x)) (l : List α) (s : State) :
    SameMemory s (l.foldl f s) :=
  foldl_keeps (fun t => SameMemory s t) f (fun t x ht => ht.trans (h t x)) l s (SameMemory.refl s)

/-! ## Taking a trap -/

theorem sameMemory_detachFollowers (s : State) (n : CoreId) : SameMemory s (s.detachFollowers n) := by
  unfold State.detachFollowers
  split
  · split
    · refine sameMemory_foldl _ (fun s i => ?_) _ s
      dsimp only
      split
      · split
        · exact sameMemory_updCore s _ _ fun _ => rfl
        · exact SameMemory.refl s
      · exact SameMemory.refl s
    · exact SameMemory.refl s
  · exact SameMemory.refl s

/-- A detachment changes no memory. -/
theorem sameMemory_detach (s : State) (n : CoreId) : SameMemory s (s.detach n) := by
  unfold State.detach
  split
  · dsimp only
    split
    · exact sameMemory_detachFollowers s n
    · exact (sameMemory_detachFollowers s n).trans (sameMemory_updCore _ _ _ fun _ => rfl)
  · exact SameMemory.refl s

/-- Unpinning pages changes none of them (R77). -/
theorem sameMemory_unpin (s : State) (n : CoreId) : SameMemory s (s.unpin n) := by
  unfold State.unpin
  dsimp only
  split
  · exact SameMemory.refl s
  · refine ⟨fun _ => rfl, fun _ _ => rfl, fun cl => ?_, fun _ => rfl⟩
    by_cases h : cl = clusterOf n
    · subst h
      rw [State.cluster_updCluster_same, List.map_map]
      rfl
    · rw [State.cluster_updCluster_other s _ h]

/-- Without a membership nothing detaches. -/
theorem State.detach_none (s : State) (n : CoreId) (h : (s.core n).member = none) : s.detach n = s := by
  simp [State.detach, h]

/-- Entering level 7 stores nothing (R347). -/
theorem sameMemory_enterTrap (s : State) (n : CoreId) (c : BitVec 5) (a : Word) (epc : BitVec 56) (async : Bool) :
    SameMemory s (s.enterTrap n c a epc async) := by
  refine ((sameMemory_detach s n).trans (sameMemory_unpin _ n)).trans (sameMemory_updCore _ n _ fun k => ?_)
  simp only [Core.saveFrame]
  split <;> rfl

/-- An asynchronous entry of the service core stores nothing (R445). -/
theorem sameMemory_alert (s : State) (n : CoreId) (a : Word) : SameMemory s (s.alert n a) := by
  unfold State.alert
  dsimp only
  split
  · exact sameMemory_updCore s n _ fun _ => rfl
  · exact sameMemory_enterTrap s n _ _ _ _

/-- Stopping a core stores nothing (R347, R445). -/
theorem sameMemory_stopCore (s : State) (n : CoreId) : SameMemory s (s.stopCore n) :=
  have logged (s : State) (l : List (Byte × Word)) : SameMemory s { s with ctrlLog := l } := SameMemory.refl s
  ((sameMemory_updCore s n (fun k => { k with stopped := true }) fun _ => rfl).trans (logged _ _)).trans
    (sameMemory_alert _ _ _)

/-- A trap at level 7 stores nothing (R347). -/
theorem sameMemory_nestedTrap (s : State) (n : CoreId) (c : BitVec 5) : SameMemory s (s.nestedTrap n c) := by
  unfold State.nestedTrap State.nestedTrapAt
  exact ((sameMemory_detach s n).trans (sameMemory_updCore _ n (fun k => { k with xcause := c, xepc := (s.core n).pc }) fun _ => rfl)).trans
    (sameMemory_stopCore _ n)

/-- Taking a trap, at every level, stores nothing (R347). -/
theorem sameMemory_takeTrap (s : State) (n : CoreId) (c : BitVec 5) (a : Word) (epc : BitVec 56) (async : Bool) :
    SameMemory s (s.takeTrap n c a epc async) := by
  unfold State.takeTrap
  split
  · exact sameMemory_nestedTrap s n c
  · exact sameMemory_enterTrap s n c a epc async

/-! ## Checks of an access -/

/-- A level-7 access to the management space is one to a global address (R432). -/
@[simp] theorem State.topMgmt_tcm (s : State) (ea : Word) : s.topMgmt .tcm ea = false := rfl
@[simp] theorem State.topMgmt_scratch (s : State) (ea : Word) : s.topMgmt .scratch ea = false := rfl

/-- The checks of an access to the TCM leave the state as it is and name the offset (R216, R70). -/
theorem State.check_tcm {s t : State} {ea : Word} {n : Nat} {rd wr sync : Bool} {p : Acc}
    (h : s.check .tcm ea n rd wr sync = .ok (t, p)) :
    t = s ∧ p = { loc := .tcm s.cur ea.toNat, va := ea.toNat, pa := 0 } ∧ ea.toNat % n = 0 ∧ ea.toNat ≤ 0xBFFF ∧
      s.me.tcmAllowed ea.toNat wr = true := by
  simp only [State.check, res_bind_ok, demand_ok, decide_eq_true_eq] at h
  obtain ⟨_, _, _, h1, _, h2, _, h3, h4⟩ := h
  cases h4
  exact ⟨rfl, rfl, h1, h2, h3⟩

/-- An access to the TCM that is aligned, in range and allowed passes the checks. -/
theorem State.check_tcm_ok (s : State) {ea : Word} {n : Nat} {rd wr sync : Bool} (h1 : ea.toNat % n = 0)
    (h2 : ea.toNat ≤ 0xBFFF) (h3 : s.me.tcmAllowed ea.toNat wr = true) :
    s.check .tcm ea n rd wr sync = .ok (s, { loc := .tcm s.cur ea.toNat, va := ea.toNat, pa := 0 }) := by
  simp [State.check, h1, h2, h3, bind, Except.bind]

/-- An access that is not aligned to its size traps with cause 0x02 in every space (R68), but for the management space at level 7. -/
theorem State.check_misaligned (s : State) {sp : Space} {ea : Word} {n : Nat} {rd wr sync : Bool}
    (hm : s.topMgmt sp ea = false) (h : ea.toNat % n ≠ 0) :
    s.check sp ea n rd wr sync = .error (s, .trap 0x02 ea) := by
  simp [State.check, hm, h, bind, Except.bind]

/-- A checked access of level 7 to the management space traps with cause 0x03, however wide and however aligned (R432). -/
theorem State.check_topMgmt (s : State) {sp : Space} {ea : Word} {n : Nat} {rd wr sync : Bool} (h : s.topMgmt sp ea = true) :
    s.check sp ea n rd wr sync = .error (s, .trap 0x03 ea) := by
  simp [State.check, h, bind, Except.bind]

/-! ## The store buffer -/

/-- With room in the buffer a store enters it behind the others, under a number of its own (R217). -/
theorem State.append_room (s : State) (e : StoreEntry) (h : s.me.sbuf.length < 16) :
    s.append e = .ok { (s.updMe fun c => { c with sbuf := c.sbuf ++ [{ e with tag := s.nextId }],
                                                  unacked := c.unacked ++ [s.nextId] }) with nextId := s.nextId + 1 } := by
  have : ¬ 16 ≤ s.me.sbuf.length := by omega
  simp [State.append, this]

/-- With no sync read under way and no atomic ahead nothing is waited for (R113, R120). -/
theorem State.settleFlights_none (s : State) (n : CoreId) (h : (s.core n).flight = []) (ha : (s.core n).amoWait = false) :
    s.settleFlights n = .ok s := by
  simp [State.settleFlights, h, ha]

/-- An access that follows an atomic of the core's which is not performed waits for it (R120). -/
theorem State.settleFlights_wait (s : State) (n : CoreId) (h : (s.core n).amoWait = true) :
    s.settleFlights n = .error (s, .hold) := by
  simp [State.settleFlights, h]

/-- An empty buffer needs no draining. -/
theorem State.drain_empty (s : State) (n : CoreId) (h : (s.core n).sbuf = []) (hf : (s.core n).flight = [])
    (ha : (s.core n).amoWait = false) : s.drain n = .ok s := by
  simp [State.drain, State.drainFrom, State.settleFlights, bind, Except.bind, h, hf, ha]

/-- A frame that is no instance stores into the buffer. -/
theorem State.storeAt_firm (s : State) (sp : Space) (a : Acc) (k : Nat) (x : Word) (h : s.tentative = false) :
    s.storeAt sp a k x = s.append { space := sp, va := a.va, pa := a.pa, size := k, data := x, mode := none, tag := 0,
                                    dom := s.me.dom, region := s.me.region, scope := .core } := by
  unfold State.tentative at h
  unfold State.storeAt
  dsimp only
  split
  · rename_i i hi
    rw [hi] at h
    simp only at h
    rw [if_neg (by simp [h])]
  · rfl

end Sys2Proof.Machine
end

