-- ==== Sys2Proof/Tests/Slice0.lean ====
section
/-! SUPPORT. Tests of the model: ill-formed terms that the check refuses, words decoded, small steps, and for every statement
with hypotheses a state and operands that meet them. -/

namespace Sys2Proof.Machine.Tests

set_option Elab.async false
set_option maxRecDepth 100000

/-- The module after reset, the core in turn in a frame of level l with some registers set, and changed by f. -/
def frame (l : BitVec 4) (regs : List (SReg × Word)) (f : Core → Core := id) : State :=
  State.reset.updMe fun c =>
    f (({ c with level := l, thresh := l, slim := 0x4000, pc := 0x1000 } : Core).updHere fun b =>
      regs.foldl (fun b p => b.ws p.1 p.2) { b with live := true, fbase := 0xA000, fclass := 1 })

/-- The walkers of die 0 keep one translation: addresses below 2^36 are their own. -/
def mapped (s : State) : State := s.updDie 0 fun d => { d with tlb := [{ page := 0, level := 2, frame := 0 }] }

/-- The core's PLB grants every right. -/
def open_ (c : Core) : Core := { c with plb := c.plb.set 0 PlbEntry.all }

/-- The operation answers a value with property p. -/
def gives {ε α : Type} (r : Except ε α) (p : α → Bool) : Bool :=
  match r with
  | .ok x => p x
  | .error _ => false

theorem exists_of_gives {ε α : Type} {r : Except ε α} {p : α → Bool} (h : gives r p = true) : ∃ x, r = .ok x ∧ p x = true := by
  cases r with
  | ok x => exact ⟨x, rfl, h⟩
  | error e => cases h

theorem test_decode_major_0x00 :
    decodeTableWord 32 0xC03D7C00 = some (.add 7 21 30) ∧
    decodeTableWord 32 0xC03D7C01 = some (.sub 7 21 30) ∧
    decodeTableWord 32 0xC03D7C02 = some (.mul 7 21 30) ∧
    decodeTableWord 32 0xC03D7C03 = some (.mulh 7 21 30) ∧
    decodeTableWord 32 0xC03D7C04 = some (.mulhu 7 21 30) ∧
    decodeTableWord 32 0xC03D7C05 = some (.min 7 21 30) ∧
    decodeTableWord 32 0xC03D7C06 = some (.max 7 21 30) ∧
    decodeTableWord 32 0xC03D7C07 = some (.minu 7 21 30) ∧
    decodeTableWord 32 0xC03D7C08 = some (.maxu 7 21 30) := by decide +kernel

theorem test_decode_major_0x01 :
    decodeTableWord 32 0xC13D7C00 = some (.div 7 21 30) ∧
    decodeTableWord 32 0xC13D7C01 = some (.divu 7 21 30) ∧
    decodeTableWord 32 0xC13D7C02 = some (.rem 7 21 30) ∧
    decodeTableWord 32 0xC13D7C03 = some (.remu 7 21 30) := by decide +kernel

theorem test_decode_major_0x02 :
    decodeTableWord 32 0xC23D7C00 = some (.and 7 21 30) ∧
    decodeTableWord 32 0xC23D7C01 = some (.or 7 21 30) ∧
    decodeTableWord 32 0xC23D7C02 = some (.xor 7 21 30) ∧
    decodeTableWord 32 0xC23D7C03 = some (.andn 7 21 30) := by decide +kernel

theorem test_decode_major_0x03 :
    decodeTableWord 32 0xC33D7C00 = some (.shl 7 21 30) ∧
    decodeTableWord 32 0xC33D7C01 = some (.shr 7 21 30) ∧
    decodeTableWord 32 0xC33D7C02 = some (.sar 7 21 30) ∧
    decodeTableWord 32 0xC33D7C03 = some (.rot 7 21 30) := by decide +kernel

theorem test_decode_major_0x04 :
    decodeTableWord 32 0xC43D4000 = some (.clz 7 21) ∧
    decodeTableWord 32 0xC43D4001 = some (.ctz 7 21) ∧
    decodeTableWord 32 0xC43D4002 = some (.pop 7 21) := by decide +kernel

theorem test_decode_major_0x05 :
    decodeTableWord 32 0xC53D7C00 = some (.cmp 7 21 30 .eq) ∧
    decodeTableWord 32 0xC53D7C2C = some (.sel 7 21 30 12) := by decide +kernel

theorem test_decode_major_0x06 :
    decodeTableWord 32 0xC63D494B = some (.bext 7 21 0x25 0xb) ∧
    decodeTableWord 32 0xC63D5174 = some (.bexts 7 21 0x5 0x34) ∧
    decodeTableWord 32 0xC63D6F02 = some (.bins 7 21 0x3c 0x2) := by decide +kernel

theorem test_decode_major_0x07 :
    decodeTableWord 32 0xC73D7C00 = some (.gaddr 7 21 30) := by decide +kernel

theorem test_decode_majors_0x0c_to_0x13 :
    decodeTableWord 32 0xCC3D55A3 = some (.addImmediate 7 21 0x15a3) ∧
    decodeTableWord 32 0xCD3D55A3 = some (.andImmediate 7 21 0x15a3) ∧
    decodeTableWord 32 0xCE3D55A3 = some (.orImmediate 7 21 0x15a3) ∧
    decodeTableWord 32 0xCF3D55A3 = some (.xorImmediate 7 21 0x15a3) ∧
    decodeTableWord 32 0xD03D4023 = some (.shlImmediate 7 21 0x23) ∧
    decodeTableWord 32 0xD03D5023 = some (.shrImmediate 7 21 0x23) ∧
    decodeTableWord 32 0xD03D6023 = some (.sarImmediate 7 21 0x23) ∧
    decodeTableWord 32 0xD03D7023 = some (.rotImmediate 7 21 0x23) ∧
    decodeTableWord 32 0xD13CD5A3 = some (.li 7 0x4d5a3) ∧
    decodeTableWord 32 0xD23BD5A3 = some (.movh 7 3 0xd5a3) ∧
    decodeTableWord 32 0xD33D7DA3 = some (.cmpImmediate 7 21 .none 0x5a3) := by decide +kernel

theorem test_decode_majors_0x14_to_0x18 :
    decodeTableWord 32 0xD43D75A3 = some (.bCond 7 21 .any 0x5a3) ∧
    decodeTableWord 32 0xD5BCD5A3 = some (.b 0xbcd5a3) ∧
    decodeTableWord 32 0xD6BCD5A3 = some (.call 0xbcd5a3) ∧
    decodeTableWord 32 0xD7000000 = some .ret ∧
    decodeTableWord 32 0xD7000401 = some (.jbt 2) ∧
    decodeTableWord 32 0xD73D440C = some (.jbtCond 7 21 2 .ltu) ∧
    decodeTableWord 32 0xD7000410 = some (.callb 2) ∧
    decodeTableWord 32 0xD7380420 = some (.getb 7 2) ∧
    decodeTableWord 32 0xD701C421 = some (.setb 7 2) ∧
    decodeTableWord 32 0xD814D5A3 = some (.pbt 2 0x4d5a3) := by decide +kernel

theorem test_decode_major_0x19 :
    decodeTableWord 32 0xD93D7C00 = some (.swform 7 21 30) ∧
    decodeTableWord 32 0xD9000001 = some .swleave ∧
    decodeTableWord 32 0xD9000002 = some .swjoin := by decide +kernel

theorem test_decode_majors_0x1c_to_0x21 :
    decodeTableWord 32 0xDC3D6DA3 = some (.ldT 7 21 .i16 0x5a3) ∧
    decodeTableWord 32 0xDD3D5DA3 = some (.stT 7 21 .b8 0x5a3) ∧
    decodeTableWord 32 0xDE3D55A3 = some (.ldC 7 21 .n32 0x5a3) ∧
    decodeTableWord 32 0xDF3D55A3 = some (.stC 7 21 .n32 0x5a3) ∧
    decodeTableWord 32 0xE03D6DA3 = some (.ld 7 21 .i16 0x5a3) ∧
    decodeTableWord 32 0xE13D4DA3 = some (.st 7 21 .n16 0x5a3) := by decide +kernel

theorem test_decode_majors_0x22_to_0x25 :
    decodeTableWord 32 0xE23D4035 = some (.ldAcq 7 21 .n16 .tcm .system) ∧
    decodeTableWord 32 0xE201EAC0 = some (.stRel 7 21 .n32 .global .core) ∧
    decodeTableWord 32 0xE33D7DAD = some (.amo 7 21 30 true .system .acquire .xor) ∧
    decodeTableWord 32 0xE429D813 = some (.ldq 5 7 3 .global .rfempty .die) ∧
    decodeTableWord 32 0xE401EA60 = some (.feFill 7 21 .global .wfill .core) ∧
    decodeTableWord 32 0xE409EA6C = some (.feEmpty 7 21 .scratch .module) ∧
    decodeTableWord 32 0xE43D4280 = some (.feTest 7 21 .scratch) ∧
    decodeTableWord 32 0xE40000CB = some (.fence true .die) ∧
    decodeTableWord 32 0xE401C101 = some (.pf 7 .write) ∧
    decodeTableWord 32 0xE53943A3 = some (.rreq 7 5 3 0xa3) := by decide +kernel

theorem test_decode_major_0x26 :
    decodeTableWord 32 0xE6499A03 = some (.vaddInt 9 6 13 3) ∧
    decodeTableWord 32 0xE6499A13 = some (.vsubInt 9 6 13 3) ∧
    decodeTableWord 32 0xE6499A23 = some (.vadds 9 6 13 3) ∧
    decodeTableWord 32 0xE6499A33 = some (.vsubs 9 6 13 3) ∧
    decodeTableWord 32 0xE6499A43 = some (.vmulInt 9 6 13 3) ∧
    decodeTableWord 32 0xE6499A53 = some (.vmulh 9 6 13 3) ∧
    decodeTableWord 32 0xE6499A63 = some (.vshl 9 6 13 3) ∧
    decodeTableWord 32 0xE6499A73 = some (.vshr 9 6 13 3) ∧
    decodeTableWord 32 0xE6499A83 = some (.vand 9 6 13 3) ∧
    decodeTableWord 32 0xE6499A93 = some (.vor 9 6 13 3) ∧
    decodeTableWord 32 0xE6499AA3 = some (.vxor 9 6 13 3) ∧
    decodeTableWord 32 0xE6499AB3 = some (.vandn 9 6 13 3) := by decide +kernel

theorem test_decode_major_0x27 :
    decodeTableWord 32 0xE7499A28 = some (.vaddFp 9 6 13 true .f32) ∧
    decodeTableWord 32 0xE7499A69 = some (.vsubFp 9 6 13 true .bf16) ∧
    decodeTableWord 32 0xE7499AAA = some (.vmulFp 9 6 13 true .f16) ∧
    decodeTableWord 32 0xE7499AE8 = some (.vfma 9 6 13 true .f32) ∧
    decodeTableWord 32 0xE7499B29 = some (.vfnma 9 6 13 true .bf16) ∧
    decodeTableWord 32 0xE749814A = some (.vabs 9 6 .f16) ∧
    decodeTableWord 32 0xE7498188 = some (.vneg 9 6 .f32) := by decide +kernel

theorem test_decode_major_0x28 :
    decodeTableWord 32 0xE8499A05 = some (.vmin 9 6 13 .i16) ∧
    decodeTableWord 32 0xE8499A88 = some (.vmax 9 6 13 .f32) ∧
    decodeTableWord 32 0xE8499B69 = some (.vcmp 9 6 13 .un .bf16) ∧
    decodeTableWord 32 0xE8499B80 = some (.vsel 9 6 13) := by decide +kernel

theorem test_decode_major_0x29 :
    decodeTableWord 32 0xE9499A00 = some (.vshuf 9 6 13) ∧
    decodeTableWord 32 0xE949C049 = some (.vbcastScalar 9 7 .bf16) ∧
    decodeTableWord 32 0xE9498685 = some (.vbcastLane 9 6 3 .i16) ∧
    decodeTableWord 32 0xE949C6C0 = some (.vins 9 7 3 .n8) ∧
    decodeTableWord 32 0xE93A4705 = some (.vext 7 9 3 .i16) := by decide +kernel

theorem test_decode_majors_0x2a_to_0x2c :
    decodeTableWord 32 0xEA498351 = some (.vcvt 9 6 0x1 .f16 .f32 true) ∧
    decodeTableWord 32 0xEB3A4014 = some (.vred 7 9 .min .i8) ∧
    decodeTableWord 32 0xEB499A4B = some (.vdot 9 6 13 .e4m3) ∧
    decodeTableWord 32 0xEB499A4D = some (.vdot 9 6 13 .e2m1) ∧
    decodeTableWord 32 0xEB499A80 = some (.vsmrg 9 6 13) ∧
    decodeTableWord 32 0xEC498002 = some (.vsfu 9 6 .rcp) := by decide +kernel

theorem test_decode_majors_0x2d_0x2e :
    decodeTableWord 32 0xED49EDA3 = some (.vld 9 7 .tcm true 0x5a3) ∧
    decodeTableWord 32 0xEE49DDA3 = some (.vst 9 7 .scratch true 0x5a3) := by decide +kernel

theorem test_decode_majors_0x30_to_0x35_1 :
    decodeTableWord 32 0xF001C000 = some (.mfmt 7) ∧
    decodeTableWord 32 0xF0080040 = some (.mzero 1) ∧
    decodeTableWord 32 0xF0484087 = some (.maccToVector 9 1 3 true) ∧
    decodeTableWord 32 0xF00A40C7 = some (.maccToAccumulator 1 9 3 true) ∧
    decodeTableWord 32 0xF109EA23 = some (.mmul 1 7 21 0x23) ∧
    decodeTableWord 32 0xF109C063 = some (.mmulL 1 7 0x23) ∧
    decodeTableWord 32 0xF209EA23 = some (.mmulSp 1 7 21 0x23) ∧
    decodeTableWord 32 0xF209C063 = some (.mmulSpL 1 7 0x23) ∧
    decodeTableWord 32 0xF209EAA3 = some (.mcb 1 7 21 0x23) ∧
    decodeTableWord 32 0xF209C0E3 = some (.mcbL 1 7 0x23) ∧
    decodeTableWord 32 0xF301C023 = some (.mbl 7 0x23) ∧
    decodeTableWord 32 0xF3000040 = some .mring ∧
    decodeTableWord 32 0xF43943A3 = some (.mpass 7 5 3 0xa3) ∧
    decodeTableWord 32 0xF509EA00 = some (.mepi 1 7 21) := by decide +kernel

theorem test_decode_majors_0x30_to_0x35_2 :
    decodeTableWord 32 0xF5000041 = some (.mepiResume 1) ∧
    decodeTableWord 32 0xF5000081 = some (.mepiDrop 1) := by decide +kernel

theorem test_decode_majors_0x36_to_0x39 :
    decodeTableWord 32 0xF601C000 = some (.hld .h0 7 .global) ∧
    decodeTableWord 32 0xF629C180 = some (.hst .k 7 .tcm) ∧
    decodeTableWord 32 0xF7104600 = some (.hbind 2 1 3) ∧
    decodeTableWord 32 0xF7104E40 = some (.hpermRegister 2 1 7) ∧
    decodeTableWord 32 0xF71052DB = some (.hpermImmediate 2 1 0xA5B) ∧
    decodeTableWord 32 0xF7008100 = some (.hbund 2) ∧
    decodeTableWord 32 0xF7280140 = some (.hclr .k) ∧
    decodeTableWord 32 0xF7100180 = some (.hthr 2) ∧
    decodeTableWord 32 0xF70081C0 = some (.htie 2) ∧
    decodeTableWord 32 0xF8388200 = some (.hdist 7 2 1) ∧
    decodeTableWord 32 0xF8388040 = some (.hpop 7 2) ∧
    decodeTableWord 32 0xF938AA00 = some (.hrcl 7 2 21) := by decide +kernel

theorem test_decode_major_0x3a :
    decodeTableWord 32 0xFA000000 = some .done ∧
    decodeTableWord 32 0xFA01C040 = some (.armRegister 7) ∧
    decodeTableWord 32 0xFA002C65 = some (.armImmediate 0xB5) ∧
    decodeTableWord 32 0xFA01C080 = some (.disarmRegister 7) ∧
    decodeTableWord 32 0xFA002CA5 = some (.disarmImmediate 0xB5) ∧
    decodeTableWord 32 0xFA3D40C0 = some (.ptest 7 21) ∧
    decodeTableWord 32 0xFA3D40C1 = some (.ptestW 7 21) ∧
    decodeTableWord 32 0xFA3800C2 = some (.estat 7) ∧
    decodeTableWord 32 0xFA000103 = some (.claim 3) ∧
    decodeTableWord 32 0xFA000143 = some (.unclaim 3) ∧
    decodeTableWord 32 0xFA380180 = some (.rng 7) ∧
    decodeTableWord 32 0xFA3801C0 = some (.tick 7) := by decide +kernel

theorem test_decode_major_0x3b :
    decodeTableWord 32 0xFB3D7C00 = some (.send 7 21 30) ∧
    decodeTableWord 32 0xFB380040 = some (.shape 7) ∧
    decodeTableWord 32 0xFB3D7C80 = some (.ralloc 7 21 30) ∧
    decodeTableWord 32 0xFB01EAC0 = some (.rtrim 7 21) := by decide +kernel

theorem test_decode_majors_0x3c_0x3d :
    decodeTableWord 32 0xFC395BA3 = some (.copy 7 5 3 3 0xa3) ∧
    decodeTableWord 32 0xFC3B5BA3 = some (.cpst 7 5 3 3 0xa3) ∧
    decodeTableWord 32 0xFC3D43A3 = some (.walk 7 5 3 0xa3) ∧
    decodeTableWord 32 0xFC3F43A3 = some (.barv 7 5 3 0xa3) ∧
    decodeTableWord 32 0xFD3943A3 = some (.launch 7 5 3 0xa3) ∧
    decodeTableWord 32 0xFD3B43A3 = some (.enc 7 5 3 0xa3) := by decide +kernel

theorem test_decode_major_0x3e_1 :
    decodeTableWord 32 0xFE003460 = some (.trap 0x1a3) ∧
    decodeTableWord 32 0xFE000001 = some .tret ∧
    decodeTableWord 32 0xFE000002 = some .tretEnd ∧
    decodeTableWord 32 0xFE3803A3 = some (.sget 7 0x1d) ∧
    decodeTableWord 32 0xFE01C564 = some (.sset 7 0x2b) ∧
    decodeTableWord 32 0xFE3D4005 = some (.fsave 7 21) ∧
    decodeTableWord 32 0xFE3D4006 = some (.fload 7 21) ∧
    decodeTableWord 32 0xFE3D4067 = some (.plbw 7 21 3) ∧
    decodeTableWord 32 0xFE000068 = some (.plbi 3) ∧
    decodeTableWord 32 0xFE000009 = some .plbiAll ∧
    decodeTableWord 32 0xFE3D400A = some (.remap 7 21) ∧
    decodeTableWord 32 0xFE3D400B = some (.mcancel 7 21 .global) ∧
    decodeTableWord 32 0xFE3D404C = some (.pginv 7 21 0x2) ∧
    decodeTableWord 32 0xFE00000D = some .icinv := by decide +kernel

theorem test_decode_major_0x3e_2 :
    decodeTableWord 32 0xFE00000E = some .idle := by decide +kernel

theorem test_decode_compact_forms_1 :
    decodeTableWord 16 0xF5 = some (.compactMov 7 21) ∧
    decodeTableWord 16 0x4F5 = some (.compactAdd 7 21) ∧
    decodeTableWord 16 0x8F5 = some (.compactSub 7 21) ∧
    decodeTableWord 16 0xCF5 = some (.compactAnd 7 21) ∧
    decodeTableWord 16 0x10F5 = some (.compactOr 7 21) ∧
    decodeTableWord 16 0x14F5 = some (.compactXor 7 21) ∧
    decodeTableWord 16 0x18F5 = some (.compactShl 7 21) ∧
    decodeTableWord 16 0x1CF5 = some (.compactShr 7 21) ∧
    decodeTableWord 16 0x20F5 = some (.compactSar 7 21) ∧
    decodeTableWord 16 0x24F5 = some (.compactMul 7 21) ∧
    decodeTableWord 16 0x28F5 = some (.compactMin 7 21) ∧
    decodeTableWord 16 0x2CF5 = some (.compactMax 7 21) ∧
    decodeTableWord 16 0x30F5 = some (.compactAndn 7 21) ∧
    decodeTableWord 16 0x34F5 = some (.compactLdT 7 21) := by decide +kernel

theorem test_decode_compact_forms_2 :
    decodeTableWord 16 0x38F5 = some (.compactStT 7 21) ∧
    decodeTableWord 16 0x3CF5 = some (.compactLd 7 21) ∧
    decodeTableWord 16 0x40E3 = some (.compactLi 7 3) ∧
    decodeTableWord 16 0x44E3 = some (.compactAddImmediate 7 3) ∧
    decodeTableWord 16 0x48E3 = some (.compactShlImmediate 7 3) ∧
    decodeTableWord 16 0x4CE3 = some (.compactShrImmediate 7 3) ∧
    decodeTableWord 16 0x50E3 = some (.compactSarImmediate 7 3) ∧
    decodeTableWord 16 0x54E3 = some (.compactAndImmediate 7 3) ∧
    decodeTableWord 16 0x58E3 = some (.compactLdTFrame 7 3) ∧
    decodeTableWord 16 0x5CE3 = some (.compactStTFrame 7 3) ∧
    decodeTableWord 16 0x60E3 = some (.compactLdTAbsolute 7 3) ∧
    decodeTableWord 16 0x64E3 = some (.compactStTAbsolute 7 3) ∧
    decodeTableWord 16 0x68E3 = some (.compactBEq 7 3) ∧
    decodeTableWord 16 0x6CE3 = some (.compactBNe 7 3) := by decide +kernel

theorem test_decode_compact_forms_3 :
    decodeTableWord 16 0x70E3 = some (.compactRotImmediate 7 3) ∧
    decodeTableWord 16 0x74E3 = some (.compactXorImmediate 7 3) ∧
    decodeTableWord 16 0x78E3 = some (.compactLdC 7 3) ∧
    decodeTableWord 16 0x7CE3 = some (.compactStC 7 3) ∧
    decodeTableWord 16 0x8000 = some .compactDone ∧
    decodeTableWord 16 0x8400 = some .compactRet ∧
    decodeTableWord 16 0x8802 = some (.compactJbt 2) ∧
    decodeTableWord 16 0x8CF5 = some (.compactPop 7 21) ∧
    decodeTableWord 16 0x90E0 = some (.compactSgetLid 7) ∧
    decodeTableWord 16 0x94E0 = some (.compactTick 7) ∧
    decodeTableWord 16 0x98E0 = some (.compactRng 7) ∧
    decodeTableWord 16 0x9C00 = some .compactSwjoin ∧
    decodeTableWord 16 0xA000 = some .compactSwleave ∧
    decodeTableWord 16 0xA4F5 = some (.compactClz 7 21) := by decide +kernel

theorem test_decode_compact_forms_4 :
    decodeTableWord 16 0xA8F5 = some (.compactCtz 7 21) ∧
    decodeTableWord 16 0xAC03 = some (.compactClaim 3) ∧
    decodeTableWord 16 0xB003 = some (.compactUnclaim 3) ∧
    decodeTableWord 16 0xB4F5 = some (.compactSt 7 21) ∧
    decodeTableWord 16 0xB808 = some (.compactFence true .core) ∧
    decodeTableWord 16 0xBCF5 = some (.compactNeg 7 21) := by decide +kernel
/-! ## Hypotheses of the statements about scalar and control instructions -/

theorem witness_CompareAndSelect :
    let s := frame 3 [(1, -1), (2, 1)]
    Relation .lt (s.rs 1) (s.rs 2) ∧ ¬ Relation .ltu (s.rs 1) (s.rs 2) ∧
      Relation .lt (s.rs 1) ((0 : BitVec 11).signExtend 64) ∧ ¬ Relation .eq (s.rs 1) ((0 : BitVec 11).signExtend 64) := by
  dsimp only [Relation]; decide +kernel

theorem witness_CountAndFieldResults : (63 : BitVec 6).toNat + (0 : BitVec 6).toNat ≤ 63 := by decide

theorem witness_GaddrResults :
    (frame 3 [(2, 0x11)]).rs 2 = 0x11 ∧
    (let s := frame 7 [(2, 0xC000)]; (s.rs 2).toNat % 64 = 0 ∧ 0xC000 < (s.rs 2).toNat + 64) ∧
    (let s := frame 3 [(2, 0x4000)]
     (s.rs 2).toNat % 64 = 0 ∧ s.me.level ≠ 7 ∧ s.me.slim.toNat < (s.rs 2).toNat + 64) ∧
    (let s := frame 3 [(2, 0x3FC0)]
     (s.rs 2).toNat % 64 = 0 ∧ (s.rs 2).toNat + 64 ≤ s.me.slim.toNat ∧ s.me.sbuf = [] ∧ s.me.flight = [] ∧ s.me.amoWait = false ∧
       s.me.tcmPoison = []) := by
  decide +kernel

theorem witness_GaddrResults_table :
    ∃ tab, (frame 3 [(2, 0x3FC0)]).ownWords 0x3FC0 8 = .ok tab ∧ decide (tab.length = 8) = true :=
  exists_of_gives (by decide +kernel)

/-- The greatest even target, a taken and an untaken condition, an odd target, one past the end and one below 0. -/
theorem witness_TransferResults :
    let s := frame 3 [(1, 1)] fun c => { c with b := #v[1, 0x100000000000000, 8, 0xFFFFFFFFFFFFFE], pc := 0 }
    ((s.rb 3).toNat % 2 = 0 ∧ (s.rb 3).toNat < 2 ^ 56) ∧ s.rs 1 ≠ 0 ∧ s.rs 0 = 0 ∧ (s.rb 0).toNat % 2 = 1 ∧
      ((s.rb 1).toNat % 2 = 0 ∧ 2 ^ 56 ≤ (s.rb 1).toNat) ∧
      (s.pc.toNat + 2 * (1023 : BitVec 11).toInt) % 2 = 0 ∧ s.pc.toNat + 2 * (1023 : BitVec 11).toInt < 2 ^ 56 ∧
      s.pc.toNat + 2 * (-1 : BitVec 24).toInt < 0 ∧ (s.pc.toNat + 2 * (-1 : BitVec 24).toInt) % 2 = 0 := by decide +kernel

theorem witness_TransferResults_condition :
    let s := frame 3 [(1, 1)]
    Relation .ne (s.rs 1) (s.rs 0) ∧ ¬ Relation .eq (s.rs 1) (s.rs 0) := by dsimp only [Relation]; decide +kernel

/-- Runs of two cores and of the rest of the cluster, one that leaves the cluster, and memberships of both kinds. -/
theorem witness_SwarmResults :
    (let s := frame 3 [(1, 1), (2, 2), (3, 15), (4, 16)]
     s.me.member = none ∧ (s.rs 1).toNat < 2 ^ 18 ∧ s.me.lid = 1 ∧ s.rowRun 1 2 = true ∧ s.rowRun 1 15 = true ∧
       s.rowRun 1 16 = false ∧ (s.rs 4).toNat = 16) ∧
    (let m : Member := { lead := 1, n := 2, level := 3, ganged := true, joinAt := none, fwd := [] }
     (frame 3 [] fun c => { c with member := some m }).me.member = some m ∧
       m.level = (frame 3 [] fun c => { c with member := some m }).me.lvl ∧
       m.level ≠ (frame 4 [] fun c => { c with member := some m }).me.lvl) := by decide +kernel

/-- A leader, core 1, and core 2 of its swarm, which stands at the leader's address; and the same swarm seen from core 2. -/
theorem witness_SwarmResults_joined :
    let m : Member := { lead := 1, n := 2, level := 3, ganged := false, joinAt := none, fwd := [] }
    let y : Member := { m with joinAt := some 0x1000 }
    let s := (frame 3 [] fun c => { c with member := some m }).updCore 2 fun c => { c with member := some y }
    let t : State := { (frame 3 [] fun c => { c with member := some y }).updCore 2 fun c =>
      { c with level := 3, pc := 0x1000, member := some m } with cur := 2 }
    (s.me.member = some m ∧ m.level = s.me.lvl ∧ m.lead = s.me.lid ∧ s.physOf m.lead = s.cur ∧ (2 : CoreId) ≠ s.cur ∧
      clusterOf 2 = clusterOf s.cur ∧ (s.core 2).member = some y ∧ y.lead = m.lead ∧ y.n = m.n ∧ y.joinAt = some s.pc) ∧
    (t.me.member = some m ∧ m.level = t.me.lvl ∧ t.physOf m.lead ≠ t.cur ∧ (t.core (t.physOf m.lead)).member = some y ∧
      y.lead = (t.core (t.physOf m.lead)).lid ∧ y.joinAt = some t.pc) := by decide +kernel

/-! ## Hypotheses of the statements about loads, stores and ordering -/

/-- Misaligned, past the TCM, and in range but outside every area open to level 3. -/
theorem witness_AccessTraps :
    let s := frame 3 [(1, 0xBFFF), (2, 0xC000), (3, 0x4000), (4, 0xAFFC)]
    (s.rs 1).toNat % 2 ≠ 0 ∧ (s.rs 1).toNat % 8 ≠ 0 ∧ (s.rs 1).toNat % 16 ≠ 0 ∧
      ((s.rs 2).toNat % 8 = 0 ∧ 0xBFFF < (s.rs 2).toNat) ∧
      ((s.rs 3).toNat % 8 = 0 ∧ (s.rs 3).toNat ≤ 0xBFFF ∧ s.me.level ≠ 7 ∧ ¬ (s.rs 3).toNat < s.me.slim.toNat ∧
        (s.rs 3).toNat < s.me.here.fbase.toNat ∧ (s.rs 3).toNat < s.me.vbase.toNat) ∧
      (s.me.here.fbase.toNat + frameSize s.me.here.fclass s.me.lvl ≤ (s.rs 4).toNat ∧
        (s.rs 4).toNat < s.me.vbase.toNat) := by decide +kernel

/-- A word of the frame that is not aligned; at level 7 a word of the management space and one that is not aligned there; and a queue
register bound to receive. -/
theorem witness_AccessTraps_forms :
    let s := frame 3 [(1, 0xA001)] fun c => c.updQ 2 fun q => { q with kind := 3, level := 3 }
    let t := frame 7 [(1, 0xFF000000000001), (2, 0xFF000000000008)] fun c => c.updQ 2 fun q => { q with kind := 3, level := 7 }
    ((s.rs 1).toNat % 8 ≠ 0 ∧ (s.rs 1 + BitVec.ofNat 64 (8 * 31)).toNat % 8 ≠ 0 ∧ s.me.level ≠ 7 ∧
      (s.me.rq 2).kind = 3 ∧ (s.me.rq 2).level = s.me.lvl ∧ s.me.streaming 2 = false) ∧
    (t.me.level = 7 ∧ (t.rs 1).toNat / 2 ^ 48 = 0xFF ∧ (t.rs 1).toNat % 8 ≠ 0 ∧ (t.rs 2).toNat / 2 ^ 48 = 0xFF ∧
      (t.rs 2).toNat % 8 = 0 ∧ (t.me.rq 2).kind = 3 ∧ (t.me.rq 2).level = t.me.lvl ∧ t.me.streaming 2 = false) := by decide +kernel

/-- The last words of the named area, of the frame, of the vector area and of the TCM. -/
theorem witness_TcmLoadResults :
    let s := frame 3 [(1, 0x3FF8), (2, 0xA3F8), (3, 0xB9F8)]
    let t := frame 7 [(1, 0xBFF8)]
    (s.me.tcmAllowed (s.rs 1).toNat false = true ∧ (s.rs 1).toNat % 8 = 0) ∧
      (s.me.tcmAllowed (s.rs 2).toNat false = true ∧ (s.rs 2).toNat % 8 = 0) ∧
      (s.me.tcmAllowed (s.rs 3).toNat false = true ∧ (s.rs 3).toNat % 8 = 0) ∧
      (t.me.tcmAllowed (t.rs 1).toNat false = true ∧ (t.rs 1).toNat % 8 = 0 ∧ (t.rs 1).toNat ≤ 0xBFFF ∧
        poisonGet t.me.tcmPoison ((t.rs 1).toNat / 8) = false ∧ s.me.flight = [] ∧ t.me.flight = [] ∧
        s.me.amoWait = false ∧ t.me.amoWait = false) := by decide +kernel

/-- A buffered store to the TCM by core 1. -/
def stored : StoreEntry :=
  { space := .tcm, va := 0x100, pa := 0, size := 8, data := 0x1122334455667788, mode := none, tag := 5, dom := 0,
    region := none, scope := .core }

theorem witness_TcmStoreResults :
    (let s := frame 3 [(1, 0xA3F8)]
     (s.rs 1).toNat % 8 = 0 ∧ (s.rs 1).toNat ≤ 0xBFFF ∧ s.me.tcmAllowed (s.rs 1).toNat true = true ∧
       s.me.sbuf.length < 16 ∧ s.tentative = false ∧ poisonGet s.me.tcmPoison ((s.rs 1).toNat / 8) = false ∧
       s.me.flight = [] ∧ s.me.amoWait = false ∧
       s.me.here.fbase.toNat ≤ (s.rs 1).toNat ∧
       (s.rs 1).toNat < s.me.here.fbase.toNat + frameSize s.me.here.fclass s.me.lvl) ∧
    (let s := frame 3 [] fun c => { c with sbuf := [stored] }; (s.core 1).sbuf = stored :: [] ∧ (s.core 1).flight = [] ∧
       (s.core 1).amoWait = false) ∧
    stored.mode = none ∧
    stored.space = .tcm := by decide +kernel

/-- The page map of core 1 names page 1 of global space for page 0 of the scratchpad, with both rights. -/
def paged (c : Core) : Core := open_ { c with tcm := c.tcm.write 0xB800 (splitBytes 8 0x1003) }

theorem witness_ScratchAndGlobalAccesses_global :
    (frame 3 [(1, 0x100)] open_).me.level ≠ 0xF ∧ (∃ x, (mapped (frame 3 [(1, 0x100)] open_)).check .global 0x100 8 true false false = .ok x ∧
      gives (x.1.loadWord .global x.2 8) (fun y => decide (y.2 = List.replicate 8 0)) = true) ∧
    (∃ x, (mapped (frame 3 [(1, 0x100)] open_)).check .global 0x100 8 false true false = .ok x ∧
      decide (x.1.me.sbuf.length < 16) = true) ∧ (mapped (frame 3 [(1, 0x100)] open_)).tentative = false :=
  ⟨by decide +kernel, exists_of_gives (by decide +kernel), exists_of_gives (by decide +kernel), by decide +kernel⟩

theorem witness_ScratchAndGlobalAccesses_scratch :
    (∃ x, (mapped (frame 3 [] paged)).check .scratch 0x28 8 true false false = .ok x ∧
      gives (x.1.loadWord .scratch x.2 8) (fun y => decide (y.2.length = 8)) = true) ∧
    (∃ x, (mapped (frame 3 [] paged)).check .scratch 0x28 8 false true false = .ok x ∧
      decide (x.1.me.sbuf.length < 16) = true) :=
  ⟨exists_of_gives (by decide +kernel), exists_of_gives (by decide +kernel)⟩

/-- The management space, an address from 2^56 on, one without a right, one whose page is absent and one present. -/
theorem witness_ScratchAndGlobalAccesses_checks :
    let s := frame 7 [(1, 0xFF200000000018)]
    let t := mapped (frame 3 [(1, 0x100000000000000), (2, 0x100)])
    let u := frame 3 [(2, 0x100)] open_
    (s.me.level = 7 ∧ (s.rs 1).toNat < 2 ^ 56 ∧ (s.rs 1).toNat / 2 ^ 48 = 0xFF ∧ (s.rs 1).toNat % 8 = 0 ∧ s.me.sbuf = [] ∧ s.me.flight = [] ∧
      s.me.amoWait = false ∧ (s.mgmtWrite (s.rs 1).toNat 0).me.level = 7) ∧
      2 ^ 56 ≤ (t.rs 1).toNat ∧ (t.me.rights 0x100 false).1 = false ∧ (t.me.rights 0x100 false).2.1 = false ∧
      (u.me.rights 0x100 false).1 = true ∧ (u.me.rights 0x100 false).2.1 = true ∧
      (u.translate 0 0x100 u.me.sbuf).2 = .absent 0 false ∧ ({ u with mem := [(0, 4)] }.translate 0 0x100 u.me.sbuf).2 = .absent 1 false ∧
      ((mapped u).translate 0 0x100 u.me.sbuf).2 = .page 0x100 := by decide +kernel

/-- An offset past the scratchpad; an entry of the page map that is invalid, one that may only be read, and one whose page is not
resident, without and with a right to its backing address, which is absent. -/
theorem witness_ScratchAndGlobalAccesses_pages :
    let none_ := frame 3 [(1, 0x40000), (2, 0x28)]
    let reads := frame 3 [(2, 0x28)] fun c => { c with tcm := c.tcm.write 0xB800 (splitBytes 8 0x1001) }
    let both := frame 3 [(2, 0x28)] paged
    0x40000 ≤ (none_.rs 1).toNat ∧ ((none_.rs 2).toNat < 0x40000 ∧ (none_.me.pageEntry 0x28).getLsbD 0 = false) ∧
    ((reads.me.pageEntry 0x28).getLsbD 0 = true ∧ (reads.me.pageEntry 0x28).getLsbD 1 = false ∧ reads.me.level ≠ 7 ∧
      reads.frameAt (clusterOf reads.cur) reads.me.dom 0x1028 = none ∧ (reads.me.rights 0x1028 false).1 = false) ∧
    ((both.me.pageEntry 0x28).getLsbD 0 = true ∧ (both.me.pageEntry 0x28).getLsbD 1 = true ∧
      ((bits (both.me.pageEntry 0x28) 12 44 : BitVec 44).toNat * 4096 + 0x28 = 0x1028) ∧
      both.frameAt (clusterOf both.cur) both.me.dom 0x1028 = none ∧ (both.me.rights 0x1028 false).1 = true ∧ both.tentative = false ∧
      (both.translate 0 0x1028 both.me.sbuf).2 = .absent 0 false) := by decide +kernel

theorem witness_AcquireAndRelease :
    let s := mapped (frame 3 [(1, 0x100)] open_)
    (∃ x, s.check .global (s.rs 1) 8 true false false = .ok x ∧
      gives (x.1.drain x.1.cur) (fun u => gives ((u.acquireAt (dieOf u.cur) .module).loadWord .global x.2 8)
        fun y => decide (y.2.length = 8)) = true) ∧
    (∃ x, s.check .global (s.rs 1) 8 false true false = .ok x ∧ gives (x.1.drain x.1.cur) (fun u => decide (u.cur = 1)) = true) ∧
    s.tentative = false :=
  ⟨exists_of_gives (by decide +kernel), exists_of_gives (by decide +kernel), by decide +kernel⟩

/-- The word of an atomic is at its home with credit and not poisoned; a reply that has come. -/
theorem witness_AtomicResults :
    let s := mapped (frame 3 [(1, 0x100)] open_)
    (∃ x, s.check .global (s.rs 1) 8 true true false = .ok x ∧ gives (x.1.drain x.1.cur) (fun u =>
      let v := u.amoRelease .acqrel .module x.2.loc
      let w := v.spot v.me.dom x.2.loc
      w.owner.isMem && !v.noCredit.contains w.owner && !v.behindFwd w && !v.spotPoison w && decide (w.owner = .home 0) && decide (w.owner = w.home)) = true) ∧
    s.tentative = false ∧ s.slow = false :=
  ⟨exists_of_gives (by decide +kernel), by decide +kernel, by decide +kernel⟩

/-- At a controller without forward credit the atomic waits, and has a place to wait at. -/
theorem witness_AtomicResults_waits :
    let s := { mapped (frame 3 [(1, 0x100)] open_) with noCredit := [.home 0] }
    ∃ x, s.check .global (s.rs 1) 8 true true false = .ok x ∧ gives (x.1.drain x.1.cur) (fun u =>
      let v := u.amoRelease .relaxed .core x.2.loc
      let w := v.spot v.me.dom x.2.loc
      let m : Mooring := { owner := .home 0, word := w.word, dom := w.dom, adom := v.me.dom, mode := .plain, data := 0,
                           route := .amo v.cur v.nextId, region := v.me.region, fwd := true, amo := some (.add, 0), plain := none }
      v.noCredit.contains w.owner && decide (v.waitsAt w = some (.home 0)) && (v.moor m v.cur).isSome) = true :=
  exists_of_gives (by decide +kernel)

theorem witness_AtomicResults_scratch :
    let s := mapped (frame 3 [] paged)
    ∃ x, s.check .scratch 0x28 8 true true false = .ok x ∧ gives (x.1.drain x.1.cur) (fun u =>
      let v := u.amoRelease .relaxed .core x.2.loc
      let w := v.spot v.me.dom x.2.loc
      !w.owner.isMem && !v.spotPoison w && decide (w.owner = .scratch 0) && (v.frameAt 0 w.dom (8 * w.word)).isSome) = true :=
  exists_of_gives (by decide +kernel)

theorem witness_AtomicResults_reply :
    let r : Reply := { id := 1, level := 3, d := 4, epc := 0x1000, value := some 9, trap := none, trapAddr := 0x100,
                       acquire := some .module, amo := true, voided := false }
    let q : Reply := { r with value := none, trap := some (0x0D, 0x100), acquire := none }
    let w : Reply := { r with value := none }
    let z : Reply := { r with voided := true }
    (((frame 3 [] fun c => { c with replies := [w] }).core 1).replies = w :: [] ∧ w.value = none ∧ w.trap = none) ∧
    (((frame 3 [] fun c => { c with replies := [z] }).core 1).replies = z :: [] ∧ z.voided = true ∧ z.value.isSome = true) ∧
    (((frame 3 [] fun c => { c with replies := [r] }).core 1).replies = r :: [] ∧ r.value = some 9 ∧ r.voided = false ∧
      r.acquire = some .module) ∧
    (((frame 3 [] fun c => { c with replies := [q] }).core 1).replies = q :: [] ∧ q.value = none ∧
      q.trap = some (0x0D, 0x100) ∧ ¬ (q.acquire = some .module ∨ q.acquire = some .system)) := by decide +kernel

/-- q2 is a stream register of level 3. -/
def receiving (c : Core) : Core := open_ (c.updQ 2 fun q => { q with kind := 3, level := 3 })

theorem witness_SyncInstructionResults :
    (frame 3 []).me.rq 2 ≠ (frame 3 [] receiving).me.rq 2 ∧ ((frame 3 []).me.rq 2).kind ≠ 3 ∧
    (let s := mapped (frame 3 [(1, 0x100)] receiving)
     ((s.me.rq 2).kind = 3 ∧ (s.me.rq 2).level = s.me.lvl ∧ s.me.streaming 2 = false ∧ s.tentative = false ∧
       (s.me.rq 2).entries.length + (s.me.rq 2).resv < 8) ∧
     (∃ x, s.check .tcm (s.rs 1) 8 true false true = .ok x ∧ gives (x.1.drain x.1.cur) (fun u => decide (u.cur = 1)) = true) ∧
     (∃ x, s.check .global (s.rs 1) 8 true false true = .ok x ∧ gives (x.1.settleFlights x.1.cur) (fun u =>
       (u.plainWait u.cur s.me.dom x.2.loc s.me.region).isNone && !u.accPoisoned u.cur s.me.dom x.2) = true) ∧
     (∃ x, s.check .global (s.rs 1) 8 false true true = .ok x ∧ gives (x.1.drain x.1.cur) (fun u => decide (u.cur = 1)) =
       true)) :=
  ⟨by decide +kernel, by decide +kernel, by decide +kernel, exists_of_gives (by decide +kernel),
    exists_of_gives (by decide +kernel), exists_of_gives (by decide +kernel)⟩

/-- A copy on die 0 of the line of word 32, its first byte stored. -/
def copyHeld : Copy := { dom := 0, data := 0x11, dirty := 1, whole := false, names := [] }

/-- An access that is acknowledged, and a copy with a byte stored. -/
theorem witness_FenceAndPrefetch :
    let s := (frame 3 [] fun c => { c with unacked := [5], acks := [5] }).updDie 0 fun d => { d with copies := [(32, copyHeld)] }
    s.tentative = false ∧ gives (s.drain s.cur) (fun u =>
      decide (u.slow = false ∧ (∀ x, x ∈ u.me.unacked → x ∈ u.me.acks) ∧ u.migrations = [] ∧
        Cells.find (u.die (dieOf u.cur)).copies 32 = some copyHeld ∧
        (∀ e ∈ (u.die (dieOf u.cur)).copies, (e.1 = 32 → e.2 = copyHeld) ∧ (e.1 / 2 = 32 / 2 → e.2.dirty = 0 ∨ e.2.dom = copyHeld.dom)) ∧
        (∀ x, x ≠ dieOf u.cur → ∀ e ∈ (u.die x).copies,
          (e.1 = 32 → e.2.dirty = 0) ∧ (e.1 / 2 = 32 / 2 → e.2.dirty = 0 ∨ e.2.dom = copyHeld.dom)) ∧ copyHeld.dirty.getLsbD 0 = true)) =
      true := by decide +kernel

/-! ## Hypotheses of the statements about vectors and hypervectors -/

theorem witness_VectorResults :
    (Et.f32 = .f32 ∨ Et.f32 = .bf16 ∨ Et.f32 = .f16) ∧ Et.i8.isFloat = false ∧ Et.bf16.isFloat = true ∧
      (15 : BitVec 5).toNat < Et.i8.lanes ∧ (Instr.vcvt 1 2 1 .n8 .i16 true).wellFormed = true ∧ 4 ≤ Et.n32.lanes := by
  decide

theorem witness_VectorLoadsAndStores :
    let s := frame 3 [(1, 0x100)]
    (∃ x, s.check .tcm (s.rs 1) 16 true false false = .ok x ∧ gives (x.1.loadWord .tcm x.2 8) (fun y =>
      gives (y.1.loadWord .tcm (x.2.plus 8) 8) fun z => decide (z.2.length = 8)) = true) ∧
    (∃ x, s.check .tcm (s.rs 1) 8 true false false = .ok x ∧
      gives (x.1.loadWord .tcm x.2 8) (fun y => decide (y.2.length = 8)) = true) ∧
    (∃ x, s.check .tcm (s.rs 1) 16 false true false = .ok x ∧ decide (x.1.me.sbuf.length < 15) = true) ∧
    (∃ x, s.check .tcm (s.rs 1) 8 false true false = .ok x ∧ decide (x.1.me.sbuf.length < 16) = true) ∧
    s.tentative = false ∧ s.me.level ≠ 0xF :=
  ⟨exists_of_gives (by decide +kernel), exists_of_gives (by decide +kernel), exists_of_gives (by decide +kernel),
    exists_of_gives (by decide +kernel), by decide +kernel⟩

/-- A request of core 1 at the SFU of its own cluster. -/
def asked (accepted voided : Bool) : SfuReq :=
  { level := 3, d := 4, fn := .rcp, x := 0x40000000, cluster := 0, accepted, voided }

theorem witness_SpecialFunctionUnit :
    (frame 3 []).me.sfu.length < 4 ∧
    (let s := frame 3 [] fun c => { c with sfu := [asked false false] }
     (s.cluster 0).gstate = 0 ∧ blockCore 0 (((s.cluster 0).rr.toNat + 1 + 0) % 256) = 1 ∧ (s.core 1).asks 0 = true) ∧
    (let s := frame 3 [] fun c => { c with sfu := [asked true false, asked true true] }
     (s.core 1).sfu = asked true false :: [asked true true] ∧ (asked true false).accepted = true ∧
       (asked true true).voided = true) := by decide +kernel

/-- The running frame holds resources 0 and 1. -/
def claiming (c : Core) : Core := c.updHere fun b => { b with claims := [{ res := 0, saved := 3 }, { res := 1, saved := 3 }] }

theorem witness_HypervectorResults :
    ((frame 3 [] claiming).me.here.claims.any fun x => x.res == 0) = true ∧
      ((frame 3 []).me.here.claims.any fun x => x.res == 0) = false := by decide +kernel

/-- The last span of the named area for a vector, a span for the counters, and a descriptor of one item in the TCM. -/
theorem witness_HypervectorTransfers :
    let s := frame 3 [(1, 0x3E00), (2, 0x3000), (3, 2 * 2 ^ 34 + 1 * 2 ^ 18 + 0x200), (4, 0x200)] claiming
    (s.me.here.claims.any (fun x => x.res == 0) = true ∧ s.me.hprog.getLsbD 0 = false ∧ s.breakAt = none ∧
      s.me.sbuf = [] ∧ s.me.flight = [] ∧ s.me.amoWait = false ∧ s.me.tcmPoison = [] ∧ s.tentative = false ∧ s.slow = false) ∧
    ((s.rs 1).toNat % 64 = 0 ∧ (s.rs 1).toNat + 512 = s.me.slim.toNat) ∧
    ((s.rs 2).toNat % 64 = 0 ∧ (s.rs 2).toNat + 4096 = s.me.slim.toNat) ∧
    ((s.rs 3).toNat / 2 ^ 34 = 2 ∧ (s.rs 3).toNat / 2 ^ 18 % 2 ^ 16 = 1 ∧ (s.rs 3).toNat % 2 ^ 18 = 0x200) ∧
    (s.rs 4).toNat / 2 ^ 18 % 2 ^ 16 = 0 := by decide +kernel

/-- Every byte below k.slim is open to a load and to a store. -/
theorem witness_HypervectorTransfers_allowed :
    let s := frame 3 [] claiming
    ∀ i, i < 512 → s.me.tcmAllowed (0x3E00 + i) true = true := by
  intro s i hi
  have h : s.me.slim = 0x4000 := by decide +kernel
  simp only [Core.tcmAllowed, h, Bool.or_eq_true, decide_eq_true_eq]
  exact .inl (.inl (.inr (by simp; omega)))

/-! ## Hypotheses of the statements about the matrix engine -/

/-- Core 1's running frame as the issuer of a command. -/
def issuer : Issuer :=
  { core := 1, lid := 1, level := 3, dom := 0, fbase := 0xA000, fsize := 0x1000, inst := none, region := none }

/-- A matrix command of core 1. -/
def command (op : MatOp) : MatCmd := { by_ := issuer, op, waited := 0 }

/-- A filled slot of the ring latch. -/
def latched : LatchSlot := { len := 8, bfmt := 9, bmx := false, bytes := List.replicate 128 0 }

/-- An epilogue buffer that is held. -/
def held : EpiBuf := { by_ := issuer, bytes := List.replicate 256 0, addr := 0x100, epi := 8, next := 0, withheld := false }

/-- The format context names two bf16 operands (0x99), a codebook A tile (0x9E), or a pair that is not admitted. -/
theorem witness_MatrixCommandsEnter :
    let s := frame 3 [(1, 0x100), (2, 0x99), (3, 0x4)] fun c => claiming { c with latchL := some latched, epi1 := some held }
    let t := frame 3 [(1, 0x100)] fun c => claiming (c.updHere fun b => { b with mctx := 0x9E })
    (s.me.heldCmds 1 < 2 ∧ s.me.sbuf = [] ∧ s.me.flight = [] ∧ s.me.amoWait = false ∧ s.me.matQ = []) ∧
      ((ctxPair s.me.mctxAhead).isSome = true ∧ kindOk .dense (ctxA s.me.mctxAhead) = true ∧
        kindOk .sparse (ctxA s.me.mctxAhead) = true ∧ (ctxAmx s.me.mctxAhead || ctxBmx s.me.mctxAhead) = false) ∧
      ((ctxPair t.me.mctxAhead).isSome = true ∧ kindOk .cb2 (ctxA t.me.mctxAhead) = true ∧ 8 * ((7 : BitVec 6).toNat + 1) % 64 = 0) ∧
      (ctxPair (s.rs 2)).isSome = true ∧ (ctxPair (s.rs 3)) = none ∧
      s.me.here.claims.any (fun c => c.res == 1) = true ∧ s.me.latchAhead = true ∧ s.tentative = false ∧
      fmtLen (ctxB s.me.mctxAhead) (8 * 8) ≤ 4096 ∧ (s.me.epiBuf 1).isSome = true ∧ (s.me.epiBuf 0) = none := by
  decide +kernel

/-- Tiles at the end of the named area and of the running frame; below level 7 the frame may use no other. -/
theorem witness_MatrixCommandsEnter_tile :
    TileOk (frame 3 []) 0x3F80 128 ∧ TileOk (frame 3 []) 0xA380 128 ∧ TileOk (frame 7 []) 0xBFF0 16 := by
  refine ⟨⟨by decide, by decide, .inr ?_⟩, ⟨by decide, by decide, .inr ?_⟩, ⟨by decide, by decide, .inl (by decide +kernel)⟩⟩
  · intro i hi
    have h : (frame 3 []).me.slim = 0x4000 := by decide +kernel
    rw [h]; exact .inl (by simp; omega)
  · intro i hi
    have h : (frame 3 []).me.here.fbase = 0xA000 ∧ frameSize (frame 3 []).me.here.fclass (frame 3 []).me.lvl = 0x400 := by
      decide +kernel
    rw [h.1, h.2]; exact .inr (by simp; omega)

/-- The metadata nibbles 0x4, every pair the positions 0 and 1, are good; an all-zero tile has a bad one at once. -/
theorem witness_MatrixCommandTraps :
    let s := frame 3 [(1, 0x108), (2, 0xC000), (3, 0x100)] fun c => { c with tcm := c.tcm.write 0x140 (List.replicate 8 0x44) }
    let base := (s.rs 3).toNat + fmtLen (ctxA s.me.mctxAhead) (4 * 8)
    (s.me.heldCmds 1 < 2 ∧ s.me.sbuf = [] ∧ s.me.flight = [] ∧ s.me.amoWait = false) ∧ s.me.here.claims.any (fun c => c.res == 1) = false ∧
      (s.rs 1).toNat % 16 ≠ 0 ∧
      ((s.rs 2).toNat % 16 = 0 ∧ 0xC000 < (s.rs 2).toNat + aLen .dense (ctxA s.me.mctxAhead) (ctxAmx s.me.mctxAhead) 8) ∧
      base = 0x140 ∧ (∀ p ∈ s.me.nibbles base 8, (bits p 0 2).toNat < (bits p 2 2).toNat) ∧
      (let p := ((frame 3 []).me.nibbles base 8).getD 0 0; (bits p 2 2).toNat ≤ (bits p 0 2).toNat) ∧
      s.me.epiBuf 0 = none := by decide +kernel

/-- An f32 epilogue into the named area, and both buffers held. -/
theorem witness_MatrixEpilogue :
    let s := frame 3 [(1, 0x100), (2, 0x00200208)]
    let t := frame 3 [(1, 0x100), (2, 0x00200208)] fun c => { c with epi0 := some held, epi1 := some held }
    let e := s.rs 2
    let row := rowSize (bits e 0 4)
    (epiOk e (bits e 0 4) ((ctxPair s.me.mctxAhead).getD false) = true ∧ bits e 8 2 ≠ 3 ∧ (s.rs 1).toNat % row = 0 ∧
      (bits e 16 16).toNat % row = 0 ∧ row ≤ (bits e 16 16).toNat ∧ e.getLsbD 7 = false ∧
      s.outputOk ((Space.ofCode (bits e 8 2)).getD .global) (s.rs 1).toNat (bits e 16 16).toNat row = true ∧
      s.me.epi0 = none ∧ s.tentative = false) ∧
    (t.outputOk .tcm (t.rs 1).toNat (bits e 16 16).toNat row = true ∧ t.me.epi0.isSome = true ∧ t.me.epi1.isSome = true) := by
  decide +kernel

theorem witness_MatrixCommandResults :
    let s := fun q : MatCmd => frame 3 [] fun c =>
      { c with matQ := [q], latchL := some { latched with len := 64 }, epi1 := some held, tcmPoison := poisonSet [] 0x40 true }
    (∀ op ∈ [MatOp.fmt 0x99, .zero 1, .moveIn 1 5 7 true, .mul .dense 1 0x100 0x100 false 8 0x99 [] none,
        .mul .sparse 1 0x100 0x100 false 8 0x99 [] (some 0x140), .mul .dense 1 0x100 0 true 64 0x99 [] none, .load 0x100 8 0x99,
        .drop 1, .resume 0],
      ((s (command op)).core 1).matQ = command op :: []) ∧
    HoldsLid (s (command (.zero 1))) 1 issuer.lid ∧
    (let c := (s (command (.zero 1))).core 1
     c.poisonIn 0x100 128 = none ∧ c.poisonIn 0x200 128 = some 0x200 ∧ c.latchL = some { latched with len := 64 } ∧
       latched.bfmt = ctxB 0x99 ∧ latched.bmx = ctxBmx 0x99 ∧ c.epiBuf 1 = some held ∧ c.epiBuf 0 = none) := by
  dsimp only [HoldsLid]; decide +kernel

/-- A two-dimensional map of 8 rows of 8 bf16 elements at base. -/
def square (base : BitVec 56) : TMap :=
  { base, space := .tcm, efmt := 9, pad := 0, padval := 0,
    dims := [{ stride := 2, extent := 7, box := 7 }, { stride := 16, extent := 7, box := 7 }] }

/-- A successor: a type-0x40 message of priority 3 to core 1. -/
def next : Succ := { stype := 0x40, sprio := 3, dest := 1 }

/-- A pass over the maps from its first tile, and one past its last. -/
def pass (a : TMap) (t0 : BitVec 32) : MatOp := .pass next a (square 0x400) (square 0x800) 0x200208 0 0 t0 false false 0

theorem witness_LatchAndPassEvents :
    let s := fun (op : MatOp) (l i : Option LatchSlot) => frame 3 [] fun c => { c with matQ := [command op], latchL := l, latchI := i }
    let q := command .ring
    ((s .ring none (some latched)).core 1).latchHead = some q ∧ ((s .ring none (some latched)).core 1).latchL = none ∧
      ((s .ring none (some latched)).core 1).latchI = some latched ∧
      HoldsLid (s .ring (some latched) none) 1 q.by_.lid ∧ ((s .ring (some latched) none).core 1).latchL = some latched ∧
      ((s .ring (some latched) none).core (nextOfRing 1)).latchI = none ∧
      (s .ring none none).latchWaits 1 q = true ∧ ((s .ring none none).core 1).latchHead = some q ∧
      ((s .ring none none).successorAbsent next = false ∧ (s .ring none none).successorAbsent { next with dest := 0 } = true) ∧
      (q.waited + (0x100000 : BitVec 40).setWidth 41).toNat ≤ ((s .ring none none).core 1).wdog.toNat ∧
      ((s .ring none none).core 1).wdog.toNat < (q.waited + (0x100001 : BitVec 40).setWidth 41).toNat := by
  dsimp only [HoldsLid]; decide +kernel

/-- A pass of one tile that succeeds, one whose A tile is poisoned, and one that starts past its last tile. -/
theorem witness_LatchAndPassEvents_pass :
    let s := fun (a : TMap) (t0 : BitVec 32) => frame 3 [] fun c =>
      { c with matQ := [command (pass a t0)], tcmPoison := poisonSet [] 0x20 true }
    let p := fun a : TMap => ({ a, b := square 0x400, c := square 0x800, epi := 0x200208, ascale := 0, bscale := 0, amx := false,
                                bmx := false, base := 0 } : Pass)
    let run := fun (a : TMap) => (s a 0).passTiles ((command (pass a 0)).user 1) (p a) false (p a).tiles 0
    ((run (square 0x200)).2 = none ∧ (run (square 0x100)).2.map (fun x => x.2.wait) = some false) ∧ (p (square 0x200)).tiles ≤ (1 : BitVec 32).toNat ∧
      ((s (square 0x200) 1).core 1).matQ = command (pass (square 0x200) 1) :: [] := by decide +kernel

/-- A pass whose A tile is held by another block's L2 slice, to which the home cannot forward, waits there. -/
theorem witness_LatchAndPassEvents_waits :
    let a : TMap := { square 0x1000 with space := .global }
    let p : Pass := { a, b := square 0x400, c := square 0x800, epi := 0x200208, ascale := 0, bscale := 0, amx := false,
                      bmx := false, base := 0 }
    let s := { mapped (frame 3 [] fun c => open_ { c with matQ := [command (pass a 0)] }) with noCredit := [.home 0], exclusive := [(64, 3), (65, 3)] }
    (s.passTiles ((command (pass a 0)).user 1) p false p.tiles 0).2.map (fun x => x.2.wait) = some true := by decide +kernel

/-! ## Hypotheses of the statements about traps, tasks and messages -/

theorem witness_TrapEntry :
    (frame 6 []).me.level.toNat < 7 ∧ (frame 0xF []).me.level.toNat = 0xF ∧ (frame 7 []).me.level = 7 := by decide +kernel

/-- Of a held trap 0x08, a 0x02 of another frame and a 0x0A for the core the first comes first; a squashed frame; a migration due. -/
theorem witness_TrapEntry_held :
    let held (c : BitVec 5) (l : BitVec 4) : HeldTrap := { level := l, cause := c, addr := 0, epc := none }
    let s := frame 3 [] fun c => { c with heldTraps := [held 0x0A 0xF, held 0x02 5, held 0x08 3] }
    let t := frame 3 [] fun c => c.updHere fun b => { b with squash := true }
    let u := frame 3 [] fun c => { c with mig := true }
    (s.me.level.toNat < 7 ∧ s.me.stopped = false ∧ s.me.here.squash = false ∧ s.me.here.parkDue = false ∧
      held 0x08 3 ∈ s.me.heldTraps ∧ (held 0x08 3).level = s.me.level ∧
      (∀ g ∈ s.me.heldTraps, (g.level = s.me.level ∨ g.level = 0xF) → g ≠ held 0x08 3 → g.cause ≠ 0x08)) ∧
    (t.me.level.toNat < 7 ∧ t.me.stopped = false ∧ t.me.here.squash = true) ∧ u.me.mig = true := by decide +kernel

/-- A frame of a core that is not bound cannot be parked, one bound in a region with a record area can. -/
theorem witness_TrapEntry_park :
    let s := frame 3 []
    (s.park s.cur 8 0x100 s.pc false).2 = false ∧ (s.drainFrom s.cur s.me.sbuf.length).settled s.cur = true := by decide +kernel

/-- Core 1 in the supervisor frame that a trap of cause c entered from level l. -/
def supervised (c : BitVec 5) (l : BitVec 4) : State :=
  frame 7 [] fun k => { k with cause := mkCause c l false true, epc := 0x2000 }

theorem witness_TrapReturn :
    (∀ p ∈ [((0x0F : BitVec 5), (0xF : BitVec 4)), (0x0F, 3), (0x08, 3), (0x0B, 6)],
      let k := (supervised p.1 p.2).me
      k.level = 7 ∧ causeEntered k.cause = true ∧ causeLevel k.cause = p.2 ∧ causeCode k.cause = p.1 ∧
        (k.bank (BitVec.ofNat 3 p.2.toNat)).inst = none) ∧
    causeEntered (frame 7 []).me.cause = false ∧ (frame 7 []).me.here.claims = [] ∧ (frame 7 []).me.here.inst = none := by
  decide +kernel

/-- Core 1 holds nothing that could start or trap, at every level. -/
theorem witness_Quiet : Quiet (frame 7 []) 1 ∧ Quiet (supervised 8 3) 1 ∧
    ∀ j, ((supervised 8 3).me.bank j).squash = false :=
  ⟨by dsimp only [Quiet, NoneDue]; decide +kernel, by dsimp only [Quiet, NoneDue]; decide +kernel, by decide +kernel⟩

/-- Instance 2 of launch 1. -/
def instance2 : Inst := { id := 1, walk := false, index := 2, tentative := false }

theorem witness_TaskEnds :
    (let s := frame 3 [] claiming
     s.me.here.claims = { res := 0, saved := 3 } :: [{ res := 1, saved := 3 }] ∧ s.me.level ≠ 0xF ∧ ¬ s.me.level = 7) ∧
    (let s := frame 3 [] fun c => c.updHere fun b => { b with inst := some instance2 }
     s.me.here.claims = [] ∧ s.me.here.inst = some instance2 ∧ instance2.walk = false ∧ s.launches = []) ∧
    ((frame 3 []).me.here.inst = none ∧ (frame 3 []).me.sbuf = [] ∧ (frame 3 []).me.flight = [] ∧ (frame 3 []).me.amoWait = false) := by
  decide +kernel

/-- A store to a line that another block's L2 slice holds, to which the home cannot forward, keeps `done` of an instance waiting. -/
theorem witness_TaskEnds_waits :
    let e : StoreEntry := { space := .global, va := 0x1000, pa := 0x1000, size := 8, data := 0, mode := some .wempty, tag := 5, dom := 0,
                            region := none, scope := .core }
    let s := { frame 3 [] fun c => { c.updHere fun b => { b with inst := some instance2 } with
                 sbuf := [e], replies := [{ id := 7, level := 3, d := 4, epc := 0, value := none, trap := none, trapAddr := 0, acquire := none,
                                            amo := true, voided := false }] } with noCredit := [.home 0] }
    s.me.here.inst = some instance2 ∧ s.me.here.claims = [] ∧ gives (s.drain s.cur) (fun _ => true) = false := by decide +kernel

/-- A type-0x40 message of priority 5 from core 2 to core 1 at the interface of core 1. -/
def arrival : Arr :=
  { msg := { hdr := mkHdr 0x40 5 0 1 2 1, payload := [9] }, inst := none, contract := none, srcMod := 0, resume := none, far := false }

/-- On its way. -/
def transit (a : Arr) : Transit :=
  { cargo := .message a, from_ := none, dstMod := 0, dst := 1, held := false, tag := none, back := none, owner := none }

/-- The vector table enables type 0x40 at 0x3000, priority 5, frame class 1. -/
def enabled (c : Core) : Core :=
  { c with tcm := c.tcm.write (0xB000 + 8 * 0x40) (splitBytes 8 (2 ^ 62 + 5 * 2 ^ 59 + 2 ^ 56 + 0x3000)),
           ni := [transit arrival] }

/-- At level 3, at level 5, and idle. -/
theorem witness_ArrivalStartsTask :
    (∀ s ∈ [frame 3 [] enabled, frame 5 [] enabled, frame 0xF [] enabled],
      let k := s.core 1
      s.powered 1 = true ∧ s.present 1 = true ∧ s.physOf 1 = 1 ∧
        k.ni = transit arrival :: [] ∧ hdrType arrival.msg.hdr ∉ [0x00, 0x05, 0x08, 0x0A, 0x0B] ∧ k.savedLid ≠ some 1 ∧
        arrival.resume = none ∧ arrival.far = false ∧ (transit arrival).tag = none ∧
        (∀ l, s.heldAt 1 l = []) ∧ s.weirHas (.inbox 1 5) = false ∧ k.effPrio arrival.msg.hdr = 5 ∧
        k.tooLarge arrival 5 = false ∧ arrival.srcMod = s.modu ∧ dieOf (hdrSrc arrival.msg.hdr) = dieOf 1 ∧ k.mig = false ∧
        k.heldTraps = [] ∧ (∀ j, (k.bank j).squash = false ∧ (k.bank j).parkDue = false) ∧
        k.startable arrival 5 = true ∧ k.stopped = false ∧ k.arrSize arrival 5 ≤ k.freeStack ∧ k.member = none) ∧
    ((frame 3 [] enabled).core 1).above 5 = true ∧ ((frame 3 [] enabled).core 1).level.toNat < (5 : BitVec 3).toNat ∧
    ((frame 0xF [] enabled).core 1).above 5 = true ∧ ((frame 0xF [] enabled).core 1).level = 0xF ∧
    ((frame 5 [] enabled).core 1).above 5 = false := by decide +kernel

/-- The arrival is held at level p by core 1, in a frame of level l. -/
def holding (l : BitVec 4) (p : BitVec 3) (f : Core → Core := id) : State :=
  frame l [] fun c => f ({ enabled c with ni := [] }.setHeld p [arrival])

/-- A held arrival that is above the threshold is looked at first, at level 5 and at level 7. -/
theorem witness_ArrivalStartsTask_first :
    (∀ p ∈ [(5 : BitVec 3), 7], FirstHeld (holding 3 p) 1 p arrival [] []) ∧
      FirstHeld (holding 3 5 fun c => { c with mig := true }) 1 5 arrival [] [] ∧
      FirstHeld (holding 3 5 fun c => { c with slim := c.vbase }) 1 5 arrival [] [] :=
  ⟨by dsimp only [FirstHeld]; decide +kernel, by dsimp only [FirstHeld]; decide +kernel, by dsimp only [FirstHeld]; decide +kernel⟩

/-- There is room for it, with a migration trap due, too; or it is not above the threshold, or larger than the stack, or may not start. -/
theorem witness_ArrivalStartsTask_held :
    (∀ p ∈ [(5 : BitVec 3), 7],
      let k := (holding 3 p).core 1
      k.stopped = false ∧ k.tooLarge arrival p = false ∧ k.above p = true ∧ k.arrSize arrival p ≤ k.freeStack ∧
        k.level.toNat < p.toNat ∧ k.member = none ∧ k.heldTraps = [] ∧ ∀ j, (k.bank j).squash = false ∧ (k.bank j).parkDue = false) ∧
    ((holding 3 5 fun c => { c with mig := true }).core 1).mig = true ∧ ((holding 5 5).core 1).above 5 = false ∧
    (let s := holding 3 5 fun c => { c with slim := c.vbase }
     (s.core 1).tooLarge arrival 5 = true ∧ ∀ q, q ≠ 5 → s.heldAt 1 q = []) ∧
    (let s := holding 3 5 fun c => { c with loading := some 1 }
     ∀ p, ∀ x ∈ s.heldAt 1 p, (s.core 1).startable x p = false) := by decide +kernel

/-- An arrival of level 5 for core 1 in the weir. -/
def weirArrival : WeirEntry := { queue := .inbox 1 5, region := none, item := .arr arrival }

theorem witness_PendingAndStatus :
    let s := frame 3 [(1, 0x20), (2, 0x40)]
    let t := frame 3 [(2, 0x40)] fun c => c.setHeld 5 [arrival]
    (s.me.level ≠ 7 ∧ (0x1F : BitVec 8).toNat < 0x20 ∧ s.tentative = false ∧ s.me.sbuf = [] ∧ (∀ p, s.heldAt s.cur p = []) ∧
      0x20 ≤ (BitVec.ofNat 8 (s.rs 1).toNat).toNat) ∧
      (arrival ∈ t.me.held 5 ∧ hdrType arrival.msg.hdr = BitVec.ofNat 8 (t.rs 2).toNat) ∧ s.weir = [] ∧
      (t.me.savedLid ≠ some t.me.lid ∧ t.contextOut t.me.lid = false ∧ weirArrival.queue = .inbox t.me.lid 5 ∧ weirArrival.item = .arr arrival) ∧
      (frame 7 []).me.level = 7 := by decide +kernel

/-- No claim, one, and two; a ceiling below the level. -/
theorem witness_ClaimResults :
    let s := frame 3 []
    let t := frame 3 [] claiming
    let u := frame 6 [] fun c => { c with ceil := 0 }
    (s.me.here.claims = [] ∧ s.me.lvl.toNat ≤ min 6 (bits s.me.ceil (3 * 15) 3).toNat ∧ ∀ p, t.heldAt t.cur p = []) ∧
      (t.me.here.claims.any (fun c => c.res == 1) = true ∧
        t.me.here.claims = { res := 0, saved := 3 } :: [{ res := 1, saved := 3 }]) ∧
      min 6 (bits u.me.ceil (3 * 2) 3).toNat < u.me.lvl.toNat := by decide +kernel

/-- A header to core 2 with two payload words, one with a reserved bit, one of a part's own type, one to an absent LID. -/
theorem witness_SendResults :
    let s := frame 3 [(1, mkHdr 0x40 5 0 2 0 2), (2, 0x8000000000000000), (3, mkHdr 0x1F 5 0 0 0 2), (4, mkHdr 0x40 5 0 0 0 0),
      (5, mkHdr 0x40 5 0 0 0 0x4001)]
    ((s.rs 1).toNat < 2 ^ 54 ∧ (30 : SReg).toNat + (hdrPlen (s.rs 1)).toNat ≤ 32 ∧ 0x20 ≤ (hdrType (s.rs 1)).toNat ∧
        s.present (hdrDst (s.rs 1)) = true ∧ s.tentative = false ∧ s.me.sbuf = [] ∧ s.me.flight = [] ∧
        s.me.amoWait = false ∧ ((s.releaseAt (dieOf s.cur) (s.covering s.cur s.modu (hdrDst (s.rs 1)))).outbound s.cur).length < 4) ∧
      2 ^ 54 ≤ (s.rs 2).toNat ∧ 32 < (31 : SReg).toNat + (hdrPlen (s.rs 1)).toNat ∧
      ((s.rs 3).toNat < 2 ^ 54 ∧ (hdrType (s.rs 3)).toNat = 0x1F) ∧
      ((s.rs 4).toNat < 2 ^ 54 ∧ s.present (hdrDst (s.rs 4)) = false) ∧
      s.covering s.cur s.modu (hdrDst (s.rs 1)) = .cluster ∧ s.covering s.cur s.modu (hdrDst (s.rs 5)) = .module := by
  decide +kernel

/-- Four messages of the core are on their way, or were taken back for a full weir. -/
theorem witness_SendResults_full :
    ∀ h ∈ [false, true],
      let m : Transit := { transit arrival with from_ := some 1, held := h, owner := some 1 }
      let s := { frame 3 [(1, mkHdr 0x40 5 0 2 0 2)] with net := [m, m, m, m] }
      let u := s.releaseAt (dieOf s.cur) (s.covering s.cur s.modu (hdrDst (s.rs 1)))
      4 ≤ (u.outbound s.cur).length ∧ (u.outbound s.cur).any (fun t => t.held) = h ∧ s.me.amoWait = false := by decide +kernel

/-! ## Regions and allocations -/

/-- Effective values of a region with quotas of every kind. -/
def eff : Eff := { cores := 16, bw := 8, pceil := 6, key := 0, fdom := 0, wdog := 0x100000, power := 64, weirq := 4, provq := 1 }

/-- A region with a pool of 64 KiB and a record area. -/
def info : RegInfo :=
  { eff, partition := 0x1000, dom := 0, dmax := 2, alimit := 1, qlevel := 0, tickets := 1, poolBase := 0x100000,
    poolSize := 0x10000, recBase := 0x200000, recSize := 0x10000, pinq := 0, pcores := 64, rcores := 64, ppower := 64, rpower := 64,
    fcores := 16, fpower := 64, pfcores := 64, pfpower := 64 }

/-- The binding of core 1 to the only stage of launch 1, with contracts. -/
def binding (l : List Contract) : Binding :=
  { launch := 1, stage := 0, stageRcb := 0x2000, region := 0x1080, partition := 0x1000, idx := 0, contracts := l,
    fresh := (Core.reset 1).fresh, plbDone := true }

/-- Core 1 bound in that region. -/
def bound (regs : List (SReg × Word)) (f : Core → Core := id) : State :=
  { frame 3 regs fun c => f { c with binding := some (binding []) } with regions := [(0x1080, info)] }

/-- A small allocation at the pool's start, and one of all of it. -/
def alloc (n : Nat) : Alloc := { region := 0x1080, base := 0x100000, size := n, slot := n, charge := n, tied := none }

theorem witness_AllocationResults :
    let s := bound [(1, 0x100000), (2, 0x40), (3, 0x41), (4, 0x80)]
    let t := { s with allocs := [alloc 0x40] }
    (s.tentative = false ∧ s.slow = false ∧ (s.rs 2).toNat ≠ 0 ∧ (s.rs 2).toNat % 64 = 0 ∧ (s.rs 3).toNat % 64 ≠ 0 ∧
      s.shapePending (s.rs 1) = false ∧ s.shapedAt (s.rs 1) = none ∧ s.me.region = some 0x1080 ∧ s.infoOf 0x1080 = some info ∧ info.poolBase % 64 = 0) ∧
    s.allocs = [] ∧
    t.allocs.find? (fun z => some z.region == t.me.region && z.base == (t.rs 1).toNat) = some (alloc 0x40) ∧
    ((t.rs 2).toNat % 64 = 0 ∧ (t.rs 2).toNat ≤ (alloc 0x40).size ∧ (alloc 0x40).size < (t.rs 4).toNat ∧
      (t.rs 0).toNat = 0) ∧ { s with slow := true }.slow = true ∧ { s with slow := true }.tentative = false := by decide +kernel

/-- The pool has a place for one line, and none when it is all allocated. -/
theorem witness_AllocationResults_pool :
    (0x100000 ≤ 0x100040 ∧ 0x100040 + 0x40 ≤ info.poolBase + info.poolSize ∧ (alloc 0x40).base + (alloc 0x40).size ≤ 0x100040) ∧
    ¬ ∃ g, (info.poolBase ≤ g ∧ g + 0x40 ≤ info.poolBase + info.poolSize) ∧
      ∀ z ∈ [alloc 0x10000], g + 0x40 ≤ z.base ∨ z.base + z.size ≤ g := by
  refine ⟨by decide, ?_⟩
  rintro ⟨g, ⟨h1, h2⟩, h3⟩
  have h := h3 _ (List.mem_singleton.mpr rfl)
  simp only [info, alloc] at h1 h2 h
  omega

/-- A stage of one core, its RCB at 0x2000. -/
def oneCore : Stage :=
  { rcb := 0x2000, eff, ncores := 1, walk := false, ring := false, gang := false, sqset := 0, sqlevel := 0, slim := 0,
    vbase := 0x4000, ceil := 0, vtab := 0, named := 0, ctab := 0, dimg := 0, sctr := 0, itype := 0x40, iprio := 3,
    contracts := [], chans := [], csect := [], fcores := 1, fpower := 0, cores := [1] }

/-- Three instances at most, two at least; its launch RCB stands at 0x1000. -/
def record : LaunchRec := { rcb := 0x1000, shapew := 0, nmin := 2, nmax := 3, slot := 0, policy := 0, arg := 5 }

/-- A bound launch of that stage by core 1. -/
def oneStage : Launch :=
  { id := 1, by_ := issuer, succ := next, record, sector := 0, region := 0x1080, partition := 0x1100, fill := none,
    dom := 1, tickets := 1, qlevel := 0, dmax := 2, stages := [oneCore], seed := 9, provq := 1, eff, fcores := 16,
    fpower := 64, checked := true, bound := true, released := false, pred := 2, count := some 2, issued := 0, ended := [], done := false, blocked := 0, target := none }

/-- A launch of at most 3 slots whose shape word is at 0x3000, not yet taken by a front end, and once it is accepted. -/
def shapedLaunch : RemCmd :=
  { id := 9, by_ := issuer, succ := next, phase := .issued, tag := 9, passed := false
    op := .launch { rcb := 0x2000, shapew := 0x3000, nmin := 1, nmax := 3, slot := 8, policy := 0, arg := 0 } }
@[inherit_doc shapedLaunch] def shapedOne : Launch :=
  { oneStage with id := 9, record := { record with shapew := 0x3000, nmin := 1 }, pred := 0, count := none }

/-- A tied allocation with few others tied, and after sixteen. -/
theorem witness_AllocationResults_tied :
    let s := { bound [(1, 0x3000), (2, 0x40)] with launches := [shapedOne] }
    let u := bound [(1, 0x3000), (2, 0x40)] fun c => { c with remQ := [shapedLaunch] }
    let t := { s with allocs := List.replicate 16 { alloc 0x40 with tied := some 9 } }
    let tied : State → Nat := fun u => (u.allocs.filter fun z => z.tied == some 9).length
    u.shapePending (u.rs 1) = true ∧
    (s.shapePending (s.rs 1) = false ∧ s.shapedAt (s.rs 1) = some (9, 3, 0) ∧ tied s < 16 ∧ s.tentative = false ∧ s.slow = false ∧ s.me.region = some 0x1080) ∧
      t.shapedAt (t.rs 1) = some (9, 3, 0) ∧ tied t = 16 := by decide +kernel

/-- A request at the service core of sector 0, and its reply's place in core 1. -/
def request : AllocReq := { by_ := { issuer with region := some 0x1080 }, reply := 7, trim := false, a := none, b := 0x40 }

theorem witness_AllocationResults_service :
    let y : Reply := { id := 7, level := 3, d := 4, epc := 0x1000, value := none, trap := none, trapAddr := 0, acquire := none,
                       amo := false, voided := false }
    let s := (bound [] fun c => { c with replies := [y] }).updSector 0 fun k => { k with allocs := [request] }
    (s.sector 0).allocs = request :: [] ∧ request.trim = false ∧ s.tentative = false ∧
      (s.core request.by_.core).replies.find? (fun z => z.id == request.reply) = some y ∧
      ((s.updSector 0 fun k => { k with allocs := [] }).infoOf 0x1080) = some info := by decide +kernel

/-- Requests that the service core refuses, and a trim that it makes. -/
theorem witness_AllocationResults_answers :
    let s := { bound [] with allocs := [alloc 0x80] }
    let gone := s.allocate request.by_ (some 0x5000) 0x40
    ((∃ e, gone = .error e) ∧ (∃ e, s.trim request.by_ 0x100000 0x41 = .error e)) ∧
      ∃ t, s.trim request.by_ 0x100000 0x40 = .ok t ∧ decide (t.cur = 1) = true :=
  ⟨⟨⟨(0x03, 0x5000), by decide +kernel⟩, ⟨(0x01, 0x41), by decide +kernel⟩⟩, exists_of_gives (by decide +kernel)⟩

/-- Wherever the free values put it, the allocation of that request is made. -/
theorem witness_AllocationResults_made (s : State) (h : s.infoOf 0x1080 = some info) (ha : s.allocs = []) :
    ∃ t v, s.allocate request.by_ request.a request.b = .ok (t, v) := by
  have h' : s.infoOf 0x1080#56 = some info := h
  simp [State.allocate, request, ha, poolBase, h', info, freeRuns, Nat.mod_one]

/-! ## Hypotheses of the statements about engines -/

/-- Words in the TCM from an offset. -/
def words (off : Nat) (l : List Word) (c : Core) : Core := { c with tcm := c.tcm.write off (l.flatMap fun w => splitBytes 8 w.toNat) }

/-- d0 names a record at 0x100, d1 and d2 maps at 0x200 and 0x300, d3 one at 0x400. -/
def descriptors (c : Core) : Core := { c with d := #v[0x100, 0x200, 0x300, 0x400, 0, 0, 0, 0] }

/-- A map of 16 bytes in the TCM. -/
def byteMap (base : Word) : List Word := [base + 0x200000000000000, 0, 0xF0000000000] ++ List.replicate 15 0 ++ [15]

/-- A map of 8 rows of 8 bf16 elements in the TCM. -/
def squareMap (base : Word) : List Word :=
  [base + 0x600000000000000, 9, 0x70000000000, 0x70000000000 + 16] ++ List.replicate 14 0 ++ [0x70000 + 7]

theorem witness_SuccessorOk :
    SuccessorOk (frame 3 []) 0 3 0x40 false ∧ SuccessorOk (frame 3 []) 0 3 0x40 true ∧
      (frame 3 []).me.sbuf = [] ∧ (frame 3 []).me.flight = [] ∧ (frame 3 []).tentative = false ∧ (frame 3 []).me.heldCmds 2 < 2 ∧
      (frame 3 []).me.amoWait = false := by
  refine ⟨?_, ?_, by decide +kernel, by decide +kernel, by decide +kernel, by decide +kernel, by decide +kernel⟩ <;> dsimp only [SuccessorOk] <;> decide +kernel

theorem witness_RemoteCommandsEnter_launch :
    let s := frame 3 [] fun c => descriptors (words 0x100 [0x2000, 0x3000, 1 + 0x400000000, 0x80 + 63, 5] c)
    let w : Nat → Word := fun i => s.me.tcmWord (0x100 + 8 * i)
    ((bits (s.rd 0) 0 16).toNat = 0x100 ∧ 0x100 % 64 = 0 ∧ 0x100 + 64 ≤ s.me.slim.toNat) ∧
      ((w 0).toNat < 2 ^ 56 ∧ (w 1).toNat < 2 ^ 56 ∧ (w 3).toNat < 2 ^ 8 ∧ (∀ i ∈ [5, 6, 7], w i = 0) ∧
        (bits (w 1) 0 56 : BitVec 56).toNat % 8 = 0 ∧ (bits (w 1) 0 56 : BitVec 56) ≠ 0 ∧ (bits (w 3) 6 2 : BitVec 2) ≠ 3 ∧
        (bits (w 2) 0 32 : BitVec 32).toNat ≤ (bits (w 2) 32 32 : BitVec 32).toNat) ∧
      (0x3FF8 % 8 = 0 ∧ 0x3FF8 < s.me.slim.toNat) := by decide +kernel

/-- Two tiles of 16 bytes over cores 1 and 2. -/
theorem witness_RemoteCommandsEnter_walk :
    let s := frame 3 [] fun c => descriptors
      (words 0x100 [0x200 + 0x400000 + 0x3000000, 1 + 0x80000] (words 0x200 (byteMap 0x800) c))
    let w : Nat → Word := fun i => s.me.tcmWord (0x100 + 8 * i)
    ((w 0).toNat < 2 ^ 27 ∧ (w 1).toNat < 2 ^ 33 ∧ (∀ i ∈ [2, 3, 4, 5, 6, 7], w i = 0) ∧
      0x20 ≤ (bits (w 0) 16 8 : Byte).toNat ∧ (bits (w 0) 24 3 : BitVec 3) ≠ 7 ∧ (bits (w 1) 18 15 : BitVec 15).toNat = 2 ∧
      (bits (w 1) 0 18 : CoreId) = 1) ∧
    (∃ m, s.readMap (bits (w 0) 0 16 : BitVec 16).toNat = .ok m ∧ decide (m.tiles < 2 ^ 32) = true) ∧
    ∀ i, i < 2 → dieOf (BitVec.ofNat 18 (1 + i)) = dieOf s.cur ∧ s.present (BitVec.ofNat 18 (1 + i)) = true :=
  ⟨by decide +kernel, exists_of_gives (by decide +kernel), by decide +kernel⟩

/-- A read of 32 words at the end of core 2's named area into the end of its own, and an atomic on core 2. -/
theorem witness_RemoteCommandsEnter_rreq :
    ∀ l ∈ [[2 + 0x3FFFC0000 + 0xFC0000000000, 0x3F00 + 0x1F0000],
           [2 + 0x3FFFC0000 + 0xFFE000000000 + 0x8000000000000 + 0x140000000000000 + 0x600000000000000 + 0x3800000000000000, 0, 6, 7]],
      let s := frame 3 [] fun c => descriptors (words 0x100 l c)
      let w : Nat → Word := fun i => s.me.tcmWord (0x100 + 8 * i)
      rreqOk w = true ∧ (Scope.ofCode (bits (w 0) 54 3)).isSome = true ∧ SyncMode.ofCode (bits (w 1) 24 3) = some .plain ∧
        (bits (w 0) 34 16 : BitVec 16).toNat % 8 = 0 ∧ (bits (w 1) 0 16 : BitVec 16).toNat % 8 = 0 ∧
        (bits (w 1) 0 16 : BitVec 16).toNat + 8 * ((bits (w 1) 16 5 : BitVec 5).toNat + 1) ≤ s.me.slim.toNat ∧
        s.moduleOf (bits (w 0) 18 16) = s.modu ∧ s.present (bits (w 0) 0 18) = true := by decide +kernel

theorem witness_CommandTraps :
    let s := frame 3 [(1, 0x1000000000), (2, 0x400000000 + 1), (3, 1), (4, 0), (5, 0x1000000000 + 1)] fun c =>
      { c with d := #v[0x3FC0, 0x4000, 0x108, 0, 0, 0, 0, 0] }
    ((s.destWord 1).toNat / 2 ^ 36 ≠ 0 ∧ ((s.destWord 2).getLsbD 34 = true ∧ (s.destWord 2).toNat % 2 ^ 34 ≠ 0)) ∧
      ((s.destWord 3).toNat / 2 ^ 36 = 0 ∧ (s.destWord 3).getLsbD 34 = false ∧ (s.destWord 3).getLsbD 35 = false ∧
        s.me.level ≠ 7 ∧ (0x1F : BitVec 8).toNat < 0x20 ∧ s.present (bits (s.destWord 3) 0 18) = true) ∧
      ((s.destWord 4).getLsbD 35 = false ∧ (s.destWord 4).getLsbD 34 = false ∧
        s.moduleOf (bits (s.destWord 4) 18 16) = s.modu ∧ s.present (bits (s.destWord 4) 0 18) = false) ∧
      ((bits (s.rd 2) 0 16 : BitVec 16).toNat % 64 ≠ 0 ∧ s.me.slim.toNat < (bits (s.rd 1) 0 16 : BitVec 16).toNat + 64 ∧
        (bits (s.rd 0) 0 16 : BitVec 16).toNat + 64 = s.me.slim.toNat) := by decide +kernel

theorem witness_MapCommandsEnter :
    let s := frame 3 [] fun c => descriptors (words 0x200 (byteMap 0x800) (words 0x300 (byteMap 0x900) c))
    mapFault (fun i => s.me.tcmWord (0x200 + 8 * i)) = none ∧
    (∃ m, s.readMap 0x200 = .ok m ∧ gives (s.readMap 0x300) (fun n =>
      n.efmt == m.efmt && decide ((n.dims.map fun d => d.box) = (m.dims.map fun d => d.box)) && decide (n.count ≤ 2 ^ 28) &&
        n.efmt != 0xD && n.space != .global) = true) ∧
    s.me.heldCmds 0 < 2 ∧ (s.me.rq 0).kind = 0 ∧
    (let t := frame 3 [] receiving
     (t.me.rq 2).kind = 3 ∧ (t.me.rq 2).level = t.me.lvl ∧ t.me.streaming 2 = false ∧ (t.me.rq 2).entries = [] ∧
       (t.me.rq 2).resv = 0) :=
  ⟨by decide +kernel, exists_of_gives (by decide +kernel), by decide +kernel, by decide +kernel, by decide +kernel⟩

/-- Two boxes of pairs of E2M1: an even count, from an even element on. -/
theorem witness_MapCommandsEnter_pairs :
    ∃ m, (frame 3 [] fun c => words 0x200 ((byteMap 0x800).set 1 0xD) c).readMap 0x200 = .ok m ∧
      (m.efmt == 0xD && decide ((((m.dims.map fun d => d.box).headD 0) + 1) % 2 = 0)) = true :=
  exists_of_gives (by decide +kernel)

theorem witness_MapCommandsEnter_mpass :
    let s := frame 3 [] fun c => descriptors (words 0x100 [0x200 + 0x3000000 + 0x40000000000]
      (words 0x200 (squareMap 0x800) (words 0x300 (squareMap 0x900) (words 0x400 (squareMap 0xA00) c))))
    let w : Nat → Word := fun i => s.me.tcmWord (0x100 + 8 * i)
    (∃ m, s.readMap (bits (w 0) 0 16 : BitVec 16).toNat = .ok m ∧
      gives (s.readMap (bits (w 0) 16 16 : BitVec 16).toNat) (fun n => gives (s.readMap (bits (w 0) 32 16 : BitVec 16).toNat) fun o =>
        let ctx : Word := ((bits (w 4) 32 2 : BitVec 2) ++ n.efmt ++ m.efmt).setWidth 64
        decide (m.dims.length = 2) && decide (n.dims.length = 2) && decide (o.dims.length = 2) && (ctxPair ctx).isSome &&
          epiOk (w 1) o.efmt ((ctxPair ctx).getD false) && decide (passLen m = n.size 0) && decide (m.size 1 = o.size 1) &&
          decide (n.size 1 = o.size 0)) = true) ∧
    ((w 0).toNat < 2 ^ 48 ∧ (bits (w 1) 0 4 : BitVec 4) = 0 ∧ (bits (w 1) 8 2 : BitVec 2) = 0 ∧ (bits (w 1) 16 16 : BitVec 16) = 0 ∧
      (w 2).toNat < 2 ^ 56 ∧ (w 3).toNat < 2 ^ 56 ∧ (w 4).toNat < 2 ^ 34 ∧ w 6 = 0 ∧ w 7 = 0 ∧ s.me.heldCmds 1 < 2) :=
  ⟨exists_of_gives (by decide +kernel), by decide +kernel⟩

/-- A map of 16 bytes as an engine holds it. -/
def bytes16 (base : BitVec 56) : TMap :=
  { base, space := .tcm, efmt := 0, pad := 0, padval := 0, dims := [{ stride := 0, extent := 15, box := 15 }] }

/-- A copy between two such boxes, or a stream. -/
def copying (q : Option QReg) : CopyCmd :=
  { by_ := issuer, succ := next, src := bytes16 0x100, dst := bytes16 0x200, q, start := 0, next := 0 }

theorem witness_EngineEvents_copy :
    let s := fun p => frame 3 [] fun c => { c with copyQ := [copying none], tcmPoison := p }
    let run := fun p => (s p).copyFrom { core := 1, by_ := issuer, top := false } (copying none) 16 16 0
    ((s []).core 1).copyQ = copying none :: [] ∧ ((s []).core 1).tcmPoison = [] ∧
      ((copying none).src.base.toNat + 15 < ((s []).core 1).slim.toNat ∧ ((s []).core 1).slim.toNat ≤ 0xC000) ∧
      HoldsLid (s []) 1 (copying none).by_.lid ∧ (s []).successorAbsent (copying none).succ = false ∧
      (copying none).src.base.toNat + 15 < (copying none).dst.base.toNat ∧ (copying none).src.count = 16 ∧
      (run []).2 = none ∧ ((run [(0x21, true)]).2.map fun p => (p.1, p.2.cause, p.2.wait)) = some (8, 0x0D, false) := by
  dsimp only [HoldsLid]; decide +kernel

/-- Core 1, to whose block the home of line 64 cannot forward what another block's L2 slice holds. -/
def cutOff (f : Core → Core) : State :=
  { mapped (frame 3 [] fun c => open_ (f c)) with noCredit := [.home 0], exclusive := [(64, 3)] }

/-- A copy from such a line waits; one to global memory by an instance with no room for provisional stores parks it. -/
theorem witness_EngineEvents_copy_waits :
    let q : CopyCmd := { copying none with src := { bytes16 0x1000 with space := .global } }
    let i : Inst := { id := 1, walk := false, index := 2, tentative := true }
    let p : CopyCmd := { copying none with by_ := { issuer with inst := some i }, dst := { bytes16 0x1000 with space := .global } }
    let t := { mapped (frame 3 [] fun c => open_ ({ c with copyQ := [p] }.updHere fun b => { b with inst := some i })) with
      launches := [{ shapedOne with id := 1, provq := 0 }] }
    (((cutOff fun c => { c with copyQ := [q] }).copyFrom { core := 1, by_ := issuer, top := false } q 16 16 0).2.map
        fun e => e.2.wait) = some true ∧
      ((t.copyFrom { core := 1, by_ := p.by_, top := false } p 16 16 0).2.map fun e => (e.2.cause, e.2.wait)) = some (0x0B, false) := by
  decide +kernel

/-- A stream goes on, waits for a full register, has moved its last element, or reads a poisoned word. -/
theorem witness_EngineEvents_stream :
    let s := frame 3 [] fun c => receiving { c with copyQ := [copying (some 2)] }
    ((frame 3 [] fun c => (receiving c).updQ 2 fun q => { q with resv := 8 }).me.rq 2).room = false ∧
    ({ copying (some 2) with next := 16 } : CopyCmd).src.count ≤ 16 ∧
    (match (frame 3 [] fun c => { c with tcmPoison := poisonSet [] 0x20 true }).streamElems
        { core := 1, by_ := issuer, top := false } (bytes16 0x100) 16 16 0 with
      | .ok _ => false
      | .error e => decide (e.2.cause = 0x0D ∧ e.2.wait = false)) = true ∧
    (match (cutOff id).streamElems { core := 1, by_ := issuer, top := false } { bytes16 0x1000 with space := .global } 16 16 0 with
      | .ok _ => false
      | .error e => e.2.wait) = true ∧
    ((s.core 1).copyQ = copying (some 2) :: [] ∧ (copying (some 2)).next < (copying (some 2)).src.count ∧
      ((s.core 1).rq 2).room = true) ∧
    ∃ x, s.streamElems { core := 1, by_ := issuer, top := false } (bytes16 0x100) 16 16 0 = .ok x ∧ decide (x.2 = 0) = true :=
  ⟨by decide +kernel, by decide +kernel, by decide +kernel, by decide +kernel, by decide +kernel, exists_of_gives (by decide +kernel)⟩

/-- A read or a write of 32 words at the start of a core's TCM. -/
def remote (lid : CoreId) (op : BitVec 4) (phase : RemPhase) : RemCmd :=
  { id := 9, by_ := issuer, succ := next, phase, tag := 9, passed := false
    op := .rreq { lid, modu := 0, toff := 0, op, scope := .die, ord := 0, aop := .add, loff := 0x100, len := 32, mode := .plain,
                  operand := 0, expect := 0 } }

theorem witness_EngineEvents_rreq :
    (∀ q ∈ [remote 2 0 .issued, remote 2 1 .issued],
      let s := (frame 3 [] fun c => { c with remQ := [q] }).updCore 2 fun c => { c with slim := 0x100 }
      (s.core 1).remHead = some q ∧ s.present 2 = true ∧ s.physOf 2 = 2 ∧ dieOf 2 = dieOf 1 ∧ (s.core 2).defers 2 = false ∧
        s.coreGated 2 = false ∧ 0 + 8 * 32 ≤ (s.core 2).slim.toNat ∧
        ∀ r, q.op = .rreq r → (s.core 1).poisonedSource r = none) ∧
    ((frame 3 [] fun c => { c with remQ := [remote 0 0 .issued] }).core 1).remHead = some (remote 0 0 .issued) ∧
    (frame 3 []).present 0 = false ∧ (({ (frame 3 []).core 2 with loading := some 2 } : Core).defers 2 = true) ∧
    (let q := remote 2 0 (.result [1, 2] 0)
     ((frame 3 [] fun c => { c with remQ := [q] }).core 1).remQ = [q]) := by
  refine ⟨?_, by decide +kernel, by decide +kernel, by decide +kernel, by decide +kernel⟩
  intro q hq
  simp only [List.mem_cons, List.not_mem_nil, or_false] at hq
  rcases hq with rfl | rfl <;>
    refine ⟨by decide +kernel, by decide +kernel, by decide +kernel, by decide +kernel, by decide +kernel, by decide +kernel,
      by decide +kernel, ?_⟩ <;>
    (intro r hr; cases hr; decide +kernel)

/-- A sync read of core 2's second word for request 9 of core 1. -/
def waiter : Mooring :=
  { owner := .tcm 2, word := 1, dom := 0, adom := 0, mode := .rfull, data := 0, route := .rreq 1 9, region := none, fwd := false,
    amo := none, plain := none }

/-- A remote atomic, a sync read that waits for its word to be full, and a request of another module. -/
theorem witness_EngineEvents_rreq_forms :
    let at_ := fun (op : BitVec 4) (mode : SyncMode) (modu : BitVec 16) (phase : RemPhase) =>
      ({ remote 2 op phase with op := .rreq { lid := 2, modu, toff := 8, op, scope := .die, ord := 0, aop := AmoOp.add, loff := 0x100,
                                              len := 1, mode, operand := 6, expect := 0 } } : RemCmd)
    let s := fun (q : RemCmd) (p : Cells Bool) => (frame 3 [] fun c => { c with remQ := [q] }).updCore 2 fun c =>
      { c with slim := 0x100, tcmPoison := p }
    (((s (at_ 2 .plain 0 .issued) []).core 1).remHead.isSome = true ∧ poisonGet ((s (at_ 2 .plain 0 .issued) []).core 2).tcmPoison 1 = false ∧
      poisonGet ((s (at_ 2 .plain 0 .issued) (poisonSet [] 1 true)).core 2).tcmPoison 1 = true) ∧
    ((s (at_ 3 .rfull 0 .waiting) []).syncArrive waiter 1).isSome = true ∧
    ((0 : BitVec 16) ≠ 5 ∧ ((s (at_ 0 .plain 5 .waiting) []).core 1).performed = none ∧
      ((s (at_ 0 .plain 5 .waiting) []).core 1).abroad 0 = some (at_ 0 .plain 5 .waiting)) ∧
    (((s (remote 2 0 (.result [1, 2] 0)) []).core 1).performed = some (remote 2 0 (.result [1, 2] 0))) ∧
    ((frame 3 [] fun c => { c with tcmPoison := poisonSet [] 0x20 true }).core 1).poisonedSource
      { lid := 2, modu := 0, toff := 0, op := 1, scope := .die, ord := 0, aop := .add, loff := 0x100, len := 1, mode := .plain,
        operand := 0, expect := 0 } = some 0x100 ∧
    (let t := (frame 3 []).updCore 2 fun c => { c with slim := 0x8 }
     (t.core 2).slim.toNat < 8 + 8 * 1) := by decide +kernel

/-- A walk of two tiles at the walker of block 0. -/
def walking : Walk :=
  { id := 3, by_ := issuer, succ := next, blk := 0, sent := [1], ended := [], done := false
    record := { tmap := { bytes16 0x100 with dims := [{ stride := 0, extent := 15, box := 7 }] }, itype := 0x40, iprio := 3, lid0 := 1,
                ncores := 2, tiles := 2 } }

theorem witness_EngineEvents_walk :
    let s := { frame 3 [] with walks := [walking] }
    let c : RemCmd := { id := 9, by_ := issuer, succ := next, op := .walk walking.record, phase := .issued, tag := 9, passed := false }
    let t := frame 3 [] fun k => { k with remQ := [c] }
    (t.walking 0 = none ∧
      t.oldestRem (fun n op => blockOf n == 0 && (match op with | .walk _ => true | _ => false)) = some (1, c)) ∧
    (frame 3 []).walking 0 = none ∧ s.takeWalk 0 = s ∧
    s.walking 0 = some walking ∧ (0 : BitVec 32).toNat < walking.record.tiles ∧ (0 : BitVec 32) ∉ walking.sent ∧
      walking.record.lid0.toNat ≤ (2 : CoreId).toNat ∧ (2 : CoreId).toNat < 1 + walking.record.ncores := by decide +kernel

/-- The first of two arrivals at a barrier in global space. -/
theorem witness_EngineEvents_barrier :
    let c : RemCmd := { id := 9, by_ := issuer, succ := next, op := .barv 0x100, phase := .issued, tag := 9, passed := false }
    let s := mapped { frame 3 [] (fun k => open_ { k with remQ := [c] }) with mem := Memory.write [] 0x100 [2] }
    ((s.core 1).remHead = some c ∧ (0x100 : Word).toNat % 16 = 0 ∧ (0x108 : Word).toNat % 16 ≠ 0) ∧
    ∃ x, s.checkGlobal 1 c.by_.dom (c.by_.level == 7) c.by_.region 0x100 true true true = .ok x ∧
      (match ((x.1.releaseDie 0).acquireDie 0).arriveAt 1 c 0x100 x.2.pa with
        | .ok (some t) => decide (t.barriers.length = 1)
        | _ => false) = true :=
  ⟨by decide +kernel, exists_of_gives (by decide +kernel)⟩

/-- A barrier of two with one arrived, one of one, and one of none; an arrival that the checks refuse. -/
theorem witness_EngineEvents_barrier_words :
    let s := fun w : Nat => { frame 3 [] with mem := Memory.write [] 0x100 [BitVec.ofNat 8 w] }
    let at_ := fun w => (s w).spotData ((s w).spot 0 (.mem 0x100)) 0
    0x100 % 16 = 0 ∧ (s 2).spotPoison ((s 2).spot 0 (.mem 0x100)) = false ∧ (s 2).spotPoison ((s 2).spot 0 (.mem 0x108)) = false ∧
      (s 2).waitsAt ((s 2).spot 0 (.mem 0x100)) = none ∧ (s 2).waitsAt ((s 2).spot 0 (.mem 0x108)) = none ∧
      (({ s 2 with noCredit := [.home 0] }).waitsAt ((s 2).spot 0 (.mem 0x100))).isSome = true ∧
      ((at_ 2).toNat / 2 ^ 32 + 1 < (at_ 2).toNat % 2 ^ 32 ∧
        (((s 2).spotTouch ((s 2).spot 0 (.mem 0x100)) 0).recordSucc 0x100 issuer next 1).isSome = true) ∧
      (at_ 1).toNat / 2 ^ 32 + 1 = (at_ 1).toNat % 2 ^ 32 ∧ (at_ 0).toNat % 2 ^ 32 = 0 ∧
      (match (frame 3 []).checkGlobal 1 0 false none 0x100 true true true with
        | .ok _ => false
        | .error _ => true) = true := by decide +kernel

/-! ## Hypotheses of the statements about system instructions -/

theorem witness_PrivilegeTraps : (frame 3 []).me.level ≠ 7 ∧ (frame 0xF []).me.level ≠ 7 ∧ (0x1FF : BitVec 9) ≠ 0 := by
  decide +kernel

/-- With a frame below level 7 and without, and in a frame that a trap entered; k.vbase values at both ends of their range. -/
theorem witness_SupervisorRegisters :
    ((frame 7 []).me.level = 7 ∧ (∀ l : BitVec 3, l ≠ 7 → ((frame 7 []).me.bank l).live = false) ∧
      causeEntered (frame 7 []).me.cause = false) ∧
    ((supervised 8 3).me.level = 7 ∧ causeEntered (supervised 8 3).me.cause = true ∧
      causeLevel (supervised 8 3).me.cause ≠ 0xF) ∧
    (let s := frame 7 [] fun k => k.updBank 3 fun b => { b with live := true }
     s.me.level = 7 ∧ ¬ ∀ l : BitVec 3, l ≠ 7 → (s.me.bank l).live = false) ∧
    (3 : BitVec 9).toNat < 4 ∧ ¬ (4 : BitVec 9).toNat < 4 := by decide +kernel

theorem witness_SupervisorRegisters_vbase :
    (∀ x ∈ [(0x4000 : Word), 0xB000], 0x4000 ≤ x.toNat % 2 ^ 16 ∧ x.toNat % 2 ^ 16 ≤ 0xB000) ∧
    (0x3FFF : Word).toNat % 2 ^ 16 < 0x4000 ∧ 0xB800 ≤ (0xB800 : Word).toNat % 2 ^ 16 ∧
    ∀ x ∈ [(0xB001 : Word), 0xB7FF], 0xB000 < x.toNat % 2 ^ 16 ∧ x.toNat % 2 ^ 16 < 0xB800 := by simp

/-- An entered frame whose k.cause names a level, none, and no frame at all. -/
theorem witness_SupervisorRegisters_levels :
    (causeLevel (supervised 8 7).me.cause).toNat < 8 ∧ causeLevel (supervised 8 0xF).me.cause = 0xF ∧
      ∀ l ∈ [(8 : BitVec 4), 0xE], (supervised 8 l).me.level = 7 ∧ causeEntered (supervised 8 l).me.cause = true ∧
        8 ≤ (causeLevel (supervised 8 l).me.cause).toNat ∧ causeLevel (supervised 8 l).me.cause ≠ 0xF := by decide +kernel

/-- The bounds that `plbw` accepts. -/
def Bounds (y x : Word) : Prop :=
  y.toNat % 2 ^ 16 = 0 ∧ y.toNat < 2 ^ 56 ∧ x.toNat % 2 ^ 16 < 16 ∧ x.toNat < 2 ^ 56 ∧
    y.toNat / 2 ^ 16 ≤ x.toNat / 2 ^ 16

/-- The core that the operand x of `remap` names, by core 1. -/
def named (x : Word) : CoreId := dieOf 1 ++ bits x 18 14

/-- What `remap` turns away on core 1. -/
def TurnsAway (s : State) (x : Word) : Prop :=
  x.toNat / 2 ^ 33 ≠ 0 ∨ dieOf (bits x 0 18) ≠ dieOf 1 ∨ (x.getLsbD 32 = true ∧
    (named x = s.serviceCore (sectorOf (named x)) ∨ named x ∈ s.disabled ∨ s.namedByOther (bits x 0 18) (named x) = true))

theorem witness_MachineControl :
    Bounds 0x10000 0x1000F ∧ Bounds 0 0xFFFFFFFFFF0000 ∧ ¬ Bounds 0x20000 0x1000F ∧ ¬ Bounds 0x10000 0x10010 ∧
    ¬ Bounds 0x10001 0x10000 := by
  dsimp only [Bounds]; decide +kernel

/-- A reserved bit, a LID of another die, a service core, and a core that another LID names; then LID 1 away, and onto core 3,
which no LID names. -/
theorem witness_MachineControl_remap :
    TurnsAway (frame 7 []) 0x200000000 ∧ TurnsAway (frame 7 []) 0x4000 ∧ TurnsAway (frame 7 []) 0x100000001 ∧
    TurnsAway (frame 7 []) 0x1000C0002 ∧
    ¬ TurnsAway (frame 7 []) 1 ∧
    ¬ TurnsAway ((frame 7 []).updDie 0 fun d => { d with remap := Cells.put d.remap 3 { phys := 3, present := false } })
      0x1000C0001 ∧ (frame 7 []).me.level = 7 ∧ (frame 7 []).cur = 1 := by
  dsimp only [TurnsAway]; decide +kernel

/-- Core 1's context was saved there; then its LID is moved to core 3, while core 1 holds an arrival that was loading with it. -/
theorem witness_MachineControl_remap_holds :
    let s := (frame 7 [] fun c => { c.setHeld 5 [arrival] with loading := some 1, savedLid := some 1, holds := true }).updDie 0 fun d =>
      { d with remap := Cells.put d.remap 3 { phys := 3, present := false } }
    ¬ TurnsAway s 0x1000C0001 ∧ s.present 1 = true ∧ s.physOf 1 ≠ named 0x1000C0001 ∧ (s.core (s.physOf 1)).loading = some 1 ∧
      ((s.core (s.physOf 1)).held 5 = [arrival] ∧ (s.core 1).savedLid = some 1 ∧ (1 : CoreId) ≠ named 0x1000C0001) := by
  dsimp only [TurnsAway]; decide +kernel

/-- A consuming load of core 1 that waits for the TCM word 0x20. -/
def waiting : Mooring :=
  { owner := .tcm 1, word := 0x20, dom := 0, adom := 0, mode := .rfempty, data := 0, route := .ldq 1 1 2 3 0x100 (some .die),
    region := none, fwd := false, amo := none, plain := none }

theorem witness_MachineControl_mcancel :
    let s := { frame 7 [(1, 0x100), (2, 0xBFFF), (3, 0xC000)] with moorings := [waiting] }
    (s.rs 1).toNat ≤ 0xBFFF ∧ (s.rs 2).toNat ≤ 0xBFFF ∧ 0xBFFF < (s.rs 3).toNat / 8 * 8 ∧ waiting ∈ s.moorings ∧
      (waiting.owner == .tcm s.cur && waiting.word == (s.rs 1).toNat / 8 && waiting.dom == 0 && waiting.isSync) = true ∧
      waiting.route = .ldq 1 1 2 3 0x100 (some .die) := by decide +kernel

/-- Core 1 may load and store every address below 2^36, no word there is poisoned, and no access waits at its owner. -/
def Reaches (s : State) : Prop :=
  s.cur = 1 ∧ s.me.plb = (Core.reset 1).plb.set 0 PlbEntry.all ∧
    ((s.die 0).tlb = [{ page := 0, level := 2, frame := 0 }] ∧ (s.die 0).copies = []) ∧ s.migrations = [] ∧ s.poison = [] ∧
    s.moorings = [] ∧ s.weir = [] ∧ s.noCredit = []

theorem reaches_global {s : State} (h : Reaches s) {ea : Nat} (he : ea < 2 ^ 36) (dom : BitVec 16) (top rd wr : Bool)
    (region : Option Region) :
    s.checkGlobal 1 dom top region ea rd wr false = .ok (s, { loc := .mem ea, va := ea, pa := ea }) := by
  obtain ⟨h1, h2, ⟨h3, -⟩, -, -⟩ := h
  have hb : ea % 2 ^ 56 = ea := Nat.mod_eq_of_lt (by omega)
  have hr : (s.core 1).rights (BitVec.ofNat 56 ea) top = (true, true, true) := by
    have hc : PlbEntry.all.covers (BitVec.ofNat 56 ea) top = true := by
      simp [PlbEntry.covers, PlbEntry.all]; exact Nat.le_of_lt_succ (Nat.mod_lt _ (by decide))
    have hl : ((Core.reset 1).plb.set 0 PlbEntry.all).toList = PlbEntry.all :: List.replicate 15 PlbEntry.reset := rfl
    rw [show s.core 1 = s.me by rw [State.me, h1], Core.rights, h2, hl]
    simp only [List.find?, hc]
    rfl
  have hx : s.xlate 1 dom region ea false = .ok (s, ea) := by
    have h0 : dieOf 1 = 0 := by decide
    have ht : (s.die 0).tlbFind (BitVec.ofNat 56 ea) = some ea := by
      have hz : ea / 2 ^ (16 + 10 * (2 : BitVec 2).toNat) = 0 := Nat.div_eq_of_lt he
      have hr : ea % 2 ^ (16 + 10 * (2 : BitVec 2).toNat) = ea := Nat.mod_eq_of_lt he
      simp only [Die.tlbFind, h3, BitVec.toNat_ofNat, hb, List.find?, hz, hr, beq_self_eq_true, Nat.zero_add]
    simp only [State.xlate, State.translate, h0, ht]
    simp
  have hm : isMgmt ea = false := by simp [isMgmt]; omega
  simp only [State.checkGlobal, hr, hx, hm]
  have : demand (decide (ea < 2 ^ 56)) s (.trap 0x03 (BitVec.ofNat 64 ea)) = .ok () := by
    rw [show decide (ea < 2 ^ 56) = true by simpa using (by omega : ea < 2 ^ 56)]; rfl
  simp only [this]
  cases rd <;> cases wr <;> rfl

theorem reaches_check {s : State} (h : Reaches s) {ea : Nat} (he : ea < 2 ^ 36) (rd wr : Bool) :
    s.checkGlobal s.cur 0 true s.me.region ea rd wr false = .ok (s, { loc := .mem ea, va := ea, pa := ea }) := by
  rw [h.1]
  exact reaches_global h he 0 true rd wr s.me.region

theorem reaches_homed {s : State} (h : Reaches s) {ea : Nat} (he : ea < 2 ^ 36) :
    s.live ea = ea ∧ homedOn (dieOf s.cur) ea = true := by
  obtain ⟨h1, -, -, h4, -⟩ := h
  refine ⟨by simp [State.live, h4], ?_⟩
  rw [h1]
  have hz : ea / 2 ^ 36 = 0 := Nat.div_eq_of_lt he
  have hy : ea / 2 ^ 51 = 0 := Nat.div_eq_of_lt (by omega)
  rw [homedOn, isHost, homeDie, hz, hy]
  decide

theorem reaches_write {s : State} (h : Reaches s) {ea : Nat} (he : ea < 2 ^ 36) (dom : BitVec 16) (bs : List Byte) :
    Reaches (s.dieWrite (dieOf s.cur) dom ea ea bs) := by
  obtain ⟨hv, hh⟩ := reaches_homed h he
  have hw : ∀ (bs : List Byte) (s : State) (p : Nat), Reaches s → Reaches (s.homeWrite dom p bs) := by
    intro bs
    induction bs with
    | nil => exact fun _ _ h => h
    | cons b r ih =>
      intro s p h
      refine ih _ _ ?_
      unfold State.homeSet State.rekey
      split <;> exact h
  have ht : Reaches ((s.homeWrite dom ea bs).touchLine dom ea) := by
    unfold State.touchLine
    split <;> exact hw bs s ea h
  simp only [State.dieWrite, hv, hh, if_true, State.homeStore]
  split
  · exact ⟨ht.1, ht.2.1, ht.2.2.1, ht.2.2.2.1, by rw [ht.2.2.2.2.1]; rfl, ht.2.2.2.2.2⟩
  · exact ht

theorem reaches_clean {s : State} (h : Reaches s) (ea : Nat) : s.poisoned (dieOf s.cur) ea = false := by
  simp [State.poisoned, h.2.2.2.2.1, poisonGet, Cells.getD]

theorem reaches_touch {s : State} (h : Reaches s) (dom : BitVec 16) (ea : Nat) : Reaches (s.touchLine dom ea) := by
  unfold State.touchLine
  split <;> exact h

/-- So a save area there is stored whole. -/
theorem reaches_storeArea (l : List Word) : ∀ (s : State) (ea : Nat), Reaches s → ea + 8 * l.length ≤ 2 ^ 36 →
    ∃ u, s.storeArea ea l = (u, none) := by
  induction l with
  | nil => exact fun s ea _ _ => ⟨s, rfl⟩
  | cons w r ih =>
    intro s ea h he
    simp only [List.length_cons] at he
    rw [State.storeArea, reaches_check h (by omega)]
    exact ih _ _ (reaches_write h (show ea < 2 ^ 36 by omega) 0 _) (by omega)

/-- And a save area there is read whole. -/
theorem reaches_loadArea (n : Nat) : ∀ (s : State) (ea : Nat), Reaches s → ea + 8 * n ≤ 2 ^ 36 →
    ∃ v w, s.loadArea ea n = (v, .ok w) := by
  induction n with
  | zero => exact fun s ea _ _ => ⟨s, [], rfl⟩
  | succ n ih =>
    intro s ea h he
    obtain ⟨hv, hh⟩ := reaches_homed h (ea := ea) (by omega)
    have hp := reaches_clean h ea
    obtain ⟨v, w, e⟩ := ih (s.touchLine 0 ea) (ea + 8) (reaches_touch h 0 ea) (by omega)
    rw [State.loadArea, reaches_check h (by omega)]
    simp only [hp, State.dieRead, hv, hh, if_true, e]
    exact ⟨_, _, rfl⟩

/-- A core that may save to 0x10000, and load from there a context of its own. -/
def saving : State :=
  { mapped (frame 7 [(1, 0x10000)] open_) with mem := Memory.write [] 0x10000 (splitBytes 8 0x1000001) }

theorem reaches_saving : Reaches saving := by dsimp only [Reaches]; decide +kernel

theorem witness_SaveAndLoad :
    (let s := saving
     s.me.level = 7 ∧ ¬ ((s.rs 1).toNat % 2 ^ 16 ≠ 0 ∨ 2 ^ 56 ≤ (s.rs 1).toNat) ∧ (s.rs 1).toNat = 0x10000 ∧
       s.saveRefused s.cur = false ∧ (s.me.sbuf = [] ∧ s.me.flight = [] ∧ s.me.amoWait = false ∧ s.me.replies = [] ∧
         s.me.sfu = [] ∧ s.me.closing = [] ∧ s.outbound s.cur = [] ∧ s.me.unacked = []) ∧
       (∀ l : BitVec 3, l ≠ 7 → (s.me.bank l).live = false) ∧ s.me.hprog.getLsbD 0 = false) ∧
    (frame 7 [(1, 1)]).me.level = 7 ∧ ((frame 7 [(1, 1)]).rs 1).toNat % 2 ^ 16 ≠ 0 ∧
    (frame 7 [] fun c => { c with latchL := some latched }).saveRefused 1 = true ∧
    (frame 7 [] fun c => { c with hprog := 1 }).me.hprog.getLsbD 0 = true := by decide +kernel

theorem padTo_length (n : Nat) (l : List Word) : (padTo n l).length = n := by
  simp [padTo]; omega

theorem upFrom_length (n : Nat) : ∀ lo, (upFrom lo n).length = n := by
  induction n with
  | zero => exact fun _ => rfl
  | succ n ih => exact fun lo => congrArg (· + 1) (ih _)

theorem saveArea_length (s : State) (n : CoreId) : (s.saveArea n).length = 10240 := by
  have hq : ∀ l : List QueueReg, (l.flatMap fun (q : QueueReg) =>
      padTo 16 (vecWords (q.entries.map fun (e : QEnt) => e.data))).length = 16 * l.length := by
    intro l
    induction l with
    | nil => rfl
    | cons q r ih => simp only [List.flatMap_cons, List.length_append, padTo_length, ih, List.length_cons]; omega
  simp only [State.saveArea, List.length_append, hq, Core.saveHeader, padTo_length, List.length_map, upFrom_length,
    Vector.length_toList]

theorem witness_SaveAndLoad_store : ∃ u, saving.storeArea 0x10000 (saving.saveArea saving.cur) = (u, none) :=
  reaches_storeArea _ _ _ reaches_saving (by
    have h : (saving.saveArea saving.cur).length = 10240 := saveArea_length _ _
    omega)

theorem witness_SaveAndLoad_load : ∃ v w, saving.loadArea 0x10000 10240 = (v, .ok w) :=
  reaches_loadArea _ _ _ reaches_saving (by decide)

/-- The header names this core; and without a right the first word fails. -/
theorem witness_SaveAndLoad_header :
    (match saving.loadArea 0x10000 1 with
      | (u, .ok h) =>
        decide (bits (h.headD 0) 24 8 = (0x01 : BitVec 8) ∧ dieOf (bits (h.headD 0) 0 18) = dieOf saving.cur ∧
          u.present (bits (h.headD 0) 0 18) = true ∧ u.physOf (bits (h.headD 0) 0 18) = saving.cur)
      | (_, .error _) => false) = true ∧
    (match (frame 7 [(1, 0x10000)]).loadArea 0x10000 1 with
      | (_, .error ea) => decide (ea = 0x10000)
      | (_, .ok _) => false) = true ∧
    ((frame 7 [(1, 0x10000)]).storeArea 0x10000 [0]).2 = some 0x10000 := by decide +kernel

/-! ## Hypotheses of the statements about encodings and steps -/

theorem witness_EncodingRoundTrip :
    (Instr.add 3 1 2).wellFormed = true ∧ (Instr.compactLi 6 4).wellFormed = true ∧
    decode ((encode (.compactLi 6 4)).bytes ++ [0xFF]) = .ok (.compactLi 6 4, 2) := by decide +kernel

/-- Core 1 may execute page 0, and holds parcels. -/
def fetching (l : Cells Parcel) (pc : BitVec 56) : State :=
  frame 3 [] fun c => { open_ c with
    plb := c.plb.set 0 { PlbEntry.all with limit := 0 }, icache := l, pc, q := c.q.set 2 { c.q.get 2 with kind := 1, level := 3 } }

/-- A 16-bit `add`, a 32-bit `add`, both kinds of reserved parcel, and a read of an empty queue. -/
theorem witness_StepRunsDecoded :
    let s := fetching [(0x1000, 0x04A3)] 0x1000
    let t := fetching [(0x1000, 0xC018), (0x1002, 0x4400)] 0x1000
    (s.turns = [] ∧ s.powered 1 = true ∧ s.me.membership = none ∧ s.me.stopped = false ∧ s.me.level ≠ 0xF ∧ s.me.heldTraps = [] ∧ s.me.here.squash = false ∧
      s.me.here.parkDue = false ∧ s.me.here.queueOp = none ∧ (s.me.rights s.pc (s.me.level == 7)).2.2 = true ∧
      s.me.cachedParcel s.pc.toNat = some 0x04A3 ∧ bits (0x04A3 : Parcel) 14 2 ≠ (3 : BitVec 2) ∧
      decode [0xA3, 0x04, 0, 0] = .ok (.compactAdd 5 3, 2) ∧ s.me.awaits (.compactAdd 5 3) = none) ∧
    (bits (0xC018 : Parcel) 14 2 = (3 : BitVec 2) ∧ t.pc.toNat + 2 < 2 ^ 56 ∧
      (t.me.rights (t.pc + 2) (t.me.level == 7)).2.2 = true ∧ t.me.cachedParcel t.pc.toNat = some 0xC018 ∧
      t.me.cachedParcel (t.pc.toNat + 2) = some 0x4400 ∧
      decode [0x18, 0xC0, 0x00, 0x44] = .ok (.add 3 1 2, 4) ∧ t.me.awaits (.add 3 1 2) = none) ∧
    (fetching [] 0x1001).pc.toNat % 2 = 1 ∧
    (let u := fetching [] 0x10000; ¬ (u.me.rights u.pc (u.me.level == 7)).2.2 = true) ∧
    (let u := fetching [(0xFFFE, 0xC018)] 0xFFFE
     (u.me.rights u.pc (u.me.level == 7)).2.2 = true ∧ ¬ (u.me.rights (u.pc + 2) (u.me.level == 7)).2.2 = true) ∧
    (frame 0xF []).me.level = 0xF ∧ (frame 3 [] fun c => { c with stopped := true }).me.stopped = true := by decide +kernel

/-- A parcel that is fetched: read, of an absent page of either kind, poisoned, and in the management space. -/
theorem witness_StepRunsDecoded_fetch :
    let s := mapped (fetching [] 0x1000)
    let all := frame 7 [] fun c => { open_ c with pc := 0xFF000000000000 }
    (s.me.cachedParcel 0x1000 = none ∧ isMgmt 0x1000 = false ∧ (s.translate 0 0x1000).2 = .page 0x1000 ∧
      s.poisoned 0 0x1000 = false ∧ ({ s with poison := poisonSet [] 0x200 true } : State).poisoned 0 0x1000 = true) ∧
    ((fetching [] 0x1000).translate 0 0x1000).2 = .absent 0 false ∧
    (({ fetching [] 0x1000 with mem := Memory.write [] 0 [4] } : State).translate 0 0x1000).2 = .absent 1 false ∧
    (isMgmt all.pc.toNat = true ∧ (all.me.rights all.pc (all.me.level == 7)).2.2 = true ∧ all.me.cachedParcel all.pc.toNat = none) ∧
    (match s.fetchParcels with
      | .ok _ => true
      | .error _ => false) = true := by decide +kernel

/-- A leader, and a ganged follower with nothing forwarded, with its own instruction and with another. -/
theorem witness_StepRunsDecoded_members :
    let m : Member := { lead := 2, n := 2, level := 3, ganged := true, joinAt := none, fwd := [] }
    let f : Forwarded := { at_ := 0x1000, p := 0x04A3, q := 0, next := 0x1002, taken := false }
    let s := fun m : Member => (fetching [(0x1000, 0x04A3)] 0x1000).updMe fun c => { c with member := some m }
    (s { m with ganged := false }).me.forwarded = none ∧ (s m).me.forwarded = some [] ∧
      (s { m with fwd := [f] }).me.forwarded = some (f :: []) ∧ f.at_ = (s m).me.pc ∧
      (s { m with fwd := [{ f with at_ := 0x1004 }] }).me.forwarded = some ({ f with at_ := 0x1004 } :: []) ∧
      ({ f with at_ := 0x1004 } : Forwarded).at_ ≠ (s m).me.pc := by decide +kernel

/-- An instruction that an acceptance may accompany, and a frame that is stalled in an access to a queue register. -/
theorem witness_StepRunsDecoded_accepts :
    let s := { fetching [(0x1000, 0x04A3)] 0x1000 with turns := [.coreAccept 1] }
    (s.turns = .coreAccept 1 :: [] ∧ s.me.membership = none ∧ (Instr.compactAdd 5 3).selects = false ∧
      (match exec (.compactAdd 5 3) s with | .next _ => true | _ => false) = true) ∧
    (let t := s.updMe fun c => c.updHere fun b => { b with queueOp := some { write := false, q := 2, v := 4 } }
     t.powered 1 = true ∧ t.me.stopped = false ∧ t.me.level ≠ 0xF ∧ t.me.heldTraps = [] ∧ t.me.here.parkDue = false ∧
       t.me.here.squash = false ∧ t.me.here.queueOp ≠ none) := by decide +kernel

/-- A register of the instruction waits for a value. -/
theorem witness_StepRunsDecoded_awaits :
    ((fetching [(0x1000, 0x04A3)] 0x1000).updMe fun c => c.updHere fun b => { b with spend := 0x20 }).me.awaits
      (.compactAdd 5 3) = some .hold := by decide +kernel

theorem decode_refused {l : List Byte} (h : gives (decode l) (fun _ => true) = false) : ∀ x, decode l ≠ .ok x := by
  intro x e
  rw [e] at h
  cases h

theorem witness_StepRunsDecoded_reserved :
    (∀ x, decode [0x00, 0x00, 0xA3, 0x04] ≠ .ok x) ∧ (∀ x, decode [0xFF, 0xFF, 0xFF, 0xFF] ≠ .ok x) :=
  ⟨decode_refused (by decide +kernel), decode_refused (by decide +kernel)⟩

/-- The five ways in which a schedule names the core in turn, and an event of each sort. -/
theorem witness_StepRunsDecoded_turns :
    (∀ r ∈ [[], [Turn.core 1], [Turn.coreSlow 1], [Turn.coreBreak 1 8], [Turn.coreAccept 1]], ({ frame 3 [] with turns := r } : State).turns = r) ∧
    Instr.schedulable (.arrivalAccept 1) = true ∧ Instr.schedulable (.illegalInstruction 0) = false := by
  decide +kernel

theorem witness_StepKeepsMemoryCanonical :
    let s := fetching [(0x1000, 0x04A3)] 0x1000
    s.mem.wf = true ∧ (match step s with | .next t => t.mem.wf | _ => false) = true := by decide +kernel

/-! ## Hypotheses of the statements about events of the fabric and of memory -/

/-- The counters below and at their limits. -/
theorem witness_FabricEvents_watchdogs :
    (let k := (frame 3 [] fun c => { c with stalls := c.stalls.set 3 0xFFFFF }).me
     k.level.toNat < 7 ∧ k.stopped = false ∧ k.stalls.get k.lvl.toFin ≠ 0 ∧
       (k.stalls.get k.lvl.toFin).toNat + (1 : BitVec 40).toNat ≤ k.wdog.toNat ∧
       k.wdog.toNat < (k.stalls.get k.lvl.toFin).toNat + (2 : BitVec 40).toNat ∧
       (k.stalls.get k.lvl.toFin).toNat ≤ k.wdog.toNat) ∧
    (frame 7 [] fun c => { c with stalls := c.stalls.set 7 0xFFFFF }).me.stalls.get 7 ≠ 0 ∧
    (let k := (frame 7 [] fun c => { (c.updBank 3 fun b => { b with live := true }) with run7 := 2047 }).me
     k.level = 7 ∧ k.stopped = false ∧ (∃ j : BitVec 3, j ≠ 7 ∧ ((k.bank j).live = true ∨ k.held j ≠ [])) ∧
       k.run7.toNat + (1 : BitVec 16).toNat ≤ 2048 ∧ 2048 < k.run7.toNat + (2 : BitVec 16).toNat) := by decide +kernel

/-- What a `barv` that ended as the first of its engine owes. -/
def owedBack : Owed := { cmd := 2, succ := next, progress := 0, ended := some 0, close := none }

/-- On its way to core 1, to an absent core with a handback owed, and to another module through the only port. -/
theorem witness_FabricEvents_entry :
    (let t := transit arrival
     let s := { frame 3 [] with net := [t] }
     s.net[(0 : BitVec 16).toNat]? = some t ∧ t.cargo = .message arrival ∧ t.held = false ∧
       (s.net.take 0 = [] ∧
       s.cores.all (fun c => decide (c.1 = (s.physOf t.dst).toNat) || c.2.ni.all fun u => decide (u.flow ≠ t.flow)) = true) ∧ t.dstMod = s.modu ∧ t.isNotice = false ∧ s.present t.dst = true) ∧
    (let u := { transit arrival with dst := 0, back := some owedBack }
     let s := { frame 3 [] with net := [u] }
     s.net[(0 : BitVec 16).toNat]? = some u ∧ s.present u.dst = false ∧ u.back = some owedBack ∧
       HoldsLid s (s.physOf 2) 2 ∧ owedBack.ended = some ((s.core (s.physOf 2)).est (engineOf owedBack.cmd)).ended ∧
       u.cargo = .message arrival ∧ u.held = false ∧ hdrSrc arrival.msg.hdr = ({ issuer with lid := 2 } : Issuer).lid) := by
  dsimp only [HoldsLid]; decide +kernel

/-- The message is the successor of a command of core 2 that is closing. -/
theorem witness_FabricEvents_closing :
    let o := { owedBack with ended := none, close := some 4 }
    let t := { transit arrival with back := some o, owner := some 2 }
    let s := ({ frame 3 [] with net := [t] } : State).updCore 2 fun c => { c with closing := [(4, 2)] }
    t.back = some o ∧ o.close = some 4 ∧ o.ended = none ∧ t.owner = some 2 ∧ hdrSrc arrival.msg.hdr = 2 ∧
      (s.core 2).closing = [(4, 2)] ∧ HoldsLid s 2 2 := by
  dsimp only [HoldsLid]; decide +kernel

theorem witness_FabricEvents_port :
    let v := { transit arrival with dstMod := 1 }
    let x : State := { (frame 3 [] : State) with net := [v], ports := [] }
    x.net[(0 : BitVec 16).toNat]? = some v ∧ v.dstMod ≠ x.modu ∧ (x.portOf v).isSome = true := by decide +kernel

theorem witness_FabricEvents_moved :
    let y := (frame 3 []).updCore 3 fun c => { c with ni := [transit arrival] }
    let z := (frame 3 []).updCore 3 fun c => { c with ni := [{ transit arrival with dst := 0, back := some owedBack }] }
    ((z.core 3).ni = { transit arrival with dst := 0, back := some owedBack } :: [] ∧ z.present 0 = false) ∧
    (y.core 3).ni = transit arrival :: [] ∧ (transit arrival).isHeat = false ∧ y.present 1 = true ∧ y.physOf 1 ≠ 3 := by decide +kernel

/-- An entry of the weir for each queue that has room again. -/
theorem witness_FabricEvents_weir :
    let r : InstRec := { launch := 1, inst := instance2, stage := 0, msg := arrival.msg }
    let v : QEnt := { data := 7, src := some (2, 1), scope := none }
    let s : State := frame 7 []
    let t := frame 7 [] receiving
    let y : Mooring := { waiting with owner := .home 0 }
    (y.owner.isMem = true ∧ waiting.owner.isMem = false ∧ s.mooringCount waiting.owner < waiting.owner.capacity ∧
      waiting.mode.holds ((s.updMe fun c => { c with tcmFe := feSet c.tcmFe 0x20 false }).spotFull
        { owner := .tcm 1, word := 0x20, dom := 0 }) = false) ∧
    (∀ j, ∀ b ∈ arrival :: s.heldAt 1 j, hdrType b.msg.hdr ≠ 0x0B ∧ (s.core 1).tooLarge b j = false) ∧
    ((s.core (s.physOf 1)).thresh = 7 ∧ (s.core (s.physOf 1)).heldTraps = [] ∧
      (∀ j, ((s.core (s.physOf 1)).bank j).squash = false ∧ ((s.core (s.physOf 1)).bank j).parkDue = false) ∧ ((s.core (s.physOf 1)).held 5).length < 16 ∧ s.contextIn 1 = true ∧
      (s.sector 0).launchQ.length < 16 ∧ (s.block 0).records.length < 256 ∧
      ((t.core (t.physOf 1)).rq 2).room = true) ∧
    (∀ e ∈ [{ queue := WeirQueue.inbox 1 5, region := none, item := WeirItem.arr arrival },
            { queue := .launch 0, region := none, item := .launch 1 }, { queue := .records 0, region := none, item := .record r },
            { queue := .recv 1 2, region := none, item := .entry v },
            { queue := .tcm 1, region := none, item := .moor waiting },
            { queue := .mooring (.scratch 0), region := none, item := .moor { waiting with owner := .scratch 0 } }],
      ({ s with weir := [e] } : State).weir[(0 : BitVec 16).toNat]? = some e ∧
        ∀ o ∈ ({ s with weir := [e] } : State).weir.take 0, o.queue ≠ e.queue) := by decide +kernel

/-- A message that finds a waiting entry before it, in a region whose ring has no byte. -/
theorem witness_FabricEvents_full :
    let e : WeirEntry := { queue := .inbox 1 5, region := none, item := .arr arrival }
    let s := { bound [] enabled with
      weir := [e], regions := [(0x1080, { info with eff := { eff with weirq := 0 } })] }
    let k := s.me
    (s.powered 1 = true ∧ s.present 1 = true ∧ s.physOf 1 = 1 ∧ hdrType arrival.msg.hdr ≠ 0x09 ∧
      s.startsNow 1 arrival (k.effPrio arrival.msg.hdr) = false) ∧
    k.ni = transit arrival :: [] ∧ hdrType arrival.msg.hdr ∉ [0x00, 0x05, 0x08, 0x0B] ∧ k.savedLid ≠ some 1 ∧
      k.tooLarge arrival (k.effPrio arrival.msg.hdr) = false ∧ s.weirHas (.inbox 1 (k.effPrio arrival.msg.hdr)) = true ∧
      s.weirFull k.bound_ (.arr arrival) = true := by decide +kernel

/-- A sending and a receiving register. -/
theorem witness_FabricEvents_channels :
    let v : QEnt := { data := 7, src := some (1, 1), scope := none }
    let two (c : Core) : Core := (receiving c).updQ 1 fun q => { q with kind := 2, level := 3, allow := 1, peer := 1, peerQ := 2, entries := [v] }
    let s := frame 3 [] two
    let t := { s with net := [{ transit arrival with cargo := .channel v 2 4 }] }
    ((s.me.rq 1).kind = 2 ∧ (s.me.rq 1).entries = v :: [] ∧ (s.me.rq 1).allow ≠ 0) ∧
    (t.net = { transit arrival with cargo := .channel v 2 4 } :: [] ∧ (transit arrival).held = false ∧
      (∀ c ∈ t.cores, c.2.ni = []) ∧ t.present 1 = true ∧ (t.core (t.physOf 1)).defers 1 = false ∧
      ((t.core (t.physOf 1)).rq 2).room = true ∧ t.weirHas (.recv 1 2) = false) ∧
    (let u := s.updMe fun c => c.updQ 2 fun q => { q with entries := [v] }
     ((u.me.rq 2).kind = 1 ∨ (u.me.rq 2).kind = 3) ∧ (u.me.rq 2).entries = v :: [] ∧ v.src = some (1, 1) ∧
       u.powered 1 = true ∧ u.me.stopped = false ∧ u.me.level = (u.me.rq 2).level.setWidth 4 ∧
       (u.core (u.physOf 1)).lid = 1 ∧ (u.core (u.physOf 1)).savedLid ≠ some 1 ∧ (u.core (u.physOf 1)).loading ≠ some 1 ∧
       ((u.core (u.physOf 1)).rq 1).kind = 2 ∧ ((u.updMe fun c => { c with savedLid := some 1 }).core 1).savedLid = some 1) := by
  decide +kernel

/-- An entry that a region's quota of 1 KiB takes, one that takes the region beyond it, and one that the extra sixteenth does not. -/
theorem witness_FabricEvents_quota :
    let s := fun (n : Nat) (l : BitVec 4) => { frame l [] with
      weir := List.replicate n { queue := WeirQueue.inbox 1 5, region := some 0x1080, item := WeirItem.arr arrival },
      regions := [(0x1080, { info with eff := { eff with weirq := 1 } })] }
    let bytes := fun n => (s n 3).weirBytes (some 0x1080) + (WeirItem.arr arrival).size
    (s 0 3).ringEff (some 0x1080) = some { eff with weirq := 1 } ∧ (bytes 0 ≤ 1024 ∧ (s 0 3).weirOver = []) ∧
      (1024 < bytes 32 ∧ bytes 32 ≤ 1024 + 64 ∧ (0x1080 : Region) ∉ (s 32 3).weirOver) ∧ 1024 + 64 < bytes 40 ∧
      ((s 32 0xF).core 1).level = 0xF ∧ ((s 32 0xF).core 1).stopped = false ∧ ((s 32 3).core 1).level ≠ 0xF := by decide +kernel

/-- The running frame's own accesses to a sending, a receiving and an unbound register, some full or empty. -/
theorem witness_FabricEvents_registers :
    let v : QEnt := { data := 7, src := none, scope := none }
    let s := frame 3 [] fun c => (((receiving c).updQ 1 fun q => { q with kind := 2, level := 3 }).updQ 3 fun q =>
      { q with kind := 2, level := 3, entries := List.replicate 8 v }).updQ 4 fun q => { q with kind := 1, level := 3, entries := [v] }
    (s.powered s.cur = true ∧ s.me.stopped = false ∧ s.me.level = 3 ∧ s.me.sbuf = [] ∧ s.me.flight = [] ∧ s.me.amoWait = false ∧
      s.me.heldTraps = [] ∧ (∀ j, (s.me.bank j).squash = false ∧ (s.me.bank j).parkDue = false) ∧ s.me.here.queueOp = none ∧
      s.me.here.vpend.getLsbD 4 = false ∧ (s.me.updHere fun b => { b with vpend := 0x10 }).here.vpend.getLsbD 4 = true) ∧
      (s.me.rq 1).kind = 2 ∧ (s.me.rq 1).entries = [] ∧ (s.me.rq 2).kind = 3 ∧ (s.me.rq 2).entries = [] ∧
      (s.me.rq 3).entries.length = 8 ∧ (s.me.rq 4).entries = v :: [] ∧ (s.me.rq 5).kind = 0 := by decide +kernel

/-- A flit that agrees with a port of eight lanes, one that narrows it, and the third mismatch. -/
theorem witness_LinkEvents :
    (let p : Port := { settled := false, quarantined := false, width := 3, lanes := 0xFF, speed := 1, mismatches := 0, attempt := 1,
                       sent := 0 }
     let s := { State.reset with ports := [(2, p)] }
     let f : BitVec 256 := 0x5E + 3 * 2 ^ 8 + 0xFF * 2 ^ 10 + 2 ^ 18
     s.port 2 = p ∧ p.settled = false ∧ p.quarantined = false ∧
       (bits f 0 8 = (0x5E : BitVec 8) ∧ f.toNat < 2 ^ 45 ∧ bits f 8 2 = p.width ∧ bits f 10 8 = p.lanes ∧
         bits f 18 2 = p.speed ∧ 2 ^ p.width.toNat ≤ (List.range 8).countP fun i => p.lanes.getLsbD i) ∧
       bits (f - 0x80 * 2 ^ 10) 10 8 ≠ p.lanes) ∧ (0 : BitVec 5) ≠ 2 := by decide +kernel

/-- The full and the empty word of core 1's TCM at 0x100 and 0x108, a store and a load of each kind. -/
theorem witness_SyncEvents :
    let half (c : Core) : Core := { c with tcmFe := feSet c.tcmFe 0x21 false }
    let f : Flight := { space := .tcm, ea := 0x100, va := 0x100, pa := 0, mode := .rfempty, q := 2, level := 3, itag := 5, scope := .core,
                        tag := 4, dom := 0, region := none }
    let alone (s : State) (o : Nat) : Bool := decide ((∀ m ∈ s.moorings, m.owner ≠ .tcm 1) ∧ .tcm 1 ∉ s.noCredit ∧ o % 8 = 0 ∧
      poisonGet s.me.tcmPoison (o / 8) = false ∧ s.weirHas (.tcm s.me.lid) = false)
    (let e := { stored with mode := some SyncMode.wempty }
     let s := frame 3 [] fun c => half { c with sbuf := [e] }
     s.me.sbuf = e :: [] ∧ s.me.flight = [] ∧ s.me.amoWait = false ∧ alone s 0x100 = true ∧ alone s 0x108 = true ∧ e.va = 0x100 ∧
       SyncMode.holds .wempty (feGet s.me.tcmFe (0x100 / 8)) = true ∧
       SyncMode.holds .wefill (feGet s.me.tcmFe (0x100 / 8)) = false) ∧
    (let s := frame 3 [] fun c => half { c with flight := [f] }
     s.me.sbuf = [] ∧ s.me.flight = f :: [] ∧ alone s f.va = true ∧ f.mode.writes = false ∧
       f.mode.holds (feGet s.me.tcmFe (0x100 / 8)) = true ∧ f.mode.holds (feGet s.me.tcmFe (0x108 / 8)) = false) ∧
    (let d : Delivery := { lid := 1, q := 2, entry := 9, scope := some .die }
     let s := frame 3 [] fun c => { receiving c with deliver := [d] }
     s.me.deliver = d :: [] ∧ d.lid = s.me.lid ∧ s.me.savedLid ≠ some s.me.lid ∧ s.me.loading ≠ some s.me.lid ∧
       s.contextOut s.me.lid = false) := by decide +kernel

/-- A refill in an open and in a gated cluster, a walk, and a translation that is kept. -/
theorem witness_MemoryEvents_pages :
    (let s := (frame 3 []).updCluster 0 fun c => { c with refills := [(0, 5, 0x5000)] }
     (s.cluster 0).refills = (0, 5, 0x5000) :: [] ∧ (s.cluster 0).gstate = 0 ∧ (s.cluster 0).frames.length < 64 ∧
       (s.cluster 0).findFrame 0 5 = none) ∧
    (let s := (frame 3 []).updCluster 0 fun c => { c with refills := [(0, 5, 0x5000)], gstate := 1 }
     (s.cluster 0).refills = (0, 5, 0x5000) :: [] ∧ (s.cluster 0).gstate ≠ 0) ∧
    (let s := { frame 3 [] with mem := (Memory.write [] 0 [1, 0x20]).write 0x2000 [3] }
     (s.die 0).tlbFind 0x1234 = none ∧ isMgmt 0x1234 = false ∧ s.walkFrom 0 [] 0x1234 0 4 = (.page 0x1234, 2)) ∧
    ((mapped (frame 3 [])).die 0).tlbFind 0x1234 = some 0x1234 := by decide +kernel

/-- A store of a gated cluster, one to a granule that has moved, and an acknowledgement. -/
theorem witness_MemoryEvents_stores :
    (let e := { stored with space := .scratch, va := 0x5100, pa := 0x5100 }
     let s := (frame 3 [] fun c => { c with sbuf := [e] }).updCluster 0 fun c => { c with gstate := 1 }
     (s.cluster (clusterOf 1)).gstate ≠ 0 ∧ s.me.sbuf = e :: [] ∧ e.mode = none ∧
       s.me.flight = [] ∧ s.me.amoWait = false ∧ s.behindFwd (s.spot e.dom (.mem e.pa)) = false ∧
       s.plainStuck 1 e.dom (.mem e.pa) = none ∧ e.pa % 8 + e.size ≤ 8 ∧ s.frameAt (clusterOf 1) e.dom e.va = none ∧ homedOn (dieOf 1) (s.live e.pa) = true) ∧
    (let e := { stored with space := .global, va := 0x10000, pa := 0x10000 }
     let s := { frame 3 [] (fun c => { c with sbuf := [e] }) with migrations := [{ p := 1, p2 := 2, next := 1 }] }
     s.me.sbuf = e :: [] ∧ s.me.flight = [] ∧ s.me.amoWait = false ∧ s.behindFwd (s.spot e.dom (.mem e.pa)) = false ∧
       s.plainStuck 1 e.dom (.mem e.pa) = none ∧ e.pa % 8 + e.size ≤ 8 ∧ Cells.getD s.bkey (s.live e.pa / 16) 0 = s.keyOf e.dom (s.live e.pa) ∧
       e.mode = none ∧ s.live e.pa ≠ e.pa ∧ homedOn (dieOf 1) (s.live e.pa) = true) ∧
    (frame 3 [] fun c => { c with acks := [4] }).me.acks = 4 :: [] := by decide +kernel

/-- Credits of die 0 with an access that waits for one, whose word is full, and with none. -/
theorem witness_MemoryEvents_credits :
    let m := { waiting with owner := .home 0, fwd := true }
    let s := { frame 3 [] with noCredit := [.home 0], moorings := [m] }
    (s.noCredit[(0 : BitVec 16).toNat]? = some (.home 0) ∧ s.moorings = m :: [] ∧ m.fwd = true ∧ m.owner = .home 0 ∧ m.plain = none ∧ .home 0 = s.memOwner (8 * m.word) ∧
      m.mode.holds (s.spotFull { owner := .home 0, word := m.word, dom := m.dom }) = true ∧ poisonGet s.poison m.word = false) ∧
    (let t := { s with fe := feSet s.fe 0x20 false }
     m.mode.holds (t.spotFull { owner := .home 0, word := m.word, dom := m.dom }) = false) ∧
    ∀ x ∈ ({ s with moorings := [] } : State).moorings, x.owner = .home 0 → x.fwd = false := by decide +kernel

/-- A page invalidation, a new migration and one under way, and a controller without a ring. -/
theorem witness_MemoryEvents_moves :
    (let p : Pginv := { core := 1, lid := 1, page := 0x10000, level := 0, dom := 0, addr := 0x10000 }
     let s := { frame 7 [] with pginvs := [p] }
     s.pginvs = p :: [] ∧ p.core = 1 ∧ ∀ x ∈ s.cores, x.2.usesRange p.page (p.page + pageSize p.level) = false) ∧
    (let s := frame 7 []
     (∀ x ∈ s.migrations, x.p ≠ 1 ∧ x.p ≠ 2 ∧ x.p2 ≠ 1 ∧ x.p2 ≠ 2) ∧ (1 : BitVec 24) ≠ 2 ∧ (∀ x ∈ s.prov, x.pa / 65536 ≠ 1) ∧
       s.inLargePage 1 = false ∧ (mapped s).inLargePage 1 = true) ∧
    (let m : Migration := { p := 1, p2 := 2, next := 1023 }
     let s := { frame 7 [] with migrations := [m] }
     (let w := { waiting with owner := .home 0, word := (65536 + 64 * 1023) / 8 }
      w ∈ ({ s with moorings := [w] } : State).moorings ∧ w.owner.isMem = true) ∧
     s.migrations.find? (fun x => x.p == (1 : BitVec 24).toNat) = some m ∧ m.next < 1024 ∧ m.p2 ≠ 1 ∧
       ∀ d : BitVec 4, Cells.find (s.die d).copies ((1 * 65536 + 64 * m.next) / 8 + 7) = none) ∧
    (((frame 3 []).die (homeDie 0x1000)).mcsize = 0 ∧ (frame 3 []).dirtyFrame 0x1000 = none ∧
      ∀ d : BitVec 4, Cells.find ((frame 3 []).die d).copies (0x1000 / 8 + 7) = none) := by decide +kernel

/-! ## Hypotheses of the statements about launches and contracts -/

/-- A `launch` of core 1 at its engine. -/
def launching (r : LaunchRec) (c : Core) : Core :=
  { c with remQ := [{ id := 9, by_ := issuer, succ := next, op := .launch r, phase := .issued, tag := 9, passed := false }] }

/-- A launch, a region, a partition and the root in turn, the launch's list of stages, and its stage. -/
def tree : Memory :=
  (((((((((Memory.write [] 0x1000 (splitBytes 8 0x0300000000001080)).write 0x1030 (splitBytes 8 0x1400)).write 0x1080
    (splitBytes 8 0x0200000000001100)).write 0x10B0 [1]).write 0x1100 (splitBytes 8 0x0100000000001180)).write 0x1188
    (splitBytes 8 0x1FF)).write 0x1190 [16]).write 0x1200 (splitBytes 8 0x0400000000001000)).write 0x1240
    (splitBytes 8 0x140000000)).write 0x1400 (splitBytes 8 0x1200)

theorem witness_LaunchEvents_frontEnd :
    (let s := { mapped (frame 3 [] (launching record)) with mem := tree }
     let find := s.oldestRem fun n op => sectorOf n == (0 : BitVec 6) && (match op with | .launch _ => true | _ => false)
     find.map (fun x => (x.1, x.2.op)) = some ((1 : CoreId), RemOp.launch record) ∧ (s.sector 0).launchQ.length < 16 ∧
       s.weirHas (.launch 0) = false ∧ record.shapew = 0) ∧
    (let r := { record with rcb := 0x1001 }
     let s := frame 3 [] (launching r)
     let find := s.oldestRem fun n op => sectorOf n == (0 : BitVec 6) && (match op with | .launch _ => true | _ => false)
     find.map (fun x => (x.1, x.2.op)) = some ((1 : CoreId), RemOp.launch r) ∧ r.rcb.toNat % 128 ≠ 0) := by decide +kernel

theorem witness_LaunchEvents_tree :
    let s := { mapped (frame 3 [] (launching record)) with mem := tree }
    ∃ info, (s.releaseDie 0).checkTree 0 record.rcb = .ok info ∧ decide (info.stages.length = 1 ∧ info.region = 0x1080) = true :=
  exists_of_gives (by decide +kernel)

theorem witness_LaunchEvents_refused :
    (frame 3 []).checkTree 0 0x1001 = .error { cause := 0x01, addr := 0x1001, progress := 0, unread := false } := rfl

/-- What a round finds when every core of the block is held as before, and those in a region run. -/
theorem refreshHolds_same (s : State) (blk : BitVec 10)
    (h : ∀ n ∈ blockCores blk, s.hotNow n = (s.core n).withheld ∧ (s.core n).overPower = false ∧
      ((s.core n).bound_ = none ∨ (s.core n).isIdle = false)) : s.refreshHolds blk = { s with free := s.free + 1 } := by
  have hm : ∀ n ∈ blockCores blk, (match (s.core n).bound_ with
      | some r => s.overNow r ((blockCores blk).filter fun m => (s.core m).bound_ == some r) n
      | none => false) = (s.core n).overPower := by
    intro n hn
    obtain ⟨-, h2, h3⟩ := h n hn
    rcases h3 with h3 | h3
    · simp [h3, h2]
    · cases (s.core n).bound_ with
      | none => simp [h2]
      | some r => simp [State.overNow, h2, h3]
  have hf : ∀ (l : List CoreId) (f : State → CoreId → State), (∀ n ∈ l, f s n = s) → l.foldl f s = s := by
    intro l f hl
    induction l with
    | nil => rfl
    | cons n r ih => rw [List.foldl_cons, hl n (.head _), ih fun m hm => hl m (.tail _ hm)]
  unfold State.refreshHolds
  rw [hf]
  intro n hn
  rw [if_pos ⟨(h n hn).1, hm n hn⟩]

/-- Core 1 runs in a region and is bound, and the dispenser of its block holds a record for it. -/
def dispensing : State :=
  (bound []).updBlock 0 fun k => { k with records := [{ launch := 1, inst := instance2, stage := 0, msg := arrival.msg }] }

theorem witness_LaunchEvents_round :
    let b := binding []
    (dispensing.refreshHolds 0).openCore 1 = true ∧ dispensing.waiting = [] ∧ blockOf 1 = 0 ∧
      (dispensing.core 1).binding = some b ∧
      (blockCores 0).all (fun m => m == 1 || (dispensing.core m).binding.isNone) = true ∧
      (dispensing.block 0).records.any (fun x => decide (x.launch = b.launch ∧ x.stage = b.stage)) = true := by
  refine ⟨?_, by decide +kernel, by decide +kernel, by decide +kernel, by decide +kernel, by decide +kernel⟩
  have h : (blockCores 0).all (fun n => decide (dispensing.hotNow n = (dispensing.core n).withheld ∧
      (dispensing.core n).overPower = false ∧ ((dispensing.core n).bound_ = none ∨ (dispensing.core n).isIdle = false))) = true := by
    decide +kernel
  rw [refreshHolds_same _ _ fun n hn => of_decide_eq_true (List.all_eq_true.mp h n hn)]
  decide +kernel

theorem witness_LaunchEvents_release :
    let s := { frame 7 [] (fun c => { c with binding := some (binding []) }) with launches := [oneStage] }
    s.launches.find? (fun y => y.id == (1 : BitVec 32).toNat) = some oneStage ∧ oneStage.bound = true ∧
      oneStage.stages = oneCore :: [] ∧ oneCore.cores = [1] ∧ (s.core 1).binding = some (binding []) ∧ (binding []).plbDone = true ∧
      oneStage.issued = 0 ∧ oneStage.ended = [] ∧
      0 < oneStage.limit ∧ (s.block (blockOf 1)).records.length + oneStage.limit ≤ 256 ∧
      s.weirHas (.records (blockOf 1)) = false ∧ oneStage.done = false := by decide +kernel

theorem witness_LaunchEvents_unbind :
    let x := { oneStage with done := true }
    let s := { frame 0xF [] (fun c => { c with binding := some (binding []) }) with launches := [x] }
    s.launches.find? (fun y => y.id == (1 : BitVec 32).toNat) = some x ∧
      ∀ g ∈ x.stages, g.cores = [1] ∧ (s.core 1).level = 0xF ∧ (s.core 1).copyQ = [] ∧ (s.core 1).matQ = [] ∧
        (s.core 1).remQ = [] ∧ (s.core 1).closing = [] ∧ (s.core 1).binding.map (fun b => b.launch) = some x.id ∧
        (s.updMe fun c => { c with matQ := [command (pass (square 0x100) 0)] }).me.matQ ≠ [] := by decide +kernel

/-- A gang of the launch below, a notice of a barrier at p, and core 1 bound in stage k of a gang under the barrier at 0x4000. -/
def gangStage : Stage := { oneCore with gang := true }
@[inherit_doc gangStage] def gangLaunch : Launch := { oneStage with stages := [gangStage] }
@[inherit_doc gangStage] def notice (p : Word) : Arr := { arrival with msg := { hdr := mkHdr 0x07 7 0 0 1 1, payload := [p] } }
@[inherit_doc gangStage] def noticed (k : Nat) (p : Word) : State :=
  { frame 3 [] (fun c => { c with withheld := true, binding := some (binding []) }) with
    launches := [gangLaunch], net := [transit (notice p)], gangBars := [(1, k, 0x4000)] }

theorem witness_LaunchEvents_notice :
    (noticed 0 0x4000).net = transit (notice 0x4000) :: [] ∧ (transit (notice 0x4000)).isNotice = true ∧
      sectorOf (transit (notice 0x4000)).dst = 0 ∧ (noticed 0 0x4000).gangBars = [(gangLaunch.id, 0, 0x4000)] ∧
      (noticed 0 0x4000).live 0x4000 = ((notice 0x4000).msg.word 0).toNat ∧
      (noticed 0 0x4040).live 0x4000 ≠ ((notice 0x4040).msg.word 0).toNat ∧ gangLaunch.stages[0]? = some gangStage ∧
      gangStage.cores = 1 :: [] ∧ (noticed 0 0x4000).heldBack 1 = true := by
  decide +kernel

theorem witness_LaunchEvents_gang :
    (noticed 0 0x4000).launches.find? (fun y => y.id == gangLaunch.id) = some gangLaunch ∧
      ((noticed 0 0x4000).core 1).binding = some (binding []) ∧
      (∃ e ∈ (noticed 0 0x4000).gangBars, (e.1, e.2.1) = ((binding []).launch, (binding []).stage)) ∧
      ∀ e ∈ (noticed 1 0x4000).gangBars, (e.1, e.2.1) ≠ ((binding []).launch, (binding []).stage) := by
  decide +kernel

/-- A filled shape word, a tentative instance beyond the count and one within it. -/
theorem witness_LaunchEvents_shape :
    let x := { oneStage with fill := some 2, count := none }
    let i := { instance2 with tentative := true }
    let s : State := { frame 3 [] (fun c => c.updHere fun b => { b with inst := some i }) with launches := [x] }
    s.launches.find? (fun y => y.id == (1 : BitVec 32).toNat) = some x ∧ x.fill = some 2 ∧ x.count = none ∧
      x.released = false ∧ s.records = [] ∧ s.allocs = [] ∧ ((s.core 1).bank 3).live = true ∧
      ((s.core 1).bank 3).inst = some i ∧ i.walk = false ∧ i.id = x.id ∧ i.tentative = true ∧
      min (2 : Word).toNat 0xFFFFFFFF ≤ i.index.toNat ∧ i.index.toNat < min (3 : Word).toNat 0xFFFFFFFF := by decide +kernel

theorem witness_LaunchEvents_bound :
    let im : Images := { vtab := List.replicate 320 0, named := [1, 2], dimg := [] }
    8 * im.named.length ≤ oneCore.vbase.toNat ∧ im.vtab.length = 320 := by decide +kernel

/-- A contract of type 0x41 at priority 4 with a budget of 100, on the first core of its stage. -/
def contract (act : Bool) : Contract :=
  { idx := 2, budget := 100, period := 1000, deadline := 500, prio := 4, act, src := 0, ctype := 0x41, cfirst := 0, ccount := 1 }

/-- The release of its period at core 1, for cores 1 and 2. -/
def releasing : State :=
  { frame 7 [] (fun c => { c with ni := [transit { arrival with msg := { hdr := mkHdr 0x05 7 0 2 1 1, payload := [0x2000, 2 + 0x700000000] } }] }) with
    launches := [{ oneStage with stages := [{ oneCore with contracts := [{ contract false with ccount := 2 }], cores := [1, 2] }] }] }

theorem witness_ContractEvents_quiet : NoneDue releasing 1 ∧ NoneDue releasing 2 := by dsimp only [NoneDue]; decide +kernel

theorem witness_ContractEvents_held : (∀ p, releasing.heldAt 1 p = []) ∧ (∀ p, releasing.heldAt 2 p = []) ∧
    releasing.physOf (releasing.core 1).lid = 1 ∧ releasing.physOf (releasing.core 2).lid = 2 ∧ releasing.saved = [] := by decide +kernel

theorem witness_ContractEvents_period :
    let a : Arr := { arrival with msg := { hdr := mkHdr 0x05 7 0 2 1 1, payload := [0x2000, 2 + 0x700000000] } }
    let k := { contract false with ccount := 2 }
    let g := { oneCore with contracts := [k], cores := [1, 2] }
    releasing.me.ni = transit a :: [] ∧ hdrType a.msg.hdr = 0x05 ∧ releasing.stageRcb (a.msg.word 0) = some g ∧
      g.contracts.find? (fun x => x.idx == bits (a.msg.word 1) 0 3) = some k ∧
      (g.cores.drop k.cfirst.toNat).take k.ccount.toNat = [1, 2] ∧ [(1 : CoreId), 2].Nodup := by decide +kernel

/-- At the budget and past it, of a contract that traps; and a supervisor that a frame of the contract entered. -/
theorem witness_ContractEvents_budget :
    let b : Budget := { idx := 2, count := 90, overrun := false, throttled := false }
    let v := (frame 7 [] fun c => { ({ c with cause := mkCause 8 3 false true } : Core).updBank 3 fun x =>
      { x with live := true, contract := some 2 } with binding := some (binding [contract false]), budgets := [b] }).me
    (v.level = 7 ∧ (causeLevel v.cause).toNat < 7 ∧ (v.bank (bits (causeLevel v.cause) 0 3)).live = true ∧
      (v.bank (bits (causeLevel v.cause) 0 3)).contract = some 2) ∧
    let k := (frame 3 [] fun c => { (c.updHere fun x => { x with contract := some 2 }) with
      binding := some (binding [contract false]), budgets := [b] }).me
    k.level.toNat < 7 ∧ k.stopped = false ∧ k.here.live = true ∧ k.here.contract = some 2 ∧
      k.binding = some (binding [contract false]) ∧
      (binding [contract false]).contracts.find? (fun x => x.idx == 2) = some (contract false) ∧
      k.budgets.find? (fun x => x.idx == 2) = some b ∧ ¬ (contract false).budget.toNat < b.count + (10 : BitVec 32).toNat ∧
      (contract false).budget.toNat < b.count + (11 : BitVec 32).toNat := by decide +kernel

theorem witness_ContractEvents_pacer :
    let p : Pacer := { en := true, cidx := 2, lid := 1, period := 1000, now := 500, rcb := 0x2000, seq := 7 }
    let s := (frame 7 []).updDie 0 fun d => { d with pacer := p }
    (s.die 0).pacer = p ∧ p.en = true ∧ p.now ≠ 0 ∧ ((frame 7 []).die 0).pacer.en = false := by decide +kernel

/-- Twenty firm instances at core 1 and none at core 2, bound to one stage; a figure that differs by two. -/
theorem witness_ContractEvents_load :
    let a (n : Word) : Arr := { arrival with msg := { hdr := mkHdr 0x08 7 0 1 2 1, payload := [n] } }
    let b : Arr := { arrival with inst := some instance2 }
    let s (n : Word) : State := (frame 7 [] fun c => { c.setHeld 0 (List.replicate 20 b) with
      ni := [transit (a n)], binding := some (binding []) }).updCore 2 fun c => { c with binding := some (binding []) }
    ((s 0).core 1).ni = transit (a 0) :: [] ∧ hdrType (a 0).msg.hdr = 0x08 ∧ (s 0).physOf (hdrSrc (a 0).msg.hdr) = 2 ∧
      (s 0).sameStage 1 2 = true ∧ (s 0).loadFigure 1 - ((a 0).msg.word 0).toNat = 20 ∧
      (s 18).loadFigure 1 - ((a 18).msg.word 0).toNat = 2 ∧ (s 0).weir = [] ∧
      ((s 0).core 1).held 0 = List.replicate 18 b ++ [b, b] ∧ 20 / 10 = [b, b].length ∧ (s 0).movable b = true ∧ (s 0).sameStage 1 3 = false := by
  decide +kernel

/-! ## Hypotheses of the statements about the host, power and the encoders -/

/-- A partition of device 2 with host domain 3 and a window of 64 KiB at 0x10000; its RCB stands at 0x1100. -/
def hosted (l : List (Nat × Word)) : State :=
  { mapped (frame 3 [] fun c => { c with binding := some { binding [] with partition := 0x1100 } }) with
    partitions := [0x1100]
    mem := ([(0x1100, 2 ^ 56), (0x1130, 0x32), (0x1138, 0x10000), (0x1140, 0x10000)] ++ l).foldl
      (fun (m : Memory) (p : Nat × Word) => m.write p.1 (splitBytes 8 p.2.toNat)) [] }

/-- That partition. -/
def partition2 : Partition := { rcb := 0x1100, hdom := 3, hbase := 0x10000, hsize := 0x10000 }

/-- No partition of the device, an RCB that cannot be read, and one of another kind. -/
theorem witness_HostEvents_none :
    (hosted []).partitionOf 3 = none ∧ (hosted []).partitionFault = none ∧
      (let s : State := { frame 3 [] with partitions := [0x1100] }
       s.partitionOf 2 = none ∧ s.partitionFault = some 0x1100) ∧
      (let s := hosted [(0x1100, 2 ^ 57)]
       s.partitionOf 2 = none ∧ s.partitionFault = some 0x1100) := by decide +kernel

/-- An offset beyond the window, one at its end, and a window whose pages are absent. -/
theorem witness_HostEvents_bounds :
    (hosted []).partitionOf 2 = some partition2 ∧ partition2.hsize ≤ (0x10000 : BitVec 56).toNat / 8 * 8 ∧
      (0xFFFF : BitVec 56).toNat / 8 * 8 < partition2.hsize ∧
      partition2.hbase + (0xFFFF : BitVec 56).toNat / 8 * 8 < 2 ^ 56 ∧ 0x1FFF8 % 8 = 0 ∧
      (hosted [(0x1138, 2 ^ 40)]).partitionOf 2 = some { partition2 with hbase := 2 ^ 40 } ∧
      (match ((hosted [(0x1138, 2 ^ 40)]).touchPartitions.translate 0 (BitVec.ofNat 56 (2 ^ 40))).2 with
       | .page _ => false
       | .absent _ _ => true) = true := by decide +kernel

/-- The last word of the window at its home, which no die has a copy of; and with poison. -/
theorem witness_HostEvents_memory :
    let t := ((hosted []).touchPartitions.translate 0 (BitVec.ofNat 56 0x1FFF8)).1
    ((hosted []).touchPartitions.translate 0 (BitVec.ofNat 56 0x1FFF8)).2 = .page 0x1FFF8 ∧
      t.behindFwd (t.spot partition2.hdom (.mem 0x1FFF8)) = false ∧ t.homeStuck none (t.spot partition2.hdom (.mem 0x1FFF8)) = none ∧
      poisonGet t.poison (t.live 0x1FFF8 / 8) = false ∧
      Cells.getD t.bkey (t.live 0x1FFF8 / 16) 0 = t.keyOf partition2.hdom (t.live 0x1FFF8) ∧
      (∀ x : BitVec 4, Cells.find (t.die x).copies (0x1FFF8 / 8) = none) ∧
      poisonGet ({ hosted [] with poison := poisonSet [] 0x3FFF true } : State).touchPartitions.poison (0x1FFF8 / 8) = true := by
  decide +kernel

/-- The last record of a ring of sixteen: delivered, to an absent LID, and with a reserved bit. -/
def requested (x : Nat) : State :=
  ((hosted []).homeWrite 3 0x103C0 (splitBytes 64 x)).updWindow 2 0 fun _ => { Window.reset with tail := 0, head := 15 }

theorem witness_HostEvents_request :
    (∀ x ∈ [((0x200001 : Nat), (1 : Nat)), (0, 2), (0x4001, 2), (0x800001, 3)],
        ((requested x.1).touchPartitions.hdmWords partition2 (64 * 15) 8).map
            (fun l => (requested x.1).requestStatus partition2 fun i => (l[i]?).getD 0) = some (BitVec.ofNat 8 x.2)) ∧
      ((requested 0).window 2 0).head ≠ ((requested 0).window 2 0).tail ∧ ((requested 0).window 2 0).stop = false ∧
      ((requested 0).window 2 0).records = 16 ∧ (requested 0).partitionOf 2 = some partition2 ∧
      ((requested 0).hdm partition2 (64 * 15)).2 = some 0x103C0 ∧ Window.reset.head = Window.reset.tail := by decide +kernel

/-- A device without a partition, and a ring whose page is absent. -/
theorem witness_HostEvents_requestFaults :
    let w : Window := { Window.reset with head := 15 }
    let s := (hosted [(0x1138, 2 ^ 40)]).updWindow 2 0 fun _ => w
    ((hosted []).updWindow 3 0 fun _ => w).partitionOf 3 = none ∧ w.head ≠ w.tail ∧ w.stop = false ∧
      s.partitionOf 2 = some { partition2 with hbase := 2 ^ 40 } ∧
      s.touchPartitions.hdmWords { partition2 with hbase := 2 ^ 40 } (64 * 15) 8 = none := by decide +kernel

/-- An aligned address that can be stored to, one that is not aligned, and one with no page. -/
theorem witness_HostEvents_rcb :
    (let k : RcbWindow := { image := List.replicate 16 7, addr := 0x1180, st := 0, root := 0 }
     let s := { hosted [] with rcbWindow := k }
     k.st ≠ 3 ∧ k.addr.toNat % 128 = 0 ∧ (s.systemStore k.addr.toNat k.image).isSome = true) ∧
    (0x1101 : BitVec 56).toNat % 128 ≠ 0 ∧ ((frame 3 []).systemStore 0x1180 [7]).isNone = true := by decide +kernel

/-- A divider written for a core with contracts, and a switch that closes again. -/
theorem witness_PowerEvents_divider :
    (∀ j, j < 16 → ((frame 3 []).core (coreOf 0 j)).binding = none) ∧
    (let s := bound [] fun c => c
     let b := binding [contract false]
     let t := s.updMe fun c => { c with binding := some b }
     (t.core (coreOf 0 1)).binding = some b ∧ t.infoOf b.region = some info ∧ b.contracts ≠ [] ∧
       info.dmax.toNat < (bits (0x20 : Word) 4 4).toNat + 1) := by decide +kernel

/-- Each state of gating, from an open cluster with nothing in it. -/
theorem witness_PowerEvents_gating :
    let s (f : Cluster → Cluster) : State := State.reset.updCluster 5 f
    ((s id).cluster 5).gstate = 0 ∧ ((s id).cluster 5).cgreq = false ∧ ((s id).cluster 5).waking = false ∧
    ((s fun k => { k with gstate := 1 }).cluster 5).gstate = 1 ∧
    (let k := (s fun k => { k with sgreq := true, gstate := 2 }).cluster 5
     k.gstate = 2 ∧ k.sgreq = true ∧ k.cgreq = false) ∧
    (let k := (s fun k => { k with cgreq := true, gstate := 3 }).cluster 5
     k.gstate = 3 ∧ k.cgreq = true ∧ k.sgreq = false) ∧
    (((s fun k => { k with waking := true, gstate := 2 }).cluster 5).waking = true ∧
      ((s fun k => { k with waking := true, gstate := 2 }).cluster 5).gstate ≠ 3) ∧
    ((s fun k => { k with waking := true, gstate := 3 }).cluster 5).gstate = 3 ∧
    (let t := State.reset.updDie 0 fun d =>
       { d with remap := (upFrom 0x50 16).foldl (fun m i => Cells.put m i { phys := BitVec.ofNat 14 i, present := false }) d.remap }
     t.mayGate 5 = true) ∧ State.reset.mayGate 5 = false := by decide +kernel

/-- Error counts on each side of the set point and at it, with and without an uncorrectable error or a stop; a core at its limit and one
below it. -/
theorem witness_PowerEvents_rails :
    let k := Cluster.reset
    let cur : Cluster → BitVec 32 → Nat := fun k gone =>
      if gone = 0 then k.scur.toNat else min (k.scur.toNat + 2 * gone.toNat) (max k.scur.toNat k.sceil.toNat)
    let stop : Cluster → BitVec 32 → Nat := fun k gone => if gone = 0 then k.noLower else 17
    (3 : BitVec 32).toNat < k.sset.toNat ∧ stop k 0 = 0 ∧ k.sfloor.toNat < cur k 0 ∧ 0 < stop k 1 ∧
      0 < stop { k with noLower := 1 } 0 ∧ cur { k with scur := k.sfloor } 0 ≤ k.sfloor.toNat ∧
      2 * k.sset.toNat < (9 : BitVec 32).toNat ∧ k.sset.toNat ≤ (4 : BitVec 32).toNat ∧ (8 : BitVec 32).toNat ≤ 2 * k.sset.toNat ∧
      (k.armed.getLsbD 1 = true ∧ k.nmask.getLsbD 1 = true ∧ k.tlim.toNat ≤ (95 : BitVec 8).toNat ∧
        ¬ k.tlim.toNat ≤ (94 : BitVec 8).toNat) := by decide +kernel

theorem witness_PowerEvents_check :
    let s := State.reset.updCore (State.reset.serviceCore (sectorOf 1)) fun c => { c with level := 3, thresh := 3 }
    let m := s.serviceCore (sectorOf 1)
    m ≠ 1 ∧ (s.core m).level.toNat < 7 ∧ (s.core m).stopped = false ∧ (0x8000 : Word).getLsbD 15 = true := by decide +kernel

theorem witness_PowerEvents_pacer :
    let s := State.reset.updDie 0 fun d => { d with pacer := { d.pacer with period := 5 } }
    (1 : Word).getLsbD 0 = true ∧ (s.die 0).pacer.period ≠ 0 ∧
      (0xFE000000000000 : BitVec 56).toNat / 2 ^ 48 ≠ 0xFF ∧ (0xFF000000000004 : BitVec 56).toNat % 8 ≠ 0 ∧
      (0xFF000004000000 : BitVec 56).toNat / 2 ^ 26 % 2 ^ 14 ≠ 0 := by
  decide +kernel

/-- A register of each class of the management space, and a core that its cluster's limit, as written, finds too hot, or not. -/
theorem witness_PowerEvents_registers :
    let at_ : Nat → Nat → Nat := fun cls off => 0xFF * 2 ^ 48 + cls * 2 ^ 44 + (3 : BitVec 4).toNat * 2 ^ 40 + off
    let k := (State.reset.updCluster 5 fun k => { k with temp := k.temp.set 1 80 }).cluster 5
    let armed (data : Word) := k.armed.getLsbD 1 || decide ((k.temp[1]!).toNat + (bits data 8 8).toNat ≤ (bits data 0 8).toNat)
    let tells (data : Word) := armed data && data.getLsbD (16 + 1) && decide ((bits data 0 8).toNat ≤ (k.temp[1]!).toNat)
    (∀ off ∈ [0x000, 0x008, 0x010, 0x018, 0x020, 0x028, 0x030, 0x038, 0x040, 0x048, 0x050],
      (BitVec.ofNat 56 (at_ 0 (5 * 2 ^ 16 + off))).toNat = at_ 0 ((5 : BitVec 10).toNat * 2 ^ 16 + off)) ∧
    (∀ p ∈ [(2, 0x000), (2, 0x008), (2, 0x010), (2, 0x018), (2, 0x020), (3, 0x000), (3, 0x040 + 8 * 7), (4, 0x000), (4, 0x008),
      (4, 0x010), (4, 0x018)], (BitVec.ofNat 56 (at_ p.1 p.2)).toNat = at_ p.1 p.2) ∧
    tells 0x0002_0550 = true ∧ tells 0x0002_0551 = false := by decide +kernel

/-- An 8-bit frame of 64 by 128 with its rows at 0x40000 and 0x50000, its stream record at 0x3000, sequence number 7 and a limit
of 100. -/
def job (pitch : Word) : EncJob :=
  { by_ := issuer, succ := next, off := 0x100, words := [0x40000, 0x50000, 0x100040, pitch, 0x2000, 0x3000, 0x6400000007, 0] }

/-- The stream record names a ring of 4 KiB at 0x10000. -/
def streaming (s : State) : State :=
  { s with mem := (Memory.write [] 0x3000 (splitBytes 8 0x10000)).write 0x3008 (splitBytes 8 0x1000) }

theorem witness_EncoderEvents_accept :
    let q : RemCmd := { id := 9, by_ := issuer, succ := next, op := .enc (job 64).off, phase := .issued, tag := 9, passed := false }
    let s := frame 3 [] fun c => { c with remQ := [q] }
    (s.core 1).remQ = q :: [] ∧ q.phase = .issued ∧ (∀ x ∈ ([] : List RemCmd), x.id ≠ q.id) ∧ HoldsLid s 1 q.by_.lid ∧ (s.die (dieOf 1)).encQ.length < 32 ∧
      32 ≤ ((s.updDie 0 fun d => { d with encQ := List.replicate 32 (job 64) }).die (dieOf 1)).encQ.length := by
  dsimp only [HoldsLid]; decide +kernel

/-- A job that starts, one whose pitch is not a multiple of 64, one whose records cannot be read, and one whose stream record must wait
at its home. -/
theorem witness_EncoderEvents_start :
    let j : EncJob := { job 64 with words := [] }
    let s (pitch : Word) : State := streaming (mapped (frame 3 [] fun c => open_ (words 0x100 (job pitch).words c)))
    let d (pitch : Word) : State := ((s pitch).updDie 0 fun d => { d with encQ := [j] }).updDie 0 fun d => { d with encQ := [] }
    (((s 64).updDie 0 fun d => { d with encQ := [j] }).die 0).encQ = [j] ∧ ((s 64).die 0).encRun = none ∧
      gives ((d 64).readJob j) (fun x => encOk x.2.1 fun i => (x.2.2[i]?).getD 0) = true ∧
      gives ((d 65).readJob j) (fun x => !encOk x.2.1 fun i => (x.2.2[i]?).getD 0) = true ∧
      (match (frame 3 []).readJob j with
       | .ok _ => false
       | .error e => !e.2.wait) = true ∧
      (match (cutOff (words 0x100 ((job 64).words.set 5 0x1000))).readJob j with
       | .ok _ => false
       | .error e => e.2.wait) = true := by decide +kernel

/-- That job in hand. -/
def coding (ring : Word) : EncRun :=
  { job := job 64, stream := [0x10000, ring, 0, 0, 0, 0, 0, 0x20000], row := 0, waited := 50, moored := false, asked := false, ready := some 7,
    poisoned := false, frame := [], complete := false }

/-- Its row with the right number and with another, and a wait at its limit and past it. -/
theorem witness_EncoderEvents_rows :
    let r := coding 0x1000
    let s (r : EncRun) : State := (mapped (frame 3 [] open_)).updDie 0 fun d => { d with encRun := some r }
    (∀ x ∈ [r, { r with poisoned := true }, { r with ready := none, moored := true }, { r with ready := none, asked := true }], ((s x).die 0).encRun = some x) ∧ r.complete = false ∧ r.ready = some 7 ∧ r.poisoned = false ∧ r.row = 0 ∧ 1 < r.job.rows ∧
      bits (7 : Word) 0 32 = (bits (r.job.word 6) 0 32 : BitVec 32) ∧ bits (8 : Word) 0 32 ≠ (bits (r.job.word 6) 0 32 : BitVec 32) ∧
      (bits (r.job.word 6) 32 32 : BitVec 32) ≠ 0 ∧ ¬ (r.moored = true ∨ r.asked = true) ∧
      (bits (r.job.word 6) 32 32 : BitVec 32).toNat < r.waited.toNat + (51 : BitVec 32).toNat ∧
      ¬ (bits (r.job.word 6) 32 32 : BitVec 32).toNat < r.waited.toNat + (50 : BitVec 32).toNat := by decide +kernel

theorem wrapAddr_small {a : Nat} (h : a < 2 ^ 36) : wrapAddr (a : Int) = a := by
  simp only [wrapAddr, BitVec.ofInt_natCast, BitVec.toNat_ofNat]
  exact Nat.mod_eq_of_lt (by omega)

theorem reaches_served {s : State} (h : Reaches s) (u : EngUser) (p : Acc) (hp : p.loc = .mem p.pa) : s.engServed u p = .ok () := by
  obtain ⟨-, -, -, -, -, h1, h2, h3⟩ := h
  have hw : s.plainWait u.core u.by_.dom p.loc u.by_.region = none := by
    simp [State.plainWait, State.served, State.behindFwd, State.fwdOwner, State.plainStuck, State.homeStuck, State.allMoorings, h1, h2, h3, hp]
  rw [State.engServed, hw]

theorem reaches_readAll (u : EngUser) (hu : u.core = 1) (l : List (Nat × Nat)) : ∀ s, Reaches s → (∀ p ∈ l, p.1 < 2 ^ 36) →
    ∃ t bs, s.engReadAll u .global l = .ok (t, bs) ∧ Reaches t := by
  induction l with
  | nil => exact fun s h _ => ⟨s, [], rfl, h⟩
  | cons p r ih =>
    intro s h hp
    have ha : p.1 < 2 ^ 36 := hp p (.head _)
    have hc := reaches_global h ha u.by_.dom (u.by_.level == 7) true false u.by_.region
    obtain ⟨hv, hh⟩ := reaches_homed h ha
    have hq := reaches_clean h p.1
    rw [h.1] at hh hq
    obtain ⟨t, bs, e, ht⟩ := ih (s.touchLine u.by_.dom p.1) (reaches_touch h _ _) fun q hq => hp q (.tail _ hq)
    refine ⟨t, ?bs, ?eq, ht⟩
    case' eq => rw [State.engReadAll]
    case' eq => simp only [State.engCheck, hu, Bool.not_false, hc, liftEng, bind, Except.bind, reaches_served h u { loc := .mem p.1, va := p.1, pa := p.1 } rfl, State.accPoisoned, hq, State.rawRead,
      State.dieRead, hv, hh, if_true, Bool.false_eq_true, if_false, e]
    case' eq => rfl

theorem reaches_read (u : EngUser) (hu : u.core = 1) (a : Nat) {s : State} (h : Reaches s) (ha : a + 8 ≤ 2 ^ 36) :
    ∃ t bs, s.engRead u .global a 8 = .ok (t, bs) ∧ Reaches t := by
  rw [State.engRead, wrapAddr_small (by omega)]
  refine reaches_readAll u hu _ s h ?_
  intro p hp
  unfold engPieces at hp
  split at hp
  · cases List.mem_singleton.mp hp; show a < 2 ^ 36; omega
  · simp only [upFrom, List.map_cons, List.map_nil, List.mem_cons, List.not_mem_nil, or_false] at hp
    rcases hp with rfl | rfl | rfl | rfl | rfl | rfl | rfl | rfl <;> (dsimp only; omega)

theorem reaches_encWords (u : EngUser) (hu : u.core = 1) (n : Nat) : ∀ (s : State) (a : Nat), Reaches s → a + 8 * n ≤ 2 ^ 36 →
    ∃ t l, s.encWords u a n = .ok (t, l) ∧ Reaches t := by
  induction n with
  | zero => exact fun s a h _ => ⟨s, [], rfl, h⟩
  | succ n ih =>
    intro s a h ha
    obtain ⟨t, bs, e, ht⟩ := reaches_read u hu a h (by omega)
    obtain ⟨v, l, e', hv⟩ := ih t (a + 8) ht (by omega)
    exact ⟨v, _, by simp only [State.encWords, e, e', bind, Except.bind]; rfl, hv⟩

theorem reaches_readLines (j : EncJob) (hu : j.by_.core = 1) (base : Nat) (n : Nat) : ∀ (s : State) (y : Nat), Reaches s →
    base + (y + n) * j.pitch + 8 * (j.width * j.sample / 8) ≤ 2 ^ 36 → ∃ t l, s.readLines j base y n = .ok (t, l) ∧ Reaches t := by
  induction n with
  | zero => exact fun s y h _ => ⟨s, [], rfl, h⟩
  | succ n ih =>
    intro s y h hy
    have hm : y * j.pitch ≤ (y + (n + 1)) * j.pitch := Nat.mul_le_mul_right _ (by omega)
    obtain ⟨t, l, e, ht⟩ := reaches_encWords j.user hu (j.width * j.sample / 8) s (base + y * j.pitch) h (by omega)
    obtain ⟨v, k, e', hv⟩ := ih t (y + 1) ht (by rw [show y + 1 + n = y + (n + 1) by omega]; exact hy)
    exact ⟨v, _, by simp only [State.readLines, e, e', bind, Except.bind]; rfl, hv⟩

theorem die_updDie (s : State) (f : Die → Die) : (s.updDie 0 f).die 0 = f (s.die 0) := by
  simp [State.updDie, State.die]

theorem reaches_dies {s : State} (h : Reaches s) : Reaches (s.acquireDie 0) ∧ Reaches (s.releaseDie 0) := by
  obtain ⟨h1, h2, ⟨h3, h4⟩, h5, h6⟩ := h
  simp only [State.acquireDie, State.releaseDie, h4, List.foldl_nil]
  exact ⟨⟨h1, h2, ⟨by rw [die_updDie]; exact h3, by rw [die_updDie]⟩, h5, h6⟩,
    ⟨h1, h2, ⟨by rw [die_updDie]; exact h3, by rw [die_updDie]; exact List.map_eq_nil_iff.mpr h4⟩, h5, h6⟩⟩

theorem upFrom_lt {i n : Nat} : ∀ {lo : Nat}, i ∈ upFrom lo n → i < lo + n := by
  induction n with
  | zero => exact fun h => by cases h
  | succ n ih =>
    intro lo h
    rcases List.mem_cons.mp h with rfl | h
    · omega
    · have := ih h; omega

/-- Words there can be stored, as a check without a store finds. -/
theorem reaches_encProbe (u : EngUser) (hu : u.core = 1) (n : Nat) : ∀ (s : State) (a : Nat), Reaches s → a + 8 * n ≤ 2 ^ 36 →
    s.encProbe u a n = .ok s := by
  induction n with
  | zero => exact fun s a _ _ => rfl
  | succ n ih =>
    intro s a h ha
    have hc := reaches_global h (show a < 2 ^ 36 by omega) u.by_.dom (u.by_.level == 7) false true u.by_.region
    rw [State.encProbe]
    simp only [State.engCheck, hu, Bool.not_true, hc, liftEng, bind, Except.bind]
    exact ih s (a + 8) h (by omega)

theorem reaches_writeAll (u : EngUser) (hu : u.core = 1) (hi : u.by_.inst = none) (l : List (Nat × List Byte)) :
    ∀ s, Reaches s → (∀ p ∈ l, p.1 < 2 ^ 36) → ∃ t, s.engWriteAll u .global l = .ok t ∧ Reaches t := by
  induction l with
  | nil => exact fun s h _ => ⟨s, rfl, h⟩
  | cons p r ih =>
    intro s h hp
    have ha : p.1 < 2 ^ 36 := hp p (.head _)
    have hc := reaches_global h ha u.by_.dom (u.by_.level == 7) false true u.by_.region
    have hw := reaches_write h ha u.by_.dom p.2
    rw [h.1] at hw
    obtain ⟨t, e, ht⟩ := ih _ hw fun q hq => hp q (.tail _ hq)
    refine ⟨t, ?_, ht⟩
    rw [State.engWriteAll]
    simp only [State.engCheck, hu, Bool.not_true, hc, liftEng, bind, Except.bind, hi, State.squashedInst, State.tentativeInst,
      reaches_served h u { loc := .mem p.1, va := p.1, pa := p.1 } rfl,      Bool.false_eq_true, false_and, if_false, State.rawWrite, e]

theorem reaches_engWrite (u : EngUser) (hu : u.core = 1) (hi : u.by_.inst = none) (a : Nat) (bs : List Byte) (hl : 0 < bs.length)
    {s : State} (h : Reaches s) (ha : a + bs.length ≤ 2 ^ 36) : ∃ t, s.engWrite u .global a bs = .ok t ∧ Reaches t := by
  rw [State.engWrite, wrapAddr_small (by omega)]
  refine reaches_writeAll u hu hi _ s h ?_
  intro p hp
  unfold engParts at hp
  split at hp
  · cases List.mem_singleton.mp hp; show a < 2 ^ 36; omega
  · obtain ⟨i, hi, rfl⟩ := List.mem_map.mp hp
    have := upFrom_lt hi
    dsimp only; omega

theorem reaches_encStore (u : EngUser) (hu : u.core = 1) (hi : u.by_.inst = none) (l : List Word) : ∀ (s : State) (a : Nat),
    Reaches s → a + 8 * l.length ≤ 2 ^ 36 → ∃ t, s.encStore u a l = .ok t ∧ Reaches t := by
  induction l with
  | nil => exact fun s a h _ => ⟨s, rfl, h⟩
  | cons w r ih =>
    intro s a h ha
    simp only [List.length_cons] at ha
    obtain ⟨t, e, ht⟩ := reaches_engWrite u hu hi a (splitBytes 8 w.toNat) (by rw [splitBytes_length]; omega) h
      (by rw [splitBytes_length]; omega)
    obtain ⟨v, e', hv⟩ := ih t (a + 8) ht (by omega)
    exact ⟨v, by simp only [State.encStore, e, e', bind, Except.bind], hv⟩

theorem reaches_ringWrite (u : EngUser) (hu : u.core = 1) (hi : u.by_.inst = none) (base size : Nat) (hs : 0 < size)
    (hb : base + size + 8 ≤ 2 ^ 36) (l : List Word) : ∀ (s : State) (p : Nat), Reaches s →
    ∃ t, s.ringWrite u base size p l = .ok t ∧ Reaches t := by
  induction l with
  | nil => exact fun s p h => ⟨s, rfl, h⟩
  | cons w r ih =>
    intro s p h
    have hm := Nat.mod_lt p hs
    obtain ⟨t, e, ht⟩ := reaches_engWrite u hu hi (base + p % size) (splitBytes 8 w.toNat) (by rw [splitBytes_length]; omega) h
      (by rw [splitBytes_length]; omega)
    obtain ⟨v, e', hv⟩ := ih t (p + 8) ht
    exact ⟨v, by simp only [State.ringWrite, e, e', bind, Except.bind], hv⟩

/-- The whole first row of that job is read. -/
theorem witness_EncoderEvents_intake :
    let r := coding 0x1000
    let s := (mapped (frame 3 [] open_)).updDie 0 fun d => { d with encRun := some r }
    ∃ t ls v cs,
      (s.acquireDie 0).readLines r.job (bits (r.job.word 0) 0 56).toNat 0 (r.job.lines 0 - 1) = .ok (t, ls) ∧
      t.readLines r.job (bits (r.job.word 1) 0 56).toNat 0 (r.job.lines 0 / 2 - 1) = .ok (v, cs) := by
  have h : Reaches ((mapped (frame 3 [] open_)).updDie 0 fun d => { d with encRun := some (coding 0x1000) }) := by
    dsimp only [Reaches]; decide +kernel
  obtain ⟨t, ls, e, ht⟩ := reaches_readLines (coding 0x1000).job rfl (bits ((coding 0x1000).job.word 0) 0 56).toNat
    ((coding 0x1000).job.lines 0 - 1) _ 0 (reaches_dies h).1 (by decide +kernel)
  obtain ⟨v, cs, e', -⟩ := reaches_readLines (coding 0x1000).job rfl (bits ((coding 0x1000).job.word 1) 0 56).toNat
    ((coding 0x1000).job.lines 0 / 2 - 1) _ 0 ht (by decide +kernel)
  exact ⟨t, ls, v, cs, e, e'⟩

/-- The same job with its frame complete. -/
def coded (ring : Word) : State :=
  (mapped (frame 3 [] open_)).updDie 0 fun d => { d with encRun := some { coding ring with row := 2, ready := none, complete := true } }

/-- The same run. -/
def complete (ring : Word) : EncRun := { coding ring with row := 2, ready := none, complete := true }

/-- Constant quality at qindex 8 without a budget. -/
theorem witness_EncoderEvents_quality :
    let r := { complete 0x1000 with stream := [0x10000, 0x1000, 0, 0, 34, 0, 0, 0x20000] }
    bits (r.word 4) 0 2 = (2 : BitVec 2) ∧ r.job.fbudget = 0 := by decide +kernel

/-- A ring of a line has no space for any unit; and one of 4 KiB, with rptr 0, has space for a unit of up to 4016 bytes, whatever
the encoder's bytes are. -/
theorem witness_EncoderEvents_unit (ring : Word) (h : Reaches (coded ring)) : ∃ t p,
    ((coded ring).acquireDie 0).encWords (job 64).user ((job 64).streamAt.toNat + 24) 1 = .ok (t, p) ∧
    t.readRefs (complete ring) true = .ok (t, []) ∧ Reaches t := by
  obtain ⟨t, p, e, ht⟩ := reaches_encWords (job 64).user rfl 1 _ ((job 64).streamAt.toNat + 24) (reaches_dies h).1
    (by decide +kernel)
  exact ⟨t, p, e, rfl, ht⟩

theorem reaches_coded : Reaches (coded 0x40) ∧ Reaches (coded 0x1000) := by dsimp only [Reaches]; decide +kernel

theorem reaches_markInit {s : State} (h : Reaches s) : ∃ t, s.markInit (complete 0x1000) = .ok t ∧ Reaches t := by
  obtain ⟨t, e, ht⟩ := reaches_engWrite (job 64).user rfl rfl ((job 64).streamAt.toNat + 52) (splitBytes 4 1)
    (by rw [splitBytes_length]; omega) h (by rw [splitBytes_length]; decide +kernel)
  refine ⟨t, ?_, ht⟩
  rw [State.markInit, if_neg (by decide +kernel)]
  exact e

theorem reaches_cancel {s : State} (h : Reaches s) : Reaches (s.cancelEnc 0) := by
  obtain ⟨h1, h2, h3, h4, h5, h6, h7, h8⟩ := h
  simp only [State.cancelEnc, State.dropWeir, h6, h7, List.filter_nil, List.foldl_nil]
  exact ⟨h1, h2, h3, h4, h5, rfl, rfl, h8⟩

/-- The stream is marked as begun when its first job ends without a unit, or is dropped. -/
theorem witness_EncoderEvents_init (s : State) (hs : Reaches s) (l : List (BitVec 56)) :
    (∃ y, (s.acquireDie 0).markInit (coding 0x1000) = .ok y) ∧ (∃ y, (s.cancelEnc 0).markInit (coding 0x1000) = .ok y) ∧
      ∃ y, ({ s with encKey := l } : State).markInit (complete 0x40) = .ok y :=
  ⟨(reaches_markInit (reaches_dies hs).1).imp fun _ h => h.1, (reaches_markInit (reaches_cancel hs)).imp fun _ h => h.1,
    (reaches_markInit (s := { s with encKey := l }) hs).imp fun _ h => h.1⟩

theorem witness_EncoderEvents_dropped (inputs : List Word) :
    ((coded 0x40).die 0).encRun = some (complete 0x40) ∧
    (bits ((complete 0x40).word 1) 0 32 : BitVec 32).toNat - 0 - 64 < ((complete 0x40).unit inputs true).size := by
  refine ⟨by decide +kernel, ?_⟩
  have h : (bits ((complete 0x40).word 1) 0 32 : BitVec 32).toNat = 64 := by decide +kernel
  rw [h, Unit_.size]
  omega

theorem obuBytes_length (k : Nat) : ∀ l, (obuBytes k l).length ≤ k := by
  induction k with
  | zero => exact fun l => by simp [obuBytes]
  | succ k ih =>
    intro l
    cases l with
    | nil => simp [obuBytes]
    | cons b r => simpa [obuBytes] using ih _

theorem leb128_length (k : Nat) : ∀ n, (leb128 k n).length ≤ k := by
  induction k with
  | zero => exact fun n => by simp [leb128]
  | succ k ih => exact fun n => by rw [leb128]; split <;> simp [ih]

theorem obu_length (type : Nat) (l : List Byte) : (obu type l).length ≤ 9 + l.length := by
  have := leb128_length 8 l.length
  simp only [obu, List.cons_append, List.length_cons, List.length_append]
  omega

/-- A frame of one tile that has at most one byte. -/
theorem framePayload_length (f : Nat → Nat) (data : Nat → Byte × List Byte) (key : Bool) (q : Byte) (w h : Nat) :
    (framePayload f data key q w h 0 0 (some 1)).length ≤ 129 := by
  have := obuBytes_length 128 (frameHeader f key q w h 0 0
    (Nat.min 4 (Nat.max (f 82 % 4 + 1) (Nat.log2 (List.foldl (fun m t => Nat.max m (t.length - 1)) 0
      ((upFrom 0 (2 ^ (0 + 0))).map fun i => (data i).1 :: (data i).2.take (1 - 1))) / 8 + 1))))
  simp only [framePayload, List.length_append]
  simp [upFrom] at this ⊢
  omega

theorem witness_EncoderEvents_fits (inputs : List Word) :
    ((complete 0x1000).unit inputs true).size ≤ (bits ((complete 0x1000).word 1) 0 32 : BitVec 32).toNat - 0 - 64 := by
  have h1 : (bits ((complete 0x1000).word 1) 0 32 : BitVec 32).toNat = 4096 := by decide +kernel
  have h2 : ((complete 0x1000).unit inputs true).len =
      ((complete 0x1000).code inputs true ((complete 0x1000).base inputs) false).length := by
    have h : (complete 0x1000).job.fbudget = 0 := by decide +kernel
    simp only [EncRun.unit, h, true_or, if_true, Unit_.len]
  have hr : (complete 0x1000).room = some 0 := by
    have h : (bits ((complete 0x1000).word 4) 0 2 : BitVec 2).toNat = 0 ∧ (bits ((complete 0x1000).word 4) 10 32 : BitVec 32).toNat = 0 ∧
      (bits ((complete 0x1000).word 5) 0 32 : BitVec 32).toNat = 0 := by decide +kernel
    simp only [EncRun.room, h.1, h.2.1, h.2.2, Nat.zero_mul, Nat.zero_div, Nat.add_zero, Nat.zero_sub]
  have h3 : ∀ q, ((complete 0x1000).code inputs true q false).length ≤ 220 := by
    intro q
    have ht : (bits ((complete 0x1000).job.word 2) 27 3 : BitVec 3).toNat = 0 ∧ (bits ((complete 0x1000).job.word 2) 30 3 : BitVec 3).toNat = 0 := by
      decide +kernel
    have ho : ((complete 0x1000).obus inputs true q false (some 1)).length ≤ 220 := by
      simp only [EncRun.obus, temporalUnit, List.length_append, ht.1, ht.2, if_true]
      have a := obu_length 2 []
      have b := fun l => obu_length 1 l
      have c := fun l => obu_length 6 l
      refine Nat.le_trans (Nat.add_le_add (Nat.add_le_add a (b _)) (c _)) ?_
      have e := framePayload_length (Config.encField inputs q false) (Config.encTile inputs q false) true q
        (complete 0x1000).job.width (complete 0x1000).job.height
      have g : (seqHeader (complete 0x1000).job.width (complete 0x1000).job.height
        (seqLevel (complete 0x1000).job.width (complete 0x1000).job.height (bits ((complete 0x1000).word 6) 0 16).toNat
          (bits ((complete 0x1000).word 6) 16 16).toNat) (decide ((complete 0x1000).job.sample = 2))).length ≤ 64 := obuBytes_length _ _
      simp only [List.length_nil] at *
      omega
    simp only [EncRun.code, hr]
    split
    · omega
    · rw [ht.1, ht.2]
      simpa using ho
  have := h3 ((complete 0x1000).base inputs)
  rw [h1, Unit_.size, h2]
  omega

theorem witness_EncoderEvents_stored (s : State) (hs : Reaches s) (unit inputs : List Word) (wptr : Nat) : ∃ o z,
    s.ringWrite (job 64).user (bits ((complete 0x1000).word 0) 0 56).toNat
      (bits ((complete 0x1000).word 1) 0 32 : BitVec 32).toNat (complete 0x1000).wptr unit = .ok o ∧
    o.storeStream 0 (complete 0x1000) inputs wptr = .ok z := by
  have hu : (job 64).user.core = 1 := rfl
  have hi : (job 64).user.by_.inst = none := rfl
  obtain ⟨o, e, ho⟩ := reaches_ringWrite (job 64).user hu hi (bits ((complete 0x1000).word 0) 0 56).toNat
    (bits ((complete 0x1000).word 1) 0 32 : BitVec 32).toNat (by decide +kernel) (by decide +kernel) unit s (complete 0x1000).wptr hs
  have hn : ∀ (f : Nat → Word) (n : Nat), ((upFrom 0 n).map f).length = n := fun f n => by rw [List.length_map, upFrom_length]
  have hf : (job 64).frameBytes = 12288 := by decide +kernel
  have ha : (job 64).streamAt.toNat = 0x3000 := by decide +kernel
  have hw : (bits ((complete 0x1000).word 7) 0 56).toNat = 0x20000 := by decide +kernel
  have hr := Nat.mod_lt (Config.freeWord o.free 0).toNat (show 0 < 4 by decide)
  obtain ⟨s1, e1, h1⟩ := reaches_encStore (job 64).user hu hi ((upFrom 0 ((job 64).frameBytes / 8)).map fun i => Config.encReference inputs i) o
    ((bits ((complete 0x1000).word 7) 0 56).toNat + (Config.freeWord o.free 0).toNat % 4 * (job 64).frameBytes) ho
    (by rw [hn, hf, hw]; omega)
  obtain ⟨s2, e2, h2⟩ := reaches_encStore (job 64).user hu hi ((upFrom 0 8).map fun i => Config.encState inputs i) s1
    ((job 64).streamAt.toNat + 64) h1 (by rw [hn, ha]; omega)
  obtain ⟨s3, e3, h3⟩ := reaches_markInit h2
  obtain ⟨s4, e4, -⟩ := reaches_encStore (job 64).user hu hi [BitVec.ofNat 64 wptr] (s3.releaseDie 0) ((job 64).streamAt.toNat + 16)
    (reaches_dies h3).2 (by rw [ha, List.length_singleton]; omega)
  have p1 := reaches_encProbe (job 64).user hu ((job 64).frameBytes / 8) o
    ((bits ((complete 0x1000).word 7) 0 56).toNat + (Config.freeWord o.free 0).toNat % 4 * (job 64).frameBytes) ho
    (by rw [hf, hw]; omega)
  have p2 := reaches_encProbe (job 64).user hu 16 o (job 64).streamAt.toNat ho (by rw [ha]; omega)
  refine ⟨o, s4.releaseDie 0, e, ?_⟩
  have hj : (complete 0x1000).job = job 64 := rfl
  simp only [State.storeStream, hj, p1, p2, e1, e2, e3, e4, bind, Except.bind]

/-! ## Ill-formed terms -/

/-- Each check of a field refuses a term, beside one that it admits. -/
theorem test_wellFormed_fields :
    Instr.wellFormed (.bext 1 2 40 23) = true ∧ Instr.wellFormed (.bext 1 2 40 24) = false ∧
    Instr.wellFormed (.ldq 1 2 0 .tcm .rfempty .core) = true ∧ Instr.wellFormed (.ldq 1 2 0 .tcm .wefill .core) = false ∧
    Instr.wellFormed (.feFill 1 2 .tcm .wfill .core) = true ∧ Instr.wellFormed (.feFill 1 2 .tcm .wempty .core) = false ∧
    Instr.wellFormed (.vaddFp 1 2 3 false .f16) = true ∧ Instr.wellFormed (.vaddFp 1 2 3 false .e4m3) = false ∧
    Instr.wellFormed (.vcmp 1 2 3 .un .f32) = true ∧ Instr.wellFormed (.vcmp 1 2 3 .un .i32) = false ∧
    Instr.wellFormed (.vins 1 2 7 .i16) = true ∧ Instr.wellFormed (.vins 1 2 8 .i16) = false ∧
    Instr.wellFormed (.vext 1 2 31 .e2m1) = true ∧ Instr.wellFormed (.vbcastLane 1 2 4 .f32) = false := by decide

theorem test_wellFormed_more :
    Instr.wellFormed (.vcvt 1 2 1 .bf16 .f32 true) = true ∧ Instr.wellFormed (.vcvt 1 2 2 .bf16 .f32 true) = false ∧
    Instr.wellFormed (.vdot 1 2 3 .i8) = true ∧ Instr.wellFormed (.vdot 1 2 3 .e2m1) = true ∧ Instr.wellFormed (.vdot 1 2 3 .f32) = false ∧
    Instr.wellFormed (.sget 1 0x14) = true ∧ Instr.wellFormed (.sget 1 0x15) = false ∧ Instr.wellFormed (.sset 1 0x40) = false ∧
    Instr.wellFormed (.pginv 1 2 2) = true ∧ Instr.wellFormed (.pginv 1 2 3) = false ∧
    Instr.wellFormed (.compactMov 1 0) = true ∧ Instr.wellFormed (.compactMov 0 1) = false ∧
    Instr.wellFormed (.arrivalAccept 1) = false := by decide

/-! ## One step, with results worked out from the rules -/

/-- The instruction gives a next state with property p. -/
def after (i : Instr) (s : State) (p : State → Bool) : Bool :=
  match exec i s with
  | .next t => p t
  | _ => false

/-- R186: sums wrap, products have 128 bits, and s0 discards. -/
theorem test_arithmetic :
    let s := frame 3 [(1, -1), (2, 1), (3, 0x8000000000000000)]
    after (.add 4 1 2) s (fun t => t.rs 4 == 0 && t.pc == 0x1004) = true ∧
    after (.add 0 1 1) s (fun t => t.rs 0 == 0) = true ∧
    after (.mulh 4 1 3) s (fun t => t.rs 4 == 0) = true ∧
    after (.mulhu 4 1 1) s (fun t => t.rs 4 == 0xFFFFFFFFFFFFFFFE) = true ∧
    after (.min 4 1 2) s (fun t => t.rs 4 == 0xFFFFFFFFFFFFFFFF) = true ∧
    after (.minu 4 1 2) s (fun t => t.rs 4 == 1) = true := by decide +kernel

/-- R187: -7 by 2 is -3 and leaves -1; by 0 all ones and the dividend; the least number by -1 is itself. -/
theorem test_division :
    let s := frame 3 [(1, -7), (2, 2), (3, 0x8000000000000000), (4, -1)]
    after (.div 5 1 2) s (fun t => t.rs 5 == -3) = true ∧ after (.rem 5 1 2) s (fun t => t.rs 5 == -1) = true ∧
    after (.div 5 1 0) s (fun t => t.rs 5 == -1) = true ∧ after (.remu 5 1 0) s (fun t => t.rs 5 == -7) = true ∧
    after (.div 5 3 4) s (fun t => t.rs 5 == 0x8000000000000000) = true := by decide +kernel

/-- R190, R194, R200: an arithmetic shift by a register's low six bits, a field put in place, a slice replaced. -/
theorem test_bits :
    let s := frame 3 [(1, 0xF000000000000000), (2, 68), (3, 0x1122334455667788), (4, 0xAB)]
    after (.sar 5 1 2) s (fun t => t.rs 5 == 0xFF00000000000000) = true ∧
    after (.rot 5 1 2) s (fun t => t.rs 5 == 0xF) = true ∧
    after (.bins 3 4 8 7) s (fun t => t.rs 3 == 0x112233445566AB88) = true ∧
    after (.movh 3 2 0xBEEF) s (fun t => t.rs 3 == 0x1122BEEF55667788) = true ∧
    after (.pop 5 4) s (fun t => t.rs 5 == 5) = true := by decide +kernel

/-- R203, R204: a branch counts halfwords from its own address, and `call` leaves the next address in b3. -/
theorem test_transfer :
    let s := frame 3 [(1, 1)]
    after (.bCond 1 0 .ne (-4)) s (fun t => t.pc == 0xFF8) = true ∧
    after (.bCond 1 0 .eq (-4)) s (fun t => t.pc == 0x1004) = true ∧
    after (.call 8) s (fun t => t.pc == 0x1010 && t.rb 3 == 0x1004) = true ∧
    after (.getb 2 1) s (fun t => t.rs 2 == 0) = true := by decide +kernel

/-- R216, R219: bytes in little-endian order, sign extension, and a misaligned access, which traps to k.vector entry 2 with the
address in k.addr. -/
theorem test_loads :
    let s := frame 3 [(1, 0x100)] (words 0x100 [0x80FF])
    after (.ldT 2 1 .i8 1) s (fun t => t.rs 2 == 0xFFFFFFFFFFFFFF80) = true ∧
    after (.ldT 2 1 .n16 0) s (fun t => t.rs 2 == 0x80FF) = true ∧
    after (.ldT 2 1 .b8 4) s (fun t => causeCode t.me.cause == 0x02 && t.me.addr == 0x104 && t.me.level == 7 &&
      t.me.epc == 0x1000) = true := by decide +kernel

/-- R312: `claim` below the level of another frame's ceiling raises the threshold, and `unclaim` lowers it. -/
theorem test_claim :
    let s := frame 3 [] fun c => { c with ceil := 5 }
    after (.claim 0) s (fun t => t.me.thresh == 5 && t.me.here.claims.length == 1) = true ∧
    after (.claim 1) s (fun t => causeCode t.me.cause == 0x05) = true := by decide +kernel

/-- R240: lanes of 8 bits wrap on their own, and saturate as signed bytes. -/
theorem test_vectors :
    let s := (frame 3 []).updMe fun c => c.updHere fun b =>
      { b with v := (b.v.set 1 0x7F01FF).set 2 0x010102 }
    after (.vaddInt 3 1 2 0) s (fun t => t.rv 3 == 0x800201) = true ∧
    after (.vadds 3 1 2 4) s (fun t => t.rv 3 == 0x7F0201) = true := by decide +kernel

/-- R170, R351: `trap` is not privileged, and `tret` at level 3 is: its own bits stand in k.addr. -/
theorem test_traps :
    let s := frame 3 []
    after (.trap 0x1FF) s (fun t => causeCode t.me.cause == 0x0F && t.me.addr == 0x1FF && t.me.epc == 0x1004) = true ∧
    after .icinv s (fun t => causeCode t.me.cause == 0x03 && t.me.addr == 0x1FE00000D) = true := by decide +kernel

/-! ## Hypotheses about tentative instances -/

/-- Instance 2 of launch 1 while the launch's shape is open. -/
def trying (c : Core) : Core := c.updHere fun b => { b with inst := some { instance2 with tentative := true } }

/-- Core 1 runs it at level 3. -/
def tentatively (regs : List (SReg × Word)) (f : Core → Core := id) : State := mapped (frame 3 regs fun c => trying (f c))

/-- The checks of R216 that touch nothing pass. -/
def passes (r : Res Unit) : Bool := gives r fun _ => true

/-- A place of the TCM outside the frame, of the scratchpad and of global space passes the checks that touch nothing. -/
theorem witness_Parks_accesses :
    let s := tentatively [(1, 0x100)] paged
    s.tentative = true ∧ s.me.level.toNat < 7 ∧
      ((s.rs 1).toNat % 16 = 0 ∧ s.me.tcmAllowed (s.rs 1).toNat true = true ∧ (s.rs 1).toNat < s.me.here.fbase.toNat) ∧
      passes (s.checkEa .tcm 0x100 16 false true) = true ∧ passes (s.checkEa .scratch 0x20 16 false true) = true ∧
      passes (s.checkEa .scratch 0x20 8 true true) = true ∧ passes (s.checkEa .global 0x100 8 true true) = true ∧
      passes (s.checkEa .global 0x100 8 false true) = true ∧ passes (s.checkEa .global 0x100 8 true false) = true := by
  decide +kernel

/-- The same spans for a hypervector; the end of the frame for one that the instance stores there. -/
theorem witness_Parks_hypervectors :
    let s := tentatively [(1, 0x200), (2, 0), (3, 0xA200)] fun c => claiming (paged c)
    s.tentative = true ∧ s.me.hprog.getLsbD 0 = false ∧ passes (s.checkSpan .scratch (s.rs 2) 512 true) = true ∧
      ((s.rs 1).toNat % 64 = 0 ∧ (s.rs 1).toNat + 512 ≤ 0xC000 ∧ (s.rs 1).toNat < s.me.here.fbase.toNat) ∧
      ((s.rs 3).toNat % 64 = 0 ∧
        (s.rs 3).toNat + 512 = s.me.here.fbase.toNat + frameSize s.me.here.fclass s.me.lvl) := by decide +kernel

/-- A register bound to stream receive, commands of a latch that the queue does not fill, and enabled types. -/
theorem witness_Parks_others :
    (let s := tentatively [(1, 0x100)] receiving
     (s.me.rq 2).kind = 3 ∧ (s.me.rq 2).level = s.me.lvl ∧ s.me.streaming 2 = false ∧ s.tentative = true) ∧
    (let s := tentatively [(1, 0x100)] fun c => claiming { c with epi1 := some held }
     s.me.latchAhead = false ∧ s.tentative = true ∧ s.me.here.claims.any (fun c => c.res == 1) = true ∧
       (s.me.epiBuf 1).isSome = true) ∧
    (let s := tentatively [(1, mkHdr 0x40 3 0 1 2 1)]
     (s.me.level = 7 ∨ 0x20 ≤ (0x20 : Byte).toNat) ∧ (s.rs 1).toNat < 2 ^ 54 ∧ 0x20 ≤ (hdrType (s.rs 1)).toNat ∧
       s.present (hdrDst (s.rs 1)) = true ∧ s.tentative = true) := by decide +kernel

/-- An epilogue into the named area and one into the frame. -/
theorem witness_Parks_epilogue :
    let s := tentatively [(1, 0x100), (2, 0x00200208), (3, 0xA000)]
    let own : Word → Prop := fun a => ∀ i, i < 8 → ∀ j, j < 2 →
      s.me.here.fbase.toNat ≤ a.toNat + i * 0x20 + j * 31 ∧
        a.toNat + i * 0x20 + j * 31 < s.me.here.fbase.toNat + frameSize s.me.here.fclass s.me.lvl
    rowSize (bits (s.rs 2) 0 4) = 32 ∧ (bits (s.rs 2) 16 16 : BitVec 16) = 0x20 ∧ (bits (s.rs 2) 8 2 : BitVec 2) = 2 ∧
      ¬ own (s.rs 1) ∧ own (s.rs 3) ∧ s.tentative = true ∧ s.me.epi0 = none ∧
      s.outputOk .tcm (s.rs 1).toNat 0x20 32 = true ∧ s.outputOk .tcm (s.rs 3).toNat 0x20 32 = true := by decide +kernel

/-- A copy to the named area, and one to the frame whose successor is the issuer. -/
theorem witness_Parks_copy :
    let s := tentatively []
    let fs := s.me.here.fbase.toNat + frameSize s.me.here.fclass s.me.lvl
    (bytes16 0x200).space = .tcm ∧ (bytes16 0x200).span = (0x200, 0x210) ∧ 0x200 < s.me.here.fbase.toNat ∧
      (bytes16 0xA3F0).span = (0xA3F0, 0xA400) ∧ 0xA400 = fs ∧ ({ next with dest := 0x400000000 } : Succ).self = true ∧
      SuccessorOk s 0 3 0x40 true :=
  ⟨by decide +kernel, by decide +kernel, by decide +kernel, by decide +kernel, by decide +kernel, by decide +kernel,
    by dsimp only [SuccessorOk]; decide +kernel⟩

/-- Room for a provisional store of one word or two with a quota of 16 KiB, and none with a quota of 0. -/
theorem witness_Provisional :
    let s := { tentatively [(1, 0x100)] open_ with launches := [oneStage] }
    let t := { s with launches := [{ oneStage with provq := 0 }] }
    let x : Inst := { instance2 with tentative := true }
    s.me.here.inst = some x ∧
    (∃ r, s.check .global 0x100 8 false true false = .ok r ∧ (r.1.provRoom x r.2.pa && r.2.pa == 0x100) = true) ∧
    (∃ r, t.check .global 0x100 8 false true false = .ok r ∧ (!r.1.provRoom x r.2.pa) = true) ∧
    (∃ r, s.check .global 0x100 16 false true false = .ok r ∧ (r.1.provRoom x r.2.pa &&
      ({ r.1 with prov := r.1.prov ++ [{ launch := 1, index := 2, pa := r.2.pa, va := r.2.va, dom := 0, data := [] }] } :
        State).provRoom x (r.2.pa + 8)) = true) :=
  ⟨by decide +kernel, exists_of_gives (by decide +kernel), exists_of_gives (by decide +kernel), exists_of_gives (by decide +kernel)⟩

/-- Atomics whose reply is late: one that its owner performs, one on a poisoned word, and one that waits for a forward credit. -/
theorem witness_AtomicResults_late :
    (∀ s ∈ [{ mapped (frame 3 [(1, 0x100)] open_) with slow := true, poison := poisonSet [] 0x20 true },
        { mapped (frame 3 [(1, 0x100)] open_) with noCredit := [.home 0] }],
      gives (s.check .global (s.rs 1) 8 true true false) (fun x => gives (x.1.drain x.1.cur) (fun u =>
        let v := u.amoRelease .acqrel .module x.2.loc
        let w := v.spot v.me.dom x.2.loc
        (if s.slow then v.spotPoison w else w.owner.isMem && v.noCredit.contains w.owner) &&
          decide (s.tentative = false ∧ u.me.level ≠ 0xF) &&
          (v.moor { owner := w.owner, word := w.word, dom := w.dom, adom := 0, mode := .plain, data := 0, route := .amo 1 0,
                    region := none, fwd := true, amo := some (.add, 0), plain := none } v.cur).isSome)) = true) := by decide +kernel

/-- The record area takes the record of the running frame, or is full. -/
theorem reaches_partStores (l : List Word) : ∀ (s : State) (va : Nat), Reaches s → va + 8 * l.length ≤ 2 ^ 36 →
    ∃ u, s.partStores (dieOf 1) va l = some u := by
  induction l with
  | nil => exact fun s va _ _ => ⟨s, rfl⟩
  | cons w r ih =>
    intro s va h ha
    simp only [List.length_cons] at ha
    have hx : s.translate (dieOf 1) (BitVec.ofNat 56 va) = (s, .page va) := by
      have h0 : dieOf 1 = 0 := by decide
      have hb : va % 2 ^ 56 = va := Nat.mod_eq_of_lt (by omega)
      have hz : va / 2 ^ (16 + 10 * (2 : BitVec 2).toNat) = 0 := Nat.div_eq_of_lt (show va < 2 ^ 36 by omega)
      have hr : va % 2 ^ (16 + 10 * (2 : BitVec 2).toNat) = va := Nat.mod_eq_of_lt (show va < 2 ^ 36 by omega)
      have ht : (s.die 0).tlbFind (BitVec.ofNat 56 va) = some va := by
        simp only [Die.tlbFind, h.2.2.1.1, BitVec.toNat_ofNat, hb, List.find?, hz, hr, beq_self_eq_true, Nat.zero_add]
      simp only [State.translate, h0, ht]
    have hw := reaches_write h (show va < 2 ^ 36 by omega) 0 (splitBytes 8 w.toNat)
    rw [h.1] at hw
    obtain ⟨u, e⟩ := ih _ (va + 8) hw (by omega)
    exact ⟨u, by simp only [State.partStores, State.partStore, hx, e]⟩

/-- A core with a record area that is empty. -/
def parking : State := mapped (bound [] open_)

theorem park_stores {s u : State} {i : RegInfo} {a : Nat} {r : Region} (why : BitVec 4) (h0 : (s.core 1).sbuf = [])
    (h1 : s.settled 1 = true) (h2 : (s.core 1).region = some r) (h3 : s.infoOf r = some i) (h4 : s.records = [])
    (h5 : recordSlot [] ((0x2040 + frameSize (s.core 1).here.fclass (s.core 1).lvl + 63) / 64 * 64) (i.recBase + i.recSize) 1
      ((i.recBase + 63) / 64 * 64) = some a) (h6 : (s.core 1).here.inst = none)
    (e : s.partStores (dieOf 1) a ((s.core 1).recordWords 0 why 0 0x1000) = some u) : (s.park 1 why 0 0x1000 false).2 = true := by
  have h7 : s.drainFrom 1 (s.core 1).sbuf.length = s := by rw [h0]; rfl
  simp only [State.park, h7, h1, h2, h3, h4, h5, h6, e, List.filter_nil, List.length_nil, Bool.not_true, Bool.false_eq_true, if_false,
    Nat.zero_add]

theorem witness_TrapEntry_parks : parking.me.level.toNat < 7 ∧ (parking.park 1 1 0 0x1000 false).2 = true := by
  refine ⟨by decide +kernel, ?_⟩
  have hr : Reaches parking := by dsimp only [Reaches]; decide +kernel
  have h6 : (info.recBase + 63) / 64 * 64 + 8 * ((parking.core 1).recordWords 0 1 0 0x1000).length ≤ 2 ^ 36 := by decide +kernel
  have h3 : parking.infoOf 0x1080 = some info := by decide +kernel
  obtain ⟨u, e⟩ := reaches_partStores _ _ _ hr h6
  exact park_stores 1 (by decide +kernel) (by decide +kernel) (by decide +kernel) h3 (by decide +kernel) (by decide +kernel)
    (by decide +kernel) e

theorem witness_TrapEntry_full : ((frame 3 []).park 1 8 0x100 0x1000 false).2 = false := by decide +kernel

end Sys2Proof.Machine.Tests
end

section
/-! ## Fields of headers and handbacks -/

namespace Sys2Proof.Machine

/-- The fields of a disjunction are the disjunctions of the fields. -/
theorem bits_or {n : Nat} (x y : BitVec n) (lo w : Nat) : bits (x ||| y) lo w = bits x lo w ||| bits y lo w :=
  BitVec.extractLsb'_or

/-- The type of a header stays under flags that are clear in its bits (R305). -/
theorem hdrType_mkHdr (t : Byte) (p : BitVec 3) (c : BitVec 5) (k : Nat) (src dst : CoreId) {flags : Word} (h : bits flags 0 8 = 0#8) :
    hdrType (mkHdr t p c k src dst ||| flags) = t := by
  have own : bits (mkHdr t p c k src dst) 0 8 = t := BitVec.extractLsb'_append_eq_right
  rw [hdrType, bits_or, h, own, BitVec.or_zero]

/-- The priority of a header stays under flags that are clear in its bits (R305). -/
theorem hdrPrio_mkHdr (t : Byte) (p : BitVec 3) (c : BitVec 5) (k : Nat) (src dst : CoreId) {flags : Word} (h : bits flags 8 3 = 0#3) :
    hdrPrio (mkHdr t p c k src dst ||| flags) = p := by
  have own : bits (mkHdr t p c k src dst) 8 3 = p :=
    (BitVec.extractLsb'_append_eq_of_le (by decide)).trans BitVec.extractLsb'_append_eq_right
  rw [hdrPrio, bits_or, h, own, BitVec.or_zero]

/-- The command of a handback (R320). -/
theorem handbackWord_cmd (cmd : BitVec 4) (cause : BitVec 5) (x : Succ) : bits (handbackWord cmd cause x) 4 4 = cmd :=
  (BitVec.extractLsb'_append_eq_of_le (by decide)).trans BitVec.extractLsb'_append_eq_right

/-- The cause of a handback (R320). -/
theorem handbackWord_cause (cmd : BitVec 4) (cause : BitVec 5) (x : Succ) :
    bits (handbackWord cmd cause x) 8 8 = cause.setWidth 8 := by
  have field : bits (handbackWord cmd cause x) 8 8 = 0#3 ++ cause :=
    (BitVec.extractLsb'_append_eq_of_le (by decide)).trans
      ((BitVec.extractLsb'_append_eq_of_le (by decide)).trans BitVec.extractLsb'_append_eq_right)
  rw [field]
  exact (BitVec.setWidth_eq_append (by decide)).symm

/-! ## Messages that the part sends for a command -/

/-- What hands a command back hands it back (R320). -/
theorem handsBack_postOwn {s t : State} (h : t.net = s.net) (by_ : Issuer) (cmd : BitVec 4) (cause : BitVec 5) (x : Succ)
    (a progress : Word) :
    HandsBack s (t.postOwn 0x01 7 by_.lid by_.lid [handbackWord cmd cause x, a, progress] 0) by_ cmd cause a progress := by
  have sent : (t.postOwn 0x01 7 by_.lid by_.lid [handbackWord cmd cause x, a, progress] 0).net = s.net ++ [_] :=
    congrArg (· ++ _) h
  exact ⟨_, _, handbackWord cmd cause x, sent, rfl, rfl, hdrType_mkHdr _ _ _ _ _ _ (by decide), hdrPrio_mkHdr _ _ _ _ _ _ (by decide),
    rfl, handbackWord_cmd _ _ _, handbackWord_cause _ _ _⟩

end Sys2Proof.Machine
end

section
/-! ## Operations that change only what homes hold, and dies' copies of it -/

namespace Sys2Proof.Machine

/-- From s to t only memory at its homes, its marks, and what dies hold beside their remap tables has changed. -/
def HomesOnly (s t : State) : Prop :=
  t = { s with mem := t.mem, lines := t.lines, poison := t.poison, bkey := t.bkey, dies := t.dies } ∧
    ∀ x, (t.die x).remap = (s.die x).remap

theorem HomesOnly.refl (s : State) : HomesOnly s s := ⟨rfl, fun _ => rfl⟩

theorem HomesOnly.trans {s t u : State} (h : HomesOnly s t) (k : HomesOnly t u) : HomesOnly s u := by
  refine ⟨?_, fun x => (k.2 x).trans (h.2 x)⟩
  have hu := k.1
  rw [h.1] at hu
  exact hu

/-- What every step of a fold changes at homes only, the fold does. -/
theorem HomesOnly.foldl {α : Type} (f : State → α → State) (h : ∀ s x, HomesOnly s (f s x)) (l : List α) (s : State) :
    HomesOnly s (l.foldl f s) :=
  foldl_keeps (fun t => HomesOnly s t) f (fun t x ht => ht.trans (h t x)) l s (HomesOnly.refl s)

section
variable {s t : State} (h : HomesOnly s t)
include h

theorem HomesOnly.cur : t.cur = s.cur := by rw [h.1]
theorem HomesOnly.modu : t.modu = s.modu := by rw [h.1]
theorem HomesOnly.net : t.net = s.net := by rw [h.1]
theorem HomesOnly.cores : t.cores = s.cores := by rw [h.1]
theorem HomesOnly.boot : t.boot = s.boot := by rw [h.1]
theorem HomesOnly.clusters : t.clusters = s.clusters := by rw [h.1]
theorem HomesOnly.allowOwed : t.allowOwed = s.allowOwed := by rw [h.1]
theorem HomesOnly.disabled : t.disabled = s.disabled := by rw [h.1]
theorem HomesOnly.remap (x : BitVec 4) : (t.die x).remap = (s.die x).remap := h.2 x

theorem HomesOnly.core (n : CoreId) : t.core n = s.core n := by rw [State.core, h.cores, h.boot, State.core]

theorem HomesOnly.cluster (cl : BitVec 14) : t.cluster cl = s.cluster cl := by rw [State.cluster, h.clusters, State.cluster]

end

/-- Replacing a die by one with the same remap table. -/
theorem homesOnly_updDie (s : State) (x : BitVec 4) (f : Die → Die) (h : ∀ d, (f d).remap = d.remap) :
    HomesOnly s (s.updDie x f) := by
  refine ⟨rfl, fun y => ?_⟩
  by_cases e : y = x
  · rw [e, State.die_updDie_same, h]
  · rw [State.die_updDie_other s f e]

theorem homesOnly_touchLine (s : State) (dom : BitVec 16) (pa : Nat) : HomesOnly s (s.touchLine dom pa) := by
  unfold State.touchLine
  split <;> exact ⟨rfl, fun _ => rfl⟩

theorem homesOnly_homeSet (s : State) (dom : BitVec 16) (pa : Nat) (b : Byte) : HomesOnly s (s.homeSet dom pa b) := by
  unfold State.homeSet State.rekey
  dsimp only
  split <;> exact ⟨rfl, fun _ => rfl⟩

theorem homesOnly_homeWrite (dom : BitVec 16) (l : List Byte) : ∀ (s : State) (pa : Nat), HomesOnly s (s.homeWrite dom pa l) := by
  induction l with
  | nil => exact fun s _ => HomesOnly.refl s
  | cons b r ih => exact fun s pa => (homesOnly_homeSet s dom pa b).trans (ih _ _)

theorem homesOnly_homeStore (s : State) (dom : BitVec 16) (pa : Nat) (bs : List Byte) : HomesOnly s (s.homeStore dom pa bs) := by
  have written := (homesOnly_homeWrite dom bs s pa).trans (homesOnly_touchLine _ dom pa)
  unfold State.homeStore
  dsimp only
  split
  · exact written.trans ⟨rfl, fun _ => rfl⟩
  · exact written

theorem homesOnly_writeBackFrom (dom : BitVec 16) (word : Nat) (data : Word) (dirty : Byte) (n : Nat) :
    ∀ s : State, HomesOnly s (s.writeBackFrom dom word data dirty n) := by
  induction n with
  | zero => exact fun s => HomesOnly.refl s
  | succ n ih =>
    intro s
    unfold State.writeBackFrom
    dsimp only
    split
    · exact (ih s).trans (homesOnly_homeSet _ _ _ _)
    · exact ih s

theorem homesOnly_writeBack (s : State) (word : Nat) (c : Copy) : HomesOnly s (s.writeBack word c) := by
  have written := (homesOnly_writeBackFrom c.dom word c.data c.dirty 8 s).trans (homesOnly_touchLine _ c.dom (s.live (word * 8)))
  unfold State.writeBack
  split
  · exact HomesOnly.refl s
  · dsimp only
    split
    · exact HomesOnly.trans (homesOnly_writeBackFrom c.dom word c.data c.dirty 8 s)
        ((homesOnly_touchLine _ c.dom _).trans ⟨rfl, fun _ => rfl⟩)
    · exact HomesOnly.trans (homesOnly_writeBackFrom c.dom word c.data c.dirty 8 s) (homesOnly_touchLine _ c.dom _)

/-- A release beyond a die writes home what the die has stored (R117). -/
theorem homesOnly_releaseDie (s : State) (die : BitVec 4) : HomesOnly s (s.releaseDie die) := by
  unfold State.releaseDie
  exact (HomesOnly.foldl _ (fun s (e : Nat × Copy) => homesOnly_writeBack s e.1 e.2) _ s).trans
    (homesOnly_updDie _ die _ fun _ => rfl)

/-- An acquire beyond a die discards the die's copies (R117). -/
theorem homesOnly_acquireDie (s : State) (die : BitVec 4) : HomesOnly s (s.acquireDie die) := by
  unfold State.acquireDie
  exact (HomesOnly.foldl _ (fun s (e : Nat × Copy) => homesOnly_writeBack s e.1 e.2) _ s).trans
    (homesOnly_updDie _ die _ fun _ => rfl)

theorem homesOnly_releaseAt (s : State) (die : BitVec 4) (sc : Scope) : HomesOnly s (s.releaseAt die sc) := by
  unfold State.releaseAt
  split
  · exact homesOnly_releaseDie s die
  · exact homesOnly_releaseDie s die
  · exact HomesOnly.refl s

theorem homesOnly_acquireAt (s : State) (die : BitVec 4) (sc : Scope) : HomesOnly s (s.acquireAt die sc) := by
  unfold State.acquireAt
  split
  · exact homesOnly_acquireDie s die
  · exact homesOnly_acquireDie s die
  · exact HomesOnly.refl s

theorem homesOnly_acquireOwed (s : State) (n : CoreId) (sc : Option Scope) : HomesOnly s (s.acquireOwed n sc) := by
  unfold State.acquireOwed
  split
  · exact homesOnly_acquireAt s _ _
  · exact HomesOnly.refl s

theorem homesOnly_evictCopy (s : State) (die : BitVec 4) (word : Nat) : HomesOnly s (s.evictCopy die word) := by
  unfold State.evictCopy
  split
  · exact (homesOnly_writeBack s word _).trans (homesOnly_updDie _ die _ fun _ => rfl)
  · exact HomesOnly.refl s

theorem homesOnly_takeCopy (s : State) (die : BitVec 4) (dom : BitVec 16) (va pa : Nat) : HomesOnly s (s.takeCopy die dom va pa) := by
  unfold State.takeCopy
  exact (homesOnly_touchLine s dom _).trans (homesOnly_updDie _ die _ fun _ => rfl)

theorem homesOnly_nameCopy (s : State) (die : BitVec 4) (va pa : Nat) (c : Copy) : HomesOnly s (s.nameCopy die va pa c) := by
  unfold State.nameCopy
  split
  · exact HomesOnly.refl s
  · exact homesOnly_updDie s die _ fun _ => rfl

/-- A read by a die leaves at most a copy there (R115). -/
theorem homesOnly_dieRead (s : State) (die : BitVec 4) (dom : BitVec 16) (va pa n : Nat) :
    HomesOnly s (s.dieRead die dom va pa n).1 := by
  unfold State.dieRead
  dsimp only
  split
  · exact homesOnly_touchLine s dom _
  · split
    · split
      · exact homesOnly_nameCopy s die va pa _
      · exact (homesOnly_evictCopy s die _).trans (homesOnly_takeCopy _ die dom va pa)
    · exact homesOnly_takeCopy s die dom va pa

/-- A store by a die reaches the home, or a copy that the die holds (R115). -/
theorem homesOnly_dieWrite (s : State) (die : BitVec 4) (dom : BitVec 16) (va pa : Nat) (bs : List Byte) :
    HomesOnly s (s.dieWrite die dom va pa bs) := by
  unfold State.dieWrite
  dsimp only
  split
  · exact homesOnly_homeStore s dom _ bs
  · refine HomesOnly.trans ?_ (homesOnly_updDie _ die _ fun d => by split <;> rfl)
    refine HomesOnly.trans ?_ (homesOnly_dieRead _ die dom va _ 8)
    split
    · split
      · exact HomesOnly.refl s
      · exact homesOnly_evictCopy s die _
    · exact HomesOnly.refl s

/-! ## The cores that LIDs name -/

/-- The core that a LID names follows from the remap tables and the cores disabled at test (R19, R20). -/
theorem State.mapOf_congr {s t : State} (hr : ∀ x, (t.die x).remap = (s.die x).remap) (hd : t.disabled = s.disabled) (lid : CoreId) :
    t.mapOf lid = s.mapOf lid := by
  simp only [State.mapOf, State.serviceCore, hr, hd]

theorem HomesOnly.physOf {s t : State} (h : HomesOnly s t) (lid : CoreId) : t.physOf lid = s.physOf lid := by
  rw [State.physOf, State.mapOf_congr h.remap h.disabled, State.physOf]

@[simp] theorem State.physOf_updCore (s : State) (n : CoreId) (f : Core → Core) (lid : CoreId) :
    (s.updCore n f).physOf lid = s.physOf lid := rfl

@[simp] theorem State.present_updCore (s : State) (n : CoreId) (f : Core → Core) (lid : CoreId) :
    (s.updCore n f).present lid = s.present lid := rfl

end Sys2Proof.Machine
end

section
/-! ## The status step of a command -/

namespace Sys2Proof.Machine

@[simp] theorem Core.updEst_lid (c : Core) (e : BitVec 4) (f : EStat → EStat) : (c.updEst e f).lid = c.lid := by
  unfold Core.updEst; split <;> rfl
@[simp] theorem Core.updEst_savedLid (c : Core) (e : BitVec 4) (f : EStat → EStat) : (c.updEst e f).savedLid = c.savedLid := by
  unfold Core.updEst; split <;> rfl
@[simp] theorem Core.updEst_tcm (c : Core) (e : BitVec 4) (f : EStat → EStat) : (c.updEst e f).tcm = c.tcm := by
  unfold Core.updEst; split <;> rfl
@[simp] theorem Core.updEst_ni (c : Core) (e : BitVec 4) (f : EStat → EStat) : (c.updEst e f).ni = c.ni := by
  unfold Core.updEst; split <;> rfl
@[simp] theorem Core.updEst_copyQ (c : Core) (e : BitVec 4) (f : EStat → EStat) : (c.updEst e f).copyQ = c.copyQ := by
  unfold Core.updEst; split <;> rfl
@[simp] theorem Core.updEst_matQ (c : Core) (e : BitVec 4) (f : EStat → EStat) : (c.updEst e f).matQ = c.matQ := by
  unfold Core.updEst; split <;> rfl
@[simp] theorem Core.updEst_remQ (c : Core) (e : BitVec 4) (f : EStat → EStat) : (c.updEst e f).remQ = c.remQ := by
  unfold Core.updEst; split <;> rfl
@[simp] theorem Core.updEst_closing (c : Core) (e : BitVec 4) (f : EStat → EStat) : (c.updEst e f).closing = c.closing := by
  unfold Core.updEst; split <;> rfl
@[simp] theorem Core.updEst_latchL (c : Core) (e : BitVec 4) (f : EStat → EStat) : (c.updEst e f).latchL = c.latchL := by
  unfold Core.updEst; split <;> rfl

@[simp] theorem Core.updEst_heldCmds (c : Core) (e g : BitVec 4) (f : EStat → EStat) : (c.updEst e f).heldCmds g = c.heldCmds g := by
  simp only [Core.heldCmds, Core.closingIn, Core.updEst_copyQ, Core.updEst_matQ, Core.updEst_remQ, Core.updEst_closing]

/-- Reading the status that has been changed. -/
@[simp] theorem Core.est_updEst (c : Core) (e : BitVec 4) (f : EStat → EStat) : (c.updEst e f).est e = f (c.est e) := by
  unfold Core.updEst Core.est
  generalize e.toNat = k
  rcases k with _ | _ | k <;> rfl

/-- The status step of a task whose LID the core holds is made there (R311). -/
theorem State.endCmd_here {s : State} {n : CoreId} {lid : CoreId} (h : HoldsLid s n lid) (e : BitVec 4) (fault : Bool) :
    s.endCmd n lid e fault = s.updCore n fun c => c.updEst e fun x => x.ending fault (c.heldCmds e) := by
  obtain ⟨hl, hs⟩ := h
  simp [State.endCmd, hl, hs]

/-- A status step changes the status at one core, or is owed to a saved context (R311, R354). -/
theorem State.endCmd_cases (s : State) (n lid : CoreId) (e : BitVec 4) (fault : Bool) :
    (∃ m, s.endCmd n lid e fault = s.updCore m fun c => c.updEst e fun x => x.ending fault (c.heldCmds e)) ∨
      ∃ l, s.endCmd n lid e fault = { s with owed := l } := by
  unfold State.endCmd
  dsimp only
  split
  · exact .inl ⟨n, rfl⟩
  · split
    · exact .inl ⟨s.physOf lid, rfl⟩
    · exact .inr ⟨_, rfl⟩

/-- What no status step of a core changes stays through a status step. -/
theorem State.core_endCmd_field {α : Type} (g : Core → α) (hg : ∀ c e f, g (c.updEst e f) = g c) (s : State) (n lid : CoreId)
    (e : BitVec 4) (fault : Bool) (m : CoreId) : g ((s.endCmd n lid e fault).core m) = g (s.core m) := by
  obtain ⟨k, h⟩ | ⟨l, h⟩ := s.endCmd_cases n lid e fault
  · rw [h]
    by_cases hm : m = k
    · rw [hm, State.core_updCore_same, hg]
    · rw [State.core_updCore_other s _ hm]
  · rw [h]; rfl

section
variable (s : State) (n lid : CoreId) (e : BitVec 4) (fault : Bool)

@[simp] theorem State.endCmd_net : (s.endCmd n lid e fault).net = s.net := by
  obtain ⟨_, h⟩ | ⟨_, h⟩ := s.endCmd_cases n lid e fault <;> simp [h]
@[simp] theorem State.endCmd_modu : (s.endCmd n lid e fault).modu = s.modu := by
  obtain ⟨_, h⟩ | ⟨_, h⟩ := s.endCmd_cases n lid e fault <;> simp [h]
@[simp] theorem State.endCmd_dies : (s.endCmd n lid e fault).dies = s.dies := by
  obtain ⟨_, h⟩ | ⟨_, h⟩ := s.endCmd_cases n lid e fault <;> simp [h]
@[simp] theorem State.endCmd_physOf (l : CoreId) : (s.endCmd n lid e fault).physOf l = s.physOf l := by
  obtain ⟨_, h⟩ | ⟨_, h⟩ := s.endCmd_cases n lid e fault <;> (rw [h]; rfl)

/-- A status step stores nothing. -/
theorem sameMemory_endCmd : SameMemory s (s.endCmd n lid e fault) := by
  obtain ⟨m, h⟩ | ⟨l, h⟩ := s.endCmd_cases n lid e fault
  · rw [h]; exact sameMemory_updCore s m _ fun c => c.updEst_tcm e _
  · rw [h]; exact SameMemory.refl s

end

/-- The status step at the end of a command counts it, and tells whether the engine is done (R311). -/
theorem endsWith_endCmd {s : State} {n lid : CoreId} (h : HoldsLid s n lid) (e : BitVec 4) (fault : Bool) :
    EndsWith ((s.core n).est e) (((s.endCmd n lid e fault).core n).est e) fault ((s.core n).heldCmds e) := by
  rw [State.endCmd_here h, State.core_updCore_same, Core.est_updEst]
  exact ⟨rfl, rfl, rfl⟩

/-! ## Successors and handbacks -/

/-- What is handed back goes to the issuing task (R320). -/
theorem handsBack_failCmd (s : State) (n : CoreId) (by_ : Issuer) (cmd : BitVec 4) (cause : BitVec 5) (x : Succ) (a progress : Word) :
    HandsBack s (s.failCmd n by_ cmd cause x a progress) by_ cmd cause a progress :=
  handsBack_postOwn (s.endCmd_net n by_.lid (engineOf cmd) true) by_ cmd cause x a progress

/-- What may first write home what its die has stored changes homes only (R125). -/
theorem homesOnly_releaseDie_if (s : State) (die : BitVec 4) (c : Prop) [Decidable c] :
    HomesOnly s (if c then s.releaseDie die else s) := by
  split
  · exact homesOnly_releaseDie s die
  · exact HomesOnly.refl s

/-- A released successor is one message to its destination, or none (R302, R304). -/
theorem releases_releaseFar (s : State) (by_ : Issuer) (x : Succ) (payload : List Word) (far : Bool) (back : Owed) :
    Releases s (s.releaseFar by_ x payload far back) by_ x payload := by
  unfold Releases State.releaseFar
  split
  · rfl
  · exact ⟨_, _, congrArg (· ++ [_]) (homesOnly_releaseDie_if s _ _).net, rfl, hdrType_mkHdr _ _ _ _ _ _ (by decide),
      hdrPrio_mkHdr _ _ _ _ _ _ (by decide), rfl, rfl, rfl⟩

/-- A release leaves every core as it is. -/
@[simp] theorem State.releaseFar_core (s : State) (by_ : Issuer) (x : Succ) (payload : List Word) (far : Bool) (back : Owed) (n : CoreId) :
    (s.releaseFar by_ x payload far back).core n = s.core n := by
  unfold State.releaseFar
  split
  · rfl
  · exact (homesOnly_releaseDie_if s _ _).core n

/-- What a release does follows from what is under way and the module's number. -/
theorem Releases.congr {s t u : State} {a b : Issuer} {x : Succ} {payload : List Word} (h : Releases s u a x payload)
    (hn : s.net = t.net) (hm : s.modu = t.modu) (hl : a.lid = b.lid) : Releases t u b x payload := by
  unfold Releases State.moduleOf at h ⊢
  rwa [hn, hm, hl] at h

/-- The cores while a command is closing (R21). -/
theorem State.core_close (s : State) (n : CoreId) (cmd : BitVec 4) (m : CoreId) :
    State.core { (s.updCore n fun c => { c with closing := c.closing ++ [(s.nextId, cmd)] }) with nextId := s.nextId + 1 } m =
      (s.updCore n fun c => { c with closing := c.closing ++ [(s.nextId, cmd)] }).core m := rfl

/-- A command that has left its queue completes (R21, R304, R311). -/
theorem completes_completeFar (s : State) (n : CoreId) (by_ : Issuer) (cmd : BitVec 4) (x : Succ) (payload : List Word)
    (progress : Word) (far : Bool) : Completes s (s.completeFar n by_ cmd x payload progress far) n by_ cmd x payload progress := by
  unfold Completes State.completeFar
  dsimp only
  refine ⟨fun absent => ?_, fun there => ⟨?_, fun away hold => ?_, fun here => ?_⟩⟩
  · rw [if_pos absent]
    refine ⟨handsBack_failCmd s n by_ cmd 0x03 x _ progress, fun hold => ?_⟩
    have held := State.core_endCmd_field (fun c => c.heldCmds (engineOf cmd)) (fun c e f => c.updEst_heldCmds e _ f) s n by_.lid
      (engineOf cmd) true n
    have step := endsWith_endCmd hold (engineOf cmd) true
    rw [← held] at step
    exact step
  · rw [there, if_neg Bool.false_ne_true]
    split
    · exact (releases_releaseFar _ _ x payload far _).congr rfl rfl rfl
    · exact (releases_releaseFar _ _ x payload far _).congr (by simp) (by simp) rfl
  · rw [there, away, if_neg Bool.false_ne_true, if_neg Bool.false_ne_true, State.releaseFar_core]
    have held := State.core_endCmd_field (fun c => c.heldCmds (engineOf cmd)) (fun c e f => c.updEst_heldCmds e _ f) s n by_.lid
      (engineOf cmd) false n
    have step := endsWith_endCmd hold (engineOf cmd) false
    rw [← held] at step
    exact step
  · rw [there, here, if_neg Bool.false_ne_true, if_pos rfl, State.releaseFar_core]
    rw [State.core_close, State.core_updCore_same]
    exact ⟨rfl, rfl⟩

/-- What neither a status step nor a closing command changes of a core stays as a command completes. -/
theorem State.core_completeFar_field {α : Type} (g : Core → α) (hg : ∀ c e f, g (c.updEst e f) = g c)
    (hc : ∀ (c : Core) l, g { c with closing := l } = g c) (s : State) (n : CoreId) (by_ : Issuer) (cmd : BitVec 4) (x : Succ)
    (payload : List Word) (progress : Word) (far : Bool) (m : CoreId) :
    g ((s.completeFar n by_ cmd x payload progress far).core m) = g (s.core m) := by
  unfold State.completeFar
  split
  · exact State.core_endCmd_field g hg s n by_.lid _ true m
  · split
    · rw [State.releaseFar_core, State.core_close]
      by_cases hm : m = n
      · rw [hm, State.core_updCore_same, hc]
      · rw [State.core_updCore_other s _ hm]
    · rw [State.releaseFar_core]
      exact State.core_endCmd_field g hg s n by_.lid _ false m

end Sys2Proof.Machine
end

section
/-! ## Runs over the cores of a cluster -/

namespace Sys2Proof.Machine

theorem upFrom_succ (lo n : Nat) : upFrom lo (n + 1) = lo :: upFrom (lo + 1) n := rfl

theorem mem_upFrom {i : Nat} : ∀ {lo n : Nat}, i ∈ upFrom lo n ↔ lo ≤ i ∧ i < lo + n
  | lo, 0 => by simp [upFrom]
  | lo, n + 1 => by rw [upFrom_succ, List.mem_cons, mem_upFrom]; omega

/-- What holds between a state and the next of every step of a run holds between its ends. -/
theorem foldl_related {σ : Type} (R : σ → σ → Prop) (refl : ∀ s, R s s) (trans : ∀ {s t u}, R s t → R t u → R s u)
    {f : σ → Nat → σ}
    {l : List Nat} (step : ∀ s, ∀ i ∈ l, R s (f s i)) (s : σ) : R s (l.foldl f s) := by
  induction l generalizing s with
  | nil => exact refl s
  | cons i r ih =>
    exact trans (step s i List.mem_cons_self) (ih (fun s j hj => step s j (List.mem_cons_of_mem i hj)) _)

/-- A run whose steps at all other numbers are of a relation does its step at c to a state so related to the first, and leaves one so
related to what that step gives. -/
theorem foldl_upFrom_at {σ : Type} (R : σ → σ → Prop) (refl : ∀ s, R s s) (trans : ∀ {s t u}, R s t → R t u → R s u)
    {f : σ → Nat → σ}
    {c n : Nat} : ∀ {lo : Nat}, (∀ s i, i < lo + n → i ≠ c → R s (f s i)) → lo ≤ c → c < lo + n →
      ∀ s, ∃ t, R s t ∧ R (f t c) ((upFrom lo n).foldl f s) := by
  induction n with
  | zero => intro lo _ h1 h2; omega
  | succ n ih =>
    intro lo others low high s
    rw [upFrom_succ, List.foldl_cons]
    by_cases e : lo = c
    · subst e
      refine ⟨s, refl s, foldl_related R refl trans (fun s i hi => ?_) _⟩
      have := mem_upFrom.1 hi
      exact others s i (by omega) (by omega)
    · obtain ⟨t, ht, hu⟩ := ih (lo := lo + 1) (fun s i hi => others s i (by omega)) (by omega) (by omega) (f s lo)
      exact ⟨t, trans (others s lo (by omega) e) ht, hu⟩

theorem slotOf_coreOf (cl : BitVec 14) (i : Nat) : slotOf (coreOf cl i) = BitVec.ofNat 4 i := BitVec.extractLsb'_append_eq_right

theorem clusterOf_coreOf (cl : BitVec 14) (i : Nat) : clusterOf (coreOf cl i) = cl := BitVec.extractLsb'_append_eq_left

theorem slotOf_coreOf_toNat (cl : BitVec 14) {i : Nat} (h : i < 16) : (slotOf (coreOf cl i)).toNat = i := by
  rw [slotOf_coreOf, BitVec.toNat_ofNat, Nat.mod_eq_of_lt h]

/-- A change of a core is what it makes of the core as it is. -/
theorem State.updCore_congr {s : State} {n : CoreId} {f g : Core → Core} (h : f (s.core n) = g (s.core n)) :
    s.updCore n f = s.updCore n g := by simp only [State.updCore, h]

/-- The cores of a cluster are different ones. -/
theorem coreOf_ne (cl : BitVec 14) {i j : Nat} (hi : i < 16) (hj : j < 16) (h : i ≠ j) : coreOf cl i ≠ coreOf cl j := by
  intro e
  have := congrArg (fun n => (slotOf n).toNat) e
  simp only [slotOf_coreOf_toNat cl hi, slotOf_coreOf_toNat cl hj] at this
  exact h this

/-! ## Fields written into words -/

/-- The bits of a word with a field replaced. -/
theorem getLsbD_putBits {w : Nat} (x : BitVec w) {lo n : Nat} (y : Nat) {i : Nat} (hi : i < w) :
    (putBits x lo n y).getLsbD i = if lo ≤ i ∧ i < lo + n then y.testBit (i - lo) else x.getLsbD i := by
  simp only [putBits, BitVec.getLsbD_or, BitVec.getLsbD_and, BitVec.getLsbD_not, BitVec.getLsbD_ofNat, hi, decide_true, Bool.true_and,
    Nat.testBit_mul_two_pow, Nat.testBit_two_pow_sub_one, Nat.testBit_mod_two_pow]
  by_cases h1 : lo ≤ i <;> by_cases h2 : i - lo < n
  · rw [if_pos ⟨h1, by omega⟩]; simp [h1, h2]
  · rw [if_neg (by omega)]; simp [h1, h2]
  · rw [if_neg (by omega)]; simp [h1]
  · rw [if_neg (by omega)]; simp [h1]

/-- Fields of four bits written one after another: each holds what was written there. -/
theorem getLsbD_foldl_putBits (f : Nat → Nat) {n : Nat} : ∀ {lo : Nat} (v : Word) {j : Nat}, j < 64 → 
    ((upFrom lo n).foldl (fun (v : Word) i => putBits v (4 * i) 4 (f i)) v).getLsbD j =
      if lo ≤ j / 4 ∧ j / 4 < lo + n then (f (j / 4)).testBit (j % 4) else v.getLsbD j := by
  induction n with
  | zero => intro lo v j hj; rw [if_neg (by omega)]; rfl
  | succ n ih =>
    intro lo v j hj
    rw [upFrom_succ, List.foldl_cons, ih _ hj, getLsbD_putBits _ _ hj]
    by_cases e : j / 4 = lo
    · rw [if_neg (by omega), if_pos (by omega), if_pos (by omega), e, show j - 4 * lo = j % 4 by omega]
    · rw [if_neg (by omega : ¬ (4 * lo ≤ j ∧ j < 4 * lo + 4))]
      by_cases h : lo + 1 ≤ j / 4 ∧ j / 4 < lo + 1 + n
      · rw [if_pos h, if_pos (by omega)]
      · rw [if_neg h, if_neg (by omega)]

/-- A word whose sixteen fields of four bits have been written holds in each what was written. -/
theorem bits_foldl_putBits (f : Nat → Nat) (v : Word) {c : Nat} (hc : c < 16) :
    bits ((upFrom 0 16).foldl (fun (v : Word) i => putBits v (4 * i) 4 (f i)) v) (4 * c) 4 = BitVec.ofNat 4 (f c) := by
  apply BitVec.eq_of_getLsbD_eq
  intro i hi
  rw [BitVec.getLsbD_extractLsb', BitVec.getLsbD_ofNat, getLsbD_foldl_putBits f v (by omega), if_pos (by omega),
    show (4 * c + i) / 4 = c by omega, show (4 * c + i) % 4 = i by omega]

/-- A word put together from its own fields of four bits is itself. -/
theorem foldl_putBits_fields (x v : Word) :
    (upFrom 0 16).foldl (fun (v : Word) i => putBits v (4 * i) 4 (bits x (4 * i) 4).toNat) v = x := by
  apply BitVec.eq_of_getLsbD_eq
  intro i hi
  rw [getLsbD_foldl_putBits (fun i => (bits x (4 * i) 4).toNat) v hi, if_pos (by omega), BitVec.testBit_toNat,
    BitVec.getLsbD_extractLsb', show 4 * (i / 4) + i % 4 = i by omega]
  simp [show i % 4 < 4 by omega]

end Sys2Proof.Machine
end

section
/-! ## The ring latch and the passes of the matrix engine -/

namespace Sys2Proof.Machine

/-! ### The ring -/

/-- The cores of a ring are those of a cluster (R271). -/
theorem clusterOf_nextOfRing (n : CoreId) : clusterOf (nextOfRing n) = clusterOf n := BitVec.extractLsb'_append_eq_left

theorem slotOf_nextOfRing (n : CoreId) : slotOf (nextOfRing n) = slotOf n + 1#4 := BitVec.extractLsb'_append_eq_right

theorem nextOfRing_ne (n : CoreId) : nextOfRing n ≠ n := by
  intro h
  have slot := slotOf_nextOfRing n
  rw [h] at slot
  bv_omega

/-- L of core n given to the next core of its ring (R273). -/
def State.passLatch (s : State) (n : CoreId) (l : LatchSlot) : State :=
  (s.updCore n fun c => { c with latchL := none }).updCore (nextOfRing n) fun c => { c with latchI := some l }

section
variable (s : State) (n : CoreId) (l : LatchSlot)

theorem State.passLatch_core_self : (s.passLatch n l).core n = { s.core n with latchL := none } := by
  rw [State.passLatch, State.core_updCore_other _ _ (nextOfRing_ne n).symm, State.core_updCore_same]

theorem State.passLatch_core_next :
    (s.passLatch n l).core (nextOfRing n) = { s.core (nextOfRing n) with latchI := some l } := by
  rw [State.passLatch, State.core_updCore_same, State.core_updCore_other _ _ (nextOfRing_ne n)]

theorem State.passLatch_core_other {m : CoreId} (h1 : m ≠ n) (h2 : m ≠ nextOfRing n) : (s.passLatch n l).core m = s.core m := by
  rw [State.passLatch, State.core_updCore_other _ _ h2, State.core_updCore_other _ _ h1]

theorem sameMemory_passLatch : SameMemory s (s.passLatch n l) := by
  refine SameMemory.trans (sameMemory_updCore s n _ ?_) (sameMemory_updCore _ (nextOfRing n) _ ?_)
  · exact fun _ => rfl
  · exact fun _ => rfl

end

/-! ### The end of a matrix command -/

section
variable (s : State) (n : CoreId) (q : MatCmd) (fault : Bool)

@[simp] theorem State.endMat_net : (s.endMat n q fault).net = s.net := by simp [State.endMat]

/-- The command leaves its queue, and only it. -/
theorem State.endMat_matQ : ((s.endMat n q fault).core n).matQ = (s.core n).matQ.tail := by
  rw [State.endMat, State.core_endCmd_field Core.matQ Core.updEst_matQ, State.core_updCore_same]

theorem State.endMat_latchL : ((s.endMat n q fault).core n).latchL = (s.core n).latchL := by
  rw [State.endMat, State.core_endCmd_field Core.latchL Core.updEst_latchL, State.core_updCore_same]

theorem sameMemory_endMat : SameMemory s (s.endMat n q fault) := by
  refine SameMemory.trans (sameMemory_updCore s n _ ?_) (sameMemory_endCmd _ n _ 1 fault)
  exact fun _ => rfl

variable {s n q}

/-- The status step of a matrix command is made with one command fewer held (R311). -/
theorem endsWith_endMat {r : List MatCmd} (hq : (s.core n).matQ = q :: r) (h : HoldsLid s n q.by_.lid) :
    EndsWith (s.core n).estMat ((s.endMat n q fault).core n).estMat fault ((s.core n).heldCmds 1 - 1) := by
  have popped := State.core_updCore_same s n fun c => { c with matQ := c.matQ.tail }
  have holds : HoldsLid (s.updCore n fun c => { c with matQ := c.matQ.tail }) n q.by_.lid := by
    rw [HoldsLid, popped]; exact h
  have step := endsWith_endCmd holds 1 fault
  have held : ({ s.core n with matQ := (s.core n).matQ.tail } : Core).heldCmds 1 = (s.core n).heldCmds 1 - 1 := by
    show (s.core n).matQ.tail.length + _ = (s.core n).matQ.length + (s.core n).closingIn 1 - 1
    rw [hq, List.tail_cons, List.length_cons, Nat.add_right_comm, Nat.add_sub_cancel]
    rfl
  rw [popped, held] at step
  exact step

/-- At a core that holds the task's LID the end of a matrix command touches no other core. -/
theorem State.endMat_other (h : HoldsLid s n q.by_.lid) {m : CoreId} (hm : m ≠ n) : (s.endMat n q fault).core m = s.core m := by
  have holds : HoldsLid (s.updCore n fun c => { c with matQ := c.matQ.tail }) n q.by_.lid := by
    rw [HoldsLid, State.core_updCore_same]; exact h
  rw [State.endMat, State.endCmd_here holds, State.core_updCore_other _ _ hm, State.core_updCore_other _ _ hm]

end

theorem handsBack_failMat (s : State) (n : CoreId) (q : MatCmd) (cmd : BitVec 4) (cause : BitVec 5) (a progress : Word) :
    HandsBack s (s.failMat n q cmd cause a progress) q.by_ cmd cause a progress :=
  handsBack_postOwn (s.endMat_net n q true) q.by_ cmd cause _ a progress

/-! ### Latch commands -/

section
variable {s : State} {n : CoreId} {q : MatCmd} {r : List MatCmd} {l : LatchSlot} (hq : (s.core n).matQ = q :: r)
include hq

/-- A waiting latch command takes I into L, and its wait ends (R273). -/
theorem latchTake_takes (head : (s.core n).latchHead = some q) (hl : (s.core n).latchL = none) (hi : (s.core n).latchI = some l) :
    exec (.latchTake n) s = .next (s.updCore n fun c =>
      { c with latchL := some l, latchI := none, matQ := { q with waited := 0 } :: r }) := by
  show execLatchTake n s = _
  simp only [execLatchTake, head, State.takeLatch, hl, hi, Option.isSome_some, Option.isSome_none, Bool.false_eq_true, if_true, if_false,
    Option.getD_some]
  exact congrArg _ (State.updCore_congr (by rw [hi, hq]; rfl))

/-- A waiting `mring` passes L on and ends (R273). -/
theorem ringHandoff_passes (op : q.op = .ring) (hl : (s.core n).latchL = some l) (hi : (s.core (nextOfRing n)).latchI = none) :
    exec (.ringHandoff n) s = .next ((s.passLatch n l).endMat n q false) := by
  have head : (s.core n).latchHead = some q := by simp [Core.latchHead, hq, op]
  show execRingHandoff n s = _
  simp [execRingHandoff, head, op, State.passOn, hl, hi, State.passLatch]

/-- What passing L on changes: the latches of the two cores, and the queue and the status of the first (R273, R311). -/
theorem ringHandoff_effects (hold : HoldsLid s n q.by_.lid) :
    let t := (s.passLatch n l).endMat n q false
    SameMemory s t ∧ (t.core n).latchL = none ∧ (t.core n).matQ = r ∧
      EndsWith (s.core n).estMat (t.core n).estMat false ((s.core n).heldCmds 1 - 1) ∧
      t.core (nextOfRing n) = { s.core (nextOfRing n) with latchI := some l } ∧
      ∀ m, m ≠ n → m ≠ nextOfRing n → t.core m = s.core m := by
  have mine := s.passLatch_core_self n l
  have holds : HoldsLid (s.passLatch n l) n q.by_.lid := by rw [HoldsLid, mine]; exact hold
  have queued : ((s.passLatch n l).core n).matQ = q :: r := by rw [mine]; exact hq
  have step := endsWith_endMat false queued holds
  rw [mine] at step
  exact ⟨(sameMemory_passLatch s n l).trans (sameMemory_endMat _ n q false), by rw [State.endMat_latchL, mine],
    by rw [State.endMat_matQ, queued, List.tail_cons], step,
    by rw [State.endMat_other false holds (nextOfRing_ne n), State.passLatch_core_next],
    fun m h1 h2 => by rw [State.endMat_other false holds h1, State.passLatch_core_other s n l h1 h2]⟩

theorem latchWaitTimeout_counts (head : (s.core n).latchHead = some q) (waits : s.latchWaits n q = true) (cc : BitVec 40)
    (within : (q.waited + cc.setWidth 41).toNat ≤ (s.core n).wdog.toNat) :
    exec (.latchWaitTimeout n cc) s =
      .next (s.updCore n fun c => { c with matQ := { q with waited := q.waited + cc.setWidth 41 } :: r }) := by
  show execLatchWaitTimeout n cc s = _
  simp only [execLatchWaitTimeout, head, waits, Bool.not_true, Bool.false_eq_true, if_false, if_neg (Nat.not_lt.2 within)]
  exact congrArg _ (State.updCore_congr (by rw [hq]; rfl))

omit hq in
theorem latchWaitTimeout_ends (head : (s.core n).latchHead = some q) (waits : s.latchWaits n q = true) (cc : BitVec 40)
    (past : (s.core n).wdog.toNat < (q.waited + cc.setWidth 41).toNat) :
    exec (.latchWaitTimeout n cc) s = .next (s.failMat n q 8 0x0C 0 0) := by
  show execLatchWaitTimeout n cc s = _
  simp only [execLatchWaitTimeout, head, waits, Bool.not_true, Bool.false_eq_true, if_false, if_pos past]

end

/-! ### Passes -/

/-- A pass that starts past its last tile has nothing to do. -/
theorem State.passTiles_past (s : State) (u : EngUser) (p : Pass) (int : Bool) (k : Nat) {t : Nat} (h : p.tiles ≤ t) :
    s.passTiles u p int k t = (s, none) := by
  cases k with
  | zero => rfl
  | succ k => rw [State.passTiles, if_pos h]

section
variable {s u : State} {n : CoreId} {q : MatCmd} {r : List MatCmd} {succ : Succ} {p : Pass} {t0 : BitVec 32} {k : Nat} {f : EngFault}
  (hq : (s.core n).matQ = q :: r) (op : q.op = .pass succ p.a p.b p.c p.epi p.ascale p.bscale t0 p.amx p.bmx p.base)
include hq op

/-- A pass that has stored all its tiles leaves its queue and completes (R284, R304). -/
theorem mpassRun_completes (run : s.passTiles (q.user n) p (decide (p.a.efmt = 0x4)) p.tiles t0.toNat = (u, none)) :
    ∃ t, exec (.mpassRun n) s = .next t ∧ (t.core n).matQ = (u.core n).matQ.tail ∧
      Completes u t n q.by_ 7 succ [BitVec.ofNat 64 p.tiles] (BitVec.ofNat 64 p.tiles) := by
  have popped := State.core_updCore_same u n fun c => { c with matQ := c.matQ.tail }
  refine ⟨(u.updCore n fun c => { c with matQ := c.matQ.tail }).completeFar n q.by_ 7 succ [BitVec.ofNat 64 p.tiles]
    (BitVec.ofNat 64 p.tiles) false, ?_, ?_, ?_⟩
  · show execMpassRun n s = _
    simp only [execMpassRun, hq, op, run]
  · rw [State.core_completeFar_field Core.matQ Core.updEst_matQ fun _ _ => rfl, popped]
  · have done := completes_completeFar (u.updCore n fun c => { c with matQ := c.matQ.tail }) n q.by_ 7 succ
      [BitVec.ofNat 64 p.tiles] (BitVec.ofNat 64 p.tiles) false
    simp only [Completes, HoldsLid, popped] at done
    exact done

/-- A pass that cannot go on at a tile stops there (R284, R408). -/
theorem mpassRun_stops (run : s.passTiles (q.user n) p (decide (p.a.efmt = 0x4)) p.tiles t0.toNat = (u, some (k, f))) :
    exec (.mpassRun n) s = .next (u.stopPass n q succ f k) := by
  show execMpassRun n s = _
  simp only [execMpassRun, hq, op, run]

end

/-- Settles O30: the latch commands take, pass on, count and end as their own laws say; a pass ends in one of three ways, by the outcome
of its tiles. -/
theorem latchAndPassEvents : Obligations.LatchAndPassEvents := by
  intro s n q r l cc succ a b c epi base as_ bs t0 amx bmx u k f hq
  refine ⟨nextOfRing_ne n, clusterOf_nextOfRing n, fun head hl hi => ?_, fun op hold hl hi => ?_,
    fun head waits => ⟨latchWaitTimeout_counts hq head waits cc, fun past => ?_⟩, fun op past there => ?_,
    fun op run => mpassRun_completes hq op run, fun op run wait => ?_, fun op run fails => ?_⟩
  · exact ⟨_, latchTake_takes hq head hl hi, sameMemory_updCore s n _ fun _ => rfl, State.core_updCore_same s n _,
      fun m hm => State.core_updCore_other s _ hm⟩
  · exact ⟨_, ringHandoff_passes hq op hl hi, ringHandoff_effects hq hold⟩
  · exact ⟨_, latchWaitTimeout_ends head waits cc past, sameMemory_endMat s n q true, (State.endMat_matQ s n q true).trans (by rw [hq]; rfl),
      handsBack_failMat s n q 8 0x0C 0 0⟩
  · obtain ⟨t, ht, left, done⟩ := mpassRun_completes hq op (State.passTiles_past s _ _ _ _ past)
    exact ⟨t, ht, left.trans (by rw [hq]; rfl), done⟩
  · refine ⟨_, mpassRun_stops hq op run, ?_⟩
    rw [State.stopPass, if_pos wait]
    refine ⟨rfl, sameMemory_updCore u n _ fun _ => rfl, ?_, ?_⟩ 
    · rw [State.core_updCore_same]
    · rw [State.core_updCore_same, MatCmd.from, op]
  · refine ⟨_, mpassRun_stops hq op run, ?_⟩
    rw [State.stopPass, fails, if_neg Bool.false_ne_true]
    exact ⟨State.endMat_matQ u n q true, handsBack_postOwn (u.endMat_net n q true) q.by_ 7 f.cause succ f.addr _⟩

end Sys2Proof.Machine
end

section
/-! ## Clusters left alone but for the bytes of their pages -/

namespace Sys2Proof.Machine

/-- A cluster has become another one that has as many frames, and differs in them alone. -/
def Cluster.AlikeButFrames (k d : Cluster) : Prop :=
  d.frames.length = k.frames.length ∧ ({ d with frames := [] } : Cluster) = { k with frames := [] }

/-- From s to t no cluster has changed but in what its frames hold. -/
def ClustersKept (s t : State) : Prop := ∀ cl, (s.cluster cl).AlikeButFrames (t.cluster cl)

theorem ClustersKept.refl (s : State) : ClustersKept s s := fun _ => ⟨rfl, rfl⟩

theorem ClustersKept.trans {s t u : State} (h : ClustersKept s t) (k : ClustersKept t u) : ClustersKept s u :=
  fun cl => ⟨(k cl).1.trans (h cl).1, (k cl).2.trans (h cl).2⟩

theorem clustersKept_of_eq {s t : State} (h : t.clusters = s.clusters) : ClustersKept s t := by
  intro cl
  have same : t.cluster cl = s.cluster cl := by rw [State.cluster, h, State.cluster]
  rw [same]
  exact ⟨rfl, rfl⟩

theorem HomesOnly.clustersKept {s t : State} (h : HomesOnly s t) : ClustersKept s t := clustersKept_of_eq h.clusters

/-- Changing the frames of a cluster but not their number. -/
theorem clustersKept_updCluster (s : State) (cl : BitVec 14) (f : Cluster → Cluster) (h : ∀ k : Cluster, k.AlikeButFrames (f k)) :
    ClustersKept s (s.updCluster cl f) := by
  intro x
  by_cases e : x = cl
  · rw [e, State.cluster_updCluster_same]; exact h _
  · rw [State.cluster_updCluster_other s f e]; exact ⟨rfl, rfl⟩

theorem updAt_length {α : Type} (f : α → α) (l : List α) (i : Nat) : (updAt f l i).length = l.length := by
  induction l generalizing i with
  | nil => rfl
  | cons x r ih => cases i <;> simp [updAt, ih]

theorem clustersKept_updFrame (s : State) (cl : BitVec 14) (i : Nat) (f : Frame → Frame) : ClustersKept s (s.updFrame cl i f) :=
  clustersKept_updCluster s cl _ fun k => ⟨updAt_length f k.frames i, rfl⟩

/-! ### Traps -/

theorem clustersKept_detachFollowers (s : State) (n : CoreId) : ClustersKept s (s.detachFollowers n) := by
  unfold State.detachFollowers
  split
  · split
    · refine foldl_related ClustersKept ClustersKept.refl ClustersKept.trans (fun s i _ => ?_) s
      dsimp only
      split
      · split <;> exact ClustersKept.refl s
      · exact ClustersKept.refl s
    · exact ClustersKept.refl s
  · exact ClustersKept.refl s

theorem clustersKept_detach (s : State) (n : CoreId) : ClustersKept s (s.detach n) := by
  unfold State.detach
  split
  · dsimp only
    split <;> exact clustersKept_detachFollowers s n
  · exact ClustersKept.refl s

theorem clustersKept_unpin (s : State) (n : CoreId) : ClustersKept s (s.unpin n) := by
  unfold State.unpin
  dsimp only
  split
  · exact ClustersKept.refl s
  · exact clustersKept_updCluster s _ _ fun k => ⟨List.length_map _, rfl⟩

theorem clustersKept_enterTrap (s : State) (n : CoreId) (c : BitVec 5) (a : Word) (epc : BitVec 56) (async : Bool) :
    ClustersKept s (s.enterTrap n c a epc async) :=
  ((clustersKept_detach s n).trans (clustersKept_unpin _ n)).trans (clustersKept_of_eq rfl)

theorem clustersKept_asyncTrap (s : State) (n : CoreId) (l : BitVec 4) (c : BitVec 5) (a : Word) :
    ClustersKept s (s.asyncTrap n l c a) := by
  unfold State.asyncTrap
  dsimp only
  split
  · exact clustersKept_enterTrap s n c a _ true
  · exact clustersKept_of_eq rfl

theorem clustersKept_quotaTrap (s : State) (r : Option Region) (q : WeirQueue) (n : CoreId) : ClustersKept s (s.quotaTrap r q n) := by
  unfold State.quotaTrap
  split
  · split
    · refine ClustersKept.trans ?_ (clustersKept_asyncTrap _ n _ _ _)
      exact clustersKept_of_eq rfl
    · exact ClustersKept.refl s
  · exact ClustersKept.refl s

theorem clustersKept_weirAdd {s t : State} {q : WeirQueue} {r : Option Region} {item : WeirItem} {n : CoreId}
    (h : s.weirAdd q r item n = some t) : ClustersKept s t := by
  unfold State.weirAdd at h
  split at h
  · cases h
  · cases h
    refine ClustersKept.trans ?_ (clustersKept_quotaTrap _ r q n)
    exact clustersKept_of_eq rfl

/-! ### Accesses at their owners -/

theorem clustersKept_moor {s t : State} {m : Mooring} {n : CoreId} (h : s.moor m n = some t) : ClustersKept s t := by
  unfold State.moor at h
  split at h
  · exact clustersKept_weirAdd h
  · cases h; exact clustersKept_of_eq rfl

theorem clustersKept_syncReply (s : State) (m : Mooring) (x : Word) (st : BitVec 2) : ClustersKept s (s.syncReply m x st) := by
  unfold State.syncReply
  split
  case h_4 => split <;> exact clustersKept_of_eq rfl
  all_goals exact clustersKept_of_eq rfl

theorem clustersKept_spotWrite (s : State) (p : Spot) (dom : BitVec 16) (x : Word) : ClustersKept s (s.spotWrite p dom x) := by
  unfold State.spotWrite
  split
  · exact clustersKept_of_eq rfl
  · split
    · exact clustersKept_updFrame s _ _ _
    · exact ClustersKept.refl s
  all_goals exact (homesOnly_homeStore s dom _ _).clustersKept

theorem clustersKept_spotSetFull (s : State) (p : Spot) (x : Bool) : ClustersKept s (s.spotSetFull p x) := by
  unfold State.spotSetFull
  split
  · exact clustersKept_of_eq rfl
  · split
    · split
      · exact ClustersKept.refl s
      · exact clustersKept_updFrame s _ _ _
    · exact ClustersKept.refl s
  all_goals exact clustersKept_of_eq rfl

theorem clustersKept_spotTouch (s : State) (p : Spot) (dom : BitVec 16) : ClustersKept s (s.spotTouch p dom) := by
  unfold State.spotTouch
  split
  · exact (homesOnly_touchLine s dom _).clustersKept
  · exact ClustersKept.refl s

theorem clustersKept_amoAt (s : State) (p : Spot) (dom : BitVec 16) (op : AmoOp) (e y : Word) :
    ClustersKept s (s.amoAt p dom op e y).1 := by
  unfold State.amoAt
  dsimp only
  split
  · exact (clustersKept_spotTouch s p dom).trans (clustersKept_spotWrite _ p dom _)
  · exact clustersKept_spotTouch s p dom

theorem clustersKept_shapeFilled (s : State) (p : Spot) (b a : Bool) (x : Word) : ClustersKept s (s.shapeFilled p b a x) := by
  unfold State.shapeFilled
  split <;> exact clustersKept_of_eq rfl

theorem clustersKept_recallFor (s : State) (m : Mooring) : ClustersKept s (s.recallFor m) := by
  unfold State.recallFor
  split
  · unfold State.recallAt
    split
    · dsimp only
      split
      · exact ((homesOnly_evictCopy s _ _).trans (homesOnly_evictCopy _ _ _)).clustersKept
      · exact (homesOnly_evictCopy s _ _).clustersKept
    · exact ClustersKept.refl s
  · exact ClustersKept.refl s

/-- An access that is performed at its owner changes no cluster but in a page's bytes (R90, R221, R408). -/
theorem clustersKept_syncApply (s : State) (m : Mooring) (dom : BitVec 16) : ClustersKept s (s.syncApply m dom) := by
  refine (clustersKept_recallFor s m).trans ?_
  unfold State.syncApply
  dsimp only
  generalize s.recallFor m = u
  split
  · unfold State.plainAt
    refine ClustersKept.trans ?_ (clustersKept_syncReply _ m 0 0)
    split
    · exact ClustersKept.refl u
    · exact (homesOnly_homeStore u _ _ _).clustersKept
  · split
    · exact clustersKept_syncReply u m 0 2
    · exact (clustersKept_amoAt u _ dom _ _ _).trans (clustersKept_syncReply _ m _ 0)
  · split
    · exact clustersKept_syncReply u m 0 2
    · refine ClustersKept.trans ?_ (clustersKept_syncReply _ m _ 0)
      have touched := clustersKept_spotTouch u { owner := m.owner, word := m.word, dom := m.dom } dom
      split
      · exact ((touched.trans (clustersKept_spotWrite _ _ dom _)).trans (clustersKept_spotSetFull _ _ _)).trans
          (clustersKept_shapeFilled _ _ _ _ _)
      · exact touched.trans (clustersKept_spotSetFull _ _ _)

theorem clustersKept_onChange (p : Spot) (k : Nat) : ∀ s : State, ClustersKept s (s.onChange p k) := by
  induction k with
  | zero => exact fun s => ClustersKept.refl s
  | succ k ih =>
    intro s
    unfold State.onChange
    split
    · split
      · refine ClustersKept.trans ?_ (ih _)
        refine ClustersKept.trans ?_ (clustersKept_syncApply _ _ _)
        exact clustersKept_of_eq rfl
      · exact ClustersKept.refl s
    · exact ClustersKept.refl s

theorem clustersKept_syncServe (s : State) (m : Mooring) : ClustersKept s (s.syncServe m) := by
  unfold State.syncServe
  dsimp only
  split
  · exact clustersKept_syncApply s m _
  · exact (clustersKept_syncApply s m _).trans (clustersKept_onChange _ _ _)

theorem clustersKept_syncArrive {s t : State} {m : Mooring} {n : CoreId} (h : s.syncArrive m n = some t) : ClustersKept s t := by
  unfold State.syncArrive at h
  dsimp only at h
  split at h
  · exact clustersKept_moor h
  · split at h
    · cases h; exact clustersKept_syncServe s m
    · exact clustersKept_moor h

/-! ### The store buffer -/

theorem homesOnly_settle (s : State) (die : BitVec 4) (l : Loc) : HomesOnly s (s.settle die l) := by
  cases l with
  | mem pa => exact homesOnly_evictCopy s die _
  | _ => exact HomesOnly.refl s

theorem clustersKept_flightArrive {s t : State} {n : CoreId} (h : s.flightArrive n = some t) : ClustersKept s t := by
  unfold State.flightArrive at h
  split at h
  · cases h
  · obtain ⟨u, hu, rfl⟩ := Option.map_eq_some_iff.1 h
    exact ((homesOnly_settle s _ _).clustersKept.trans (clustersKept_syncArrive hu)).trans (clustersKept_of_eq rfl)

theorem clustersKept_flightsFrom (n : CoreId) (k : Nat) : ∀ s : State, ClustersKept s (s.flightsFrom n k) := by
  induction k with
  | zero => exact fun s => ClustersKept.refl s
  | succ k ih =>
    intro s
    unfold State.flightsFrom
    split
    · rename_i t h
      exact (clustersKept_flightArrive h).trans (ih t)
    · exact ClustersKept.refl s

theorem clustersKept_rawWrite (s : State) (n : CoreId) (dom : BitVec 16) (p : Acc) (bs : List Byte) :
    ClustersKept s (s.rawWrite n dom p bs) := by
  unfold State.rawWrite
  split
  · exact clustersKept_of_eq rfl
  · split
    · exact clustersKept_updFrame s _ _ _
    · exact ClustersKept.refl s
  · exact (homesOnly_dieWrite s _ dom _ _ bs).clustersKept

theorem clustersKept_performStore {s t : State} {n : CoreId} {e : StoreEntry} {now : Bool} (h : s.performStore n e = some (t, now)) :
    ClustersKept s t := by
  unfold State.performStore at h
  dsimp only at h
  split at h
  · obtain ⟨u, hu, e⟩ := Option.map_eq_some_iff.1 h
    cases e
    exact ((homesOnly_releaseAt s _ _).trans (homesOnly_settle _ _ _)).clustersKept.trans (clustersKept_syncArrive hu)
  · split at h
    · cases h
    · split at h
      · obtain ⟨u, hu, e⟩ := Option.map_eq_some_iff.1 h
        cases e
        exact clustersKept_moor hu
      · cases h
        exact clustersKept_rawWrite s n _ _ _

theorem clustersKept_drainOne {s t : State} {n : CoreId} (h : s.drainOne n = some t) : ClustersKept s t := by
  unfold State.drainOne at h
  dsimp only at h
  split at h
  · cases h
  · cases h
  · split at h
    · cases h
    · obtain ⟨⟨u, now⟩, hu, rfl⟩ := Option.map_eq_some_iff.1 h
      exact ((clustersKept_flightsFrom n _ s).trans (clustersKept_performStore hu)).trans (clustersKept_of_eq rfl)

/-- A store buffer that drains changes no cluster but in its pages' bytes (R113). -/
theorem clustersKept_drainFrom (n : CoreId) (k : Nat) : ∀ s : State, ClustersKept s (s.drainFrom n k) := by
  induction k with
  | zero => exact fun s => ClustersKept.refl s
  | succ k ih =>
    intro s
    unfold State.drainFrom
    split
    · rename_i t h
      exact (clustersKept_drainOne h).trans (ih t)
    · exact ClustersKept.refl s

/-! ### Pages written back and freed -/

theorem clustersKept_putBytes (die : BitVec 4) (f : Frame) (l : List Nat) : ∀ s : State, ClustersKept s (s.putBytes die f l) := by
  induction l with
  | nil => exact fun s => ClustersKept.refl s
  | cons o r ih => exact fun s => (ih s).trans (homesOnly_homeSet _ _ _ _).clustersKept

theorem clustersKept_writePage (s : State) (die : BitVec 4) (f : Frame) : ClustersKept s (s.writePage die f) := by
  have run (g : State → Nat → State) (h : ∀ s w, ClustersKept s (g s w)) (l : List Nat) (s : State) : ClustersKept s (l.foldl g s) :=
    foldl_related ClustersKept ClustersKept.refl ClustersKept.trans (fun s w _ => h s w) s
  unfold State.writePage
  dsimp only
  refine ClustersKept.trans ?_ (run _ (fun s w => (homesOnly_touchLine s _ _).clustersKept) _ _)
  refine ClustersKept.trans ?_ (run _ ?_ _ _)
  refine ClustersKept.trans ?_ (run _ ?_ _ _)
  rotate_left
  · exact fun s w => clustersKept_of_eq rfl
  · exact fun s w => clustersKept_of_eq rfl
  exact (run _ (fun s w => (homesOnly_evictCopy s die _).clustersKept) _ s).trans (clustersKept_putBytes die f f.dirty _)

theorem clustersKept_moveMoorings (s : State) (cl : BitVec 14) (f : Frame) : ClustersKept s (s.moveMoorings cl f) := by
  have moved : (s.moveMoorings cl f).clusters = s.clusters := by
    unfold State.moveMoorings
    dsimp only
    refine foldl_keeps (fun t : State => t.clusters = s.clusters) _ (fun t x ht => ?_) _ _ rfl
    unfold State.moveMooring
    dsimp only
    split <;> exact ht
  exact clustersKept_of_eq moved

theorem clustersKept_wakePage (s : State) (f : Frame) : ClustersKept s (s.wakePage f) := by
  unfold State.wakePage
  split
  · exact ClustersKept.refl s
  · exact foldl_related ClustersKept ClustersKept.refl ClustersKept.trans (fun s w _ => clustersKept_onChange _ _ s) s

theorem dropAt_length_zero {α : Type} (l : List α) : (dropAt l 0).length = l.length - 1 := by cases l <;> simp [dropAt]

/-- The first page of a cluster is freed; nothing else of a cluster changes but bytes of pages (R78, R80). -/
theorem State.evictFrame_cluster (s : State) (cl : BitVec 14) :
    ((s.evictFrame cl 0).cluster cl).frames.length = (s.cluster cl).frames.length - 1 ∧
      ({ (s.evictFrame cl 0).cluster cl with frames := [] } : Cluster) = { s.cluster cl with frames := [] } := by
  unfold State.evictFrame
  split
  · rename_i f _
    have before := ((clustersKept_writePage s (bits cl 10 4) f).trans (clustersKept_moveMoorings _ cl f)) cl
    dsimp only
    generalize (s.writePage (bits cl 10 4) f).moveMoorings cl f = u at before ⊢
    have after := clustersKept_wakePage (u.updCluster cl fun k => { k with frames := dropAt k.frames 0 }) f cl
    rw [State.cluster_updCluster_same] at after
    exact ⟨by rw [after.1, dropAt_length_zero, before.1], after.2.trans before.2⟩
  · rename_i none
    have : (s.cluster cl).frames = [] := by simpa using none
    exact ⟨by rw [this]; rfl, rfl⟩

/-- Freeing the first page as often as a cluster has pages frees all (R439). -/
theorem State.evictAll_cluster (cl : BitVec 14) (n : Nat) : ∀ (s : State) (lo : Nat), (s.cluster cl).frames.length = n →
    (((upFrom lo n).foldl (fun s _ => s.evictFrame cl 0) s).cluster cl) = { s.cluster cl with frames := [] } := by
  induction n with
  | zero =>
    intro s lo h
    exact congrArg (fun l => ({ s.cluster cl with frames := l } : Cluster)) (List.eq_nil_of_length_eq_zero h)
  | succ n ih =>
    intro s lo h
    obtain ⟨count, kept⟩ := s.evictFrame_cluster cl
    rw [upFrom_succ, List.foldl_cons, ih _ _ (by omega)]
    exact kept

/-- A cluster alike to one without frames is the same. -/
theorem Cluster.AlikeButFrames.eq {k d : Cluster} (h : k.AlikeButFrames d) (none : k.frames = []) : d = k := by
  obtain ⟨count, rest⟩ := h
  have frames : d.frames = [] := List.eq_nil_of_length_eq_zero (by rw [count, none]; rfl)
  obtain ⟨⟩ := k
  obtain ⟨⟩ := d
  cases none; cases frames; exact rest

/-- A cluster that keeps all but its frames, loses these, keeps all again and is then set to draining. -/
theorem ClustersKept.drained {s d e m : State} {cl : BitVec 14} (before : ClustersKept s d)
    (freed : e.cluster cl = { d.cluster cl with frames := [] }) (after : ClustersKept e m) :
    (m.updCluster cl fun k => { k with gstate := 1, refills := [] }).cluster cl =
      { s.cluster cl with gstate := 1, frames := [], refills := [] } := by
  rw [State.cluster_updCluster_same, (after cl).eq (by rw [freed]), freed]
  exact congrArg (fun k : Cluster => ({ k with gstate := 1, refills := [] } : Cluster)) (before cl).2

/-- Draining frees every page of the cluster and forgets its refills; all else of the cluster stands (R439). -/
theorem State.beginDrain_cluster (s : State) (cl : BitVec 14) :
    (s.beginDrain cl).cluster cl = { s.cluster cl with gstate := 1, frames := [], refills := [] } := by
  have drained : ClustersKept s ((upFrom 0 16).foldl (fun s i =>
      let n := coreOf cl i
      if (s.core n).sbuf.isEmpty then s else s.drainFrom n (s.core n).sbuf.length) s) := by
    refine foldl_related ClustersKept ClustersKept.refl ClustersKept.trans (fun s i _ => ?_) s
    dsimp only
    split
    · exact ClustersKept.refl s
    · exact clustersKept_drainFrom _ _ s
  have moved (u : State) : ClustersKept u ((upFrom 0 256).foldl (fun s i =>
      let n : CoreId := bits cl 4 10 ++ BitVec.ofNat 8 i
      if (s.core n).sfu.any (fun r => r.cluster == cl && !r.accepted) then
        s.updCore n fun c => { c with sfu := c.sfu.map fun (r : SfuReq) =>
          if r.cluster = cl ∧ !r.accepted then { r with cluster := s.sfuAfter cl 15 } else r }
      else s) u) := by
    refine foldl_related ClustersKept ClustersKept.refl ClustersKept.trans (fun s i _ => ?_) u
    dsimp only
    split <;> exact ClustersKept.refl s
  unfold State.beginDrain
  exact drained.drained (State.evictAll_cluster cl _ _ 0 rfl) (moved _)

end Sys2Proof.Machine
end

section
/-! ## Power, heat and the management space: dividers, switches and gating -/

namespace Sys2Proof.Machine

/-- A change of a cluster is what it makes of the cluster as it is. -/
theorem State.updCluster_congr {s : State} {cl : BitVec 14} {f g : Cluster → Cluster} (h : f (s.cluster cl) = g (s.cluster cl)) :
    s.updCluster cl f = s.updCluster cl g := by simp only [State.updCluster, h]

/-! ### Dividers (R435) -/

/-- The divider that core i of a cluster gets of a word written: at most that of its region, on a core with admitted contracts. -/
def State.dividerStored (s : State) (cl : BitVec 14) (data : Word) (i : Nat) : Nat :=
  let x := (bits data (4 * i) 4).toNat
  match (s.core (coreOf cl i)).binding with
  | some b =>
    match s.infoOf b.region with
    | some r => if !b.contracts.isEmpty ∧ x + 1 > r.dmax.toNat then r.dmax.toNat - 1 else x
    | none => x
  | none => x

theorem State.writeDividers_eq (s : State) (cl : BitVec 14) (data : Word) : s.writeDividers cl data = s.updCluster cl fun k =>
    { k with div := (upFrom 0 16).foldl (fun (v : Word) i => putBits v (4 * i) 4 (s.dividerStored cl data i)) 0 } := rfl

section
variable {s : State} {cl : BitVec 14} (data : Word)

theorem State.dividerStored_of_unbound {i : Nat} (h : (s.core (coreOf cl i)).binding = none) :
    s.dividerStored cl data i = (bits data (4 * i) 4).toNat := by
  rw [State.dividerStored, h]

theorem State.dividerStored_above {i : Nat} {b : Binding} {r : RegInfo} (hb : (s.core (coreOf cl i)).binding = some b)
    (hr : s.infoOf b.region = some r) (contracts : b.contracts ≠ []) (above : r.dmax.toNat < (bits data (4 * i) 4).toNat + 1) :
    s.dividerStored cl data i = r.dmax.toNat - 1 := by
  have admitted : (!b.contracts.isEmpty) = true := by simpa using contracts
  simp only [State.dividerStored, hb, hr]
  rw [if_pos ⟨admitted, above⟩]

theorem State.writeDividers_of_unbound (h : ∀ j, j < 16 → (s.core (coreOf cl j)).binding = none) :
    s.writeDividers cl data = s.updCluster cl fun k => { k with div := data } := by
  rw [State.writeDividers_eq, List.foldl_ext (g := fun (v : Word) i => putBits v (4 * i) 4 (bits data (4 * i) 4).toNat),
    foldl_putBits_fields data 0]
  intro v i hi
  rw [State.dividerStored_of_unbound data (h i (by have := mem_upFrom.1 hi; omega))]

theorem State.writeDividers_field (c : BitVec 4) :
    bits ((s.writeDividers cl data).cluster cl).div (4 * c.toNat) 4 = BitVec.ofNat 4 (s.dividerStored cl data c.toNat) := by
  rw [State.writeDividers_eq, State.cluster_updCluster_same]
  exact bits_foldl_putBits _ 0 c.isLt

end

/-- A cluster's registers are not memory. -/
theorem sameMemory_updCluster (s : State) (cl : BitVec 14) (f : Cluster → Cluster) (h : ∀ k, (f k).frames = k.frames) :
    SameMemory s (s.updCluster cl f) := by
  refine ⟨fun _ => rfl, fun _ _ => rfl, fun x => ?_, fun _ => rfl⟩
  by_cases e : x = cl
  · rw [e, State.cluster_updCluster_same, h]
  · rw [State.cluster_updCluster_other s f e]

/-! ### Power switches (R441) -/

theorem getLsbD_setBit (x : BitVec 16) (i : Nat) {c : Nat} (hc : c < 16) :
    (x ||| (1#16 <<< i)).getLsbD c = (x.getLsbD c || decide (c = i)) := by
  rw [BitVec.getLsbD_or]
  congr 1
  by_cases e : c = i
  · subst e; simp [hc]
  · have : decide (c - i = 0) = false ∨ c < i := by by_cases c < i <;> simp <;> omega
    rcases this with h | h
    · simp [hc, e]; omega
    · simp [hc, h, e]

theorem getLsbD_clearBit (x : BitVec 16) (i : Nat) {c : Nat} (hc : c < 16) :
    (x &&& ~~~(1#16 <<< i)).getLsbD c = (x.getLsbD c && !decide (c = i)) := by
  have set := getLsbD_setBit (0#16) i hc
  rw [BitVec.zero_or] at set
  rw [BitVec.getLsbD_and, BitVec.getLsbD_not, set]
  simp [hc]

theorem State.mayOpen_setCore_other (s : State) {n m : CoreId} (c : Core) (h : n ≠ m) : (s.setCore m c).mayOpen n = s.mayOpen n := by
  simp only [State.mayOpen, State.noneHeld, State.core_setCore_other s c h]
  rfl

theorem State.cluster_clearCore (s : State) (n : CoreId) (cl : BitVec 14) : (s.clearCore n).cluster cl = s.cluster cl := rfl

/-- The power switch of core i of a cluster set or cleared, with the core cleared. -/
def State.turn (s : State) (cl : BitVec 14) (i : Nat) (x : Bool) : State :=
  (s.clearCore (coreOf cl i)).updCluster cl fun k =>
    { k with pon := if x then k.pon ||| (1#16 <<< i) else k.pon &&& ~~~(1#16 <<< i) }

/-- Bit i of a word written to the power switches. -/
def State.switch (s : State) (cl : BitVec 14) (data : Word) (i : Nat) : State :=
  if data.getLsbD i then if (s.cluster cl).pon.getLsbD i then s else s.turn cl i true
  else if (s.cluster cl).pon.getLsbD i ∧ s.mayOpen (coreOf cl i) then s.turn cl i false
  else s

theorem State.writeSwitches_eq (s : State) (cl : BitVec 14) (data : Word) :
    s.writeSwitches cl data = (upFrom 0 16).foldl (fun s i => s.switch cl data i) s := rfl

section
variable (s : State) (cl : BitVec 14) {i c : Nat} (x : Bool)

theorem State.turn_pon (hc : c < 16) : ((s.turn cl i x).cluster cl).pon.getLsbD c =
    if c = i then x else (s.cluster cl).pon.getLsbD c := by
  rw [State.turn, State.cluster_updCluster_same]
  cases x <;> simp only [Bool.false_eq_true, if_true, if_false, getLsbD_setBit _ _ hc, getLsbD_clearBit _ _ hc,
    State.cluster_clearCore] <;>
    by_cases e : c = i <;> simp [e]

theorem State.turn_core_same : (s.turn cl i x).core (coreOf cl i) = { Core.reset (coreOf cl i) with ni := (s.core (coreOf cl i)).ni } :=
  State.core_setCore_same s _ _

theorem State.turn_core_other {n : CoreId} (h : n ≠ coreOf cl i) : (s.turn cl i x).core n = s.core n :=
  State.core_setCore_other s _ h

theorem State.mayOpen_turn_other {n : CoreId} (h : n ≠ coreOf cl i) : (s.turn cl i x).mayOpen n = s.mayOpen n :=
  State.mayOpen_setCore_other s _ h

end

/-- From s to t core c of a cluster and its power switch stay as they are. -/
def SwitchKept (cl : BitVec 14) (c : Nat) (s t : State) : Prop :=
  t.core (coreOf cl c) = s.core (coreOf cl c) ∧ (t.cluster cl).pon.getLsbD c = (s.cluster cl).pon.getLsbD c ∧
    t.mayOpen (coreOf cl c) = s.mayOpen (coreOf cl c)

theorem SwitchKept.refl {cl : BitVec 14} {c : Nat} (s : State) : SwitchKept cl c s s := ⟨rfl, rfl, rfl⟩

theorem SwitchKept.trans {cl : BitVec 14} {c : Nat} {s t u : State} (h : SwitchKept cl c s t) (k : SwitchKept cl c t u) :
    SwitchKept cl c s u := ⟨k.1.trans h.1, k.2.1.trans h.2.1, k.2.2.trans h.2.2⟩

/-- The bit of one core does nothing to another core. -/
theorem switchKept_switch (s : State) (cl : BitVec 14) (data : Word) {i c : Nat} (hi : i < 16) (hc : c < 16) (h : i ≠ c) :
    SwitchKept cl c s (s.switch cl data i) := by
  have ne : coreOf cl c ≠ coreOf cl i := coreOf_ne cl hc hi h.symm
  have turned (x : Bool) : SwitchKept cl c s (s.turn cl i x) :=
    ⟨s.turn_core_other cl x ne, by rw [s.turn_pon cl x hc, if_neg h.symm], s.mayOpen_turn_other cl x ne⟩
  unfold State.switch
  split
  · split
    · exact SwitchKept.refl s
    · exact turned true
  · split
    · exact turned false
    · exact SwitchKept.refl s

/-- A core whose switch opens or closes is as at reset; a bit set closes the switch, and one clear opens it where it may open (R441). -/
theorem State.switch_own (s : State) (cl : BitVec 14) (data : Word) {c : Nat} (hc : c < 16) :
    let n := coreOf cl c
    let on := (s.cluster cl).pon.getLsbD c
    ((s.switch cl data c).cluster cl).pon.getLsbD c = (data.getLsbD c || (on && !s.mayOpen n)) ∧
      (s.switch cl data c).core n =
        if (if data.getLsbD c then !on else on && s.mayOpen n) then { Core.reset n with ni := (s.core n).ni } else s.core n := by
  dsimp only
  unfold State.switch
  cases data.getLsbD c <;> cases on : (s.cluster cl).pon.getLsbD c <;> cases s.mayOpen (coreOf cl c) <;>
    simp [on, State.turn_pon s cl _ hc, State.turn_core_same]

/-- Each core's bit of a word written to the power switches does what it says of that core alone. -/
theorem State.writeSwitches_core (s : State) (cl : BitVec 14) (data : Word) (c : BitVec 4) :
    let n := coreOf cl c.toNat
    let on := (s.cluster cl).pon.getLsbD c.toNat
    let u := s.writeSwitches cl data
    (u.cluster cl).pon.getLsbD c.toNat = (data.getLsbD c.toNat || (on && !s.mayOpen n)) ∧
      u.core n = if (if data.getLsbD c.toNat then !on else on && s.mayOpen n) then { Core.reset n with ni := (s.core n).ni }
        else s.core n := by
  obtain ⟨t, ⟨core, pon, may⟩, ⟨core', pon', _⟩⟩ := foldl_upFrom_at (SwitchKept cl c.toNat) SwitchKept.refl SwitchKept.trans
    (f := fun s i => s.switch cl data i) (lo := 0) (n := 16) (fun s i hi ne => switchKept_switch s cl data (by omega) c.isLt ne)
    (Nat.zero_le _) (by have := c.isLt; omega) s
  have own := t.switch_own cl data c.isLt
  dsimp only at own ⊢
  rw [core, pon, may] at own
  rw [State.writeSwitches_eq, core', pon']
  exact own

/-! ### Gating and waking (R439, R440) -/

section
variable {s : State} {cl : BitVec 14}

theorem State.requestScratchGate_open (h : (s.cluster cl).gstate = 0) :
    s.requestScratchGate cl = (s.updCluster cl fun k => { k with sgreq := true }).beginDrain cl := if_pos h

theorem State.requestScratchGate_closed (h : (s.cluster cl).gstate ≠ 0) :
    s.requestScratchGate cl = s.updCluster cl fun k => { k with sgreq := true } := if_neg h

theorem State.requestClusterGate_refused (h : (s.cluster cl).cgreq = true ∨ s.mayGate cl = false) : s.requestClusterGate cl = s :=
  if_pos (by simpa using h)

theorem State.requestClusterGate_drains (h : (s.cluster cl).cgreq = false) (may : s.mayGate cl = true)
    (awake : (s.cluster cl).gstate = 0 ∨ (s.cluster cl).gstate = 2) :
    s.requestClusterGate cl = (s.updCluster cl fun k => { k with cgreq := true, waking := false }).beginDrain cl := by
  unfold State.requestClusterGate
  rw [if_neg (by simp [h, may])]
  exact if_pos awake

theorem State.endDrain_draining (h : (s.cluster cl).gstate = 1) : s.endDrain cl = s.updCluster cl fun c =>
    { c with gstate := if (s.cluster cl).cgreq then 3 else 2, waking := !(s.cluster cl).cgreq && !(s.cluster cl).sgreq } := by
  unfold State.endDrain
  rw [if_neg (by simp [h])]
  rfl

/-- A zero written to the gating register wakes the scratchpad. -/
theorem State.writeGate_scratch (sg : (s.cluster cl).sgreq = true) (cg : (s.cluster cl).cgreq = false)
    (h : (s.cluster cl).gstate = 2) : s.writeGate cl 0 = s.updCluster cl fun c => { c with sgreq := false, waking := true } := by
  have zero (i : Nat) : (0 : Word).getLsbD i = false := BitVec.getLsbD_zero
  unfold State.writeGate
  simp only [zero, cg, Bool.false_eq_true, if_false, sg, Bool.not_false, and_self, if_true]
  exact State.updCluster_congr (by rw [h]; simp)

/-- A zero written to the gating register wakes the whole cluster. -/
theorem State.writeGate_cluster (cg : (s.cluster cl).cgreq = true) (sg : (s.cluster cl).sgreq = false)
    (h : (s.cluster cl).gstate = 3) : s.writeGate cl 0 = s.updCluster cl fun c => { c with cgreq := false, waking := true } := by
  have zero (i : Nat) : (0 : Word).getLsbD i = false := BitVec.getLsbD_zero
  unfold State.writeGate
  simp only [zero, cg, Bool.false_eq_true, if_false, if_true, State.cluster_updCluster_same, sg, false_and]
  exact State.updCluster_congr (by rw [h]; simp)

theorem State.endWake_asleep (h : (s.cluster cl).waking = false) : s.endWake cl = s := if_pos (by rw [h]; rfl)

theorem State.endWake_scratch (h : (s.cluster cl).waking = true) (some : (s.cluster cl).gstate ≠ 3) : s.endWake cl =
    s.updCluster cl fun c => { c with gstate := if (s.cluster cl).sgreq then 2 else 0, waking := false, frames := [] } := by
  unfold State.endWake
  simp only [h, Bool.not_true, Bool.false_eq_true, if_false, if_neg some]
  exact State.updCluster_congr (by simp only [ne_eq, some, not_false_eq_true, and_true])

theorem State.endWake_cluster (h : (s.cluster cl).waking = true) (all : (s.cluster cl).gstate = 3) : s.endWake cl =
    ((upFrom 0 16).foldl (fun s i => s.clearCore (coreOf cl i)) s).updCluster cl fun k =>
      { k with gstate := if k.sgreq ∧ k.gstate ≠ 3 then 2 else 0, waking := false, frames := [] } := by
  unfold State.endWake
  simp only [h, Bool.not_true, Bool.false_eq_true, if_false, if_pos all]

end

/-- Cores cleared leave clusters and all other cores as they are. -/
theorem State.clearCores_core (s : State) (cl : BitVec 14) {c : Nat} (hc : c < 16) :
    ((upFrom 0 16).foldl (fun s i => s.clearCore (coreOf cl i)) s).core (coreOf cl c) =
      { Core.reset (coreOf cl c) with ni := (s.core (coreOf cl c)).ni } := by
  obtain ⟨t, before, after⟩ := foldl_upFrom_at (fun s t : State => t.core (coreOf cl c) = s.core (coreOf cl c)) (fun _ => rfl)
    (fun h k => k.trans h) (f := fun s i => s.clearCore (coreOf cl i)) (lo := 0) (n := 16) (c := c)
    (fun s i hi ne => State.core_setCore_other s _ (coreOf_ne cl hc (by omega) ne.symm)) (Nat.zero_le _) (by omega) s
  rw [after, State.clearCore, State.core_setCore_same, before]

theorem State.clearCores_cluster (s : State) (cl : BitVec 14) :
    ((upFrom 0 16).foldl (fun s i => s.clearCore (coreOf cl i)) s).cluster cl = s.cluster cl :=
  foldl_keeps (fun t : State => t.cluster cl = s.cluster cl) (fun s i => s.clearCore (coreOf cl i))
    (fun t i h => (State.cluster_clearCore t (coreOf cl i) cl).trans h) _ s rfl

end Sys2Proof.Machine
end

section
/-! ## Traps: what becomes of the core that takes one, and of the others -/

namespace Sys2Proof.Machine

/-- A core has become another one that differs in its membership alone, and has none if it had none. -/
def Core.AlikeButMember (c d : Core) : Prop := ∃ x, d = { c with member := x } ∧ (c.member = none → x = none)

theorem Core.AlikeButMember.refl (c : Core) : c.AlikeButMember c := ⟨c.member, rfl, id⟩

theorem Core.AlikeButMember.trans {c d e : Core} (h : c.AlikeButMember d) (k : d.AlikeButMember e) : c.AlikeButMember e := by
  obtain ⟨x, rfl, hx⟩ := h
  obtain ⟨y, rfl, hy⟩ := k
  exact ⟨y, rfl, fun none => hy (hx none)⟩

/-- From s to t cores have changed in their memberships alone, and else only clusters have. -/
def MembersOnly (s t : State) : Prop :=
  t = { s with cores := t.cores, clusters := t.clusters } ∧ ∀ m, (s.core m).AlikeButMember (t.core m)

theorem MembersOnly.refl (s : State) : MembersOnly s s := ⟨rfl, fun _ => Core.AlikeButMember.refl _⟩

theorem MembersOnly.trans {s t u : State} (h : MembersOnly s t) (k : MembersOnly t u) : MembersOnly s u := by
  refine ⟨?_, fun m => (h.2 m).trans (k.2 m)⟩
  have hu := k.1
  rw [h.1] at hu
  exact hu

/-- A core that is a member of a swarm gets another membership. -/
theorem membersOnly_updCore {s : State} {n : CoreId} (x : Option Member) (h : (s.core n).member = none → x = none) :
    MembersOnly s (s.updCore n fun c => { c with member := x }) := by
  refine ⟨rfl, fun m => ?_⟩
  by_cases e : m = n
  · rw [e, State.core_updCore_same]; exact ⟨x, rfl, h⟩
  · rw [State.core_updCore_other s _ e]; exact Core.AlikeButMember.refl _

theorem membersOnly_updCluster (s : State) (cl : BitVec 14) (f : Cluster → Cluster) : MembersOnly s (s.updCluster cl f) :=
  ⟨rfl, fun _ => Core.AlikeButMember.refl _⟩

theorem membersOnly_detachFollowers (s : State) (n : CoreId) : MembersOnly s (s.detachFollowers n) := by
  unfold State.detachFollowers
  split
  · split
    · refine foldl_related MembersOnly MembersOnly.refl MembersOnly.trans (fun s i _ => ?_) s
      dsimp only
      split
      · rename_i isMember
        split
        · exact membersOnly_updCore _ fun none => absurd (isMember.symm.trans none) nofun
        · exact MembersOnly.refl s
      · exact MembersOnly.refl s
    · exact MembersOnly.refl s
  · exact MembersOnly.refl s

theorem membersOnly_detach (s : State) (n : CoreId) : MembersOnly s (s.detach n) := by
  unfold State.detach
  split
  · rename_i m isMember
    dsimp only
    split
    · exact membersOnly_detachFollowers s n
    · have followers := membersOnly_detachFollowers s n
      refine ⟨by rw [followers.1]; rfl, fun k => ?_⟩
      obtain ⟨x, core, _⟩ := followers.2 k
      by_cases e : k = n
      · subst e
        rw [State.core_updCore_same, core]
        exact ⟨some m.alone, rfl, fun none => absurd (isMember.symm.trans none) nofun⟩
      · rw [State.core_updCore_other _ _ e]
        exact followers.2 k
  · exact MembersOnly.refl s

theorem membersOnly_unpin (s : State) (n : CoreId) : MembersOnly s (s.unpin n) := by
  unfold State.unpin
  dsimp only
  split
  · exact MembersOnly.refl s
  · exact membersOnly_updCluster s _ _

/-! ### Entry to level 7 -/

section
variable (c : BitVec 5) (l : BitVec 4) (async entered : Bool)

/-- The fields of the cause register (R345). -/
theorem causeCode_mkCause : causeCode (mkCause c l async entered) = c := BitVec.extractLsb'_append_eq_right

theorem causeLevel_mkCause : causeLevel (mkCause c l async entered) = l := by
  apply BitVec.eq_of_getLsbD_eq
  intro i hi
  simp only [causeLevel, mkCause, bits, BitVec.getLsbD_extractLsb', BitVec.getLsbD_append, hi, decide_true, Bool.true_and]
  rw [if_neg (by omega), if_neg (by omega), if_pos (by omega), show 8 + i - 5 - 3 = i by omega]

theorem causeAsync_mkCause : causeAsync (mkCause c l async entered) = async := by
  have bit : bits (mkCause c l async entered) 12 1 = BitVec.ofBool async := by
    apply BitVec.eq_of_getLsbD_eq
    intro i hi
    obtain rfl : i = 0 := by omega
    simp only [mkCause, bits, BitVec.getLsbD_extractLsb', BitVec.getLsbD_append]
    simp
  rw [causeAsync, bit]
  cases async <;> decide

theorem causeEntered_mkCause : causeEntered (mkCause c l async entered) = entered := by
  have bit : bits (mkCause c l async entered) 13 1 = BitVec.ofBool entered := by
    apply BitVec.eq_of_getLsbD_eq
    intro i hi
    obtain rfl : i = 0 := by omega
    simp only [mkCause, bits, BitVec.getLsbD_extractLsb', BitVec.getLsbD_append]
    simp
  rw [causeEntered, bit]
  cases entered <;> decide

end

/-- A core whose interrupted frame has been saved goes on at its vector at level 7 (R347). -/
def Core.pushTop (k : Core) : Core :=
  let k := { k with level := 7, thresh := 7, b := (k.bank 7).rb, pc := k.tvec, asleep := false, stalls := k.stalls.set 7 0 }
  k.updBank 7 fun b => { b with live := true, fclass := 0, fbase := k.sp, claims := [], inst := none,
                                contract := none, squash := false, parkDue := false, queueOp := none }

/-- What entry to level 7 makes of a core (R347). -/
def Core.trapped (k : Core) (c : BitVec 5) (a : Word) (epc : BitVec 56) (async : Bool) : Core :=
  (({ k with cause := mkCause c k.level async true, epc, addr := a } : Core).saveFrame epc).pushTop

theorem State.core_enterTrap_same (s : State) (n : CoreId) (c : BitVec 5) (a : Word) (epc : BitVec 56) (async : Bool) :
    (s.enterTrap n c a epc async).core n = (((s.detach n).unpin n).core n).trapped c a epc async :=
  State.core_updCore_same _ n fun k => k.trapped c a epc async

/-- The level of a frame below 7 is not the supervisor's. -/
theorem Core.lvl_ne_seven {k : Core} (h : k.level ≠ 7) (busy : k.level ≠ 0xF) : k.lvl ≠ 7 := by
  have all : ∀ l : BitVec 4, l ≠ 7 → l ≠ 0xF → bits l 0 3 ≠ (7 : BitVec 3) := by decide
  exact all k.level h busy

theorem entersSupervisor_pushTop {k j : Core} {c : BitVec 5} {a : Word} {epc : BitVec 56} {async : Bool}
    (fields : j = { k with cause := mkCause c k.level async true, epc := epc, addr := a, banks := j.banks })
    (top : j.bank 7 = k.bank 7) (others : ∀ l, l ≠ k.lvl → j.bank l = k.bank l)
    (saved : k.level ≠ 0xF → k.lvl ≠ 7 ∧ j.bank k.lvl = { k.bank k.lvl with rpc := epc, rthresh := k.thresh, rb := k.b }) :
    EntersSupervisor k j.pushTop c a epc async := by
  have below {l : BitVec 3} (h : l ≠ 7) : j.pushTop.bank l = j.bank l := Core.bank_updBank_other _ _ h
  have above : j.pushTop.bank 7 = { j.bank 7 with
      live := true, fclass := 0, fbase := j.sp, claims := [], inst := none, contract := none, squash := false, parkDue := false,
      queueOp := none } := Core.bank_updBank_same _ 7 _
  have cause : j.pushTop.cause = mkCause c k.level async true := congrArg Core.cause fields
  refine ⟨rfl, rfl, (congrArg Core.tvec fields :), (congrArg Core.epc fields :), (congrArg Core.addr fields :), ?_, ?_, ?_, ?_,
    (congrArg Core.sp fields :), congrArg Bank.rb top, fun busy => ?_, ?_, fun l ne l7 => (below l7).trans (others l ne),
    (congrArg Core.tcm fields :), (congrArg Core.h fields :), (congrArg Core.kcnt fields :), (congrArg Core.plb fields :)⟩
  · rw [cause, causeCode_mkCause]
  · rw [cause, causeLevel_mkCause]
  · rw [cause, causeAsync_mkCause]
  · rw [cause, causeEntered_mkCause]
  · exact (below (saved busy).1).trans (saved busy).2
  · rw [above, top]
    exact ⟨rfl, rfl, (congrArg Core.sp fields :), rfl, rfl, rfl, rfl⟩

/-- A core that is not at level 7 enters the supervisor by a trap (R347). -/
theorem entersSupervisor_trapped {k : Core} (c : BitVec 5) (a : Word) (epc : BitVec 56) (async : Bool) (h : k.level ≠ 7) :
    EntersSupervisor k (k.trapped c a epc async) c a epc async := by
  unfold Core.trapped
  by_cases idle : k.level = 0xF
  · rw [Core.saveFrame, if_pos idle]
    exact entersSupervisor_pushTop rfl rfl (fun _ _ => rfl) fun busy => absurd idle busy
  · have low : k.lvl ≠ 7 := Core.lvl_ne_seven h idle
    rw [Core.saveFrame, if_neg idle]
    exact entersSupervisor_pushTop rfl (Core.bank_updBank_other _ _ low.symm) (fun l ne => Core.bank_updBank_other _ _ ne)
      fun _ => ⟨low, Core.bank_updBank_same _ _ _⟩

/-- Entry to the supervisor says nothing of the membership. -/
theorem Core.AlikeButMember.entersSupervisor {k j d : Core} (same : k.AlikeButMember j) {c : BitVec 5} {a : Word} {epc : BitVec 56}
    {async : Bool} (h : EntersSupervisor j d c a epc async) : EntersSupervisor k d c a epc async := by
  obtain ⟨x, rfl, _⟩ := same
  exact h

/-- A trap below level 7 enters the supervisor (R347). -/
theorem entersSupervisor_enterTrap (s : State) (n : CoreId) (c : BitVec 5) (a : Word) (epc : BitVec 56) (async : Bool)
    (h : (s.core n).level ≠ 7) : EntersSupervisor (s.core n) ((s.enterTrap n c a epc async).core n) c a epc async := by
  have alike := ((membersOnly_detach s n).trans (membersOnly_unpin _ n)).2 n
  rw [State.core_enterTrap_same]
  refine alike.entersSupervisor (entersSupervisor_trapped c a epc async ?_)
  obtain ⟨x, core, _⟩ := alike
  rw [core]
  exact h

/-- A trap changes the core that takes it, and of the others no more than memberships. -/
theorem enterTrap_others (s : State) {n m : CoreId} (c : BitVec 5) (a : Word) (epc : BitVec 56) (async : Bool) (h : m ≠ n) :
    (s.core m).AlikeButMember ((s.enterTrap n c a epc async).core m) := by
  have alike := ((membersOnly_detach s n).trans (membersOnly_unpin _ n)).2 m
  rw [State.enterTrap, State.core_updCore_other _ _ h]
  exact alike

/-- A trap changes cores and clusters only. -/
theorem enterTrap_fields (s : State) (n : CoreId) (c : BitVec 5) (a : Word) (epc : BitVec 56) (async : Bool) :
    s.enterTrap n c a epc async =
      { s with cores := (s.enterTrap n c a epc async).cores, clusters := (s.enterTrap n c a epc async).clusters } := by
  have before := ((membersOnly_detach s n).trans (membersOnly_unpin _ n)).1
  unfold State.enterTrap
  generalize (s.detach n).unpin n = u at before ⊢
  rw [before]
  rfl

end Sys2Proof.Machine
end

section
/-! ## Power, heat and the management space: rails, temperatures, the pacer and core checks -/

namespace Sys2Proof.Machine

/-! ### Rails (R436, R437) -/

/-- The step of the SRAM rail after so many uncorrectable errors. -/
def Cluster.railAfter (k : Cluster) (gone : BitVec 32) : Nat :=
  if gone = 0 then k.scur.toNat else min (k.scur.toNat + 2 * gone.toNat) (max k.scur.toNat k.sceil.toNat)

/-- The windows in which the SRAM rail is not lowered after so many uncorrectable errors. -/
def Cluster.stopAfter (k : Cluster) (gone : BitVec 32) : Nat := if gone = 0 then k.noLower else 17

theorem Cluster.railAfter_lt (k : Cluster) (gone : BitVec 32) : k.railAfter gone < 256 := by
  have := k.scur.isLt
  have := k.sceil.isLt
  unfold Cluster.railAfter
  split <;> omega

/-- Uncorrectable errors raise the rail and hold it; nothing else of the cluster changes but their count. -/
theorem Cluster.sramErrors_eq (k : Cluster) (gone : BitVec 32) : k.sramErrors gone =
    { k with scur := BitVec.ofNat 8 (k.railAfter gone), uerr := k.uerr + gone, noLower := k.stopAfter gone } := by
  unfold Cluster.sramErrors Cluster.railAfter Cluster.stopAfter
  by_cases h : gone = 0
  · simp [h]
  · simp only [h, if_false]

/-- The step to which a window with so many corrected errors moves the rail from a step (R436). -/
def Cluster.railNext (k : Cluster) (bad gone : BitVec 32) : Nat :=
  let cur := k.railAfter gone
  if bad.toNat > 2 * k.sset.toNat then min (cur + 1) (max cur k.sceil.toNat)
  else if bad.toNat < k.sset.toNat ∧ k.stopAfter gone = 0 ∧ k.sfloor.toNat < cur then cur - 1
  else cur

theorem exec_sramRailWindow (s : State) (cl : BitVec 14) (bad gone : BitVec 32) :
    exec (.sramRailWindow cl bad gone) s = .next (s.updCluster cl fun c =>
      { c with scur := BitVec.ofNat 8 ((s.cluster cl).railNext bad gone), cerr := (s.cluster cl).cerr + bad,
               uerr := (s.cluster cl).uerr + gone, noLower := (s.cluster cl).stopAfter gone - 1 }) := by
  refine congrArg Host.Outcome.next (State.updCluster_congr ?_)
  have cur : (BitVec.ofNat 8 ((s.cluster cl).railAfter gone)).toNat = (s.cluster cl).railAfter gone :=
    Nat.mod_eq_of_lt ((s.cluster cl).railAfter_lt gone)
  simp only [Cluster.sramErrors_eq, cur]
  rfl

/-! ### Heat (R444) -/

theorem temp_setTemp (s : State) (n : CoreId) (t : Byte) :
    ((s.setTemp n t).cluster (clusterOf n)) =
      { s.cluster (clusterOf n) with temp := (s.cluster (clusterOf n)).temp.set (slotOf n).toFin t } :=
  State.cluster_updCluster_same _ _ _

/-- Core n is to be told its temperature: its flag is armed, it may be told, and the limit is reached. -/
def Cluster.tells (k : Cluster) (i : BitVec 4) : Prop :=
  k.armed.getLsbD i.toNat = true ∧ k.nmask.getLsbD i.toNat = true ∧ k.tlim.toNat ≤ (k.temp.get i.toFin).toNat

theorem State.notifyHeat_quiet {s : State} {n : CoreId} (h : ¬ (s.cluster (clusterOf n)).tells (slotOf n)) : s.notifyHeat n = s :=
  if_neg h

/-- A core is told its temperature by a message of type 0x0C and priority 7, and its flag is disarmed. -/
theorem State.notifyHeat_tells {s : State} {n : CoreId} (h : (s.cluster (clusterOf n)).tells (slotOf n)) :
    ∃ (y : Transit) (a : Arr), s.notifyHeat n = (s.updCluster (clusterOf n) fun k =>
        { k with armed := k.armed &&& ~~~(1#16 <<< (slotOf n).toNat) }).updCore n (fun c => { c with ni := c.ni ++ [y] }) ∧
      y.cargo = .message a ∧ hdrType a.msg.hdr = 0x0C ∧ hdrPrio a.msg.hdr = 7 ∧
      a.msg.payload = [((s.cluster (clusterOf n)).temp.get (slotOf n).toFin).setWidth 64, BitVec.ofNat 64 (slotOf n).toNat] := by
  refine ⟨_, _, if_pos h, rfl, BitVec.extractLsb'_append_eq_right, ?_, rfl⟩
  exact (BitVec.extractLsb'_append_eq_of_le (by decide)).trans BitVec.extractLsb'_append_eq_right

/-- A core at or below its release temperature is armed again. -/
theorem State.rearm_eq (s : State) (n : CoreId) : s.rearm n = s ∨ s.rearm n = s.updCluster (clusterOf n) fun k =>
    { k with armed := k.armed ||| (1#16 <<< (slotOf n).toNat) } := by
  unfold State.rearm
  dsimp only
  split
  · exact .inr rfl
  · exact .inl rfl

/-- What a core's turn of arming does to its cluster. -/
theorem State.rearm_cluster (s : State) (n : CoreId) :
    let k := s.cluster (clusterOf n)
    (s.rearm n).cluster (clusterOf n) = { k with
      armed := if (k.temp.get (slotOf n).toFin).toNat + k.hyst.toNat ≤ k.tlim.toNat then k.armed ||| (1#16 <<< (slotOf n).toNat)
        else k.armed } := by
  dsimp only
  unfold State.rearm
  dsimp only
  split
  · exact State.cluster_updCluster_same _ _ _
  · rfl

theorem sameMemory_rearm (s : State) (n : CoreId) : SameMemory s (s.rearm n) := by
  rcases s.rearm_eq n with e | e <;> rw [e]
  · exact SameMemory.refl s
  · exact sameMemory_updCluster s _ _ fun _ => rfl

theorem State.rearm_cores (s : State) (n : CoreId) : (s.rearm n).cores = s.cores := by
  rcases s.rearm_eq n with e | e <;> rw [e]
  rfl

theorem State.rearm_core (s : State) (n m : CoreId) : (s.rearm n).core m = s.core m := by
  rcases s.rearm_eq n with e | e <;> rw [e]
  rfl

/-- The armed flag of a core after its turn of arming. -/
theorem State.rearm_armed (s : State) (n : CoreId) :
    let k := s.cluster (clusterOf n)
    ((s.rearm n).cluster (clusterOf n)).armed.getLsbD (slotOf n).toNat =
      (k.armed.getLsbD (slotOf n).toNat || decide ((k.temp.get (slotOf n).toFin).toNat + k.hyst.toNat ≤ k.tlim.toNat)) := by
  dsimp only
  rw [State.rearm_cluster]
  dsimp only
  split
  · rename_i h
    rw [getLsbD_setBit _ _ (slotOf n).isLt]
    simp [h]
  · rename_i h
    simp [h]

/-! ### The pacer (R431) -/

theorem sameMemory_updDie (s : State) (x : BitVec 4) (f : Die → Die) (h : ∀ d, (f d).copies = d.copies) :
    SameMemory s (s.updDie x f) := by
  refine ⟨fun _ => rfl, fun _ _ => rfl, fun _ => rfl, fun y => ?_⟩
  by_cases e : y = x
  · rw [e, State.die_updDie_same, h]
  · rw [State.die_updDie_other s f e]

/-- The pacer of a die with the fields that pace.ctl holds written. -/
def Pacer.set (p : Pacer) (en : Bool) (data : Word) (seq now : BitVec 32) : Pacer :=
  { p with en := en, cidx := bits data 1 3, lid := bits data 4 18, seq := seq, now := now }

section
variable {s : State} {die : BitVec 4} {data : Word}

theorem State.writePacer_off (h : data.getLsbD 0 = false) :
    s.writePacer die data = s.updDie die fun d =>
      { d with pacer := (s.die die).pacer.set false data (s.die die).pacer.seq (s.die die).pacer.now } := by
  unfold State.writePacer
  simp only [h, Bool.false_eq_true, if_false]
  rfl

theorem State.writePacer_on (h : data.getLsbD 0 = true) : s.writePacer die data =
    (s.updDie die fun d => { d with pacer := (s.die die).pacer.set true data 0 (s.die die).pacer.period }).paceRelease die := by
  unfold State.writePacer
  simp only [h, if_true]
  rfl

/-- A pacer without a period releases nothing. -/
theorem State.writePacer_idle (h : data.getLsbD 0 = true) (none : (s.die die).pacer.period = 0) :
    s.writePacer die data = s.updDie die fun d => { d with pacer := (s.die die).pacer.set true data 0 0 } := by
  rw [State.writePacer_on h, none, State.paceRelease, State.die_updDie_same]
  exact if_neg fun both => both.2 rfl

/-- A pacer with a period sends its first release at once, and its first period begins. -/
theorem State.writePacer_starts (h : data.getLsbD 0 = true) (some : (s.die die).pacer.period ≠ 0) :
    ∃ (y : Transit) (a : Arr), (s.writePacer die data).net = s.net ++ [y] ∧ y.dst = bits data 4 18 ∧ y.cargo = .message a ∧
      hdrType a.msg.hdr = 0x05 ∧
      a.msg.payload = [(s.die die).pacer.rcb.setWidth 64, (bits data 1 3 : BitVec 3).setWidth 64] ∧
      ((s.writePacer die data).die die).pacer = (s.die die).pacer.set true data 1 (s.die die).pacer.period ∧
      SameMemory s (s.writePacer die data) := by
  rw [State.writePacer_on h, State.paceRelease, State.die_updDie_same]
  dsimp only
  rw [if_pos ⟨rfl, some⟩]
  refine ⟨_, _, rfl, rfl, rfl, hdrType_mkHdr _ _ _ _ _ _ (by decide), ?_, ?_, ?_⟩
  · have word : (0#32 ++ 0#29 ++ (bits data 1 3 : BitVec 3) : Word) = (bits data 1 3 : BitVec 3).setWidth 64 :=
      (congrArg (fun z : BitVec 61 => z ++ (bits data 1 3 : BitVec 3)) (by decide : 0#32 ++ 0#29 = 0#61)).trans
        (BitVec.setWidth_eq_append (by decide)).symm
    exact congrArg (fun w : Word => [(s.die die).pacer.rcb.setWidth 64, w]) word
  · have copied (t : State) (y : Transit) (f g : Die → Die) : (((t.updDie die f).post y).updDie die g).die die = g (f (t.die die)) := by
      rw [State.die_updDie_same, ← State.die_updDie_same t die f]; rfl
    exact congrArg Die.pacer (copied s _ _ _)
  · refine (sameMemory_updDie s die _ ?_).trans (SameMemory.trans (sameMemory_post _ _) (sameMemory_updDie _ die _ ?_))
    · exact fun _ => rfl
    · exact fun _ => rfl

end

/-! ### Core checks and core resets (R445, R446) -/

/-- Core n stopped, with a record at the controller. -/
def State.recordStop (s : State) (n : CoreId) : State :=
  { s.updCore n (fun k => { k with stopped := true }) with ctrlLog := s.ctrlLog ++ [(0x01, n.setWidth 64)] }

theorem State.stopCore_eq (s : State) (n : CoreId) :
    s.stopCore n = (s.recordStop n).alert ((s.recordStop n).serviceCore (sectorOf n)) (n.setWidth 64) := rfl

theorem State.core_recordStop_same (s : State) (n : CoreId) : (s.recordStop n).core n = { s.core n with stopped := true } :=
  State.core_updCore_same s n fun k => { k with stopped := true }

theorem State.core_recordStop_other (s : State) {n m : CoreId} (h : m ≠ n) : (s.recordStop n).core m = s.core m :=
  State.core_updCore_other s (fun k => { k with stopped := true }) h

/-- A core below level 7 that runs and is not idle is alerted by an entry to its supervisor (R348). -/
theorem State.alert_running {s : State} {n : CoreId} (a : Word) (free : (s.core n).level.toNat < 7) (up : (s.core n).stopped = false) :
    s.alert n a = s.enterTrap n 0 a (s.core n).pc true := by
  have low : (s.core n).level ≠ 7 := fun e => absurd free (by rw [e]; decide)
  have busy : (s.core n).level ≠ 0xF := fun e => absurd free (by rw [e]; decide)
  rw [State.alert, if_neg (not_or.2 ⟨low, by simp [up]⟩), if_neg busy]

/-- A core check stops the core and tells the service core of its sector, where that is another core that can take it. -/
theorem State.stopCore_told {s : State} {n m : CoreId} (hm : s.serviceCore (sectorOf n) = m) (ne : m ≠ n)
    (free : (s.core m).level.toNat < 7) (up : (s.core m).stopped = false) :
    ((s.stopCore n).core n).stopped = true ∧ ((s.stopCore n).core n).pc = (s.core n).pc ∧
      (s.stopCore n).ctrlLog = s.ctrlLog ++ [(0x01, n.setWidth 64)] ∧
      EntersSupervisor (s.core m) ((s.stopCore n).core m) 0 (n.setWidth 64) (s.core m).pc true := by
  have other := s.core_recordStop_other ne
  have trap : s.stopCore n = (s.recordStop n).enterTrap m 0 (n.setWidth 64) (s.core m).pc true := by
    rw [State.stopCore_eq, show (s.recordStop n).serviceCore (sectorOf n) = m from hm, State.alert_running, other]
    · rw [other]; exact free
    · rw [other]; exact up
  have enters := entersSupervisor_enterTrap (s.recordStop n) m 0 (n.setWidth 64) (s.core m).pc true fun e =>
    absurd free (by rw [← other, e]; decide)
  obtain ⟨x, core, _⟩ := enterTrap_others (s.recordStop n) 0 (n.setWidth 64) (s.core m).pc true ne.symm
  have log := congrArg State.ctrlLog (enterTrap_fields (s.recordStop n) m 0 (n.setWidth 64) (s.core m).pc true)
  rw [other] at enters
  rw [trap, core, State.core_recordStop_same]
  exact ⟨rfl, rfl, log, enters⟩

/-- From s to t a core stays as it is but for its membership, and no message leaves. -/
def CoreKept (d : CoreId) (s t : State) : Prop := (s.core d).AlikeButMember (t.core d) ∧ t.net = s.net

theorem CoreKept.refl {d : CoreId} (s : State) : CoreKept d s s := ⟨Core.AlikeButMember.refl _, rfl⟩

theorem CoreKept.trans {d : CoreId} {s t u : State} (h : CoreKept d s t) (k : CoreKept d t u) : CoreKept d s u :=
  ⟨h.1.trans k.1, k.2.trans h.2⟩

theorem MembersOnly.net {s t : State} (h : MembersOnly s t) : t.net = s.net := by rw [h.1]

theorem MembersOnly.coreKept {d : CoreId} {s t : State} (h : MembersOnly s t) : CoreKept d s t := ⟨h.2 d, h.net⟩

theorem coreKept_updCore_other {d n : CoreId} (s : State) (f : Core → Core) (h : d ≠ n) : CoreKept d s (s.updCore n f) := by
  refine ⟨?_, rfl⟩
  rw [State.core_updCore_other s f h]
  exact Core.AlikeButMember.refl _

theorem coreKept_endMember_other {d n : CoreId} (s : State) (l : BitVec 3) (h : d ≠ n) : CoreKept d s (s.endMember n l) := by
  unfold State.endMember
  split
  · split
    · exact (membersOnly_detachFollowers s n).coreKept.trans (coreKept_updCore_other _ _ h)
    · exact CoreKept.refl s
  · exact CoreKept.refl s

/-- What a core reset ends of the core's frames, before the core is set. -/
def State.endForReset (s : State) (n : CoreId) : State :=
  (((s.detachFollowers n).endOf n (s.core n).lvl).unpin n).dropTcmMoorings n

/-- The reset of one core changes no more than memberships of the others. -/
theorem coreKept_resetCore_other {d n : CoreId} (s : State) (h : d ≠ n) : CoreKept d s (s.resetCore n) := by
  have ended : CoreKept d s (s.endForReset n) :=
    ((membersOnly_detachFollowers s n).coreKept.trans
      ((coreKept_endMember_other _ _ h).trans (coreKept_updCore_other _ _ h))).trans
        ((membersOnly_unpin _ n).coreKept.trans ⟨Core.AlikeButMember.refl _, rfl⟩)
  exact ended.trans (coreKept_updCore_other _ _ h)

/-- A core has become one that differs in what the end of a frame touches. -/
def Core.AlikeButFrame (c d : Core) : Prop :=
  d = { c with member := d.member, sfu := d.sfu, hprog := d.hprog, banks := d.banks, replies := d.replies, heldTraps := d.heldTraps }

theorem Core.AlikeButFrame.trans {c d e : Core} (h : c.AlikeButFrame d) (k : d.AlikeButFrame e) : c.AlikeButFrame e := by
  unfold Core.AlikeButFrame at h k ⊢
  rw [h] at k
  exact k

theorem Core.AlikeButMember.alikeButFrame {c d : Core} (h : c.AlikeButMember d) : c.AlikeButFrame d := by
  obtain ⟨x, rfl, _⟩ := h
  rfl

theorem alikeButFrame_endMember (s : State) (n : CoreId) (l : BitVec 3) : (s.core n).AlikeButFrame ((s.endMember n l).core n) := by
  unfold State.endMember
  split
  · split
    · refine Core.AlikeButFrame.trans ((membersOnly_detachFollowers s n).2 n).alikeButFrame ?_
      rw [State.core_updCore_same]
      generalize (s.detachFollowers n).core n = c
      rfl
    · rfl
  · rfl

theorem alikeButFrame_endForReset (s : State) (n : CoreId) : (s.core n).AlikeButFrame ((s.endForReset n).core n) := by
  have before := ((membersOnly_detachFollowers s n).2 n).alikeButFrame
  have ended := alikeButFrame_endMember (s.detachFollowers n) n (s.core n).lvl
  have last : (((s.detachFollowers n).endMember n (s.core n).lvl).core n).AlikeButFrame
      (((s.detachFollowers n).endOf n (s.core n).lvl).core n) := by
    rw [State.endOf, State.core_updCore_same]
    generalize ((s.detachFollowers n).endMember n (s.core n).lvl).core n = c
    rfl
  exact ((before.trans ended).trans last).trans ((membersOnly_unpin _ n).2 n).alikeButFrame

theorem State.endMember_net (s : State) (n : CoreId) (l : BitVec 3) : (s.endMember n l).net = s.net := by
  unfold State.endMember
  split
  · split
    · exact (membersOnly_detachFollowers s n).net
    · rfl
  · rfl

theorem State.endForReset_net (s : State) (n : CoreId) : (s.endForReset n).net = s.net := by
  have members := (membersOnly_detachFollowers s n).net
  have ended := State.endMember_net (s.detachFollowers n) n (s.core n).lvl
  exact ((membersOnly_unpin ((s.detachFollowers n).endOf n (s.core n).lvl) n).net.trans ended).trans members

/-- What a reset writes to a core whose frames have ended (R446). -/
def Core.wiped (c : Core) : Core :=
  let f := c.fresh
  let c := c.cleared
  { c with dom := f.dom, vbase := f.vbase, sp := f.vbase, slim := f.slim, ceil := f.ceil, wdog := f.wdog, seed := f.seed, sctr := f.sctr
           d := f.d, q := f.q, tcm := f.tcm, tcmFe := [], tcmPoison := [], stalls := .replicate 8 0, epc := 0, addr := 0, xcause := 0,
           xepc := 0, wasReset := true, closing := []
           level := 0xF, thresh := 0xF, banks := .replicate 8 Bank.reset, b := .replicate 4 0, pc := 0, copyQ := [],
           matQ := [], remQ := c.remQ.filter (fun (q : RemCmd) => q.passed)
           estCopy := .reset, estMat := .reset, estRem := .reset, sbuf := [], flight := [],
           deliver := [], replies := [], sfu := [], unacked := [], acks := [], heldTraps := [], binding := none,
           budgets := [], stopped := false, asleep := false, plb := .replicate 16 PlbEntry.reset, icache := [],
           entryBuf := .replicate 8 [], locked := [], run7 := 0, cause := 0xF00, mig := false, hprog := 0, hpc := 0 }

theorem State.resetCore_eq (s : State) (n : CoreId) : s.resetCore n = (s.endForReset n).updCore n Core.wiped := rfl

/-- A core without a membership stays as it is where no more than memberships change. -/
theorem Core.AlikeButMember.eq {c d : Core} (h : c.AlikeButMember d) (none : c.member = none) : d = c := by
  obtain ⟨x, rfl, hx⟩ := h
  rw [hx none, ← none]

/-- A core that has been reset, before other cores are. -/
theorem CoreKept.ofReset {d : CoreId} {t u : State} (h : CoreKept d (t.resetCore d) u) :
    ∃ k, (t.core d).AlikeButFrame k ∧ u.core d = k.wiped ∧ u.net = t.net := by
  have own : (t.resetCore d).core d = ((t.endForReset d).core d).wiped := by rw [State.resetCore_eq, State.core_updCore_same]
  have net : (t.resetCore d).net = t.net := t.endForReset_net d
  exact ⟨_, alikeButFrame_endForReset t d, (h.1.eq (by rw [own]; rfl)).trans own, h.2.trans net⟩

/-- A core after a write of creset that names it: as a reset leaves a core whose frames have ended, whatever other cores it names. -/
theorem State.coreReset_core (s : State) (cl : BitVec 14) {data : Word} {i : Nat} (hi : i < 16) (named : data.getLsbD i = true) :
    let u := s.writeCluster cl 0x048 data
    ∃ k, (s.core (coreOf cl i)).AlikeButFrame k ∧ u.core (coreOf cl i) = k.wiped ∧ u.net = s.net := by
  have others (s : State) (j : Nat) (hj : j < 0 + 16) (ne : j ≠ i) :
      CoreKept (coreOf cl i) s (if data.getLsbD j then s.resetCore (coreOf cl j) else s) := by
    split
    · exact coreKept_resetCore_other s (coreOf_ne cl hi (by omega) ne.symm)
    · exact CoreKept.refl s
  obtain ⟨t, before, after⟩ := foldl_upFrom_at (CoreKept (coreOf cl i)) CoreKept.refl CoreKept.trans others (Nat.zero_le _) (by omega) s
  rw [if_pos named] at after
  obtain ⟨k, alike, core, net⟩ := after.ofReset
  exact ⟨k, before.1.alikeButFrame.trans alike, core, net.trans before.2⟩

end Sys2Proof.Machine
end

section
/-! ## Power, heat and the management space: writes of the windows' registers -/

namespace Sys2Proof.Machine

/-! ### Addresses of the management space (R433) -/

/-- The fields of a management address. -/
theorem mgmtFields_eq {a cls unit off : Nat} {die : BitVec 4} (h : a = 0xFF * 2 ^ 48 + cls * 2 ^ 44 + die.toNat * 2 ^ 40 + unit * 2 ^ 16 + off)
    (class_ : cls < 5 ∧ cls ≠ 1) (single : 2 ≤ cls → unit = 0) (fits : unit < 1024) (inWindow : off < 65536) :
    mgmtFields a = some (cls, die, BitVec.ofNat 10 unit, off) := by
  have dieFits := die.isLt
  have hcls : a / 2 ^ 44 % 16 = cls := by omega
  have hunit : a / 2 ^ 16 % 1024 = unit := by omega
  have hoff : a % 65536 = off := by omega
  have hdie : BitVec.ofNat 4 (a / 2 ^ 40) = die := by
    apply BitVec.eq_of_toNat_eq
    rw [BitVec.toNat_ofNat]
    omega
  have reserved : ¬ a / 2 ^ 26 % 2 ^ 14 ≠ 0 := by omega
  simp only [mgmtFields, hcls, hunit, hoff, hdie, if_neg reserved]
  rw [if_neg (by omega)]

section
variable {s : State} {va : BitVec 56} (data : Word)

/-- A write outside the space, unaligned or with a reserved field does nothing. -/
theorem exec_mgmt_outside (h : va.toNat / 2 ^ 48 ≠ 0xFF ∨ va.toNat % 8 ≠ 0 ∨ va.toNat / 2 ^ 26 % 2 ^ 14 ≠ 0) :
    exec (.mgmtRegisterWrite va data) s = .next s := by
  have fits := va.isLt
  refine congrArg Host.Outcome.next ?_
  by_cases taken : isMgmt va.toNat ∧ va.toNat % 8 = 0
  · obtain ⟨inside, aligned⟩ := taken
    have top : va.toNat / 2 ^ 48 = 0xFF := by
      have : va.toNat / 2 ^ 48 % 256 = 0xFF := by simpa [isMgmt] using inside
      omega
    have reserved : va.toNat / 2 ^ 26 % 2 ^ 14 ≠ 0 := by
      rcases h with h | h | h
      · exact absurd top h
      · exact absurd aligned h
      · exact h
    rw [if_pos ⟨inside, aligned⟩, State.mgmtWrite, mgmtFields]
    simp only [if_pos reserved]
  · exact if_neg taken

theorem exec_mgmt {cls unit off : Nat} {die : BitVec 4}
    (h : va.toNat = 0xFF * 2 ^ 48 + cls * 2 ^ 44 + die.toNat * 2 ^ 40 + unit * 2 ^ 16 + off)
    (class_ : cls < 5 ∧ cls ≠ 1) (fits : unit < 1024) (aligned : off % 8 = 0) :
    exec (.mgmtRegisterWrite va data) s = .next (s.mgmtWrite va.toNat data) := by
  have inside : isMgmt va.toNat = true := by
    have := die.isLt
    have := va.isLt
    simp only [isMgmt, beq_iff_eq]
    omega
  exact congrArg Host.Outcome.next (if_pos ⟨inside, by omega⟩)

variable {die : BitVec 4} {off : Nat}

/-- A write in a cluster's window (R434). -/
theorem exec_mgmt_cluster {unit : BitVec 10}
    (h : va.toNat = 0xFF * 2 ^ 48 + 0 * 2 ^ 44 + die.toNat * 2 ^ 40 + (unit.toNat * 2 ^ 16 + off)) (inWindow : off < 65536)
    (aligned : off % 8 = 0) : exec (.mgmtRegisterWrite va data) s = .next (s.writeCluster (die ++ unit) off data) := by
  have at_ := h.trans (Nat.add_assoc _ (unit.toNat * 2 ^ 16) off).symm
  rw [exec_mgmt data at_ (by decide) unit.isLt aligned, State.mgmtWrite, mgmtFields_eq at_ (by decide) nofun unit.isLt inWindow,
    BitVec.ofNat_toNat, BitVec.setWidth_eq]
  rfl

theorem mgmtFields_window {cls : Nat} (h : va.toNat = 0xFF * 2 ^ 48 + cls * 2 ^ 44 + die.toNat * 2 ^ 40 + off)
    (class_ : cls < 5 ∧ cls ≠ 1) (inWindow : off < 65536) (aligned : off % 8 = 0) :
    exec (.mgmtRegisterWrite va data) s = .next (s.mgmtWrite va.toNat data) ∧ mgmtFields va.toNat = some (cls, die, BitVec.ofNat 10 0, off) := by
  have at_ : va.toNat = 0xFF * 2 ^ 48 + cls * 2 ^ 44 + die.toNat * 2 ^ 40 + 0 * 2 ^ 16 + off := by rw [Nat.zero_mul, Nat.add_zero]; exact h
  exact ⟨exec_mgmt data at_ class_ (by decide) aligned, mgmtFields_eq at_ class_ (fun _ => rfl) (by decide) inWindow⟩

/-- A write in a die's window (R445). -/
theorem exec_mgmt_die (h : va.toNat = 0xFF * 2 ^ 48 + 2 * 2 ^ 44 + die.toNat * 2 ^ 40 + off) (inWindow : off < 65536)
    (aligned : off % 8 = 0) : exec (.mgmtRegisterWrite va data) s = .next (s.writeDie die off data) := by
  obtain ⟨taken, fields⟩ := mgmtFields_window (s := s) data h (by decide) inWindow aligned
  rw [taken, State.mgmtWrite, fields]
  rfl

/-- A write in a quay die's window (R449). -/
theorem exec_mgmt_quay (h : va.toNat = 0xFF * 2 ^ 48 + 3 * 2 ^ 44 + die.toNat * 2 ^ 40 + off) (inWindow : off < 65536)
    (aligned : off % 8 = 0) : exec (.mgmtRegisterWrite va data) s = .next (s.writeQuay die off data) := by
  obtain ⟨taken, fields⟩ := mgmtFields_window (s := s) data h (by decide) inWindow aligned
  rw [taken, State.mgmtWrite, fields]
  rfl

/-- A write in an encoder's window (R431). -/
theorem exec_mgmt_enc (h : va.toNat = 0xFF * 2 ^ 48 + 4 * 2 ^ 44 + die.toNat * 2 ^ 40 + off) (inWindow : off < 65536)
    (aligned : off % 8 = 0) : exec (.mgmtRegisterWrite va data) s = .next (s.writeEnc die off data) := by
  obtain ⟨taken, fields⟩ := mgmtFields_window (s := s) data h (by decide) inWindow aligned
  rw [taken, State.mgmtWrite, fields]
  rfl

/-- A word of key material written. -/
theorem State.writeQuay_material (s : State) (bay : BitVec 4) {i : Nat} (h : i < 8) :
    s.writeQuay bay (0x040 + 8 * i) data = s.updQuay bay fun q => { q with material := q.material.setIfInBounds i data } := by
  rw [State.writeQuay, if_neg (by omega), if_pos (by omega), show (0x040 + 8 * i - 0x40) / 8 = i by omega]

end

/-! ### The limit of temperatures written (R444) -/

/-- From s to t nothing is told to core c of a cluster, and its armed flag stays. -/
def HeatKept (cl : BitVec 14) (c : Nat) (s t : State) : Prop :=
  SameMemory s t ∧ t.core (coreOf cl c) = s.core (coreOf cl c) ∧
    t.cluster cl = { s.cluster cl with armed := (t.cluster cl).armed } ∧
    (t.cluster cl).armed.getLsbD c = (s.cluster cl).armed.getLsbD c

theorem HeatKept.refl {cl : BitVec 14} {c : Nat} (s : State) : HeatKept cl c s s := ⟨SameMemory.refl s, rfl, rfl, rfl⟩

theorem HeatKept.trans {cl : BitVec 14} {c : Nat} {s t u : State} (h : HeatKept cl c s t) (k : HeatKept cl c t u) :
    HeatKept cl c s u := by
  obtain ⟨mem, core, cluster, armed⟩ := h
  obtain ⟨mem', core', cluster', armed'⟩ := k
  refine ⟨mem.trans mem', core'.trans core, ?_, armed'.trans armed⟩
  rw [cluster] at cluster'
  exact cluster'

section
variable {s : State} {cl : BitVec 14} {c i : Nat}

theorem heatKept_updCluster (f : BitVec 16 → BitVec 16) (h : ∀ x, (f x).getLsbD c = x.getLsbD c) :
    HeatKept cl c s (s.updCluster cl fun k => { k with armed := f k.armed }) := by
  refine ⟨sameMemory_updCluster s cl _ fun _ => rfl, rfl, ?_, ?_⟩
  · rw [State.cluster_updCluster_same]
  · rw [State.cluster_updCluster_same]; exact h _

theorem heatKept_rearm_other (hi : i < 16) (hc : c < 16) (ne : i ≠ c) : HeatKept cl c s (s.rearm (coreOf cl i)) := by
  rcases s.rearm_eq (coreOf cl i) with e | e <;> rw [e]
  · exact HeatKept.refl s
  · rw [clusterOf_coreOf, slotOf_coreOf_toNat cl hi]
    exact heatKept_updCluster _ fun x => by rw [getLsbD_setBit x i hc]; simp [ne.symm]

theorem heatKept_notifyHeat_other (hi : i < 16) (hc : c < 16) (ne : i ≠ c) : HeatKept cl c s (s.notifyHeat (coreOf cl i)) := by
  by_cases h : (s.cluster (clusterOf (coreOf cl i))).tells (slotOf (coreOf cl i))
  · obtain ⟨y, a, e, _⟩ := State.notifyHeat_tells h
    rw [e, clusterOf_coreOf, slotOf_coreOf_toNat cl hi]
    refine (heatKept_updCluster (fun x => x &&& ~~~(1#16 <<< i)) fun x => ?_).trans ⟨?_, ?_, rfl, rfl⟩
    · rw [getLsbD_clearBit x i hc]; simp [ne.symm]
    · exact sameMemory_updCore _ _ _ fun _ => rfl
    · exact State.core_updCore_other _ _ (coreOf_ne cl hc hi ne.symm)
  · rw [State.notifyHeat_quiet h]; exact HeatKept.refl s

end

/-- Temperature that core i of a cluster has read. -/
def Cluster.tempOf (k : Cluster) (i : BitVec 4) : Byte := k.temp.get i.toFin

/-- The armed flag of core i after its turn of arming. -/
def Cluster.armedAfter (k : Cluster) (i : BitVec 4) : Bool :=
  k.armed.getLsbD i.toNat || decide ((k.tempOf i).toNat + k.hyst.toNat ≤ k.tlim.toNat)

/-- Core i is told its temperature after its turn of arming. -/
def Cluster.tellsAfter (k : Cluster) (i : BitVec 4) : Bool :=
  k.armedAfter i && k.nmask.getLsbD i.toNat && decide (k.tlim.toNat ≤ (k.tempOf i).toNat)

/-- The turn of one core when the limits are written: it is armed again where it may be, and told where it is armed (R444). -/
def State.heatTurn (s : State) (n : CoreId) : State := (s.rearm n).notifyHeat n

theorem State.tells_rearm (s : State) (n : CoreId) :
    ((s.rearm n).cluster (clusterOf n)).tells (slotOf n) ↔ (s.cluster (clusterOf n)).tellsAfter (slotOf n) = true := by
  have bit := s.rearm_armed n
  rw [Cluster.tells, bit, State.rearm_cluster]
  simp only [Cluster.tellsAfter, Cluster.armedAfter, Bool.and_eq_true, decide_eq_true_eq, and_assoc]
  exact Iff.rfl

theorem State.heatTurn_quiet {s : State} {n : CoreId} (h : (s.cluster (clusterOf n)).tellsAfter (slotOf n) = false) :
    s.heatTurn n = s.rearm n :=
  State.notifyHeat_quiet fun tells => by rw [State.tells_rearm, h] at tells; exact absurd tells nofun

theorem sameMemory_notifyHeat (s : State) (n : CoreId) : SameMemory s (s.notifyHeat n) := by
  by_cases h : (s.cluster (clusterOf n)).tells (slotOf n)
  · obtain ⟨y, a, e, _⟩ := State.notifyHeat_tells h
    rw [e]
    refine (sameMemory_updCluster s _ _ ?_).trans (sameMemory_updCore _ n _ ?_)
    · exact fun _ => rfl
    · exact fun _ => rfl
  · rw [State.notifyHeat_quiet h]; exact SameMemory.refl s

/-- Of the cluster, a turn of a core changes the armed flags. -/
theorem State.heatTurn_cluster (s : State) (n : CoreId) :
    let u := s.heatTurn n
    let k := s.cluster (clusterOf n)
    u.cluster (clusterOf n) = { k with armed := (u.cluster (clusterOf n)).armed } ∧
      (u.cluster (clusterOf n)).armed.getLsbD (slotOf n).toNat = (k.armedAfter (slotOf n) && !k.tellsAfter (slotOf n)) := by
  have armed := s.rearm_cluster n
  have bit := s.rearm_armed n
  dsimp only
  cases h : (s.cluster (clusterOf n)).tellsAfter (slotOf n) with
  | false =>
    rw [State.heatTurn_quiet h]
    refine ⟨by rw [armed], ?_⟩
    rw [Bool.not_false, Bool.and_true]
    exact bit
  | true =>
    obtain ⟨y, a, e, _⟩ := State.notifyHeat_tells ((s.tells_rearm n).2 h)
    have after : (s.heatTurn n).cluster (clusterOf n) = { (s.rearm n).cluster (clusterOf n) with
        armed := ((s.rearm n).cluster (clusterOf n)).armed &&& ~~~(1#16 <<< (slotOf n).toNat) } := by
      rw [State.heatTurn, e]
      exact State.cluster_updCluster_same (s.rearm n) (clusterOf n) fun k =>
        { k with armed := k.armed &&& ~~~(1#16 <<< (slotOf n).toNat) }
    refine ⟨by rw [after, armed], ?_⟩
    rw [after, getLsbD_clearBit _ _ (slotOf n).isLt]
    simp

/-- A core that is told its temperature gets one message of type 0x0C. -/
theorem State.heatTurn_told {s : State} {n : CoreId} (h : (s.cluster (clusterOf n)).tellsAfter (slotOf n) = true) :
    ∃ (y : Transit) (a : Arr), (s.heatTurn n).core n = { s.core n with ni := (s.core n).ni ++ [y] } ∧ y.cargo = .message a ∧
      hdrType a.msg.hdr = 0x0C ∧
      a.msg.payload = [((s.cluster (clusterOf n)).tempOf (slotOf n)).setWidth 64, BitVec.ofNat 64 (slotOf n).toNat] := by
  obtain ⟨y, a, e, cargo, type, _, payload⟩ := State.notifyHeat_tells ((s.tells_rearm n).2 h)
  refine ⟨y, a, ?_, cargo, type, ?_⟩
  · rw [State.heatTurn, e, State.core_updCore_same]
    exact congrArg (fun c : Core => { c with ni := c.ni ++ [y] }) (s.rearm_core n n)
  · rw [payload, State.rearm_cluster]
    rfl

/-- The limits written, before the cores' turns. -/
def State.setLimits (s : State) (cl : BitVec 14) (x : Word) : State :=
  s.updCluster cl fun k => { k with tlim := bits x 0 8, hyst := bits x 8 8, nmask := bits x 16 16 }

/-- Writing the limits gives every core of the cluster its turn, and each turn is about its own core. -/
theorem State.writeLimits_core (s : State) (cl : BitVec 14) (x : Word) {i : Nat} (hi : i < 16) :
    ∃ t, HeatKept cl i (s.setLimits cl x) t ∧ HeatKept cl i (t.heatTurn (coreOf cl i)) (s.writeCluster cl 0x030 x) :=
  foldl_upFrom_at (HeatKept cl i) HeatKept.refl HeatKept.trans (f := fun s i => s.heatTurn (coreOf cl i))
    (fun s _ hj ne => (heatKept_rearm_other (by omega) hi ne).trans (heatKept_notifyHeat_other (by omega) hi ne))
    (Nat.zero_le _) (by omega) _

/-- The turns of other cores say nothing of a core's own. -/
theorem HeatKept.turn {cl : BitVec 14} {i : Nat} {s t : State} (h : HeatKept cl i s t) {j : BitVec 4} (hj : j.toNat = i) :
    (t.cluster cl).armedAfter j = (s.cluster cl).armedAfter j ∧ (t.cluster cl).tellsAfter j = (s.cluster cl).tellsAfter j ∧
      (t.cluster cl).tempOf j = (s.cluster cl).tempOf j := by
  obtain ⟨_, _, cluster, bit⟩ := h
  have armed : (t.cluster cl).armedAfter j = (s.cluster cl).armedAfter j := by
    rw [Cluster.armedAfter, hj, bit, cluster, Cluster.armedAfter, hj]; rfl
  refine ⟨armed, ?_, by rw [cluster]; rfl⟩
  rw [Cluster.tellsAfter, armed, cluster]
  rfl

/-- What a write of the limits does to core i of the cluster. -/
theorem State.writeLimits_effect (s : State) (cl : BitVec 14) (x : Word) {i : Nat} (hi : i < 16) :
    let n := coreOf cl i
    let k := (s.setLimits cl x).cluster cl
    let u := s.writeCluster cl 0x030 x
    SameMemory s u ∧ u.cluster cl = { k with armed := (u.cluster cl).armed } ∧
      (u.cluster cl).armed.getLsbD i = (k.armedAfter (slotOf n) && !k.tellsAfter (slotOf n)) ∧
      (k.tellsAfter (slotOf n) = false → u.core n = s.core n) ∧
      (k.tellsAfter (slotOf n) = true → ∃ (y : Transit) (a : Arr), u.core n = { s.core n with ni := (s.core n).ni ++ [y] } ∧
        y.cargo = .message a ∧ hdrType a.msg.hdr = 0x0C ∧
        a.msg.payload = [(k.tempOf (slotOf n)).setWidth 64, BitVec.ofNat 64 i]) := by
  obtain ⟨t, before, ⟨mem', core', cluster', armed'⟩⟩ := s.writeLimits_core cl x hi
  have slot := slotOf_coreOf_toNat cl hi
  obtain ⟨sameArmed, sameTells, sameTemp⟩ := before.turn slot
  obtain ⟨mem, core, cluster, _⟩ := before
  obtain ⟨turnCluster, turnArmed⟩ := t.heatTurn_cluster (coreOf cl i)
  rw [clusterOf_coreOf] at turnCluster turnArmed
  rw [slot, sameArmed, sameTells] at turnArmed
  have written : SameMemory s (s.setLimits cl x) := sameMemory_updCluster s cl _ fun _ => rfl
  have turned : SameMemory t (t.heatTurn (coreOf cl i)) := (sameMemory_rearm t _).trans (sameMemory_notifyHeat _ _)
  refine ⟨((written.trans mem).trans turned).trans mem', ?_, armed'.trans turnArmed, fun quiet => ?_, fun told => ?_⟩
  · rw [turnCluster, cluster] at cluster'
    exact cluster'
  · rw [← sameTells] at quiet
    rw [core', State.heatTurn_quiet (by rw [clusterOf_coreOf]; exact quiet), State.rearm_core, core]
    rfl
  · rw [← sameTells] at told
    obtain ⟨y, a, turn, cargo, type, payload⟩ := State.heatTurn_told (s := t) (n := coreOf cl i) (by rw [clusterOf_coreOf]; exact told)
    refine ⟨y, a, ?_, cargo, type, ?_⟩
    · rw [core', turn, core]; rfl
    · rw [payload, clusterOf_coreOf, sameTemp, slot]

end Sys2Proof.Machine
end

section
/-! ## Events of power, heat and the management space -/

namespace Sys2Proof.Machine

/-- What a request that drains leaves of the cluster, other than the requests themselves. -/
theorem State.beginDrain_upd (s : State) (cl : BitVec 14) (f : Cluster → Cluster) :
    let u := (s.updCluster cl f).beginDrain cl
    u.cluster cl = { f (s.cluster cl) with gstate := 1, frames := [], refills := [] } := by
  dsimp only
  rw [State.beginDrain_cluster, State.cluster_updCluster_same]

theorem State.cluster_updCore (s : State) (n : CoreId) (f : Core → Core) (cl : BitVec 14) :
    (s.updCore n f).cluster cl = s.cluster cl := rfl

theorem State.core_updCluster (s : State) (cl : BitVec 14) (f : Cluster → Cluster) (n : CoreId) :
    (s.updCluster cl f).core n = s.core n := rfl

/-- After the whole cluster has been gated it is awake, and its cores are as at reset (R440). -/
theorem State.endWake_all (s : State) {cl : BitVec 14} (h : (s.cluster cl).waking = true) (all : (s.cluster cl).gstate = 3) :
    let u := s.endWake cl
    (u.cluster cl).waking = false ∧ (u.cluster cl).gstate = 0 ∧
      ∀ i, i < 16 → u.core (coreOf cl i) = { Core.reset (coreOf cl i) with ni := (s.core (coreOf cl i)).ni } := by
  dsimp only
  rw [State.endWake_cluster h all, State.cluster_updCluster_same]
  refine ⟨rfl, ?_, fun i hi => ?_⟩
  · rw [State.clearCores_cluster]
    exact if_neg fun both => both.2 all
  · rw [State.core_updCluster, State.clearCores_core s cl hi]

theorem sameMemory_setTemp (s : State) (n : CoreId) (t : Byte) : SameMemory s (s.setTemp n t) :=
  sameMemory_updCluster s (clusterOf n) (fun k => { k with temp := k.temp.set (slotOf n).toFin t }) fun _ => rfl

theorem tells_setTemp (s : State) (n : CoreId) (t : Byte) :
    let k := s.cluster (clusterOf n)
    ((s.setTemp n t).cluster (clusterOf n)).tells (slotOf n) ↔
      k.armed.getLsbD (slotOf n).toNat = true ∧ k.nmask.getLsbD (slotOf n).toNat = true ∧ k.tlim.toNat ≤ t.toNat := by
  dsimp only
  rw [temp_setTemp, Cluster.tells, vecGet_set_same]

/-- A core that is told the temperature it reads (R444). -/
theorem State.notifyHeat_setTemp {s : State} {n : CoreId} {t : Byte} (h : (s.cluster (clusterOf n)).armed.getLsbD (slotOf n).toNat = true ∧
      (s.cluster (clusterOf n)).nmask.getLsbD (slotOf n).toNat = true ∧ (s.cluster (clusterOf n)).tlim.toNat ≤ t.toNat) :
    let u := (s.setTemp n t).notifyHeat n
    ∃ (y : Transit) (a : Arr), (u.cluster (clusterOf n)).temp = (s.cluster (clusterOf n)).temp.set (slotOf n).toFin t ∧
      (u.cluster (clusterOf n)).armed.getLsbD (slotOf n).toNat = false ∧ (u.core n).ni = (s.core n).ni ++ [y] ∧
      y.cargo = .message a ∧ hdrType a.msg.hdr = 0x0C ∧ hdrPrio a.msg.hdr = 7 ∧
      a.msg.payload = [t.setWidth 64, BitVec.ofNat 64 (slotOf n).toNat] := by
  obtain ⟨y, a, e, cargo, type, prio, payload⟩ := State.notifyHeat_tells ((tells_setTemp s n t).2 h)
  have same : (s.setTemp n t).core n = s.core n := rfl
  dsimp only
  rw [temp_setTemp, vecGet_set_same] at payload
  rw [e, State.cluster_updCore, State.cluster_updCluster_same, State.core_updCore_same, State.core_updCluster, same, temp_setTemp]
  refine ⟨y, a, rfl, ?_, rfl, cargo, type, prio, payload⟩
  rw [getLsbD_clearBit _ _ (slotOf n).isLt]
  simp

theorem vecGetBang_eq_tempOf (k : Cluster) {cl : BitVec 14} {i : Nat} (hi : i < 16) :
    k.temp[i]! = k.tempOf (slotOf (coreOf cl i)) := by
  have slot := slotOf_coreOf_toNat cl hi
  rw [Cluster.tempOf, Vector.get_eq_getElem, getElem!_pos k.temp i hi]
  congr 1
  exact slot.symm

theorem State.cluster_setLimits (s : State) (cl : BitVec 14) (x : Word) : (s.setLimits cl x).cluster cl =
    { s.cluster cl with tlim := bits x 0 8, hyst := bits x 8 8, nmask := bits x 16 16 } :=
  State.cluster_updCluster_same s cl fun k => { k with tlim := bits x 0 8, hyst := bits x 8 8, nmask := bits x 16 16 }

/-- Whether a core is armed and told under the limits written. -/
theorem State.setLimits_turn (s : State) (cl : BitVec 14) (x : Word) {i : Nat} (hi : i < 16) :
    let k := (s.setLimits cl x).cluster cl
    let temp := (s.cluster cl).temp[i]!
    let armed := (s.cluster cl).armed.getLsbD i || decide (temp.toNat + (bits x 8 8).toNat ≤ (bits x 0 8).toNat)
    k.tempOf (slotOf (coreOf cl i)) = temp ∧ k.armedAfter (slotOf (coreOf cl i)) = armed ∧
      k.tellsAfter (slotOf (coreOf cl i)) = (armed && x.getLsbD (16 + i) && decide ((bits x 0 8).toNat ≤ temp.toNat)) := by
  have told : (bits x 16 16 : BitVec 16).getLsbD i = x.getLsbD (16 + i) := by simp [bits, hi]
  dsimp only
  rw [vecGetBang_eq_tempOf (s.cluster cl) (cl := cl) hi, State.cluster_setLimits, Cluster.tellsAfter, Cluster.armedAfter,
    slotOf_coreOf_toNat cl hi, told]
  exact ⟨rfl, rfl, rfl⟩

/-- What a reset leaves of a core c whose frames have ended, and what else holds (R446). -/
theorem Core.AlikeButFrame.wiped_fields {c k : Core} (h : c.AlikeButFrame k) {else_ : Prop} (p : else_) :
    let d := k.wiped
    d.level = 0xF ∧ d.thresh = 0xF ∧ d.stopped = false ∧ d.binding = none ∧ d.copyQ = [] ∧ d.matQ = [] ∧ d.closing = [] ∧ d.sbuf = [] ∧
      d.remQ = (c.remQ.filter fun q => q.passed) ∧ d.wasReset = true ∧ d.vbase = c.fresh.vbase ∧ d.sp = c.fresh.vbase ∧
      d.slim = c.fresh.slim ∧ d.ceil = c.fresh.ceil ∧ d.dom = c.fresh.dom ∧ d.wdog = c.fresh.wdog ∧ d.seed = c.fresh.seed ∧
      d.sctr = c.fresh.sctr ∧ d.d = c.fresh.d ∧ d.q = c.fresh.q ∧ d.tcm = c.fresh.tcm ∧ d.banks = .replicate 8 Bank.reset ∧
      d.cause = 0xF00 ∧ d.member = none ∧ d.inbox = c.inbox ∧ d.ni = c.ni ∧ d.lid = c.lid ∧ else_ := by
  have fresh : k.fresh = c.fresh := by rw [h]; rfl
  refine ⟨rfl, rfl, rfl, rfl, rfl, rfl, rfl, rfl, ?_, rfl, ?_, ?_, ?_, ?_, ?_, ?_, ?_, ?_, ?_, ?_, ?_, rfl, rfl, rfl, ?_, ?_, ?_, p⟩
  · rw [h]; rfl
  · exact congrArg Fresh.vbase fresh
  · exact congrArg Fresh.vbase fresh
  · exact congrArg Fresh.slim fresh
  · exact congrArg Fresh.ceil fresh
  · exact congrArg Fresh.dom fresh
  · exact congrArg Fresh.wdog fresh
  · exact congrArg Fresh.seed fresh
  · exact congrArg Fresh.sctr fresh
  · exact congrArg Fresh.d fresh
  · exact congrArg Fresh.q fresh
  · exact congrArg Fresh.tcm fresh
  · rw [h]; rfl
  · rw [h]; rfl
  · rw [h]; rfl

/-- Settles O59: each event through the function of the model that it is, cores of a cluster by the run over all of them. -/
theorem powerEvents : Obligations.PowerEvents := by
  unfold Obligations.PowerEvents
  refine ⟨fun s cl data c b i => ?dividers, fun s cl => ?gating, fun s cl bad gone => ?rails, fun s n temp => ?heat,
    fun s n cl data i => ?checks, fun s die data va => ?pacer, fun s die unit va data i => ?windows⟩
  case dividers =>
    refine ⟨fun h => congrArg Host.Outcome.next (State.writeDividers_of_unbound data h), fun bound info contracts above => ?_,
      _, rfl, s.writeSwitches_core cl data c⟩
    refine ⟨_, rfl, sameMemory_updCluster s cl _ fun _ => rfl, rfl, ?_⟩
    rw [State.writeDividers_field, State.dividerStored_above data bound info contracts above]
  case gating =>
    refine ⟨fun h => ?_, fun h => ?_, fun cg may h => ?_, fun h => ?_, fun h => ?_, fun sg cg h => ?_, fun cg sg h => ?_,
      fun h some => ?_, fun h all => ?_, fun h => ?_⟩
    · refine ⟨_, congrArg Host.Outcome.next (State.requestScratchGate_open h), ?_⟩
      rw [State.beginDrain_upd]
      exact ⟨rfl, rfl, rfl, rfl, rfl⟩
    · exact congrArg Host.Outcome.next (State.requestScratchGate_closed h)
    · refine ⟨_, congrArg Host.Outcome.next (State.requestClusterGate_drains cg may h), ?_⟩
      rw [State.beginDrain_upd]
      exact ⟨rfl, rfl, rfl, rfl, rfl⟩
    · exact congrArg Host.Outcome.next (State.requestClusterGate_refused h)
    · exact congrArg Host.Outcome.next (State.endDrain_draining h)
    · exact congrArg Host.Outcome.next (State.writeGate_scratch sg cg h)
    · exact congrArg Host.Outcome.next (State.writeGate_cluster cg sg h)
    · exact congrArg Host.Outcome.next (State.endWake_scratch h some)
    · exact ⟨_, rfl, s.endWake_all h all⟩
    · exact congrArg Host.Outcome.next (State.endWake_asleep h)
  case rails =>
    have next {x : Nat} (h : (s.cluster cl).railNext bad gone = x) := h ▸ exec_sramRailWindow s cl bad gone
    refine ⟨fun few free above => next ?_, fun few held => next ?_, fun many => next (if_pos many), fun some fit => next ?_, rfl⟩
    · rw [Cluster.railNext]
      exact (if_neg (by omega)).trans (if_pos ⟨few, free, above⟩)
    · rw [Cluster.railNext]
      refine (if_neg (by omega)).trans (if_neg fun lower => ?_)
      obtain ⟨_, free, above⟩ := lower
      rcases held with stops | low
      · exact absurd free (Nat.pos_iff_ne_zero.1 stops)
      · exact absurd above (Nat.not_lt.2 low)
    · rw [Cluster.railNext]
      exact (if_neg (by omega)).trans (if_neg fun lower => by omega)
  case heat =>
    have read := temp_setTemp s n temp
    refine ⟨rfl, rfl, fun tells => ?_, fun quiet => ?_, _, rfl, ?_, ?_, ?_, ?_⟩
    · obtain ⟨y, a, cluster, armed, core, rest⟩ := State.notifyHeat_setTemp tells
      exact ⟨_, y, a, rfl, (sameMemory_setTemp s n temp).trans (sameMemory_notifyHeat _ n), cluster, armed, core, rest⟩
    · exact congrArg Host.Outcome.next (State.notifyHeat_quiet fun tells => quiet ((tells_setTemp s n temp).1 tells))
    · exact (sameMemory_setTemp s n temp).trans (sameMemory_rearm _ _)
    · exact State.rearm_cores _ _
    · rw [State.rearm_cluster, read]
    · rw [State.rearm_armed, read, vecGet_set_same]
  case checks =>
    refine ⟨fun ne free up => ?_, fun hi named => ?_⟩
    · obtain ⟨stopped, pc, log, enters⟩ := State.stopCore_told rfl ne free up
      exact ⟨_, rfl, sameMemory_stopCore s n, stopped, pc, log, enters⟩
    · obtain ⟨k, same, core, net⟩ := s.coreReset_core cl hi named
      have fields := same.wiped_fields net
      rw [← core] at fields
      exact ⟨_, rfl, fields⟩
  case pacer =>
    refine ⟨fun off => congrArg Host.Outcome.next (State.writePacer_off off), fun on period => ?_,
      fun on idle => congrArg Host.Outcome.next (State.writePacer_idle on idle), exec_mgmt_outside data⟩
    obtain ⟨y, a, net, dst, cargo, type, payload, set, mem⟩ := State.writePacer_starts on period
    exact ⟨_, y, a, rfl, mem, net, dst, cargo, type, payload, set⟩
  case windows =>
    refine ⟨fun h => exec_mgmt_cluster data h (by decide) (by decide), fun h => exec_mgmt_cluster data h (by decide) (by decide),
      fun h => exec_mgmt_cluster data h (by decide) (by decide), fun h => exec_mgmt_cluster data h (by decide) (by decide),
      fun h hi => ?limits, fun h => exec_mgmt_cluster data h (by decide) (by decide),
      fun h => exec_mgmt_cluster data h (by decide) (by decide), fun h => exec_mgmt_cluster data h (by decide) (by decide),
      fun h => ?fixed, fun h => exec_mgmt_die data h (by decide) (by decide), fun h => exec_mgmt_die data h (by decide) (by decide),
      fun h => exec_mgmt_die data h (by decide) (by decide), fun h => exec_mgmt_die data h (by decide) (by decide),
      fun h => exec_mgmt_die data h (by decide) (by decide), fun h => exec_mgmt_quay data h (by decide) (by decide),
      fun hi h => (exec_mgmt_quay data h (by omega) (by omega)).trans ?material,
      fun h => exec_mgmt_enc data h (by decide) (by decide), fun h => exec_mgmt_enc data h (by decide) (by decide),
      fun h => exec_mgmt_enc data h (by decide) (by decide), fun h => exec_mgmt_enc data h (by decide) (by decide)⟩
    case material => rw [State.writeQuay_material data s die hi]
    case fixed =>
      rcases h with h | h | h <;> exact exec_mgmt_cluster data h (by decide) (by decide)
    case limits =>
      obtain ⟨mem, cluster, armed, quiet, told⟩ := s.writeLimits_effect (die ++ unit) data hi
      obtain ⟨temp, armedAfter, tellsAfter⟩ := s.setLimits_turn (die ++ unit) data hi
      rw [armedAfter, tellsAfter] at armed
      rw [tellsAfter] at quiet told
      rw [temp] at told
      rw [State.cluster_setLimits] at cluster
      exact ⟨_, exec_mgmt_cluster data h (by decide) (by decide), mem, (congrArg Cluster.tlim cluster :),
        (congrArg Cluster.hyst cluster :), (congrArg Cluster.nmask cluster :), armed, quiet, told⟩

end Sys2Proof.Machine
end

section
/-! ## The watchdogs of a core -/

namespace Sys2Proof.Machine

/-! ### A core that stops (R347) -/

/-- A core that has stopped stays as it is but for its membership and the traps held for it, whichever core is then alerted. -/
theorem State.alert_stopped (s : State) {n : CoreId} (m : CoreId) (a : Word) (h : (s.core n).stopped = true) :
    ∃ (x : Option Member) (l : List HeldTrap), (s.alert m a).core n = { s.core n with member := x, heldTraps := l } := by
  by_cases e : m = n
  · subst e
    rw [State.alert]
    dsimp only
    rw [if_pos (.inr h), State.core_updCore_same]
    exact ⟨_, _, rfl⟩
  · have ne : n ≠ m := fun h => e h.symm
    rw [State.alert]
    dsimp only
    split
    · rw [State.core_updCore_other _ _ ne]
      exact ⟨_, _, rfl⟩
    · obtain ⟨x, core, _⟩ := enterTrap_others s 0 a (if (s.core m).level = 0xF then 0 else (s.core m).pc) true ne
      rw [core]
      exact ⟨x, _, rfl⟩

/-- A trap at level 7 stops the core with its cause and its pc recorded, and changes no other supervisor register. -/
theorem State.core_nestedTrap (s : State) (n : CoreId) (c : BitVec 5) : ∃ (x : Option Member) (l : List HeldTrap),
    (s.nestedTrap n c).core n =
      { s.core n with xcause := c, xepc := (s.core n).pc, stopped := true, member := x, heldTraps := l } := by
  obtain ⟨y, detached, _⟩ := (membersOnly_detach s n).2 n
  let f : Core → Core := fun k => { k with xcause := c, xepc := (s.core n).pc }
  have recorded := ((s.detach n).updCore n f).core_recordStop_same n
  rw [State.core_updCore_same, detached] at recorded
  obtain ⟨x, l, core⟩ := State.alert_stopped (((s.detach n).updCore n f).recordStop n)
    ((((s.detach n).updCore n f).recordStop n).serviceCore (sectorOf n)) (n.setWidth 64) (by rw [recorded])
  refine ⟨x, l, core.trans ?_⟩
  rw [recorded]

/-! ### The stall watchdog (R61) -/

section
variable {s : State} {n : CoreId} {cc : BitVec 40}

theorem toNat_stall_add {stall : BitVec 41} {wdog : BitVec 40} (h : stall.toNat ≤ wdog.toNat) :
    (stall + cc.setWidth 41).toNat = stall.toNat + cc.toNat := by
  have := wdog.isLt
  have := cc.isLt
  rw [BitVec.toNat_add, BitVec.toNat_setWidth]
  omega

theorem exec_stallWatchdog_below (busy : (s.core n).level ≠ 0xF) (up : (s.core n).stopped = false)
    (some : (s.core n).stalls.get (s.core n).lvl.toFin ≠ 0)
    (below : ((s.core n).stalls.get (s.core n).lvl.toFin).toNat + cc.toNat ≤ (s.core n).wdog.toNat) :
    exec (.stallWatchdog n cc) s = .next (s.updCore n fun c => { c with
      stalls := (s.core n).stalls.set (s.core n).lvl.toFin ((s.core n).stalls.get (s.core n).lvl.toFin + cc.setWidth 41) }) := by
  show execStallWatchdog n cc s = _
  unfold execStallWatchdog
  dsimp only
  rw [if_neg (not_or.2 ⟨busy, by simp [up]⟩), if_neg some, toNat_stall_add (Nat.le_of_add_right_le below), if_neg (Nat.not_lt.2 below)]
  exact congrArg Host.Outcome.next (State.updCore_congr rfl)

theorem exec_stallWatchdog_over (busy : (s.core n).level ≠ 0xF) (up : (s.core n).stopped = false)
    (some : (s.core n).stalls.get (s.core n).lvl.toFin ≠ 0)
    (within : ((s.core n).stalls.get (s.core n).lvl.toFin).toNat ≤ (s.core n).wdog.toNat)
    (above : (s.core n).wdog.toNat < ((s.core n).stalls.get (s.core n).lvl.toFin).toNat + cc.toNat) :
    exec (.stallWatchdog n cc) s = .next ((s.updCore n fun c => { c with stalls := c.stalls.set c.lvl.toFin 0 }).takeTrap n 0x0C 0
      (s.core n).pc false) := by
  show execStallWatchdog n cc s = _
  unfold execStallWatchdog
  dsimp only
  rw [if_neg (not_or.2 ⟨busy, by simp [up]⟩), if_neg some, toNat_stall_add within, if_pos above]

/-- A trap by the stall watchdog enters the supervisor, or stops a core at level 7. -/
theorem stallTrap (s : State) (n : CoreId) (st : Core → Vector (BitVec 41) 8) :
    let k := s.core n
    let u := (s.updCore n fun c => { c with stalls := st c }).takeTrap n 0x0C 0 k.pc false
    (k.level.toNat < 7 → EntersSupervisor k (u.core n) 0x0C 0 k.pc false) ∧
      (k.level = 7 → (u.core n).stopped = true ∧ (u.core n).xcause = 0x0C ∧ (u.core n).xepc = k.pc) := by
  have core := State.core_updCore_same s n fun c => { c with stalls := st c }
  refine ⟨fun low => ?_, fun top => ?_⟩
  · have below : ((s.updCore n fun c => { c with stalls := st c }).core n).level ≠ 7 := by
      rw [core]
      exact fun e : (s.core n).level = 7 => absurd low (by rw [e]; decide)
    have enters := entersSupervisor_enterTrap _ n 0x0C 0 (s.core n).pc false below
    rw [State.takeTrap, if_neg below]
    rw [core] at enters
    exact enters
  · have at_ : ((s.updCore n fun c => { c with stalls := st c }).core n).level = 7 := by rw [core]; exact top
    obtain ⟨x, l, stops⟩ := (s.updCore n fun c => { c with stalls := st c }).core_nestedTrap n 0x0C
    rw [State.takeTrap, if_pos at_, stops, core]
    exact ⟨rfl, rfl, rfl⟩

/-! ### The run limit of the supervisor (R343) -/

/-- Something waits below level 7 where a frame there is live or an arrival is held. -/
theorem State.waitsBelow_of {j : BitVec 3} (low : j ≠ 7) (h : ((s.core n).bank j).live = true ∨ (s.core n).held j ≠ []) :
    s.waitsBelow n = true := by
  have small : j.toNat < 7 := by bv_omega
  have level : BitVec.ofNat 3 j.toNat = j := by rw [BitVec.ofNat_toNat, BitVec.setWidth_eq]
  unfold State.waitsBelow
  dsimp only
  rw [Bool.not_eq_true', List.all_eq_false]
  refine ⟨j.toNat, mem_upFrom.2 ⟨Nat.zero_le _, by omega⟩, ?_⟩
  rw [level]
  rcases h with live | held
  · simp [live]
  · simp [State.heldAt, held]

theorem exec_supervisorRunLimit {run : BitVec 16} (top : (s.core n).level = 7) (up : (s.core n).stopped = false)
    (waits : s.waitsBelow n = true) : exec (.supervisorRunLimit n run) s =
      .next (if (s.core n).run7.toNat + run.toNat > 2048 then s.nestedTrap n 0x0C
        else s.updCore n fun c => { c with run7 := BitVec.ofNat 16 ((s.core n).run7.toNat + run.toNat) }) := by
  show execSupervisorRunLimit n run s = _
  unfold execSupervisorRunLimit
  dsimp only
  rw [if_neg (by simp [top, up, waits])]
  split <;> rfl

end

end Sys2Proof.Machine
end

section
/-! ## Messages under way: their entry into a die -/

namespace Sys2Proof.Machine

theorem dropAt_eq {α : Type} (l : List α) (k : Nat) : dropAt l k = l.take k ++ l.drop (k + 1) := by
  induction l generalizing k with
  | nil => simp [dropAt]
  | cons x r ih => cases k <;> simp [dropAt, ih]

/-- A message of which nothing older of its flow is under way or waits elsewhere may leave (R22, R122). -/
theorem State.mayLeave_of {s : State} {k : Nat} {t : Transit} {a : Arr} (cargo : t.cargo = .message a) (free : t.held = false)
    (first : ∀ u ∈ s.net.take k, u.flow ≠ t.flow)
    (home : ∀ c ∈ s.cores, c.1 = (s.physOf t.dst).toNat ∨ ∀ u ∈ c.2.ni, u.flow ≠ t.flow) : s.mayLeave k t = true := by
  have young : s.olderOfFlow k t false = false := by
    rw [State.olderOfFlow, Bool.or_eq_false_iff, List.any_eq_false, List.any_eq_false]
    refine ⟨fun u hu => by simpa using first u hu, fun c hc => ?_⟩
    rcases home c hc with e | fresh
    · simp [e]
    · simpa using fun _ => fresh
  simp [State.mayLeave, free, young, Transit.isMessage, cargo]

/-! ### Acknowledgements -/

/-- What no acknowledgement of a core changes stays through one. -/
theorem State.core_ackTo_field {α : Type} (g : Core → α) (hg : ∀ (c : Core) l, g { c with acks := l } = g c) (s : State) (t : Transit)
    (m : CoreId) : g ((s.ackTo t).core m) = g (s.core m) := by
  unfold State.ackTo
  split
  · rename_i o _ _
    by_cases e : m = o
    · rw [e, State.core_updCore_same, hg]
    · rw [State.core_updCore_other s _ e]
  · rfl

section
variable (s : State) (t : Transit)

@[simp] theorem State.ackTo_net : (s.ackTo t).net = s.net := by unfold State.ackTo; split <;> rfl
@[simp] theorem State.ackTo_physOf (l : CoreId) : (s.ackTo t).physOf l = s.physOf l := by unfold State.ackTo; split <;> rfl

theorem sameMemory_ackTo : SameMemory s (s.ackTo t) := by
  unfold State.ackTo
  split
  · exact sameMemory_updCore s _ _ fun _ => rfl
  · exact SameMemory.refl s

end

/-! ### The step of a command that was closing (R21, R311) -/

section
variable (s : State) (n lid : CoreId) (cmd : BitVec 4) (id : Nat) (fault : Bool)

@[simp] theorem State.closeCmd_net : (s.closeCmd n lid cmd id fault).net = s.net := by
  unfold State.closeCmd; split <;> simp
@[simp] theorem State.closeCmd_physOf (l : CoreId) : (s.closeCmd n lid cmd id fault).physOf l = s.physOf l := by
  unfold State.closeCmd; split <;> simp

theorem sameMemory_closeCmd : SameMemory s (s.closeCmd n lid cmd id fault) := by
  unfold State.closeCmd
  split
  · refine SameMemory.trans (sameMemory_updCore s n _ ?_) (sameMemory_endCmd _ n lid _ fault)
    exact fun _ => rfl
  · exact SameMemory.refl s

/-- What neither a status step nor a closing command changes of a core stays as a closing command ends. -/
theorem State.core_closeCmd_field {α : Type} (g : Core → α) (hg : ∀ c e f, g (c.updEst e f) = g c)
    (hc : ∀ (c : Core) l, g { c with closing := l } = g c) (m : CoreId) : g ((s.closeCmd n lid cmd id fault).core m) = g (s.core m) := by
  unfold State.closeCmd
  split
  · rw [State.core_endCmd_field g hg]
    by_cases e : m = n
    · rw [e, State.core_updCore_same, hc]
    · rw [State.core_updCore_other s _ e]
  · rfl

variable {s n lid id}

/-- A closing command ends: its status step is made, and it holds its slot no longer. -/
theorem endsWith_closeCmd (there : ∃ c ∈ (s.core n).closing, c.1 = id) (h : HoldsLid s n lid) :
    let u := s.closeCmd n lid cmd id fault
    EndsWith ((s.core n).est (engineOf cmd)) ((u.core n).est (engineOf cmd)) fault ((u.core n).heldCmds (engineOf cmd)) ∧
      ∀ c ∈ (u.core n).closing, c.1 ≠ id := by
  obtain ⟨c, member, isId⟩ := there
  have found : ((s.core n).closing.any fun x => x.1 == id) = true := List.any_eq_true.2 ⟨c, member, by simp [isId]⟩
  have gone := State.core_updCore_same s n fun c => { c with closing := c.closing.filter fun x => x.1 != id }
  have holds : HoldsLid (s.updCore n fun c => { c with closing := c.closing.filter fun x => x.1 != id }) n lid := by
    rw [HoldsLid, gone]; exact h
  dsimp only
  rw [State.closeCmd, if_pos found]
  refine ⟨?_, fun x hx => ?_⟩
  · rw [State.core_endCmd_field (fun c => c.heldCmds (engineOf cmd)) fun c e f => c.updEst_heldCmds e _ f]
    have step := endsWith_endCmd holds (engineOf cmd) fault
    rw [gone] at step
    rw [gone]
    exact step
  · rw [State.core_endCmd_field Core.closing Core.updEst_closing, gone] at hx
    simpa using (List.mem_filter.1 hx).2

end

section
variable (s : State) (t : Transit) (fault : Bool)

/-- What a message does to a command by its entry or its loss: nothing, or it ends the command that was closing. -/
theorem State.closeOf_cases : s.closeOf t fault = s ∨ ∃ n lid cmd id, s.closeOf t fault = s.closeCmd n lid cmd id fault := by
  unfold State.closeOf
  split
  · split
    · exact .inr ⟨_, _, _, _, rfl⟩
    · exact .inl rfl
  · exact .inl rfl

@[simp] theorem State.closeOf_net : (s.closeOf t fault).net = s.net := by
  obtain e | ⟨_, _, _, _, e⟩ := s.closeOf_cases t fault <;> simp [e]
@[simp] theorem State.closeOf_physOf (l : CoreId) : (s.closeOf t fault).physOf l = s.physOf l := by
  obtain e | ⟨_, _, _, _, e⟩ := s.closeOf_cases t fault <;> simp [e]

theorem sameMemory_closeOf : SameMemory s (s.closeOf t fault) := by
  obtain e | ⟨_, _, _, _, e⟩ := s.closeOf_cases t fault <;> rw [e]
  · exact SameMemory.refl s
  · exact sameMemory_closeCmd ..

theorem State.core_closeOf_field {α : Type} (g : Core → α) (hg : ∀ c e f, g (c.updEst e f) = g c)
    (hc : ∀ (c : Core) l, g { c with closing := l } = g c) (m : CoreId) : g ((s.closeOf t fault).core m) = g (s.core m) := by
  obtain e | ⟨_, _, _, _, e⟩ := s.closeOf_cases t fault <;> rw [e]
  exact State.core_closeCmd_field _ _ _ _ _ _ g hg hc m

variable {s t}

/-- The message of a command that is closing. -/
theorem State.closeOf_closing {a : Arr} {back : Owed} {n : CoreId} {id : Nat} (cargo : t.cargo = .message a) (hb : t.back = some back)
    (close : back.close = some id) (owner : t.owner = some n) :
    s.closeOf t fault = s.closeCmd n (hdrSrc a.msg.hdr) back.cmd id fault := by
  simp only [State.closeOf, cargo, hb, owner, close]

/-- The message of a command that has made its step. -/
theorem State.closeOf_closed {back : Owed} (hb : t.back = some back) (close : back.close = none) : s.closeOf t fault = s := by
  unfold State.closeOf
  split
  · rename_i x n cargo e owner
    obtain rfl : back = x := Option.some.inj (hb.symm.trans e)
    rw [close]
  · rfl

/-- The message, entered, is the same but for what it owes, and owes the same where no command was closing. -/
theorem State.closed_eq (s : State) (t : Transit) :
    ∃ z, s.closed t = { t with back := z } ∧ (t.back.bind Owed.close = none → z = t.back) := by
  unfold State.closed
  split
  · rename_i x n cargo back owner
    cases h : x.close with
    | none => exact ⟨t.back, rfl, fun _ => rfl⟩
    | some id =>
      refine ⟨_, rfl, fun open_ => ?_⟩
      rw [back] at open_
      exact absurd (h.symm.trans open_) (Option.some_ne_none id)
  · exact ⟨t.back, rfl, fun _ => rfl⟩

end

/-! ### Entry, loss and departure (R21, R22, R406) -/

/-- The message at place k is no longer under way. -/
def State.withdrawn (s : State) (k : Nat) : State := { s with net := s.net.take k ++ s.net.drop (k + 1) }

section
variable {s : State} {place : BitVec 16} {t : Transit}

/-- A message for a present core of this module reaches its interface. -/
theorem exec_dieEntryResolve_enters (at_ : s.net[place.toNat]? = some t) (may : s.mayLeave place.toNat t = true) (here : t.dstMod = s.modu)
    (notice : t.isNotice = false) (present : s.present t.dst = true) : exec (.dieEntryResolve place) s =
      let v := (s.withdrawn place.toNat).closeOf t false
      .next (v.updCore (s.physOf t.dst) fun c => { c with ni := c.ni ++ [v.closed t] }) := by
  have phys := State.closeOf_physOf (s.withdrawn place.toNat) t false t.dst
  show execDieEntryResolve place s = _
  unfold execDieEntryResolve
  simp only [at_, may, dropAt_eq, Bool.not_true, Bool.false_eq_true, if_false, here, ne_eq, not_true, notice, present]
  exact congrArg (fun m => Host.Outcome.next (((s.withdrawn place.toNat).closeOf t false).updCore m _)) phys

/-- A message for an absent core of this module is dropped. -/
theorem exec_dieEntryResolve_drops (at_ : s.net[place.toNat]? = some t) (may : s.mayLeave place.toNat t = true) (here : t.dstMod = s.modu)
    (notice : t.isNotice = false) (absent : s.present t.dst = false) :
    exec (.dieEntryResolve place) s = .next ((s.withdrawn place.toNat).dropAbsent t) := by
  show execDieEntryResolve place s = _
  unfold execDieEntryResolve
  simp only [at_, may, dropAt_eq, Bool.not_true, Bool.false_eq_true, if_false, here, ne_eq, not_true, notice, absent, Bool.not_false, if_true]
  rfl

/-- A message for another module leaves through a port. -/
theorem exec_dieEntryResolve_leaves {port : BitVec 5} (at_ : s.net[place.toNat]? = some t) (may : s.mayLeave place.toNat t = true)
    (away : t.dstMod ≠ s.modu) (through : s.portOf t = some port) : exec (.dieEntryResolve place) s =
      .next { s.withdrawn place.toNat with wire := s.wire ++ [{ port := port, msg := t }] } := by
  show execDieEntryResolve place s = _
  unfold execDieEntryResolve
  simp only [at_, may, dropAt_eq, Bool.not_true, Bool.false_eq_true, if_false, ne_eq, away, not_false_eq_true, if_true, through]
  rfl

end

/-- A message that enters at a core's interface (R21, R22). -/
theorem State.enters_core (s : State) (t : Transit) (m : CoreId) :
    let v := s.closeOf t false
    let u := v.updCore m fun c => { c with ni := c.ni ++ [v.closed t] }
    SameMemory s u ∧ u.net = s.net ∧ (u.core m).ni = (s.core m).ni ++ [v.closed t] := by
  dsimp only
  refine ⟨(sameMemory_closeOf s t false).trans (sameMemory_updCore _ m _ ?_), State.closeOf_net s t false, ?_⟩
  · exact fun _ => rfl
  · rw [State.core_updCore_same]
    exact congrArg (· ++ _) (State.core_closeOf_field s t false Core.ni (fun c e f => c.updEst_ni e f) (fun _ _ => rfl) m)

/-- What arrives at an interface changes no engine's status. -/
theorem State.status_updCore_ni (s : State) (n m : CoreId) (x : Transit) (e : BitVec 4) :
    let u := s.updCore m fun c => { c with ni := c.ni ++ [x] }
    (u.core n).est e = (s.core n).est e ∧ (u.core n).heldCmds e = (s.core n).heldCmds e ∧ (u.core n).closing = (s.core n).closing := by
  dsimp only
  by_cases h : n = m
  · subst h
    rw [State.core_updCore_same]
    exact ⟨rfl, rfl, rfl⟩
  · rw [State.core_updCore_other s _ h]
    exact ⟨rfl, rfl, rfl⟩

/-! ### Messages dropped (R21, R320) -/

section
variable (s : State) (lid : CoreId) (e : BitVec 4) (x : Option Byte)

@[simp] theorem State.amendStep_net : (s.amendStep lid e x).net = s.net := by
  unfold State.amendStep
  split
  · rfl
  · dsimp only
    split
    · split <;> rfl
    · rfl

theorem sameMemory_amendStep : SameMemory s (s.amendStep lid e x) := by
  unfold State.amendStep
  split
  · exact SameMemory.refl s
  · dsimp only
    split
    · split
      · exact sameMemory_updCore s _ _ fun c => c.updEst_tcm e _
      · exact SameMemory.refl s
    · exact SameMemory.refl s

/-- A step amended changes no core but in its status. -/
theorem State.core_amendStep_field {α : Type} (g : Core → α) (hg : ∀ c e f, g (c.updEst e f) = g c) (m : CoreId) :
    g ((s.amendStep lid e x).core m) = g (s.core m) := by
  unfold State.amendStep
  split
  · rfl
  · dsimp only
    split
    · split
      · by_cases h : m = s.physOf lid
        · rw [h, State.core_updCore_same, hg]
        · rw [State.core_updCore_other s _ h]
      · rfl
    · rfl

/-- The step of the command that its core has made last becomes one of a handback. -/
theorem State.amendStep_last (h : HoldsLid s (s.physOf lid) lid) :
    let u := s.amendStep lid e (some ((s.core (s.physOf lid)).est e).ended)
    ((u.core (s.physOf lid)).est e).fault = true ∧ ((u.core (s.physOf lid)).est e).done = false := by
  unfold State.amendStep
  dsimp only
  rw [if_pos (show _ ∧ _ from h), if_pos rfl, State.core_updCore_same, Core.est_updEst]
  exact ⟨rfl, rfl⟩

end

/-- What a dropped message does before its handback leaves. -/
def State.dropped (s : State) (t : Transit) (lid : CoreId) (x : Owed) : State :=
  ((s.ackTo t).closeOf t true).amendStep lid (engineOf x.cmd) x.ended

section
variable (s : State) (t : Transit) (lid : CoreId) (x : Owed)

@[simp] theorem State.dropped_net : (s.dropped t lid x).net = s.net := by simp [State.dropped]

theorem sameMemory_dropped : SameMemory s (s.dropped t lid x) :=
  ((sameMemory_ackTo s t).trans (sameMemory_closeOf _ t true)).trans (sameMemory_amendStep ..)

/-- What no end of a command changes of a core stays as a message is dropped. -/
theorem State.core_dropped_field {α : Type} (g : Core → α) (hg : ∀ c e f, g (c.updEst e f) = g c)
    (hc : ∀ (c : Core) l, g { c with closing := l } = g c) (ha : ∀ (c : Core) l, g { c with acks := l } = g c) (m : CoreId) :
    g ((s.dropped t lid x).core m) = g (s.core m) := by
  rw [State.dropped, State.core_amendStep_field _ _ _ _ g hg, State.core_closeOf_field _ _ _ g hg hc, State.core_ackTo_field g ha]

variable {s t x}

/-- A message whose destination is absent owes a handback of its command. -/
theorem State.dropAbsent_eq {a : Arr} (cargo : t.cargo = .message a) (back : t.back = some x) :
    s.dropAbsent t = (s.dropped t (hdrSrc a.msg.hdr) x).postOwn 0x01 7 (hdrSrc a.msg.hdr) (hdrSrc a.msg.hdr)
      [handbackWord x.cmd 0x03 x.succ, t.dst.setWidth 64, x.progress] 0 := by
  simp only [State.dropAbsent, cargo, back]
  rfl

/-- The step of a command that was closing as its successor is dropped. -/
theorem State.dropped_closing {a : Arr} {n : CoreId} {id : Nat} (cargo : t.cargo = .message a) (back : t.back = some x)
    (close : x.close = some id) (owner : t.owner = some n) (there : ∃ c ∈ (s.core n).closing, c.1 = id)
    (h : HoldsLid s n (hdrSrc a.msg.hdr)) (made : x.ended = none) :
    let u := s.dropped t (hdrSrc a.msg.hdr) x
    EndsWith ((s.core n).est (engineOf x.cmd)) ((u.core n).est (engineOf x.cmd)) true ((u.core n).heldCmds (engineOf x.cmd)) ∧
      ∀ c ∈ (u.core n).closing, c.1 ≠ id := by
  have closing : ((s.ackTo t).core n).closing = (s.core n).closing := State.core_ackTo_field Core.closing (fun _ _ => rfl) s t n
  have est : ((s.ackTo t).core n).est (engineOf x.cmd) = (s.core n).est (engineOf x.cmd) :=
    State.core_ackTo_field (fun c => c.est (engineOf x.cmd)) (fun _ _ => rfl) s t n
  have holds : HoldsLid (s.ackTo t) n (hdrSrc a.msg.hdr) := by
    rw [HoldsLid, State.core_ackTo_field Core.lid (fun _ _ => rfl), State.core_ackTo_field Core.savedLid (fun _ _ => rfl)]
    exact h
  have step := endsWith_closeCmd (s := s.ackTo t) (cmd := x.cmd) (fault := true) (by rw [closing]; exact there) holds
  rw [est] at step
  dsimp only
  rw [State.dropped, State.closeOf_closing true cargo back close owner, made]
  exact step

/-- The last step that a core has made becomes one of a handback as the successor is dropped later. -/
theorem State.dropped_last (back : t.back = some x) (close : x.close = none)
    (h : HoldsLid s (s.physOf lid) lid) (last : x.ended = some ((s.core (s.physOf lid)).est (engineOf x.cmd)).ended) :
    (((s.dropped t lid x).core (s.physOf lid)).est (engineOf x.cmd)).fault = true ∧
      (((s.dropped t lid x).core (s.physOf lid)).est (engineOf x.cmd)).done = false := by
  have est : ((s.ackTo t).core (s.physOf lid)).est (engineOf x.cmd) = (s.core (s.physOf lid)).est (engineOf x.cmd) :=
    State.core_ackTo_field (fun c => c.est (engineOf x.cmd)) (fun _ _ => rfl) s t _
  have holds : HoldsLid (s.ackTo t) ((s.ackTo t).physOf lid) lid := by
    rw [State.ackTo_physOf, HoldsLid, State.core_ackTo_field Core.lid (fun _ _ => rfl), State.core_ackTo_field Core.savedLid (fun _ _ => rfl)]
    exact h
  have amended := State.amendStep_last (s.ackTo t) lid (engineOf x.cmd) holds
  rw [State.ackTo_physOf, est, ← last] at amended
  rw [State.dropped, State.closeOf_closed true back close]
  exact amended

end

/-! ### Messages redirected (R22) -/

/-- The first message at the interface of core n leaves it. -/
def State.takeFirst (s : State) (n : CoreId) (r : List Transit) : State := s.updCore n fun c => { c with ni := r }

section
variable {s : State} {n : CoreId} {t : Transit} {r : List Transit}

theorem exec_movedRedirect_first (ni : (s.core n).ni = t :: r) (heat : t.isHeat = false)
    (astray : s.present t.dst = false ∨ s.physOf t.dst ≠ n) : exec (.movedRedirect n) s =
      .next (if s.present t.dst then (s.takeFirst n r).updCore (s.physOf t.dst) fun c => { c with ni := c.ni ++ [t.moved] }
        else (s.takeFirst n r).dropAbsent t) := by
  have first : (!t.isHeat && (!s.present t.dst || s.physOf t.dst != n)) = true := by
    rcases astray with h | h <;> simp [heat, h]
  have taken : (s.updCore n fun c => { c with ni := dropAt c.ni 0 }) = s.takeFirst n r :=
    State.updCore_congr (by rw [ni]; rfl)
  show execMovedRedirect n s = _
  unfold execMovedRedirect
  simp only [ni, firstIdx, first, if_true, List.getElem?_cons_zero, taken]
  have present : (s.takeFirst n r).present t.dst = s.present t.dst := rfl
  rw [present]
  cases s.present t.dst <;> rfl

theorem State.takeFirst_ni : ((s.takeFirst n r).core n).ni = r := by rw [State.takeFirst, State.core_updCore_same]

theorem sameMemory_takeFirst : SameMemory s (s.takeFirst n r) := sameMemory_updCore s n _ fun _ => rfl

end

end Sys2Proof.Machine
end

section
/-! ## Channels: entries sent, taken in and read -/

namespace Sys2Proof.Machine

theorem Core.rq_updQ_same (c : Core) (q : QReg) (f : QueueReg → QueueReg) : (c.updQ q f).rq q = f (c.rq q) := by
  rw [Core.rq, Core.updQ, vecGet_set_same]

theorem Core.rq_updQ_other (c : Core) {q z : QReg} (f : QueueReg → QueueReg) (h : z ≠ q) : (c.updQ q f).rq z = c.rq z :=
  vecGet_set_other c.q _ (toFin_ne h)

theorem State.rq_updCore_updQ (s : State) (n : CoreId) (q : QReg) (f : QueueReg → QueueReg) :
    ((s.updCore n fun c => c.updQ q f).core n).rq q = f ((s.core n).rq q) := by
  rw [State.core_updCore_same, Core.rq_updQ_same]

/-- The state in which a channel entry leaves core n for another: a release towards it (R123). -/
def State.releasedFor (s : State) (n peer : CoreId) : State := if dieOf (s.physOf peer) ≠ dieOf n then s.releaseDie (dieOf n) else s

theorem homesOnly_releasedFor (s : State) (n peer : CoreId) : HomesOnly s (s.releasedFor n peer) := homesOnly_releaseDie_if s _ _

/-- An entry of a channel leaves while allowance remains (R97). -/
theorem exec_channelEntrySend {s : State} {n : CoreId} {q : QReg} {v : QEnt} {l : List QEnt} (kind : ((s.core n).rq q).kind = 2)
    (entries : ((s.core n).rq q).entries = v :: l) (allow : ((s.core n).rq q).allow ≠ 0) :
    exec (.channelEntrySend n q) s = .next (((s.releasedFor n ((s.core n).rq q).peer).updCore n fun c => c.updQ q fun k =>
        { k with entries := l, allow := k.allow - 1 }).post
      { cargo := .channel { v with src := some ((s.core n).lid, q) } ((s.core n).rq q).peerQ ((s.core n).rq q).chan, from_ := none,
        dstMod := (s.releasedFor n ((s.core n).rq q).peer).modu, dst := ((s.core n).rq q).peer, held := false, tag := none, back := none,
        owner := none }) := by
  show execChannelEntrySend n q s = _
  unfold execChannelEntrySend
  simp only [entries]
  rw [if_neg (not_or.2 ⟨not_not.2 kind, allow⟩)]
  rfl

/-- What an entry that leaves does. -/
theorem State.sendEntry_fields (s : State) (n peer : CoreId) (q : QReg) (l : List QEnt) (y : Transit) :
    let u := ((s.releasedFor n peer).updCore n fun c => c.updQ q fun k => { k with entries := l, allow := k.allow - 1 }).post y
    u.net = s.net ++ [y] ∧ (u.core n).rq q = { (s.core n).rq q with entries := l, allow := ((s.core n).rq q).allow - 1 } := by
  have home := homesOnly_releasedFor s n peer
  refine ⟨congrArg (· ++ [y]) home.net, ?_⟩
  have register := (s.releasedFor n peer).rq_updCore_updQ n q fun k => { k with entries := l, allow := k.allow - 1 }
  rw [home.core] at register
  exact register

/-- A channel entry that nothing older of its flow precedes reaches a register that has room (R98, R122). -/
theorem exec_channelEntryArrive {s : State} {place : BitVec 16} {t : Transit} {v : QEnt} {q : QReg} {chan : BitVec 5}
    (at_ : s.net[place.toNat]? = some t) (cargo : t.cargo = .channel v q chan) (free : t.held = false)
    (young : s.olderOfFlow place.toNat t true = false) (present : s.present t.dst = true)
    (ready : (s.core (s.physOf t.dst)).defers t.dst = false) (room : ((s.core (s.physOf t.dst)).rq q).room = true)
    (empty : s.weirHas (.recv t.dst q) = false) : exec (.channelEntryArrive place) s =
      .next ((s.withdrawn place.toNat).updCore (s.physOf t.dst) fun c => c.updQ q fun k => { k with entries := k.entries ++ [v] }) := by
  show execChannelEntryArrive place s = _
  unfold execChannelEntryArrive
  simp only [at_, cargo, free, young, dropAt_eq, Bool.false_eq_true, or_self, if_false, present, Bool.not_true, ready, room, empty,
    Bool.not_false, and_self, if_true]
  rfl

theorem State.youngest_head {s : State} {t : Transit} (home : Bool) (first : ∀ c ∈ s.cores, ∀ u ∈ c.2.ni, u.flow ≠ t.flow) :
    s.olderOfFlow 0 t home = false := by
  rw [State.olderOfFlow, List.take_zero, List.any_nil, Bool.false_or, List.any_eq_false]
  exact fun c hc => by simpa using fun _ => first c hc

theorem State.withdrawn_head {s : State} {t : Transit} {r : List Transit} (net : s.net = t :: r) : (s.withdrawn 0).net = r := by
  rw [State.withdrawn, net]
  rfl

/-! ### Allowance (R97) -/

/-- The sender of an entry is there to take the allowance (R97, R98). -/
def State.senderIn (s : State) (lid : CoreId) : Prop := HoldsLid s (s.physOf lid) lid ∧ (s.core (s.physOf lid)).loading ≠ some lid

theorem State.returnAllowance_in {s : State} {lid : CoreId} (z : QReg) (h : s.senderIn lid) :
    s.returnAllowance (some (lid, z)) = s.updCore (s.physOf lid) fun c => c.gainAllowance z := by
  obtain ⟨⟨held, saved⟩, loading⟩ := h
  exact if_pos ⟨held, saved, loading⟩

theorem State.returnAllowance_out {s : State} {lid : CoreId} (z : QReg) (h : ¬ s.senderIn lid) :
    s.returnAllowance (some (lid, z)) = { s with allowOwed := s.allowOwed ++ [(lid, z)] } :=
  if_neg fun all => h ⟨⟨all.1, all.2.1⟩, all.2.2⟩

theorem Core.rq_gainAllowance {c : Core} {z : QReg} (kind : (c.rq z).kind = 2) :
    (c.gainAllowance z).rq z = { c.rq z with allow := (c.rq z).allow + 1 } := by
  rw [Core.gainAllowance, Core.rq_updQ_same, if_pos kind]

/-- A register that gains allowance keeps its entries. -/
theorem Core.entries_gainAllowance (c : Core) (z q : QReg) : ((c.gainAllowance z).rq q).entries = (c.rq q).entries := by
  rw [Core.gainAllowance]
  by_cases e : q = z
  · rw [e, Core.rq_updQ_same]; split <;> rfl
  · rw [Core.rq_updQ_other c _ e]

theorem State.entries_returnAllowance (s : State) (x : Option (CoreId × QReg)) (n : CoreId) (q : QReg) :
    (((s.returnAllowance x).core n).rq q).entries = ((s.core n).rq q).entries := by
  unfold State.returnAllowance
  split
  · rename_i lid z
    dsimp only
    split
    · by_cases e : n = s.physOf lid
      · rw [e, State.core_updCore_same, Core.entries_gainAllowance]
      · rw [State.core_updCore_other s _ e]
    · rfl
  · rfl

/-- What a read of a queue register acquires, before the entry is taken (R123, R128). -/
def State.acquiredFor (s : State) (n : CoreId) (v : QEnt) : State :=
  let far : Bool := match v.src with
    | some (lid, _) => dieOf (s.physOf lid) != dieOf n
    | none => false
  (if far then s.acquireDie (dieOf n) else s).acquireOwed n v.scope

theorem homesOnly_acquireDie_if (s : State) (die : BitVec 4) (c : Prop) [Decidable c] :
    HomesOnly s (if c then s.acquireDie die else s) := by
  split
  · exact homesOnly_acquireDie s die
  · exact HomesOnly.refl s

theorem homesOnly_acquiredFor (s : State) (n : CoreId) (v : QEnt) : HomesOnly s (s.acquiredFor n v) :=
  (homesOnly_acquireDie_if s (dieOf n) _).trans (homesOnly_acquireOwed _ n v.scope)

/-- The oldest entry of a readable register is taken. -/
theorem State.takeEntry_eq {s : State} {n : CoreId} {q : QReg} {v : QEnt} {l : List QEnt}
    (kind : ((s.core n).rq q).kind = 1 ∨ ((s.core n).rq q).kind = 3) (entries : ((s.core n).rq q).entries = v :: l) :
    s.takeEntry n q = ((s.acquiredFor n v).updCore n fun c => c.updQ q fun k => { k with entries := l }).returnAllowance v.src := by
  unfold State.takeEntry
  simp only [entries]
  rw [if_neg (fun both => kind.elim both.1 both.2)]
  rfl

section
variable {s : State} {n : CoreId} {q z : QReg} {v : QEnt} {l : List QEnt} {lid : CoreId}

theorem State.entries_takeEntry (kind : ((s.core n).rq q).kind = 1 ∨ ((s.core n).rq q).kind = 3)
    (entries : ((s.core n).rq q).entries = v :: l) : (((s.takeEntry n q).core n).rq q).entries = l := by
  rw [State.takeEntry_eq kind entries, State.entries_returnAllowance, State.rq_updCore_updQ]

/-- Core n with the oldest entry of a register taken, before its allowance goes back. -/
def State.entryTaken (s : State) (n : CoreId) (q : QReg) (v : QEnt) (l : List QEnt) : State :=
  (s.acquiredFor n v).updCore n fun c => c.updQ q fun k => { k with entries := l }

variable (s n q v l) in
/-- A register's entry taken changes no other register of any core. -/
theorem State.entryTaken_core (m : CoreId) :
    (s.entryTaken n q v l).core m = s.core m ∨ m = n ∧ (s.entryTaken n q v l).core m =
      (s.core n).updQ q fun k => { k with entries := l } := by
  have home := homesOnly_acquiredFor s n v
  by_cases e : m = n
  · subst e
    exact .inr ⟨rfl, by rw [State.entryTaken, State.core_updCore_same, home.core]⟩
  · exact .inl (by rw [State.entryTaken, State.core_updCore_other _ _ e, home.core])

variable (s n q v l lid) in
theorem State.entryTaken_physOf : (s.entryTaken n q v l).physOf lid = s.physOf lid := (homesOnly_acquiredFor s n v).physOf lid

variable (s n q v l lid) in
theorem State.senderIn_entryTaken : (s.entryTaken n q v l).senderIn lid ↔ s.senderIn lid := by
  rw [State.senderIn, State.entryTaken_physOf, HoldsLid]
  rcases s.entryTaken_core n q v l (s.physOf lid) with e | ⟨m, e⟩
  · rw [e]; exact Iff.rfl
  · rw [e, ← m]; exact Iff.rfl

theorem State.entryTaken_rq (m : CoreId) (other : m = n → z ≠ q) : ((s.entryTaken n q v l).core m).rq z = (s.core m).rq z := by
  rcases s.entryTaken_core n q v l m with e | ⟨h, e⟩
  · rw [e]
  · rw [e, Core.rq_updQ_other _ _ (other h), h]

/-- A sender that is there gains one unit of allowance by the read of its entry (R97). -/
theorem State.takeEntry_gains (kind : ((s.core n).rq q).kind = 1 ∨ ((s.core n).rq q).kind = 3)
    (entries : ((s.core n).rq q).entries = v :: l) (src : v.src = some (lid, z)) (there : s.senderIn lid)
    (sends : ((s.core (s.physOf lid)).rq z).kind = 2) :
    ((s.takeEntry n q).core (s.physOf lid)).rq z =
      { (s.core (s.physOf lid)).rq z with allow := ((s.core (s.physOf lid)).rq z).allow + 1 } := by
  have other : s.physOf lid = n → z ≠ q := by
    rintro own rfl
    rw [← own, sends] at kind
    exact absurd kind (by decide)
  have same := State.entryTaken_rq (s := s) (v := v) (l := l) (s.physOf lid) other
  have gains := State.returnAllowance_in z ((s.senderIn_entryTaken n q v l lid).2 there)
  rw [State.takeEntry_eq kind entries, src]
  show (((s.entryTaken n q v l).returnAllowance (some (lid, z))).core (s.physOf lid)).rq z = _
  rw [gains, State.entryTaken_physOf, State.core_updCore_same, Core.rq_gainAllowance (by rw [same]; exact sends), same]

/-- The allowance of a sender that is not there waits for it (R98). -/
theorem State.takeEntry_owes (kind : ((s.core n).rq q).kind = 1 ∨ ((s.core n).rq q).kind = 3)
    (entries : ((s.core n).rq q).entries = v :: l) (src : v.src = some (lid, z)) (out : ¬ s.senderIn lid) :
    (s.takeEntry n q).allowOwed = s.allowOwed ++ [(lid, z)] := by
  have owes := State.returnAllowance_out z fun h => out ((s.senderIn_entryTaken n q v l lid).1 h)
  have owed : (s.entryTaken n q v l).allowOwed = s.allowOwed := (homesOnly_acquiredFor s n v).allowOwed
  rw [State.takeEntry_eq kind entries, src]
  show ((s.entryTaken n q v l).returnAllowance (some (lid, z))).allowOwed = _
  rw [owes]
  exact congrArg (· ++ [(lid, z)]) owed

end

/-- A frame may read a register of its level that has entries for it. -/
theorem Core.queueOk_read {c : Core} {q : QReg} :
    c.queueOk q false = true ↔ c.level = (c.rq q).level.setWidth 4 ∧ ((c.rq q).kind = 1 ∨ (c.rq q).kind = 3) := by
  simp [Core.queueOk]

theorem Core.queueOk_write {c : Core} {q : QReg} :
    c.queueOk q true = true ↔ c.level = (c.rq q).level.setWidth 4 ∧ (c.rq q).kind = 2 := by
  simp [Core.queueOk]

theorem exec_allowanceReturn {s : State} {n : CoreId} {q : QReg} (on : s.powered n = true) (up : (s.core n).stopped = false)
    (ok : (s.core n).queueOk q false = true) : exec (.allowanceReturn n q) s = .next (s.takeEntry n q) :=
  congrArg Host.Outcome.next (if_pos ⟨on, by simp [up], ok⟩)

end Sys2Proof.Machine
end

section
/-! ## Instruction boundaries, and a frame's own access to a queue register -/

namespace Sys2Proof.Machine

section
variable {s : State} {n : CoreId} (h : NoneDue s n)
include h

theorem State.mustPark_none : s.mustPark n = false := by
  have due : (s.core n).here.parkDue = false := (h.2 _).2
  simp [State.mustPark, due]

/-- Nothing is taken at a boundary where nothing waits (R54, R348). -/
theorem State.boundary_none : s.boundary n = s := by
  have squash : (s.core n).here.squash = false := (h.2 _).1
  unfold State.boundary
  simp only [h.1, bestTrap, squash, Bool.false_eq_true, and_false, if_false]
  split
  · rfl
  · split <;> rfl

theorem State.atBoundary_none : s.atBoundary n = s := by
  have due : (s.core n).here.parkDue = false := (h.2 _).2
  unfold State.atBoundary
  simp only [State.mustPark_none h, Bool.false_eq_true, if_false, due, Bool.not_false, or_true, if_true]
  exact State.boundary_none h

end

/-- The core in turn begins an access to a queue register. -/
def State.withOp (s : State) (op : QueueOp) : State := s.updMe fun c => c.updHere fun b => { b with queueOp := some op }

/-- A frame that accesses a queue register with nothing due at its boundary begins the access. -/
theorem State.queueAccess_eq {s : State} (op : QueueOp) (on : s.powered s.cur = true) (up : s.me.stopped = false)
    (busy : s.me.level ≠ 0xF) (none_ : NoneDue s s.cur) (free : s.me.here.queueOp = none) :
    s.queueAccess op = (s.withOp op).queueRun := by
  unfold State.queueAccess
  simp only [on, State.mustPark_none none_, State.atBoundary_none none_, Bool.not_true, Bool.false_eq_true, if_false, up, false_or,
    ne_eq, not_true, or_false, free, Option.isSome_none]
  exact if_neg busy

section
variable (s : State) (op : QueueOp)

theorem State.me_withOp : (s.withOp op).me = s.me.updHere fun b => { b with queueOp := some op } := State.me_updMe s _

theorem State.here_withOp : (s.withOp op).me.here = { s.me.here with queueOp := some op } := by
  rw [State.me_withOp, Core.here_updHere]

theorem State.queueOk_withOp (q : QReg) (x : Bool) : (s.withOp op).me.queueOk q x = s.me.queueOk q x := by rw [State.me_withOp]; rfl

theorem State.rq_withOp (q : QReg) : (s.withOp op).me.rq q = s.me.rq q := by rw [State.me_withOp]; rfl

theorem State.pc_withOp : (s.withOp op).pc = s.me.pc := by rw [State.pc, State.me_withOp]; rfl

theorem State.lvl_withOp : (s.withOp op).me.lvl = s.me.lvl := by rw [State.me_withOp]; rfl

theorem State.vpend_withOp : (s.withOp op).me.here.vpend = s.me.here.vpend := by rw [State.here_withOp]

theorem State.rv_withOp (w : VReg) : (s.withOp op).rv w = s.rv w := by rw [State.rv, State.here_withOp]; rfl

end

/-- An access that completes: it runs no longer, and its stall count restarts (R61). -/
def State.accessDone (s : State) : State :=
  s.updMe fun c => { (c.updHere fun b => { b with queueOp := none }) with stalls := c.stalls.set c.lvl.toFin 0 }

/-- The access executes. -/
def State.accessNow (s : State) (op : QueueOp) : Res State :=
  if op.write then s.queueWriteNow op.q op.v else s.queueReadNow op.q op.v

section
variable {s u : State} {op : QueueOp}

/-- An access that has begun is the one that runs: it completes. -/
theorem State.queueRun_ok (h : (s.withOp op).accessNow op = .ok u) : (s.withOp op).queueRun = u.accessDone := by
  have running : (s.withOp op).me.here.queueOp = some op := by rw [State.here_withOp]
  unfold State.accessNow at h
  unfold State.queueRun
  simp only [running, h]
  rfl

/-- An access that has begun is the one that runs: it stops. -/
theorem State.queueRun_error {e : Stop} (h : (s.withOp op).accessNow op = .error (u, e)) : (s.withOp op).queueRun = u.stop e := by
  have running : (s.withOp op).me.here.queueOp = some op := by rw [State.here_withOp]
  unfold State.accessNow at h
  unfold State.queueRun
  simp only [running, h]

end

section
variable (s : State)

theorem State.me_accessDone : s.accessDone.me =
    { (s.me.updHere fun b => { b with queueOp := none }) with stalls := s.me.stalls.set s.me.lvl.toFin 0 } := State.me_updMe s _

theorem State.here_accessDone : s.accessDone.me.here = { s.me.here with queueOp := none } := by
  rw [State.me_accessDone]
  exact Core.here_updHere s.me fun b => { b with queueOp := none }

theorem State.accessDone_ends (l : BitVec 3) (h : s.me.lvl = l) :
    s.accessDone.me.here.queueOp = none ∧ s.accessDone.me.stalls.get l.toFin = 0 ∧ s.accessDone.pc = s.pc := by
  refine ⟨by rw [State.here_accessDone], ?_, ?_⟩
  · rw [State.me_accessDone, ← h]
    exact vecGet_set_same _ _ _
  · rw [State.pc, State.me_accessDone]
    rfl

theorem State.accessDone_rq (q : QReg) : s.accessDone.me.rq q = s.me.rq q := by
  rw [State.me_accessDone]
  rfl

theorem State.accessDone_rv (r : VReg) : s.accessDone.rv r = s.rv r := by
  rw [State.rv, State.here_accessDone]
  rfl

end

/-! ### Reads (R97) -/

section
variable {s : State} {q : QReg} {w : VReg}

theorem State.queueReadNow_forbidden (h : s.me.queueOk q false = false) : s.queueReadNow q w = .error (s, .trap 0x03 0) := by
  simp [State.queueReadNow, h, bind, Except.bind]

theorem State.queueReadNow_stalls (ok : s.me.queueOk q false = true) (h : (s.me.rq q).entries = [] ∨ s.me.here.vpend.getLsbD w.toNat = true) :
    s.queueReadNow q w = .error (s, .stall) := by
  by_cases free : s.me.here.vpend.getLsbD w.toNat
  · simp [State.queueReadNow, ok, free, bind, Except.bind]
  · have empty : (s.me.rq q).entries = [] := h.resolve_right free
    simp [State.queueReadNow, ok, free, empty, bind, Except.bind]

theorem State.queueReadNow_ok {v : QEnt} {l : List QEnt} (ok : s.me.queueOk q false = true)
    (free : s.me.here.vpend.getLsbD w.toNat = false) (entries : (s.me.rq q).entries = v :: l) :
    s.queueReadNow q w = .ok ((s.takeEntry s.cur q).wv w v.data) := by
  simp [State.queueReadNow, ok, free, entries, bind, Except.bind]

/-! ### Writes (R97, R123) -/

theorem State.queueWriteNow_forbidden (h : s.me.queueOk q true = false) : s.queueWriteNow q w = .error (s, .trap 0x03 0) := by
  simp [State.queueWriteNow, h, bind, Except.bind]

theorem State.queueWriteNow_stalls (ok : s.me.queueOk q true = true)
    (h : 8 ≤ (s.me.rq q).entries.length ∨ s.me.here.vpend.getLsbD w.toNat = true) : s.queueWriteNow q w = .error (s, .stall) := by
  by_cases free : s.me.here.vpend.getLsbD w.toNat
  · simp [State.queueWriteNow, ok, free, bind, Except.bind]
  · have full : ¬ (s.me.rq q).entries.length < 8 := Nat.not_lt.2 (h.resolve_right free)
    simp [State.queueWriteNow, ok, free, full, bind, Except.bind]

/-- A register with an entry written to it, in the core in turn. -/
def State.entryPut (s : State) (q : QReg) (x : Vec) : State :=
  s.updMe fun c => c.updQ q fun k => { k with entries := k.entries ++ [{ data := x, src := some (c.lid, q), scope := none }] }

theorem State.queueWriteNow_ok (ok : s.me.queueOk q true = true) (free : s.me.here.vpend.getLsbD w.toNat = false)
    (room : (s.me.rq q).entries.length < 8) (sbuf : s.me.sbuf = []) (flight : s.me.flight = []) (amo : s.me.amoWait = false) :
    s.queueWriteNow q w = .ok ((s.releasedFor s.cur (s.me.rq q).peer).entryPut q ((s.releasedFor s.cur (s.me.rq q).peer).rv w)) := by
  have drained := State.drain_empty s s.cur sbuf flight amo
  simp only [State.queueWriteNow, ok, free, room, decide_true, Bool.not_false, demand_true, bind, Except.bind, drained]
  rfl

end

/-! ### The outcomes of an access -/

/-- What the return of allowance does: a register gains it, or it waits, or there is none. -/
theorem State.returnAllowance_cases (s : State) (x : Option (CoreId × QReg)) : s.returnAllowance x = s ∨
    (∃ m z, s.returnAllowance x = s.updCore m fun c => c.gainAllowance z) ∨ ∃ l, s.returnAllowance x = { s with allowOwed := l } := by
  unfold State.returnAllowance
  split
  · dsimp only
    split
    · exact .inr (.inl ⟨_, _, rfl⟩)
    · exact .inr (.inr ⟨_, rfl⟩)
  · exact .inl rfl

theorem State.takeEntry_cases (s : State) (n : CoreId) (q : QReg) :
    s.takeEntry n q = s ∨ ∃ v l, s.takeEntry n q = (s.entryTaken n q v l).returnAllowance v.src := by
  unfold State.takeEntry
  dsimp only
  split
  · exact .inl rfl
  · split
    · exact .inl rfl
    · exact .inr ⟨_, _, rfl⟩

/-- An entry taken changes cores in their queue registers alone. -/
theorem State.core_takeEntry_field {α : Type} (g : Core → α) (hg : ∀ (c : Core) z f, g (c.updQ z f) = g c) (s : State) (n : CoreId)
    (q : QReg) (m : CoreId) : g ((s.takeEntry n q).core m) = g (s.core m) := by
  obtain e | ⟨v, l, e⟩ := s.takeEntry_cases n q
  · rw [e]
  · have taken : g ((s.entryTaken n q v l).core m) = g (s.core m) := by
      rcases s.entryTaken_core n q v l m with e | ⟨h, e⟩
      · rw [e]
      · rw [e, hg, h]
    rw [e, ← taken]
    obtain e | ⟨k, z, e⟩ | ⟨l, e⟩ := (s.entryTaken n q v l).returnAllowance_cases v.src
    · rw [e]
    · rw [e]
      by_cases h : m = k
      · rw [h, State.core_updCore_same, Core.gainAllowance, hg]
      · rw [State.core_updCore_other _ _ h]
    · rw [e]; rfl

theorem State.takeEntry_cur (s : State) (n : CoreId) (q : QReg) : (s.takeEntry n q).cur = s.cur := by
  obtain e | ⟨v, l, e⟩ := s.takeEntry_cases n q
  · rw [e]
  · have taken : (s.entryTaken n q v l).cur = s.cur := (homesOnly_acquiredFor s n v).cur
    rw [e, ← taken]
    obtain e | ⟨k, z, e⟩ | ⟨l, e⟩ := (s.entryTaken n q v l).returnAllowance_cases v.src
    · rw [e]
    · rw [e]; rfl
    · rw [e]

/-- The entry that a completed read takes, and the end of the access (R97). -/
theorem State.read_done {s : State} {q : QReg} {w : VReg} {v : QEnt} {l : List QEnt} {j : BitVec 3} {pc : BitVec 56}
    (kind : (s.me.rq q).kind = 1 ∨ (s.me.rq q).kind = 3) (entries : (s.me.rq q).entries = v :: l) (lvl : s.me.lvl = j) (hpc : s.pc = pc) :
    let u := ((s.takeEntry s.cur q).wv w v.data).accessDone
    u.rv w = v.data ∧ (u.me.rq q).entries = l ∧ u.me.here.queueOp = none ∧ u.me.stalls.get j.toFin = 0 ∧ u.pc = pc := by
  have me : (s.takeEntry s.cur q).me = (s.takeEntry s.cur q).core s.cur := by rw [State.me, State.takeEntry_cur]
  have taken := State.entries_takeEntry (s := s) (n := s.cur) kind entries
  have level : (s.takeEntry s.cur q).me.lvl = j := by
    rw [me, State.core_takeEntry_field Core.lvl fun _ _ _ => rfl]; exact lvl
  have at_ : (s.takeEntry s.cur q).pc = pc := by
    rw [State.pc, me, State.core_takeEntry_field Core.pc fun _ _ _ => rfl]; exact hpc
  have written : ((s.takeEntry s.cur q).wv w v.data).me = (s.takeEntry s.cur q).me.updHere fun b => b.wv w v.data := State.me_updMe _ _
  obtain ⟨over_, stall, stays⟩ := ((s.takeEntry s.cur q).wv w v.data).accessDone_ends j (by rw [written]; exact level)
  refine ⟨?_, ?_, over_, stall, ?_⟩
  · rw [State.accessDone_rv, State.rv_wv, if_pos rfl]
  · rw [State.accessDone_rq, written, ← taken, me]
    rfl
  · rw [stays, ← at_, State.pc, written]
    rfl

/-- The entry that a completed write puts, and the end of the access (R97). -/
theorem State.write_done {s : State} {q : QReg} {w : VReg} {j : BitVec 3} {pc : BitVec 56} (peer : CoreId) (lvl : s.me.lvl = j)
    (hpc : s.pc = pc) :
    let r := s.releasedFor s.cur peer
    let u := (r.entryPut q (r.rv w)).accessDone
    (u.me.here.queueOp = none ∧ u.me.stalls.get j.toFin = 0 ∧ u.pc = pc) ∧
      (u.me.rq q).entries = (s.me.rq q).entries ++ [{ data := s.rv w, src := some (s.me.lid, q), scope := none }] := by
  have home := homesOnly_releasedFor s s.cur peer
  have same : (s.releasedFor s.cur peer).me = s.me := by rw [State.me, home.cur, home.core, State.me]
  have data : (s.releasedFor s.cur peer).rv w = s.rv w := by rw [State.rv, same, State.rv]
  have put : ((s.releasedFor s.cur peer).entryPut q (s.rv w)).me = s.me.updQ q fun k =>
      { k with entries := k.entries ++ [{ data := s.rv w, src := some (s.me.lid, q), scope := none }] } := by
    rw [State.entryPut, State.me_updMe, same]
  dsimp only
  rw [data]
  obtain ⟨over_, stall, stays⟩ := ((s.releasedFor s.cur peer).entryPut q (s.rv w)).accessDone_ends j (by rw [put]; exact lvl)
  refine ⟨⟨over_, stall, ?_⟩, ?_⟩
  · rw [stays, State.pc, put]; exact hpc
  · rw [State.accessDone_rq, put, Core.rq_updQ_same]

end Sys2Proof.Machine
end

section
/-! ## The weir: entries added, held back and returned -/

namespace Sys2Proof.Machine

/-! ### Entries added, and the quota trap (R377, R378) -/

/-- An entry put in the weir. -/
def State.weirPut (s : State) (q : WeirQueue) (r : Option Region) (item : WeirItem) : State :=
  { s with weir := s.weir ++ [{ queue := q, region := r, item := item }] }

section
variable {s : State} {wq : WeirQueue} {g : Region} {item : WeirItem} {n : CoreId} {ef : Eff}

theorem State.weirFull_iff (ring : s.ringEff (some g) = some ef) : s.weirFull (some g) item = true ↔
    ef.weirq.toNat * 1024 + (ef.weirq.toNat * 1024 / 16 + 63) / 64 * 64 < s.weirBytes (some g) + item.size := by
  simp [State.weirFull, ring]

theorem State.weirAdd_full {r : Option Region} (h : s.weirFull r item = true) : s.weirAdd wq r item n = none := if_pos h

theorem State.weirAdd_room {r : Option Region} (h : s.weirFull r item = false) :
    s.weirAdd wq r item n = some ((s.weirPut wq r item).quotaTrap r wq n) := if_neg (by simp [h])

theorem State.weirAdd_fits (ring : s.ringEff (some g) = some ef)
    (h : ¬ ef.weirq.toNat * 1024 + (ef.weirq.toNat * 1024 / 16 + 63) / 64 * 64 < s.weirBytes (some g) + item.size) :
    s.weirAdd wq (some g) item n = some ((s.weirPut wq (some g) item).quotaTrap (some g) wq n) :=
  State.weirAdd_room (Bool.eq_false_iff.2 (mt (State.weirFull_iff ring).1 h))

/-- The first entry beyond the quota raises the trap (R378). -/
theorem State.quotaTrap_first (ring : s.ringEff (some g) = some ef) (beyond : ef.weirq.toNat * 1024 < s.weirBytes (some g))
    (new : g ∉ s.weirOver) : s.quotaTrap (some g) wq n =
      ({ s with weirOver := g :: s.weirOver } : State).asyncTrap n 0xF 0x0A (BitVec.ofNat 64 (3 + 16 * wq.kind)) := by
  unfold State.quotaTrap
  simp only [ring]
  exact if_pos ⟨beyond, by simpa using new⟩

/-- An entry within the quota raises none, and neither does one while the region is marked. -/
theorem State.quotaTrap_none (ring : s.ringEff (some g) = some ef)
    (h : ¬ (ef.weirq.toNat * 1024 < s.weirBytes (some g) ∧ g ∉ s.weirOver)) : s.quotaTrap (some g) wq n = s := by
  unfold State.quotaTrap
  simp only [ring]
  exact if_neg fun both => h ⟨both.1, by simpa using both.2⟩

theorem State.asyncTrap_taken {c : BitVec 5} {a : Word} (idle : (s.core n).level = 0xF) (up : (s.core n).stopped = false) :
    s.asyncTrap n 0xF c a = s.enterTrap n c a 0 true :=
  if_pos ⟨idle, by rw [idle]; decide, by simp [up]⟩

theorem State.asyncTrap_held {c : BitVec 5} {a : Word} (h : (s.core n).level ≠ 0xF ∨ (s.core n).stopped = true) :
    s.asyncTrap n 0xF c a = s.updCore n fun k =>
      { k with heldTraps := k.heldTraps ++ [{ level := 0xF, cause := c, addr := a, epc := none }] } :=
  if_neg fun all => h.elim (fun busy => busy all.1) fun down => by simp [down] at all

/-- An asynchronous trap that names no frame is taken by an idle core, and held for another (R348). -/
theorem State.asyncTrap_unnamed (s : State) (n : CoreId) (c : BitVec 5) (a : Word) :
    let u := s.asyncTrap n 0xF c a
    u.weir = s.weir ∧ u.weirOver = s.weirOver ∧
      ((s.core n).level = 0xF → (s.core n).stopped = false → EntersSupervisor (s.core n) (u.core n) c a 0 true) ∧
      ((s.core n).level ≠ 0xF →
        (u.core n).heldTraps = (s.core n).heldTraps ++ [{ level := 0xF, cause := c, addr := a, epc := none }]) := by
  dsimp only
  by_cases h : (s.core n).level = 0xF ∧ (s.core n).stopped = false
  · obtain ⟨idle, up⟩ := h
    have fields := enterTrap_fields s n c a 0 true
    rw [State.asyncTrap_taken idle up]
    exact ⟨(congrArg State.weir fields :), (congrArg State.weirOver fields :),
      fun _ _ => entersSupervisor_enterTrap s n c a 0 true (by rw [idle]; decide), fun busy => absurd idle busy⟩
  · have held : (s.core n).level ≠ 0xF ∨ (s.core n).stopped = true := by
      rw [← Bool.not_eq_false]; exact Decidable.not_and_iff_or_not.1 h
    rw [State.asyncTrap_held held, State.core_updCore_same]
    exact ⟨rfl, rfl, fun idle up => absurd ⟨idle, up⟩ h, fun _ => rfl⟩

end

/-! ### A flow held at its sender (R409) -/

section
variable {s : State} {n : CoreId}

theorem State.nextFrom_congr {t : State} (held : ∀ p, t.heldAt n p = s.heldAt n p)
    (start : ∀ a p, (t.core n).startable a p = (s.core n).startable a p) (l : Nat) : t.nextFrom n l = s.nextFrom n l := by
  induction l with
  | zero => rfl
  | succ l ih =>
    have same : (fun a => (t.core n).startable a (BitVec.ofNat 3 l)) = fun a => (s.core n).startable a (BitVec.ofNat 3 l) :=
      funext fun a => start a _
    simp only [State.nextFrom, held, same, ih]

/-- What waits at the interface is nothing to the arrivals that a core holds. -/
theorem State.heldAt_takeNi (i : Nat) (p : BitVec 3) : (s.takeNi n i).heldAt n p = s.heldAt n p := by
  have core := State.core_updCore_same s n fun c => { c with ni := dropAt c.ni i }
  have spills : (s.takeNi n i).spillsTo n p = s.spillsTo n p := by
    funext e
    simp only [State.spillsTo, State.takeNi, core]
    rfl
  rw [State.heldAt, spills, State.takeNi, core]
  rfl

theorem State.startsNow_takeNi (i : Nat) (a : Arr) (p : BitVec 3) : (s.takeNi n i).startsNow n a p = s.startsNow n a p := by
  have core := State.core_updCore_same s n fun c => { c with ni := dropAt c.ni i }
  have next : (s.takeNi n i).nextFrom n 8 = s.nextFrom n 8 :=
    State.nextFrom_congr (State.heldAt_takeNi i) (fun a p => by rw [State.takeNi, core]; rfl) 8
  simp only [State.startsNow, next]
  rw [State.takeNi, core]
  rfl

end

section
variable {s : State} {n : CoreId} {t : Transit} {a : Arr}

/-- The first message at an interface, of none of the types that the core takes otherwise, is the one that it accepts first. -/
theorem State.firstArrival_head {r : List Transit} (ni : (s.core n).ni = t :: r) (cargo : t.cargo = .message a)
    (type : ownType (hdrType a.msg.hdr) = false) (plain : hdrType a.msg.hdr = 0x09 → a.inst = none) (on : s.powered n = true)
    (present : s.present t.dst = true) (phys : s.physOf t.dst = n) (saved : (s.core n).savedLid ≠ some t.dst) :
    s.firstArrival n = some (0, t, a) := by
  have unmoved : a.unmoved = a := by
    unfold Arr.unmoved
    split
    · exact if_neg fun both => by rw [plain both.1] at both; exact absurd both.2 nofun
    · rfl
  have passes : s.passes n t = true := by
    simp [State.passes, cargo, type, present, phys, saved]
  simp only [State.firstArrival, on, ni, firstIdx, passes, cargo, unmoved, Bool.not_true, Bool.false_eq_true, if_false, if_true,
    List.getElem?_cons_zero]

/-- An arrival that cannot start and whose level waits in a full weir is not accepted (R42, R409). -/
theorem State.accept_full (type : hdrType a.msg.hdr ≠ 0 ∧ hdrType a.msg.hdr ≠ 0x0B)
    (fits : (s.core n).tooLarge a ((s.core n).effPrio a.msg.hdr) = false)
    (waits : s.startsNow n a ((s.core n).effPrio a.msg.hdr) = false)
    (queue : s.weirHas (.inbox t.dst ((s.core n).effPrio a.msg.hdr)) = true) (full : s.weirFull (s.core n).bound_ (.arr a) = true) :
    s.accept n t a = none := by
  have names : s.recordOf a = none := if_neg type.2
  have same : s.withRecord a = a := by rw [State.withRecord, names]
  have stays : s.vanishes a = false := by rw [State.vanishes, beq_false_of_ne type.1, beq_false_of_ne type.2]; rfl
  have awake := State.core_updCore_same s n fun c => { c with asleep := false }
  have kept : s.keepArr n t a = none := by
    simp only [State.keepArr, same, stays, fits, Bool.false_eq_true, if_false]
    refine (if_pos (.inl queue)).trans (State.weirAdd_full ?_)
    rw [awake]
    exact full
  simp only [State.accept, same, waits, Bool.false_eq_true, false_and, and_false, if_false, kept, Option.map_none]

/-- The flow of an arrival that a full weir keeps out goes back to its sender, which holds it (R409). -/
def State.flowHeld (s : State) (n : CoreId) (t : Transit) (r : List Transit) : State :=
  { s.updCore n (fun c => { c with ni := r.filter fun y => y.flow != t.flow }) with
    net := ((t :: r.filter fun y => y.flow == t.flow).map fun y => { y with held := true }) ++
      s.net.map fun y => if y.flow = t.flow then { y with held := true } else y }

theorem exec_weirFullReply {r : List Transit} (ni : (s.core n).ni = t :: r) (first : s.firstArrival n = some (0, t, a))
    (kept : (s.takeNi n 0).accept n t a = none) : exec (.weirFullReply n) s = .next (s.flowHeld n t r) := by
  have held : (t :: r).filter t.sameFlow = t :: r.filter fun y => y.flow == t.flow :=
    List.filter_cons_of_pos (beq_self_eq_true _)
  have left : (t :: r).filter (fun y => !t.sameFlow y) = r.filter fun y => y.flow != t.flow :=
    List.filter_cons_of_neg (by simp [Transit.sameFlow])
  have marked : (s.net.map fun (u : Transit) => if t.sameFlow u then { u with held := true } else u) =
      s.net.map fun y => if y.flow = t.flow then { y with held := true } else y := by
    simp only [Transit.sameFlow, beq_iff_eq]
  have taken : (s.updCore n fun c => { c with ni := c.ni.filter fun (u : Transit) => !t.sameFlow u }) =
      s.updCore n fun c => { c with ni := r.filter fun y => y.flow != t.flow } := State.updCore_congr (by rw [ni, left])
  show execWeirFullReply n s = _
  unfold execWeirFullReply
  simp only [first, kept, Option.isNone_none, if_true, ni, held, taken]
  rw [State.flowHeld, ← marked]
  rfl

end

/-- What was held for a core may leave again, whether it was held or not (R409). -/
theorem exec_weirSpaceReply (s : State) (n : CoreId) : exec (.weirSpaceReply n) s =
    .next { s with net := s.net.map fun y => if y.dstMod = s.modu ∧ s.physOf y.dst = n then { y with held := false } else y } := by
  have same (u : Transit) (h : u.held = false) : ({ u with held := false } : Transit) = u := by rw [← h]
  show execWeirSpaceReply n s = _
  unfold execWeirSpaceReply
  refine congrArg (fun l => Host.Outcome.next ({ s with net := l } : State)) (List.map_congr_left fun u _ => ?_)
  cases h : u.held
  · simp [same u h]
  · simp

end Sys2Proof.Machine
end

section
/-! ## Entries of the weir that return to their queues -/

namespace Sys2Proof.Machine

/-- The weir without the entry at place k. -/
def State.weirLeft (s : State) (k : Nat) : State := { s with weir := s.weir.take k ++ s.weir.drop (k + 1) }

/-- What the fall of a region's bytes may change. -/
theorem State.weirFell_eq (s : State) (r : Option Region) : ∃ l, s.weirFell r = { s with weirOver := l } := by
  unfold State.weirFell
  split
  · split
    · exact ⟨_, rfl⟩
    · exact ⟨s.weirOver, rfl⟩
  · exact ⟨s.weirOver, rfl⟩

/-- The oldest entry of its queue returns to it where it has room (R377). -/
theorem exec_weirRefill {s u : State} {place : BitVec 16} {e : WeirEntry} (at_ : s.weir[place.toNat]? = some e)
    (oldest : ∀ o ∈ s.weir.take place.toNat, o.queue ≠ e.queue) (refilled : (s.weirLeft place.toNat).refill e = some u) :
    ∃ l, exec (.weirRefill place) s = .next { u with weirOver := l } := by
  have first : ((s.weir.take place.toNat).any fun (x : WeirEntry) => x.queue == e.queue) = false :=
    List.any_eq_false.2 fun x hx => by simpa using oldest x hx
  obtain ⟨l, fell⟩ := u.weirFell_eq e.region
  refine ⟨l, ?_⟩
  show execWeirRefill place s = _
  unfold execWeirRefill
  simp only [at_, first, dropAt_eq, Bool.false_eq_true, if_false]
  rw [State.weirLeft] at refilled
  simp only [refilled, fell]

/-! ### An inbox (R42, R44) -/

/-- Selection above the highest threshold starts nothing, where no held arrival is to be dropped (R36, R45). -/
theorem State.selectFrom_top {s : State} {n : CoreId} (top : (s.core n).thresh = 7)
    (held : ∀ p, ∀ a ∈ s.heldAt n p, hdrType a.msg.hdr ≠ 0x0B ∧ (s.core n).tooLarge a p = false) (k : Nat) : s.selectFrom n k = s := by
  cases k with
  | zero => rfl
  | succ k =>
    unfold State.selectFrom
    split
    · rfl
    · split
      · rfl
      · rename_i p i next
        split
        · rfl
        · rename_i a at_
          obtain ⟨type, fits⟩ := held p a (List.mem_of_getElem? at_)
          have below : (s.core n).above p = false := by
            have := p.isLt
            rw [Core.above, top, Bool.or_eq_false_iff]
            exact ⟨by decide, decide_eq_false (by rw [show (7 : BitVec 4).toNat = 7 from rfl]; omega)⟩
          rw [if_neg fun both => type both.1, fits, below]
          rfl

theorem State.selectNext_top {s : State} {n : CoreId} (none_ : NoneDue s n) (top : (s.core n).thresh = 7)
    (held : ∀ p, ∀ a ∈ s.heldAt n p, hdrType a.msg.hdr ≠ 0x0B ∧ (s.core n).tooLarge a p = false) : s.selectNext n = s := by
  unfold State.selectNext
  rw [State.atBoundary_none none_]
  exact State.selectFrom_top top held _

theorem Core.held_setHeld (c : Core) (p j : BitVec 3) (l : List Arr) : (c.setHeld p l).held j = if j = p then l else c.held j := by
  by_cases e : j = p
  · subst e
    rw [if_pos rfl]
    exact vecGet_set_same _ _ _
  · rw [if_neg e]
    exact vecGet_set_other _ _ (toFin_ne e)

/-- An arrival put last in an inbox. -/
def State.inboxPut (s : State) (n : CoreId) (p : BitVec 3) (a : Arr) : State := s.updCore n fun c => c.setHeld p (c.held p ++ [a])

section
variable {s : State} {n : CoreId} {p : BitVec 3} {a : Arr} {k : Nat}

theorem State.core_inboxPut : ((s.weirLeft k).inboxPut n p a).core n = (s.core n).setHeld p ((s.core n).held p ++ [a]) :=
  State.core_updCore_same _ n _

/-- What core n holds after an entry of the weir has returned to its inbox is what it held, or that entry. -/
theorem State.mem_heldAt_inboxPut {j : BitVec 3} {b : Arr} (h : b ∈ ((s.weirLeft k).inboxPut n p a).heldAt n j) :
    b ∈ s.heldAt n j ∨ b = a ∧ j = p := by
  have spills : ((s.weirLeft k).inboxPut n p a).spillsTo n j = s.spillsTo n j := by
    funext e
    simp only [State.spillsTo, State.core_inboxPut]
    rfl
  have weir : ((s.weirLeft k).inboxPut n p a).weir.Sublist s.weir := by
    have whole : (s.weir.take k ++ s.weir.drop k).Sublist s.weir := by rw [List.take_append_drop]
    exact (List.Sublist.append (List.Sublist.refl _) (List.drop_sublist_drop_left _ (Nat.le_succ k))).trans whole
  rw [State.heldAt, spills, State.core_inboxPut, Core.held_setHeld, List.mem_append] at h
  rw [State.heldAt, List.mem_append]
  rcases h with inbox | spilled
  · split at inbox
    · rename_i own
      subst own
      rcases List.mem_append.1 inbox with old | new
      · exact .inl (.inl old)
      · exact .inr ⟨List.mem_singleton.1 new, rfl⟩
    · exact .inl (.inl inbox)
  · exact .inl (.inr ((weir.filterMap _).subset spilled))

/-- An arrival returns to an inbox that has room, at a core whose threshold lets none start. -/
theorem State.refill_inbox {lid : CoreId} {r : Option Region} (context : s.contextIn lid = true)
    (room : ((s.core (s.physOf lid)).held p).length < 16) (top : (s.core (s.physOf lid)).thresh = 7) (none_ : NoneDue s (s.physOf lid))
    (held : ∀ j b, b ∈ s.heldAt (s.physOf lid) j ∨ (b = a ∧ j = p) →
      hdrType b.msg.hdr ≠ 0x0B ∧ (s.core (s.physOf lid)).tooLarge b j = false) :
    (s.weirLeft k).refill { queue := .inbox lid p, region := r, item := .arr a } =
      some ((s.weirLeft k).inboxPut (s.physOf lid) p a) := by
  have stays : ((s.weirLeft k).inboxPut (s.physOf lid) p a).selectNext (s.physOf lid) = (s.weirLeft k).inboxPut (s.physOf lid) p a := by
    refine State.selectNext_top ?_ ?_ fun j b hb => ?_
    · rw [NoneDue, State.core_inboxPut]; exact none_
    · rw [State.core_inboxPut]; exact top
    · rw [State.core_inboxPut]
      exact held j b (State.mem_heldAt_inboxPut hb)
  exact (if_pos ⟨context, room⟩).trans (congrArg some stays)

end

/-! ### Mooring lists, dispensers and registers (R93, R368, R97) -/

section
variable {s : State} {k : Nat} {r : Option Region}

/-- An access whose condition does not hold waits in its owner's list again. -/
theorem State.refillMooring_waits {y : Mooring} (near : y.owner.isMem = false)
    (waits : y.mode.holds (s.spotFull { owner := y.owner, word := y.word, dom := y.dom }) = false) :
    s.refillMooring y = { s with moorings := s.moorings ++ [y] } := by
  unfold State.refillMooring
  simp only [near, Bool.false_eq_true, if_false, waits, and_false]

theorem State.refill_mooring {o : Owner} {y : Mooring} (own : y.owner = o) (near : o.isMem = false)
    (room : s.mooringCount o < o.capacity)
    (waits : y.mode.holds (s.spotFull { owner := o, word := y.word, dom := y.dom }) = false) :
    (s.weirLeft k).refill { queue := .mooring o, region := r, item := .moor y } =
      some { s.weirLeft k with moorings := s.moorings ++ [y] } := by
  subst own
  exact (if_pos room).trans (congrArg some (State.refillMooring_waits (s := s.weirLeft k) near waits))

theorem State.refill_tcm {lid : CoreId} {y : Mooring} (context : s.contextIn lid = true)
    (room : s.mooringCount (.tcm (s.physOf lid)) < 64)
    (waits : y.mode.holds (s.spotFull { owner := .tcm (s.physOf lid), word := y.word, dom := y.dom }) = false) :
    (s.weirLeft k).refill { queue := .tcm lid, region := r, item := .moor y } =
      some { s.weirLeft k with moorings := s.moorings ++ [{ y with owner := .tcm (s.physOf lid) }] } :=
  (if_pos ⟨context, room⟩).trans
    (congrArg some (State.refillMooring_waits (s := s.weirLeft k) (y := { y with owner := .tcm (s.physOf lid) }) rfl waits))

theorem State.refill_launch {x : BitVec 6} {id : Nat} (room : (s.sector x).launchQ.length < 16) :
    (s.weirLeft k).refill { queue := .launch x, region := r, item := .launch id } =
      some ((s.weirLeft k).updSector x fun d => { d with launchQ := d.launchQ ++ [id] }) := if_pos room

theorem State.refill_records {blk : BitVec 10} {i : InstRec} (room : (s.block blk).records.length < 256) :
    (s.weirLeft k).refill { queue := .records blk, region := r, item := .record i } =
      some ((s.weirLeft k).updBlock blk fun d => { d with records := d.records ++ [i] }) := if_pos room

theorem State.refill_recv {lid : CoreId} {q : QReg} {v : QEnt} (context : s.contextIn lid = true)
    (room : ((s.core (s.physOf lid)).rq q).room = true) :
    (s.weirLeft k).refill { queue := .recv lid q, region := r, item := .entry v } =
      some ((s.weirLeft k).updCore (s.physOf lid) fun c => c.updQ q fun d => { d with entries := d.entries ++ [v] }) :=
  if_pos ⟨context, room⟩

end

end Sys2Proof.Machine
end

section
/-! ## Events of a core, of the fabric and of the weir -/

namespace Sys2Proof.Machine

theorem sameMemory_flowHeld (s : State) (n : CoreId) (t : Transit) (r : List Transit) : SameMemory s (s.flowHeld n t r) :=
  sameMemory_updCore s n (fun c => { c with ni := r.filter fun y => y.flow != t.flow }) fun _ => rfl

/-- The kind of a queue as the quota trap names it (R378). -/
theorem WeirQueue.kind_of {wq : WeirQueue} {kind : Nat} (names : (∃ l p, wq = .inbox l p) ∧ kind = 0 ∨
    ((∃ o, wq = .mooring o) ∨ ∃ l, wq = .tcm l) ∧ kind = 1 ∨ (∃ x, wq = .launch x) ∧ kind = 2 ∨
    (∃ b, wq = .records b) ∧ kind = 3 ∨ (∃ l q, wq = .recv l q) ∧ kind = 4) : wq.kind = kind := by
  obtain ⟨⟨_, _, rfl⟩, rfl⟩ | ⟨⟨_, rfl⟩ | ⟨_, rfl⟩, rfl⟩ | ⟨⟨_, rfl⟩, rfl⟩ | ⟨⟨_, rfl⟩, rfl⟩ | ⟨⟨_, _, rfl⟩, rfl⟩ := names
  all_goals rfl

section
variable (s : State) (q : QReg) (w : VReg) (on : s.powered s.cur = true) (up : s.me.stopped = false) (busy : s.me.level ≠ 0xF)
  (none_ : NoneDue s s.cur) (idle : s.me.here.queueOp = none)
include on up busy none_ idle

/-- What a read of a queue register by the running frame comes to (R97). -/
theorem State.read_outcomes :
    let t := s.withOp { write := false, q := q, v := w }
    (¬ s.me.queueOk q false = true → s.queueRead q w = t.takeTrap s.cur 0x03 0 s.me.pc false) ∧
      (s.me.queueOk q false = true → (s.me.rq q).entries = [] ∨ ¬ s.me.here.vpend.getLsbD w.toNat = false →
        s.queueRead q w = t.stop .stall) ∧
      ∀ {v : QEnt} {l : List QEnt}, s.me.queueOk q false = true → s.me.here.vpend.getLsbD w.toNat = false → (s.me.rq q).entries = v :: l →
        (s.queueRead q w).rv w = v.data ∧ ((s.queueRead q w).me.rq q).entries = l ∧ (s.queueRead q w).me.here.queueOp = none ∧
          (s.queueRead q w).me.stalls.get s.me.lvl.toFin = 0 ∧ (s.queueRead q w).pc = s.me.pc := by
  have runs : s.queueRead q w = (s.withOp { write := false, q := q, v := w }).queueRun := State.queueAccess_eq _ on up busy none_ idle
  dsimp only
  rw [runs]
  refine ⟨fun no => ?_, fun yes waits => ?_, fun yes open_ entries => ?_⟩
  · have stops := State.queueReadNow_forbidden (w := w) (s := s.withOp { write := false, q := q, v := w }) (q := q)
      (by rw [State.queueOk_withOp]; exact Bool.eq_false_iff.2 no)
    rw [State.queueRun_error (op := { write := false, q := q, v := w }) stops, State.stop_trap, State.pc_withOp]
    rfl
  · refine State.queueRun_error (op := { write := false, q := q, v := w }) (State.queueReadNow_stalls ?_ ?_)
    · rw [State.queueOk_withOp]; exact yes
    · rw [State.rq_withOp, State.vpend_withOp, ← Bool.not_eq_false]; exact waits
  · have takes := State.queueReadNow_ok (s := s.withOp { write := false, q := q, v := w }) (q := q) (w := w)
      (by rw [State.queueOk_withOp]; exact yes) (by rw [State.vpend_withOp]; exact open_) (by rw [State.rq_withOp]; exact entries)
    rw [State.queueRun_ok (op := { write := false, q := q, v := w }) takes]
    exact State.read_done (by rw [State.rq_withOp]; exact (Core.queueOk_read.1 yes).2) (by rw [State.rq_withOp]; exact entries)
      (s.lvl_withOp _) (s.pc_withOp _)

/-- What a write of a queue register by the running frame comes to (R97). -/
theorem State.write_outcomes :
    let t := s.withOp { write := true, q := q, v := w }
    (¬ s.me.queueOk q true = true → s.queueWrite q w = t.takeTrap s.cur 0x03 0 s.me.pc false) ∧
      (s.me.queueOk q true = true → 8 ≤ (s.me.rq q).entries.length ∨ ¬ s.me.here.vpend.getLsbD w.toNat = false →
        s.queueWrite q w = t.stop .stall) ∧
      (s.me.queueOk q true = true → s.me.here.vpend.getLsbD w.toNat = false → (s.me.rq q).entries.length < 8 → s.me.sbuf = [] →
        s.me.flight = [] → s.me.amoWait = false →
        ((s.queueWrite q w).me.here.queueOp = none ∧ (s.queueWrite q w).me.stalls.get s.me.lvl.toFin = 0 ∧
          (s.queueWrite q w).pc = s.me.pc) ∧
          ((s.queueWrite q w).me.rq q).entries =
            (s.me.rq q).entries ++ [{ data := s.rv w, src := some (s.me.lid, q), scope := none }]) := by
  have runs : s.queueWrite q w = (s.withOp { write := true, q := q, v := w }).queueRun := State.queueAccess_eq _ on up busy none_ idle
  dsimp only
  rw [runs]
  refine ⟨fun no => ?_, fun yes waits => ?_, fun yes open_ room sbuf flight amo => ?_⟩
  · have stops := State.queueWriteNow_forbidden (w := w) (s := s.withOp { write := true, q := q, v := w }) (q := q)
      (by rw [State.queueOk_withOp]; exact Bool.eq_false_iff.2 no)
    rw [State.queueRun_error (op := { write := true, q := q, v := w }) stops, State.stop_trap, State.pc_withOp]
    rfl
  · refine State.queueRun_error (op := { write := true, q := q, v := w }) (State.queueWriteNow_stalls ?_ ?_)
    · rw [State.queueOk_withOp]; exact yes
    · rw [State.rq_withOp, State.vpend_withOp, ← Bool.not_eq_false]; exact waits
  · have me := s.me_withOp { write := true, q := q, v := w }
    have puts := State.queueWriteNow_ok (s := s.withOp { write := true, q := q, v := w }) (q := q) (w := w)
      (by rw [State.queueOk_withOp]; exact yes) (by rw [State.vpend_withOp]; exact open_) (by rw [State.rq_withOp]; exact room)
      (by rw [me]; exact sbuf) (by rw [me]; exact flight) (by rw [me]; exact amo)
    obtain ⟨ends, entries⟩ := State.write_done (s := s.withOp { write := true, q := q, v := w }) (q := q) (w := w)
      ((s.withOp { write := true, q := q, v := w }).me.rq q).peer (s.lvl_withOp _) (s.pc_withOp _)
    rw [State.queueRun_ok (op := { write := true, q := q, v := w }) puts]
    refine ⟨ends, entries.trans ?_⟩
    rw [State.rv_withOp, State.rq_withOp, me]
    rfl

end

/-- Settles O52: each event through what the model's functions do there, in the order of the statement. -/
theorem fabricEvents : Obligations.FabricEvents := by
  unfold Obligations.FabricEvents
  intro s n cc run place t a back by_ port e p id x blk rec_ v q z chan lid l r o y w item wq g ef kind
  refine ⟨fun busy up some => ?stall, fun top up waits => ?supervisor, fun ready here present => ?enters,
    fun ready here absent owes source => ?drops, fun ready away through => ?leaves, fun ni cargo heat present moved => ?redirected,
    fun ni cargo heat absent owes source => ?lost, fun at_ oldest => ?refill,
    fun ni cargo type plain on present home saved fits waits queue full => ?full, exec_weirSpaceReply s n, fun kind entries allow => ?sends,
    fun net cargo free first present ready room empty => ?arrives, fun on up level kind entries src => ?allowance,
    fun ring names => ?quota, fun cur on up busy none_ free => ?access⟩
  case stall =>
    refine ⟨exec_stallWatchdog_below busy up some, fun above within =>
      ⟨_, exec_stallWatchdog_over busy up some within above, ?_, stallTrap s n fun c => c.stalls.set c.lvl.toFin 0⟩⟩
    refine (sameMemory_updCore s n _ ?_).trans (sameMemory_takeTrap ..)
    exact fun _ => rfl
  case supervisor =>
    obtain ⟨j, low, waiting⟩ := waits
    have limit := exec_supervisorRunLimit (run := run) top up (State.waitsBelow_of low waiting)
    refine ⟨fun within => ?_, fun beyond => ⟨_, limit.trans (congrArg Host.Outcome.next (if_pos beyond)), sameMemory_nestedTrap s n _, ?_⟩⟩
    · rw [limit, if_neg (Nat.not_lt.2 within)]
      refine congrArg Host.Outcome.next (State.updCore_congr ?_)
      rw [BitVec.ofNat_add, BitVec.ofNat_toNat, BitVec.ofNat_toNat, BitVec.setWidth_eq, BitVec.setWidth_eq]
    · obtain ⟨_, _, core⟩ := s.core_nestedTrap n 0x0C
      rw [core]
      exact ⟨rfl, rfl, rfl, rfl, rfl⟩
  case enters =>
    obtain ⟨at_, cargo, free, first, home⟩ := ready
    have may := State.mayLeave_of cargo free first home
    obtain ⟨z, closed, owes⟩ := ((s.withdrawn place.toNat).closeOf t false).closed_eq t
    obtain ⟨mem, net, ni⟩ := (s.withdrawn place.toNat).enters_core t (s.physOf t.dst)
    refine ⟨_, z, exec_dieEntryResolve_enters at_ may here.1 here.2 present, mem, net,
      ni.trans (congrArg (fun y => (s.core (s.physOf t.dst)).ni ++ [y]) closed), owes, fun hb close owner source there hold => ?_⟩
    obtain ⟨est, held, closing⟩ := ((s.withdrawn place.toNat).closeOf t false).status_updCore_ni n (s.physOf t.dst)
      (((s.withdrawn place.toNat).closeOf t false).closed t) (engineOf back.cmd)
    rw [source] at hold
    rw [est, held, closing, State.closeOf_closing false cargo hb close owner]
    exact endsWith_closeCmd (s := s.withdrawn place.toNat) (cmd := back.cmd) (fault := false) there hold
  case drops =>
    obtain ⟨at_, cargo, free, first, home⟩ := ready
    have may := State.mayLeave_of cargo free first home
    refine ⟨_, (exec_dieEntryResolve_drops at_ may here.1 here.2 absent).trans
        (congrArg Host.Outcome.next (State.dropAbsent_eq cargo owes)), ?_, ?_, ?_, ?_⟩
    · exact sameMemory_dropped (s.withdrawn place.toNat) t _ back
    · rw [← source]
      exact handsBack_postOwn ((s.withdrawn place.toNat).dropped_net t _ back) by_ back.cmd 0x03 back.succ _ _
    · intro made hb close owner source there hold
      rw [source] at hold
      exact State.dropped_closing (s := s.withdrawn place.toNat) cargo owes close owner there hold made
    · intro hold close last
      rw [source] at hold last
      have amended := State.dropped_last (s := s.withdrawn place.toNat) (hdrSrc a.msg.hdr) owes close hold last
      rw [source]
      exact amended
  case leaves =>
    obtain ⟨at_, cargo, free, first, home⟩ := ready
    exact ⟨_, exec_dieEntryResolve_leaves at_ (State.mayLeave_of cargo free first home) away through, SameMemory.refl s, rfl, rfl⟩
  case redirected =>
    have moves := exec_movedRedirect_first ni heat (.inr moved)
    rw [present, if_pos rfl] at moves
    have mark : t.moved = { t with cargo := .message { a with msg := { a.msg with hdr := a.msg.hdr ||| (1 <<< 54) } } } := by
      simp only [Transit.moved, cargo]
      rfl
    refine ⟨_, moves, sameMemory_takeFirst.trans (sameMemory_updCore _ _ _ fun _ => rfl), ?_, ?_⟩
    · rw [State.core_updCore_other _ _ moved.symm, State.takeFirst_ni]
    · rw [State.core_updCore_same, State.takeFirst, State.core_updCore_other _ _ moved, mark]
  case lost =>
    have moves := exec_movedRedirect_first ni heat (.inl absent)
    rw [absent, if_neg Bool.false_ne_true, State.dropAbsent_eq cargo owes] at moves
    refine ⟨_, moves, sameMemory_takeFirst.trans (sameMemory_dropped ..), ?_, ?_⟩
    · have kept := (s.takeFirst n r).core_dropped_field t (hdrSrc a.msg.hdr) back Core.ni (fun c e f => c.updEst_ni e f) (fun _ _ => rfl)
        (fun _ _ => rfl) n
      exact kept.trans State.takeFirst_ni
    · rw [← source]
      exact handsBack_postOwn ((s.takeFirst n r).dropped_net t _ back) by_ back.cmd 0x03 back.succ _ _
  case refill =>
    obtain ⟨queue, region, held⟩ := e
    refine ⟨?_, ?_, ?_, ?_, ?_, ?_⟩
    · rintro rfl rfl context room top none_ fits
      obtain ⟨over_, e⟩ := exec_weirRefill at_ oldest (State.refill_inbox context room top none_ fits)
      refine ⟨_, e, rfl, ?_⟩
      exact (congrArg (fun c : Core => c.held p) State.core_inboxPut).trans ((Core.held_setHeld ..).trans (if_pos rfl))
    · rintro rfl rfl room
      obtain ⟨over_, e⟩ := exec_weirRefill at_ oldest (State.refill_launch room)
      have grown := State.sector_updSector_same (s.weirLeft place.toNat) x fun d => { d with launchQ := d.launchQ ++ [id] }
      exact ⟨_, e, rfl, (congrArg Sector.launchQ grown :)⟩
    · rintro rfl rfl room
      obtain ⟨over_, e⟩ := exec_weirRefill at_ oldest (State.refill_records room)
      have grown := State.block_updBlock_same (s.weirLeft place.toNat) blk fun d => { d with records := d.records ++ [rec_] }
      exact ⟨_, e, rfl, (congrArg Block.records grown :)⟩
    · rintro rfl rfl own near room waits
      obtain ⟨over_, e⟩ := exec_weirRefill at_ oldest (State.refill_mooring own near room waits)
      exact ⟨_, e, rfl, rfl⟩
    · rintro rfl rfl context room waits
      obtain ⟨over_, e⟩ := exec_weirRefill at_ oldest (State.refill_tcm context room waits)
      exact ⟨_, e, rfl, rfl⟩
    · rintro rfl rfl context room
      obtain ⟨over_, e⟩ := exec_weirRefill at_ oldest (State.refill_recv context room)
      have grown := (s.weirLeft place.toNat).rq_updCore_updQ (s.physOf lid) q fun d => { d with entries := d.entries ++ [v] }
      exact ⟨_, e, rfl, (congrArg QueueReg.entries grown :)⟩
  case full =>
    obtain ⟨own0, own5, own8, ownB⟩ : hdrType a.msg.hdr ≠ 0x00 ∧ hdrType a.msg.hdr ≠ 0x05 ∧ hdrType a.msg.hdr ≠ 0x08 ∧
        hdrType a.msg.hdr ≠ 0x0B := by simpa using type
    have untaken : ownType (hdrType a.msg.hdr) = false := by rw [ownType, beq_false_of_ne own5, beq_false_of_ne own8]; rfl
    have first := State.firstArrival_head ni cargo untaken plain on present home saved
    have core : (s.takeNi n 0).core n = { s.core n with ni := dropAt (s.core n).ni 0 } := State.core_updCore_same s n _
    have kept : (s.takeNi n 0).accept n t a = none := by
      refine State.accept_full ⟨own0, ownB⟩ ?_ ?_ ?_ ?_ <;> rw [core]
      · exact fits
      · exact (State.startsNow_takeNi 0 a _).trans waits
      · exact queue
      · exact full
    refine ⟨_, exec_weirFullReply ni first kept, sameMemory_flowHeld s n t r, ?_, rfl⟩
    exact congrArg Core.ni (State.core_updCore_same s n fun c => { c with ni := r.filter fun y => y.flow != t.flow })
  case sends =>
    obtain ⟨net, register⟩ := s.sendEntry_fields n ((s.core n).rq q).peer q l _
    exact ⟨_, _, exec_channelEntrySend kind entries allow, net, rfl, rfl, register⟩
  case arrives =>
    have at_ : s.net[(0 : BitVec 16).toNat]? = some t := by rw [net]; rfl
    have young := State.youngest_head true first
    refine ⟨_, exec_channelEntryArrive at_ cargo free young present ready room empty, sameMemory_updCore _ _ _ fun _ => rfl,
      State.withdrawn_head net, ?_⟩
    have grown := (s.withdrawn 0).rq_updCore_updQ (s.physOf t.dst) q fun d => { d with entries := d.entries ++ [v] }
    exact (congrArg QueueReg.entries grown :)
  case allowance =>
    exact ⟨_, exec_allowanceReturn on up (Core.queueOk_read.2 ⟨level, kind⟩), State.entries_takeEntry kind entries,
      State.takeEntry_gains kind entries src, State.takeEntry_owes kind entries src⟩
  case quota =>
    refine ⟨fun full => State.weirAdd_full ((State.weirFull_iff ring).2 full), fun fits later => ?_, fun fits first => ?_⟩
    · rw [State.weirAdd_fits ring fits]
      exact congrArg some (State.quotaTrap_none (s := s.weirPut wq (some g) item) ring later)
    · obtain ⟨beyond, new⟩ := first
      have trap := State.quotaTrap_first (s := s.weirPut wq (some g) item) (wq := wq) (n := n) ring beyond new
      rw [WeirQueue.kind_of names] at trap
      rw [State.weirAdd_fits ring fits, trap]
      exact ⟨_, rfl, State.asyncTrap_unnamed ..⟩
  case access =>
    subst cur
    obtain ⟨forbidden, stalls, done⟩ := s.read_outcomes q w on up busy none_ free
    obtain ⟨forbidden', stalls', done'⟩ := s.write_outcomes q w on up busy none_ free
    exact ⟨fun no => forbidden fun ok => no (Core.queueOk_read.1 ok), fun ok => stalls (Core.queueOk_read.2 ok),
      fun ok free entries => done (Core.queueOk_read.2 ok) free entries, fun no => forbidden' fun ok => no (Core.queueOk_write.1 ok),
      fun ok => stalls' (Core.queueOk_write.2 ok),
      fun ok free room sbuf flight amo => done' (Core.queueOk_write.2 ok) free room sbuf flight amo⟩

end Sys2Proof.Machine
end

section
/-! ## What reset and bring-up leave -/

namespace Sys2Proof.Machine

theorem State.core_reset (n : CoreId) : State.reset.core n = Core.reset n := Core.booted_reset n

theorem State.die_reset (x : BitVec 4) : State.reset.die x = Die.reset := Die.booted_reset x

/-- Every item of a vector of equal items is that item. -/
theorem vecGet_replicate {α : Type} {n : Nat} (x : α) (i : Fin n) : (Vector.replicate n x).get i = x := by
  rw [Vector.get_eq_getElem, Vector.getElem_replicate]

theorem Core.bank_reset (n : CoreId) (l : BitVec 3) : (Core.reset n).bank l = Bank.reset := vecGet_replicate _ _

theorem Sector.slots_reset (i : Fin 64) : Sector.reset.slots.get i = Slot.reset := vecGet_replicate _ _

/-- Every switch of a cluster is closed after reset (R434). -/
theorem Cluster.pon_reset (i : BitVec 4) : Cluster.reset.pon.getLsbD i.toNat = true := by
  have all_closed : ∀ j : Fin 16, (0xFFFF : BitVec 16).getLsbD j = true := by decide
  exact all_closed ⟨i.toNat, i.isLt⟩

/-- Every ceiling is 6 after reset (R345). -/
theorem Core.ceil_reset (n : CoreId) (e : Fin 16) : bits (Core.reset n).ceil (3 * e.val) 3 = (6 : BitVec 3) := by
  have all_six : ∀ j : Fin 16, bits (0xDB6DB6DB6DB6 : BitVec 48) (3 * j.val) 3 = (6 : BitVec 3) := by decide
  exact all_six e

/-- The cause register names no cause and an idle core after reset (R345). -/
theorem Core.cause_reset (n : CoreId) : causeCode (Core.reset n).cause = 0 ∧ causeLevel (Core.reset n).cause = 0xF ∧
    causeAsync (Core.reset n).cause = false ∧ causeEntered (Core.reset n).cause = false := by
  show causeCode 0xF00 = 0 ∧ causeLevel 0xF00 = 0xF ∧ causeAsync 0xF00 = false ∧ causeEntered 0xF00 = false
  decide

/-- With no core disabled the search for a free number ends where it starts. -/
theorem firstFree_nil (k : Nat) (n : CoreId) : firstFree [] k n = n := by cases k <;> rfl

/-- The service core of a sector is its first core where none is disabled (R16). -/
theorem State.serviceCore_reset (x : BitVec 6) : State.reset.serviceCore x = x ++ 0#12 := firstFree_nil _ _

/-- The number of a sector's first core. -/
theorem firstCore_toNat (x : BitVec 6) : BitVec.ofNat 18 (4096 * x.toNat) = x ++ 0#12 := by
  apply BitVec.eq_of_toNat_eq
  simp only [BitVec.toNat_ofNat, BitVec.toNat_append, Nat.shiftLeft_eq, Nat.zero_mod, Nat.or_zero]
  have := x.isLt
  omega

theorem State.services_reset (x : BitVec 6) : (x, x ++ 0#12) ∈ State.reset.services := by
  refine List.mem_map.2 ⟨x.toNat, List.mem_range.2 x.isLt, ?_⟩
  rw [firstCore_toNat, BitVec.ofNat_toNat, BitVec.setWidth_eq]

/-- No core is stopped after reset (R434). -/
theorem State.readCluster_stopped_reset (cl : BitVec 14) : State.reset.readCluster cl 0x050 = 0 := by
  have none_stopped : ∀ i, (State.reset.core (coreOf cl i)).stopped = false := fun i => by rw [State.core_reset]; rfl
  simp [State.readCluster, none_stopped]

/-- The registers of a cluster's window after reset (R434). -/
theorem State.readCluster_reset (cl : BitVec 14) : State.reset.readCluster cl 0 = 0 ∧ State.reset.readCluster cl 0x008 = 0xFFFF ∧
    State.reset.readCluster cl 0x010 = 0x642850 ∧ State.reset.readCluster cl 0x018 = 0x4643250 ∧
    State.reset.readCluster cl 0x030 = 0xFFFF055F ∧ State.reset.readCluster cl 0x038 = 0 ∧
    State.reset.readCluster cl 0x040 = 0 ∧ State.reset.readCluster cl 0x050 = 0 := by
  have lrail : (0x64#8 ++ 0x28#8 ++ 0x50#8).setWidth 64 = (0x642850 : Word) := by decide
  have srail : (0x4#8 ++ 0x64#8 ++ 0x32#8 ++ 0x50#8).setWidth 64 = (0x4643250 : Word) := by decide
  have heat : (0xFFFF#16 ++ 0x5#8 ++ 0x5F#8).setWidth 64 = (0xFFFF055F : Word) := by decide
  have gate : (0#2 ++ BitVec.ofBool false ++ BitVec.ofBool false).setWidth 64 = (0 : Word) := by decide
  have errors : (0#32 ++ 0#32 : Word) = 0 := by decide
  exact ⟨rfl, rfl, lrail, srail, heat, gate, errors, State.readCluster_stopped_reset cl⟩

/-- The machine-check registers of a die are zero after reset (R445). -/
theorem State.readDie_reset (d : BitVec 4) {i : Nat} (hi : i ∈ [0, 8, 16, 24, 32]) : State.reset.readDie d i = 0 := by
  simp only [State.readDie, State.die_reset]
  fin_cases hi <;> rfl

/-- What a core holds besides its supervisor registers is empty after reset (R89, R259, R271, R287, R383). -/
theorem Core.reset_holds_nothing (n : CoreId) (l : BitVec 3) (r : HReg) (e : Fin 16) :
    ((Core.reset n).bank l).mctx = 0x99 ∧ ((Core.reset n).bank l).live = false ∧ ((Core.reset n).bank l).claims = [] ∧
      (Core.reset n).h.get r.toFin = 0 ∧ (Core.reset n).ht = 0 ∧ (Core.reset n).kcnt = 0 ∧
      ((Core.reset n).plb.get e).valid = false ∧ (Core.reset n).latchL = none ∧ (Core.reset n).latchI = none ∧
      (Core.reset n).binding = none ∧ (Core.reset n).stopped = false := by
  rw [Core.bank_reset]
  exact ⟨rfl, rfl, rfl, vecGet_replicate _ _, rfl, rfl, congrArg PlbEntry.valid (vecGet_replicate PlbEntry.reset e), rfl, rfl, rfl, rfl⟩

/-- Settles O50: each part of the state is the value that reset gives it, read through its own accessor. -/
theorem resetState : Obligations.ResetState := by
  refine ⟨fun n l r e => ?_, fun a => ⟨rfl, rfl, rfl⟩, State.readCluster_reset,
    fun d i => State.readDie_reset d, fun x i => Sector.slots_reset i, fun x => ?_, rfl, rfl, rfl⟩
  · dsimp only
    rw [State.core_reset]
    obtain ⟨code, level, async, entered⟩ := Core.cause_reset n
    obtain ⟨mctx, live, claims, h, ht, kcnt, plb, latchL, latchI, binding, stopped⟩ := Core.reset_holds_nothing n l r e
    exact ⟨rfl, rfl, rfl, rfl, rfl, rfl, Core.ceil_reset n e, code, level, async, entered, rfl, rfl, rfl, rfl, rfl, rfl, rfl, rfl, rfl,
      mctx, live, claims, h, ht, kcnt, plb, latchL, latchI, binding, stopped, Cluster.pon_reset _, fun a => ⟨rfl, rfl, rfl⟩⟩
  · rw [State.serviceCore_reset]
    exact ⟨rfl, State.services_reset x⟩

end Sys2Proof.Machine
end

section
/-! ## Hypervector operations, and their claim -/

namespace Sys2Proof.Machine

/-! ### Lanes and counts -/

/-- The lanes that were joined, each cut to its width. -/
theorem joinLanes_lane (w : Nat) : ∀ (l : List Nat) (i : Nat), joinLanes w l / 2 ^ (w * i) % 2 ^ w = (l[i]?).getD 0 % 2 ^ w
  | [], i => by simp [joinLanes]
  | x :: r, 0 => by simp [joinLanes]
  | x :: r, i + 1 => by
    have low : x % 2 ^ w < 2 ^ w := Nat.mod_lt _ (Nat.two_pow_pos w)
    rw [joinLanes, Nat.mul_succ, Nat.pow_add, Nat.mul_comm (2 ^ (w * i)), ← Nat.div_div_eq_div_mul,
      Nat.add_mul_div_left _ _ (Nat.two_pow_pos w), Nat.div_eq_of_lt low, Nat.zero_add, joinLanes_lane w r i, List.getElem?_cons_succ]

theorem upFrom_eq_range' : ∀ lo n, upFrom lo n = List.range' lo n
  | _, 0 => rfl
  | lo, n + 1 => by rw [upFrom, List.range'_succ, upFrom_eq_range']

/-- The lanes joined from a function of their number, cut to its width. -/
theorem joinLanes_map_lane (w : Nat) (f : Nat → Nat) {n i : Nat} (h : i < n) :
    joinLanes w ((upFrom 0 n).map f) / 2 ^ (w * i) % 2 ^ w = f i % 2 ^ w := by
  rw [joinLanes_lane, upFrom_eq_range']
  simp [h]

/-- A field of the bits of a number. -/
theorem extractLsb'_ofNat_inside {v lo n : Nat} (x : Nat) (h : lo + n ≤ v) :
    (BitVec.ofNat v x).extractLsb' lo n = BitVec.ofNat n (x / 2 ^ lo % 2 ^ n) := by
  apply BitVec.eq_of_getLsbD_eq
  intro i hi
  have inside : i + lo < v := by omega
  simp only [BitVec.getLsbD_extractLsb', BitVec.getLsbD_ofNat, Nat.testBit_mod_two_pow, Nat.testBit_div_two_pow, hi, inside, decide_true,
    Bool.true_and, Nat.add_comm lo i]

/-- The count of 1 bits is the number of places that have one. -/
theorem popCount_eq {w : Nat} (x : BitVec w) : ∀ n, popCount x n = ((List.range n).filter fun j => x.getLsbD j).length
  | 0 => rfl
  | n + 1 => by
    rw [popCount, popCount_eq x n, List.range_succ, List.filter_append, List.length_append, List.filter_singleton]
    cases x.getLsbD n <;> rfl

/-! ### The counters (R297) -/

/-- Saturation to a signed byte (R135). -/
theorem satI_byte (x : Int) : satI true 8 x = max (-128) (min 127 x) := by
  unfold satI
  norm_num
  split
  · omega
  · split <;> omega

/-- A signed byte survives its encoding. -/
theorem toInt_wrapN_byte {x : Int} (lo : -128 ≤ x) (hi : x ≤ 127) : (BitVec.ofNat 8 (wrapN 8 x % 2 ^ 8)).toInt = x := by
  have encoded : BitVec.ofNat 8 (wrapN 8 x % 2 ^ 8) = BitVec.ofInt 8 x := by
    apply BitVec.eq_of_toNat_eq
    rw [BitVec.toNat_ofNat, BitVec.toNat_ofInt, wrapN]
    norm_num
    omega
  rw [encoded]
  exact BitVec.toInt_ofInt_eq_self (by decide) lo (Int.lt_add_one_of_le hi)

/-- A bundle moves each counter by one, within a signed byte. -/
theorem counterAt_bundle (k : BitVec 32768) (h : Hv) {j : Nat} (hj : j < 4096) :
    counterAt (bundle k h) j = max (-128) (min 127 (counterAt k j + if h.getLsbD j then 1 else -1)) := by
  rw [counterAt, bundle, extractLsb'_ofNat_inside _ (by omega), joinLanes_map_lane 8 _ hj, ← satI_byte]
  apply toInt_wrapN_byte <;> rw [satI_byte] <;> omega

/-- The sign of each counter, with the tie-breaker's bit for zero. -/
theorem getLsbD_threshold (k : BitVec 32768) (t : Hv) {j : Nat} (hj : j < 4096) : (threshold k t).getLsbD j =
    (decide (0 < counterAt k j) || (decide (counterAt k j = 0) && t.getLsbD j)) := by
  have lane := joinLanes_map_lane 1
    (fun i => if counterAt k i > 0 then 1 else if counterAt k i < 0 then 0 else if t.getLsbD i then 1 else 0) hj
  rw [Nat.one_mul, Nat.pow_one] at lane
  rw [threshold, BitVec.getLsbD_ofNat, Nat.testBit_eq_decide_div_mod_eq, lane]
  by_cases pos : 0 < counterAt k j
  · simp [pos, hj]
  · by_cases neg : counterAt k j < 0
    · simp [pos, neg, hj, Int.ne_of_lt neg]
    · have zero : counterAt k j = 0 := by omega
      cases t.getLsbD j <;> simp [zero, hj]

/-! ### The claim (R50, R289) -/

/-- The running frame holds resource 0. -/
def State.heldHyper (s : State) : Bool := s.me.here.claims.any fun x => x.res == 0

theorem State.hyper_held {s : State} (held : s.heldHyper = true) (f : State → State) : s.hyper f = .next ((f s).advance 4) := by
  rw [State.hyper, State.needHyper, show (s.me.here.claims.any fun x => x.res == 0) = true from held]
  rfl

section
variable {s : State} (free : s.heldHyper = false)
include free

theorem State.needHyper_free : s.needHyper = .error (s, .trap 0x05 0) := by
  rw [State.needHyper, show (s.me.here.claims.any fun x => x.res == 0) = false from free, demand_false]

/-- Without resource 0 an instruction whose first check is the claim's traps. -/
theorem traps_needHyper {i : Instr} {k : Unit → Res State} (e : exec i s = finish (s.needHyper >>= k)) : Traps s i 0x05 0 :=
  traps_finish e (by rw [State.needHyper_free free]; rfl)

end

/-! ### Operations on the hypervector state (R296 to R298) -/

/-- The core in turn with hypervectors, tie-breaker and counters replaced. -/
def State.withHyper (s : State) (h : Vector Hv 4) (ht : Hv) (k : BitVec 32768) : State :=
  s.updMe fun c => { c with h, ht, kcnt := k }

section
variable (s : State) (d a b : HReg) (r : SReg) (n : BitVec 12)

theorem exec_hbind : exec (.hbind d a b) s = s.hyper fun s => s.wh d (s.rh a ^^^ s.rh b) := rfl
theorem exec_hpermRegister : exec (.hpermRegister d a r) s = s.hyper fun s => s.wh d ((s.rh a).rotateLeft (bits (s.rs r) 0 12).toNat) := rfl
theorem exec_hpermImmediate : exec (.hpermImmediate d a n) s = s.hyper fun s => s.wh d ((s.rh a).rotateLeft n.toNat) := rfl
theorem exec_hbund : exec (.hbund a) s = s.hyper fun s => s.withHyper s.me.h s.me.ht (bundle s.me.kcnt (s.rh a)) := rfl
theorem exec_hthr : exec (.hthr d) s = s.hyper fun s => s.wh d (threshold s.me.kcnt s.me.ht) := rfl
theorem exec_htie : exec (.htie a) s = s.hyper fun s => s.withHyper s.me.h (s.rh a) s.me.kcnt := rfl
theorem exec_hdist : exec (.hdist r a b) s = s.hyper fun s => s.ws r (BitVec.ofNat 64 (popCount (s.rh a ^^^ s.rh b) 4096)) := rfl
theorem exec_hpop : exec (.hpop r a) s = s.hyper fun s => s.ws r (BitVec.ofNat 64 (popCount (s.rh a) 4096)) := rfl

theorem exec_hclr_h0 : exec (.hclr .h0) s = s.hyper fun s => s.withHyper (s.me.h.set 0 0) s.me.ht s.me.kcnt := rfl
theorem exec_hclr_h1 : exec (.hclr .h1) s = s.hyper fun s => s.withHyper (s.me.h.set 1 0) s.me.ht s.me.kcnt := rfl
theorem exec_hclr_h2 : exec (.hclr .h2) s = s.hyper fun s => s.withHyper (s.me.h.set 2 0) s.me.ht s.me.kcnt := rfl
theorem exec_hclr_h3 : exec (.hclr .h3) s = s.hyper fun s => s.withHyper (s.me.h.set 3 0) s.me.ht s.me.kcnt := rfl
theorem exec_hclr_ht : exec (.hclr .ht) s = s.hyper fun s => s.withHyper s.me.h 0 s.me.kcnt := rfl
theorem exec_hclr_k : exec (.hclr .k) s = s.hyper fun s => s.withHyper s.me.h s.me.ht 0 := rfl

end

section
variable (s : State) (h : Vector Hv 4) (ht : Hv) (k : BitVec 32768)

theorem State.me_advance_withHyper : ((s.withHyper h ht k).advance 4).me =
    { s.me with h, ht, kcnt := k, pc := s.me.pc + BitVec.ofNat 56 4, stalls := s.me.stalls.set s.me.lvl.toFin 0 } := by
  rw [State.advance, State.me_updMe, State.withHyper, State.me_updMe]
  rfl

theorem State.rh_advance_withHyper (q : HReg) : ((s.withHyper h ht k).advance 4).rh q = h.get q.toFin := by
  rw [State.rh, State.me_advance_withHyper]

end

/-- An operation of the unit that replaces hypervector state completes with nothing else changed. -/
theorem hyperGives_withHyper {s : State} {i : Instr} {f : State → State} {p : State → Prop} {h : Vector Hv 4} {ht : Hv}
    {k : BitVec 32768} (e : exec i s = s.hyper f) (held : s.heldHyper = true) (ef : f s = s.withHyper h ht k)
    (gives : p ((s.withHyper h ht k).advance 4)) : HyperGives s i p := by
  have whole : (s.withHyper h ht k).advance 4 = s.setMe
      { s.me with h, ht, kcnt := k, pc := s.me.pc + BitVec.ofNat 56 4, stalls := s.me.stalls.set s.me.lvl.toFin 0 } := by
    rw [State.advance, State.withHyper, State.updMe_updMe]
    rfl
  refine ⟨(s.withHyper h ht k).advance 4, ?_, ?_, ?_, ?_, gives⟩
  · rw [e, State.hyper_held held, ef]
  · exact ⟨h, ht, k, s.me.hprog, s.me.hpc, _, _, whole⟩
  · rw [whole]
    exact sameMemory_setMe s _ rfl
  · rw [State.pc, State.me_advance_withHyper]
    rfl

/-- An operation of the unit that writes one hypervector completes with the others, tie-breaker and counters as they were. -/
theorem hyperGives_wh {s : State} {i : Instr} {d : HReg} {x : State → Hv} {p : Hv → Prop}
    (e : exec i s = s.hyper fun s => s.wh d (x s)) (held : s.heldHyper = true) (gives : p (x s)) :
    HyperGives s i fun u => ((∀ q, q ≠ d → u.rh q = s.rh q) ∧ u.me.ht = s.me.ht ∧ u.me.kcnt = s.me.kcnt) ∧ p (u.rh d) := by
  have read (q : HReg) : ((s.withHyper (s.me.h.set d.toFin (x s)) s.me.ht s.me.kcnt).advance 4).rh q =
      if q = d then x s else s.rh q := by
    rw [State.rh_advance_withHyper]
    split
    · next same => rw [same]; exact vecGet_set_same _ _ _
    · next other => exact vecGet_set_other _ _ (toFin_ne other)
  refine hyperGives_withHyper e held (h := s.me.h.set d.toFin (x s)) (ht := s.me.ht) (k := s.me.kcnt) rfl
    ⟨⟨fun q other => ?_, ?_, ?_⟩, ?_⟩
  · rw [read, if_neg other]
  · rw [State.me_advance_withHyper]
  · rw [State.me_advance_withHyper]
  · rw [read, if_pos rfl]
    exact gives

/-- An operation of the unit that writes a scalar register completes with no other effect. -/
theorem retires_hyper {s : State} {i : Instr} {d : SReg} {x : State → Word} (e : exec i s = s.hyper fun s => s.ws d (x s))
    (held : s.heldHyper = true) : Retires s i d (x s) 4 :=
  retires_retire (e.trans (State.hyper_held held _))

/-- A rotation to the left by less than the width takes each bit from as many places below, modulo the width (R296). -/
theorem getLsbD_rotateLeft_hv (x : Hv) {k j : Nat} (hk : k < 4096) (hj : j < 4096) :
    (x.rotateLeft k).getLsbD j = x.getLsbD ((j + 4096 - k) % 4096) := by
  rw [BitVec.getLsbD_rotateLeft, Nat.mod_eq_of_lt hk]
  by_cases below : j < k
  · rw [decide_eq_true below, cond_true, show (j + 4096 - k) % 4096 = 4096 - k + j by omega]
  · rw [decide_eq_false below, cond_false, decide_eq_true hj, Bool.true_and, show (j + 4096 - k) % 4096 = j - k by omega]

/-- The hypervectors of a core with one of them cleared. -/
theorem get_set_clear (h : Vector Hv 4) (i q : HReg) : (h.set i.toFin 0).get q.toFin = if q = i then 0 else h.get q.toFin := by
  split
  · next same => rw [same]; exact vecGet_set_same _ _ _
  · next other => exact vecGet_set_other _ _ (toFin_ne other)

/-- What `hclr` leaves in each part of the hypervector state (R297). -/
def Cleared (s : State) (t : HTarget) (u : State) : Prop :=
  (∀ q : HReg, u.rh q = if (t = .h0 ∧ q = 0) ∨ (t = .h1 ∧ q = 1) ∨ (t = .h2 ∧ q = 2) ∨ (t = .h3 ∧ q = 3) then 0 else s.rh q) ∧
    u.me.ht = (if t = .ht then 0 else s.me.ht) ∧ u.me.kcnt = (if t = .k then 0 else s.me.kcnt)

theorem hyperGives_hclr {s : State} (held : s.heldHyper = true) (t : HTarget) : HyperGives s (.hclr t) (Cleared s t) := by
  have reads (h ht k) : ((s.withHyper h ht k).advance 4).me.ht = ht ∧ ((s.withHyper h ht k).advance 4).me.kcnt = k := by
    rw [State.me_advance_withHyper]
    exact ⟨rfl, rfl⟩
  cases t
  case h0 => exact hyperGives_withHyper (exec_hclr_h0 s) held rfl ⟨fun q => (State.rh_advance_withHyper s _ _ _ q).trans
      ((get_set_clear s.me.h 0 q).trans (if_congr (by simp) rfl rfl)), reads _ _ _⟩
  case h1 => exact hyperGives_withHyper (exec_hclr_h1 s) held rfl ⟨fun q => (State.rh_advance_withHyper s _ _ _ q).trans
      ((get_set_clear s.me.h 1 q).trans (if_congr (by simp) rfl rfl)), reads _ _ _⟩
  case h2 => exact hyperGives_withHyper (exec_hclr_h2 s) held rfl ⟨fun q => (State.rh_advance_withHyper s _ _ _ q).trans
      ((get_set_clear s.me.h 2 q).trans (if_congr (by simp) rfl rfl)), reads _ _ _⟩
  case h3 => exact hyperGives_withHyper (exec_hclr_h3 s) held rfl ⟨fun q => (State.rh_advance_withHyper s _ _ _ q).trans
      ((get_set_clear s.me.h 3 q).trans (if_congr (by simp) rfl rfl)), reads _ _ _⟩
  case ht => exact hyperGives_withHyper (exec_hclr_ht s) held rfl ⟨fun q => (State.rh_advance_withHyper s _ _ _ q).trans (if_neg (by simp)).symm, reads _ _ _⟩
  case k => exact hyperGives_withHyper (exec_hclr_k s) held rfl ⟨fun q => (State.rh_advance_withHyper s _ _ _ q).trans (if_neg (by simp)).symm, reads _ _ _⟩

/-- `hperm` rotates a hypervector to the left (R296). -/
theorem hyperGives_rotate {s : State} {i : Instr} {d a : HReg} {k : State → Nat} (held : s.heldHyper = true) (small : k s < 4096)
    (e : exec i s = s.hyper fun s => s.wh d ((s.rh a).rotateLeft (k s))) :
    HyperGives s i fun u => ((∀ q, q ≠ d → u.rh q = s.rh q) ∧ u.me.ht = s.me.ht ∧ u.me.kcnt = s.me.kcnt) ∧
      ∀ j, j < 4096 → (u.rh d).getLsbD j = (s.rh a).getLsbD ((j + 4096 - k s) % 4096) :=
  hyperGives_wh (p := fun x => ∀ j, j < 4096 → x.getLsbD j = (s.rh a).getLsbD ((j + 4096 - k s) % 4096)) e held
    fun _ hj => getLsbD_rotateLeft_hv _ small hj

/-- `hbund` moves the counters and leaves the rest of the hypervector state alone (R297). -/
theorem hyperGives_hbund {s : State} (held : s.heldHyper = true) (a : HReg) :
    HyperGives s (.hbund a) fun u => (∀ q, u.rh q = s.rh q) ∧ u.me.ht = s.me.ht ∧ ∀ j, j < 4096 → counterAt u.me.kcnt j =
      max (-128) (min 127 (counterAt s.me.kcnt j + if (s.rh a).getLsbD j then 1 else -1)) := by
  refine hyperGives_withHyper (h := s.me.h) (ht := s.me.ht) (k := bundle s.me.kcnt (s.rh a)) (exec_hbund s a) held rfl ⟨fun q => ?_, ?_, fun j hj => ?_⟩
  · exact State.rh_advance_withHyper s _ _ _ q
  · rw [State.me_advance_withHyper]
  · rw [State.me_advance_withHyper]
    exact counterAt_bundle _ _ hj

/-- `htie` replaces the tie-breaker alone (R297). -/
theorem hyperGives_htie {s : State} (held : s.heldHyper = true) (a : HReg) :
    HyperGives s (.htie a) fun u => (∀ q, u.rh q = s.rh q) ∧ u.me.ht = s.rh a ∧ u.me.kcnt = s.me.kcnt := by
  refine hyperGives_withHyper (h := s.me.h) (ht := s.rh a) (k := s.me.kcnt) (exec_htie s a) held rfl ⟨fun q => ?_, ?_, ?_⟩
  · exact State.rh_advance_withHyper s _ _ _ q
  · rw [State.me_advance_withHyper]
  · rw [State.me_advance_withHyper]

/-- The number of places where two hypervectors differ, and of those where one has a 1 (R298). -/
theorem retires_hdist {s : State} (held : s.heldHyper = true) (d : SReg) (a b : HReg) : Retires s (.hdist d a b) d
    (BitVec.ofNat 64 ((List.range 4096).filter fun j => (s.rh a).getLsbD j != (s.rh b).getLsbD j).length) 4 := by
  have counts := retires_hyper (exec_hdist s a b d) held
  simpa only [popCount_eq, BitVec.getLsbD_xor] using counts

theorem retires_hpop {s : State} (held : s.heldHyper = true) (d : SReg) (a : HReg) : Retires s (.hpop d a) d
    (BitVec.ofNat 64 ((List.range 4096).filter fun j => (s.rh a).getLsbD j).length) 4 := by
  have counts := retires_hyper (exec_hpop s a d) held
  simpa only [popCount_eq] using counts

/-- Settles O25: with the claim each operation replaces one part of the hypervector state; without it the first check stops. -/
theorem hypervectorResults : Obligations.HypervectorResults := by
  intro s d a b r q n t sp
  refine ⟨fun held => ⟨?_, ?_, ?_, ?_, ?_, ?_, ?_, ?_, ?_⟩, fun free => ⟨?_, ?_, ?_, ?_, ?_, ?_, ?_, ?_, ?_, ?_, ?_, ?_⟩⟩
  · exact hyperGives_wh (p := fun x => x = s.rh a ^^^ s.rh b) (exec_hbind s d a b) held rfl
  · have amount : (bits (s.rs r) 0 12).toNat = (s.rs r).toNat % 4096 := by simp [bits]
    rw [← amount]
    exact hyperGives_rotate (k := fun s => (bits (s.rs r) 0 12).toNat) held (BitVec.isLt _) (exec_hpermRegister s d a r)
  · exact hyperGives_rotate (k := fun _ => n.toNat) held n.isLt (exec_hpermImmediate s d a n)
  · exact hyperGives_hbund held a
  · exact hyperGives_wh (p := fun x => ∀ j, j < 4096 → x.getLsbD j =
      (decide (0 < counterAt s.me.kcnt j) || (decide (counterAt s.me.kcnt j = 0) && s.me.ht.getLsbD j))) (exec_hthr s d) held
      fun j hj => getLsbD_threshold _ _ hj
  · exact hyperGives_htie held a
  · exact hyperGives_hclr held t
  · exact retires_hdist held r a b
  · exact retires_hpop held r a
  · exact traps_needHyper free rfl
  · exact traps_needHyper free rfl
  · exact traps_needHyper free rfl
  · exact traps_needHyper free rfl
  · exact traps_needHyper free rfl
  · exact traps_needHyper free rfl
  · exact traps_needHyper free rfl
  · exact traps_needHyper free rfl
  · exact traps_needHyper free rfl
  · exact traps_needHyper free rfl
  · exact traps_needHyper free rfl
  · exact traps_needHyper free rfl

end Sys2Proof.Machine
end

section
/-! ## Held arrivals, and selections that start none -/

namespace Sys2Proof.Machine

/-- What a change of one bank keeps in that bank, it keeps in every bank. -/
theorem Core.bank_updBank_field {α : Type} (g : Bank → α) (c : Core) (l : BitVec 3) (f : Bank → Bank)
    (keeps : g (f (c.bank l)) = g (c.bank l)) (j : BitVec 3) : g ((c.updBank l f).bank j) = g (c.bank j) := by
  by_cases h : j = l
  · rw [h, Core.bank_updBank_same, keeps]
  · rw [Core.bank_updBank_other _ _ h]

section
variable {s : State} {n : CoreId}

/-- What a core holds is decided by its inbox, its LID and what the weir and the saved contexts hold (R42, R44, R352). -/
theorem State.heldAt_congr {t : State} (inbox : (t.core n).inbox = (s.core n).inbox) (lid : (t.core n).lid = (s.core n).lid)
    (out : (t.core n).savedLid = (s.core n).savedLid) (weir : t.weir = s.weir) (saved : t.saved = s.saved) (p : BitVec 3) :
    t.heldAt n p = s.heldAt n p := by
  have spills : t.spillsTo n p = s.spillsTo n p := by
    funext e
    unfold State.spillsTo State.contextOut
    rw [lid, out, saved]
  simp only [State.heldAt, Core.held, inbox, weir, spills]

theorem State.heldAt_updCore {f : Core → Core} (inbox : (f (s.core n)).inbox = (s.core n).inbox)
    (lid : (f (s.core n)).lid = (s.core n).lid) (out : (f (s.core n)).savedLid = (s.core n).savedLid) (p : BitVec 3) :
    (s.updCore n f).heldAt n p = s.heldAt n p := by
  rw [← State.core_updCore_same s n f] at inbox lid out
  exact State.heldAt_congr inbox lid out rfl rfl p

theorem NoneDue.updCore {f : Core → Core} (h : NoneDue s n) (traps : (f (s.core n)).heldTraps = (s.core n).heldTraps)
    (due : ∀ j, ((f (s.core n)).bank j).squash = ((s.core n).bank j).squash ∧
      ((f (s.core n)).bank j).parkDue = ((s.core n).bank j).parkDue) : NoneDue (s.updCore n f) n := by
  obtain ⟨none, quiet⟩ := h
  unfold NoneDue
  rw [State.core_updCore_same, traps]
  exact ⟨none, fun j => ⟨(due j).1.trans (quiet j).1, (due j).2.trans (quiet j).2⟩⟩

theorem firstIdx_none {α : Type} {q : α → Bool} : ∀ {l : List α}, (∀ x ∈ l, q x = false) → firstIdx q l = none
  | [], _ => rfl
  | x :: r, h => by
    rw [firstIdx, h x List.mem_cons_self, firstIdx_none fun y hy => h y (List.mem_cons_of_mem x hy)]
    rfl

/-- With no startable arrival below a level, none is found there (R45). -/
theorem State.nextFrom_none (idle : ∀ p, ∀ x ∈ s.heldAt n p, (s.core n).startable x p = false) : ∀ l, s.nextFrom n l = none
  | 0 => rfl
  | l + 1 => by
    rw [State.nextFrom, firstIdx_none (idle (BitVec.ofNat 3 l))]
    exact State.nextFrom_none idle l

theorem State.selectFrom_none (none_ : s.nextFrom n 8 = none) : ∀ k, s.selectFrom n k = s
  | 0 => rfl
  | k + 1 => by
    rw [State.selectFrom, none_]
    exact ite_self s

/-- A selection among arrivals of which none may start leaves all as it was (R45). -/
theorem State.selectNext_none (h : NoneDue s n) (idle : ∀ p, ∀ x ∈ s.heldAt n p, (s.core n).startable x p = false) :
    s.selectNext n = s := by
  rw [State.selectNext, State.atBoundary_none h]
  exact State.selectFrom_none (State.nextFrom_none idle 8) _

theorem State.selectNext_empty (h : NoneDue s n) (empty : ∀ p, s.heldAt n p = []) : s.selectNext n = s :=
  State.selectNext_none h fun p x hx => by
    rw [empty p] at hx
    exact absurd hx List.not_mem_nil

end

end Sys2Proof.Machine
end

section
/-! ## Claims and ceilings -/

namespace Sys2Proof.Machine

/-- A ceiling of 7 is taken as 6 (R47). -/
theorem Core.toNat_ceiling (c : Core) (n : BitVec 4) : (c.ceiling n).toNat = min 6 (bits c.ceil (3 * n.toNat) 3).toNat := by
  have small := (bits c.ceil (3 * n.toNat) 3).isLt
  unfold Core.ceiling
  split
  · next seven => rw [seven]; rfl
  · next other =>
    have below : (bits c.ceil (3 * n.toNat) 3).toNat ≠ 7 := fun e => other (BitVec.eq_of_toNat_eq e)
    omega

/-- The running frame of a core gets another claim stack and threshold, and goes on behind an instruction of len bytes. -/
def State.claimed (s : State) (len : Nat) (cl : List Claim) (th : BitVec 4) (c : Core) : Core :=
  { c.updHere fun b => { b with claims := cl } with
    thresh := th, pc := c.pc + BitVec.ofNat 56 len, stalls := s.me.stalls.set s.me.lvl.toFin 0 }

/-- The running frame of the core in turn gets another claim stack and threshold. -/
def State.withClaims (s : State) (len : Nat) (cl : List Claim) (th : BitVec 4) : State := s.updMe (s.claimed len cl th)

section
variable (s : State) (len : Nat) (cl : List Claim) (th : BitVec 4)

theorem State.withClaims_eq (f : List Claim → List Claim) (hf : f s.me.here.claims = cl) :
    (s.updMe fun c => { (c.updHere fun b => { b with claims := f b.claims }) with thresh := th }).advance len = s.withClaims len cl th := by
  rw [State.advance, State.updMe_updMe, State.withClaims, ← hf]
  rfl

theorem State.withClaims_heldAt (p : BitVec 3) : (s.withClaims len cl th).heldAt s.cur p = s.heldAt s.cur p :=
  State.heldAt_updCore (s := s) (n := s.cur) (f := s.claimed len cl th) rfl rfl rfl p

theorem State.bank_claimed_field {α : Type} (g : Bank → α) (keeps : ∀ b : Bank, g { b with claims := cl } = g b) (c : Core) (j : BitVec 3) :
    g ((s.claimed len cl th c).bank j) = g (c.bank j) :=
  Core.bank_updBank_field g c c.lvl (fun b => { b with claims := cl }) (keeps _) j

theorem State.withClaims_noneDue (h : NoneDue s s.cur) : NoneDue (s.withClaims len cl th) s.cur :=
  h.updCore (f := s.claimed len cl th) rfl fun j =>
    ⟨s.bank_claimed_field len cl th Bank.squash (fun _ => rfl) _ j, s.bank_claimed_field len cl th Bank.parkDue (fun _ => rfl) _ j⟩

end

section
variable {s : State} {n : BitVec 4} {len : Nat}

/-! ### `claim` (R48) -/

theorem State.claim_held (held : (s.me.here.claims.any fun c => c.res == n) = true) :
    s.claim n len = .next (s.stop (.trap 0x05 (claimAddr n.toNat 1))) := by
  unfold State.claim
  dsimp only
  rw [held]
  rfl

theorem State.claim_low (free : (s.me.here.claims.any fun c => c.res == n) = false) (low : (s.me.ceiling n).toNat < s.me.lvl.toNat) :
    s.claim n len = .next (s.stop (.trap 0x05 (claimAddr n.toNat 4))) := by
  unfold State.claim
  dsimp only
  rw [free, decide_eq_false (Nat.not_le.2 low)]
  rfl

theorem State.claim_taken (free : (s.me.here.claims.any fun c => c.res == n) = false) (high : s.me.lvl.toNat ≤ (s.me.ceiling n).toNat) :
    s.claim n len = .next (s.withClaims len ({ res := n, saved := s.me.thresh } :: s.me.here.claims)
      (BitVec.ofNat 4 (max s.me.thresh.toNat (s.me.ceiling n).toNat))) := by
  have raised : (if s.me.thresh.toNat < (s.me.ceiling n).toNat then (s.me.ceiling n).setWidth 4 else s.me.thresh) =
      BitVec.ofNat 4 (max s.me.thresh.toNat (s.me.ceiling n).toNat) := by
    have small := (s.me.ceiling n).isLt
    split
    · next above => rw [Nat.max_eq_right (Nat.le_of_lt above)]; exact BitVec.eq_of_toNat_eq (by simp)
    · next not_above => rw [Nat.max_eq_left (Nat.not_lt.1 not_above)]; simp
  unfold State.claim
  dsimp only
  rw [free, decide_eq_true high, ← raised]
  exact congrArg Host.Outcome.next (s.withClaims_eq len _ _ (fun l => { res := n, saved := s.me.thresh } :: l) rfl)

/-! ### `unclaim` (R48, R45) -/

theorem State.unclaim_none (empty : s.me.here.claims = []) : s.unclaim n len = .next (s.stop (.trap 0x05 (claimAddr n.toNat 0))) := by
  rw [State.unclaim, empty]

theorem State.unclaim_other {x : Claim} {r : List Claim} (claims : s.me.here.claims = x :: r) (other : x.res ≠ n) :
    s.unclaim n len = .next (s.stop (.trap 0x05 (claimAddr n.toNat (if r.any (fun c => c.res == n) then 2 else 0)))) := by
  rw [State.unclaim, claims]
  exact if_neg other

theorem State.unclaim_newest {x : Claim} {r : List Claim} (claims : s.me.here.claims = x :: r) (newest : x.res = n) :
    s.unclaim n len = .next ((s.withClaims len r x.saved).selectNext s.cur) := by
  rw [State.unclaim, claims]
  refine (if_pos newest).trans ?_
  rw [← s.withClaims_eq len r x.saved (fun _ => r) rfl]
  rfl

/-- With nothing held for the core the selection starts none. -/
theorem State.unclaim_quiet {x : Claim} {r : List Claim} (none_ : NoneDue s s.cur) (empty : ∀ p, s.heldAt s.cur p = [])
    (claims : s.me.here.claims = x :: r) (newest : x.res = n) : s.unclaim n len = .next (s.withClaims len r x.saved) := by
  have same : (s.withClaims len r x.saved).selectNext s.cur = s.withClaims len r x.saved :=
    State.selectNext_empty (s.withClaims_noneDue len r x.saved none_) fun p => (s.withClaims_heldAt len r x.saved p).trans (empty p)
  rw [State.unclaim_newest claims newest, same]

end

/-- Settles O36: one case for each outcome of `claim` and `unclaim`, for both encodings of each. -/
theorem claimResults : Obligations.ClaimResults := by
  intro s n x r
  dsimp only
  rw [← Core.toNat_ceiling]
  refine ⟨fun held => ⟨?_, ?_⟩, fun free low => ⟨?_, ?_⟩, fun free high => ⟨?_, ?_⟩, fun empty => ⟨?_, ?_⟩,
    fun claims other => ⟨?_, ?_⟩, fun claims newest => ⟨⟨?_, ?_⟩, fun none_ empty => ⟨?_, ?_⟩⟩⟩
  · exact traps_stop (State.claim_held held)
  · exact traps_stop (State.claim_held held)
  · exact traps_stop (State.claim_low free low)
  · exact traps_stop (State.claim_low free low)
  · exact ⟨_, State.claim_taken free high⟩
  · exact ⟨_, State.claim_taken free high⟩
  · exact traps_stop (State.unclaim_none empty)
  · exact traps_stop (State.unclaim_none empty)
  · exact traps_stop (State.unclaim_other claims other)
  · exact traps_stop (State.unclaim_other claims other)
  · exact ⟨_, State.unclaim_newest claims newest⟩
  · exact ⟨_, State.unclaim_newest claims newest⟩
  · exact ⟨_, State.unclaim_quiet none_ empty claims newest⟩
  · exact ⟨_, State.unclaim_quiet none_ empty claims newest⟩

end Sys2Proof.Machine
end

section
/-! ## Translations, reads and stores of the part, and lines of code: homes and copies alone change -/

namespace Sys2Proof.Machine

theorem homesOnly_touchNodes (die : BitVec 4) (buf : List StoreEntry) (va : BitVec 56) : ∀ (l : Nat) (s : State) (n : Nat),
    HomesOnly s (s.touchNodes die buf va n l)
  | 0, s, _ => HomesOnly.refl s
  | l + 1, s, n => by
    unfold State.touchNodes
    dsimp only
    split
    · split
      · exact HomesOnly.refl s
      · exact homesOnly_touchNodes die buf va l _ _
    · split
      · exact homesOnly_touchLine s _ _
      · exact (homesOnly_touchLine s _ _).trans (homesOnly_touchNodes die buf va l _ _)

theorem homesOnly_translate (s : State) (die : BitVec 4) (va : BitVec 56) (buf : List StoreEntry) :
    HomesOnly s (s.translate die va buf).1 := by
  have nodes := homesOnly_touchNodes die buf va 4 s 0
  unfold State.translate
  split
  · exact HomesOnly.refl s
  · dsimp only
    split
    · dsimp only
      exact nodes.trans (homesOnly_updDie _ _ _ fun _ => rfl)
    · exact nodes

theorem homesOnly_partTouch (die : BitVec 4) : ∀ (n : Nat) (s : State) (va : Nat), HomesOnly s (s.partTouch die va n)
  | 0, s, _ => HomesOnly.refl s
  | n + 1, s, va => by
    have walk := homesOnly_translate s die (BitVec.ofNat 56 va) []
    unfold State.partTouch
    split
    · rename_i t pa found
      rw [found] at walk
      refine (walk.trans ?_).trans (homesOnly_partTouch die n _ _)
      split
      · exact homesOnly_dieRead t _ _ _ _ _
      · exact HomesOnly.refl t
    · rename_i t _ _ absent
      rw [absent] at walk
      exact walk

theorem homesOnly_partStore {s t : State} {die : BitVec 4} {va : Nat} {w : Word} (h : s.partStore die va w = some t) : HomesOnly s t := by
  have walk := homesOnly_translate s die (BitVec.ofNat 56 va) []
  unfold State.partStore at h
  split at h
  · rename_i u pa found
    rw [found] at walk
    cases h
    exact walk.trans (homesOnly_dieWrite u _ _ _ _ _)
  · cases h

theorem homesOnly_partStores {die : BitVec 4} : ∀ {l : List Word} {s t : State} {va : Nat}, s.partStores die va l = some t → HomesOnly s t
  | [], s, t, va, h => by cases h; exact HomesOnly.refl s
  | w :: r, s, t, va, h => by
    unfold State.partStores at h
    split at h
    · rename_i u stored
      exact (homesOnly_partStore stored).trans (homesOnly_partStores h)
    · cases h

theorem homesOnly_acquireFrom (s : State) (n : CoreId) (a : Arr) : HomesOnly s (s.acquireFrom n a) := by
  unfold State.acquireFrom
  split
  · exact homesOnly_acquireDie s _
  · exact HomesOnly.refl s

theorem homesOnly_codeWords (die : BitVec 4) (dom : BitVec 16) (lo pa : Nat) : ∀ (n : Nat) (s : State) (w : Nat),
    HomesOnly s (s.codeWords die dom lo pa n w).1
  | 0, s, _ => HomesOnly.refl s
  | n + 1, s, w => by
    unfold State.codeWords
    split
    · exact homesOnly_codeWords die dom lo pa n s _
    · exact (homesOnly_dieRead s die dom lo (pa + 8 * w) 8).trans (homesOnly_codeWords die dom lo pa n _ _)

theorem homesOnly_codeLine (s : State) (n : CoreId) (va : Nat) : HomesOnly s (s.codeLine n va).1 := by
  have walk := homesOnly_translate s (dieOf n) (BitVec.ofNat 56 (va / 64 * 64)) (s.core n).sbuf
  unfold State.codeLine
  dsimp only
  split
  · rename_i t pa found
    rw [found] at walk
    exact walk.trans (homesOnly_codeWords _ _ _ _ _ _ _)
  · rename_i t _ _ absent
    rw [absent] at walk
    exact walk

end Sys2Proof.Machine
end

section
/-! ## The core in turn stays in turn -/

namespace Sys2Proof.Machine

theorem MembersOnly.cur {s t : State} (h : MembersOnly s t) : t.cur = s.cur := by rw [h.1]

section
variable (s : State) (n : CoreId)

theorem State.cur_enterTrap (c : BitVec 5) (a : Word) (epc : BitVec 56) (async : Bool) : (s.enterTrap n c a epc async).cur = s.cur :=
  (congrArg State.cur (enterTrap_fields s n c a epc async) :)

theorem State.cur_alert (a : Word) : (s.alert n a).cur = s.cur := by
  unfold State.alert
  dsimp only
  split
  · rfl
  · exact State.cur_enterTrap s n _ _ _ _

theorem State.cur_nestedTrap (c : BitVec 5) : (s.nestedTrap n c).cur = s.cur :=
  (State.cur_alert _ _ _).trans (membersOnly_detach s n).cur

theorem State.cur_takeTrap (c : BitVec 5) (a : Word) (epc : BitVec 56) (async : Bool) : (s.takeTrap n c a epc async).cur = s.cur := by
  unfold State.takeTrap
  split
  · exact State.cur_nestedTrap s n c
  · exact State.cur_enterTrap s n c a epc async

theorem State.cur_asyncTrap (l : BitVec 4) (c : BitVec 5) (a : Word) : (s.asyncTrap n l c a).cur = s.cur := by
  unfold State.asyncTrap
  dsimp only
  split
  · exact State.cur_enterTrap s n _ _ _ _
  · rfl

theorem State.cur_migTrap : (s.migTrap n).cur = s.cur := by
  unfold State.migTrap
  dsimp only
  split
  · exact State.cur_takeTrap _ n _ _ _ _
  · rfl

theorem State.cur_machineCheck (die : BitVec 4) (code : Byte) (dom : BitVec 16) (addr : Word) (r : Option Region) :
    (s.machineCheck die code dom addr r).cur = s.cur := by
  unfold State.machineCheck
  dsimp only
  split
  · rfl
  · split
    · rename_i stored
      exact (State.cur_alert _ _ _).trans (homesOnly_partStores stored).cur
    · rfl

theorem State.cur_fillEntry (p : BitVec 3) : (s.fillEntry n p).cur = s.cur := by
  unfold State.fillEntry
  dsimp only
  split
  · rfl
  · split
    · exact (homesOnly_codeLine s n _).cur
    · rfl

theorem State.cur_resume (p : BitVec 3) (r : Record) (w : List Word) : (s.resume n p r w).cur = s.cur := by
  have touched := (homesOnly_partTouch (dieOf n) (r.size / 8) s r.addr.toNat).cur
  unfold State.resume
  dsimp only
  split
  · rename_i stored
    exact (homesOnly_partStore stored).cur.trans touched
  · exact (State.cur_machineCheck _ _ _ _ _ _).trans touched

theorem State.cur_push (a : Arr) (p : BitVec 3) : (s.push n a p).cur = s.cur := by
  have entered (u : State) : ((u.unpin n).migTrap n).cur = u.cur := (State.cur_migTrap _ n).trans (membersOnly_unpin u n).cur
  have pushed : ((((s.acquireFrom n a).detach n).updCore n fun c => c.pushFrame a p).fillEntry n p).cur = s.cur := by
    rw [State.cur_fillEntry, State.updCore_cur, (membersOnly_detach _ n).cur, (homesOnly_acquireFrom s n a).cur]
  unfold State.push
  dsimp only
  rw [entered]
  split
  · exact (State.cur_resume _ n p _ _).trans pushed
  · exact pushed

theorem State.cur_takeHeld (p : BitVec 3) (i : Nat) : (s.takeHeld n p i).cur = s.cur := by
  unfold State.takeHeld
  dsimp only
  split
  · rfl
  · split
    · rename_i j _
      obtain ⟨l, fell⟩ := ({ s with weir := dropAt s.weir j } : State).weirFell_eq ((s.weir[j]?).bind (·.region))
      rw [fell]
    · rfl

end

theorem State.cur_selectFrom (n : CoreId) : ∀ (k : Nat) (s : State), (s.selectFrom n k).cur = s.cur
  | 0, _ => rfl
  | k + 1, s => by
    unfold State.selectFrom
    split
    · rfl
    · split
      · rfl
      · rename_i p i _
        split
        · rfl
        · rename_i a _
          split
          · exact (State.cur_selectFrom n k _).trans (State.cur_takeHeld s n p i)
          · split
            · exact (State.cur_selectFrom n k _).trans ((State.cur_asyncTrap _ n _ _ _).trans (State.cur_takeHeld s n p i))
            · split
              · rfl
              · split
                · exact State.cur_machineCheck s _ _ _ _ _
                · exact (State.cur_push _ n _ _).trans (State.cur_takeHeld s n p i)

/-- A selection at a boundary where nothing waits leaves the same core in turn. -/
theorem State.cur_selectNext {s : State} {n : CoreId} (h : NoneDue s n) : (s.selectNext n).cur = s.cur := by
  rw [State.selectNext, State.atBoundary_none h]
  exact State.cur_selectFrom n _ s

theorem State.cur_idleRun (s : State) (n : CoreId) : (s.idleRun n).cur = s.cur := by
  unfold State.idleRun
  split <;> rfl

end Sys2Proof.Machine
end

section
/-! ## Returning from a trap, and the end of a frame -/

namespace Sys2Proof.Machine

/-! ### Operations that keep the boundary calm -/

/-- No trap is held for a core, and none of its frames is due to be squashed or to park. -/
def Core.Calm (c : Core) : Prop := c.heldTraps = [] ∧ ∀ j, (c.bank j).squash = false ∧ (c.bank j).parkDue = false

theorem Core.Calm.updBank {c : Core} (h : c.Calm) (l : BitVec 3) {f : Bank → Bank}
    (keeps : ∀ b, b.squash = false → b.parkDue = false → (f b).squash = false ∧ (f b).parkDue = false) : (c.updBank l f).Calm := by
  refine ⟨h.1, fun j => ?_⟩
  by_cases e : j = l
  · rw [e, Core.bank_updBank_same]
    exact keeps _ (h.2 l).1 (h.2 l).2
  · rw [Core.bank_updBank_other _ _ e]
    exact h.2 j

theorem Core.Calm.dropReplies {c : Core} (h : c.Calm) (l : BitVec 3) : (c.dropReplies l).Calm := by
  have banks : (c.updBank l fun b => { b with spend := 0 }).Calm := h.updBank l fun _ squash park => ⟨squash, park⟩
  refine ⟨?_, banks.2⟩
  show c.heldTraps.filter _ = []
  rw [h.1]
  rfl

section
variable (s : State) (n : CoreId)

theorem State.unpin_eq : ∃ l, s.unpin n = { s with clusters := l } := by
  unfold State.unpin
  dsimp only
  split
  · exact ⟨s.clusters, rfl⟩
  · exact ⟨_, rfl⟩

theorem State.core_unpin (m : CoreId) : (s.unpin n).core m = s.core m := by
  obtain ⟨l, e⟩ := s.unpin_eq n
  rw [e]
  rfl

theorem State.weir_unpin : (s.unpin n).weir = s.weir := by
  obtain ⟨l, e⟩ := s.unpin_eq n
  rw [e]

theorem State.saved_unpin : (s.unpin n).saved = s.saved := by
  obtain ⟨l, e⟩ := s.unpin_eq n
  rw [e]

theorem State.cur_unpin : (s.unpin n).cur = s.cur := by
  obtain ⟨l, e⟩ := s.unpin_eq n
  rw [e]

end

theorem State.migTrap_none {s : State} {n : CoreId} (h : (s.core n).mig = false) : s.migTrap n = s :=
  if_neg (by rw [h]; exact Bool.false_ne_true)

theorem State.endMember_none {s : State} {n : CoreId} (h : (s.core n).member = none) (l : BitVec 3) : s.endMember n l = s := by
  simp only [State.endMember, h]

/-- From s to t core n has become d, and nothing else has changed but pins: memory, the weir and the saved contexts stay. -/
def Leaves (s t : State) (n : CoreId) (d : Core) : Prop :=
  t.core n = d ∧ t.cur = s.cur ∧ t.weir = s.weir ∧ t.saved = s.saved ∧ SameMemory s t

theorem Leaves.refl (s : State) (n : CoreId) : Leaves s s n (s.core n) := ⟨rfl, rfl, rfl, rfl, SameMemory.refl s⟩

theorem Leaves.unpin {s t : State} {n : CoreId} {d : Core} (h : Leaves s t n d) : Leaves s (t.unpin n) n d := by
  obtain ⟨core, cur, weir, saved, memory⟩ := h
  exact ⟨(t.core_unpin n n).trans core, (t.cur_unpin n).trans cur, (t.weir_unpin n).trans weir, (t.saved_unpin n).trans saved,
    memory.trans (sameMemory_unpin t n)⟩

theorem Leaves.updCore {s t : State} {n : CoreId} {d : Core} (h : Leaves s t n d) (f : Core → Core) (tcm : ∀ c, (f c).tcm = c.tcm) :
    Leaves s (t.updCore n f) n (f d) := by
  obtain ⟨core, cur, weir, saved, memory⟩ := h
  exact ⟨(State.core_updCore_same t n f).trans (congrArg f core), cur, weir, saved, memory.trans (sameMemory_updCore t n f tcm)⟩

theorem Leaves.heldAt {s t : State} {n : CoreId} {d : Core} (h : Leaves s t n d) (inbox : d.inbox = (s.core n).inbox)
    (lid : d.lid = (s.core n).lid) (out : d.savedLid = (s.core n).savedLid) (q : BitVec 3) : t.heldAt n q = s.heldAt n q := by
  obtain ⟨core, _, weir, saved, _⟩ := h
  exact State.heldAt_congr (by rw [core, inbox]) (by rw [core, lid]) (by rw [core, out]) weir saved q

theorem Leaves.noneDue {s t : State} {n : CoreId} {d : Core} (h : Leaves s t n d) (calm : d.Calm) : NoneDue t n := by
  unfold NoneDue
  rw [h.1]
  exact calm

/-! ### The frame that ends (R38, R307) -/

/-- What ends with a frame of level l leaves of its core (R307). -/
def Core.ended (c : Core) (l : BitVec 3) : Core :=
  (({ c with sfu := c.sfu.map fun (r : SfuReq) => if r.level = l then { r with voided := true } else r
             hprog := if bits c.hprog 0 1 = 1 ∧ bits c.hprog 1 3 = l then putBits c.hprog 0 1 0 else c.hprog } : Core).updBank l
    fun b => { b with vpend := 0 }).dropReplies l

/-- The core after its running frame has left the stack, with the frame below restored (R38). -/
def Core.popped (c : Core) : Core :=
  match c.dropFrame.liveBelow c.lvl.toNat with
  | some m => c.dropFrame.restoreFrame m
  | none => c.dropFrame.goIdle

theorem State.endOf_eq {s : State} {n : CoreId} (alone : (s.core n).member = none) (l : BitVec 3) :
    s.endOf n l = s.updCore n fun c => c.ended l := by
  rw [State.endOf, State.endMember_none alone]
  rfl

theorem State.pop_eq (s : State) (n : CoreId) :
    s.pop n = (((((s.updCore n Core.popped).unpin n).migTrap n).selectNext n).idleRun n) := rfl

section
variable (c : Core) (l : BitVec 3)

/-- The fields of the core that what ends with a frame may change. -/
theorem Core.ended_fields : c.ended l = { c with
    banks := (c.ended l).banks, replies := (c.ended l).replies, heldTraps := (c.ended l).heldTraps, sfu := (c.ended l).sfu,
    hprog := (c.ended l).hprog } := by
  simp only [Core.ended, Core.dropReplies, Core.updBank, Core.setBank]

theorem Core.bank_ended_other {j : BitVec 3} (h : j ≠ l) : (c.ended l).bank j = c.bank j :=
  (Core.bank_updBank_other _ (fun b => { b with spend := 0 }) h).trans (Core.bank_updBank_other _ (fun b => { b with vpend := 0 }) h)

theorem Core.lvl_ended : (c.ended l).lvl = c.lvl := (congrArg Core.lvl (c.ended_fields l) :)
theorem Core.sp_ended : (c.ended l).sp = c.sp := (congrArg Core.sp (c.ended_fields l) :)
theorem Core.tcm_ended : (c.ended l).tcm = c.tcm := (congrArg Core.tcm (c.ended_fields l) :)
theorem Core.mig_ended : (c.ended l).mig = c.mig := (congrArg Core.mig (c.ended_fields l) :)
theorem Core.cause_ended : (c.ended l).cause = c.cause := (congrArg Core.cause (c.ended_fields l) :)

/-- The bank of a frame that has left the stack (R38). -/
def Core.leftBank (c : Core) : Bank :=
  { c.here with live := false, claims := [], inst := none, contract := none, squash := false, parkDue := false, queueOp := none, rb := c.b }

theorem Core.bank_dropFrame_own : c.dropFrame.bank c.lvl = c.leftBank := Core.bank_updBank_same _ _ _

theorem Core.bank_dropFrame_other {j : BitVec 3} (h : j ≠ c.lvl) : c.dropFrame.bank j = c.bank j :=
  Core.bank_updBank_other { c with sp := c.sp + BitVec.ofNat 16 (frameSize c.here.fclass c.lvl) } _ h

theorem Core.fclass_ended (j : BitVec 3) : ((c.ended l).bank j).fclass = (c.bank j).fclass :=
  (Core.bank_updBank_field Bank.fclass _ l (fun b => { b with spend := 0 }) rfl j).trans
    (Core.bank_updBank_field Bank.fclass _ l (fun b => { b with vpend := 0 }) rfl j)

theorem Core.Calm.ended {c : Core} (h : c.Calm) (l : BitVec 3) : (c.ended l).Calm :=
  Core.Calm.dropReplies (Core.Calm.updBank (f := fun b => { b with vpend := 0 }) h l fun _ squash park => ⟨squash, park⟩) l

theorem Core.Calm.dropFrame {c : Core} (h : c.Calm) : c.dropFrame.Calm := by
  refine ⟨h.1, fun j => ?_⟩
  by_cases e : j = c.lvl
  · rw [e, Core.bank_dropFrame_own]
    exact ⟨rfl, rfl⟩
  · rw [Core.bank_dropFrame_other c e]
    exact h.2 j

theorem Core.Calm.popped {c : Core} (h : c.Calm) : c.popped.Calm := by
  unfold Core.popped
  split
  · exact h.dropFrame
  · exact h.dropFrame

/-- The end of a frame keeps a field of the core that neither the frame below nor idleness replaces. -/
theorem Core.popped_field {α : Type} (g : Core → α) (drop : g c.dropFrame = g c) (restore : ∀ d m, g (Core.restoreFrame d m) = g d)
    (idle : ∀ d, g (Core.goIdle d) = g d) : g c.popped = g c := by
  unfold Core.popped
  split
  · rw [restore, drop]
  · rw [idle, drop]

theorem Core.liveBelow_none {c : Core} : ∀ {n : Nat}, n ≤ 8 → (∀ j : BitVec 3, j.toNat < n → (c.bank j).live = false) →
    c.liveBelow n = none
  | 0, _, _ => rfl
  | n + 1, small, dead => by
    have here : (BitVec.ofNat 3 n).toNat = n := by rw [BitVec.toNat_ofNat]; omega
    rw [Core.liveBelow, dead _ (by rw [here]; omega), if_neg Bool.false_ne_true]
    exact Core.liveBelow_none (by omega) fun j hj => dead j (by omega)

theorem Core.liveBelow_some {c : Core} {j : BitVec 3} (live : (c.bank j).live = true) : ∀ {n : Nat}, n ≤ 8 → j.toNat < n →
    (∀ i : BitVec 3, j.toNat < i.toNat → i.toNat < n → (c.bank i).live = false) → c.liveBelow n = some j
  | n + 1, small, below, dead => by
    have here : (BitVec.ofNat 3 n).toNat = n := by rw [BitVec.toNat_ofNat]; omega
    by_cases e : j.toNat = n
    · have same : BitVec.ofNat 3 n = j := BitVec.eq_of_toNat_eq (here.trans e.symm)
      rw [Core.liveBelow, same, if_pos live]
    · rw [Core.liveBelow, dead _ (by omega) (by omega), if_neg Bool.false_ne_true]
      exact Core.liveBelow_some live (by omega) (by omega) fun i hi hn => dead i hi (by omega)

end

/-- A core whose running frame, of level l, ends (R38): k is the core as it was where what has changed since is its bank of level 7. -/
theorem popped_popped {k c : Core} {l : BitVec 3} (lvl : c.lvl = l) (sp : c.sp = k.sp)
    (size : (c.bank l).fclass = (k.bank l).fclass) (others : ∀ j, j ≠ l → j ≠ 7 → c.bank j = k.bank j) : Popped k c.popped l := by
  subst lvl
  have top := c.lvl.isLt
  have lower {j : BitVec 3} (h : j.toNat < c.lvl.toNat) : c.dropFrame.bank j = k.bank j := by
    have ne : j ≠ c.lvl := fun e => by rw [e] at h; exact Nat.lt_irrefl _ h
    have low : j ≠ 7 := fun e => by rw [e] at h; exact absurd h (by simp; omega)
    rw [Core.bank_dropFrame_other c ne, others j ne low]
  have banks : c.popped.banks = c.dropFrame.banks := by
    unfold Core.popped
    split <;> rfl
  have bank (j : BitVec 3) : c.popped.bank j = c.dropFrame.bank j := congrArg (fun v => Vector.get v j.toFin) banks
  refine ⟨?_, ?_, ?_, fun j ne low => ?_, fun dead => ?_, fun j below live between => ?_⟩
  · have kept : c.popped.sp = c.dropFrame.sp := by
      unfold Core.popped
      split <;> rfl
    rw [kept, ← sp, ← size]
    rfl
  · rw [bank, Core.bank_dropFrame_own]
    rfl
  · rw [bank, Core.bank_dropFrame_own]
    rfl
  · rw [bank, Core.bank_dropFrame_other c ne, others j ne low]
  · have none_ : c.dropFrame.liveBelow c.lvl.toNat = none :=
      Core.liveBelow_none (by omega) fun j h => by rw [lower h]; exact dead j h
    rw [Core.popped, none_]
    exact ⟨rfl, rfl⟩
  · have found : c.dropFrame.liveBelow c.lvl.toNat = some j :=
      Core.liveBelow_some (by rw [lower below]; exact live) (by omega) below fun i above h => by rw [lower h]; exact between i above h
    rw [Core.popped, found, ← lower below]
    exact ⟨rfl, rfl, rfl, rfl⟩

/-! ### The frame of level 7 that a trap entered (R349) -/

/-- The core after the trap-entered frame of level 7 has left it, before another goes on (R349). -/
def Core.dropTop (c : Core) : Core :=
  { ((c.dropReplies 7).updBank 7 fun b => { b with live := false, claims := [], queueOp := none, rb := (c.dropReplies 7).b }) with
    cause := putBits (c.dropReplies 7).cause 13 1 0 }

/-- The core that goes on at k.epc in the frame that was interrupted (R349). -/
def Core.resumeBelow (l : BitVec 4) (c : Core) : Core := { c.restoreFrame (bits l 0 3) with pc := c.epc }

/-- The fields of the core that the return of the frame of level 7 may change. -/
theorem Core.dropTop_fields (c : Core) : c.dropTop = { c with
    banks := c.dropTop.banks, replies := c.dropTop.replies, heldTraps := c.dropTop.heldTraps, cause := c.dropTop.cause } := by
  simp only [Core.dropTop, Core.dropReplies, Core.updBank, Core.setBank]

section
variable (c : Core)

theorem Core.mig_dropTop : c.dropTop.mig = c.mig := (congrArg Core.mig c.dropTop_fields :)
theorem Core.epc_dropTop : c.dropTop.epc = c.epc := (congrArg Core.epc c.dropTop_fields :)
theorem Core.sp_dropTop : c.dropTop.sp = c.sp := (congrArg Core.sp c.dropTop_fields :)
theorem Core.tcm_dropTop : c.dropTop.tcm = c.tcm := (congrArg Core.tcm c.dropTop_fields :)
theorem Core.member_dropTop : c.dropTop.member = c.member := (congrArg Core.member c.dropTop_fields :)

end

theorem causeEntered_cleared (x : BitVec 14) : causeEntered (putBits x 13 1 0) = false := by
  have bit : bits (putBits x 13 1 0) 13 1 = 0 := by
    apply BitVec.eq_of_getLsbD_eq
    intro i hi
    obtain rfl : i = 0 := by omega
    rw [BitVec.getLsbD_extractLsb', getLsbD_putBits x 0 (by decide)]
    simp
  rw [causeEntered, bit]
  rfl

section
variable (c : Core)

theorem Core.bank_dropTop_other {j : BitVec 3} (h : j ≠ 7) : c.dropTop.bank j = c.bank j :=
  (Core.bank_updBank_other (c.dropReplies 7) (fun b => { b with live := false, claims := [], queueOp := none, rb := (c.dropReplies 7).b })
    h).trans (Core.bank_updBank_other c (fun b => { b with spend := 0 }) h)

theorem Core.live_dropTop : (c.dropTop.bank 7).live = false :=
  congrArg Bank.live (Core.bank_updBank_same (c.dropReplies 7) 7
    fun b => { b with live := false, claims := [], queueOp := none, rb := (c.dropReplies 7).b })

theorem Core.entered_dropTop : causeEntered c.dropTop.cause = false := causeEntered_cleared _

theorem Core.Calm.dropTop {c : Core} (h : c.Calm) : c.dropTop.Calm :=
  Core.Calm.updBank (f := fun b => { b with live := false, claims := [], queueOp := none, rb := (c.dropReplies 7).b }) (h.dropReplies 7) 7
    fun _ squash park => ⟨squash, park⟩

end

/-- The module after the trap-entered frame of core n has left it, before another goes on. -/
def State.dropTop (s : State) (n : CoreId) : State := (s.unpin n).updCore n Core.dropTop

section
variable {s : State} {n : CoreId} {l : BitVec 4} (entered : causeEntered (s.core n).cause = true) (alone : (s.core n).member = none)
  (level : causeLevel (s.core n).cause = l)
include entered alone level

/-- A return to an idle core (R349). -/
theorem State.trapReturn_idle (ending : Bool) (idle : l = 0xF) :
    s.trapReturn n ending = (((((s.dropTop n).updCore n Core.goIdle).migTrap n).selectNext n).idleRun n) := by
  simp only [State.trapReturn, entered, State.endMember_none alone, level, if_pos idle, Bool.not_true, Bool.false_eq_true, if_false]
  rfl

/-- A return to the interrupted frame (R349). -/
theorem State.trapReturn_on (busy : l ≠ 0xF) (on : ¬ (causeCode (s.core n).cause = 0x08 ∨ causeCode (s.core n).cause = 0x0B)) :
    s.trapReturn n false = (((((s.dropTop n).updCore n (Core.resumeBelow l)).migTrap n).selectNext n).idleRun n) := by
  simp only [State.trapReturn, entered, State.endMember_none alone, level, if_neg busy, Bool.not_true, Bool.false_eq_true, if_false,
    false_or, if_neg on]
  rfl

/-- A return that ends the interrupted frame, too (R349). -/
theorem State.trapReturn_end {ending : Bool} (busy : l ≠ 0xF)
    (ends : ending = true ∨ causeCode (s.core n).cause = 0x08 ∨ causeCode (s.core n).cause = 0x0B) : ∃ counted : Bool,
    s.trapReturn n ending = ((s.dropTop n).updCore n (Core.resumeBelow l)).endTask n counted := by
  refine ⟨causeCode (s.core n).cause != 0x08 && causeCode (s.core n).cause != 0x0B, ?_⟩
  simp only [State.trapReturn, entered, State.endMember_none alone, level, if_neg busy, Bool.not_true, Bool.false_eq_true, if_false,
    if_pos ends]
  rfl

end

/-- An end of a frame that is of no launch or walk is a pop (R307). -/
theorem State.endTask_plain {s : State} {n : CoreId} (counted : Bool) (alone : (s.core n).member = none)
    (plain : (s.core n).here.inst = none) : s.endTask n counted = (s.updCore n fun c => c.ended (s.core n).lvl).pop n := by
  simp only [State.endTask, plain, State.endOf_eq alone]

/-! ### A selection at the end of an instruction (R45) -/

/-- The instruction leaves a state with property p among whose arrivals, the same as before, one selection follows. -/
def EndsSelecting (s : State) (i : Instr) (p : State → Prop) : Prop :=
  ∃ u, exec i s = .next ((u.selectNext s.cur).idleRun s.cur) ∧ p u ∧ NoneDue u s.cur ∧ ∀ q, u.heldAt s.cur q = s.heldAt s.cur q

/-- A property that says nothing of the run of level-7 frames. -/
def IgnoresRun (s : State) (p : State → Prop) : Prop :=
  ∀ u : State, p u → ∀ x : BitVec 16, p (u.updCore s.cur fun c => { c with run7 := x })

theorem IgnoresRun.idleRun {s u : State} {p : State → Prop} (h : IgnoresRun s p) (hu : p u) : p (u.idleRun s.cur) := by
  unfold State.idleRun
  split
  · exact h u hu 0
  · exact hu

theorem State.heldAt_idleRun (u : State) (n : CoreId) (q : BitVec 3) : (u.idleRun n).heldAt n q = u.heldAt n q := by
  unfold State.idleRun
  split
  · exact State.heldAt_updCore rfl rfl rfl q
  · rfl

/-- With nothing held for the core the selection starts none (R45). -/
theorem EndsSelecting.quiet {s : State} {i : Instr} {p : State → Prop} (h : EndsSelecting s i p) (empty : ∀ q, s.heldAt s.cur q = [])
    (run : IgnoresRun s p) : ∃ t, exec i s = .next t ∧ p t := by
  obtain ⟨u, e, hu, none_, held⟩ := h
  rw [State.selectNext_empty none_ fun q => (held q).trans (empty q)] at e
  exact ⟨_, e, run.idleRun hu⟩

/-- A core holds the same arrivals after a change that keeps its inbox and its LIDs. -/
def Core.HoldsAlike (k d : Core) : Prop := d.inbox = k.inbox ∧ d.lid = k.lid ∧ d.savedLid = k.savedLid

theorem Leaves.me {s t : State} {d : Core} (h : Leaves s t s.cur d) : t.me = d := by rw [State.me, h.2.1, h.1]

theorem Leaves.endsSelecting {s u : State} {d : Core} {i : Instr} {p : State → Prop} (h : Leaves s u s.cur d) (calm : d.Calm)
    (alike : s.me.HoldsAlike d) (e : exec i s = .next ((u.selectNext s.cur).idleRun s.cur)) (hu : p u) : EndsSelecting s i p := by
  obtain ⟨inbox, lid, out⟩ := alike
  exact ⟨u, e, hu, h.noneDue calm, h.heldAt inbox lid out⟩

theorem Core.HoldsAlike.ended {k c : Core} (h : k.HoldsAlike c) (l : BitVec 3) : k.HoldsAlike (c.ended l) := by
  obtain ⟨inbox, lid, out⟩ := h
  exact ⟨(congrArg Core.inbox (c.ended_fields l) :).trans inbox, (congrArg Core.lid (c.ended_fields l) :).trans lid,
    (congrArg Core.savedLid (c.ended_fields l) :).trans out⟩

theorem Core.HoldsAlike.popped {k c : Core} (h : k.HoldsAlike c) : k.HoldsAlike c.popped := by
  obtain ⟨inbox, lid, out⟩ := h
  exact ⟨(c.popped_field Core.inbox rfl (fun _ _ => rfl) fun _ => rfl).trans inbox,
    (c.popped_field Core.lid rfl (fun _ _ => rfl) fun _ => rfl).trans lid,
    (c.popped_field Core.savedLid rfl (fun _ _ => rfl) fun _ => rfl).trans out⟩

theorem Core.HoldsAlike.goIdle {k c : Core} (h : k.HoldsAlike c) : k.HoldsAlike c.goIdle := h
theorem Core.HoldsAlike.resumeBelow {k c : Core} (h : k.HoldsAlike c) (l : BitVec 4) : k.HoldsAlike (c.resumeBelow l) := h
theorem Core.Calm.goIdle {c : Core} (h : c.Calm) : c.goIdle.Calm := h
theorem Core.Calm.resumeBelow {c : Core} (h : c.Calm) (l : BitVec 4) : (c.resumeBelow l).Calm := h

/-- A plain end of a task is a pop with a selection behind it (R38, R45, R307). -/
theorem Leaves.endTask {s t : State} {n : CoreId} {c : Core} (h : Leaves s t n c) (mig : c.mig = false) (alone : c.member = none)
    (plain : c.here.inst = none) (counted : Bool) :
    ∃ u, t.endTask n counted = (u.selectNext n).idleRun n ∧ Leaves s u n (c.ended c.lvl).popped := by
  have tcm (d : Core) : d.popped.tcm = d.tcm := d.popped_field Core.tcm rfl (fun _ _ => rfl) fun _ => rfl
  have left : Leaves s (((t.updCore n fun d => d.ended c.lvl).updCore n Core.popped).unpin n) n (c.ended c.lvl).popped :=
    ((h.updCore (fun d => d.ended c.lvl) fun d => d.tcm_ended c.lvl).updCore Core.popped tcm).unpin
  have stays : ((c.ended c.lvl).popped).mig = false :=
    ((c.ended c.lvl).popped_field Core.mig rfl (fun _ _ => rfl) fun _ => rfl).trans ((c.mig_ended c.lvl).trans mig)
  refine ⟨_, ?_, left⟩
  rw [State.endTask_plain counted (by rw [h.1, alone]) (by rw [h.1, plain]), State.pop_eq, h.1, State.migTrap_none (by rw [left.1, stays])]

theorem SameMemory.stores {s t : State} (h : SameMemory s t) : SameStores s t := ⟨h.1, h.2.1⟩

/-! ### What the returns leave -/

/-- The level of a frame below the supervisor's, as a number of a bank. -/
theorem bits_low_level (l : BitVec 4) : bits l 0 3 = BitVec.ofNat 3 l.toNat := by
  revert l
  decide

theorem setWidth_low_level {l : BitVec 4} (low : l.toNat < 7) : (bits l 0 3).setWidth 4 = l := by
  revert l
  decide

/-- The core is left idle by the return (R349). -/
def LeftIdle (s t : State) : Prop :=
  SameMemory s t ∧ t.me.level = 0xF ∧ t.me.thresh = 0xF ∧ causeEntered t.me.cause = false ∧ (t.me.bank 7).live = false

/-- The interrupted frame of level l goes on at k.epc (R349). -/
def GoesOn (s t : State) (l : BitVec 4) : Prop :=
  SameMemory s t ∧ t.me.level = l ∧ t.me.thresh = (s.me.bank (BitVec.ofNat 3 l.toNat)).rthresh ∧
    t.me.b = (s.me.bank (BitVec.ofNat 3 l.toNat)).rb ∧ t.pc = s.me.epc ∧ causeEntered t.me.cause = false ∧ (t.me.bank 7).live = false ∧
    t.me.sp = s.me.sp ∧ ∀ j, j ≠ 7 → t.me.bank j = s.me.bank j

/-- The interrupted frame of level l has ended with the trap's frame (R349). -/
def BothEnd (s t : State) (l : BitVec 4) : Prop :=
  SameStores s t ∧ Popped s.me t.me (BitVec.ofNat 3 l.toNat) ∧ causeEntered t.me.cause = false

/-- The frame of level 7 has ended (R359). -/
def TopEnds (s t : State) : Prop := SameStores s t ∧ Popped s.me t.me 7

/-- The end of a run of level-7 frames changes nothing else of the core in turn. -/
theorem State.me_run (u : State) (n : CoreId) (x : BitVec 16) :
    ∃ y, (u.updCore n fun c => { c with run7 := x }).me = { u.me with run7 := y } := by
  by_cases h : u.cur = n
  · refine ⟨x, ?_⟩
    rw [State.me, State.updCore_cur, h, State.core_updCore_same, State.me, h]
  · refine ⟨u.me.run7, ?_⟩
    rw [State.me, State.updCore_cur, State.core_updCore_other _ _ h]
    rfl

theorem SameMemory.run {s u : State} (h : SameMemory s u) (n : CoreId) (x : BitVec 16) :
    SameMemory s (u.updCore n fun c => { c with run7 := x }) := h.trans (sameMemory_updCore u n _ fun _ => rfl)

theorem SameStores.run {s u : State} (h : SameStores s u) (n : CoreId) (x : BitVec 16) :
    SameStores s (u.updCore n fun c => { c with run7 := x }) := by
  obtain ⟨mem, tcm, _⟩ := (SameMemory.refl u).run n x
  exact ⟨fun a => (mem a).trans (h.1 a), fun m a => (tcm m a).trans (h.2 m a)⟩

theorem ignoresRun_leftIdle (s : State) : IgnoresRun s (LeftIdle s) := by
  intro u ⟨memory, rest⟩ x
  obtain ⟨y, me⟩ := u.me_run s.cur x
  refine ⟨memory.run s.cur x, ?_⟩
  rw [me]
  exact rest

theorem ignoresRun_goesOn (s : State) (l : BitVec 4) : IgnoresRun s fun t => GoesOn s t l := by
  intro u ⟨memory, rest⟩ x
  obtain ⟨y, me⟩ := u.me_run s.cur x
  refine ⟨memory.run s.cur x, ?_⟩
  rw [State.pc, me]
  exact rest

theorem ignoresRun_bothEnd (s : State) (l : BitVec 4) : IgnoresRun s fun t => BothEnd s t l := by
  intro u ⟨stores, rest⟩ x
  obtain ⟨y, me⟩ := u.me_run s.cur x
  refine ⟨stores.run s.cur x, ?_⟩
  rw [me]
  exact rest

theorem ignoresRun_topEnds (s : State) : IgnoresRun s (TopEnds s) := by
  intro u ⟨stores, rest⟩ x
  obtain ⟨y, me⟩ := u.me_run s.cur x
  refine ⟨stores.run s.cur x, ?_⟩
  rw [me]
  exact rest

/-! ### The returns themselves -/

/-- A frame of level 7 runs whose end starts nothing but a selection. -/
structure TopFrame (s : State) : Prop where
  top : s.me.level = 7
  none_ : NoneDue s s.cur
  mig : s.me.mig = false
  alone : s.me.member = none

section
variable {s : State} (h : TopFrame s)
include h

theorem exec_tret : exec .tret s = .next (s.trapReturn s.cur false) := if_pos h.top

theorem exec_tretEnd (plain : s.me.endingInst = none) : exec .tretEnd s = .next (s.trapReturn s.cur true) := by
  have ends : exec .tretEnd s = finish (s.beforeEnd s.me.endingInst >>= fun s => .ok (s.trapReturn s.cur true)) := if_pos h.top
  rw [ends, plain]
  rfl

/-- `done` in a frame that a trap entered acts as `tret` (R349). -/
theorem exec_done_tret (entered : causeEntered s.me.cause = true) : s.done = exec .tret s :=
  (if_pos ⟨h.top, entered⟩).trans (exec_tret h).symm

omit h in
theorem dropTop_alike : s.me.HoldsAlike s.me.dropTop :=
  ⟨(congrArg Core.inbox s.me.dropTop_fields :), (congrArg Core.lid s.me.dropTop_fields :), (congrArg Core.savedLid s.me.dropTop_fields :)⟩

omit h in
theorem leaves_dropTop (f : Core → Core) (tcm : ∀ c, (f c).tcm = c.tcm) :
    Leaves s ((s.dropTop s.cur).updCore s.cur f) s.cur (f s.me.dropTop) :=
  ((Leaves.refl s s.cur).unpin.updCore Core.dropTop Core.tcm_dropTop).updCore f tcm

theorem migTrap_dropTop (f : Core → Core) (tcm : ∀ c, (f c).tcm = c.tcm) (mig : ∀ c, (f c).mig = c.mig) :
    ((s.dropTop s.cur).updCore s.cur f).migTrap s.cur = (s.dropTop s.cur).updCore s.cur f := by
  exact State.migTrap_none (by rw [(leaves_dropTop f tcm).1, mig, Core.mig_dropTop, h.mig])

theorem returns_idle (ending : Bool) (entered : causeEntered s.me.cause = true) (idle : causeLevel s.me.cause = 0xF) {i : Instr}
    (e : exec i s = .next (s.trapReturn s.cur ending)) : EndsSelecting s i (LeftIdle s) := by
  have left := leaves_dropTop (s := s) Core.goIdle fun _ => rfl
  have calm : s.me.dropTop.Calm := Core.Calm.dropTop h.none_
  refine left.endsSelecting calm.goIdle dropTop_alike.goIdle ?_ ?_
  · rw [e, State.trapReturn_idle entered h.alone idle ending rfl, migTrap_dropTop h Core.goIdle (fun _ => rfl) fun _ => rfl]
  · rw [LeftIdle, left.me]
    exact ⟨left.2.2.2.2, rfl, rfl, s.me.entered_dropTop, s.me.live_dropTop⟩

variable {l : BitVec 4} (entered : causeEntered s.me.cause = true) (level : causeLevel s.me.cause = l) (low : l.toNat < 7)
include entered level low

theorem returns_on (on : ¬ (causeCode s.me.cause = 0x08 ∨ causeCode s.me.cause = 0x0B)) :
    EndsSelecting s .tret fun t => GoesOn s t l := by
  have busy : l ≠ 0xF := fun e => absurd low (by rw [e]; decide)
  have left := leaves_dropTop (s := s) (Core.resumeBelow l) fun _ => rfl
  have calm : s.me.dropTop.Calm := Core.Calm.dropTop h.none_
  have bank : s.me.dropTop.bank (bits l 0 3) = s.me.bank (BitVec.ofNat 3 l.toNat) := by
    rw [bits_low_level, Core.bank_dropTop_other _ fun e => absurd (congrArg BitVec.toNat e) (by rw [BitVec.toNat_ofNat]; simp; omega)]
  refine left.endsSelecting (calm.resumeBelow l) (dropTop_alike.resumeBelow l) ?_ ?_
  · rw [exec_tret h, State.trapReturn_on entered h.alone level busy on,
      migTrap_dropTop h (Core.resumeBelow l) (fun _ => rfl) fun _ => rfl]
  · have epc := s.me.epc_dropTop
    have sp := s.me.sp_dropTop
    have entered := s.me.entered_dropTop
    have live := s.me.live_dropTop
    have others : ∀ j, j ≠ 7 → s.me.dropTop.bank j = s.me.bank j := fun j ne => s.me.bank_dropTop_other ne
    rw [GoesOn, State.pc, left.me, ← bank]
    refine ⟨left.2.2.2.2, ?_⟩
    generalize s.me.dropTop = d at *
    exact ⟨setWidth_low_level low, rfl, rfl, epc, entered, live, sp, others⟩

theorem returns_end (plain : (s.me.bank (BitVec.ofNat 3 l.toNat)).inst = none) {ending : Bool} {i : Instr}
    (ends : ending = true ∨ causeCode s.me.cause = 0x08 ∨ causeCode s.me.cause = 0x0B)
    (e : exec i s = .next (s.trapReturn s.cur ending)) : EndsSelecting s i fun t => BothEnd s t l := by
  have busy : l ≠ 0xF := fun e => absurd low (by rw [e]; decide)
  obtain ⟨counted, returned⟩ := State.trapReturn_end (n := s.cur) entered h.alone level busy ends
  have ne : BitVec.ofNat 3 l.toNat ≠ 7 := fun e => absurd (congrArg BitVec.toNat e) (by rw [BitVec.toNat_ofNat]; simp; omega)
  have left := leaves_dropTop (s := s) (Core.resumeBelow l) fun _ => rfl
  have calm : s.me.dropTop.Calm := Core.Calm.dropTop h.none_
  have alike := dropTop_alike (s := s)
  have sp := s.me.sp_dropTop
  have mig := s.me.mig_dropTop.trans h.mig
  have alone := s.me.member_dropTop.trans h.alone
  have cleared := s.me.entered_dropTop
  have others : ∀ j, j ≠ 7 → s.me.dropTop.bank j = s.me.bank j := fun j ne => s.me.bank_dropTop_other ne
  generalize s.me.dropTop = d at *
  have lvl : (d.resumeBelow l).lvl = BitVec.ofNat 3 l.toNat := by
    rw [← bits_low_level]
    exact congrArg (fun x : BitVec 4 => bits x 0 3) (setWidth_low_level low)
  have here : (d.resumeBelow l).here.inst = none := by
    rw [Core.here, lvl]
    exact (congrArg Bank.inst (others _ ne)).trans plain
  obtain ⟨u, ended, left⟩ := left.endTask mig alone here counted
  rw [lvl] at left
  refine left.endsSelecting ((calm.resumeBelow l).ended _).popped ((alike.resumeBelow l).ended _).popped (by rw [e, returned, ended]) ?_
  have cause : ((d.resumeBelow l).ended (BitVec.ofNat 3 l.toNat)).popped.cause = d.cause :=
    (Core.popped_field _ Core.cause rfl (fun _ _ => rfl) fun _ => rfl).trans (Core.cause_ended _ _)
  rw [BothEnd, left.me, cause]
  refine ⟨left.2.2.2.2.stores, popped_popped ((Core.lvl_ended _ _).trans lvl) ((Core.sp_ended _ _).trans sp) ?_ fun j other low => ?_, cleared⟩
  · rw [Core.fclass_ended]
    exact congrArg Bank.fclass (others _ ne)
  · rw [Core.bank_ended_other _ _ other]
    exact others j low

omit entered level low in
/-- `idle` in a frame that an arrival entered: the frame ends with a selection, and the clock of a core left idle stops (R359). -/
theorem exec_idle (arrived : causeEntered s.me.cause = false) (claims : s.me.here.claims = []) (plain : s.me.here.inst = none) :
    ∃ u, TopEnds s u ∧ NoneDue u s.cur ∧ (∀ q, u.heldAt s.cur q = s.heldAt s.cur q) ∧
      let v := (u.selectNext s.cur).idleRun s.cur
      exec .idle s = .next (if v.me.level = 0xF ∧ (v.nextFrom s.cur 8).isNone then v.updMe fun c => { c with asleep := true } else v) := by
  have lvl : s.me.lvl = 7 := by rw [Core.lvl, h.top]; rfl
  obtain ⟨u, ended, left⟩ := (Leaves.refl s s.cur).endTask h.mig h.alone plain true
  have calm : s.me.Calm := h.none_
  have alike : s.me.HoldsAlike s.me := ⟨rfl, rfl, rfl⟩
  have none_ : NoneDue u s.cur := left.noneDue (calm.ended _).popped
  obtain ⟨inbox, lid, out⟩ := (alike.ended s.me.lvl).popped
  refine ⟨u, ?_, none_, left.heldAt inbox lid out, ?_⟩
  · rw [TopEnds, left.me]
    exact ⟨left.2.2.2.2.stores, popped_popped ((Core.lvl_ended _ _).trans lvl) (Core.sp_ended _ _) (Core.fclass_ended _ _ _)
      fun j _ low => Core.bank_ended_other _ _ (by rw [← lvl] at low; exact low)⟩
  · have cur : ((u.selectNext s.cur).idleRun s.cur).cur = s.cur := by
      rw [State.cur_idleRun, State.cur_selectNext none_, left.2.1]
    have ends : exec .idle s = .next (if (s.endTask s.cur true).me.level = 0xF ∧ ((s.endTask s.cur true).nextFrom (s.endTask s.cur true).cur 8).isNone
        then (s.endTask s.cur true).updMe fun c => { c with asleep := true } else s.endTask s.cur true) := by
      show execIdle s = _
      simp only [execIdle, State.privileged, h.top, arrived, claims, Bool.false_eq_true, if_false, if_true]
    rw [ends, ended, cur]

omit entered level low in
/-- With nothing held for the core, an `idle` that leaves it without a frame stops its clock (R359). -/
theorem exec_idle_quiet (arrived : causeEntered s.me.cause = false) (claims : s.me.here.claims = []) (plain : s.me.here.inst = none)
    (empty : ∀ q, s.heldAt s.cur q = []) : ∃ t, exec .idle s = .next t ∧ TopEnds s t ∧ (t.me.level = 0xF → t.me.asleep = true) := by
  obtain ⟨u, ends, none_, held, e⟩ := exec_idle h arrived claims plain
  dsimp only at e
  rw [State.selectNext_empty none_ fun q => (held q).trans (empty q)] at e
  have left : TopEnds s (u.idleRun s.cur) := (ignoresRun_topEnds s).idleRun ends
  have next : (u.idleRun s.cur).nextFrom s.cur 8 = none := State.nextFrom_none (fun p x hx => by
    rw [State.heldAt_idleRun, held, empty] at hx
    exact absurd hx List.not_mem_nil) 8
  rw [next] at e
  generalize u.idleRun s.cur = v at e left
  by_cases idle : v.me.level = 0xF
  · rw [if_pos ⟨idle, rfl⟩] at e
    obtain ⟨stores, popped⟩ := left
    obtain ⟨mem, tcm, _⟩ := sameMemory_updCore v v.cur (fun c => { c with asleep := true }) fun _ => rfl
    refine ⟨_, e, ⟨⟨fun a => (mem a).trans (stores.1 a), fun m a => (tcm m a).trans (stores.2 m a)⟩, ?_⟩, fun _ => ?_⟩
    · rw [State.me_updMe]
      exact popped
    · rw [State.me_updMe]
  · rw [if_neg fun both => idle both.1] at e
    exact ⟨v, e, left, fun now => absurd now idle⟩

end

/-! ### The obligation -/

theorem Core.endingInst_idle {c : Core} (h : causeLevel c.cause = 0xF) : c.endingInst = none := if_pos (.inl h)

theorem Core.endingInst_plain {c : Core} (h : (c.bank (BitVec.ofNat 3 (causeLevel c.cause).toNat)).inst = none) : c.endingInst = none := by
  unfold Core.endingInst
  rw [bits_low_level, h]
  exact ite_self none

/-- Settles O32: each way out of the supervisor's frame leaves a state at which one selection follows; with nothing held it ends there. -/
theorem trapReturn : Obligations.TrapReturn := by
  intro s k l b ended resumed idles ends leaves selects top none_ mig alone
  have h : TopFrame s := ⟨top, none_, mig, alone⟩
  have toIdle (entered : causeEntered k.cause = true) (idle : l = 0xF) (i : Instr) (hi : i = .tret ∨ i = .tretEnd) :
      EndsSelecting s i (LeftIdle s) := by
    rcases hi with rfl | rfl
    · exact returns_idle h false entered idle (exec_tret h)
    · exact returns_idle h true entered idle (exec_tretEnd h (Core.endingInst_idle idle))
  have toBelow (entered : causeEntered k.cause = true) (low : l.toNat < 7) (on : ¬ ended) : EndsSelecting s .tret fun t => GoesOn s t l :=
    returns_on h entered rfl low on
  have toEnd (entered : causeEntered k.cause = true) (low : l.toNat < 7) (plain : (k.bank b).inst = none) (i : Instr)
      (hi : i = .tretEnd ∨ i = .tret ∧ ended) : EndsSelecting s i fun t => BothEnd s t l := by
    rcases hi with rfl | ⟨rfl, both⟩
    · exact returns_end h entered rfl low plain (.inl rfl) (exec_tretEnd h (Core.endingInst_plain plain))
    · exact returns_end h entered rfl low plain (.inr both) (exec_tret h)
  refine ⟨fun entered => ⟨exec_done_tret h entered, exec_done_tret h entered⟩,
    fun entered idle => ⟨toIdle entered idle _ (.inl rfl), toIdle entered idle _ (.inr rfl)⟩, toBelow, toEnd, fun quiet => ⟨?_, ?_, ?_⟩,
    fun arrived claims plain => ⟨fun quiet => ?_, exec_idle h arrived claims plain⟩⟩
  · exact fun entered idle i hi => (toIdle entered idle i hi).quiet quiet.1 (ignoresRun_leftIdle s)
  · exact fun entered low on => (toBelow entered low on).quiet quiet.1 (ignoresRun_goesOn s l)
  · exact fun entered low plain i hi => (toEnd entered low plain i hi).quiet quiet.1 (ignoresRun_bothEnd s l)
  · exact exec_idle_quiet h arrived claims plain quiet.1

end Sys2Proof.Machine
end

section
/-! ## Lines of code read for a domain whose copies alone a die holds -/

namespace Sys2Proof.Machine

theorem Cells.mem_of_find {α : Type} : ∀ {m : Cells α} {k : Nat} {v : α}, Cells.find m k = some v → (k, v) ∈ m
  | (j, w) :: r, k, v, h => by
    unfold Cells.find at h
    split at h
    · next e =>
      cases h
      rw [e]
      exact List.mem_cons_self
    · exact List.mem_cons_of_mem _ (Cells.mem_of_find h)

theorem Cells.mem_of_mem_erase {α : Type} {e : Nat × α} : ∀ {m : Cells α} {k : Nat}, e ∈ Cells.erase m k → e ∈ m
  | (j, w) :: r, k, h => by
    unfold Cells.erase at h
    split at h
    · exact List.mem_cons_of_mem _ (Cells.mem_of_mem_erase h)
    · rcases List.mem_cons.1 h with first | rest
      · rw [first]; exact List.mem_cons_self
      · exact List.mem_cons_of_mem _ (Cells.mem_of_mem_erase rest)

theorem Cells.mem_place {α : Type} {e : Nat × α} {k : Nat} {v : α} : ∀ {m : Cells α}, e ∈ Cells.place m k v → e = (k, v) ∨ e ∈ m
  | [], h => .inl (List.mem_singleton.1 h)
  | (j, w) :: r, h => by
    unfold Cells.place at h
    split at h
    · exact List.mem_cons.1 h
    · rcases List.mem_cons.1 h with first | rest
      · exact .inr (first ▸ List.mem_cons_self)
      · exact (Cells.mem_place rest).imp_right (List.mem_cons_of_mem _)

theorem Cells.mem_put {α : Type} {e : Nat × α} {m : Cells α} {k : Nat} {v : α} (h : e ∈ Cells.put m k v) : e = (k, v) ∨ e ∈ m :=
  (Cells.mem_place h).imp_right Cells.mem_of_mem_erase

/-- Every copy that the die holds is of the domain. -/
def State.CopiesOf (s : State) (die : BitVec 4) (dom : BitVec 16) : Prop := ∀ e ∈ (s.die die).copies, e.2.dom = dom

section
variable {s : State} {die : BitVec 4} {dom : BitVec 16}

theorem State.CopiesOf.put (h : s.CopiesOf die dom) (k : Nat) {c : Copy} (own : c.dom = dom) :
    (s.updDie die fun d => { d with copies := Cells.put d.copies k c }).CopiesOf die dom := by
  intro e he
  rw [State.die_updDie_same] at he
  rcases Cells.mem_put he with new | old
  · rw [new]; exact own
  · exact h e old

theorem State.CopiesOf.touchLine (h : s.CopiesOf die dom) (d : BitVec 16) (pa : Nat) : (s.touchLine d pa).CopiesOf die dom := by
  unfold State.touchLine
  split <;> exact h

/-- A read for the domain stores nothing where no copy of another has to leave the die (R83, R115). -/
theorem State.dieRead_clean (h : s.CopiesOf die dom) (va pa n : Nat) :
    (s.dieRead die dom va pa n).1.mem = s.mem ∧ (s.dieRead die dom va pa n).1.CopiesOf die dom := by
  unfold State.dieRead
  dsimp only
  split
  · exact ⟨s.touchLine_mem _ _, h.touchLine _ _⟩
  · split
    · rename_i c found
      have own : c.dom = dom := h _ (Cells.mem_of_find found)
      rw [if_pos own]
      refine ⟨s.nameCopy_mem _ _ _ _, ?_⟩
      unfold State.nameCopy
      split
      · exact h
      · exact h.put _ own
    · exact ⟨s.takeCopy_mem _ _ _ _, (h.touchLine dom (s.live pa)).put (pa / 8) rfl⟩

theorem State.codeWords_clean (lo pa : Nat) : ∀ (n : Nat) (s : State) (w : Nat), s.CopiesOf die dom →
    (s.codeWords die dom lo pa n w).1.mem = s.mem
  | 0, _, _, _ => rfl
  | n + 1, s, w, h => by
    unfold State.codeWords
    split
    · exact State.codeWords_clean lo pa n s _ h
    · obtain ⟨mem, clean⟩ := State.dieRead_clean h lo (pa + 8 * w) 8
      exact (State.codeWords_clean lo pa n _ _ clean).trans mem

end

theorem State.touchNodes_dies (die : BitVec 4) (buf : List StoreEntry) (va : BitVec 56) : ∀ (l : Nat) (s : State) (n : Nat),
    (s.touchNodes die buf va n l).dies = s.dies
  | 0, _, _ => rfl
  | l + 1, s, n => by
    have line (t : State) (d : BitVec 16) (pa : Nat) : (t.touchLine d pa).dies = t.dies := by unfold State.touchLine; split <;> rfl
    unfold State.touchNodes
    dsimp only
    split
    · split
      · rfl
      · exact State.touchNodes_dies die buf va l _ _
    · split
      · exact line _ _ _
      · exact (State.touchNodes_dies die buf va l _ _).trans (line _ _ _)

/-- A translation takes no copy (R389). -/
theorem State.translate_copies (s : State) (die : BitVec 4) (va : BitVec 56) (buf : List StoreEntry) :
    ((s.translate die va buf).1.die die).copies = (s.die die).copies := by
  have nodes : ((s.touchNodes die buf va 0 4).die die).copies = (s.die die).copies := by
    obtain ⟨same, _⟩ := homesOnly_touchNodes die buf va 4 s 0
    have boot : (s.touchNodes die buf va 0 4).boot = s.boot := by rw [same]
    simp only [State.die, State.touchNodes_dies, boot]
  unfold State.translate
  split
  · rfl
  · dsimp only
    split
    · dsimp only
      rw [State.die_updDie_same]
      exact nodes
    · exact nodes

/-- A line of code is read without a store where the die holds copies of the core's domain alone (R172). -/
theorem State.codeLine_clean {s : State} {n : CoreId} (va : Nat) (h : s.CopiesOf (dieOf n) (s.core n).dom) :
    (s.codeLine n va).1.mem = s.mem := by
  have mem := s.translate_mem (dieOf n) (BitVec.ofNat 56 (va / 64 * 64)) (s.core n).sbuf
  have copies := s.translate_copies (dieOf n) (BitVec.ofNat 56 (va / 64 * 64)) (s.core n).sbuf
  have core := (homesOnly_translate s (dieOf n) (BitVec.ofNat 56 (va / 64 * 64)) (s.core n).sbuf).core n
  unfold State.codeLine
  dsimp only
  split
  · rename_i t pa found
    rw [found] at mem copies core
    refine (State.codeWords_clean _ _ _ _ _ ?_).trans mem
    intro e he
    rw [copies] at he
    rw [core]
    exact h e he
  · rename_i t _ _ absent
    rw [absent] at mem
    exact mem

/-- The entry buffer of a core takes in the first line of a handler: nothing else of the core changes, and no byte of memory where the
die holds copies of its domain alone (R360). -/
theorem State.fillEntry_spec (s : State) (n : CoreId) (p : BitVec 3) : ∃ b,
    (s.fillEntry n p).core n = { s.core n with entryBuf := b } ∧ (s.fillEntry n p).weir = s.weir ∧
      (s.fillEntry n p).saved = s.saved ∧ (s.CopiesOf (dieOf n) (s.core n).dom → SameStores s (s.fillEntry n p)) := by
  have put (u : State) (homes : HomesOnly s u) (mem : s.CopiesOf (dieOf n) (s.core n).dom → u.mem = s.mem) (l : Cells Parcel) :
      let t := u.updCore n fun c => { c with entryBuf := c.entryBuf.set p.toFin l }
      ∃ b, t.core n = { s.core n with entryBuf := b } ∧ t.weir = s.weir ∧ t.saved = s.saved ∧
        (s.CopiesOf (dieOf n) (s.core n).dom → SameStores s t) := by
    obtain ⟨bytes, tcm, _⟩ := sameMemory_updCore u n (fun c => { c with entryBuf := c.entryBuf.set p.toFin l }) fun _ => rfl
    refine ⟨(s.core n).entryBuf.set p.toFin l, ?_, ?_, ?_, fun clean => ⟨fun a => ?_, fun m a => ?_⟩⟩
    · rw [State.core_updCore_same, homes.core]
    · exact (congrArg State.weir homes.1 :)
    · exact (congrArg State.saved homes.1 :)
    · rw [bytes, mem clean]
    · rw [tcm, homes.core]
  unfold State.fillEntry
  dsimp only
  split
  · exact ⟨(s.core n).entryBuf, rfl, rfl, rfl, fun _ => (SameMemory.refl s).stores⟩
  · split
    · exact put _ (homesOnly_codeLine s n _) (fun clean => State.codeLine_clean _ clean) _
    · exact put s (HomesOnly.refl s) (fun _ => rfl) _

end Sys2Proof.Machine
end

section
/-! ## The push of an arrival that brings no acquire and names no record -/

namespace Sys2Proof.Machine

/-! ### The frame that a push builds (R37) -/

/-- The bank of the frame that a push builds. -/
def Bank.pushed (b : Bank) (a : Arr) (sp : BitVec 16) (fc : BitVec 3) : Bank :=
  ((((({ b with live := true, fclass := fc, mtype := hdrType a.msg.hdr, fbase := sp, claims := [], inst := a.inst, contract := a.contract,
                squash := false, parkDue := false, queueOp := none, fencing := false } : Bank).ws 1 (sp.setWidth 64)).ws 2 a.msg.hdr).ws 3
    (a.msg.word 0)).ws 4 (a.msg.word 1)).ws 5 (a.msg.word 2)

section
variable (b : Bank) (a : Arr) (sp : BitVec 16) (fc : BitVec 3)

theorem Bank.pushed_fields : (b.pushed a sp fc).live = true ∧ (b.pushed a sp fc).fbase = sp ∧
    (b.pushed a sp fc).mtype = hdrType a.msg.hdr ∧ (b.pushed a sp fc).inst = a.inst ∧ (b.pushed a sp fc).v = b.v := by
  simp [Bank.pushed]

theorem Bank.pushed_registers : (b.pushed a sp fc).rs 1 = sp.setWidth 64 ∧ (b.pushed a sp fc).rs 2 = a.msg.hdr ∧
    (b.pushed a sp fc).rs 3 = a.msg.word 0 ∧ (b.pushed a sp fc).rs 4 = a.msg.word 1 ∧ (b.pushed a sp fc).rs 5 = a.msg.word 2 := by
  simp [Bank.pushed, Bank.rs_ws_same, Bank.rs_ws_other]

theorem Bank.pushed_rest {q : SReg} (h : 5 < q.toNat) : (b.pushed a sp fc).rs q = b.rs q := by
  have ne (r : SReg) (hr : r.toNat ≤ 5) : q ≠ r := fun e => absurd hr (by rw [← e]; omega)
  rw [Bank.pushed, Bank.rs_ws_other _ _ (ne 5 (by decide)), Bank.rs_ws_other _ _ (ne 4 (by decide)), Bank.rs_ws_other _ _ (ne 3 (by decide)),
    Bank.rs_ws_other _ _ (ne 2 (by decide)), Bank.rs_ws_other _ _ (ne 1 (by decide))]
  rfl

end

/-- A core whose interrupted frame has been saved goes on at the handler of an arrival, but for the supervisor registers. -/
def Core.pushOver (j : Core) (a : Arr) (p : BitVec 3) (fc : BitVec 3) (pc : BitVec 56) : Core :=
  ({ j with sp := j.sp - BitVec.ofNat 16 (frameSize fc p), level := p.setWidth 4, thresh := p.setWidth 4, pc, asleep := false,
            b := (j.bank p).rb, stalls := j.stalls.set p.toFin 0 } : Core).updBank p
    fun b => b.pushed a (j.sp - BitVec.ofNat 16 (frameSize fc p)) fc

/-- The supervisor registers of a core at which a frame of level p is pushed for an arrival: at level 7 they say what entered it (R347). -/
theorem Core.pushFrame_eq (k : Core) (a : Arr) (p : BitVec 3) : ∃ x y, k.pushFrame a p =
      { (k.saveFrame k.pc).pushOver a p (a.resume.getD (bits (k.vector (hdrType a.msg.hdr)) 56 3))
          (bits (k.vector (hdrType a.msg.hdr)) 0 56) with cause := x, addr := y } ∧
    (p = 7 → x = mkCause (if hdrType a.msg.hdr = 0x01 then 0x07 else 0) k.level false false ∧
      y = if hdrType a.msg.hdr = 0x01 then a.msg.word 1 else (k.saveFrame k.pc).addr) ∧
    (p ≠ 7 → x = (k.saveFrame k.pc).cause ∧ y = (k.saveFrame k.pc).addr) := by
  by_cases top : p = 7
  · exact ⟨_, _, if_pos top, fun _ => ⟨rfl, rfl⟩, fun low => absurd top low⟩
  · exact ⟨_, _, if_neg top, fun e => absurd e top, fun _ => ⟨rfl, rfl⟩⟩

/-- What saving the interrupted frame leaves (R37). -/
theorem Core.saveFrame_spec (k : Core) (x : BitVec 56) : ∃ v, k.saveFrame x = { k with banks := v } ∧
    (∀ j, j ≠ k.lvl ∨ k.level = 0xF → v.get j.toFin = k.bank j) ∧
    (k.level ≠ 0xF → v.get k.lvl.toFin = { k.bank k.lvl with rpc := x, rthresh := k.thresh, rb := k.b }) := by
  unfold Core.saveFrame
  split
  · next idle => exact ⟨k.banks, rfl, fun _ _ => rfl, fun busy => absurd idle busy⟩
  · next busy => exact ⟨_, rfl, fun j h => vecGet_set_other _ _ (toFin_ne (h.resolve_right busy)), fun _ => vecGet_set_same _ _ _⟩

/-- The level of a frame is not that of an arrival above it. -/
theorem lvl_ne_of_above {k : Core} {p : BitVec 3} (h : k.level = 0xF ∨ k.level.toNat < p.toNat) : p ≠ k.lvl ∨ k.level = 0xF := by
  refine h.symm.imp_left fun below e => ?_
  have low : k.lvl.toNat ≤ k.level.toNat := by
    rw [Core.lvl, BitVec.extractLsb'_toNat]
    exact (Nat.mod_le _ _).trans (Nat.shiftRight_le _ _)
  rw [e] at below
  omega

/-- The push of an arrival above the frame that runs starts its handler (R37, R347). -/
theorem started_pushFrame {k : Core} {a : Arr} {p : BitVec 3} (plain : a.resume = none) (above : k.level = 0xF ∨ k.level.toNat < p.toNat) :
    Started k (k.pushFrame a p) a p := by
  obtain ⟨x, y, pushed, top, low⟩ := k.pushFrame_eq a p
  obtain ⟨v, saved, others, own⟩ := k.saveFrame_spec k.pc
  have size : k.arrSize a p = frameSize (bits (k.vector (hdrType a.msg.hdr)) 56 3) p := by rw [Core.arrSize, plain]; rfl
  have here : v.get p.toFin = k.bank p := others p (lvl_ne_of_above above)
  rw [saved, plain] at pushed
  rw [saved] at top low
  have bank : (k.pushFrame a p).bank p =
      (k.bank p).pushed a (k.sp - BitVec.ofNat 16 (k.arrSize a p)) (bits (k.vector (hdrType a.msg.hdr)) 56 3) := by
    rw [pushed, size, ← here]
    exact vecGet_set_same _ _ _
  have rest {j : BitVec 3} (ne : j ≠ p) : (k.pushFrame a p).bank j = v.get j.toFin := by
    rw [pushed]
    exact vecGet_set_other _ _ (toFin_ne ne)
  obtain ⟨live, fbase, mtype, inst, vecs⟩ := (k.bank p).pushed_fields a (k.sp - BitVec.ofNat 16 (k.arrSize a p))
    (bits (k.vector (hdrType a.msg.hdr)) 56 3)
  obtain ⟨s1, s2, s3, s4, s5⟩ := (k.bank p).pushed_registers a (k.sp - BitVec.ofNat 16 (k.arrSize a p))
    (bits (k.vector (hdrType a.msg.hdr)) 56 3)
  unfold Started
  dsimp only
  rw [bank]
  refine ⟨by rw [pushed]; rfl, by rw [pushed]; rfl, by rw [pushed]; rfl, by rw [pushed, size]; rfl, ?_, live, fbase, mtype, inst, s1, s2, s3, s4,
    s5, fun q h => Bank.pushed_rest _ _ _ _ h, vecs, fun busy => ?_, fun l ne other => ?_, by rw [pushed]; rfl, fun seven => ?_, fun below => ?_⟩
  · rw [pushed]
    exact congrArg Bank.rb here
  · rw [rest ((lvl_ne_of_above above).resolve_right busy).symm, own busy]
  · rw [rest ne, others l (.inl other)]
  · obtain ⟨cause, addr⟩ := top seven
    have causes : (k.pushFrame a p).cause = x := congrArg Core.cause pushed
    have addrs : (k.pushFrame a p).addr = y := congrArg Core.addr pushed
    rw [causes, addrs, cause, addr, causeCode_mkCause, causeLevel_mkCause, causeEntered_mkCause]
    exact ⟨rfl, rfl, rfl, rfl⟩
  · obtain ⟨cause, addr⟩ := low below
    have causes : (k.pushFrame a p).cause = x := congrArg Core.cause pushed
    have addrs : (k.pushFrame a p).addr = y := congrArg Core.addr pushed
    rw [causes, addrs, cause, addr]
    exact ⟨rfl, rfl⟩

/-- The fields of a core that a push may change. -/
theorem Core.pushFrame_fields (k : Core) (a : Arr) (p : BitVec 3) : let d := k.pushFrame a p
    d = { k with banks := d.banks, sp := d.sp, level := d.level, thresh := d.thresh, pc := d.pc, asleep := d.asleep, b := d.b,
                 stalls := d.stalls, cause := d.cause, addr := d.addr } := by
  obtain ⟨x, y, pushed, _⟩ := k.pushFrame_eq a p
  obtain ⟨v, saved, _⟩ := k.saveFrame_spec k.pc
  rw [saved] at pushed
  dsimp only
  rw [pushed]
  rfl

/-! ### The push as a whole -/

/-- An arrival that brings no acquire and names no record (R53, R128). -/
def Arr.Plain (s : State) (n : CoreId) (a : Arr) : Prop :=
  a.resume = none ∧ a.far = false ∧ a.srcMod = s.modu ∧ dieOf (hdrSrc a.msg.hdr) = dieOf n ∧
    hdrType a.msg.hdr ∉ [0x00, 0x05, 0x08, 0x0A, 0x0B]

section
variable {s : State} {n : CoreId} {a : Arr}

theorem Arr.Plain.type (h : a.Plain s n) : hdrType a.msg.hdr ≠ 0x00 ∧ hdrType a.msg.hdr ≠ 0x05 ∧ hdrType a.msg.hdr ≠ 0x08 ∧
    hdrType a.msg.hdr ≠ 0x0A ∧ hdrType a.msg.hdr ≠ 0x0B := by
  simpa using h.2.2.2.2

theorem State.recordOf_none (type : hdrType a.msg.hdr ≠ 0x0B) : s.recordOf a = none := if_neg type

theorem State.recordRead_none (type : hdrType a.msg.hdr ≠ 0x0B) : s.recordRead n a = none := by
  rw [State.recordRead, State.recordOf_none type]
  rfl

theorem State.acquireFrom_plain (h : a.Plain s n) : s.acquireFrom n a = s := by
  have type := h.type.2.2.2.1
  obtain ⟨_, near, mine, die, _⟩ := h
  refine if_neg ?_
  rw [near, mine, die]
  simpa using type

/-- The start of a plain arrival is a push, without an acquire and without a record (R37). -/
theorem State.push_plain (h : a.Plain s n) (alone : (s.core n).member = none) (p : BitVec 3) : ∃ u b,
    s.push n a p = u.migTrap n ∧ u.core n = { (s.core n).pushFrame a p with entryBuf := b } ∧ u.weir = s.weir ∧ u.saved = s.saved ∧
      (s.CopiesOf (dieOf n) (s.core n).dom → SameStores s u) := by
  have core := State.core_updCore_same s n fun c => c.pushFrame a p
  have tcm (c : Core) : (c.pushFrame a p).tcm = c.tcm := (congrArg Core.tcm (c.pushFrame_fields a p) :)
  have dom : ((s.core n).pushFrame a p).dom = (s.core n).dom := (congrArg Core.dom ((s.core n).pushFrame_fields a p) :)
  obtain ⟨pushedMem, pushedTcm, _⟩ := sameMemory_updCore s n (fun c => c.pushFrame a p) tcm
  obtain ⟨b, filled, weir, saved, stores⟩ := (s.updCore n fun c => c.pushFrame a p).fillEntry_spec n p
  obtain ⟨pinMem, pinTcm, _⟩ := sameMemory_unpin ((s.updCore n fun c => c.pushFrame a p).fillEntry n p) n
  refine ⟨(((s.updCore n fun c => c.pushFrame a p).fillEntry n p).unpin n), b, ?_, ?_, ?_, ?_, fun clean => ?_⟩
  · unfold State.push
    dsimp only
    rw [State.recordRead_none h.type.2.2.2.2, State.acquireFrom_plain h, State.detach_none s n alone]
  · rw [State.core_unpin, filled, core]
  · rw [State.weir_unpin, weir]
    rfl
  · rw [State.saved_unpin, saved]
    rfl
  · rw [core, dom] at stores
    obtain ⟨mem, tcm⟩ := stores clean
    exact ⟨fun x => (pinMem x).trans ((mem x).trans (pushedMem x)), fun m x => (pinTcm m x).trans ((tcm m x).trans (pushedTcm m x))⟩

end

/-! ### The trap of a migration that is due (R350) -/

section
variable (s : State) (n : CoreId)

/-- From s to t nothing has changed that decides which arrivals core n holds. -/
def HoldsSame (s t : State) (n : CoreId) : Prop := (s.core n).HoldsAlike (t.core n) ∧ t.weir = s.weir ∧ t.saved = s.saved

theorem HoldsSame.heldAt {s t : State} {n : CoreId} (h : HoldsSame s t n) (q : BitVec 3) : t.heldAt n q = s.heldAt n q := by
  obtain ⟨⟨inbox, lid, out⟩, weir, saved⟩ := h
  exact State.heldAt_congr inbox lid out weir saved q

theorem HoldsSame.trans {s t u : State} {n : CoreId} (h : HoldsSame s t n) (k : HoldsSame t u n) : HoldsSame s u n := by
  obtain ⟨⟨inbox, lid, out⟩, weir, saved⟩ := h
  obtain ⟨⟨inbox', lid', out'⟩, weir', saved'⟩ := k
  exact ⟨⟨inbox'.trans inbox, lid'.trans lid, out'.trans out⟩, weir'.trans weir, saved'.trans saved⟩

/-- The fields of a core that entry to level 7 may change. -/
theorem Core.trapped_fields (k : Core) (c : BitVec 5) (a : Word) (epc : BitVec 56) (async : Bool) :
    let d := k.trapped c a epc async
    d = { k with banks := d.banks, level := d.level, thresh := d.thresh, pc := d.pc, asleep := d.asleep, b := d.b, stalls := d.stalls,
                 cause := d.cause, addr := d.addr, epc := d.epc } := by
  obtain ⟨v, saved, _⟩ := ({ k with cause := mkCause c k.level async true, epc, addr := a } : Core).saveFrame_spec epc
  dsimp only
  rw [Core.trapped, saved]
  rfl

theorem enterTrap_holdsSame (c : BitVec 5) (a : Word) (epc : BitVec 56) (async : Bool) :
    HoldsSame s (s.enterTrap n c a epc async) n ∧ ((s.enterTrap n c a epc async).core n).mig = (s.core n).mig := by
  have fields := enterTrap_fields s n c a epc async
  obtain ⟨x, alike, _⟩ := ((membersOnly_detach s n).trans (membersOnly_unpin _ n)).2 n
  have core : (s.enterTrap n c a epc async).core n = ({ s.core n with member := x } : Core).trapped c a epc async := by
    rw [State.core_enterTrap_same, alike]
  have kept := ({ s.core n with member := x } : Core).trapped_fields c a epc async
  rw [← core] at kept
  exact ⟨⟨⟨(congrArg Core.inbox kept :), (congrArg Core.lid kept :), (congrArg Core.savedLid kept :)⟩, (congrArg State.weir fields :),
    (congrArg State.saved fields :)⟩, (congrArg Core.mig kept :)⟩

theorem alert_rest (a : Word) : (s.alert n a).weir = s.weir ∧ (s.alert n a).saved = s.saved := by
  unfold State.alert
  dsimp only
  split
  · exact ⟨rfl, rfl⟩
  · have fields := enterTrap_fields s n 0 a (if (s.core n).level = 0xF then 0 else (s.core n).pc) true
    exact ⟨(congrArg State.weir fields :), (congrArg State.saved fields :)⟩

theorem nestedTrap_holdsSame (c : BitVec 5) :
    HoldsSame s (s.nestedTrap n c) n ∧ ((s.nestedTrap n c).core n).mig = (s.core n).mig := by
  obtain ⟨x, l, core⟩ := s.core_nestedTrap n c
  have detached := (membersOnly_detach s n).1
  obtain ⟨weir, saved⟩ := alert_rest (((s.detach n).updCore n fun k => { k with xcause := c, xepc := (s.core n).pc }).recordStop n)
    ((((s.detach n).updCore n fun k => { k with xcause := c, xepc := (s.core n).pc }).recordStop n).serviceCore (sectorOf n)) (n.setWidth 64)
  rw [HoldsSame, core]
  exact ⟨⟨⟨rfl, rfl, rfl⟩, weir.trans (congrArg State.weir detached :), saved.trans (congrArg State.saved detached :)⟩, rfl⟩

end

end Sys2Proof.Machine
end

section
/-! ## The arrival that a selection takes -/

namespace Sys2Proof.Machine

/-! ### Its place (R45) -/

theorem firstIdx_append {α : Type} {q : α → Bool} {a : α} (first : q a = true) (after : List α) : ∀ {before : List α},
    (∀ x ∈ before, q x = false) → firstIdx q (before ++ a :: after) = some before.length
  | [], _ => if_pos first
  | x :: r, h => by
    rw [List.cons_append, firstIdx, h x List.mem_cons_self, firstIdx_append first after fun y hy => h y (List.mem_cons_of_mem x hy)]
    rfl

theorem State.nextFrom_first {s : State} {n : CoreId} {p : BitVec 3} {a : Arr} {before after : List Arr}
    (h : FirstHeld s n p a before after) : ∀ {l : Nat}, p.toNat < l → l ≤ 8 → s.nextFrom n l = some (p, before.length)
  | l + 1, below, small => by
    obtain ⟨held, earlier, first, above⟩ := h
    have level : (BitVec.ofNat 3 l).toNat = l := by rw [BitVec.toNat_ofNat]; omega
    by_cases e : p.toNat = l
    · have same : BitVec.ofNat 3 l = p := BitVec.eq_of_toNat_eq (level.trans e.symm)
      rw [State.nextFrom, same, held, firstIdx_append (q := fun a => (s.core n).startable a p) first after earlier]
    · rw [State.nextFrom, firstIdx_none (above (BitVec.ofNat 3 l) (by omega))]
      exact State.nextFrom_first ⟨held, earlier, first, above⟩ (by omega) (by omega)

theorem FirstHeld.at_ {s : State} {n : CoreId} {p : BitVec 3} {a : Arr} {before after : List Arr} (h : FirstHeld s n p a before after) :
    (s.heldAt n p)[before.length]? = some a := by
  rw [h.1]
  simp

/-! ### Its removal (R42, R44) -/

theorem dropAt_append_left {α : Type} (r : List α) : ∀ {l : List α} {i : Nat}, i < l.length → dropAt (l ++ r) i = dropAt l i ++ r
  | _ :: _, 0, _ => rfl
  | x :: _, _ + 1, h => congrArg (x :: ·) (dropAt_append_left r (Nat.lt_of_succ_lt_succ h))

theorem dropAt_append_right {α : Type} (r : List α) : ∀ (l : List α) (i : Nat), dropAt (l ++ r) (l.length + i) = l ++ dropAt r i
  | [], i => by rw [List.length_nil, Nat.zero_add]; rfl
  | x :: l, i => by
    rw [List.length_cons, Nat.succ_add]
    exact congrArg (x :: ·) (dropAt_append_right r l i)

/-- The item number k of those that f takes from a list, removed from the list, is removed from what f takes, and a function that takes
none of those takes the same. -/
theorem dropAt_nthIdx {α β : Type} (f : α → Option β) : ∀ (l : List α) (k : Nat), k < (l.filterMap f).length →
    ∃ j, nthIdx (fun e => (f e).isSome) l k = some j ∧ (dropAt l j).filterMap f = dropAt (l.filterMap f) k ∧
      ∀ g : α → Option β, (∀ e, (f e).isSome → g e = none) → (dropAt l j).filterMap g = l.filterMap g
  | [], k, h => absurd h (Nat.not_lt_zero k)
  | x :: r, k, h => by
    cases taken : f x with
    | none =>
      rw [List.filterMap_cons_none taken] at h
      obtain ⟨j, at_, own, other⟩ := dropAt_nthIdx f r k h
      refine ⟨j + 1, ?_, ?_, fun g hg => ?_⟩
      · simp [nthIdx, taken, at_]
      · rw [dropAt, List.filterMap_cons_none taken, List.filterMap_cons_none taken, own]
      · rw [dropAt, List.filterMap_cons, List.filterMap_cons, other g hg]
    | some y =>
      rw [List.filterMap_cons_some taken] at h
      cases k with
      | zero =>
        refine ⟨0, ?_, ?_, fun g hg => ?_⟩
        · simp [nthIdx, taken]
        · rw [List.filterMap_cons_some taken]; rfl
        · rw [List.filterMap_cons_none (hg x (by rw [taken]; rfl))]; rfl
      | succ k =>
        obtain ⟨j, at_, own, other⟩ := dropAt_nthIdx f r k (Nat.lt_of_succ_lt_succ h)
        refine ⟨j + 1, ?_, ?_, fun g hg => ?_⟩
        · simp [nthIdx, taken, at_]
        · rw [dropAt, List.filterMap_cons_some taken, List.filterMap_cons_some taken, own]; rfl
        · rw [dropAt, List.filterMap_cons, List.filterMap_cons, other g hg]

section
variable {s : State} {n : CoreId} {p : BitVec 3}

/-- An entry of the weir that is held for one level is held for no other (R44). -/
theorem State.spillsTo_other {q : BitVec 3} (ne : q ≠ p) {e : WeirEntry} (h : (s.spillsTo n p e).isSome) : s.spillsTo n q e = none := by
  unfold State.spillsTo at h ⊢
  split at h
  · split at h
    · next both => exact if_neg fun own => ne (own.2.1.symm.trans both.2.1)
    · cases h
  · cases h

/-- A held arrival is taken: it alone leaves what the core holds, its core changes no more than its inbox, and memory, copies and saved
contexts stay (R45). -/
theorem State.takeHeld_spec {i : Nat} (inside : i < (s.heldAt n p).length) : ∃ b,
    (s.takeHeld n p i).core n = { s.core n with inbox := b } ∧ (s.takeHeld n p i).heldAt n p = dropAt (s.heldAt n p) i ∧
      (∀ q, q ≠ p → (s.takeHeld n p i).heldAt n q = s.heldAt n q) ∧ (s.takeHeld n p i).dies = s.dies ∧
      (s.takeHeld n p i).boot = s.boot ∧ (s.takeHeld n p i).modu = s.modu ∧ SameMemory s (s.takeHeld n p i) := by
  unfold State.takeHeld
  dsimp only
  by_cases here : i < ((s.core n).held p).length
  · have core := State.core_updCore_same s n fun c => c.setHeld p (dropAt ((s.core n).held p) i)
    have spills (q : BitVec 3) : (s.updCore n fun c => c.setHeld p (dropAt ((s.core n).held p) i)).spillsTo n q = s.spillsTo n q := by
      funext e
      unfold State.spillsTo
      rw [core]
      rfl
    rw [if_pos here]
    refine ⟨_, core, ?_, fun q ne => ?_, rfl, rfl, rfl, sameMemory_updCore s n _ fun _ => rfl⟩
    · rw [State.heldAt, spills, core, Core.held_setHeld, if_pos rfl, State.heldAt, dropAt_append_left _ here]
      rfl
    · rw [State.heldAt, spills, core, Core.held_setHeld, if_neg ne]
      rfl
  · have size : (s.heldAt n p).length = ((s.core n).held p).length + (s.weir.filterMap (s.spillsTo n p)).length := by
      rw [State.heldAt, List.length_append]
    obtain ⟨j, at_, own, other⟩ := dropAt_nthIdx (s.spillsTo n p) s.weir (i - ((s.core n).held p).length) (by omega)
    obtain ⟨l, fell⟩ := ({ s with weir := dropAt s.weir j } : State).weirFell_eq ((s.weir[j]?).bind (·.region))
    rw [if_neg here, at_]
    dsimp only
    rw [fell]
    refine ⟨(s.core n).inbox, rfl, ?_, fun q ne => ?_, rfl, rfl, rfl, SameMemory.refl s⟩
    · have whole : ((s.core n).held p ++ (dropAt s.weir j).filterMap (s.spillsTo n p) : List Arr) = dropAt (s.heldAt n p) i := by
        rw [own, State.heldAt, ← dropAt_append_right, Nat.add_sub_cancel' (Nat.le_of_not_lt here)]
      exact whole
    · have rest : ((s.core n).held q ++ (dropAt s.weir j).filterMap (s.spillsTo n q) : List Arr) = s.heldAt n q := by
        rw [other _ fun e he => State.spillsTo_other ne he, State.heldAt]
      exact rest

end

end Sys2Proof.Machine
end

section
/-! ## The handler that a push starts -/

namespace Sys2Proof.Machine

/-- What starts a handler says nothing of the interface, the inbox and the clock of the core before. -/
theorem Started.of_alike {k d : Core} {a : Arr} {p : BitVec 3} {inbox : Vector (List Arr) 8} {ni : List Transit} {asleep : Bool}
    (h : Started { k with inbox, ni, asleep } d a p) : Started k d a p := h

/-- What starts a handler says nothing of the entry buffer and of a migration. -/
theorem Started.with {k d : Core} {a : Arr} {p : BitVec 3} (h : Started k d a p) (b : Vector (Cells Parcel) 8) (mig : Bool) :
    Started k { d with entryBuf := b, mig } a p := h

theorem SameStores.trans {s t u : State} (h : SameStores s t) (k : SameStores t u) : SameStores s u :=
  ⟨fun a => (k.1 a).trans (h.1 a), fun n a => (k.2 n a).trans (h.2 n a)⟩

/-- The state in which a migration trap that is due is taken: at level 7 it stops the core, below it enters the supervisor (R347, R350). -/
theorem State.migTrap_due {t : State} {n : CoreId} {d : Core} {p : BitVec 3} (core : t.core n = d) (mig : d.mig = true)
    (level : d.level = p.setWidth 4) : let u := t.migTrap n
    SameMemory t u ∧ HoldsSame t u n ∧ (u.core n).mig = false ∧
      (p ≠ 7 → EntersSupervisor { d with mig := false } (u.core n) 0x0E 0 d.pc true) ∧
      (p = 7 → CoreChecked { d with mig := false } (u.core n) 0x0E d.pc) := by
  have busy : d.level ≠ 0xF := by
    rw [level]
    clear level
    revert p
    decide
  have seven : d.level = 7 ↔ p = 7 := by
    rw [level]
    clear level
    revert p
    decide
  let w := t.updCore n fun k => { k with mig := false }
  have cleared : w.core n = { d with mig := false } := by rw [← core]; exact State.core_updCore_same t n _
  have due : t.migTrap n = w.takeTrap n 0x0E 0 d.pc true := by
    unfold State.migTrap
    dsimp only
    rw [core, if_pos mig, if_neg busy]
  have same : HoldsSame t w n := by
    rw [HoldsSame, cleared, core]
    exact ⟨⟨rfl, rfl, rfl⟩, rfl, rfl⟩
  have memory : SameMemory t w := sameMemory_updCore t n _ fun _ => rfl
  have trap := sameMemory_takeTrap w n 0x0E 0 d.pc true
  dsimp only
  rw [due]
  refine ⟨memory.trans trap, ?_⟩
  by_cases top : p = 7
  · obtain ⟨x, l, stops⟩ := w.core_nestedTrap n 0x0E
    obtain ⟨holds, kept⟩ := nestedTrap_holdsSame w n 0x0E
    rw [State.takeTrap, if_pos (by rw [cleared]; exact seven.2 top)]
    refine ⟨same.trans holds, by rw [kept, cleared], fun ne => absurd top ne, fun _ => ?_⟩
    rw [stops, cleared]
    exact ⟨rfl, rfl, rfl, rfl, rfl, rfl, rfl, rfl, rfl⟩
  · have low : (w.core n).level ≠ 7 := by rw [cleared]; exact fun e => top (seven.1 e)
    obtain ⟨holds, kept⟩ := enterTrap_holdsSame w n 0x0E 0 d.pc true
    have enters := entersSupervisor_enterTrap w n 0x0E 0 d.pc true low
    rw [cleared] at enters
    rw [State.takeTrap, if_neg low]
    exact ⟨same.trans holds, by rw [kept, cleared], fun _ => enters, fun e => absurd e top⟩

/-- The push of a plain arrival at a core k (but for inbox, interface and clock) starts its handler, and keeps what else it holds. With
no migration due the handler stands ready; else cause 0x0E comes before its first instruction (R37, R350). -/
theorem State.push_starts {s : State} {n : CoreId} {a : Arr} {p : BitVec 3} {k : Core} {inbox : Vector (List Arr) 8} {ni : List Transit}
    {asleep : Bool} (core : s.core n = { k with inbox, ni, asleep }) (plain : a.Plain s n) (alone : k.member = none)
    (above : k.level = 0xF ∨ k.level.toNat < p.toNat) :
    let u := s.push n a p
    (s.CopiesOf (dieOf n) k.dom → SameStores s u) ∧ HoldsSame s u n ∧
      (k.mig = false → Started k (u.core n) a p ∧ (u.core n).ni = ni) ∧
      (k.mig = true → ∃ d, Started k d a p ∧ (u.core n).mig = false ∧
        (p ≠ 7 → EntersSupervisor d (u.core n) 0x0E 0 d.pc true) ∧ (p = 7 → CoreChecked d (u.core n) 0x0E d.pc)) := by
  obtain ⟨t, b, push, pushed, weir, saved, stores⟩ := State.push_plain plain (by rw [core]; exact alone) p
  have started : Started k ((s.core n).pushFrame a p) a p := by
    rw [core]
    exact Started.of_alike (inbox := inbox) (ni := ni) (asleep := asleep) (started_pushFrame plain.1 above)
  have fields := (s.core n).pushFrame_fields a p
  have mig : ((s.core n).pushFrame a p).mig = k.mig := (congrArg Core.mig fields :).trans (by rw [core])
  have same : HoldsSame s t n := by
    rw [HoldsSame, pushed]
    exact ⟨⟨(congrArg Core.inbox fields :), (congrArg Core.lid fields :), (congrArg Core.savedLid fields :)⟩, weir, saved⟩
  rw [show (s.core n).dom = k.dom by rw [core]] at stores
  dsimp only
  rw [push]
  cases due : k.mig with
  | false =>
    rw [State.migTrap_none (by rw [pushed]; exact mig.trans due), pushed]
    refine ⟨stores, same, fun _ => ⟨started.with b _, ?_⟩, nofun⟩
    exact (congrArg Core.ni fields :).trans (by rw [core])
  | true =>
    obtain ⟨memory, holds, clear, enters, checked⟩ := State.migTrap_due pushed (mig.trans due) started.1
    exact ⟨fun clean => (stores clean).trans memory.stores, same.trans holds, nofun,
      fun _ => ⟨_, started.with b false, clear, enters, checked⟩⟩

end Sys2Proof.Machine
end

section
/-! ## Selections, and arrivals accepted -/

namespace Sys2Proof.Machine

/-! ### What a selection does with the arrival it looks at (R45, R46) -/

section
variable {s : State} {n : CoreId} {p : BitVec 3} {a : Arr} {before after : List Arr}

/-- A selection on a stopped core leaves all as it was. -/
theorem State.selectNext_stopped (none_ : NoneDue s n) (down : (s.core n).stopped = true) : s.selectNext n = s := by
  rw [State.selectNext, State.atBoundary_none none_, State.selectFrom, if_pos down]

/-- The arrival that a selection looks at, which names no record, is removed where it can never start; it stays where it may not or does not
fit now; else it starts. -/
theorem State.selectFrom_first (first : FirstHeld s n p a before after) (up : (s.core n).stopped = false)
    (type : hdrType a.msg.hdr ≠ 0x0B) (k : Nat) : s.selectFrom n (k + 1) =
      if (s.core n).tooLarge a p then ((s.takeHeld n p before.length).asyncTrap n 0xF 0x0A (tooLargeAddr a p)).selectFrom n k
      else if !(s.core n).above p ∨ (s.core n).arrSize a p > (s.core n).freeStack then s
      else (s.takeHeld n p before.length).push n a p := by
  rw [State.selectFrom, if_neg (by rw [up]; exact Bool.false_ne_true), State.nextFrom_first first p.isLt (Nat.le_refl 8)]
  dsimp only
  rw [first.at_]
  dsimp only
  rw [if_neg fun both => type both.1, State.recordRead_none type]

theorem State.selectNext_first (none_ : NoneDue s n) (first : FirstHeld s n p a before after) (up : (s.core n).stopped = false)
    (type : hdrType a.msg.hdr ≠ 0x0B) : ∃ k, s.selectNext n =
      if (s.core n).tooLarge a p then ((s.takeHeld n p before.length).asyncTrap n 0xF 0x0A (tooLargeAddr a p)).selectFrom n k
      else if !(s.core n).above p ∨ (s.core n).arrSize a p > (s.core n).freeStack then s
      else (s.takeHeld n p before.length).push n a p := by
  rw [State.selectNext, State.atBoundary_none none_]
  exact ⟨_, State.selectFrom_first first up type _⟩

/-- An arrival that is not above the threshold, or does not fit now, stays held. -/
theorem State.selectNext_waits (none_ : NoneDue s n) (first : FirstHeld s n p a before after) (up : (s.core n).stopped = false)
    (type : hdrType a.msg.hdr ≠ 0x0B) (small : (s.core n).tooLarge a p = false)
    (waits : (s.core n).above p = false ∨ (s.core n).freeStack < (s.core n).arrSize a p) : s.selectNext n = s := by
  obtain ⟨k, e⟩ := State.selectNext_first none_ first up type
  rw [e, if_neg (by rw [small]; exact Bool.false_ne_true), if_pos (waits.imp_left fun low => by rw [low]; rfl)]

theorem Arr.Plain.of_modu {t : State} (h : a.Plain s n) (modu : t.modu = s.modu) : a.Plain t n := by
  unfold Arr.Plain at h ⊢
  rwa [modu]

theorem State.CopiesOf.of_dies {t : State} {die : BitVec 4} {dom : BitVec 16} (h : s.CopiesOf die dom) (dies : t.dies = s.dies)
    (boot : t.boot = s.boot) : t.CopiesOf die dom := by
  have same : t.die die = s.die die := by unfold State.die; rw [dies, boot]
  unfold State.CopiesOf at h ⊢
  rwa [same]

/-- The removal of the arrival leaves those before and after it. -/
theorem FirstHeld.takeHeld (first : FirstHeld s n p a before after) : ∃ b, let t := s.takeHeld n p before.length
    t.core n = { s.core n with inbox := b } ∧ t.heldAt n p = before ++ after ∧ (∀ q, q ≠ p → t.heldAt n q = s.heldAt n q) ∧
      t.dies = s.dies ∧ t.boot = s.boot ∧ t.modu = s.modu ∧ SameMemory s t := by
  have inside : before.length < (s.heldAt n p).length := by rw [first.1, List.length_append, List.length_cons]; omega
  obtain ⟨b, core, own, rest⟩ := State.takeHeld_spec inside
  refine ⟨b, core, own.trans ?_, rest⟩
  rw [first.1]
  exact dropAt_append_right (a :: after) before 0

/-- The arrival starts where it is above the threshold and fits (R37, R45). -/
theorem State.selectNext_starts (none_ : NoneDue s n) (first : FirstHeld s n p a before after) (up : (s.core n).stopped = false)
    (plain : a.Plain s n) (small : (s.core n).tooLarge a p = false) (above : (s.core n).above p = true)
    (fits : (s.core n).arrSize a p ≤ (s.core n).freeStack) (higher : (s.core n).level = 0xF ∨ (s.core n).level.toNat < p.toNat)
    (alone : (s.core n).member = none) : let k := s.core n; let u := s.selectNext n
    (s.CopiesOf (dieOf n) k.dom → SameStores s u) ∧ u.heldAt n p = before ++ after ∧
      (∀ q, q ≠ p → u.heldAt n q = s.heldAt n q) ∧
      (k.mig = false → Started k (u.core n) a p) ∧
      (k.mig = true → ∃ d, Started k d a p ∧ (u.core n).mig = false ∧
        (p ≠ 7 → EntersSupervisor d (u.core n) 0x0E 0 d.pc true) ∧ (p = 7 → CoreChecked d (u.core n) 0x0E d.pc)) := by
  obtain ⟨k, e⟩ := State.selectNext_first none_ first up plain.type.2.2.2.2
  obtain ⟨b, core, own, others, dies, boot, modu, memory⟩ := first.takeHeld
  have goes : ¬ ((!(s.core n).above p) = true ∨ (s.core n).arrSize a p > (s.core n).freeStack) := by
    rw [above]
    exact fun h => h.elim nofun fun big => absurd fits (Nat.not_le.2 big)
  obtain ⟨stores, same, ready, migrates⟩ := State.push_starts (k := s.core n) (inbox := b) (ni := (s.core n).ni)
    (asleep := (s.core n).asleep) core (plain.of_modu modu) alone higher
  dsimp only
  rw [e, if_neg (by rw [small]; exact Bool.false_ne_true), if_neg goes]
  exact ⟨fun clean => memory.stores.trans (stores (clean.of_dies dies boot)), (same.heldAt p).trans own,
    fun q ne => (same.heldAt q).trans (others q ne), fun stay => (ready stay).1, migrates⟩

/-- k.addr of the trap that an arrival too large raises holds its type and its priority (R46). -/
theorem tooLargeAddr_eq (a : Arr) (p : BitVec 3) : tooLargeAddr a p = BitVec.ofNat 64 ((hdrType a.msg.hdr).toNat + 256 * p.toNat) := by
  apply BitVec.eq_of_toNat_eq
  have type := (hdrType a.msg.hdr).isLt
  have prio := p.isLt
  rw [tooLargeAddr, BitVec.toNat_setWidth, BitVec.toNat_append, BitVec.toNat_ofNat, ← Nat.shiftLeft_add_eq_or_of_lt type,
    Nat.shiftLeft_eq]
  congr 1
  omega

/-- An arrival that can never start, alone held by a core that runs a frame, is removed, and its trap is held (R46). -/
theorem State.selectNext_removes (none_ : NoneDue s n) (first : FirstHeld s n p a [] []) (up : (s.core n).stopped = false)
    (type : hdrType a.msg.hdr ≠ 0x0B) (large : (s.core n).tooLarge a p = true) (busy : (s.core n).level ≠ 0xF)
    (alone : ∀ q, q ≠ p → s.heldAt n q = []) : let u := s.selectNext n
    (∀ q, u.heldAt n q = []) ∧ (u.core n).level = (s.core n).level ∧
      (u.core n).heldTraps = [{ level := 0xF, cause := 0x0A, addr := tooLargeAddr a p, epc := none }] := by
  obtain ⟨k, e⟩ := State.selectNext_first none_ first up type
  obtain ⟨b, core, own, others, _⟩ := first.takeHeld
  have held (q : BitVec 3) : (s.takeHeld n p 0).heldAt n q = [] := by
    by_cases at_ : q = p
    · rw [at_]; exact own
    · exact (others q at_).trans (alone q at_)
  have due : (s.takeHeld n p 0).asyncTrap n 0xF 0x0A (tooLargeAddr a p) = (s.takeHeld n p 0).updCore n fun k =>
      { k with heldTraps := k.heldTraps ++ [{ level := 0xF, cause := 0x0A, addr := tooLargeAddr a p, epc := none }] } :=
    State.asyncTrap_held (.inl (by rw [List.length_nil] at core; rw [core]; exact busy))
  have empty (q : BitVec 3) : ((s.takeHeld n p 0).asyncTrap n 0xF 0x0A (tooLargeAddr a p)).heldAt n q = [] := by
    rw [due]
    exact (State.heldAt_updCore rfl rfl rfl q).trans (held q)
  have stays := State.selectFrom_none (State.nextFrom_none (fun q x hx => by rw [empty q] at hx; cases hx) 8) k
  dsimp only
  rw [e, if_pos large, List.length_nil, stays]
  refine ⟨empty, ?_⟩
  rw [List.length_nil] at core
  rw [due, State.core_updCore_same, core]
  exact ⟨rfl, congrArg (· ++ _) none_.1⟩

end

/-! ### The first arrival at an interface (R36, R42) -/

section
variable {s : State} {n : CoreId} {t : Transit} {a : Arr}

theorem State.withRecord_plain (type : hdrType a.msg.hdr ≠ 0x0B) : s.withRecord a = a := by
  rw [State.withRecord, State.recordOf_none type]

theorem State.vanishes_plain (h : a.Plain s n) : s.vanishes a = false := by
  obtain ⟨nothing, _, _, _, record⟩ := h.type
  rw [State.vanishes, beq_false_of_ne nothing, beq_false_of_ne record]
  rfl

/-- An acceptance that the sender asked no word of tells it none (R410). -/
theorem State.ackTo_none (untagged : t.tag = none) : s.ackTo t = s := by
  unfold State.ackTo
  rw [untagged]

/-- The first message at the interface of core n has been taken in, and is held last of its level. -/
def State.heldFirst (s : State) (n : CoreId) (a : Arr) (p : BitVec 3) : State :=
  ((s.takeNi n 0).updCore n fun c => { c with asleep := false }).updCore n fun c => c.setHeld p (c.held p ++ [a])

theorem State.core_heldFirst (p : BitVec 3) : (s.heldFirst n a p).core n =
    ({ s.core n with ni := dropAt (s.core n).ni 0, asleep := false } : Core).setHeld p ((s.core n).held p ++ [a]) := by
  rw [State.heldFirst, State.core_updCore_same, State.core_updCore_same, State.takeNi, State.core_updCore_same]
  rfl

theorem State.heldFirst_memory (p : BitVec 3) : SameMemory s (s.heldFirst n a p) :=
  ((sameMemory_updCore s n (fun c => { c with ni := dropAt c.ni 0 }) fun _ => rfl).trans
    (sameMemory_updCore (s.takeNi n 0) n (fun c => { c with asleep := false }) fun _ => rfl)).trans
    (sameMemory_updCore _ n (fun c => c.setHeld p (c.held p ++ [a])) fun _ => rfl)

theorem State.heldFirst_noneDue (none_ : NoneDue s n) (p : BitVec 3) : NoneDue (s.heldFirst n a p) n := by
  obtain ⟨traps, due⟩ := none_
  rw [NoneDue, State.core_heldFirst]
  exact ⟨traps, due⟩

/-- Where a core held nothing, the arrival is all that it holds. -/
theorem State.heldFirst_held (empty : ∀ q, s.heldAt n q = []) (p q : BitVec 3) :
    (s.heldFirst n a p).heldAt n q = if q = p then [a] else [] := by
  have none_ := empty q
  rw [State.heldAt, List.append_eq_nil_iff] at none_
  obtain ⟨inbox, weir⟩ := none_
  have spills : (s.heldFirst n a p).spillsTo n q = s.spillsTo n q := by
    funext e
    unfold State.spillsTo
    rw [State.core_heldFirst]
    rfl
  rw [State.heldAt, spills, State.core_heldFirst, Core.held_setHeld]
  show (if q = p then (s.core n).held p ++ [a] else (s.core n).held q) ++ s.weir.filterMap (s.spillsTo n q) = _
  rw [weir, List.append_nil]
  split
  · next e => rw [← e, inbox]; rfl
  · exact inbox

/-- A plain arrival that does not start now is held where its inbox has room, and a selection follows (R42, R45). -/
theorem State.accept_held (plain : a.Plain s n) (small : (s.core n).tooLarge a ((s.core n).effPrio a.msg.hdr) = false)
    (waits : s.startsNow n a ((s.core n).effPrio a.msg.hdr) = false)
    (queue : s.weirHas (.inbox t.dst ((s.core n).effPrio a.msg.hdr)) = false)
    (room : ((s.core n).held ((s.core n).effPrio a.msg.hdr)).length < 16) :
    (s.takeNi n 0).accept n t a = some ((s.heldFirst n a ((s.core n).effPrio a.msg.hdr)).selectNext n) := by
  have type := plain.type.2.2.2.2
  have stays : (s.takeNi n 0).vanishes a = false := State.vanishes_plain (plain.of_modu rfl)
  have prio : ((s.takeNi n 0).core n).effPrio a.msg.hdr = (s.core n).effPrio a.msg.hdr := by
    rw [State.takeNi, State.core_updCore_same]; rfl
  have fits (p : BitVec 3) : ((s.takeNi n 0).core n).tooLarge a p = (s.core n).tooLarge a p := by
    rw [State.takeNi, State.core_updCore_same]; rfl
  have held (p : BitVec 3) : (((s.takeNi n 0).updCore n fun c => { c with asleep := false }).core n).held p = (s.core n).held p := by
    rw [State.core_updCore_same, State.takeNi, State.core_updCore_same]; rfl
  have hold : (s.takeNi n 0).hold n t a ((s.core n).effPrio a.msg.hdr) = some (s.heldFirst n a ((s.core n).effPrio a.msg.hdr)) := by
    unfold State.hold
    dsimp only
    rw [held, if_neg]
    · rfl
    · exact fun h => h.elim (fun has => Bool.false_ne_true (queue.symm.trans has)) fun full => absurd room (Nat.not_lt.2 full)
  have kept : (s.takeNi n 0).keepArr n t a = some (s.heldFirst n a ((s.core n).effPrio a.msg.hdr)) := by
    unfold State.keepArr
    dsimp only
    rw [State.withRecord_plain type, stays, prio, fits, small]
    exact hold
  unfold State.accept
  dsimp only
  rw [State.withRecord_plain type, prio, State.startsNow_takeNi, waits, kept]
  exact if_neg fun all => Bool.false_ne_true all.2.2.1

/-- With nothing else held, a startable plain arrival above the threshold that fits starts as it is accepted (R36). -/
theorem State.accept_starts (plain : a.Plain s n) (small : (s.core n).tooLarge a ((s.core n).effPrio a.msg.hdr) = false)
    (starts : s.startsNow n a ((s.core n).effPrio a.msg.hdr) = true) : (s.takeNi n 0).accept n t a =
      some (((s.takeNi n 0).updCore n fun c => { c with asleep := false }).push n a ((s.core n).effPrio a.msg.hdr)) := by
  have type := plain.type.2.2.2.2
  have stays : (s.takeNi n 0).vanishes a = false := State.vanishes_plain (plain.of_modu rfl)
  have prio : ((s.takeNi n 0).core n).effPrio a.msg.hdr = (s.core n).effPrio a.msg.hdr := by
    rw [State.takeNi, State.core_updCore_same]; rfl
  have fits (p : BitVec 3) : ((s.takeNi n 0).core n).tooLarge a p = (s.core n).tooLarge a p := by
    rw [State.takeNi, State.core_updCore_same]; rfl
  have readable : (s.takeNi n 0).recordReadable n a = true := by
    rw [State.recordReadable, State.recordRead_none type]
  unfold State.accept
  dsimp only
  rw [State.withRecord_plain type, prio, State.startsNow_takeNi]
  refine if_pos ⟨?_, ?_, starts, readable⟩
  · rw [stays]; rfl
  · rw [fits, small]; rfl

/-- The acceptance of the message that a core's interface has first, at which nothing waits for the boundary. -/
theorem State.acceptOne_first {u : State} (none_ : NoneDue s n) (first : s.firstArrival n = some (0, t, a))
    (taken : (s.takeNi n 0).accept n t a = some u) (untagged : t.tag = none) : s.acceptOne n = u := by
  unfold State.acceptOne
  dsimp only
  rw [State.atBoundary_none none_, first]
  dsimp only
  rw [taken]
  exact State.ackTo_none untagged

/-- With nothing held, a startable arrival above the threshold that fits is the one to start (R36, R45). -/
theorem State.startsNow_of_goes {p : BitVec 3} (empty : ∀ q, s.heldAt n q = []) (idle : (s.core n).startable a p = true)
    (above : (s.core n).above p = true) (fits : (s.core n).arrSize a p ≤ (s.core n).freeStack) (up : (s.core n).stopped = false) :
    s.startsNow n a p = true := by
  have next : s.nextFrom n 8 = none := State.nextFrom_none (fun q x hx => by rw [empty q] at hx; cases hx) 8
  unfold State.startsNow
  dsimp only
  rw [next, idle, above, up, decide_eq_true fits]
  rfl

/-- An arrival that is not above the threshold does not start. -/
theorem State.startsNow_below {p : BitVec 3} (below : (s.core n).above p = false) : s.startsNow n a p = false := by
  unfold State.startsNow
  dsimp only
  rw [below, Bool.and_false]
  exact Bool.false_and _

end

/-! ### Arrivals that stay held and arrivals that start -/

section
variable {s : State} {n : CoreId} {a : Arr}

/-- The selection after an arrival below the threshold was accepted leaves it held. -/
theorem State.selectNext_heldFirst {p : BitVec 3} (none_ : NoneDue s n) (empty : ∀ q, s.heldAt n q = []) (plain : a.Plain s n)
    (small : (s.core n).tooLarge a p = false) (below : (s.core n).above p = false) :
    (s.heldFirst n a p).selectNext n = s.heldFirst n a p := by
  have due := State.heldFirst_noneDue (a := a) none_ p
  have held := State.heldFirst_held (a := a) empty p
  have core := State.core_heldFirst (s := s) (n := n) (a := a) p
  by_cases down : (s.core n).stopped = true
  · exact State.selectNext_stopped due (by rw [core]; exact down)
  by_cases idle : (s.core n).startable a p = true
  · have first : FirstHeld (s.heldFirst n a p) n p a [] [] := by
      refine ⟨(held p).trans (if_pos rfl), fun _ h => absurd h List.not_mem_nil, by rw [core]; exact idle, fun q above x hx => ?_⟩
      rw [held q, if_neg fun e => absurd above (by rw [e]; exact Nat.lt_irrefl _)] at hx
      exact absurd hx List.not_mem_nil
    exact State.selectNext_waits due first (by rw [core]; exact Bool.eq_false_iff.2 down) plain.type.2.2.2.2 (by rw [core]; exact small)
      (.inl (by rw [core]; exact below))
  · refine State.selectNext_none due fun q x hx => ?_
    rw [held q] at hx
    split at hx
    · next e =>
      rw [List.mem_singleton.1 hx, e, core]
      exact Bool.eq_false_iff.2 idle
    · cases hx

end

section
variable {s : State} {n : CoreId} {t : Transit} {r : List Transit} {a : Arr}

/-- The message that an interface has first is the one its core accepts, where it is of no type that goes elsewhere. -/
theorem State.firstArrival_plain (plain : a.Plain s n) (on : s.powered n = true) (present : s.present t.dst = true)
    (home : s.physOf t.dst = n) (ni : (s.core n).ni = t :: r) (cargo : t.cargo = .message a)
    (own : hdrType a.msg.hdr ≠ 0x09 ∨ a.inst = none) (saved : (s.core n).savedLid ≠ some t.dst) :
    s.firstArrival n = some (0, t, a) := by
  obtain ⟨_, release, figure, _⟩ := plain.type
  refine State.firstArrival_head ni cargo ?_ (fun e => own.resolve_left fun ne => ne e) on present home saved
  rw [ownType, beq_false_of_ne release, beq_false_of_ne figure]
  rfl

theorem exec_arrivalAccept {x : Nat × Transit × Arr} (first : s.firstArrival n = some x) :
    exec (.arrivalAccept n) s = .next (s.acceptOne n) := by
  show execArrivalAccept n s = _
  rw [execArrivalAccept, first]
  rfl

/-- An arrival not above the threshold is held, and nothing else happens to its core (R42). -/
theorem exec_arrivalAccept_held (plain : a.Plain s n) (first : s.firstArrival n = some (0, t, a)) (none_ : NoneDue s n)
    (empty : ∀ q, s.heldAt n q = []) (queue : s.weirHas (.inbox t.dst ((s.core n).effPrio a.msg.hdr)) = false) (untagged : t.tag = none)
    (small : (s.core n).tooLarge a ((s.core n).effPrio a.msg.hdr) = false)
    (below : (s.core n).above ((s.core n).effPrio a.msg.hdr) = false) :
    exec (.arrivalAccept n) s = .next (s.heldFirst n a ((s.core n).effPrio a.msg.hdr)) := by
  have none_held := (List.append_eq_nil_iff.1 (empty ((s.core n).effPrio a.msg.hdr))).1
  have taken := State.accept_held plain small (State.startsNow_below below) queue (by rw [none_held]; decide)
  rw [State.selectNext_heldFirst none_ empty plain small below] at taken
  rw [exec_arrivalAccept first, State.acceptOne_first none_ first taken untagged]

/-- An arrival above the threshold that fits starts its handler (R36, R37). -/
theorem exec_arrivalAccept_starts {p : BitVec 3} (plain : a.Plain s n) (first : s.firstArrival n = some (0, t, a)) (none_ : NoneDue s n)
    (prio : (s.core n).effPrio a.msg.hdr = p) (starts : s.startsNow n a p = true) (untagged : t.tag = none)
    (small : (s.core n).tooLarge a p = false) (higher : (s.core n).level = 0xF ∨ (s.core n).level.toNat < p.toNat)
    (stay : (s.core n).mig = false) (alone : (s.core n).member = none) : ∃ u, exec (.arrivalAccept n) s = .next u ∧
      (s.CopiesOf (dieOf n) (s.core n).dom → SameStores s u) ∧ Started (s.core n) (u.core n) a p ∧
      (u.core n).ni = dropAt (s.core n).ni 0 := by
  let w := (s.takeNi n 0).updCore n fun c => { c with asleep := false }
  have core : w.core n = { s.core n with ni := dropAt (s.core n).ni 0, asleep := false } := by
    rw [State.core_updCore_same, State.takeNi, State.core_updCore_same]
  have memory : SameMemory s w := (sameMemory_updCore s n (fun c => { c with ni := dropAt c.ni 0 }) fun _ => rfl).trans
    (sameMemory_updCore (s.takeNi n 0) n (fun c => { c with asleep := false }) fun _ => rfl)
  have taken : (s.takeNi n 0).accept n t a = some (w.push n a p) := by
    rw [← prio] at small starts ⊢
    exact State.accept_starts plain small starts
  obtain ⟨stores, _, ready, _⟩ := State.push_starts (s := w) (inbox := (s.core n).inbox) core (plain.of_modu rfl) alone higher
  obtain ⟨started, left⟩ := ready stay
  rw [exec_arrivalAccept first, State.acceptOne_first none_ first taken untagged]
  exact ⟨_, rfl, fun clean => memory.stores.trans (stores (clean.of_dies rfl rfl)), started, left⟩

end

/-- Settles O34: the acceptance of an arrival that stays held or starts, and the three outcomes of a selection. -/
theorem arrivalStartsTask : Obligations.ArrivalStartsTask := by
  intro s n t r a
  dsimp only
  refine ⟨fun on present home ni cargo plain own saved empty queue small untagged stay none_ => ⟨fun below => ?_, ?_⟩,
    fun p before after none_ up first plain => ⟨?_, fun small waits => ?_, ?_⟩, fun none_ idle => State.selectNext_none none_ idle⟩
  · have first := State.firstArrival_plain plain on present home ni cargo own saved
    have held := State.heldFirst_held (a := a) empty ((s.core n).effPrio a.msg.hdr) ((s.core n).effPrio a.msg.hdr)
    refine ⟨_, exec_arrivalAccept_held plain first none_ empty queue untagged small below, State.heldFirst_memory _, ?_⟩
    have was := (List.append_eq_nil_iff.1 (empty ((s.core n).effPrio a.msg.hdr))).1
    rw [State.core_heldFirst, Core.held_setHeld, if_pos rfl, was]
    exact ⟨congrArg (dropAt · 0) ni, rfl, rfl, rfl, rfl⟩
  · rintro ⟨above, fits, higher⟩ idle up alone
    have first := State.firstArrival_plain plain on present home ni cargo own saved
    have started := exec_arrivalAccept_starts plain first none_ rfl (State.startsNow_of_goes empty idle above fits up) untagged small
      higher stay alone
    rw [ni] at started
    exact started
  · rintro small ⟨above, fits, higher⟩ alone
    exact State.selectNext_starts none_ first up plain small above fits higher alone
  · exact State.selectNext_waits none_ first up (Arr.Plain.type plain).2.2.2.2 small waits
  · rintro large busy rfl rfl alone
    rw [← tooLargeAddr_eq]
    exact State.selectNext_removes none_ first up (Arr.Plain.type plain).2.2.2.2 large busy alone

end Sys2Proof.Machine
end

section
/-! ## What a core in turn fetches, and what it runs -/

namespace Sys2Proof.Machine

/-! ### Nothing waits for the boundary (R54, R348) -/

/-- No trap is held for the frame that runs, nor for a core that runs none (R348). -/
def Core.Untrapped (k : Core) : Prop := ∀ h ∈ k.heldTraps, h.level ≠ k.level ∧ (h.level ≠ 0xF ∨ k.level = 7)

/-- The core in turn runs a frame, and nothing waits for its next boundary (R15, R54). -/
def State.Able (t : State) : Prop :=
  t.powered t.cur = true ∧ t.me.stopped = false ∧ t.me.level ≠ 0xF ∧ t.me.Untrapped ∧ t.me.here.parkDue = false ∧
    (t.me.level = 7 ∨ t.me.here.squash = false)

theorem bestTrap_none {q : HeldTrap → Bool} : ∀ {l : List HeldTrap}, (∀ h ∈ l, q h = false) → bestTrap q l = none
  | [], _ => rfl
  | h :: r, none_ => by
    rw [bestTrap, bestTrap_none fun x hx => none_ x (List.mem_cons_of_mem h hx), none_ h List.mem_cons_self]
    rfl

section
variable {t : State}

theorem State.boundary_stopped {n : CoreId} (down : (t.core n).stopped = true) : t.boundary n = t := if_pos down

/-- No trap is taken at a boundary where none is held for the frame and it is not to be squashed. -/
theorem State.boundary_untrapped {n : CoreId} (none_ : (t.core n).Untrapped)
    (whole : (t.core n).level = 7 ∨ (t.core n).level = 0xF ∨ (t.core n).here.squash = false) : t.boundary n = t := by
  unfold State.boundary
  dsimp only
  split
  · rfl
  split
  · next top =>
    rw [bestTrap_none fun h hh => beq_false_of_ne (by rw [← top]; exact (none_ h hh).1)]
  · next low =>
    have stays : ¬ ((t.core n).level ≠ 0xF ∧ (t.core n).here.squash = true) := by
      rintro ⟨busy, squash⟩
      exact whole.elim low fun h => h.elim busy fun none_ => Bool.false_ne_true (none_.symm.trans squash)
    have unheld (h : HeldTrap) (hh : h ∈ (t.core n).heldTraps) : (h.level == (t.core n).level || h.level == 0xF) = false := by
      obtain ⟨other, named⟩ := none_ h hh
      rw [beq_false_of_ne other, beq_false_of_ne (named.resolve_right low)]
      rfl
    rw [if_neg stays, bestTrap_none unheld]

section
variable {n : CoreId} (undue : (t.core n).level = 0xF ∨ (t.core n).stopped = true ∨ (t.core n).here.parkDue = false)
include undue

/-- An idle or stopped core has no frame to park, and neither has one whose frame is not due (R285). -/
theorem State.mustPark_undue : t.mustPark n = false := by
  unfold State.mustPark
  dsimp only
  rcases undue with idle | down | undue
  · simp [idle]
  · simp [down]
  · simp [undue]

theorem State.atBoundary_undue (same : t.boundary n = t) : t.atBoundary n = t := by
  have quiet : (t.core n).level = 0xF ∨ (t.core n).stopped = true ∨ (!(t.core n).here.parkDue) = true := by
    rwa [Bool.not_eq_true']
  unfold State.atBoundary
  dsimp only
  rw [State.mustPark_undue undue, if_neg Bool.false_ne_true, if_pos quiet, same]

end

/-! ### What the core in turn does next (R15, R60) -/

/-- What a core in turn with a frame does, where nothing waits for its boundary: it goes on with its access to a queue register, or with
what its leader has forwarded, or fetches (R60, R169, R210). -/
def State.frameNext (t : State) : State × Option Instr :=
  if t.me.here.queueOp.isSome then (t.queueRun, none)
  else
    match t.me.forwarded with
    | some [] => (t, none)
    | some (f :: _) => if f.at_ = t.me.pc then t.decodeNext f.p f.q else (t.detach t.cur, none)
    | none =>
      match t.fetchParcels with
      | .error (u, .trap cause a) => (u.issue, some (.fetchFault cause a))
      | .error (u, e) => (u.stop e, none)
      | .ok (u, p, q) => u.decodeNext p q

theorem State.nextInstr_off (off : t.powered t.cur = false) : t.nextInstr = (t, none) := by
  rw [State.nextInstr, off]
  rfl

/-- A core that is stopped or runs no frame, and at whose boundary nothing is taken, runs nothing (R15). -/
theorem State.nextInstr_rests (rests : t.me.stopped = true ∨ t.me.level = 0xF) (same : t.boundary t.cur = t) : t.nextInstr = (t, none) := by
  have undue : (t.core t.cur).level = 0xF ∨ (t.core t.cur).stopped = true ∨ (t.core t.cur).here.parkDue = false :=
    rests.elim (fun down => .inr (.inl down)) .inl
  have none_ : t.mustPark t.cur = true ∨ t.me.stopped = true ∨ t.me.level = 0xF := .inr rests
  unfold State.nextInstr
  dsimp only
  rw [State.atBoundary_undue undue same, if_pos none_, ite_self]

theorem State.nextInstr_stopped (down : t.me.stopped = true) : t.nextInstr = (t, none) :=
  State.nextInstr_rests (.inl down) (State.boundary_stopped down)

theorem State.nextInstr_idle (idle : t.me.level = 0xF) (none_ : t.me.Untrapped) : t.nextInstr = (t, none) :=
  State.nextInstr_rests (.inr idle) (State.boundary_untrapped none_ (.inr (.inl idle)))

theorem State.nextInstr_able (able : t.Able) : t.nextInstr = t.frameNext := by
  obtain ⟨on, up, busy, none_, undue, whole⟩ := able
  have stays : t.mustPark t.cur = false := State.mustPark_undue (.inr (.inr undue))
  have same : t.atBoundary t.cur = t := State.atBoundary_undue (.inr (.inr undue)) (State.boundary_untrapped none_ (whole.imp_right .inr))
  have runs : ¬ (t.mustPark t.cur = true ∨ t.me.stopped = true ∨ t.me.level = 0xF) := by
    rw [stays, up]
    exact fun h => h.elim nofun fun h => h.elim nofun busy
  unfold State.nextInstr
  dsimp only
  rw [on, same, if_neg runs]
  rfl

/-! ### The step of a core (R159) -/

theorem State.runCore_none {u : State} (next : t.nextInstr = (u, none)) : t.runCore = .next u := by rw [State.runCore, next]

/-- A core runs the instruction that comes next; a gang forwards or follows it. -/
theorem State.runCore_some {u v : State} {i : Instr} (next : t.nextInstr = (u, some i)) (runs : exec i u = .next v) :
    t.runCore = .next (u.gangStep v u.cur i) := by
  rw [State.runCore, next]
  dsimp only
  rw [runs]

theorem State.gangStep_alone {u v : State} {n : CoreId} {i : Instr} (alone : (u.core n).membership = none) : u.gangStep v n i = v := by
  unfold State.gangStep
  rw [alone]
  rfl

theorem State.runCore_alone {u : State} {i : Instr} (next : t.nextInstr = (u, some i)) (alone : u.me.membership = none) :
    t.runCore = exec i u := by
  rw [State.runCore, next]
  dsimp only
  split
  · next v runs => rw [runs, State.gangStep_alone alone]
  · rfl

/-- The arrival that a core accepts in the same cycle comes after the retirement (R56). -/
theorem State.runAccepting_alone {u v : State} {i : Instr} (next : t.nextInstr = (u, some i)) (alone : u.me.membership = none)
    (plain : i.selects = false) (runs : exec i u = .next v) : t.runAccepting = .next (v.acceptOne u.cur) := by
  unfold State.runAccepting
  rw [next]
  dsimp only
  rw [plain]
  rw [if_neg Bool.false_ne_true, runs]
  dsimp only
  rw [State.gangStep_alone alone]
  rfl

end

end Sys2Proof.Machine
end

section
/-! ## The parcels at pc, and their decoding -/

namespace Sys2Proof.Machine

/-! ### What a fetch leaves of the core (R172) -/

/-- From t to u the core in turn has changed no more than its instruction cache. -/
def CodeOnly (t u : State) : Prop := u.cur = t.cur ∧ ∃ l, u.me = { t.me with icache := l }

section
variable {t u v : State}

theorem CodeOnly.refl (t : State) : CodeOnly t t := ⟨rfl, _, rfl⟩

theorem CodeOnly.trans (h : CodeOnly t u) (k : CodeOnly u v) : CodeOnly t v := by
  obtain ⟨cur, l, me⟩ := h
  obtain ⟨cur', l', me'⟩ := k
  rw [me] at me'
  exact ⟨cur'.trans cur, l', me'⟩

theorem HomesOnly.me (h : HomesOnly t u) : u.me = t.me := by rw [State.me, h.core, h.cur, State.me]

theorem HomesOnly.codeOnly (h : HomesOnly t u) : CodeOnly t u := ⟨h.cur, t.me.icache, h.me⟩

theorem codeOnly_fillCache (t : State) (a : Nat) (p : Parcel) (pick : Nat) : CodeOnly t (t.updMe fun c => c.fillCache a p pick) :=
  ⟨rfl, _, State.me_updMe t _⟩

/-! ### The issue of an instruction (R343) -/

/-- An instruction of a core k below level 7 ends the count of a run of level-7 frames (R343). -/
def State.endRun7 (k : Core) (t : State) : State :=
  if k.level ≠ 7 ∧ k.run7 ≠ 0 then t.updMe fun c => { c with run7 := 0 } else t

theorem State.endRun7_me (k : Core) (t : State) : ∃ x, (t.endRun7 k).me = { t.me with run7 := x } ∧ (t.endRun7 k).cur = t.cur := by
  unfold State.endRun7
  split
  · exact ⟨0, State.me_updMe t _, rfl⟩
  · exact ⟨t.me.run7, rfl, rfl⟩

theorem CodeOnly.membership (h : CodeOnly t u) : u.me.membership = t.me.membership := by
  obtain ⟨_, l, me⟩ := h
  rw [me]
  rfl

theorem CodeOnly.awaits (h : CodeOnly t u) (i : Instr) : u.me.awaits i = t.me.awaits i := by
  obtain ⟨_, l, me⟩ := h
  rw [me]
  rfl

/-- An instruction of a core without membership issues: it ends the count of a run of level-7 frames, and that is all. -/
theorem CodeOnly.issue (h : CodeOnly t u) (alone : t.me.membership = none) : u.issue = u.endRun7 t.me := by
  obtain ⟨_, l, me⟩ := h
  have level : u.me.level = t.me.level := by rw [me]
  have run7 : u.me.run7 = t.me.run7 := by rw [me]
  have single : u.me.membership = none := by rw [← alone, me]; rfl
  unfold State.issue
  dsimp only
  rw [single, level, run7]
  rfl

theorem CodeOnly.endRun7_alone (h : CodeOnly t u) (alone : t.me.membership = none) (k : Core) : (u.endRun7 k).me.membership = none := by
  obtain ⟨x, me, _⟩ := State.endRun7_me k u
  rw [me, ← alone, ← h.membership]
  rfl

/-! ### One parcel (R169, R172) -/

/-- The core in turn may fetch a parcel at an address: it is of the address space, and the PLB grants the right to execute (R384). -/
def State.mayFetch (t : State) (a : Nat) : Bool := decide (a < 2 ^ 56) && (t.me.rights (BitVec.ofNat 56 a) (t.me.level == 7)).2.2

theorem State.fetchParcel_barred {a : Nat} (no : t.mayFetch a = false) :
    t.fetchParcel a = .error (t, .trap 0x03 (BitVec.ofNat 64 a)) := by
  unfold State.fetchParcel
  dsimp only
  rw [← State.mayFetch, no]
  rfl

theorem State.fetchParcel_held {a : Nat} {p : Parcel} (may : t.mayFetch a = true) (held : t.me.cachedParcel a = some p) :
    t.fetchParcel a = .ok (t, p) := by
  unfold State.fetchParcel
  dsimp only
  rw [← State.mayFetch, may, held]
  rfl

section
variable {a : Nat} (may : t.mayFetch a = true) (away : t.me.cachedParcel a = none)
include may away

/-- A parcel of the management space may not be fetched (R432). -/
theorem State.fetchParcel_mgmt (mgmt : isMgmt a = true) : t.fetchParcel a = .error (t, .trap 0x03 (BitVec.ofNat 64 a)) := by
  unfold State.fetchParcel
  dsimp only
  rw [← State.mayFetch, may, away, mgmt]
  rfl

theorem State.fetchParcel_untranslated (space : isMgmt a = false) {e : Stop}
    (walk : t.xlate t.cur t.me.dom t.me.region a false = .error (u, e)) : t.fetchParcel a = .error (u, e) := by
  unfold State.fetchParcel
  dsimp only
  rw [← State.mayFetch, may, away, space, walk]
  rfl

theorem State.fetchParcel_poisoned (space : isMgmt a = false) {pa : Nat} (walk : t.xlate t.cur t.me.dom t.me.region a false = .ok (u, pa))
    (poison : u.poisoned (dieOf u.cur) pa = true) : t.fetchParcel a = .error (u, .trap 0x0D (BitVec.ofNat 64 a)) := by
  unfold State.fetchParcel
  dsimp only
  rw [← State.mayFetch, may, away, space, walk]
  show (demand (!u.poisoned (dieOf u.cur) pa) u _ >>= _) = _
  rw [poison]
  rfl

/-- A parcel that the core does not hold is read at the address its page has, and kept. -/
theorem State.fetchParcel_read (space : isMgmt a = false) {pa : Nat} (walk : t.xlate t.cur t.me.dom t.me.region a false = .ok (u, pa))
    (whole : u.poisoned (dieOf u.cur) pa = false) {bs : List Byte} (read : u.dieRead (dieOf u.cur) t.me.dom a pa 2 = (v, bs)) :
    t.fetchParcel a = .ok (v.updMe fun c => c.fillCache a (BitVec.ofNat 16 (joinBytes bs)) (Config.freeWord v.free 2).toNat,
      BitVec.ofNat 16 (joinBytes bs)) := by
  unfold State.fetchParcel
  dsimp only
  rw [← State.mayFetch, may, away, space, walk]
  show (demand (!u.poisoned (dieOf u.cur) pa) u _ >>= _) = _
  rw [whole]
  show Except.ok _ = _
  rw [read]

end

theorem State.xlate_ok {n : CoreId} {d : BitVec 16} {r : Option Region} {a pa : Nat} (h : t.xlate n d r a false = .ok (u, pa)) :
    HomesOnly t u := by
  have walk := homesOnly_translate t (dieOf n) (BitVec.ofNat 56 a) (t.core n).sbuf
  unfold State.xlate at h
  split at h
  · next w x found =>
    rw [found] at walk
    rw [if_neg fun both => absurd both.1 Bool.false_ne_true] at h
    cases h
    exact walk
  · cases h

theorem State.fetchParcel_codeOnly {a : Nat} {p : Parcel} (h : t.fetchParcel a = .ok (u, p)) : CodeOnly t u := by
  unfold State.fetchParcel at h
  obtain ⟨_, _, h⟩ := res_bind_ok.1 h
  dsimp only at h
  split at h
  · cases h
    exact CodeOnly.refl t
  · obtain ⟨_, _, h⟩ := res_bind_ok.1 h
    obtain ⟨⟨w, pa⟩, walk, h⟩ := res_bind_ok.1 h
    obtain ⟨_, _, h⟩ := res_bind_ok.1 h
    cases h
    exact ((State.xlate_ok walk).trans (homesOnly_dieRead _ _ _ _ _ _)).codeOnly.trans (codeOnly_fillCache _ _ _ _)

/-! ### The parcels of an instruction (R159) -/

/-- The bytes of two parcels, in the order of their addresses. -/
def parcelBytes (p q : Parcel) : List Byte := [bits p 0 8, bits p 8 8, bits q 0 8, bits q 8 8]

theorem parcel_of_bytes (p : Parcel) : (bits p 8 8 ++ bits p 0 8 : Parcel) = p := by
  have size := p.isLt
  have low := (bits p 0 8).isLt
  apply BitVec.eq_of_toNat_eq
  rw [BitVec.toNat_append, ← Nat.shiftLeft_add_eq_or_of_lt low, bits, bits, BitVec.extractLsb'_toNat, BitVec.extractLsb'_toNat,
    Nat.shiftLeft_eq, Nat.shiftRight_eq_div_pow, Nat.shiftRight_zero]
  omega

theorem decode_parcelBytes (p q : Parcel) : decode (parcelBytes p q) = (decodeParcels p q).map fun i => (i, parcelLength p) := by
  have first := parcel_of_bytes p
  have second := parcel_of_bytes q
  unfold decode parcelBytes
  dsimp only
  rw [first, second, decodeParcels, parcelLength]
  split <;> rfl

theorem decodeParcels_of_decode {p q : Parcel} {i : Instr} {n : Nat} (h : decode (parcelBytes p q) = .ok (i, n)) :
    decodeParcels p q = .ok i := by
  rw [decode_parcelBytes] at h
  cases d : decodeParcels p q with
  | error e => rw [d] at h; cases h
  | ok j => rw [d] at h; cases h; rfl

theorem decodeParcels_refused {p q : Parcel} (h : ∀ x, decode (parcelBytes p q) ≠ .ok x) : ∃ e, decodeParcels p q = .error e := by
  cases d : decodeParcels p q with
  | error e => exact ⟨e, rfl⟩
  | ok j =>
    refine absurd ?_ (h (j, parcelLength p))
    rw [decode_parcelBytes, d]
    rfl

/-- The second parcel means nothing to a compact instruction. -/
theorem decodeParcels_compact {p : Parcel} (compact : bits p 14 2 ≠ 3) (q r : Parcel) : decodeParcels p q = decodeParcels p r := by
  rw [decodeParcels, decodeParcels, if_neg compact, if_neg compact]

theorem State.fetchParcels_odd (odd : t.pc.toNat % 2 = 1) :
    t.fetchParcels = .error (t, .trap 0x02 (BitVec.ofNat 64 t.pc.toNat)) := by
  unfold State.fetchParcels
  dsimp only
  rw [decide_eq_false (by omega)]
  rfl

section
variable (even : t.pc.toNat % 2 = 0)
include even

theorem State.fetchParcels_first {e : Stop} (first : t.fetchParcel t.pc.toNat = .error (u, e)) : t.fetchParcels = .error (u, e) := by
  unfold State.fetchParcels
  dsimp only
  rw [decide_eq_true even, first]
  rfl

theorem State.fetchParcels_compact {p : Parcel} (first : t.fetchParcel t.pc.toNat = .ok (u, p)) (compact : bits p 14 2 ≠ 3) :
    t.fetchParcels = .ok (u, p, 0) := by
  unfold State.fetchParcels
  dsimp only
  rw [decide_eq_true even, first]
  exact if_pos (by rw [parcelLength, if_neg compact])

theorem State.fetchParcels_second {p : Parcel} {e : Stop} (first : t.fetchParcel t.pc.toNat = .ok (u, p)) (wide : bits p 14 2 = 3)
    (second : u.fetchParcel (t.pc.toNat + 2) = .error (v, e)) : t.fetchParcels = .error (v, e) := by
  unfold State.fetchParcels
  dsimp only
  rw [decide_eq_true even, first]
  refine (if_neg (by rw [parcelLength, if_pos wide]; decide)).trans ?_
  rw [second]
  rfl

theorem State.fetchParcels_wide {p q : Parcel} (first : t.fetchParcel t.pc.toNat = .ok (u, p)) (wide : bits p 14 2 = 3)
    (second : u.fetchParcel (t.pc.toNat + 2) = .ok (v, q)) : t.fetchParcels = .ok (v, p, q) := by
  unfold State.fetchParcels
  dsimp only
  rw [decide_eq_true even, first]
  refine (if_neg (by rw [parcelLength, if_pos wide]; decide)).trans ?_
  rw [second]
  rfl

end

theorem State.fetchParcels_codeOnly {p q : Parcel} (h : t.fetchParcels = .ok (u, p, q)) : CodeOnly t u := by
  unfold State.fetchParcels at h
  obtain ⟨_, _, h⟩ := res_bind_ok.1 h
  obtain ⟨⟨w, x⟩, first, h⟩ := res_bind_ok.1 h
  dsimp only at h
  split at h
  · cases h
    exact State.fetchParcel_codeOnly first
  · obtain ⟨⟨y, z⟩, second, h⟩ := res_bind_ok.1 h
    cases h
    exact (State.fetchParcel_codeOnly first).trans (State.fetchParcel_codeOnly second)

end

end Sys2Proof.Machine
end

section
/-! ## The step of a core in turn -/

namespace Sys2Proof.Machine

/-! ### Decoding, and registers that wait (R159, R170, R222) -/

section
variable {u : State} {p q : Parcel} {i : Instr}

theorem State.decodeNext_issues (dec : decodeParcels p q = .ok i) (free : u.me.awaits i = none) : u.decodeNext p q = (u.issue, some i) := by
  unfold State.decodeNext
  rw [dec]
  dsimp only
  rw [free]

theorem State.decodeNext_waits {e : Stop} (dec : decodeParcels p q = .ok i) (waits : u.me.awaits i = some e) :
    u.decodeNext p q = (u.stop e, none) := by
  unfold State.decodeNext
  rw [dec]
  dsimp only
  rw [waits]

theorem State.decodeNext_refused {e : DecodeError} (dec : decodeParcels p q = .error e) :
    u.decodeNext p q = (u.issue, some (.illegalInstruction (parcelBits p q))) := by
  unfold State.decodeNext
  rw [dec]

theorem parcelBits_wide (wide : bits p 14 2 = 3) (q : Parcel) : parcelBits p q = (p ++ q : BitVec 32).setWidth 64 + 0x100000000 := by
  rw [parcelBits, parcelLength, if_pos wide, if_neg (by decide)]
  have size := (p ++ q : BitVec 32).isLt
  apply BitVec.eq_of_toNat_eq
  rw [BitVec.toNat_setWidth, BitVec.toNat_append, ← Nat.shiftLeft_add_eq_or_of_lt size, BitVec.toNat_add, BitVec.toNat_setWidth,
    show (1#1).toNat <<< (16 + 16) = 0x100000000 from rfl, show (0x100000000 : Word).toNat = 0x100000000 from rfl]
  omega

theorem parcelBits_compact (compact : bits p 14 2 ≠ 3) (q : Parcel) : parcelBits p q = p.setWidth 64 := by
  rw [parcelBits, parcelLength, if_neg compact, if_pos rfl]

theorem State.cur_issue (u : State) : u.issue.cur = u.cur := by
  unfold State.issue
  dsimp only
  split
  · split
    · split <;> rfl
    · split <;> rfl
  · split <;> rfl

theorem Core.forwarded_alone {k : Core} (alone : k.membership = none) : k.forwarded = none := by
  rw [Core.forwarded, alone]
  rfl

end

/-! ### What is fetched at pc (R169) -/

section
variable {t u v : State}

theorem State.ofNat_pc (t : State) : BitVec.ofNat 56 t.pc.toNat = t.me.pc := (BitVec.ofNat_toNat ..).trans (BitVec.setWidth_eq _)

theorem State.mayFetch_pc (t : State) : t.mayFetch t.pc.toNat = (t.me.rights t.me.pc (t.me.level == 7)).2.2 := by
  rw [State.mayFetch, decide_eq_true t.pc.isLt, State.ofNat_pc]
  rfl

theorem State.ofNat_next (t : State) : BitVec.ofNat 56 (t.pc.toNat + 2) = t.me.pc + 2 := by
  apply BitVec.eq_of_toNat_eq
  rw [BitVec.toNat_ofNat, BitVec.toNat_add]
  rfl

theorem State.mayFetch_next (small : t.pc.toNat + 2 < 2 ^ 56) :
    t.mayFetch (t.pc.toNat + 2) = (t.me.rights (t.me.pc + 2) (t.me.level == 7)).2.2 := by
  rw [State.mayFetch, decide_eq_true small, State.ofNat_next]
  rfl

theorem State.xlate_page {n : CoreId} {d : BitVec 16} {r : Option Region} {a pa : Nat}
    (walk : t.translate (dieOf n) (BitVec.ofNat 56 a) (t.core n).sbuf = (u, .page pa)) : t.xlate n d r a false = .ok (u, pa) := by
  rw [State.xlate, walk]
  exact if_neg fun both => absurd both.1 Bool.false_ne_true

theorem State.xlate_absent {n : CoreId} {d : BitVec 16} {r : Option Region} {a : Nat} {kind : BitVec 2}
    (walk : t.translate (dieOf n) (BitVec.ofNat 56 a) (t.core n).sbuf = (u, .absent kind false)) :
    t.xlate n d r a false = .error (u, if kind = 1 then .park 8 (BitVec.ofNat 64 a) else .trap 0x04 (BitVec.ofNat 64 a)) := by
  rw [State.xlate, walk]
  rfl

theorem State.homesOnly_of_translate {die : BitVec 4} {va : BitVec 56} {buf : List StoreEntry} {x : Xlate}
    (walk : t.translate die va buf = (u, x)) : HomesOnly t u := by
  have homes := homesOnly_translate t die va buf
  rwa [walk] at homes

/-- The core in turn may execute at an address that the PLB judges (R384). -/
def State.mayRun (t : State) (x : BitVec 56) : Prop := (t.me.rights x (t.me.level == 7)).2.2 = true

theorem State.word_pc (t : State) : BitVec.ofNat 64 t.pc.toNat = t.me.pc.setWidth 64 := BitVec.ofNat_toNat ..

theorem State.fetchParcels_odd_pc (odd : t.pc.toNat % 2 = 1) : t.fetchParcels = .error (t, .trap 0x02 (t.me.pc.setWidth 64)) := by
  rw [State.fetchParcels_odd odd, State.word_pc]

theorem State.fetchParcels_barred (even : t.pc.toNat % 2 = 0) (no : ¬ t.mayRun t.me.pc) :
    t.fetchParcels = .error (t, .trap 0x03 (t.me.pc.setWidth 64)) := by
  have barred : t.mayFetch t.pc.toNat = false := (State.mayFetch_pc t).trans (Bool.eq_false_iff.2 no)
  rw [State.fetchParcels_first even (State.fetchParcel_barred barred), State.word_pc]

/-- The parcel at pc may be fetched, and the core does not hold it. -/
def State.FetchesAway (t : State) : Prop := t.pc.toNat % 2 = 0 ∧ t.mayRun t.me.pc ∧ t.me.cachedParcel t.pc.toNat = none

section
variable (away : t.FetchesAway)
include away

theorem State.fetchParcels_mgmt (mgmt : isMgmt t.pc.toNat = true) : t.fetchParcels = .error (t, .trap 0x03 (t.me.pc.setWidth 64)) := by
  obtain ⟨even, may, own⟩ := away
  rw [State.fetchParcels_first even (State.fetchParcel_mgmt ((State.mayFetch_pc t).trans may) own mgmt), State.word_pc]

variable (space : isMgmt t.pc.toNat = false)
include space

theorem State.fetchParcels_absent {kind : BitVec 2} (walk : t.translate (dieOf t.cur) t.me.pc t.me.sbuf = (u, .absent kind false)) :
    t.fetchParcels = .error (u, if kind = 1 then .park 8 (t.me.pc.setWidth 64) else .trap 0x04 (t.me.pc.setWidth 64)) := by
  obtain ⟨even, may, own⟩ := away
  rw [← State.ofNat_pc] at walk
  rw [State.fetchParcels_first even (State.fetchParcel_untranslated ((State.mayFetch_pc t).trans may) own space (State.xlate_absent walk)),
    State.word_pc]

variable {pa : Nat} (walk : t.translate (dieOf t.cur) t.me.pc t.me.sbuf = (u, .page pa))
include walk

theorem State.fetchParcels_poisoned (poison : u.poisoned (dieOf t.cur) pa = true) :
    t.fetchParcels = .error (u, .trap 0x0D (t.me.pc.setWidth 64)) := by
  obtain ⟨even, may, own⟩ := away
  rw [← (State.homesOnly_of_translate walk).cur] at poison
  rw [← State.ofNat_pc] at walk
  rw [State.fetchParcels_first even (State.fetchParcel_poisoned ((State.mayFetch_pc t).trans may) own space (State.xlate_page walk) poison),
    State.word_pc]

/-- A compact instruction that the core does not hold is read, and kept. -/
theorem State.fetchParcels_read (whole : u.poisoned (dieOf t.cur) pa = false) {bs : List Byte} {p : Parcel}
    (read : u.dieRead (dieOf t.cur) t.me.dom t.pc.toNat pa 2 = (v, bs)) (parcel : p = BitVec.ofNat 16 (joinBytes bs))
    (compact : bits p 14 2 ≠ 3) :
    t.fetchParcels = .ok (v.updMe fun c => c.fillCache t.pc.toNat p (Config.freeWord v.free 2).toNat, p, 0) := by
  subst parcel
  obtain ⟨even, may, own⟩ := away
  rw [← (State.homesOnly_of_translate walk).cur] at whole read
  rw [← State.ofNat_pc] at walk
  exact State.fetchParcels_compact even
    (State.fetchParcel_read ((State.mayFetch_pc t).trans may) own space (State.xlate_page walk) whole read) compact

end

/-- Parcels that the core holds are what it fetches: nothing is read (R172). -/
theorem State.fetchParcels_held {p q : Parcel}
    (first : t.pc.toNat % 2 = 0 ∧ t.mayRun t.me.pc ∧ t.me.cachedParcel t.pc.toNat = some p)
    (second : bits p 14 2 = 3 →
      t.pc.toNat + 2 < 2 ^ 56 ∧ t.mayRun (t.me.pc + 2) ∧ t.me.cachedParcel (t.pc.toNat + 2) = some q)  :
    ∃ r, t.fetchParcels = .ok (t, p, r) ∧ decode (parcelBytes p r) = decode (parcelBytes p q) ∧ parcelBits p r = parcelBits p q := by
  obtain ⟨even, may, held⟩ := first
  have one := State.fetchParcel_held ((State.mayFetch_pc t).trans may) held
  by_cases wide : bits p 14 2 = 3
  · obtain ⟨small, may', held'⟩ := second wide
    exact ⟨q, State.fetchParcels_wide even one wide (State.fetchParcel_held ((State.mayFetch_next small).trans may') held'), rfl, rfl⟩
  · refine ⟨0, State.fetchParcels_compact even one wide, ?_, ?_⟩
    · rw [decode_parcelBytes, decode_parcelBytes, decodeParcels_compact wide 0 q]
    · rw [parcelBits_compact wide, parcelBits_compact wide]

/-- The second parcel of a wide instruction lies where the core may not execute. -/
theorem State.fetchParcels_second_barred {p : Parcel} (even : t.pc.toNat % 2 = 0) (may : t.mayRun t.me.pc)
    (held : t.me.cachedParcel t.pc.toNat = some p) (wide : bits p 14 2 = 3) (small : t.pc.toNat + 2 < 2 ^ 56)
    (no : ¬ t.mayRun (t.me.pc + 2)) :
    t.fetchParcels = .error (t, .trap 0x03 ((t.me.pc + 2).setWidth 64)) := by
  have barred : t.mayFetch (t.pc.toNat + 2) = false := (State.mayFetch_next small).trans (Bool.eq_false_iff.2 no)
  have word : BitVec.ofNat 64 (t.pc.toNat + 2) = (t.me.pc + 2).setWidth 64 := by
    rw [← State.ofNat_next, ← BitVec.ofNat_toNat, BitVec.toNat_ofNat, Nat.mod_eq_of_lt small]
  rw [State.fetchParcels_second even (State.fetchParcel_held ((State.mayFetch_pc t).trans may) held) wide (State.fetchParcel_barred barred),
    word]

/-! ### A core that fetches for itself (R159, R169, R170) -/

/-- The core in turn runs a frame, nothing waits for its boundary, and it is in no access to a queue register (R54, R60). -/
def State.Ready (t : State) : Prop := t.Able ∧ t.me.here.queueOp = none

section
variable (ready : t.Ready)
include ready

/-- A follower waits where nothing has been forwarded. -/
theorem State.nextInstr_unforwarded (fwd : t.me.forwarded = some []) : t.nextInstr = (t, none) := by
  obtain ⟨able, free⟩ := ready
  rw [State.nextInstr_able able, State.frameNext, free, fwd]
  rfl

theorem State.nextInstr_forwarded {f : Forwarded} {l : List Forwarded} (fwd : t.me.forwarded = some (f :: l)) :
    t.nextInstr = if f.at_ = t.me.pc then t.decodeNext f.p f.q else (t.detach t.cur, none) := by
  obtain ⟨able, free⟩ := ready
  rw [State.nextInstr_able able, State.frameNext, free, fwd]
  rfl

variable (single : t.me.forwarded = none)
include single

theorem State.nextInstr_fetched {p q : Parcel} (fetch : t.fetchParcels = .ok (u, p, q)) : t.nextInstr = u.decodeNext p q := by
  obtain ⟨able, free⟩ := ready
  rw [State.nextInstr_able able, State.frameNext, free, single, fetch]
  rfl

theorem State.nextInstr_fault {c : BitVec 5} {a : Word} (fetch : t.fetchParcels = .error (u, .trap c a)) :
    t.nextInstr = (u.issue, some (.fetchFault c a)) := by
  obtain ⟨able, free⟩ := ready
  rw [State.nextInstr_able able, State.frameNext, free, single, fetch]
  rfl

theorem State.nextInstr_parks {why : BitVec 4} {a : Word} (fetch : t.fetchParcels = .error (u, .park why a)) :
    t.nextInstr = (u.stop (.park why a), none) := by
  obtain ⟨able, free⟩ := ready
  rw [State.nextInstr_able able, State.frameNext, free, single, fetch]
  rfl

end

section
variable (ready : t.Ready) (alone : t.me.membership = none)
include ready alone

/-- A fetch that fails traps (R169). -/
theorem State.runCore_fault {c : BitVec 5} {a : Word} (fetch : t.fetchParcels = .error (u, .trap c a)) (same : CodeOnly t u) :
    t.runCore = exec (.fetchFault c a) (u.endRun7 t.me) := by
  rw [← same.issue alone]
  refine State.runCore_alone (State.nextInstr_fault ready (Core.forwarded_alone alone) fetch) ?_
  rw [same.issue alone]
  exact same.endRun7_alone alone _

/-- The instruction that the parcels decode to comes next, where no register it names waits. -/
theorem State.nextInstr_decoded {p q : Parcel} {i : Instr} {n : Nat} (fetch : t.fetchParcels = .ok (u, p, q))
    (dec : decode (parcelBytes p q) = .ok (i, n)) (free : t.me.awaits i = none) : t.nextInstr = (u.endRun7 t.me, some i) := by
  have same := State.fetchParcels_codeOnly fetch
  rw [State.nextInstr_fetched ready (Core.forwarded_alone alone) fetch,
    State.decodeNext_issues (decodeParcels_of_decode dec) ((same.awaits i).trans free), same.issue alone]

theorem State.runCore_decoded {p q : Parcel} {i : Instr} {n : Nat} (fetch : t.fetchParcels = .ok (u, p, q))
    (dec : decode (parcelBytes p q) = .ok (i, n)) (free : t.me.awaits i = none) : t.runCore = exec i (u.endRun7 t.me) :=
  State.runCore_alone (State.nextInstr_decoded ready alone fetch dec free)
    ((State.fetchParcels_codeOnly fetch).endRun7_alone alone _)

/-- A reserved encoding traps (R170). -/
theorem State.runCore_refused {p q : Parcel} (fetch : t.fetchParcels = .ok (u, p, q)) (bad : ∀ x, decode (parcelBytes p q) ≠ .ok x) :
    t.runCore = exec (.illegalInstruction (parcelBits p q)) (u.endRun7 t.me) := by
  obtain ⟨e, dec⟩ := decodeParcels_refused bad
  have same := State.fetchParcels_codeOnly fetch
  refine State.runCore_alone ?_ (same.endRun7_alone alone _)
  rw [State.nextInstr_fetched ready (Core.forwarded_alone alone) fetch, State.decodeNext_refused dec, same.issue alone]

end

/-- An instruction with a register that waits stops as its operation would (R222, R252). -/
theorem State.runCore_waits {p q : Parcel} {i : Instr} {n : Nat} {e : Stop} (ready : t.Ready) (single : t.me.forwarded = none)
    (fetch : t.fetchParcels = .ok (t, p, q)) (dec : decode (parcelBytes p q) = .ok (i, n)) (waits : t.me.awaits i = some e) :
    t.runCore = .next (t.stop e) := by
  apply State.runCore_none
  rw [State.nextInstr_fetched ready single fetch, State.decodeNext_waits (decodeParcels_of_decode dec) waits]

/-- A frame that is stalled in an access to a queue register executes that again (R60). -/
theorem State.runCore_queue (able : t.Able) (op : t.me.here.queueOp ≠ none) : t.runCore = .next t.queueRun := by
  apply State.runCore_none
  rw [State.nextInstr_able able, State.frameNext, if_pos (Option.isSome_iff_ne_none.2 op)]

/-- A core that is off or stopped, and one with no frame and no trap held, does nothing (R15). -/
theorem State.runCore_rests (rests : t.powered t.cur = false ∨ t.me.stopped = true ∨ t.me.level = 0xF ∧ t.me.Untrapped) :
    t.runCore = .next t := by
  apply State.runCore_none
  rcases rests with off | down | ⟨idle, none_⟩
  · exact State.nextInstr_off off
  · exact State.nextInstr_stopped down
  · exact State.nextInstr_idle idle none_

/-- A fetch from a page that is not present and has to be brought in first stops as a park does (R390). -/
theorem State.runCore_parks {why : BitVec 4} {a : Word} (ready : t.Ready) (single : t.me.forwarded = none)
    (fetch : t.fetchParcels = .error (u, .park why a)) : t.runCore = .next (u.stop (.park why a)) :=
  State.runCore_none (State.nextInstr_parks ready single fetch)

/-! ### A member of a swarm (R210, R212) -/

/-- What a core in turn issues, with its own parcels or its leader's, it runs, and forwards or follows. -/
theorem State.runCore_issues {i : Instr} (next : t.nextInstr = (t.issue, some i)) (runs : exec i t.issue = .next u) :
    t.runCore = .next (t.issue.gangStep u t.cur i) := by
  rw [State.runCore_some next runs, State.cur_issue]

/-- A member that fetches for itself forwards what it runs (R210). -/
theorem State.runCore_forwards {p q : Parcel} {i : Instr} {n : Nat} (ready : t.Ready) (single : t.me.forwarded = none)
    (fetch : t.fetchParcels = .ok (t, p, q)) (dec : decode (parcelBytes p q) = .ok (i, n)) (free : t.me.awaits i = none)
    (runs : exec i t.issue = .next u) : t.runCore = .next (t.issue.gangStep u t.cur i) := by
  refine State.runCore_issues ?_ runs
  rw [State.nextInstr_fetched ready single fetch, State.decodeNext_issues (decodeParcels_of_decode dec) free]

/-- A follower whose pc is another than that of what its leader forwarded detaches (R212). -/
theorem State.runCore_strays {f : Forwarded} {l : List Forwarded} (ready : t.Ready) (fwd : t.me.forwarded = some (f :: l))
    (strays : f.at_ ≠ t.me.pc) : t.runCore = .next (t.detach t.cur) := by
  apply State.runCore_none
  rw [State.nextInstr_forwarded ready fwd, if_neg strays]

section
variable {f : Forwarded} {l : List Forwarded} {i : Instr} {n : Nat} (ready : t.Ready) (fwd : t.me.forwarded = some (f :: l))
  (at_pc : f.at_ = t.me.pc) (dec : decode (parcelBytes f.p f.q) = .ok (i, n))
include ready fwd at_pc dec

/-- A follower decodes what its leader has forwarded (R171, R210). -/
theorem State.runCore_follows (free : t.me.awaits i = none) (runs : exec i t.issue = .next u) :
    t.runCore = .next (t.issue.gangStep u t.cur i) := by
  refine State.runCore_issues ?_ runs
  rw [State.nextInstr_forwarded ready fwd, if_pos at_pc, State.decodeNext_issues (decodeParcels_of_decode dec) free]

theorem State.runCore_follower_waits {e : Stop} (waits : t.me.awaits i = some e) : t.runCore = .next (t.stop e) := by
  apply State.runCore_none
  rw [State.nextInstr_forwarded ready fwd, if_pos at_pc, State.decodeNext_waits (decodeParcels_of_decode dec) waits]

end

end

/-! ### The schedule (log entry 2) -/

/-- The state in which core m, named by the schedule of which r is left, is in turn. -/
def State.turned (s : State) (m : CoreId) (r : List Turn) (late : Bool) (at_ : Option Nat) : State :=
  { s with cur := m, turns := r, slow := late, breakAt := at_, free := s.free + 1 }

theorem step_chosen {s : State} {m : CoreId} {r : List Turn} {late : Bool} {at_ : Option Nat}
    (chosen : (s.turns = [] ∧ m = s.cur ∧ r = [] ∧ late = false ∧ at_ = none) ∨
      (s.turns = .core m :: r ∧ late = false ∧ at_ = none) ∨ (s.turns = .coreSlow m :: r ∧ late = true ∧ at_ = none) ∨
      (∃ c, s.turns = .coreBreak m c :: r ∧ late = false ∧ at_ = some c)) : step s = (s.turned m r late at_).runCore := by
  rcases chosen with ⟨turns, rfl, rfl, rfl, rfl⟩ | ⟨turns, rfl, rfl⟩ | ⟨turns, rfl, rfl⟩ | ⟨c, turns, rfl, rfl⟩
  · have same : s.turned s.cur [] false none = { s with slow := false, breakAt := none, free := s.free + 1 } := by rw [← turns]; rfl
    rw [same, step, turns]
  all_goals
    rw [step, turns]
    rfl

/-- A turn in which the core accepts an arrival in the same cycle (R56). -/
theorem step_accepting {s : State} {m : CoreId} {r : List Turn} {late : Bool} {at_ : Option Nat} (turns : s.turns = .coreAccept m :: r)
    (late_ : late = false) (whole : at_ = none) : step s = (s.turned m r late at_).runAccepting := by
  subst late_ whole
  rw [step, turns]
  rfl

/-- The arrival of the cycle comes after the retirement of a core without membership (R56). -/
theorem State.runAccepting_decoded {t u : State} {p q : Parcel} {i : Instr} {n : Nat} (ready : t.Ready) (alone : t.me.membership = none)
    (fetch : t.fetchParcels = .ok (t, p, q)) (dec : decode (parcelBytes p q) = .ok (i, n)) (free : t.me.awaits i = none)
    (plain : i.selects = false) (runs : exec i (t.endRun7 t.me) = .next u) : t.runAccepting = .next (u.acceptOne t.cur) := by
  obtain ⟨_, _, cur⟩ := State.endRun7_me t.me t
  rw [State.runAccepting_alone (State.nextInstr_decoded ready alone fetch dec free)
    ((CodeOnly.refl t).endRun7_alone alone _) plain runs, cur]

/-- Settles O49: the outcomes of a turn, each by the lemma on what the core fetches or follows then, and the events of a schedule. -/
theorem stepRunsDecoded : Obligations.StepRunsDecoded := by
  refine ⟨fun s m r late at_ p q i n e u v pa bs kind f l => ?_, fun s i r turns => ⟨fun event => ?_, fun other => ?_⟩⟩
  · intro k a t go wide bytes word mayRun away first fetched chosen untrapped able ready
    have live : able → t.Able := id
    have goes : ready → t.Ready := id
    have apart : away → t.FetchesAway := id
    have held : fetched →
        ∃ r, t.fetchParcels = .ok (t, p, r) ∧ decode (parcelBytes p r) = decode bytes ∧ parcelBits p r = parcelBits p q :=
      fun h => State.fetchParcels_held (t := t) h.1 h.2
    refine ⟨fun turns l b rdy alone ft dec free plain runs => ?_, fun ch => ?_⟩
    · obtain ⟨r', fetch, same, _⟩ := held ft
      rw [show step s = t.runAccepting from step_accepting turns l b]
      exact State.runAccepting_decoded (goes rdy) alone fetch (same.trans dec) free plain runs
    rw [show step s = t.runCore from step_chosen ch]
    refine ⟨State.runCore_rests (t := t), fun ab => State.runCore_queue (live ab), fun rdy alone => ?alone,
      fun rdy single ft dec free runs => ?_, fun rdy fwd => State.runCore_none (State.nextInstr_unforwarded (goes rdy) fwd),
      fun rdy fwd strays => State.runCore_strays (goes rdy) fwd strays,
      fun rdy fwd at_pc hp hq dec => ⟨fun free runs => ?_, fun waits => ?_⟩⟩
    case alone =>
      refine ⟨fun odd => ?_, fun even no => ?_, fun aw mgmt => ?_, fun aw space walk ne => ?_, fun aw space walk => ?_,
        fun aw space walk poison => ?_, fun aw space walk whole read parcel compact dec free => ?_,
        fun fetch dec free => State.runCore_decoded (goes rdy) alone fetch dec free, fun fi w small no => ?_, fun ft bad => ?_,
        fun ft dec free => ?_, fun ft dec waits => ?_⟩
      · exact State.runCore_fault (goes rdy) alone (State.fetchParcels_odd_pc odd) (CodeOnly.refl t)
      · exact State.runCore_fault (goes rdy) alone (State.fetchParcels_barred (t := t) even no) (CodeOnly.refl t)
      · exact State.runCore_fault (goes rdy) alone (State.fetchParcels_mgmt (apart aw) mgmt) (CodeOnly.refl t)
      · have fetch := State.fetchParcels_absent (apart aw) space walk
        rw [if_neg ne] at fetch
        exact State.runCore_fault (goes rdy) alone fetch (State.homesOnly_of_translate walk).codeOnly
      · exact State.runCore_parks (goes rdy) (Core.forwarded_alone alone) (State.fetchParcels_absent (apart aw) space walk)
      · exact State.runCore_fault (goes rdy) alone (State.fetchParcels_poisoned (apart aw) space walk poison)
          (State.homesOnly_of_translate walk).codeOnly
      · have same : decode (parcelBytes p 0) = decode (parcelBytes p q) := by
          rw [decode_parcelBytes, decode_parcelBytes, decodeParcels_compact compact 0 q]
        exact ⟨_, State.runCore_decoded (goes rdy) alone (State.fetchParcels_read (apart aw) space walk whole read parcel compact)
          (same.trans dec) free⟩
      · obtain ⟨even, may, own⟩ := fi
        exact State.runCore_fault (goes rdy) alone (State.fetchParcels_second_barred (t := t) even may own w small no) (CodeOnly.refl t)
      · obtain ⟨r', fetch, same, shown⟩ := held ft
        have refused := State.runCore_refused (goes rdy) alone fetch (by rw [same]; exact bad)
        rw [refused, shown]
        refine ⟨fun w => ?_, fun w => ?_⟩
        · rw [parcelBits_wide w]
          rfl
        · rw [parcelBits_compact w]
          rfl
      · obtain ⟨r', fetch, same, _⟩ := held ft
        exact State.runCore_decoded (goes rdy) alone fetch (same.trans dec) free
      · obtain ⟨r', fetch, same, _⟩ := held ft
        exact State.runCore_waits (goes rdy) (Core.forwarded_alone alone) fetch (same.trans dec) waits
    · obtain ⟨r', fetch, same, _⟩ := held ft
      exact State.runCore_forwards (goes rdy) single fetch (same.trans dec) free runs
    · have dec' : decode (parcelBytes f.p f.q) = .ok (i, n) := by rw [hp, hq]; exact dec
      exact State.runCore_follows (goes rdy) fwd at_pc dec' free runs
    · have dec' : decode (parcelBytes f.p f.q) = .ok (i, n) := by rw [hp, hq]; exact dec
      exact State.runCore_follower_waits (goes rdy) fwd at_pc dec' waits
  · rw [step, turns]
    exact if_pos event
  · rw [step, turns]
    exact if_neg (by rw [other]; exact Bool.false_ne_true)

end Sys2Proof.Machine
end

section
/-! ## Memory in canonical form (R83, R89): the rules

Every operation of the model keeps it: one lemma for each operation that can change a byte or that calls one that can, named after the
operation with `_wf`, in the order of the model. -/

namespace Sys2Proof.Machine

/-- The module's memory lists its bytes in canonical form (R83). -/
abbrev Formed (s : State) : Prop := s.mem.wf = true

/-- What an operation answers has property p, and a state with which it stops has its memory in canonical form. -/
inductive Ends {α ε : Type} (p : α → Prop) : Except (State × ε) α → Prop
  | ok {a : α} (h : p a) : Ends p (.ok a)
  | stop {t : State} {x : ε} (h : Formed t) : Ends p (.error (t, x))

section
variable {α β ε : Type} {s t : State} {p : α → Prop} {q : β → Prop}

theorem Ends.answer {r : Except (State × ε) α} {a : α} (h : Ends p r) (e : r = .ok a) : p a := by
  subst e
  obtain h | _ := h
  exact h

theorem Ends.answer_fst {r : Except (State × ε) (State × β)} {b : β} (h : Ends (Formed ·.1) r) (e : r = .ok (t, b)) : Formed t :=
  h.answer e

theorem Ends.stopped {r : Except (State × ε) α} {x : ε} (h : Ends p r) (e : r = .error (t, x)) : Formed t := by
  subst e
  obtain _ | h := h
  exact h

/-- A sequence of operations keeps the form where each part does. -/
theorem Ends.bind {x : Except (State × ε) α} {f : α → Except (State × ε) β} (hx : Ends p x)
    (hf : ∀ a, p a → Ends q (f a)) : Ends q (x >>= f) := by
  cases hx with
  | ok h => exact hf _ h
  | stop h => exact .stop h

theorem ends_demand {c : Bool} {e : Stop} (h : Formed s) : Ends (fun _ => True) (demand c s e) := by
  cases c with
  | true => exact .ok trivial
  | false => exact .stop h

theorem Ends.demand {c : Bool} {e : Stop} {f : Unit → Res β} (h : Formed s) (hf : Ends q (f ())) :
    Ends q (demand c s e >>= f) :=
  (ends_demand h).bind fun _ _ => hf

theorem Ends.lift {r : Res α} (h : Ends p r) : Ends p (liftEng r) := by
  cases h with
  | ok h => exact .ok h
  | stop h => exact .stop h

/-- The state of a pair, where the pair is named. -/
theorem formed_fst {x : State × β} {b : β} (h : Formed x.1) (e : x = (t, b)) : Formed t := by
  subst e; exact h

/-- The state that an operation answers, or else s. -/
theorem formed_getD {x : Option State} (h : Formed s) (hx : ∀ t, x = some t → Formed t) : Formed (x.getD s) := by
  cases x with
  | some t => exact hx t rfl
  | none => exact h

theorem formed_updCluster {cl : BitVec 14} {f : Cluster → Cluster} (h : Formed s) : Formed (s.updCluster cl f) := h
theorem formed_post {x : Transit} (h : Formed s) : Formed (s.post x) := h
theorem formed_updBlock {blk : BitVec 10} {f : Block → Block} (h : Formed s) : Formed (s.updBlock blk f) := h
theorem formed_updLaunch {id : Nat} {f : Launch → Launch} (h : Formed s) : Formed (s.updLaunch id f) := h
theorem formed_updSlot {x : BitVec 6} {k : BitVec 6} {f : Slot → Slot} (h : Formed s) : Formed (s.updSlot x k f) := h
theorem formed_updWindow {ld : BitVec 4} {w : BitVec 6} {f : Window → Window} (h : Formed s) : Formed (s.updWindow ld w f) := h
theorem formed_popRem {n : CoreId} {id : Nat} (h : Formed s) : Formed (s.popRem n id) := h
theorem formed_postOwn {type : Byte} {prio : BitVec 3} {src dst : CoreId} {l : List Word} {flags : Word} (h : Formed s) :
    Formed (s.postOwn type prio src dst l flags) := h
theorem formed_updMe {f : Core → Core} (h : Formed s) : Formed (s.updMe f) := h
theorem formed_updCore {n : CoreId} {f : Core → Core} (h : Formed s) : Formed (s.updCore n f) := h

end

/-- A page that is touched by a core changes no byte of memory (R77). -/
theorem formed_touched {u : State} {cl : BitVec 14} {i k : Nat} {f : Frame → Frame} (h : Formed u) :
    Formed { u.updFrame cl i f with nextId := k } := h

theorem formed_records {s : State} {l : List Record} (h : Formed s) : Formed { s with records := l } := h

theorem formed_advance {s : State} {len : Nat} (h : Formed s) : Formed (s.advance len) := h

theorem formed_numbered {s : State} {k : Nat} (h : Formed s) : Formed { s with nextId := k } := h

theorem formed_spoiled {s : State} {k : Cells Nat} {c : Cells Cluster} (h : Formed s) :
    Formed { s with bkey := k, clusters := c } := h

theorem formed_updSector {s : State} {x : BitVec 6} {f : Sector → Sector} (h : Formed s) : Formed (s.updSector x f) := h

theorem formed_allocs {s : State} {l : List Alloc} (h : Formed s) : Formed { s with allocs := l } := h

theorem formed_regions {s : State} {l : List (Region × RegInfo)} (h : Formed s) : Formed { s with regions := l } := h

theorem formed_handback {s : State} {i : Issuer} {port : BitVec 4} {cause : BitVec 5} {x : Succ} {addr prog : Word} (h : Formed s) :
    Formed (s.handback i port cause x addr prog) := h

theorem formed_tellShape {s : State} {l : Launch} {n : BitVec 32} (h : Formed s) : Formed (s.tellShape l n) := h

theorem formed_saved {s : State} {l : List Saved} (h : Formed s) : Formed { s with saved := l } := h

theorem formed_dropTcmMoorings {s : State} {n : CoreId} (h : Formed s) : Formed (s.dropTcmMoorings n) := h

theorem formed_gangHeld {s : State} {l : List (Nat × Nat)} (h : Formed s) : Formed { s with gangHeld := l } := h

theorem formed_takeNi {s : State} {n : CoreId} {i : Nat} (h : Formed s) : Formed (s.takeNi n i) := h

theorem formed_weir {s : State} {l : List WeirEntry} (h : Formed s) : Formed { s with weir := l } := h

theorem formed_msix {s : State} {l : List (BitVec 4 × BitVec 11)} (h : Formed s) : Formed { s with msix := l } := h

theorem formed_updRun {s : State} {die : BitVec 4} {f : EncRun → EncRun} (h : Formed s) : Formed (s.updRun die f) := h

theorem formed_encKey {s : State} {l : List (BitVec 56)} (h : Formed s) : Formed { s with encKey := l } := h

theorem formed_encRan {s : State} {k : Nat} {l : List (BitVec 56)} (h : Formed s) : Formed { s with free := k, encKey := l } := h

theorem formed_pginvs {s : State} {l : List Pginv} (h : Formed s) : Formed { s with pginvs := l } := h

theorem formed_moveByte {s : State} {a b : Nat} (h : Formed s) :
    Formed { s with mem := (s.mem.set b (s.mem.get a)).set a 0 } := by
  change Memory.wf ((s.mem.set b (s.mem.get a)).set a 0) = true
  exact Memory.wf_set _ _ _ (Memory.wf_set _ _ _ h)

theorem formed_bkey {s : State} {l : Cells Nat} (h : Formed s) : Formed { s with bkey := l } := h

theorem formed_bits {s : State} {l r : Cells Bool} (h : Formed s) : Formed { s with fe := l, poison := r } := h

theorem formed_migrations {s : State} {l : List Migration} (h : Formed s) : Formed { s with migrations := l } := h

theorem formed_poison {s : State} {l : Cells Bool} (h : Formed s) : Formed { s with poison := l } := h

theorem formed_updPort {s : State} {p : BitVec 5} {f : Port → Port} (h : Formed s) : Formed (s.updPort p f) := h

theorem formed_services {s : State} {l : List (BitVec 6 × CoreId)} (h : Formed s) : Formed { s with services := l } := h

theorem formed_saveProgress {s : State} {kind : Bool} {next best bdist : Nat} (h : Formed s) :
    Formed (s.saveProgress kind next best bdist) := h

theorem formed_wsNext {s : State} {d : SReg} {x : Word} (h : Formed s) : Formed ((s.ws d x).advance 4) := h

theorem formed_restored {s : State} {a : List Mooring} {b : List Saved} {c : List Launch} (h : Formed s) :
    Formed { s with moorings := a, saved := b, launches := c } := h

theorem formed_payAllowance {s : State} {n lid : CoreId} (h : Formed s) : Formed (s.payAllowance n lid) := h

theorem formed_loadStatus {s : State} {n lid : CoreId} {x : Word} (h : Formed s) : Formed (s.loadStatus n lid x) := h

end Sys2Proof.Machine
end

section
/-! ## Memory in canonical form: the homes of memory (Machine/Memory) -/

namespace Sys2Proof.Machine

theorem State.translate_wf {s : State} {die : BitVec 4} {va : BitVec 56} {buf : optParam (List StoreEntry) []}
    (h : Formed s) : Formed (s.translate die va buf).1 := by
  rw [Formed, State.translate_mem]
  exact h

theorem State.partTouch_wf {die : BitVec 4} (i : Nat) :
    ∀ {s : State} {k : Nat}, Formed s → Formed (s.partTouch die k i) := by
  induction i with
  | zero =>
    intro s k h
    unfold State.partTouch
    exact h
  | succ i ih =>
    intro s k h
    unfold State.partTouch
    split
    · rename_i t u v e
      refine ih ?_
      split
      · exact State.dieRead_wf _ _ _ _ _ _ (formed_fst (State.translate_wf h) e)
      · exact formed_fst (State.translate_wf h) e
    · rename_i t u v w e
      exact formed_fst (State.translate_wf h) e

theorem State.unpin_wf {s : State} {n : CoreId} (h : Formed s) : Formed (s.unpin n) := by
  rw [Formed, State.unpin_mem]
  exact h

end Sys2Proof.Machine
end

section
/-! ## Memory in canonical form: the results of an operation (Machine/Ops) -/

namespace Sys2Proof.Machine

theorem State.ackTo_wf {s : State} {t : Transit} (h : Formed s) : Formed (s.ackTo t) := by
  unfold State.ackTo
  split <;> exact h

theorem State.releaseFar_wf {s : State} {by_ : Issuer} {x : Succ} {payload : List Word} {far : Bool} {back : Owed}
    (h : Formed s) : Formed (s.releaseFar by_ x payload far back) := by
  unfold State.releaseFar
  dsimp only
  split
  · exact h
  · split
    · split
      · exact State.releaseDie_wf _ _ h
      · exact h
    · split
      · exact State.releaseDie_wf _ _ h
      · exact h

theorem State.release_wf {s : State} {by_ : Issuer} {cmd : BitVec 4} {x : Succ} {payload : List Word} (h : Formed s) :
    Formed (s.release by_ cmd x payload) := by
  unfold State.release
  exact State.releaseFar_wf h

theorem State.weirFell_wf {s : State} {region : Option Region} (h : Formed s) : Formed (s.weirFell region) := by
  unfold State.weirFell
  split
  · split <;> exact h
  · exact h

theorem State.dropWeir_wf {s : State} {p : WeirEntry → Bool} (h : Formed s) : Formed (s.dropWeir p) := by
  unfold State.dropWeir
  exact foldl_keeps Formed _ (fun _ _ hu => State.weirFell_wf hu) _ _ h

theorem State.detachFollowers_wf {s : State} {n : CoreId} (h : Formed s) : Formed (s.detachFollowers n) := by
  unfold State.detachFollowers
  dsimp only
  split
  · rename_i t u e
    split
    · refine foldl_keeps Formed _ (fun u x hu => ?_) _ _ h
      split
      · split <;> exact hu
      · exact hu
    · exact h
  · exact h

theorem State.detach_wf {s : State} {n : CoreId} (h : Formed s) : Formed (s.detach n) := by
  unfold State.detach
  split
  · split <;> exact State.detachFollowers_wf h
  · exact h

theorem State.enterTrap_wf {s : State} {n : CoreId} {c : BitVec 5} {a : Word} {epc : BitVec 56} {async : Bool}
    (h : Formed s) : Formed (s.enterTrap n c a epc async) := by
  unfold State.enterTrap
  exact State.unpin_wf (State.detach_wf h)

theorem State.alert_wf {s : State} {n : CoreId} {a : Word} (h : Formed s) : Formed (s.alert n a) := by
  unfold State.alert
  extract_lets k
  split
  · exact h
  · exact State.enterTrap_wf h

theorem State.stopCore_wf {s : State} {n : CoreId} (h : Formed s) : Formed (s.stopCore n) := by
  unfold State.stopCore
  exact State.alert_wf h

theorem State.nestedTrapAt_wf {s : State} {n : CoreId} {c : BitVec 5} {epc : BitVec 56} (h : Formed s) :
    Formed (s.nestedTrapAt n c epc) := by
  unfold State.nestedTrapAt
  exact State.stopCore_wf (State.detach_wf h)

theorem State.nestedTrap_wf {s : State} {n : CoreId} {c : BitVec 5} (h : Formed s) : Formed (s.nestedTrap n c) := by
  unfold State.nestedTrap
  exact State.nestedTrapAt_wf h

theorem State.takeTrap_wf {s : State} {n : CoreId} {c : BitVec 5} {a : Word} {epc : BitVec 56} {async : Bool}
    (h : Formed s) : Formed (s.takeTrap n c a epc async) := by
  unfold State.takeTrap
  split
  · exact State.nestedTrap_wf h
  · exact State.enterTrap_wf h

theorem State.asyncTrap_wf {s : State} {n : CoreId} {level : BitVec 4} {c : BitVec 5} {a : Word} (h : Formed s) :
    Formed (s.asyncTrap n level c a) := by
  unfold State.asyncTrap
  extract_lets k
  split
  · exact State.enterTrap_wf h
  · exact h

theorem State.boundary_wf {s : State} {n : CoreId} (h : Formed s) : Formed (s.boundary n) := by
  unfold State.boundary
  extract_lets k
  split
  · exact h
  · split
    · split
      · exact State.nestedTrapAt_wf h
      · exact h
    · split
      · exact State.enterTrap_wf h
      · split
        · exact State.enterTrap_wf h
        · exact h

theorem State.takeHeld_wf {s : State} {n : CoreId} {p : BitVec 3} {i : Nat} (h : Formed s) :
    Formed (s.takeHeld n p i) := by
  unfold State.takeHeld
  extract_lets l
  split
  · exact h
  · split
    · exact State.weirFell_wf h
    · exact h

theorem State.machineCheck_wf {s : State} {die : BitVec 4} {code : Byte} {dom : BitVec 16} {addr : Word}
    {region : Option Region} (h : Formed s) : Formed (s.machineCheck die code dom addr region) := by
  unfold State.machineCheck
  extract_lets d next svc
  split
  · exact h
  · split
    · rename_i _ t u e
      exact State.alert_wf ((State.partStores_wf _ _ _ _ h e : Formed u))
    · exact h

end Sys2Proof.Machine
end

section
/-! ## Memory in canonical form: the checks of an access (Machine/Access) -/

namespace Sys2Proof.Machine

theorem State.quotaTrap_wf {s : State} {region : Option Region} {q : WeirQueue} {owner : CoreId} (h : Formed s) :
    Formed (s.quotaTrap region q owner) := by
  unfold State.quotaTrap
  split
  · split
    · exact State.asyncTrap_wf h
    · exact h
  · exact h

theorem State.weirAdd_wf {s : State} {q : WeirQueue} {region : Option Region} {item : WeirItem} {owner : CoreId}
    (h : Formed s) : ∀ t, s.weirAdd q region item owner = some t → Formed t := by
  unfold State.weirAdd
  split
  · rintro _ ⟨⟩
  · dsimp only
    rintro _ ⟨⟩
    exact State.quotaTrap_wf h

theorem State.syncReply_wf {s : State} {m : Mooring} {data : Word} {status : BitVec 2} (h : Formed s) :
    Formed (s.syncReply m data status) := by
  rw [Formed, State.syncReply_mem]
  exact h

theorem State.moor_wf {s : State} {m : Mooring} {issuer : CoreId} (h : Formed s) :
    ∀ t, s.moor m issuer = some t → Formed t := by
  unfold State.moor
  split
  · exact State.weirAdd_wf h
  · rintro _ ⟨⟩
    exact h

theorem State.syncServe_wf {s : State} {m : Mooring} (h : Formed s) : Formed (s.syncServe m) := by
  unfold State.syncServe
  extract_lets p t
  split
  · exact State.syncApply_wf _ _ _ h
  · exact State.onChange_wf _ _ _ (State.syncApply_wf _ _ _ h)

theorem State.syncArrive_wf {s : State} {m : Mooring} {issuer : CoreId} (h : Formed s) :
    ∀ t, s.syncArrive m issuer = some t → Formed t := by
  unfold State.syncArrive
  dsimp only
  split
  · exact State.moor_wf h
  · split
    · rintro _ ⟨⟩
      exact State.syncServe_wf h
    · exact State.moor_wf h

theorem State.xlate_wf {s : State} {n : CoreId} {dom : BitVec 16} {region : Option Region} {ea : Nat} {sync : Bool}
    (h : Formed s) : Ends (Formed ·.1) (s.xlate n dom region ea sync) := by
  unfold State.xlate
  split
  · rename_i t u v e
    split
    · exact .stop (formed_fst (State.translate_wf h) e)
    · exact .ok ((formed_fst (State.translate_wf h) e : Formed u))
  · rename_i t u v w e
    refine .stop ?_
    split
    · exact State.machineCheck_wf (formed_fst (State.translate_wf h) e)
    · exact formed_fst (State.translate_wf h) e

theorem State.checkGlobal_wf {s : State} {n : CoreId} {dom : BitVec 16} {top : Bool} {region : Option Region}
    {ea : Nat} {rd wr sync : Bool} (h : Formed s) :
    Ends (Formed ·.1) (s.checkGlobal n dom top region ea rd wr sync) := by
  unfold State.checkGlobal
  extract_lets e
  refine .demand h ?_
  refine .demand h ?_
  split
  · refine .demand h ?_
    refine .bind (State.xlate_wf h) ?_
    rintro ⟨t, x⟩ ht
    dsimp only
    exact .ok ht

theorem State.checkScratch_wf {s : State} {n : CoreId} {dom : BitVec 16} {top : Bool} {region : Option Region}
    {ea : Nat} {wr sync now : Bool} (h : Formed s) :
    Ends (Formed ·.1) (s.checkScratch n dom top region ea wr sync now) := by
  unfold State.checkScratch
  extract_lets e ent backing b cl k
  refine .demand h (.demand h ?_)
  split
  · exact .ok h
  · refine .demand h (.demand h (.bind (State.xlate_wf h) ?_))
    rintro ⟨t, pa⟩ ht
    change Ends _ (ite _ _ _)
    split
    · refine .demand ht ?_
      exact .ok ht
    · extract_lets page filled want asked
      have hf : Formed filled := State.fillPage_wf _ _ _ _ _ ht
      split
      · split
        · exact .ok (formed_touched hf)
        · exact .ok hf
      · refine .stop ?_
        unfold asked
        split <;> exact ht

theorem State.check_wf {s : State} {sp : Space} {ea : Word} {n : Nat} {rd wr sync : Bool} (h : Formed s) :
    Ends (Formed ·.1) (s.check sp ea n rd wr sync) := by
  unfold State.check
  extract_lets c
  refine .demand h ?_
  refine .demand h ?_
  split
  · exact .demand h (.demand h (.ok h))
  · exact State.checkScratch_wf h
  · exact State.checkGlobal_wf h

theorem State.checkEa_wf {s : State} {sp : Space} {ea : Word} {n : Nat} {rd wr : Bool} (h : Formed s) :
    Ends (fun _ => True) (s.checkEa sp ea n rd wr) := by
  unfold State.checkEa
  extract_lets c
  refine .demand h ?_
  refine .demand h ?_
  split
  · exact ends_demand h
  · exact ends_demand h
  · split
    exact ends_demand h

theorem State.checkFirm_wf {s : State} {why : BitVec 4} {sp : Space} {ea : Word} {n : Nat} {rd wr sync : Bool}
    (h : Formed s) : Ends (Formed ·.1) (s.checkFirm why sp ea n rd wr sync) := by
  unfold State.checkFirm
  split
  · refine .bind (State.checkEa_wf h) ?_
    intro t ht
    exact .stop h
  · exact State.check_wf h

theorem State.flightArrive_wf {s : State} {n : CoreId} (h : Formed s) :
    ∀ t, s.flightArrive n = some t → Formed t := by
  unfold State.flightArrive
  split
  · rintro _ ⟨⟩
  · dsimp only
    intro _ eq
    obtain ⟨w, ew, rfl⟩ := Option.map_eq_some_iff.mp eq
    exact (State.syncArrive_wf (State.settle_wf _ _ _ h) _ ew : Formed w)

theorem State.flightsFrom_wf {n : CoreId} (k : Nat) : ∀ {s : State}, Formed s → Formed (s.flightsFrom n k) := by
  induction k with
  | zero =>
    intro s h
    unfold State.flightsFrom
    exact h
  | succ k ih =>
    intro s h
    unfold State.flightsFrom
    split
    · rename_i t u e
      exact ih (State.flightArrive_wf h _ e)
    · exact h

theorem State.settleFlights_wf {s : State} {n : CoreId} (h : Formed s) : Ends Formed (s.settleFlights n) := by
  unfold State.settleFlights
  extract_lets
  split
  · exact .stop h
  · split
    · exact .ok h
    · split
      · exact .stop h
      · split
        · exact .ok (State.flightsFrom_wf _ h)
        · exact .stop (State.flightsFrom_wf _ h)

theorem State.rawRead_wf {s : State} {n : CoreId} {dom : BitVec 16} {a : Acc} {k : Nat} (h : Formed s) :
    Formed (s.rawRead n dom a k).1 := by
  unfold State.rawRead
  split
  · exact h
  · split <;> exact h
  · exact State.dieRead_wf _ _ _ _ _ _ h

theorem State.joinPlain_wf {s : State} {n : CoreId} {dom : BitVec 16} {l : Loc} {o : Owner} {place : Nat × List Byte}
    {tag : Option Nat} {region : Option Region} (h : Formed s) :
    ∀ t, s.joinPlain n dom l o place tag region = some t → Formed t := by
  unfold State.joinPlain
  exact State.moor_wf h

theorem State.plainWait_wf {s : State} {n : CoreId} {dom : BitVec 16} {l : Loc} {region : Option Region}
    (h : Formed s) : ∀ t, s.plainWait n dom l region = some t → Formed t := by
  unfold State.plainWait
  split
  · rintro _ ⟨⟩
    exact h
  · intro _ eq
    obtain ⟨w, ew, rfl⟩ := Option.map_eq_some_iff.mp eq
    exact formed_getD h (State.joinPlain_wf h)

theorem State.loadWord_wf {s : State} {sp : Space} {a : Acc} {k : Nat} (h : Formed s) :
    Ends (Formed ·.1) (s.loadWord sp a k) := by
  unfold State.loadWord
  dsimp only
  refine .bind (State.settleFlights_wf h) ?_
  intro t ht
  split
  · rename_i u v e
    exact .stop (State.plainWait_wf ht _ e)
  · exact .demand ht (.ok (State.rawRead_wf ht))

theorem State.load_wf {s : State} {sp : Space} {ea : Word} {k : Nat} (h : Formed s) :
    Ends (Formed ·.1) (s.load sp ea k) := by
  unfold State.load
  refine .bind (State.check_wf h) ?_
  rintro ⟨t, x⟩ ht
  dsimp only
  refine .bind (State.loadWord_wf ht) ?_
  rintro ⟨u, x⟩ hu
  exact .ok hu

theorem State.rawWrite_wf {s : State} {n : CoreId} {dom : BitVec 16} {p : Acc} {bs : List Byte} (h : Formed s) :
    Formed (s.rawWrite n dom p bs) := by
  unfold State.rawWrite
  split
  · exact h
  · split <;> exact h
  · exact State.dieWrite_wf _ _ _ _ _ _ h

theorem State.performStore_wf {s : State} {n : CoreId} {e : StoreEntry} (h : Formed s) :
    ∀ t, s.performStore n e = some t → Formed t.1 := by
  unfold State.performStore
  dsimp only
  split
  · intro _ eq
    obtain ⟨w, ew, rfl⟩ := Option.map_eq_some_iff.mp eq
    exact (State.syncArrive_wf (State.settle_wf _ _ _ (State.releaseAt_wf _ _ _ h)) _ ew : Formed w)
  · split
    · rintro _ ⟨⟩
    · split
      · intro _ eq
        obtain ⟨w, ew, rfl⟩ := Option.map_eq_some_iff.mp eq
        exact (State.joinPlain_wf h _ ew : Formed w)
      · rintro _ ⟨⟩
        exact State.rawWrite_wf h

theorem State.drainOne_wf {s : State} {n : CoreId} (h : Formed s) : ∀ t, s.drainOne n = some t → Formed t := by
  unfold State.drainOne
  dsimp only
  split
  · rintro _ ⟨⟩
  · rintro _ ⟨⟩
  · rename_i t u v w e e1
    split
    · rintro _ ⟨⟩
    · intro _ eq
      obtain ⟨w, ew, rfl⟩ := Option.map_eq_some_iff.mp eq
      exact (State.performStore_wf (State.flightsFrom_wf _ h) _ ew : Formed w.1)

theorem State.drainFrom_wf {n : CoreId} (k : Nat) : ∀ {s : State}, Formed s → Formed (s.drainFrom n k) := by
  induction k with
  | zero =>
    intro s h
    unfold State.drainFrom
    exact h
  | succ k ih =>
    intro s h
    unfold State.drainFrom
    split
    · rename_i t u e
      exact ih (State.drainOne_wf h _ e)
    · exact h

theorem State.drain_wf {s : State} {n : CoreId} (h : Formed s) : Ends Formed (s.drain n) := by
  unfold State.drain
  dsimp only
  refine .bind (State.settleFlights_wf h) ?_
  intro t ht
  split
  · exact .ok (State.drainFrom_wf _ ht)
  · exact .stop (State.drainFrom_wf _ ht)

theorem State.append_wf {s : State} {e : StoreEntry} (h : Formed s) : Ends Formed (s.append e) := by
  have room : ∀ u, (if decide (s.me.sbuf.length ≥ 16) then (if s.slow then none else s.drainOne s.cur) else some s) = some u →
      Formed u := by
    split
    · split
      · rintro _ ⟨⟩
      · exact State.drainOne_wf h
    · rintro _ ⟨⟩
      exact h
  unfold State.append
  dsimp only
  split
  · exact .stop h
  · rename_i u e
    exact .ok (room u e)

theorem State.storeAt_wf {s : State} {sp : Space} {a : Acc} {k : Nat} {x : Word} (h : Formed s) :
    Ends Formed (s.storeAt sp a k x) := by
  unfold State.storeAt
  extract_lets c e
  split
  · split
    · split
      · exact .demand h (.ok h)
      · exact .stop h
      · exact .demand h (State.append_wf h)
    · exact State.append_wf h
  · exact State.append_wf h

theorem State.checkStore_wf {s : State} {sp : Space} {ea : Word} {k : Nat} (h : Formed s) :
    Ends (Formed ·.1) (s.checkStore sp ea k) := by
  unfold State.checkStore
  split
  · exact State.checkFirm_wf h
  · exact State.check_wf h

theorem State.store_wf {s : State} {sp : Space} {ea : Word} {k : Nat} {x : Word} (h : Formed s) :
    Ends Formed (s.store sp ea k x) := by
  unfold State.store
  refine .bind (State.checkStore_wf h) ?_
  rintro ⟨t, x⟩ ht
  dsimp only
  exact State.storeAt_wf ht

theorem State.parkTentative_wf {s : State} {why : BitVec 4} (h : Formed s) :
    Ends (fun _ => True) (s.parkTentative why) := by
  unfold State.parkTentative
  exact ends_demand h

end Sys2Proof.Machine
end

section
/-! ## Memory in canonical form: tasks (Machine/Tasks) -/

namespace Sys2Proof.Machine

theorem State.publish_wf {s : State} (h : Formed s) : Formed s.publish := by
  unfold State.publish
  exact foldl_keeps Formed _ (fun _ _ hu => State.releaseDie_wf _ _ hu) _ _ (foldl_keeps Formed _
    (fun _ _ hu => State.drainFrom_wf _ hu) _ _ h)

theorem State.finishLaunch_wf {s : State} {l : Launch} (h : Formed s) : Formed (s.finishLaunch l) := by
  unfold State.finishLaunch
  split
  · split
    · exact State.release_wf (State.publish_wf h)
    · exact h
  · exact h

theorem State.finishWalk_wf {s : State} {w : Walk} (h : Formed s) : Formed (s.finishWalk w) := by
  unfold State.finishWalk
  split
  · exact State.release_wf (State.publish_wf h)
  · exact h

theorem State.countEnded_wf {s : State} {i : Inst} (h : Formed s) : Formed (s.countEnded i) := by
  unfold State.countEnded
  extract_lets
  split
  · split
    · exact State.finishWalk_wf h
    · exact h
  · split
    · exact State.finishLaunch_wf h
    · exact h

theorem State.migTrap_wf {s : State} {n : CoreId} (h : Formed s) : Formed (s.migTrap n) := by
  unfold State.migTrap
  extract_lets k
  split
  · exact State.takeTrap_wf h
  · exact h

theorem State.acquireFrom_wf {s : State} {n : CoreId} {a : Arr} (h : Formed s) : Formed (s.acquireFrom n a) := by
  unfold State.acquireFrom
  split
  · exact State.acquireDie_wf _ _ h
  · exact h

theorem State.codeWords_wf {die : BitVec 4} {dom : BitVec 16} {lo : Nat} {pa : Nat} (k : Nat) :
    ∀ {s : State} {i : Nat}, Formed s → Formed (s.codeWords die dom lo pa k i).1 := by
  induction k with
  | zero =>
    intro s i h
    unfold State.codeWords
    exact h
  | succ k ih =>
    intro s i h
    unfold State.codeWords
    split
    · exact ih h
    · split
      · rename_i _ t u v e
        split
        · rename_i _ w t1 u1 e1
          exact (formed_fst (ih (formed_fst (State.dieRead_wf _ _ _ _ _ _ h) e)) e1 : Formed t1)

theorem State.codeLine_wf {s : State} {n : CoreId} {va : Nat} (h : Formed s) : Formed (s.codeLine n va).1 := by
  unfold State.codeLine
  extract_lets lo
  split
  · rename_i t u v e
    exact State.codeWords_wf _ (formed_fst (State.translate_wf h) e)
  · rename_i t u v w e
    exact (formed_fst (State.translate_wf h) e : Formed u)

theorem State.fillEntry_wf {s : State} {n : CoreId} {p : BitVec 3} (h : Formed s) : Formed (s.fillEntry n p) := by
  unfold State.fillEntry
  dsimp only
  split
  · exact h
  · split
    · exact State.codeLine_wf h
    · exact h

theorem State.lockLines_wf {s : State} {n : CoreId} (h : Formed s) : Formed (s.lockLines n) := by
  unfold State.lockLines
  refine foldl_keeps Formed _ (fun u x hu => ?_) _ _ h
  split
  · rename_i t v w e
    exact (formed_fst (State.codeLine_wf hu) e : Formed v)

theorem State.invalidateCode_wf {s : State} {n : CoreId} (h : Formed s) : Formed (s.invalidateCode n) := by
  unfold State.invalidateCode
  exact State.lockLines_wf h

theorem State.resume_wf {s : State} {n : CoreId} {p : BitVec 3} {r : Record} {w : List Word} (h : Formed s) :
    Formed (s.resume n p r w) := by
  unfold State.resume
  extract_lets touched taken
  have ht : Formed taken := formed_records (formed_updCore (State.partTouch_wf _ h))
  clear_value taken
  split
  · rename_i t u e
    exact State.partStore_wf _ _ _ _ ht e
  · exact State.machineCheck_wf ht

theorem State.push_wf {s : State} {n : CoreId} {a : Arr} {p : BitVec 3} (h : Formed s) : Formed (s.push n a p) := by
  unfold State.push
  refine State.migTrap_wf ?_
  refine State.unpin_wf ?_
  split
  · exact State.resume_wf (State.fillEntry_wf (State.detach_wf (State.acquireFrom_wf h)))
  · exact State.fillEntry_wf (State.detach_wf (State.acquireFrom_wf h))

theorem State.selectFrom_wf {n : CoreId} (k : Nat) : ∀ {s : State}, Formed s → Formed (s.selectFrom n k) := by
  induction k with
  | zero =>
    intro s h
    unfold State.selectFrom
    exact h
  | succ k ih =>
    intro s h
    unfold State.selectFrom
    split
    · exact h
    · split
      · exact h
      · split
        · exact h
        · split
          · exact ih (State.takeHeld_wf h)
          · split
            · exact ih (State.asyncTrap_wf (State.takeHeld_wf h))
            · split
              · exact h
              · split
                · exact State.machineCheck_wf h
                · exact State.push_wf (State.takeHeld_wf h)

theorem State.park_wf {s : State} {n : CoreId} {why : BitVec 4} {va : Word} {at_ : BitVec 56} {async : Bool}
    (h : Formed s) : Formed (s.park n why va at_ async).1 := by
  unfold State.park
  dsimp only
  split
  · exact State.drainFrom_wf _ h
  · split
    · exact State.drainFrom_wf _ h
    · split
      · exact State.drainFrom_wf _ h
      · split
        · exact State.drainFrom_wf _ h
        · split
          · exact State.machineCheck_wf (State.drainFrom_wf _ h)
          · rename_i _ v1 w1 e3
            exact State.enterTrap_wf ((State.partStores_wf _ _ _ _ (State.drainFrom_wf _ h) e3 : Formed w1))

theorem State.atBoundary_wf {s : State} {n : CoreId} (h : Formed s) : Formed (s.atBoundary n) := by
  unfold State.atBoundary
  extract_lets c
  split
  · split
    · exact State.boundary_wf h
    · exact State.park_wf h
  · refine State.boundary_wf ?_
    split <;> exact h

theorem State.selectNext_wf {s : State} {n : CoreId} (h : Formed s) : Formed (s.selectNext n) := by
  unfold State.selectNext
  exact State.selectFrom_wf _ (State.atBoundary_wf h)

theorem State.idleRun_wf {s : State} {n : CoreId} (h : Formed s) : Formed (s.idleRun n) := by
  unfold State.idleRun
  split <;> exact h

theorem State.pop_wf {s : State} {n : CoreId} (h : Formed s) : Formed (s.pop n) := by
  unfold State.pop
  exact State.idleRun_wf (State.selectNext_wf (State.migTrap_wf (State.unpin_wf h)))

theorem State.endMember_wf {s : State} {n : CoreId} {l : BitVec 3} (h : Formed s) : Formed (s.endMember n l) := by
  unfold State.endMember
  split
  · split
    · exact State.detachFollowers_wf h
    · exact h
  · exact h

theorem State.endOf_wf {s : State} {n : CoreId} {l : BitVec 3} (h : Formed s) : Formed (s.endOf n l) := by
  unfold State.endOf
  exact State.endMember_wf h

theorem State.endTask_wf {s : State} {n : CoreId} {counted : Bool} (h : Formed s) : Formed (s.endTask n counted) := by
  unfold State.endTask
  refine State.pop_wf ?_
  split
  · split
    · exact State.countEnded_wf (State.endOf_wf h)
    · exact State.endOf_wf h
  · exact State.endOf_wf h

theorem State.trapReturn_wf {s : State} {n : CoreId} {ending : Bool} (h : Formed s) :
    Formed (s.trapReturn n ending) := by
  unfold State.trapReturn
  extract_lets c
  split
  · exact State.nestedTrap_wf h
  · split
    · exact State.idleRun_wf (State.selectNext_wf (State.migTrap_wf (State.unpin_wf (State.endMember_wf h))))
    · split
      · exact State.endTask_wf (State.unpin_wf (State.endMember_wf h))
      · exact State.idleRun_wf (State.selectNext_wf (State.migTrap_wf (State.unpin_wf (State.endMember_wf h))))

theorem State.stop_wf {s : State} {e : Stop} (h : Formed s) : Formed (s.stop e) := by
  unfold State.stop
  extract_lets n c
  split
  · exact State.takeTrap_wf h
  · exact h
  · split
    · exact State.takeTrap_wf h
    · exact h
  · split
    · exact State.takeTrap_wf h
    · split
      · exact State.drainFrom_wf _ h
      · split
        · rename_i _ _ t1 u1 e
          exact formed_fst (State.park_wf h) e
        · rename_i _ _ t1 u1 e
          split
          · exact State.takeTrap_wf (formed_fst (State.park_wf h) e)
          · exact formed_fst (State.park_wf h) e

theorem finish_wf {r : Res State} (h : Ends Formed r) : ∀ t, finish r = .next t → Formed t := by
  cases h with
  | ok h =>
    rintro _ ⟨⟩
    exact h
  | stop h =>
    rintro _ ⟨⟩
    exact State.stop_wf h

end Sys2Proof.Machine
end

section
/-! ## Memory in canonical form: operands (Machine/Operands) -/

namespace Sys2Proof.Machine

theorem State.retire_wf {s : State} {d : SReg} {x : Word} {len : Nat} (h : Formed s) :
    ∀ t, s.retire d x len = .next t → Formed t := by
  unfold State.retire
  rintro _ ⟨⟩
  exact h

theorem State.retireV_wf {s : State} {d : VReg} {x : Vec} (h : Formed s) :
    ∀ t, s.retireV d x = .next t → Formed t := by
  unfold State.retireV
  rintro _ ⟨⟩
  exact h

theorem State.jump_wf {s u : State} {t : Int} (h : Formed s) (hu : Formed u) :
    ∀ r, s.jump u t = .next r → Formed r := by
  unfold State.jump
  split
  · rintro _ ⟨⟩
    exact State.stop_wf h
  · split
    · rintro _ ⟨⟩
      exact State.stop_wf h
    · rintro _ ⟨⟩
      exact hu

theorem State.branch_wf {s : State} {c : Bool} {t : Int} {len : Nat} (h : Formed s) :
    ∀ r, s.branch c t len = .next r → Formed r := by
  unfold State.branch
  split
  · exact State.jump_wf h h
  · rintro _ ⟨⟩
    exact h

theorem State.consume_wf {s : State} {sr : Bool} {n : Nat} (h : Formed s) : Formed (s.consume sr n) := by
  unfold State.consume
  split <;> exact h

end Sys2Proof.Machine
end

section
/-! ## Memory in canonical form: registers with flags (Machine/Flags) -/

namespace Sys2Proof.Machine

theorem State.endCmd_wf {s : State} {n lid : CoreId} {e : BitVec 4} {fault : Bool} (h : Formed s) :
    Formed (s.endCmd n lid e fault) := by
  unfold State.endCmd
  extract_lets at_ m
  split
  · exact h
  · split <;> exact h

theorem State.failCmd_wf {s : State} {n : CoreId} {by_ : Issuer} {cmd : BitVec 4} {cause : BitVec 5} {x : Succ}
    {addr progress : Word} (h : Formed s) : Formed (s.failCmd n by_ cmd cause x addr progress) := by
  unfold State.failCmd
  exact State.endCmd_wf h

theorem State.completeFar_wf {s : State} {n : CoreId} {by_ : Issuer} {cmd : BitVec 4} {x : Succ} {payload : List Word}
    {progress : Word} {far : Bool} (h : Formed s) : Formed (s.completeFar n by_ cmd x payload progress far) := by
  unfold State.completeFar
  split
  · exact State.failCmd_wf h
  · split
    · exact State.releaseFar_wf h
    · exact State.releaseFar_wf (State.endCmd_wf h)

theorem State.closeCmd_wf {s : State} {n lid : CoreId} {cmd : BitVec 4} {id : Nat} {fault : Bool} (h : Formed s) :
    Formed (s.closeCmd n lid cmd id fault) := by
  unfold State.closeCmd
  split
  · exact State.endCmd_wf h
  · exact h

end Sys2Proof.Machine
end

section
/-! ## Memory in canonical form: completions and traps (Machine/Manage) -/

namespace Sys2Proof.Machine

theorem State.resetCore_wf {s : State} {n : CoreId} (h : Formed s) : Formed (s.resetCore n) := by
  unfold State.resetCore
  exact State.unpin_wf (State.endOf_wf (State.detachFollowers_wf h))

theorem State.writeSwitches_wf {s : State} {cl : BitVec 14} {data : Word} (h : Formed s) :
    Formed (s.writeSwitches cl data) := by
  unfold State.writeSwitches
  dsimp only
  refine foldl_keeps Formed _ (fun u x hu => ?_) _ _ h
  split <;> split <;> exact hu

theorem State.beginDrain_wf {s : State} {cl : BitVec 14} (h : Formed s) : Formed (s.beginDrain cl) := by
  unfold State.beginDrain
  extract_lets drained emptied moved
  have hd : Formed drained := by
    refine foldl_keeps Formed _ (fun u i hu => ?_) _ _ h
    dsimp only
    split
    · exact hu
    · exact State.drainFrom_wf _ hu
  have he : Formed emptied := foldl_keeps Formed _ (fun _ _ hu => State.evictFrame_wf _ _ _ hu) _ _ hd
  have hm : Formed moved := by
    refine foldl_keeps Formed _ (fun u i hu => ?_) _ _ he
    dsimp only
    split
    · exact formed_updCore hu
    · exact hu
  exact formed_updCluster hm

theorem State.requestScratchGate_wf {s : State} {cl : BitVec 14} (h : Formed s) :
    Formed (s.requestScratchGate cl) := by
  unfold State.requestScratchGate
  extract_lets k s1
  split
  · exact State.beginDrain_wf h
  · exact h

theorem State.requestClusterGate_wf {s : State} {cl : BitVec 14} (h : Formed s) :
    Formed (s.requestClusterGate cl) := by
  unfold State.requestClusterGate
  extract_lets k
  split
  · exact h
  · split
    · exact State.beginDrain_wf h
    · exact h

theorem State.writeGate_wf {s : State} {cl : BitVec 14} {data : Word} (h : Formed s) :
    Formed (s.writeGate cl data) := by
  unfold State.writeGate
  dsimp only
  split
  · split
    · split
      · exact State.requestClusterGate_wf h
      · exact State.requestScratchGate_wf (State.requestClusterGate_wf h)
    · split
      · split
        · exact h
        · exact State.requestScratchGate_wf h
      · split
        · exact h
        · exact State.requestScratchGate_wf h
  · split
    · split <;> exact State.requestClusterGate_wf h
    · split <;> split <;> exact h

theorem State.endDrain_wf {s : State} {cl : BitVec 14} (h : Formed s) : Formed (s.endDrain cl) := by
  unfold State.endDrain
  extract_lets k
  split <;> exact h

theorem State.endWake_wf {s : State} {cl : BitVec 14} (h : Formed s) : Formed (s.endWake cl) := by
  unfold State.endWake
  extract_lets k opened
  have ho : Formed opened := by
    unfold opened
    split
    · refine foldl_keeps Formed _ (fun u i hu => ?_) _ _ h
      exact hu
    · exact h
  split
  · exact h
  · exact formed_updCluster ho

theorem State.notifyHeat_wf {s : State} {n : CoreId} (h : Formed s) : Formed (s.notifyHeat n) := by
  unfold State.notifyHeat
  extract_lets k i t
  split <;> exact h

theorem State.rearm_wf {s : State} {n : CoreId} (h : Formed s) : Formed (s.rearm n) := by
  unfold State.rearm
  extract_lets k i
  split <;> exact h

theorem State.writeCluster_wf {s : State} {cl : BitVec 14} {off : Nat} {x : Word} (h : Formed s) :
    Formed (s.writeCluster cl off x) := by
  unfold State.writeCluster
  split
  · exact h
  · exact State.writeSwitches_wf h
  · exact h
  · exact h
  · exact foldl_keeps Formed _ (fun _ _ hu => State.notifyHeat_wf (State.rearm_wf hu)) _ _ h
  · exact State.writeGate_wf h
  · exact h
  · refine foldl_keeps Formed _ (fun u x hu => ?_) _ _ h
    split
    · exact State.resetCore_wf hu
    · exact hu
  · exact h

theorem State.writeDie_wf {s : State} {d : BitVec 4} {off : Nat} {x : Word} (h : Formed s) :
    Formed (s.writeDie d off x) := by
  unfold State.writeDie
  split <;> exact h

theorem State.writeQuay_wf {s : State} {bay : BitVec 4} {off : Nat} {x : Word} (h : Formed s) :
    Formed (s.writeQuay bay off x) := by
  unfold State.writeQuay
  split
  · exact h
  · split <;> exact h

theorem State.paceRelease_wf {s : State} {d : BitVec 4} (h : Formed s) : Formed (s.paceRelease d) := by
  unfold State.paceRelease
  extract_lets p
  split <;> exact h

theorem State.writePacer_wf {s : State} {d : BitVec 4} {x : Word} (h : Formed s) : Formed (s.writePacer d x) := by
  unfold State.writePacer
  extract_lets en s1
  split
  · exact State.paceRelease_wf h
  · exact h

theorem State.writeEnc_wf {s : State} {d : BitVec 4} {off : Nat} {x : Word} (h : Formed s) :
    Formed (s.writeEnc d off x) := by
  unfold State.writeEnc
  split
  · exact State.writePacer_wf h
  · exact h
  · exact h
  · exact h

theorem State.mgmtWrite_wf {s : State} {a : Nat} {x : Word} (h : Formed s) : Formed (s.mgmtWrite a x) := by
  unfold State.mgmtWrite
  split
  · exact State.writeCluster_wf h
  · exact State.writeDie_wf h
  · exact State.writeQuay_wf h
  · exact State.writeEnc_wf h
  · exact h

end Sys2Proof.Machine
end

section
/-! ## Memory in canonical form: loads and stores (Machine/MemOps) -/

namespace Sys2Proof.Machine

theorem State.plainLoad_wf {s : State} {sp : Space} {d : SReg} {ea : Word} {z : LdSize} {len : Nat} (h : Formed s) :
    ∀ t, s.plainLoad sp d ea z len = .next t → Formed t := by
  unfold State.plainLoad
  refine finish_wf ?_
  split
  · refine .bind (State.drain_wf h) ?_
    intro t ht
    exact .ok ht
  · refine .bind (State.load_wf h) ?_
    rintro ⟨t, x⟩ ht
    dsimp only
    exact .ok ht

theorem State.plainStore_wf {s : State} {sp : Space} {ea : Word} {z : MemSize} {x : Word} {len : Nat} (h : Formed s) :
    ∀ t, s.plainStore sp ea z x len = .next t → Formed t := by
  unfold State.plainStore
  dsimp only
  refine finish_wf ?_
  split
  · refine .bind (State.drain_wf h) ?_
    intro t ht
    refine .ok ?_
    split <;> exact State.mgmtWrite_wf ht
  · refine .bind (State.store_wf h) ?_
    intro t ht
    exact .ok ht

theorem execLdAcq_wf {d a : SReg} {z : MemSize} {sp : Space} {sc : Scope} {s : State} (h : Formed s) :
    ∀ t, execLdAcq d a z sp sc s = .next t → Formed t := by
  unfold execLdAcq
  extract_lets
  refine finish_wf ?_
  refine .bind (State.check_wf h) ?_
  rintro ⟨t, x⟩ ht
  dsimp only
  refine .bind (State.drain_wf ht) ?_
  intro u hu
  refine .bind (State.loadWord_wf (State.acquireAt_wf _ _ _ hu)) ?_
  rintro ⟨u, x⟩ hu
  exact .ok hu

theorem execStRel_wf {a b : SReg} {z : MemSize} {sp : Space} {sc : Scope} {s : State} (h : Formed s) :
    ∀ t, execStRel a b z sp sc s = .next t → Formed t := by
  unfold execStRel
  extract_lets
  refine finish_wf ?_
  refine .bind (State.checkFirm_wf h) ?_
  rintro ⟨t, x⟩ ht
  dsimp only
  refine .bind (State.drain_wf ht) ?_
  intro u hu
  refine .bind (State.append_wf (State.releaseAt_wf _ _ _ hu)) ?_
  intro u hu
  exact .ok hu

theorem execLdq_wf {q : QReg} {a : SReg} {tag : BitVec 3} {sp : Space} {m : SyncMode} {sc : Scope} {s : State}
    (h : Formed s) : ∀ t, execLdq q a tag sp m sc s = .next t → Formed t := by
  unfold execLdq
  extract_lets
  refine finish_wf ?_
  refine .demand h ?_
  refine .bind (State.checkFirm_wf h) ?_
  rintro ⟨t, x⟩ ht
  dsimp only
  refine .demand ht ?_
  refine .bind (State.drain_wf ht) ?_
  intro u hu
  exact .ok hu

theorem State.syncWrite_wf {s : State} {a b : SReg} {sp : Space} {m : SyncMode} {sc : Scope} (h : Formed s) :
    ∀ t, s.syncWrite a b sp m sc = .next t → Formed t := by
  unfold State.syncWrite
  refine finish_wf ?_
  refine .bind (State.checkFirm_wf h) ?_
  rintro ⟨t, x⟩ ht
  dsimp only
  refine .bind (State.drain_wf ht) ?_
  intro u hu
  refine .bind (State.append_wf hu) ?_
  intro u hu
  exact .ok hu

theorem execFeTest_wf {d a : SReg} {sp : Space} {s : State} (h : Formed s) :
    ∀ t, execFeTest d a sp s = .next t → Formed t := by
  unfold execFeTest
  extract_lets
  refine finish_wf ?_
  refine .bind (State.check_wf h) ?_
  rintro ⟨t, x⟩ ht
  dsimp only
  refine .bind (State.settleFlights_wf ht) ?_
  intro u hu
  split
  · rename_i v w t1 e
    exact .stop (State.plainWait_wf hu _ e)
  · exact .demand hu (.ok (State.rawRead_wf hu))

theorem State.setFencing_wf {s : State} {x : Bool} (h : Formed s) : Formed (s.setFencing x) := by
  unfold State.setFencing
  split <;> exact h

theorem State.fence_wf {s : State} {visible : Bool} {sc : Scope} {len : Nat} (h : Formed s) :
    ∀ t, s.fence visible sc len = .next t → Formed t := by
  refine finish_wf ?_
  refine .bind (State.parkTentative_wf h) fun _ _ => ?_
  refine .bind (State.drain_wf h) fun u hu => ?_
  extract_lets released acquired settled
  have hr : Formed released := State.releaseAt_wf _ _ _ hu
  have ha : Formed acquired := by
    unfold acquired
    split
    · exact foldl_keeps Formed _ (fun _ _ hv => State.acquireDie_wf _ _ hv) _ _ hr
    · exact State.acquireAt_wf _ _ _ hr
  have hs : Formed settled := by
    unfold settled
    split
    · exact ha
    · exact formed_updMe (State.flightsFrom_wf _ ha)
  refine .demand (State.setFencing_wf hs) (.ok ?_)
  exact formed_advance (State.setFencing_wf hs)

end Sys2Proof.Machine
end

section
/-! ## Memory in canonical form: atomics (Machine/Atomic) -/

namespace Sys2Proof.Machine

theorem State.amoRelease_wf {s : State} {o : AOrd} {sc : Scope} {l : Loc} (h : Formed s) :
    Formed (s.amoRelease o sc l) := by
  unfold State.amoRelease
  refine State.settle_wf _ _ _ ?_
  split
  · exact State.releaseAt_wf _ _ _ h
  · exact h

theorem State.acquireOwed_wf {s : State} {n : CoreId} {sc : Option Scope} (h : Formed s) :
    Formed (s.acquireOwed n sc) := by
  unfold State.acquireOwed
  split
  · exact State.acquireAt_wf _ _ _ h
  · exact h

theorem execAmo_wf {d a b : SReg} {scratch : Bool} {sc : Scope} {o : AOrd} {op : AmoOp} {s : State} (h : Formed s) :
    ∀ t, execAmo d a b scratch sc o op s = .next t → Formed t := by
  unfold execAmo
  extract_lets
  refine finish_wf ?_
  refine .bind (State.checkFirm_wf h) ?_
  rintro ⟨t, x⟩ ht
  dsimp only
  refine .bind (State.drain_wf ht) ?_
  intro u hu
  split
  · split
    · exact .stop (State.amoRelease_wf hu)
    · rename_i v1 w1 e1
      exact .ok ((State.moor_wf (State.amoRelease_wf hu) _ e1 : Formed w1))
  · split
    · split
      · exact .ok (State.amoRelease_wf hu)
      · exact .ok (State.amoAt_wf _ _ _ _ _ _ (State.amoRelease_wf hu))
    · exact .demand (State.amoRelease_wf hu) (.ok (State.acquireOwed_wf (State.amoAt_wf _ _ _ _ _ _ (State.amoRelease_wf hu))))

end Sys2Proof.Machine
end

section
/-! ## Memory in canonical form: branches and swarms (Machine/Branch) -/

namespace Sys2Proof.Machine

theorem State.leave_wf {s : State} {n : CoreId} (h : Formed s) : Formed (s.leave n) := by
  unfold State.leave
  split
  · split
    · exact State.detachFollowers_wf h
    · exact h
  · exact h

theorem State.joinPoint_wf {s : State} {n : CoreId} {at_ : BitVec 56} (h : Formed s) :
    Formed (s.joinPoint n at_) := by
  unfold State.joinPoint
  dsimp only
  split
  · exact h
  · rename_i t u e
    split
    · exact h
    · split
      · split
        · exact h
        · refine foldl_keeps Formed _ (fun u x hu => ?_) _ _ h
          split
          · split <;> exact hu
          · exact hu
      · split
        · exact h
        · refine foldl_keeps Formed _ (fun u x hu => ?_) _ _ h
          split
          · split <;> exact hu
          · exact hu

theorem execSwform_wf {d a b : SReg} {s : State} (h : Formed s) : ∀ t, execSwform d a b s = .next t → Formed t := by
  unfold execSwform
  dsimp only
  split
  · split
    · exact State.retire_wf h
    · split
      · exact State.retire_wf (State.joinPoint_wf (State.leave_wf h))
      · exact State.retire_wf (State.leave_wf h)
  · split
    · exact State.retire_wf h
    · split
      · exact State.retire_wf (State.joinPoint_wf (State.leave_wf h))
      · exact State.retire_wf (State.leave_wf h)

theorem State.swleave_wf {s : State} {len : Nat} (h : Formed s) : ∀ t, s.swleave len = .next t → Formed t := by
  unfold State.swleave
  rintro _ ⟨⟩
  exact State.leave_wf h

theorem State.swjoin_wf {s : State} {len : Nat} (h : Formed s) : ∀ t, s.swjoin len = .next t → Formed t := by
  unfold State.swjoin
  rintro _ ⟨⟩
  exact State.joinPoint_wf h

end Sys2Proof.Machine
end

section
/-! ## Memory in canonical form: vector instructions (Machine/Vector) -/

namespace Sys2Proof.Machine

theorem State.vint_wf {s : State} {d a b : VReg} {e : BitVec 3} {f : Et → Int → Int → Int} (h : Formed s) :
    ∀ t, s.vint d a b e f = .next t → Formed t := by
  unfold State.vint
  dsimp only
  exact State.retireV_wf h

theorem execVaddInt_wf {d a b : VReg} {e : BitVec 3} {s : State} (h : Formed s) :
    ∀ t, execVaddInt d a b e s = .next t → Formed t := by
  unfold execVaddInt
  exact State.vint_wf h

theorem execVsubInt_wf {d a b : VReg} {e : BitVec 3} {s : State} (h : Formed s) :
    ∀ t, execVsubInt d a b e s = .next t → Formed t := by
  unfold execVsubInt
  exact State.vint_wf h

theorem execVadds_wf {d a b : VReg} {e : BitVec 3} {s : State} (h : Formed s) :
    ∀ t, execVadds d a b e s = .next t → Formed t := by
  unfold execVadds
  exact State.vint_wf h

theorem execVsubs_wf {d a b : VReg} {e : BitVec 3} {s : State} (h : Formed s) :
    ∀ t, execVsubs d a b e s = .next t → Formed t := by
  unfold execVsubs
  exact State.vint_wf h

theorem execVmulInt_wf {d a b : VReg} {e : BitVec 3} {s : State} (h : Formed s) :
    ∀ t, execVmulInt d a b e s = .next t → Formed t := by
  unfold execVmulInt
  exact State.vint_wf h

theorem execVmulh_wf {d a b : VReg} {e : BitVec 3} {s : State} (h : Formed s) :
    ∀ t, execVmulh d a b e s = .next t → Formed t := by
  unfold execVmulh
  exact State.vint_wf h

theorem execVshl_wf {d a b : VReg} {e : BitVec 3} {s : State} (h : Formed s) :
    ∀ t, execVshl d a b e s = .next t → Formed t := by
  unfold execVshl
  exact State.vint_wf h

theorem execVshr_wf {d a b : VReg} {e : BitVec 3} {s : State} (h : Formed s) :
    ∀ t, execVshr d a b e s = .next t → Formed t := by
  unfold execVshr
  exact State.vint_wf h

theorem State.vbit_wf {s : State} {d a b : VReg} {f : Vec → Vec → Vec} (h : Formed s) :
    ∀ t, s.vbit d a b f = .next t → Formed t := by
  unfold State.vbit
  exact State.retireV_wf h

theorem execVand_wf {d a b : VReg} {x : BitVec 3} {s : State} (h : Formed s) :
    ∀ t, execVand d a b x s = .next t → Formed t := by
  unfold execVand
  exact State.vbit_wf h

theorem execVor_wf {d a b : VReg} {x : BitVec 3} {s : State} (h : Formed s) :
    ∀ t, execVor d a b x s = .next t → Formed t := by
  unfold execVor
  exact State.vbit_wf h

theorem execVxor_wf {d a b : VReg} {x : BitVec 3} {s : State} (h : Formed s) :
    ∀ t, execVxor d a b x s = .next t → Formed t := by
  unfold execVxor
  exact State.vbit_wf h

theorem execVandn_wf {d a b : VReg} {x : BitVec 3} {s : State} (h : Formed s) :
    ∀ t, execVandn d a b x s = .next t → Formed t := by
  unfold execVandn
  exact State.vbit_wf h

theorem State.vfloat_wf {s : State} {d a b : VReg} {sr : Bool} {e : Et} {f : Ext → Ext → Ext → Ext} (h : Formed s) :
    ∀ t, s.vfloat d a b sr e f = .next t → Formed t := by
  unfold State.vfloat
  dsimp only
  exact State.retireV_wf (State.consume_wf h)

theorem execVaddFp_wf {d a b : VReg} {sr : Bool} {e : Et} {s : State} (h : Formed s) :
    ∀ t, execVaddFp d a b sr e s = .next t → Formed t := by
  unfold execVaddFp
  exact State.vfloat_wf h

theorem execVsubFp_wf {d a b : VReg} {sr : Bool} {e : Et} {s : State} (h : Formed s) :
    ∀ t, execVsubFp d a b sr e s = .next t → Formed t := by
  unfold execVsubFp
  exact State.vfloat_wf h

theorem execVmulFp_wf {d a b : VReg} {sr : Bool} {e : Et} {s : State} (h : Formed s) :
    ∀ t, execVmulFp d a b sr e s = .next t → Formed t := by
  unfold execVmulFp
  exact State.vfloat_wf h

theorem execVfma_wf {d a b : VReg} {sr : Bool} {e : Et} {s : State} (h : Formed s) :
    ∀ t, execVfma d a b sr e s = .next t → Formed t := by
  unfold execVfma
  exact State.vfloat_wf h

theorem execVfnma_wf {d a b : VReg} {sr : Bool} {e : Et} {s : State} (h : Formed s) :
    ∀ t, execVfnma d a b sr e s = .next t → Formed t := by
  unfold execVfnma
  exact State.vfloat_wf h

theorem State.vsign_wf {s : State} {d a : VReg} {e : Et} {f : Nat → Nat} (h : Formed s) :
    ∀ t, s.vsign d a e f = .next t → Formed t := by
  unfold State.vsign
  exact State.retireV_wf h

theorem execVcvt_wf {d a : VReg} {part : BitVec 3} {dt st : Et} {opt : Bool} {s : State} (h : Formed s) :
    ∀ t, execVcvt d a part dt st opt s = .next t → Formed t := by
  unfold execVcvt
  dsimp only
  exact State.retireV_wf (State.consume_wf h)

theorem execVsmrg_wf {d a b : VReg} {s : State} (h : Formed s) : ∀ t, execVsmrg d a b s = .next t → Formed t := by
  unfold execVsmrg
  dsimp only
  exact State.retireV_wf h

theorem execVsfu_wf {d a : VReg} {f : SfuFn} {s : State} (h : Formed s) :
    ∀ t, execVsfu d a f s = .next t → Formed t := by
  unfold execVsfu
  extract_lets
  exact finish_wf (.demand h (.ok h))

theorem execSfuAccept_wf {cl : BitVec 14} {s : State} (h : Formed s) :
    ∀ t, execSfuAccept cl s = .next t → Formed t := by
  unfold execSfuAccept
  dsimp only
  split
  · rintro _ ⟨⟩
    exact h
  · split
    · rintro _ ⟨⟩
      exact h
    · rintro _ ⟨⟩
      exact h

theorem execSfuLand_wf {n : CoreId} {s : State} (h : Formed s) : ∀ t, execSfuLand n s = .next t → Formed t := by
  unfold execSfuLand
  split
  · rintro _ ⟨⟩
    exact h
  · split
    · rintro _ ⟨⟩
      exact h
    · rintro _ ⟨⟩
      exact h

theorem execVld_wf {d : VReg} {a : SReg} {sp : Space} {half : Bool} {off : BitVec 11} {s : State} (h : Formed s) :
    ∀ t, execVld d a sp half off s = .next t → Formed t := by
  unfold execVld
  extract_lets
  refine finish_wf ?_
  refine .bind (State.check_wf h) ?_
  rintro ⟨t, x⟩ ht
  dsimp only
  refine .bind (State.loadWord_wf ht) ?_
  rintro ⟨u, x⟩ hu
  split
  · exact .ok hu
  · refine .bind (State.loadWord_wf hu) ?_
    rintro ⟨u, x⟩ hu
    exact .ok hu

theorem State.storeWords_go_wf {sp : Space} (ws : List Word) :
    ∀ {t : State} {a : Acc}, Formed t → Ends Formed (State.storeWords.go sp t a ws) := by
  induction ws with
  | nil => exact fun h => .ok h
  | cons w r ih =>
    intro t a h
    unfold State.storeWords.go
    exact .bind (State.storeAt_wf h) fun u hu => ih hu

theorem State.storeWords_wf {s : State} {sp : Space} {a : Acc} {ws : List Word} (h : Formed s) :
    Ends Formed (s.storeWords sp a ws) := by
  unfold State.storeWords
  split
  · rename_i u e
    exact .ok ((State.storeWords_go_wf ws h).answer e)
  · exact .stop h

theorem execVst_wf {d : VReg} {a : SReg} {sp : Space} {half : Bool} {off : BitVec 11} {s : State} (h : Formed s) :
    ∀ t, execVst d a sp half off s = .next t → Formed t := by
  unfold execVst
  extract_lets
  refine finish_wf ?_
  refine .bind (State.checkStore_wf h) ?_
  rintro ⟨t, x⟩ ht
  dsimp only
  refine .bind (State.storeWords_wf ht) ?_
  intro u hu
  exact .ok hu

end Sys2Proof.Machine
end

section
/-! ## Memory in canonical form: instructions of tasks (Machine/TaskOps) -/

namespace Sys2Proof.Machine

theorem State.beforeEnd_wf {s : State} {i : Option Inst} (h : Formed s) : Ends Formed (s.beforeEnd i) := by
  unfold State.beforeEnd
  split
  · exact State.drain_wf h
  · exact .ok h

theorem State.done_wf {s : State} (h : Formed s) : ∀ t, s.done = .next t → Formed t := by
  unfold State.done
  dsimp only
  split
  · rintro _ ⟨⟩
    exact State.trapReturn_wf h
  · split
    · rintro _ ⟨⟩
      exact State.stop_wf h
    · rename_i _ t e
      refine finish_wf ?_
      refine .bind (State.beforeEnd_wf h) ?_
      intro t ht
      exact .ok (State.endTask_wf ht)

theorem State.setArmed_wf {s : State} {t : Byte} {on : Bool} (h : Formed s) :
    ∀ r, s.setArmed t on = .next r → Formed r := by
  unfold State.setArmed
  extract_lets
  refine finish_wf ?_
  refine .demand h ?_
  refine .bind (State.parkTentative_wf h) ?_
  intro t ht
  refine .ok ?_
  split
  · exact State.selectNext_wf h
  · exact h

theorem State.claim_wf {s : State} {n : BitVec 4} {len : Nat} (h : Formed s) :
    ∀ t, s.claim n len = .next t → Formed t := by
  unfold State.claim
  extract_lets
  exact finish_wf (.demand h (.demand h (.ok h)))

theorem State.unclaim_wf {s : State} {n : BitVec 4} {len : Nat} (h : Formed s) :
    ∀ t, s.unclaim n len = .next t → Formed t := by
  unfold State.unclaim
  split
  · split
    · dsimp only
      rintro _ ⟨⟩
      exact State.selectNext_wf h
    · rintro _ ⟨⟩
      exact State.stop_wf h
  · rintro _ ⟨⟩
    exact State.stop_wf h

theorem State.rng_wf {s : State} {d : SReg} {len : Nat} (h : Formed s) : ∀ t, s.rng d len = .next t → Formed t := by
  unfold State.rng
  dsimp only
  exact State.retire_wf h

theorem State.tick_wf {s : State} {d : SReg} {len : Nat} (h : Formed s) : ∀ t, s.tick d len = .next t → Formed t := by
  unfold State.tick
  exact State.retire_wf h

theorem execSend_wf {d a b : SReg} {s : State} (h : Formed s) : ∀ t, execSend d a b s = .next t → Formed t := by
  refine finish_wf ?_
  refine .demand h (.demand h (.demand h (.bind (State.parkTentative_wf h) fun _ _ => ?_)))
  refine .bind (State.drain_wf h) fun u hu => ?_
  extract_lets released out
  have hr : Formed released := State.releaseAt_wf _ _ _ hu
  refine .demand hr (.demand hr (.ok ?_))
  exact formed_advance (formed_numbered (formed_updMe (formed_post hr)))

theorem State.spoilWord_wf {s : State} {die : BitVec 4} {va : Nat} (h : Formed s) : Formed (s.spoilWord die va) := by
  unfold State.spoilWord
  split
  · rename_i e
    exact formed_fst (State.translate_wf h) e
  · rename_i u pa e
    extract_lets recalled
    have hr : Formed recalled :=
      foldl_keeps Formed _ (fun _ _ hv => State.evictCopy_wf _ _ _ hv) _ _ (formed_fst (State.translate_wf h) e)
    exact formed_spoiled hr

theorem State.spoil_wf {s : State} {die : BitVec 4} {va n : Nat} (h : Formed s) : Formed (s.spoil die va n) := by
  unfold State.spoil
  exact foldl_keeps Formed _ (fun _ _ hu => State.spoilWord_wf hu) _ _ h

theorem State.allocate_wf {s : State} {by_ : Issuer} {a : Option Word} {b : Word} (h : Formed s) :
    ∀ t x, s.allocate by_ a b = .ok (t, x) → Formed t := by
  unfold State.allocate
  split
  · rintro _ _ ⟨⟩
  · dsimp only
    split
    · rintro _ _ ⟨⟩
    · split
      · rintro _ _ ⟨⟩
      · split
        · split
          · rintro _ _ ⟨⟩
          · rintro _ _ ⟨⟩
            exact h
        · split
          · rintro _ _ ⟨⟩
          · rintro _ _ ⟨⟩
            exact h

theorem State.trimAlloc_wf {s : State} {die : BitVec 4} {x : Alloc} {n : Nat} (h : Formed s) :
    Formed (s.trimAlloc die x n) := by
  unfold State.trimAlloc
  exact State.spoil_wf h

theorem State.trim_wf {s : State} {by_ : Issuer} {a b : Word} (h : Formed s) :
    ∀ t, s.trim by_ a b = .ok t → Formed t := by
  unfold State.trim
  split
  · rintro _ ⟨⟩
  · split
    · rintro _ ⟨⟩
    · rintro _ ⟨⟩
      exact State.trimAlloc_wf h

theorem execRalloc_wf {d a b : SReg} {s : State} (h : Formed s) : ∀ t, execRalloc d a b s = .next t → Formed t := by
  unfold execRalloc
  extract_lets
  refine finish_wf ?_
  refine .bind (State.parkTentative_wf h) ?_
  intro t ht
  refine .demand h ?_
  split
  · exact .ok h
  · split
    · rename_i _ v w t1 e
      exact .ok ((State.allocate_wf h _ _ e : Formed w))
    · exact .stop h

theorem execRtrim_wf {a b : SReg} {s : State} (h : Formed s) : ∀ t, execRtrim a b s = .next t → Formed t := by
  unfold execRtrim
  refine finish_wf ?_
  refine .bind (State.parkTentative_wf h) ?_
  intro t ht
  split
  · exact .ok h
  · split
    · rename_i _ u v e
      exact .ok ((State.trim_wf h _ e : Formed v))
    · exact .stop h

theorem State.replyAlloc_wf {s : State} {n : CoreId} {id : Nat} {r : Except (BitVec 5 × Word) Word} (h : Formed s) :
    Formed (s.replyAlloc n id r) := by
  unfold State.replyAlloc
  split <;> exact h

theorem execAllocationService_wf {sector : BitVec 6} {s : State} (h : Formed s) :
    ∀ t, execAllocationService sector s = .next t → Formed t := by
  unfold execAllocationService
  split
  · rintro _ ⟨⟩
    exact h
  · extract_lets taken
    have ht : Formed taken := formed_updSector h
    clear_value taken
    split
    · split
      · rename_i u e
        rintro _ ⟨⟩
        exact State.replyAlloc_wf (State.trim_wf ht _ e)
      · rintro _ ⟨⟩
        exact State.replyAlloc_wf ht
    · split
      · rename_i u v e
        rintro _ ⟨⟩
        exact State.replyAlloc_wf (State.allocate_wf ht _ _ e)
      · rintro _ ⟨⟩
        exact State.replyAlloc_wf ht

end Sys2Proof.Machine
end

section
/-! ## Memory in canonical form: the memory of the engines (Machine/EngineMem) -/

namespace Sys2Proof.Machine

theorem State.checkSucc_wf {s : State} {d : SReg} {sprio : BitVec 3} {stype : Byte} {start : Bool} (h : Formed s) :
    Ends (fun _ => True) (s.checkSucc d sprio stype start) := by
  unfold State.checkSucc
  extract_lets w x
  exact .demand h (.demand h (.demand h (.ok trivial)))

theorem State.needSlot_wf {s : State} {e : BitVec 4} (h : Formed s) : Ends (fun _ => True) (s.needSlot e) := by
  unfold State.needSlot
  exact ends_demand h

theorem State.record_wf {s : State} {off : Nat} (h : Formed s) : Ends (fun _ => True) (s.record off) := by
  unfold State.record
  exact .demand h (.ok trivial)

theorem State.readMap_wf {s : State} {off : Nat} (h : Formed s) : Ends (fun _ => True) (s.readMap off) := by
  unfold State.readMap
  extract_lets
  refine .demand h ?_
  split
  · exact .stop h
  · exact .ok trivial

theorem State.engCheck_wf {s : State} {u : EngUser} {sp : Space} {a k : Nat} {wr : Bool} (h : Formed s) :
    Ends (Formed ·.1) (s.engCheck u sp a k wr) := by
  unfold State.engCheck
  extract_lets
  split
  · split
    · exact .ok h
    · exact .stop h
  · exact Ends.lift (State.checkScratch_wf h)
  · exact Ends.lift (State.checkGlobal_wf h)

theorem State.engServed_wf {s : State} {u : EngUser} {p : Acc} (h : Formed s) :
    Ends (fun _ => True) (s.engServed u p) := by
  unfold State.engServed
  split
  · rename_i t v e
    exact .stop (State.plainWait_wf h _ e)
  · exact .ok trivial

theorem State.engReadAll_wf {u : EngUser} {sp : Space} (l : List (Nat × Nat)) :
    ∀ {s : State}, Formed s → Ends (Formed ·.1) (s.engReadAll u sp l) := by
  induction l with
  | nil =>
    intro s h
    unfold State.engReadAll
    exact .ok h
  | cons a l ih =>
    intro s h
    unfold State.engReadAll
    refine .bind (State.engCheck_wf h) ?_
    rintro ⟨t, x⟩ ht
    dsimp only
    refine .bind (State.engServed_wf ht) ?_
    intro u hu
    split
    · exact .stop ht
    · refine .bind (ih (State.rawRead_wf ht)) ?_
      rintro ⟨u, x⟩ hu
      exact .ok hu

theorem State.engRead_wf {s : State} {u : EngUser} {sp : Space} {a : Int} {n : Nat} (h : Formed s) :
    Ends (Formed ·.1) (s.engRead u sp a n) := by
  unfold State.engRead
  exact State.engReadAll_wf _ h

theorem State.engWriteAll_wf {u : EngUser} {sp : Space} (l : List (Nat × List Byte)) :
    ∀ {s : State}, Formed s → Ends Formed (s.engWriteAll u sp l) := by
  induction l with
  | nil =>
    intro s h
    unfold State.engWriteAll
    exact .ok h
  | cons a l ih =>
    intro s h
    unfold State.engWriteAll
    refine .bind (State.engCheck_wf h) ?_
    rintro ⟨t, x⟩ ht
    dsimp only
    split
    · exact ih ht
    · split
      · split
        · split
          · exact ih ht
          · exact .stop ht
        · exact ih ht
      · refine .bind (State.engServed_wf ht) ?_
        intro u hu
        exact ih (State.rawWrite_wf ht)

theorem State.engWrite_wf {s : State} {u : EngUser} {sp : Space} {a : Int} {bs : List Byte} (h : Formed s) :
    Ends Formed (s.engWrite u sp a bs) := by
  unfold State.engWrite
  exact State.engWriteAll_wf _ h

theorem State.readElem_wf {s : State} {u : EngUser} {m : TMap} {xs : List Nat} (h : Formed s) :
    Ends (Formed ·.1) (s.readElem u m xs) := by
  unfold State.readElem
  split
  · exact .ok h
  · refine .bind (State.engRead_wf h) ?_
    rintro ⟨t, x⟩ ht
    dsimp only
    exact .ok ht

end Sys2Proof.Machine
end

section
/-! ## Memory in canonical form: the engines (Machine/Engine) -/

namespace Sys2Proof.Machine

theorem State.beginCmd_wf {s : State} {d : SReg} {sprio : BitVec 3} {stype : Byte} {start : Bool} (h : Formed s) :
    Ends (Formed ·.1) (s.beginCmd d sprio stype start) := by
  unfold State.beginCmd
  refine .bind (State.checkSucc_wf h) ?_
  intro t ht
  refine .bind (State.drain_wf h) ?_
  intro u hu
  exact .ok hu

theorem State.acceptRem_wf {s : State} {succ : Succ} {op : RemOp} (h : Formed s) :
    Ends Formed (s.acceptRem succ op) := by
  unfold State.acceptRem
  extract_lets
  refine .bind (State.needSlot_wf h) ?_
  intro t ht
  exact .ok h

theorem State.acceptCopy_wf {s : State} {x : CopyCmd} (h : Formed s) : Ends Formed (s.acceptCopy x) := by
  unfold State.acceptCopy
  refine .bind (State.needSlot_wf h) ?_
  intro t ht
  exact .ok h

theorem execCopy_wf {d : SReg} {x y : QReg} {sprio : BitVec 3} {stype : BitVec 8} {s : State} (h : Formed s) :
    ∀ t, execCopy d x y sprio stype s = .next t → Formed t := by
  unfold execCopy
  refine finish_wf ?_
  refine .bind (State.beginCmd_wf h) ?_
  rintro ⟨t, x⟩ ht
  dsimp only
  refine .bind (State.readMap_wf ht) ?_
  intro u hu
  refine .bind (State.readMap_wf ht) ?_
  intro u hu
  exact .demand ht (.demand ht (State.acceptCopy_wf ht))

theorem execCpst_wf {d : SReg} {x y : QReg} {sprio : BitVec 3} {stype : BitVec 8} {s : State} (h : Formed s) :
    ∀ t, execCpst d x y sprio stype s = .next t → Formed t := by
  unfold execCpst
  refine finish_wf ?_
  refine .bind (State.beginCmd_wf h) ?_
  rintro ⟨t, x⟩ ht
  dsimp only
  refine .bind (State.readMap_wf ht) ?_
  intro u hu
  refine .demand ht ?_
  refine .demand ht ?_
  refine .bind (State.acceptCopy_wf ht) ?_
  intro u hu
  exact .ok hu

theorem execWalk_wf {d : SReg} {x : QReg} {sprio : BitVec 3} {stype : BitVec 8} {s : State} (h : Formed s) :
    ∀ t, execWalk d x sprio stype s = .next t → Formed t := by
  unfold execWalk
  refine finish_wf ?_
  refine .bind (State.beginCmd_wf h) ?_
  rintro ⟨t, x⟩ ht
  dsimp only
  refine .bind (State.record_wf ht) ?_
  intro u hu
  refine .demand ht ?_
  refine .demand ht ?_
  refine .bind (State.readMap_wf ht) ?_
  intro u hu
  refine .demand ht ?_
  refine .demand ht ?_
  refine .bind (State.parkTentative_wf ht) ?_
  intro u hu
  exact State.acceptRem_wf ht

theorem execBarv_wf {d : SReg} {x : QReg} {sprio : BitVec 3} {stype : BitVec 8} {s : State} (h : Formed s) :
    ∀ t, execBarv d x sprio stype s = .next t → Formed t := by
  unfold execBarv
  refine finish_wf ?_
  refine .bind (State.beginCmd_wf h) ?_
  rintro ⟨t, x⟩ ht
  dsimp only
  refine .demand ht ?_
  refine .bind (State.parkTentative_wf ht) ?_
  intro u hu
  exact State.acceptRem_wf ht

theorem execLaunch_wf {d : SReg} {x : QReg} {sprio : BitVec 3} {stype : BitVec 8} {s : State} (h : Formed s) :
    ∀ t, execLaunch d x sprio stype s = .next t → Formed t := by
  unfold execLaunch
  refine finish_wf ?_
  refine .bind (State.beginCmd_wf h) ?_
  rintro ⟨t, x⟩ ht
  dsimp only
  refine .bind (State.record_wf ht) ?_
  intro u hu
  refine .demand ht ?_
  refine .demand ht ?_
  refine .demand ht ?_
  refine .bind (State.parkTentative_wf ht) ?_
  intro u hu
  exact State.acceptRem_wf ht

theorem execEnc_wf {d : SReg} {x : QReg} {sprio : BitVec 3} {stype : BitVec 8} {s : State} (h : Formed s) :
    ∀ t, execEnc d x sprio stype s = .next t → Formed t := by
  unfold execEnc
  refine finish_wf ?_
  refine .bind (State.beginCmd_wf h) ?_
  rintro ⟨t, x⟩ ht
  dsimp only
  refine .demand ht ?_
  refine .bind (State.parkTentative_wf ht) ?_
  intro u hu
  exact State.acceptRem_wf ht

theorem execRreq_wf {d : SReg} {x : QReg} {sprio : BitVec 3} {stype : BitVec 8} {s : State} (h : Formed s) :
    ∀ t, execRreq d x sprio stype s = .next t → Formed t := by
  unfold execRreq
  refine finish_wf ?_
  refine .bind (State.beginCmd_wf h) ?_
  rintro ⟨t, x⟩ ht
  dsimp only
  refine .bind (State.record_wf ht) ?_
  intro u hu
  refine .demand ht ?_
  refine .demand ht ?_
  refine .demand ht ?_
  refine .demand ht ?_
  refine .demand ht ?_
  refine .bind (State.parkTentative_wf ht) ?_
  intro u hu
  exact State.acceptRem_wf ht

theorem State.readUnit_wf {s : State} {u : EngUser} {m : TMap} {xs : List Nat} (h : Formed s) :
    Ends (Formed ·.1) (s.readUnit u m xs) := by
  unfold State.readUnit
  split
  · exact .ok h
  · exact State.engRead_wf h

theorem State.copyFrom_wf {u : EngUser} {q : CopyCmd} {n : Nat} (fuel : Nat) :
    ∀ {s : State} {e : Nat}, Formed s → Formed (s.copyFrom u q n fuel e).1 := by
  induction fuel with
  | zero => exact fun h => h
  | succ fuel ih =>
    intro s e h
    unfold State.copyFrom
    split
    · exact h
    · extract_lets r
      have hr : Ends Formed r := by
        refine .bind (State.readUnit_wf h) ?_
        rintro ⟨t, bs⟩ ht
        exact State.engWrite_wf ht
      clear_value r
      cases hr with
      | ok ht => exact ih ht
      | stop ht => exact ht

theorem execCopyEngineRun_wf {n : CoreId} {s : State} (h : Formed s) :
    ∀ t, execCopyEngineRun n s = .next t → Formed t := by
  unfold execCopyEngineRun
  split
  · rintro _ ⟨⟩
    exact h
  · split
    · rintro _ ⟨⟩
      exact h
    · dsimp only
      split
      · rename_i _ w t1 e1
        rintro _ ⟨⟩
        exact State.completeFar_wf ((formed_fst (State.copyFrom_wf _ h) e1 : Formed t1))
      · rename_i _ w t1 u1 v1 e1
        split
        · rintro _ ⟨⟩
          exact (formed_fst (State.copyFrom_wf _ h) e1 : Formed t1)
        · split
          · rintro _ ⟨⟩
            exact (formed_fst (State.copyFrom_wf _ h) e1 : Formed t1)
          · rintro _ ⟨⟩
            exact State.failCmd_wf ((formed_fst (State.copyFrom_wf _ h) e1 : Formed t1))

theorem State.streamElems_wf {u : EngUser} {m : TMap} {n : Nat} (k : Nat) :
    ∀ {s : State} {i : Nat}, Formed s → Ends (Formed ·.1) (s.streamElems u m n k i) := by
  induction k with
  | zero =>
    intro s i h
    unfold State.streamElems
    exact .ok h
  | succ k ih =>
    intro s i h
    unfold State.streamElems
    split
    · exact .ok h
    · refine .bind (State.readElem_wf h) ?_
      rintro ⟨t, x⟩ ht
      dsimp only
      refine .bind (ih ht) ?_
      rintro ⟨u, x⟩ hu
      exact .ok hu

theorem execStreamEntryAppend_wf {n : CoreId} {s : State} (h : Formed s) :
    ∀ t, execStreamEntryAppend n s = .next t → Formed t := by
  unfold execStreamEntryAppend
  split
  · rintro _ ⟨⟩
    exact h
  · split
    · rintro _ ⟨⟩
      exact h
    · dsimp only
      split
      · rintro _ ⟨⟩
        exact State.completeFar_wf h
      · split
        · rintro _ ⟨⟩
          exact h
        · split
          · rename_i _ _ u1 v1 w1 e2
            split
            · rintro _ ⟨⟩
              exact Ends.stopped (State.streamElems_wf _ h) e2
            · rintro _ ⟨⟩
              exact State.failCmd_wf ((Ends.stopped (State.streamElems_wf _ h) e2 : Formed v1))
          · rename_i _ _ u1 v1 w1 e2
            split
            · rintro _ ⟨⟩
              exact State.completeFar_wf ((Ends.answer_fst (State.streamElems_wf _ h) e2 : Formed v1))
            · rintro _ ⟨⟩
              exact (Ends.answer_fst (State.streamElems_wf _ h) e2 : Formed v1)

theorem State.rreqNow_wf {s : State} {m : CoreId} {dom : BitVec 16} {r : RreqRec} {src : List Word} (h : Formed s) :
    Formed (s.rreqNow m dom r src).1 := by
  unfold State.rreqNow
  extract_lets t spot
  split
  · exact h
  · exact h
  · split
    · exact h
    · split
      · rename_i _ _ _ v w t1 e
        exact (formed_fst (State.amoAt_wf _ _ _ _ _ _ h) e : Formed w)

theorem State.rreqAt_wf {s : State} {n m : CoreId} {q : RemCmd} {r : RreqRec} (h : Formed s) :
    ∀ t, s.rreqAt n m q r = some t → Formed t := by
  unfold State.rreqAt
  dsimp only
  split
  · rintro _ ⟨⟩
    exact State.rreqNow_wf h
  · exact State.syncArrive_wf h

theorem execRemoteRequestPerform_wf {n : CoreId} {s : State} (h : Formed s) :
    ∀ t, execRemoteRequestPerform n s = .next t → Formed t := by
  unfold execRemoteRequestPerform
  split
  · rintro _ ⟨⟩
    exact h
  · split
    · dsimp only
      split
      · rintro _ ⟨⟩
        exact State.failCmd_wf h
      · split
        · rintro _ ⟨⟩
          exact State.releaseDie_wf _ _ h
        · split
          · rintro _ ⟨⟩
            exact State.failCmd_wf h
          · split
            · rintro _ ⟨⟩
              exact h
            · split
              · rintro _ ⟨⟩
                exact State.failCmd_wf h
              · split
                · rename_i _ _ _ _ u1 v1 e3
                  rintro _ ⟨⟩
                  exact (State.rreqAt_wf (State.releaseAt_wf _ _ _ h) _ e3 : Formed v1)
                · rintro _ ⟨⟩
                  exact h
    · rintro _ ⟨⟩
      exact h

theorem State.rreqEnd_wf {s : State} {n : CoreId} {q : RemCmd} {r : RreqRec} {data : List Word} {status : BitVec 2}
    (h : Formed s) : Formed (s.rreqEnd n q r data status) := by
  unfold State.rreqEnd
  exact State.completeFar_wf h

theorem State.remoteAnswer_wf {s : State} {n : CoreId} {q : RemCmd} {r : RreqRec} {status : BitVec 2}
    {data : List Word} (h : Formed s) : Formed (s.remoteAnswer n q r status data) := by
  unfold State.remoteAnswer
  split
  · exact State.failCmd_wf h
  · exact State.rreqEnd_wf h

theorem execRemoteRequestComplete_wf {n : CoreId} {status : BitVec 2} {data : List Word} {s : State} (h : Formed s) :
    ∀ t, execRemoteRequestComplete n status data s = .next t → Formed t := by
  unfold execRemoteRequestComplete
  split
  · split
    · rintro _ ⟨⟩
      exact State.rreqEnd_wf h
    · rintro _ ⟨⟩
      exact h
  · split
    · split
      · rintro _ ⟨⟩
        exact State.remoteAnswer_wf h
      · rintro _ ⟨⟩
        exact h
    · rintro _ ⟨⟩
      exact h

theorem State.remoteTaken_wf {s : State} {n : CoreId} {id : Nat} (h : Formed s) : Formed (s.remoteTaken n id) := by
  unfold State.remoteTaken
  split
  · split
    · split <;> exact h
    · exact h
  · exact h

theorem State.remoteDone_wf {s : State} {n : CoreId} {id : Nat} {data : List Word} {status : BitVec 2}
    (h : Formed s) : Formed (s.remoteDone n id data status) := by
  unfold State.remoteDone
  split
  · split
    · split
      · exact h
      · exact State.remoteAnswer_wf h
    · exact h
  · exact h

theorem State.guestRequest_wf {s : State} {g : Guest} (h : Formed s) : Formed (s.guestRequest g) := by
  unfold State.guestRequest
  extract_lets r m c
  split
  · exact h
  · split
    · exact h
    · split
      · exact h
      · split
        · exact h
        · split
          · split
            · rename_i _ _ _ _ _ u v w t1 e
              exact (formed_fst (State.rreqNow_wf h) e : Formed v)
          · exact formed_getD h (State.syncArrive_wf h)

theorem State.takeWalk_wf {s : State} {blk : BitVec 10} (h : Formed s) : Formed (s.takeWalk blk) := by
  unfold State.takeWalk
  split
  · exact h
  · split
    · split
      · exact State.endCmd_wf h
      · exact h
    · exact h

theorem execTileWalkerRun_wf {blk : BitVec 10} {tile : BitVec 32} {lid : CoreId} {s : State} (h : Formed s) :
    ∀ t, execTileWalkerRun blk tile lid s = .next t → Formed t := by
  unfold execTileWalkerRun
  dsimp only
  split
  · rintro _ ⟨⟩
    exact State.takeWalk_wf h
  · split
    · rintro _ ⟨⟩
      exact State.takeWalk_wf h
    · rintro _ ⟨⟩
      exact State.takeWalk_wf h

theorem State.barrierNotices_wf {s : State} {key : Nat} {l : List Issuer} (h : Formed s) :
    Formed (s.barrierNotices key l) := by
  unfold State.barrierNotices
  refine foldl_keeps Formed _ (fun u x hu => ?_) _ _ h
  split <;> exact hu

theorem State.unrecord_wf {s : State} {key : Nat} (h : Formed s) : Formed (s.unrecord key) := by
  unfold State.unrecord
  exact State.dropWeir_wf h

theorem State.recordSucc_wf {s : State} {key : Nat} {by_ : Issuer} {x : Succ} {k : Byte} (h : Formed s) :
    ∀ t, s.recordSucc key by_ x k = some t → Formed t := by
  unfold State.recordSucc
  dsimp only
  split
  · exact State.weirAdd_wf h
  · rintro _ ⟨⟩
    exact h

theorem State.underBarrier_wf {s : State} {n : CoreId} {key : Nat} (h : Formed s) :
    Formed (s.underBarrier n key) := by
  unfold State.underBarrier
  dsimp only
  split
  · split <;> exact h
  · exact h

theorem State.releaseArrival_wf {s : State} {gen : Word} {a : Issuer × Succ × Byte} (h : Formed s) :
    Formed (s.releaseArrival gen a) := by
  unfold State.releaseArrival
  exact State.releaseFar_wf h

theorem State.arriveAt_wf {s : State} {n : CoreId} {q : RemCmd} {b : Word} {pa : Nat} (h : Formed s) :
    ∀ t, s.arriveAt n q b pa = .ok (some t) → Formed t := by
  unfold State.arriveAt
  extract_lets p g bad w gen m k key counted ended all released stepped
  have hc : Formed counted := State.underBarrier_wf (State.spotTouch_wf _ _ _ h)
  have hr : Formed stepped := State.spotWrite_wf _ _ _ _
    (foldl_keeps Formed _ (fun _ _ hu => State.releaseArrival_wf hu) _ _ (State.unrecord_wf hc))
  clear_value bad
  split
  · rintro _ ⟨⟩
  · split
    · rintro _ ⟨⟩
    · split
      · rintro _ ⟨⟩
      · split
        · rintro _ ⟨⟩
          exact State.barrierNotices_wf (State.spotWrite_wf _ _ _ _ hr)
        · intro _ e
          obtain ⟨u, eu, rfl⟩ := Option.map_eq_some_iff.mp (Except.ok.inj e)
          exact State.spotWrite_wf _ _ _ _ (State.recordSucc_wf hc _ eu)

theorem execBarrierArrive_wf {n : CoreId} {s : State} (h : Formed s) :
    ∀ t, execBarrierArrive n s = .next t → Formed t := by
  unfold execBarrierArrive
  split
  · rintro _ ⟨⟩
    exact h
  · rename_i q _
    split
    · rename_i b _
      extract_lets r fail
      have hr : Ends (Formed ·.1) r := by
        unfold r
        split
        · exact .stop h
        · exact .lift (State.checkGlobal_wf h)
      have hfail {u : State} {f : EngFault} (hu : Formed u) : ∀ t, fail u f = .next t → Formed t := by
        rintro _ ⟨⟩
        exact State.failCmd_wf (formed_popRem hu)
      clear_value r
      split
      · rename_i u f
        exact hfail (hr.stopped rfl)
      · rename_i u a
        have hu : Formed ((u.releaseDie (dieOf n)).acquireDie (dieOf n)) :=
          State.acquireDie_wf _ _ (State.releaseDie_wf _ _ (hr.answer_fst rfl))
        extract_lets opened
        change Formed opened at hu
        clear_value opened
        split
        · exact hfail hu
        · rintro _ ⟨⟩
          exact hu
        · rename_i v e
          rintro _ ⟨⟩
          exact State.endCmd_wf (formed_popRem (State.arriveAt_wf hu _ e))
    · rintro _ ⟨⟩
      exact h

end Sys2Proof.Machine
end

section
/-! ## Memory in canonical form: launches (Machine/Launch) -/

namespace Sys2Proof.Machine

theorem State.refuseLaunch_wf {s : State} {by_ : Issuer} {succ : Succ} {f : TreeFault} (h : Formed s) :
    Formed (s.refuseLaunch by_ succ f) := by
  unfold State.refuseLaunch
  split
  · exact State.machineCheck_wf h
  · exact h

theorem State.queueLaunch_wf {s : State} {l : Launch} (h : Formed s) : ∀ t, s.queueLaunch l = some t → Formed t := by
  unfold State.queueLaunch
  dsimp only
  split
  · rintro _ ⟨⟩
    exact h
  · exact State.weirAdd_wf h

theorem State.trimTied_wf {s : State} {l : Launch} {n : Nat} (h : Formed s) : Formed (s.trimTied l n) := by
  unfold State.trimTied
  exact foldl_keeps Formed _ (fun _ _ hu => formed_allocs (State.trimAlloc_wf hu)) _ _ h

theorem State.acceptLaunch_wf {s : State} {id : Nat} {x : BitVec 6} {by_ : Issuer} {succ : Succ} {r : LaunchRec}
    {t : TreeInfo} (h : Formed s) : ∀ u, s.acceptLaunch id x by_ succ r t = some u → Formed u := by
  unfold State.acceptLaunch
  extract_lets known l
  have hk : Formed known := formed_regions h
  clear_value known
  split
  · exact State.queueLaunch_wf hk
  · have checked : Ends (Formed ·.1)
        (liftEng (known.checkGlobal by_.core by_.dom (by_.level == 7) by_.region r.shapew.toNat true false true)) :=
      Ends.lift (State.checkGlobal_wf hk)
    split
    · rename_i u f e
      rintro _ ⟨⟩
      exact formed_handback (checked.stopped e)
    · rename_i u a e
      have hu : Formed u := checked.answer_fst e
      dsimp only
      split
      · rintro _ ⟨⟩
        exact formed_handback hu
      · split
        · intro _ eq
          obtain ⟨w, ew, rfl⟩ := Option.map_eq_some_iff.mp eq
          exact formed_updSlot (formed_tellShape (State.trimTied_wf (State.queueLaunch_wf (formed_updSlot hu) _ ew)))
        · exact State.queueLaunch_wf (formed_updSlot hu)

theorem State.touchTree_wf {s : State} {die : BitVec 4} {rcb : BitVec 56} (h : Formed s) :
    Formed (s.touchTree die rcb) := by
  unfold State.touchTree
  exact foldl_keeps Formed _ (fun _ _ hu => State.partTouch_wf _ hu) _ _ h

theorem execLaunchFrontEndCheck_wf {sector : BitVec 6} {s : State} (h : Formed s) :
    ∀ t, execLaunchFrontEndCheck sector s = .next t → Formed t := by
  unfold execLaunchFrontEndCheck
  split
  · rintro _ ⟨⟩
    exact h
  · rename_i n q _
    split
    · rename_i r _
      extract_lets t taken
      have ht : Formed ((taken t).touchTree (dieOf n) r.rcb) :=
        State.touchTree_wf (State.endCmd_wf (formed_popRem (State.releaseDie_wf _ _ h)))
      generalize (taken t).touchTree (dieOf n) r.rcb = u at ht ⊢
      split
      · rintro _ ⟨⟩
        exact State.refuseLaunch_wf ht
      · split
        · rename_i v e
          rintro _ ⟨⟩
          exact State.acceptLaunch_wf ht _ e
        · rintro _ ⟨⟩
          exact h
    · rintro _ ⟨⟩
      exact h

end Sys2Proof.Machine
end

section
/-! ## Memory in canonical form: the dispensers (Machine/Dispense) -/

namespace Sys2Proof.Machine

theorem State.refreshHolds_wf {s : State} {blk : BitVec 10} (h : Formed s) : Formed (s.refreshHolds blk) := by
  unfold State.refreshHolds
  dsimp only
  refine foldl_keeps Formed _ (fun u x hu => ?_) _ _ h
  split <;> split <;> exact hu

theorem State.dropHeld_wf {s : State} {lid : CoreId} (h : Formed s) : Formed (s.dropHeld lid) := by
  unfold State.dropHeld
  exact State.dropWeir_wf h

theorem State.bindCore_wf {s : State} {n : CoreId} {l : Launch} {g : Stage} {k : Nat} {im : Images} (h : Formed s) :
    Formed (s.bindCore n l g k im) := by
  have dropped := State.dropHeld_wf (lid := s.lidOf n)
    (formed_dropTcmMoorings (n := n) (State.unpin_wf (n := n) (State.detachFollowers_wf (n := n) h)))
  exact formed_updLaunch (State.invalidateCode_wf (formed_updCore (formed_saved dropped)))

theorem State.partEntries_wf {die : BitVec 4} (l : List (BitVec 32)) :
    ∀ {s : State} {k : Nat}, Formed s → ∀ t, s.partEntries die k l = some t → Formed t := by
  induction l with
  | nil =>
    intro s k h
    unfold State.partEntries
    rintro _ ⟨⟩
    exact h
  | cons a l ih =>
    intro s k h
    unfold State.partEntries
    split
    · rename_i t u e
      exact ih (State.partStore4_wf _ _ _ _ h e)
    · rintro _ ⟨⟩

theorem State.writeTable_wf {s : State} {die : BitVec 4} {g : Stage} {lids : List CoreId} (h : Formed s) :
    ∀ t, s.writeTable die g lids = some t → Formed t := by
  unfold State.writeTable
  exact State.partEntries_wf _ h

theorem State.sealStage_wf {s : State} {l : Launch} {k : Nat} {g : Stage} (h : Formed s) :
    ∀ t, s.sealStage l k g = .ok t → Formed t := by
  intro t e
  unfold State.sealStage at e
  cases hr : s.readSctr (dieOf l.by_.core) g (s.byLid g.cores).length with
  | error f => simp [hr, bind, Except.bind] at e
  | ok w =>
    cases hw : s.writeTable (dieOf l.by_.core) g ((s.byLid g.cores).map s.lidOf) with
    | none => simp [hr, hw, bind, Except.bind] at e
    | some u =>
      simp only [hr, hw, bind, Except.bind, Except.ok.injEq] at e
      subst e
      exact foldl_keeps Formed _ (fun _ _ hv => State.invalidateCode_wf (formed_updCore hv)) _ _
        (formed_updLaunch (State.writeTable_wf h _ hw))

theorem State.sealLaunch_wf {s : State} {id : Nat} (h : Formed s) : Formed (s.sealLaunch id) := by
  unfold State.sealLaunch
  split
  · exact h
  · split
    · extract_lets recv queued bound
      have hq : Formed queued :=
        foldl_keeps Formed _ (fun _ _ hu => foldl_keeps Formed _ (fun _ _ hv => formed_updCore hv) _ _ hu) _ _ h
      exact formed_updSector (formed_updLaunch hq)
    · exact h

theorem State.touchImages_wf {s : State} {die : BitVec 4} {g : Stage} (h : Formed s) :
    Formed (s.touchImages die g) := by
  unfold State.touchImages
  exact foldl_keeps Formed _ (fun _ _ hu => State.partTouch_wf _ hu) _ _ h

theorem State.bindCores_wf {s : State} {id k : Nat} {cores : List CoreId} (h : Formed s) :
    Formed (s.bindCores id k cores).1 := by
  unfold State.bindCores
  split
  · exact h
  · rename_i l _
    split
    · exact h
    · split
      · exact h
      · extract_lets read
        clear_value read
        split
        · exact State.machineCheck_wf h
        · rename_i g im
          extract_lets touched bound
          have hb : Formed bound :=
            foldl_keeps Formed _ (fun _ _ hu => State.bindCore_wf hu) _ _ (formed_updLaunch (State.touchImages_wf h))
          have ht : Formed touched := formed_updLaunch (State.touchImages_wf h)
          clear_value bound touched
          split
          · split
            · rename_i u e
              exact State.sealLaunch_wf (State.sealStage_wf hb _ e)
            · exact State.machineCheck_wf ht
          · exact State.sealLaunch_wf hb

theorem State.bindStages_wf {blk : BitVec 10} {id : Nat} {p : Stage → Bool} (k : Nat) :
    ∀ {s : State}, Formed s → Formed (s.bindStages blk id p k).1 := by
  induction k with
  | zero =>
    intro s h
    unfold State.bindStages
    exact h
  | succ k ih =>
    intro s h
    unfold State.bindStages
    split
    · rename_i t u v e
      split
      · split
        · split
          · rename_i _ v1 w1 t2 e2
            exact (formed_fst (State.bindCores_wf (formed_fst (ih h) e)) e2 : Formed w1)
        · exact (formed_fst (ih h) e : Formed u)
      · exact (formed_fst (ih h) e : Formed u)

theorem State.aimLaunch_wf {s : State} {l : Launch} {contracted : Bool} (h : Formed s) :
    Formed (s.aimLaunch l contracted) := by
  unfold State.aimLaunch
  split <;> exact h

theorem State.aim_wf {s : State} {r : Region} (h : Formed s) : Formed (s.aim r) := by
  unfold State.aim
  split
  · exact State.aimLaunch_wf h
  · exact h

theorem State.tryGang_wf {s : State} {blk : BitVec 10} {l : Launch} {contracted : Bool} (h : Formed s) :
    Formed (s.tryGang blk l contracted) := by
  unfold State.tryGang
  dsimp only
  split
  · split
    · split
      · exact h
      · split
        · exact State.bindCores_wf h
        · exact h
    · exact h
  · exact h

theorem State.bindContracts_wf {s : State} {blk : BitVec 10} (h : Formed s) : Formed (s.bindContracts blk) := by
  unfold State.bindContracts
  refine foldl_keeps Formed _ (fun u x hu => ?_) _ _ h
  refine State.bindStages_wf _ ?_
  split
  · exact State.tryGang_wf (State.aimLaunch_wf hu)
  · exact State.aimLaunch_wf hu

theorem State.serveLevel_wf {blk : BitVec 10} {level : Nat} (fuel : Nat) :
    ∀ {s : State} {tried : List Region}, Formed s → Formed (s.serveLevel blk level fuel tried) := by
  induction fuel with
  | zero => exact fun h => h
  | succ fuel ih =>
    intro s tried h
    unfold State.serveLevel
    extract_lets aimed ok rich
    have ha : Formed aimed := foldl_keeps Formed _ (fun _ _ hu => State.aim_wf hu) _ _ h
    split
    extract_lets drawn
    have hd : Formed drawn := by
      unfold drawn
      split
      · exact ha
      · exact formed_updBlock ha
    split
    · exact hd
    · extract_lets ganged bound
      exact ih (State.bindStages_wf _ (State.tryGang_wf hd))

theorem State.bindRound_wf {s : State} {blk : BitVec 10} (h : Formed s) : Formed (s.bindRound blk) := by
  unfold State.bindRound
  dsimp only
  split
  · split
    · exact State.tryGang_wf (State.tryGang_wf h)
    · exact foldl_keeps Formed _ (fun _ _ hu => State.serveLevel_wf _ hu) _ _ (State.bindContracts_wf
      (State.tryGang_wf (State.tryGang_wf h)))
  · split
    · exact h
    · exact foldl_keeps Formed _ (fun _ _ hu => State.serveLevel_wf _ hu) _ _ (State.bindContracts_wf h)

theorem State.giveRecord_wf {s : State} {blk : BitVec 10} {n : CoreId} (h : Formed s) :
    Formed (s.giveRecord blk n) := by
  unfold State.giveRecord
  split
  · exact h
  · split
    · split <;> exact h
    · exact h

theorem execDispenserRound_wf {blk : BitVec 10} {s : State} (h : Formed s) :
    ∀ t, execDispenserRound blk s = .next t → Formed t := by
  have bound : Formed ((s.refreshHolds blk).bindRound blk) := State.bindRound_wf (State.refreshHolds_wf h)
  unfold execDispenserRound
  generalize (s.refreshHolds blk).bindRound blk = u at bound ⊢
  generalize blockCores blk = cores
  rintro _ ⟨⟩
  exact foldl_keeps Formed _ (fun _ _ hu => State.giveRecord_wf hu) _ _ bound

theorem State.placeFrom_wf {l : Launch} {g : Stage} (fuel : Nat) :
    ∀ {s : State} {i : Nat}, Formed s → Formed (s.placeFrom l g fuel i) := by
  induction fuel with
  | zero => exact fun h => h
  | succ fuel ih =>
    intro s i h
    unfold State.placeFrom
    split
    · exact h
    · extract_lets n blk r next
      have hn : ∀ t, next = some t → Formed t := by
        unfold next
        split
        · rintro _ ⟨⟩
          exact h
        · exact State.weirAdd_wf h
      clear_value next
      split
      · exact ih (formed_updLaunch (hn _ rfl))
      · exact h

theorem State.placeRecords_wf {s : State} {id : Nat} (h : Formed s) : Formed (s.placeRecords id) := by
  unfold State.placeRecords
  dsimp only
  split
  · split
    · split
      · exact State.finishLaunch_wf (State.placeFrom_wf _ h)
      · exact State.placeFrom_wf _ h
    · exact h
  · exact h

theorem execStageRelease_wf {l : BitVec 32} {s : State} (h : Formed s) :
    ∀ t, execStageRelease l s = .next t → Formed t := by
  unfold execStageRelease
  split
  · split
    · rintro _ ⟨⟩
      exact State.placeRecords_wf h
    · rintro _ ⟨⟩
      exact h
  · rintro _ ⟨⟩
    exact h

theorem State.cleanPages_wf {s : State} {cl : BitVec 14} {dom : BitVec 16} (h : Formed s) :
    Formed (s.cleanPages cl dom) := by
  unfold State.cleanPages
  refine foldl_keeps Formed _ (fun u x hu => ?_) _ _ h
  split
  · split
    · exact State.writePage_wf _ _ _ hu
    · exact hu
  · exact hu

theorem State.dropPages_wf {cl : BitVec 14} {dom : BitVec 16} (k : Nat) :
    ∀ {s : State}, Formed s → Formed (s.dropPages cl dom k) := by
  induction k with
  | zero =>
    intro s h
    unfold State.dropPages
    exact h
  | succ k ih =>
    intro s h
    unfold State.dropPages
    split
    · exact ih (State.evictFrame_wf _ _ _ h)
    · exact h

theorem State.unbindCore_wf {s : State} {n : CoreId} (h : Formed s) : Formed (s.unbindCore n) := by
  unfold State.unbindCore
  exact State.cleanPages_wf (State.dropPages_wf _ h)

theorem State.unbindLaunch_wf {s : State} {x : Launch} (h : Formed s) : Formed (s.unbindLaunch x) := by
  unfold State.unbindLaunch
  exact State.dropWeir_wf (foldl_keeps Formed _ (fun _ _ hu => State.unbindCore_wf hu) _ _ h)

theorem execUnbind_wf {l : BitVec 32} {s : State} (h : Formed s) : ∀ t, execUnbind l s = .next t → Formed t := by
  unfold execUnbind
  split
  · rintro _ ⟨⟩
    split
    · exact State.unbindLaunch_wf h
    · exact h
  · rintro _ ⟨⟩
    exact h

theorem State.supervisorUnbind_wf {s : State} {l : Nat} (h : Formed s) : Formed (s.supervisorUnbind l) := by
  unfold State.supervisorUnbind
  split
  · split
    · exact State.unbindLaunch_wf h
    · exact h
  · exact h

theorem State.decideGang_wf {s : State} {g : Nat × Nat} (h : Formed s) : Formed (s.decideGang g) := by
  unfold State.decideGang
  split
  · exact h
  · refine formed_gangHeld ?_
    split
    · exact State.refreshHolds_wf h
    · exact h

theorem execGangBarrierNotice_wf {x : BitVec 6} {s : State} (h : Formed s) :
    ∀ t, execGangBarrierNotice x s = .next t → Formed t := by
  unfold execGangBarrierNotice
  split
  · rintro _ ⟨⟩
    exact h
  · dsimp only
    rintro _ ⟨⟩
    exact foldl_keeps Formed _ (fun _ _ hu => State.decideGang_wf hu) _ _ h

end Sys2Proof.Machine
end

section
/-! ## Memory in canonical form: contracts (Machine/Contracts) -/

namespace Sys2Proof.Machine

theorem State.activate_wf {s : State} {n : CoreId} {c : Contract} {src : CoreId} {seq : Word} (h : Formed s) :
    Formed (s.activate n c src seq) := by
  unfold State.activate
  exact State.selectNext_wf h

theorem State.startPeriod_wf {s : State} {a : Arr} (h : Formed s) : Formed (s.startPeriod a) := by
  unfold State.startPeriod
  split
  · exact h
  · split
    · exact h
    · exact foldl_keeps Formed _ (fun _ _ hu => State.activate_wf hu) _ _ h

theorem State.takeMsg_wf {s : State} {n : CoreId} {x : Byte} (h : Formed s) :
    ∀ t, s.takeMsg n x = some t → Formed t.1 := by
  unfold State.takeMsg
  split
  · rintro _ ⟨⟩
  · split
    · split
      · rintro _ ⟨⟩
        exact State.ackTo_wf h
      · rintro _ ⟨⟩
    · rintro _ ⟨⟩

theorem execPeriodRelease_wf {n : CoreId} {s : State} (h : Formed s) :
    ∀ t, execPeriodRelease n s = .next t → Formed t := by
  unfold execPeriodRelease
  split
  · rename_i t u v e
    rintro _ ⟨⟩
    exact State.startPeriod_wf (State.takeMsg_wf h _ e)
  · rintro _ ⟨⟩
    exact h

theorem execBudgetOverrun_wf {n : CoreId} {idx : BitVec 3} {rt : BitVec 32} {s : State} (h : Formed s) :
    ∀ t, execBudgetOverrun n idx rt s = .next t → Formed t := by
  unfold execBudgetOverrun
  dsimp only
  split
  · rintro _ ⟨⟩
    split
    · exact State.asyncTrap_wf h
    · exact h
  · rintro _ ⟨⟩
    exact h

theorem execLoadExchange_wf {n : CoreId} {s : State} (h : Formed s) :
    ∀ t, execLoadExchange n s = .next t → Formed t := by
  unfold execLoadExchange
  rintro _ ⟨⟩
  exact foldl_keeps Formed _ (fun _ _ hu => formed_postOwn hu) _ _ h

theorem State.takeYoungest_wf {s : State} {n : CoreId} {p : BitVec 3} (h : Formed s) :
    ∀ t, s.takeYoungest n p = some t → Formed t.1 := by
  unfold State.takeYoungest
  dsimp only
  split
  · split
    · split
      · rintro _ ⟨⟩
        exact State.weirFell_wf h
      · rintro _ ⟨⟩
    · rintro _ ⟨⟩
  · split
    · intro _ eq
      obtain ⟨w, ew, rfl⟩ := Option.map_eq_some_iff.mp eq
      exact h
    · rintro _ ⟨⟩

theorem State.takeLowest_wf {n : CoreId} (k : Nat) :
    ∀ {s : State} {i : Nat}, Formed s → ∀ t, s.takeLowest n k i = some t → Formed t.1 := by
  induction k with
  | zero =>
    intro s i h
    unfold State.takeLowest
    rintro _ ⟨⟩
  | succ k ih =>
    intro s i h
    unfold State.takeLowest
    split
    · rename_i t u e
      rintro _ ⟨⟩
      exact State.takeYoungest_wf h _ e
    · exact ih h

theorem State.moveArrivals_wf {n : CoreId} {m : CoreId} (k : Nat) :
    ∀ {s : State}, Formed s → Formed (s.moveArrivals n m k) := by
  induction k with
  | zero =>
    intro s h
    unfold State.moveArrivals
    exact h
  | succ k ih =>
    intro s h
    unfold State.moveArrivals
    split
    · rename_i t u v e
      exact ih ((State.takeLowest_wf _ h _ e : Formed u))
    · exact h

theorem execLoadFigure_wf {n : CoreId} {s : State} (h : Formed s) : ∀ t, execLoadFigure n s = .next t → Formed t := by
  unfold execLoadFigure
  split
  · rintro _ ⟨⟩
    exact h
  · rename_i t u v e
    dsimp only
    split
    · rintro _ ⟨⟩
      exact State.moveArrivals_wf _ (State.takeMsg_wf h _ e)
    · rintro _ ⟨⟩
      exact State.takeMsg_wf h _ e

end Sys2Proof.Machine
end

section
/-! ## Memory in canonical form: events of a core (Machine/EventsCore) -/

namespace Sys2Proof.Machine

theorem execIllegalInstruction_wf {a : Word} {s : State} (h : Formed s) :
    ∀ t, execIllegalInstruction a s = .next t → Formed t := by
  unfold execIllegalInstruction
  rintro _ ⟨⟩
  exact State.stop_wf h

theorem execFetchFault_wf {cause : BitVec 5} {a : Word} {s : State} (h : Formed s) :
    ∀ t, execFetchFault cause a s = .next t → Formed t := by
  unfold execFetchFault
  rintro _ ⟨⟩
  exact State.stop_wf h

theorem State.hold_wf {s : State} {n : CoreId} {t : Transit} {a : Arr} {p : BitVec 3} (h : Formed s) :
    ∀ r, s.hold n t a p = some r → Formed r := by
  unfold State.hold
  dsimp only
  split
  · exact State.weirAdd_wf h
  · rintro _ ⟨⟩
    exact h

theorem State.keepArr_wf {s : State} {n : CoreId} {t : Transit} {a : Arr} (h : Formed s) :
    ∀ r, s.keepArr n t a = some r → Formed r := by
  unfold State.keepArr
  dsimp only
  split
  · rintro _ ⟨⟩
    exact h
  · split
    · rintro _ ⟨⟩
      exact State.asyncTrap_wf h
    · exact State.hold_wf h

theorem State.accept_wf {s : State} {n : CoreId} {t : Transit} {a : Arr} (h : Formed s) :
    ∀ r, s.accept n t a = some r → Formed r := by
  unfold State.accept
  dsimp only
  split
  · rintro _ ⟨⟩
    exact State.push_wf h
  · intro _ eq
    obtain ⟨w, ew, rfl⟩ := Option.map_eq_some_iff.mp eq
    exact State.selectNext_wf (State.keepArr_wf h _ ew)

theorem State.acceptOne_wf {s : State} {n : CoreId} (h : Formed s) : Formed (s.acceptOne n) := by
  unfold State.acceptOne
  extract_lets u
  have hu : Formed u := State.atBoundary_wf h
  clear_value u
  split
  · exact State.selectNext_wf hu
  · split
    · rename_i v e
      exact State.ackTo_wf (State.accept_wf (formed_takeNi hu) _ e)
    · exact State.selectNext_wf hu

theorem State.acceptLoose_wf {s : State} {n : CoreId} (h : Formed s) : Formed (s.acceptLoose n).1 := by
  unfold State.acceptLoose
  split
  · exact h
  · extract_lets b p q
    split
    · split
      · rename_i v e
        exact State.ackTo_wf (State.keepArr_wf (formed_takeNi h) _ e)
      · exact h
    · exact formed_weir (formed_updCore (formed_takeNi h))

theorem State.settleLoose_wf {s : State} {n : CoreId} {late : Option (Transit × WeirEntry × Nat)} (h : Formed s) :
    Formed (s.settleLoose n late) := by
  unfold State.settleLoose
  extract_lets
  split
  · exact h
  · split
    · exact State.ackTo_wf h
    · split
      · exact h
      · exact State.ackTo_wf (State.quotaTrap_wf h)

theorem execArrivalAccept_wf {n : CoreId} {s : State} (h : Formed s) :
    ∀ t, execArrivalAccept n s = .next t → Formed t := by
  unfold execArrivalAccept
  split
  · rintro _ ⟨⟩
    exact h
  · rintro _ ⟨⟩
    exact State.acceptOne_wf h

theorem execStallWatchdog_wf {n : CoreId} {cc : BitVec 40} {s : State} (h : Formed s) :
    ∀ t, execStallWatchdog n cc s = .next t → Formed t := by
  unfold execStallWatchdog
  dsimp only
  split
  · rintro _ ⟨⟩
    exact h
  · split
    · rintro _ ⟨⟩
      exact h
    · split
      · rintro _ ⟨⟩
        exact State.takeTrap_wf h
      · rintro _ ⟨⟩
        exact h

theorem execSupervisorRunLimit_wf {n : CoreId} {cc : BitVec 16} {s : State} (h : Formed s) :
    ∀ t, execSupervisorRunLimit n cc s = .next t → Formed t := by
  unfold execSupervisorRunLimit
  dsimp only
  split
  · rintro _ ⟨⟩
    exact h
  · split
    · rintro _ ⟨⟩
      exact State.nestedTrap_wf h
    · rintro _ ⟨⟩
      exact h

theorem execChannelEntrySend_wf {n : CoreId} {q : QReg} {s : State} (h : Formed s) :
    ∀ t, execChannelEntrySend n q s = .next t → Formed t := by
  unfold execChannelEntrySend
  dsimp only
  split
  · rintro _ ⟨⟩
    exact h
  · split
    · rintro _ ⟨⟩
      exact h
    · rintro _ ⟨⟩
      split
      · exact State.releaseDie_wf _ _ h
      · exact h

theorem State.returnAllowance_wf {s : State} {src : Option (CoreId × QReg)} (h : Formed s) :
    Formed (s.returnAllowance src) := by
  unfold State.returnAllowance
  dsimp only
  split
  · split <;> exact h
  · exact h

theorem execChannelEntryArrive_wf {k : BitVec 16} {s : State} (h : Formed s) :
    ∀ t, execChannelEntryArrive k s = .next t → Formed t := by
  unfold execChannelEntryArrive
  split
  · rintro _ ⟨⟩
    exact h
  · split
    · rintro _ ⟨⟩
      exact h
    · split
      · rintro _ ⟨⟩
        exact h
      · dsimp only
        split
        · rintro _ ⟨⟩
          exact State.returnAllowance_wf h
        · split
          · rintro _ ⟨⟩
            exact h
          · split
            · rintro _ ⟨⟩
              exact h
            · rintro _ ⟨⟩
              exact formed_getD h (State.weirAdd_wf h)

theorem State.takeEntry_wf {s : State} {n : CoreId} {q : QReg} (h : Formed s) : Formed (s.takeEntry n q) := by
  unfold State.takeEntry
  extract_lets k
  split
  · exact h
  · split
    · exact h
    · refine State.returnAllowance_wf ?_
      refine State.acquireOwed_wf ?_
      split
      · split
        · exact State.acquireDie_wf _ _ h
        · exact h
      · split
        · exact State.acquireDie_wf _ _ h
        · exact h

theorem execAllowanceReturn_wf {n : CoreId} {q : QReg} {s : State} (h : Formed s) :
    ∀ t, execAllowanceReturn n q s = .next t → Formed t := by
  unfold execAllowanceReturn
  rintro _ ⟨⟩
  split
  · exact State.takeEntry_wf h
  · exact h

theorem State.queueReadNow_wf {s : State} {q : QReg} {v : VReg} (h : Formed s) :
    Ends Formed (s.queueReadNow q v) := by
  unfold State.queueReadNow
  refine .demand h ?_
  refine .demand h ?_
  split
  · exact .stop h
  · exact .ok (State.takeEntry_wf h)

theorem State.queueWriteNow_wf {s : State} {q : QReg} {v : VReg} (h : Formed s) :
    Ends Formed (s.queueWriteNow q v) := by
  unfold State.queueWriteNow
  dsimp only
  refine .demand h ?_
  refine .demand h ?_
  refine .demand h ?_
  refine .bind (State.drain_wf h) ?_
  intro t ht
  refine .ok ?_
  split
  · exact State.releaseDie_wf _ _ ht
  · exact ht

theorem State.queueRun_wf {s : State} (h : Formed s) : Formed s.queueRun := by
  unfold State.queueRun
  split
  · exact h
  · rename_i op _
    have ran : Ends Formed (if op.write then s.queueWriteNow op.q op.v else s.queueReadNow op.q op.v) := by
      split
      · exact State.queueWriteNow_wf h
      · exact State.queueReadNow_wf h
    generalize (if op.write then s.queueWriteNow op.q op.v else s.queueReadNow op.q op.v) = r at ran ⊢
    cases ran with
    | ok ht => exact ht
    | stop ht => exact State.stop_wf ht

theorem State.queueAccess_wf {s : State} {op : QueueOp} (h : Formed s) : Formed (s.queueAccess op) := by
  unfold State.queueAccess
  extract_lets level parks
  split
  · exact h
  · split
    · exact State.atBoundary_wf h
    · split <;> exact State.queueRun_wf (State.atBoundary_wf h)

theorem State.queueRead_wf {s : State} {q : QReg} {v : VReg} (h : Formed s) : Formed (s.queueRead q v) := by
  unfold State.queueRead
  exact State.queueAccess_wf h

theorem State.queueWrite_wf {s : State} {q : QReg} {v : VReg} (h : Formed s) : Formed (s.queueWrite q v) := by
  unfold State.queueWrite
  exact State.queueAccess_wf h

end Sys2Proof.Machine
end

section
/-! ## Memory in canonical form: events of the fabric (Machine/EventsFabric) -/

namespace Sys2Proof.Machine

theorem State.amendStep_wf {s : State} {lid : CoreId} {e : BitVec 4} {ended : Option Byte} (h : Formed s) :
    Formed (s.amendStep lid e ended) := by
  unfold State.amendStep
  extract_lets
  split
  · exact h
  · split
    · split <;> exact h
    · exact h

theorem State.closeOf_wf {s : State} {t : Transit} {fault : Bool} (h : Formed s) : Formed (s.closeOf t fault) := by
  unfold State.closeOf
  split
  · split
    · exact State.closeCmd_wf h
    · exact h
  · exact h

theorem State.dropAbsent_wf {s : State} {t : Transit} (h : Formed s) : Formed (s.dropAbsent t) := by
  unfold State.dropAbsent
  split
  · exact State.amendStep_wf (State.closeOf_wf (State.ackTo_wf h))
  · exact State.ackTo_wf h

theorem execDieEntryResolve_wf {k : BitVec 16} {s : State} (h : Formed s) :
    ∀ t, execDieEntryResolve k s = .next t → Formed t := by
  unfold execDieEntryResolve
  split
  · rintro _ ⟨⟩
    exact h
  · dsimp only
    split
    · rintro _ ⟨⟩
      exact h
    · split
      · split
        · rintro _ ⟨⟩
          exact h
        · rintro _ ⟨⟩
          exact h
      · split
        · rintro _ ⟨⟩
          exact h
        · split
          · rintro _ ⟨⟩
            exact State.dropAbsent_wf h
          · rintro _ ⟨⟩
            exact State.closeOf_wf h

theorem execMovedRedirect_wf {n : CoreId} {s : State} (h : Formed s) :
    ∀ t, execMovedRedirect n s = .next t → Formed t := by
  unfold execMovedRedirect
  dsimp only
  split
  · rintro _ ⟨⟩
    exact h
  · split
    · rintro _ ⟨⟩
      exact h
    · split
      · rintro _ ⟨⟩
        exact h
      · rintro _ ⟨⟩
        exact State.dropAbsent_wf h

theorem State.refillMooring_wf {s : State} {m : Mooring} (h : Formed s) : Formed (s.refillMooring m) := by
  unfold State.refillMooring
  extract_lets pa m1 p
  split
  · exact State.syncServe_wf h
  · exact h

theorem State.refill_wf {s : State} {e : WeirEntry} (h : Formed s) : ∀ t, s.refill e = some t → Formed t := by
  unfold State.refill
  split
  · dsimp only
    split
    · rintro _ ⟨⟩
      exact State.selectNext_wf h
    · rintro _ ⟨⟩
  · dsimp only
    split
    · rintro _ ⟨⟩
      exact State.refillMooring_wf h
    · rintro _ ⟨⟩
  · split
    · rintro _ ⟨⟩
      exact State.refillMooring_wf h
    · rintro _ ⟨⟩
  · split
    · rintro _ ⟨⟩
      exact h
    · rintro _ ⟨⟩
  · split
    · rintro _ ⟨⟩
      exact h
    · rintro _ ⟨⟩
  · dsimp only
    split
    · rintro _ ⟨⟩
      exact h
    · rintro _ ⟨⟩
  · rintro _ ⟨⟩

theorem execWeirRefill_wf {k : BitVec 16} {s : State} (h : Formed s) :
    ∀ t, execWeirRefill k s = .next t → Formed t := by
  unfold execWeirRefill
  split
  · rintro _ ⟨⟩
    exact h
  · split
    · rintro _ ⟨⟩
      exact h
    · split
      · rename_i u e
        rintro _ ⟨⟩
        exact State.weirFell_wf (State.refill_wf (formed_weir h) _ e)
      · rintro _ ⟨⟩
        exact h

theorem execWeirFullReply_wf {n : CoreId} {s : State} (h : Formed s) :
    ∀ t, execWeirFullReply n s = .next t → Formed t := by
  unfold execWeirFullReply
  split
  · rintro _ ⟨⟩
    exact h
  · split
    · dsimp only
      rintro _ ⟨⟩
      exact h
    · rintro _ ⟨⟩
      exact h

theorem State.wireAck_wf {s : State} {k : Nat} (h : Formed s) : Formed (s.wireAck k) := by
  unfold State.wireAck
  split
  · exact State.ackTo_wf h
  · exact h

theorem State.wireAbsent_wf {s : State} {k : Nat} (h : Formed s) : Formed (s.wireAbsent k) := by
  unfold State.wireAbsent
  split
  · exact State.dropAbsent_wf h
  · exact h

theorem State.wireFull_wf {s : State} {k : Nat} (h : Formed s) : Formed (s.wireFull k) := by
  unfold State.wireFull
  split <;> exact h

theorem State.remoteIn_wf {s : State} {t : Transit} (h : Formed s) : Formed (s.remoteIn t) := by
  unfold State.remoteIn
  split
  · split <;> exact h
  · exact h

theorem execSettleFlit_wf {port : BitVec 5} {flit : BitVec 256} {s : State} (h : Formed s) :
    ∀ t, execSettleFlit port flit s = .next t → Formed t := by
  unfold execSettleFlit
  dsimp only
  split
  · rintro _ ⟨⟩
    exact h
  · rintro _ ⟨⟩
    split <;> split <;> exact h

theorem State.noPartition_wf {s : State} (h : Formed s) : Formed s.noPartition := by
  unfold State.noPartition
  split
  · exact State.machineCheck_wf h
  · exact h

theorem State.touchPartitions_wf {s : State} (h : Formed s) : Formed s.touchPartitions := by
  unfold State.touchPartitions
  exact foldl_keeps Formed _ (fun _ _ hu => State.partTouch_wf _ hu) _ _ h

theorem State.recallWord_wf {s : State} {pa : Nat} (h : Formed s) : Formed (s.recallWord pa) := by
  unfold State.recallWord
  exact foldl_keeps Formed _ (fun _ _ hu => State.evictCopy_wf _ _ _ hu) _ _ h

theorem State.hdm_wf {s : State} {p : Partition} {off : Nat} (h : Formed s) : Formed (s.hdm p off).1 := by
  unfold State.hdm
  extract_lets va
  split
  · exact h
  · split
    · rename_i _ t u v e
      exact (formed_fst (State.translate_wf h) e : Formed u)
    · rename_i _ t u v w e
      exact (formed_fst (State.translate_wf h) e : Formed u)

theorem execHostMemAccess_wf {ld : BitVec 4} {off : BitVec 56} {write : Bool} {data : Word} {s : State}
    (h : Formed s) : ∀ t, execHostMemAccess ld off write data s = .next t → Formed t := by
  unfold execHostMemAccess
  split
  · rintro _ ⟨⟩
    exact State.noPartition_wf h
  · dsimp only
    split
    · rename_i v w e1
      rintro _ ⟨⟩
      exact State.machineCheck_wf (formed_fst (State.hdm_wf (State.touchPartitions_wf h)) e1)
    · rename_i v w t1 e1
      split
      · rintro _ ⟨⟩
        exact formed_fst (State.hdm_wf (State.touchPartitions_wf h)) e1
      · split
        · rintro _ ⟨⟩
          exact State.homeStore_wf _ _ _ _ (State.recallWord_wf (formed_fst (State.hdm_wf (State.touchPartitions_wf h)) e1))
        · split
          · rintro _ ⟨⟩
            exact (formed_fst (State.hdm_wf (State.touchPartitions_wf h)) e1 : Formed w)
          · rintro _ ⟨⟩
            rw [State.touchLine_mem]
            exact (formed_fst (State.hdm_wf (State.touchPartitions_wf h)) e1 : Formed w)

theorem execHostRequestTake_wf {ld : BitVec 4} {w : BitVec 6} {s : State} (h : Formed s) :
    ∀ t, execHostRequestTake ld w s = .next t → Formed t := by
  unfold execHostRequestTake
  extract_lets k u at0 src head
  have hu : Formed u := State.touchPartitions_wf h
  clear_value u
  split
  · rintro _ ⟨⟩
    exact h
  · split
    · rintro _ ⟨⟩
      exact State.noPartition_wf h
    · rename_i p _
      split
      · rintro _ ⟨⟩
        exact State.machineCheck_wf hu
      · rename_i ws _
        extract_lets at_ st plen sent answered moved
        have hs : Formed sent := by
          unfold sent
          split
          · exact formed_postOwn hu
          · exact hu
        have ha : Formed answered := by
          unfold answered
          split
          · rename_i v pa e
            exact State.homeStore_wf _ _ _ _ (State.recallWord_wf (formed_fst (State.hdm_wf hs) e))
          · rename_i v e
            exact formed_fst (State.hdm_wf hs) e
        have hm : Formed moved := formed_updWindow ha
        rintro _ ⟨⟩
        split
        · exact formed_msix hm
        · exact hm

theorem State.systemStore_wf (l : List Word) :
    ∀ {s : State} {k : Nat}, Formed s → ∀ t, s.systemStore k l = some t → Formed t := by
  induction l with
  | nil =>
    intro s k h
    unfold State.systemStore
    rintro _ ⟨⟩
    exact h
  | cons a l ih =>
    intro s k h
    unfold State.systemStore
    split
    · rename_i t u v e
      exact ih (State.homeStore_wf _ _ _ _ (State.recallWord_wf (formed_fst (State.translate_wf h) e)))
    · rintro _ ⟨⟩

theorem execRcbWindowGo_wf {s : State} (h : Formed s) : ∀ t, execRcbWindowGo s = .next t → Formed t := by
  unfold execRcbWindowGo
  dsimp only
  split
  · rintro _ ⟨⟩
    exact h
  · split
    · rintro _ ⟨⟩
      exact h
    · split
      · rintro _ ⟨⟩
        exact State.machineCheck_wf h
      · rename_i _ _ t u e
        rintro _ ⟨⟩
        exact (State.systemStore_wf _ h _ e : Formed u)

end Sys2Proof.Machine
end

section
/-! ## Memory in canonical form: events of the encoder and the host (Machine/EventsMedia) -/

namespace Sys2Proof.Machine

theorem State.encWords_wf {u : EngUser} (i : Nat) :
    ∀ {s : State} {k : Nat}, Formed s → Ends (Formed ·.1) (s.encWords u k i) := by
  induction i with
  | zero =>
    intro s k h
    unfold State.encWords
    exact .ok h
  | succ i ih =>
    intro s k h
    unfold State.encWords
    refine .bind (State.engRead_wf h) ?_
    rintro ⟨t, x⟩ ht
    dsimp only
    refine .bind (ih ht) ?_
    rintro ⟨u, x⟩ hu
    exact .ok hu

theorem State.encStore_wf {u : EngUser} (l : List Word) :
    ∀ {s : State} {k : Nat}, Formed s → Ends Formed (s.encStore u k l) := by
  induction l with
  | nil =>
    intro s k h
    unfold State.encStore
    exact .ok h
  | cons a l ih =>
    intro s k h
    unfold State.encStore
    refine .bind (State.engWrite_wf h) ?_
    intro t ht
    exact ih ht

theorem State.failEnc_wf {s : State} {die : BitVec 4} {j : EncJob} {f : EngFault} {rows : Nat} (h : Formed s) :
    Formed (s.failEnc die j f rows) := by
  unfold State.failEnc
  split <;> exact h

theorem State.endEnc_wf {s : State} {die : BitVec 4} {j : EncJob} {len status wptr : Nat} (h : Formed s) :
    Formed (s.endEnc die j len status wptr) := by
  unfold State.endEnc
  exact State.release_wf h

theorem execEncQueueAccept_wf {n : CoreId} {s : State} (h : Formed s) :
    ∀ t, execEncQueueAccept n s = .next t → Formed t := by
  unfold execEncQueueAccept
  split
  · rintro _ ⟨⟩
    exact h
  · split
    · split
      · dsimp only
        rintro _ ⟨⟩
        exact State.endCmd_wf h
      · rintro _ ⟨⟩
        exact h
    · rintro _ ⟨⟩
      exact h

theorem State.jobWords_wf {u : EngUser} (i : Nat) :
    ∀ {s : State} {k : Nat}, Formed s → Ends (Formed ·.1) (s.jobWords u k i) := by
  induction i with
  | zero =>
    intro s k h
    unfold State.jobWords
    exact .ok h
  | succ i ih =>
    intro s k h
    unfold State.jobWords
    refine .bind (State.engRead_wf h) ?_
    rintro ⟨t, x⟩ ht
    dsimp only
    refine .bind (ih ht) ?_
    rintro ⟨u, x⟩ hu
    exact .ok hu

theorem State.readJob_wf {s : State} {j : EncJob} (h : Formed s) : Ends (Formed ·.1) (s.readJob j) := by
  unfold State.readJob
  refine .bind (State.jobWords_wf _ h) ?_
  rintro ⟨t, x⟩ ht
  dsimp only
  refine .bind (State.encWords_wf _ ht) ?_
  rintro ⟨u, x⟩ hu
  exact .ok hu

theorem execEncJobStart_wf {die : BitVec 4} {s : State} (h : Formed s) :
    ∀ t, execEncJobStart die s = .next t → Formed t := by
  unfold execEncJobStart
  split
  · dsimp only
    split
    · rename_i t1 u1 v1 e2
      rintro _ ⟨⟩
      split
      · exact Ends.stopped (State.readJob_wf h) e2
      · exact State.failEnc_wf ((Ends.stopped (State.readJob_wf h) e2 : Formed u1))
    · rename_i t1 u1 v1 w1 e2
      split
      · rintro _ ⟨⟩
        exact (Ends.answer_fst (State.readJob_wf h) e2 : Formed u1)
      · rintro _ ⟨⟩
        exact State.failEnc_wf ((Ends.answer_fst (State.readJob_wf h) e2 : Formed u1))
  · rintro _ ⟨⟩
    exact h

theorem State.readLines_wf {j : EncJob} {base : Nat} (i : Nat) :
    ∀ {s : State} {k : Nat}, Formed s → Ends (Formed ·.1) (s.readLines j base k i) := by
  induction i with
  | zero =>
    intro s k h
    unfold State.readLines
    exact .ok h
  | succ i ih =>
    intro s k h
    unfold State.readLines
    refine .bind (State.encWords_wf _ h) ?_
    rintro ⟨t, x⟩ ht
    dsimp only
    refine .bind (ih ht) ?_
    rintro ⟨u, x⟩ hu
    exact .ok hu

theorem State.readBody_wf {s : State} {j : EncJob} {k : Nat} (h : Formed s) : Ends (Formed ·.1) (s.readBody j k) := by
  unfold State.readBody
  refine .bind (State.readLines_wf _ h) ?_
  rintro ⟨t, x⟩ ht
  dsimp only
  refine .bind (State.readLines_wf _ ht) ?_
  rintro ⟨u, x⟩ hu
  exact .ok hu

theorem State.readEdge_wf {s : State} {j : EncJob} {k : Nat} (h : Formed s) : Ends (Formed ·.1) (s.readEdge j k) := by
  unfold State.readEdge
  refine .bind (State.readLines_wf _ h) ?_
  rintro ⟨t, x⟩ ht
  dsimp only
  refine .bind (State.readLines_wf _ ht) ?_
  rintro ⟨u, x⟩ hu
  exact .ok hu

theorem State.markInit_wf {s : State} {r : EncRun} (h : Formed s) : Ends Formed (s.markInit r) := by
  unfold State.markInit
  split
  · exact .ok h
  · exact State.engWrite_wf h

theorem State.dropEnc_wf {s : State} {die : BitVec 4} {r : EncRun} {status : Nat} (h : Formed s) :
    Formed (s.dropEnc die r status) := by
  unfold State.dropEnc
  split
  · rename_i t u e
    exact State.endEnc_wf (Ends.answer (State.markInit_wf h) e)
  · rename_i t u v e
    exact State.failEnc_wf (Ends.stopped (State.markInit_wf h) e)

theorem State.takeRow_wf {s : State} {die : BitVec 4} {r : EncRun} {w : Word} (h : Formed s) :
    Formed (s.takeRow die r w) := by
  unfold State.takeRow
  extract_lets j u last edge
  have hu : Formed u := State.acquireDie_wf _ _ h
  have he : Ends (Formed ·.1) edge := by
    unfold edge
    split
    · exact .ok hu
    · exact State.readEdge_wf hu
  clear_value u edge
  split
  · exact State.failEnc_wf hu
  · split
    · exact State.dropEnc_wf hu
    · split
      · exact State.failEnc_wf (he.stopped rfl)
      · rename_i v e
        extract_lets body
        have hb : Ends (Formed ·.1) body := by
          unfold body
          refine .bind (State.readBody_wf (he.answer_fst rfl)) ?_
          rintro ⟨w, b⟩ hw
          dsimp only
          split
          · refine .bind (State.readEdge_wf hw) ?_
            rintro ⟨x, t⟩ hx
            exact .ok hx
          · exact .ok hw
        clear_value body
        split
        · exact State.failEnc_wf (hb.stopped rfl)
        · exact formed_updRun (hb.answer_fst rfl)

theorem State.issueRow_wf {s : State} {die : BitVec 4} {r : EncRun} (h : Formed s) :
    Ends (∀ t ∈ ·, Formed t) (s.issueRow die r) := by
  unfold State.issueRow
  extract_lets j a n
  split
  · exact .stop h
  · refine .bind (Ends.lift (State.checkGlobal_wf h)) ?_
    rintro ⟨t, x⟩ ht
    have settled : Formed ((t.settle die x.loc).updRun die fun y => { y with moored := true, asked := false }) :=
      formed_updRun (State.settle_wf _ _ _ ht)
    exact .ok fun u hu => State.syncArrive_wf settled u hu

theorem execEncRowReady_wf {die : BitVec 4} {s : State} (h : Formed s) :
    ∀ t, execEncRowReady die s = .next t → Formed t := by
  unfold execEncRowReady
  split
  · rintro _ ⟨⟩
    exact h
  · rename_i r _
    split
    · rintro _ ⟨⟩
      exact h
    · extract_lets issued
      have hi : Ends (∀ t ∈ ·, Formed t) issued := by
        unfold issued
        split
        · exact .ok fun _ ht => Option.some.inj ht ▸ h
        · exact State.issueRow_wf h
      clear_value issued
      split
      · rintro _ ⟨⟩
        exact State.failEnc_wf (hi.stopped rfl)
      · rintro _ ⟨⟩
        exact formed_updRun h
      · have hu := hi.answer rfl _ rfl
        split
        · split <;> rintro _ ⟨⟩
          · exact State.takeRow_wf hu
          · exact hu
        · rintro _ ⟨⟩
          exact hu

theorem State.cancelEnc_wf {s : State} {die : BitVec 4} (h : Formed s) : Formed (s.cancelEnc die) := by
  unfold State.cancelEnc
  exact State.dropWeir_wf h

theorem execEncRowTimeout_wf {die : BitVec 4} {rt : BitVec 32} {s : State} (h : Formed s) :
    ∀ t, execEncRowTimeout die rt s = .next t → Formed t := by
  unfold execEncRowTimeout
  split
  · rintro _ ⟨⟩
    exact h
  · split
    · rintro _ ⟨⟩
      exact h
    · dsimp only
      split
      · rintro _ ⟨⟩
        exact State.dropEnc_wf (State.cancelEnc_wf h)
      · rintro _ ⟨⟩
        exact h

theorem State.ringWrite_wf {u : EngUser} {base : Nat} {size : Nat} (l : List Word) :
    ∀ {s : State} {k : Nat}, Formed s → Ends Formed (s.ringWrite u base size k l) := by
  induction l with
  | nil =>
    intro s k h
    unfold State.ringWrite
    exact .ok h
  | cons a l ih =>
    intro s k h
    unfold State.ringWrite
    refine .bind (State.engWrite_wf h) ?_
    intro t ht
    exact ih ht

theorem State.encProbe_wf {u : EngUser} (i : Nat) :
    ∀ {s : State} {k : Nat}, Formed s → Ends Formed (s.encProbe u k i) := by
  induction i with
  | zero =>
    intro s k h
    unfold State.encProbe
    exact .ok h
  | succ i ih =>
    intro s k h
    unfold State.encProbe
    refine .bind (State.engCheck_wf h) ?_
    rintro ⟨t, x⟩ ht
    dsimp only
    exact ih ht

theorem State.storeStream_wf {s : State} {die : BitVec 4} {r : EncRun} {inputs : List Word} {wptr : Nat}
    (h : Formed s) : Ends Formed (s.storeStream die r inputs wptr) := by
  unfold State.storeStream
  dsimp only
  refine .bind (State.encProbe_wf _ h) ?_
  intro t ht
  refine .bind (State.encProbe_wf _ ht) ?_
  intro u hu
  refine .bind (State.encStore_wf _ hu) ?_
  intro u hu
  refine .bind (State.encStore_wf _ hu) ?_
  intro u hu
  refine .bind (State.markInit_wf hu) ?_
  intro u hu
  refine .bind (State.encStore_wf _ (State.releaseDie_wf _ _ hu)) ?_
  intro u hu
  exact .ok (State.releaseDie_wf _ _ hu)

theorem State.readRefs_wf {s : State} {r : EncRun} {key : Bool} (h : Formed s) :
    Ends (Formed ·.1) (s.readRefs r key) := by
  unfold State.readRefs
  split
  · exact .ok h
  · exact State.encWords_wf _ h

theorem execEncUnitWrite_wf {die : BitVec 4} {s : State} (h : Formed s) :
    ∀ t, execEncUnitWrite die s = .next t → Formed t := by
  unfold execEncUnitWrite
  split
  · rintro _ ⟨⟩
    exact h
  · rename_i r _
    split
    · rintro _ ⟨⟩
      exact h
    · extract_lets j u key read rsize w
      have hr : Ends (Formed ·.1) read := by
        refine .bind (State.encWords_wf _ (State.acquireDie_wf _ _ h)) ?_
        rintro ⟨t, p⟩ ht
        refine .bind (State.readRefs_wf ht) ?_
        rintro ⟨v, refs⟩ hv
        exact .ok hv
      clear_value read
      split
      · rintro _ ⟨⟩
        exact State.failEnc_wf (hr.stopped rfl)
      · rename_i t p refs
        have ht : Formed t := hr.answer_fst rfl
        extract_lets inputs x rptr space words next
        split
        · rintro _ ⟨⟩
          exact State.dropEnc_wf (formed_encKey ht)
        · have written := State.ringWrite_wf (u := u) (base := (bits (r.word 0) 0 56).toNat) (size := rsize) words (k := w) ht
          split
          · rename_i v f e
            rintro _ ⟨⟩
            exact State.failEnc_wf (written.stopped e)
          · rename_i v e
            have stored := State.storeStream_wf (die := die) (r := r) (inputs := inputs) (wptr := next) (written.answer e)
            split
            · rename_i y f e'
              rintro _ ⟨⟩
              exact State.failEnc_wf (stored.stopped e')
            · rename_i y e'
              rintro _ ⟨⟩
              exact State.endEnc_wf (formed_encRan (stored.answer e'))

end Sys2Proof.Machine
end

section
/-! ## Memory in canonical form: events of memory (Machine/EventsMemory) -/

namespace Sys2Proof.Machine

theorem execStoreBufferDrain_wf {n : CoreId} {s : State} (h : Formed s) :
    ∀ t, execStoreBufferDrain n s = .next t → Formed t := by
  unfold execStoreBufferDrain
  rintro _ ⟨⟩
  split
  · exact formed_getD h (State.drainOne_wf h)
  · exact h

theorem execSyncAccessAtOwner_wf {n : CoreId} {s : State} (h : Formed s) :
    ∀ t, execSyncAccessAtOwner n s = .next t → Formed t := by
  unfold execSyncAccessAtOwner
  rintro _ ⟨⟩
  split
  · exact formed_getD h (State.drainOne_wf h)
  · exact formed_getD h (State.flightArrive_wf h)

theorem execLdqEntryDeliver_wf {n : CoreId} {s : State} (h : Formed s) :
    ∀ t, execLdqEntryDeliver n s = .next t → Formed t := by
  unfold execLdqEntryDeliver
  dsimp only
  split
  · rintro _ ⟨⟩
    exact h
  · rintro _ ⟨⟩
    exact h

theorem execAtomicReply_wf {n : CoreId} {s : State} (h : Formed s) :
    ∀ t, execAtomicReply n s = .next t → Formed t := by
  unfold execAtomicReply
  split
  · rintro _ ⟨⟩
    exact h
  · dsimp only
    split
    · rintro _ ⟨⟩
      exact h
    · rintro _ ⟨⟩
      refine State.acquireOwed_wf ?_
      split <;> exact h
    · split
      · rintro _ ⟨⟩
        exact h
      · rintro _ ⟨⟩
        exact h

theorem execPageRefill_wf {cl : BitVec 14} {s : State} (h : Formed s) :
    ∀ t, execPageRefill cl s = .next t → Formed t := by
  unfold execPageRefill
  split
  · rintro _ ⟨⟩
    exact h
  · dsimp only
    split
    · rintro _ ⟨⟩
      exact h
    · rintro _ ⟨⟩
      exact State.fillPage_wf _ _ _ _ _ h

theorem execPageWalk_wf {die : BitVec 4} {va : BitVec 56} {s : State} (h : Formed s) :
    ∀ t, execPageWalk die va s = .next t → Formed t := by
  unfold execPageWalk
  rintro _ ⟨⟩
  split
  · exact h
  · exact State.translate_wf h

theorem execGatedReply_wf {n : CoreId} {s : State} (h : Formed s) : ∀ t, execGatedReply n s = .next t → Formed t := by
  unfold execGatedReply
  split
  · rintro _ ⟨⟩
    exact h
  · split
    · rintro _ ⟨⟩
      exact formed_getD h (State.drainOne_wf h)
    · split
      · rintro _ ⟨⟩
        split
        · exact formed_getD h (State.flightArrive_wf h)
        · exact h
      · rintro _ ⟨⟩
        exact h

theorem execAcknowledgement_wf {n : CoreId} {s : State} (h : Formed s) :
    ∀ t, execAcknowledgement n s = .next t → Formed t := by
  unfold execAcknowledgement
  split
  · rintro _ ⟨⟩
    exact h
  · dsimp only
    rintro _ ⟨⟩
    exact h

theorem State.recallLine_wf {s : State} {x : Mooring} (h : Formed s) : Formed (s.recallLine x) := by
  unfold State.recallLine
  split <;> exact h

theorem execForwardCredit_wf {k : BitVec 16} {s : State} (h : Formed s) :
    ∀ t, execForwardCredit k s = .next t → Formed t := by
  unfold execForwardCredit
  split
  · rintro _ ⟨⟩
    exact h
  · split
    · rintro _ ⟨⟩
      exact h
    · split
      · rintro _ ⟨⟩
        exact h
      · dsimp only
        split
        · split
          · rintro _ ⟨⟩
            exact State.syncServe_wf h
          · rintro _ ⟨⟩
            exact h
        · split
          · rintro _ ⟨⟩
            exact State.syncServe_wf (State.recallLine_wf h)
          · rintro _ ⟨⟩
            exact State.recallLine_wf h

theorem State.dropTranslations_wf {s : State} {die : BitVec 4} {dom : BitVec 16} {lo hi : Nat} (h : Formed s) :
    Formed (s.dropTranslations die dom lo hi) := by
  unfold State.dropTranslations
  exact foldl_keeps Formed _ (fun _ _ hu => State.evictCopy_wf _ _ _ hu) _ _ h

theorem State.dropFrames_wf {cl : BitVec 14} {dom : BitVec 16} {lo : Nat} {hi : Nat} (k : Nat) :
    ∀ {s : State}, Formed s → Formed (s.dropFrames cl dom lo hi k) := by
  induction k with
  | zero =>
    intro s h
    unfold State.dropFrames
    exact h
  | succ k ih =>
    intro s h
    unfold State.dropFrames
    split
    · exact ih (State.evictFrame_wf _ _ _ h)
    · exact h

theorem State.settleRange_wf {s : State} {lo hi : Nat} (h : Formed s) : Formed (s.settleRange lo hi) := by
  unfold State.settleRange
  refine foldl_keeps Formed _ (fun u x hu => ?_) _ _ h
  split
  · exact State.flightsFrom_wf _ (State.drainFrom_wf _ hu)
  · exact hu

theorem State.endMigration_wf {s : State} {m : Migration} (h : Formed s) : Formed (s.endMigration m) := by
  unfold State.endMigration
  extract_lets u to_
  have hu : Formed u := foldl_keeps Formed _
    (fun _ _ hv => foldl_keeps Formed _ (fun w _ hw => State.evictCopy_wf w _ _ hw) _ _ hv) _ _ h
  clear_value u
  exact hu

theorem execPginvComplete_wf {n : CoreId} {s : State} (h : Formed s) :
    ∀ t, execPginvComplete n s = .next t → Formed t := by
  unfold execPginvComplete
  split
  · rintro _ ⟨⟩
    exact h
  · rename_i i _
    split
    · rintro _ ⟨⟩
      exact h
    · rename_i p _
      extract_lets lo hi settled lines frames there ended
      have hs : Formed settled := State.settleRange_wf h
      have hl : Formed lines := foldl_keeps Formed _ (fun _ _ hu => State.dropTranslations_wf hu) _ _ hs
      have hf : Formed frames := foldl_keeps Formed _ (fun _ _ hu => formed_updCluster (State.dropFrames_wf _ hu)) _ _ hl
      have he : Formed ended := foldl_keeps Formed _ (fun _ _ hu => State.endMigration_wf hu) _ _ hf
      clear_value ended
      split
      · rintro _ ⟨⟩
        exact h
      · rintro _ ⟨⟩
        exact formed_postOwn (formed_pginvs he)

theorem State.moveGranule_wf {s : State} {a b : Nat} (h : Formed s) : Formed (s.moveGranule a b) := by
  unfold State.moveGranule
  extract_lets evicted moved keyed bits move stuck
  have he : Formed evicted := foldl_keeps Formed _
    (fun _ _ hv => foldl_keeps Formed _ (fun w _ hw => State.evictCopy_wf w _ _ hw) _ _ hv) _ _ h
  have hm : Formed moved := foldl_keeps Formed _ (fun _ _ hu => formed_moveByte hu) _ _ he
  have hk : Formed keyed := foldl_keeps Formed _ (fun _ _ hu => formed_bkey hu) _ _ hm
  have hb : Formed bits := foldl_keeps Formed _ (fun _ _ hu => formed_bits hu) _ _ hk
  clear_value bits
  exact hb

theorem execPageMigration_wf {p p2 : BitVec 24} {s : State} (h : Formed s) :
    ∀ t, execPageMigration p p2 s = .next t → Formed t := by
  unfold execPageMigration
  extract_lets a b
  split
  · rename_i m _
    split
    · extract_lets from_ dest moved
      have hm : Formed moved := State.moveGranule_wf h
      clear_value moved
      rintro _ ⟨⟩
      exact formed_migrations hm
    · rintro _ ⟨⟩
      exact h
  · split <;> rintro _ ⟨⟩
    · exact h
    · exact formed_migrations h

theorem execOldHomeForward_wf {n : CoreId} {s : State} (h : Formed s) :
    ∀ t, execOldHomeForward n s = .next t → Formed t := by
  unfold execOldHomeForward
  split
  · rintro _ ⟨⟩
    exact formed_getD h (State.drainOne_wf h)
  · split
    · rintro _ ⟨⟩
      split
      · exact formed_getD h (State.flightArrive_wf h)
      · exact h
    · rintro _ ⟨⟩
      exact h

theorem execEvictionError_wf {pa : BitVec 52} {dom : BitVec 16} {s : State} (h : Formed s) :
    ∀ t, execEvictionError pa dom s = .next t → Formed t := by
  unfold execEvictionError
  extract_lets pa0 a frame owner va brought evicted poisoned
  clear_value owner va frame
  have hb : Formed brought := by
    unfold brought
    split
    · exact formed_updCluster (State.evictFrame_wf _ _ _ h)
    · exact h
  have he : Formed evicted := foldl_keeps Formed _
    (fun _ _ hv => foldl_keeps Formed _ (fun w _ hw => State.evictCopy_wf w _ _ hw) _ _ hv) _ _ hb
  have hp : Formed poisoned := foldl_keeps Formed _ (fun _ _ hu => formed_poison hu) _ _ he
  clear_value poisoned
  rintro _ ⟨⟩
  exact State.machineCheck_wf hp

theorem State.wordError_wf {s : State} {pa : Nat} (h : Formed s) : Formed (s.wordError pa) := by
  unfold State.wordError
  split <;> exact h

theorem State.copyError_wf {s : State} {die : BitVec 4} {pa : Nat} (h : Formed s) : Formed (s.copyError die pa) := by
  unfold State.copyError
  split
  · exact h
  · split
    · exact h
    · exact State.wordError_wf h

theorem State.pageError_wf {s : State} {cl : BitVec 14} {i w : Nat} (h : Formed s) : Formed (s.pageError cl i w) := by
  unfold State.pageError
  split <;> exact h

end Sys2Proof.Machine
end

section
/-! ## Memory in canonical form: events of power (Machine/EventsPower) -/

namespace Sys2Proof.Machine

theorem execMgmtRegisterWrite_wf {va : BitVec 56} {data : Word} {s : State} (h : Formed s) :
    ∀ t, execMgmtRegisterWrite va data s = .next t → Formed t := by
  unfold execMgmtRegisterWrite
  rintro _ ⟨⟩
  split
  · exact State.mgmtWrite_wf h
  · exact h

theorem execPowerSwitchWrite_wf {cl : BitVec 14} {data : Word} {s : State} (h : Formed s) :
    ∀ t, execPowerSwitchWrite cl data s = .next t → Formed t := by
  unfold execPowerSwitchWrite
  rintro _ ⟨⟩
  exact State.writeSwitches_wf h

theorem execScratchpadGateRequest_wf {cl : BitVec 14} {s : State} (h : Formed s) :
    ∀ t, execScratchpadGateRequest cl s = .next t → Formed t := by
  unfold execScratchpadGateRequest
  rintro _ ⟨⟩
  exact State.requestScratchGate_wf h

theorem execClusterGateRequest_wf {cl : BitVec 14} {s : State} (h : Formed s) :
    ∀ t, execClusterGateRequest cl s = .next t → Formed t := by
  unfold execClusterGateRequest
  rintro _ ⟨⟩
  exact State.requestClusterGate_wf h

theorem execGateDrainComplete_wf {cl : BitVec 14} {s : State} (h : Formed s) :
    ∀ t, execGateDrainComplete cl s = .next t → Formed t := by
  unfold execGateDrainComplete
  rintro _ ⟨⟩
  exact State.endDrain_wf h

theorem execGateWake_wf {cl : BitVec 14} {data : Word} {s : State} (h : Formed s) :
    ∀ t, execGateWake cl data s = .next t → Formed t := by
  unfold execGateWake
  rintro _ ⟨⟩
  exact State.writeGate_wf h

theorem execWakeComplete_wf {cl : BitVec 14} {s : State} (h : Formed s) :
    ∀ t, execWakeComplete cl s = .next t → Formed t := by
  unfold execWakeComplete
  rintro _ ⟨⟩
  exact State.endWake_wf h

theorem execCoreReset_wf {cl : BitVec 14} {data : Word} {s : State} (h : Formed s) :
    ∀ t, execCoreReset cl data s = .next t → Formed t := by
  unfold execCoreReset
  rintro _ ⟨⟩
  exact State.writeCluster_wf h

theorem execPacerEnable_wf {die : BitVec 4} {data : Word} {s : State} (h : Formed s) :
    ∀ t, execPacerEnable die data s = .next t → Formed t := by
  unfold execPacerEnable
  rintro _ ⟨⟩
  exact State.writePacer_wf h

theorem execPacerRelease_wf {die : BitVec 4} {s : State} (h : Formed s) :
    ∀ t, execPacerRelease die s = .next t → Formed t := by
  unfold execPacerRelease
  rintro _ ⟨⟩
  exact State.paceRelease_wf h

theorem execTimingReplay_wf {n : CoreId} {second : Bool} {s : State} (h : Formed s) :
    ∀ t, execTimingReplay n second s = .next t → Formed t := by
  unfold execTimingReplay
  rintro _ ⟨⟩
  split <;> exact h

theorem execThermalNotify_wf {n : CoreId} {temp : BitVec 8} {s : State} (h : Formed s) :
    ∀ t, execThermalNotify n temp s = .next t → Formed t := by
  unfold execThermalNotify
  rintro _ ⟨⟩
  exact State.notifyHeat_wf h

theorem execArmedFlagRearm_wf {n : CoreId} {temp : BitVec 8} {s : State} (h : Formed s) :
    ∀ t, execArmedFlagRearm n temp s = .next t → Formed t := by
  unfold execArmedFlagRearm
  rintro _ ⟨⟩
  exact State.rearm_wf h

theorem execCoreCheck_wf {n : CoreId} {s : State} (h : Formed s) : ∀ t, execCoreCheck n s = .next t → Formed t := by
  unfold execCoreCheck
  rintro _ ⟨⟩
  exact State.stopCore_wf h

theorem State.tcmError_wf {s : State} {n : CoreId} (h : Formed s) : Formed (s.tcmError n) := by
  unfold State.tcmError
  exact State.stopCore_wf h

theorem execModuleReset_wf {s : State} (h : Formed s) : ∀ t, execModuleReset s = .next t → Formed t := by
  unfold execModuleReset
  extract_lets b initial started opened
  have hs : Formed started := Cells.wfFrom_drop _ _ _ h
  have ho : Formed opened := foldl_keeps Formed _ (fun _ _ hu => formed_updPort hu) _ _ hs
  clear_value opened
  rintro _ ⟨⟩
  exact formed_services ho

end Sys2Proof.Machine
end

section
/-! ## Memory in canonical form: fetching (Machine/Fetch) -/

namespace Sys2Proof.Machine

theorem State.fetchParcel_wf {s : State} {a : Nat} (h : Formed s) : Ends (Formed ·.1) (s.fetchParcel a) := by
  unfold State.fetchParcel
  extract_lets c e
  refine .demand h ?_
  split
  · exact .ok h
  · refine .demand h ?_
    refine .bind (State.xlate_wf h) ?_
    rintro ⟨t, x⟩ ht
    dsimp only
    exact .demand ht (.ok (State.dieRead_wf _ _ _ _ _ _ ht))

theorem State.fetchParcels_wf {s : State} (h : Formed s) : Ends (Formed ·.1) s.fetchParcels := by
  unfold State.fetchParcels
  extract_lets a
  refine .demand h ?_
  refine .bind (State.fetchParcel_wf h) ?_
  rintro ⟨t, x⟩ ht
  dsimp only
  split
  · exact .ok ht
  · refine .bind (State.fetchParcel_wf ht) ?_
    rintro ⟨u, x⟩ hu
    exact .ok hu

theorem State.issue_wf {s : State} (h : Formed s) : Formed s.issue := by
  unfold State.issue
  dsimp only
  split
  · split <;> split <;> exact h
  · split <;> exact h

theorem State.decodeNext_wf {s : State} {p q : Parcel} (h : Formed s) : Formed (s.decodeNext p q).1 := by
  unfold State.decodeNext
  split
  · exact State.issue_wf h
  · split
    · exact State.stop_wf h
    · exact State.issue_wf h

theorem State.nextInstr_wf {s : State} (h : Formed s) : Formed s.nextInstr.1 := by
  unfold State.nextInstr
  extract_lets
  split
  · exact h
  · split
    · exact State.atBoundary_wf h
    · split
      · exact State.queueRun_wf (State.atBoundary_wf h)
      · split
        · exact State.atBoundary_wf h
        · split
          · exact State.decodeNext_wf (State.atBoundary_wf h)
          · exact State.detach_wf (State.atBoundary_wf h)
        · split
          · rename_i _ _ _ t1 u1 v1 w1 e1
            exact State.issue_wf (Ends.stopped (State.fetchParcels_wf (State.atBoundary_wf h)) e1)
          · rename_i _ _ _ t1 u1 v1 _ e1
            exact State.stop_wf (Ends.stopped (State.fetchParcels_wf (State.atBoundary_wf h)) e1)
          · rename_i _ _ _ t1 u1 v1 w1 e1
            exact State.decodeNext_wf (Ends.answer_fst (State.fetchParcels_wf (State.atBoundary_wf h)) e1)

theorem State.follow_wf {t : State} {n : CoreId} {taken : Bool} (h : Formed t) : Formed (t.follow n taken) := by
  unfold State.follow
  split
  · split
    · split
      · exact h
      · exact State.detach_wf h
    · exact h
  · exact h

theorem State.forward_wf {s t : State} {n : CoreId} {f : Forwarded} (h : Formed t) : Formed (s.forward t n f) := by
  unfold State.forward
  split
  · split
    · exact h
    · refine foldl_keeps Formed _ (fun u i hu => ?_) _ _ h
      dsimp only
      split
      · split
        · exact formed_updCore hu
        · exact hu
      · exact hu
  · exact h

theorem State.gangStep_wf {s t : State} {n : CoreId} {i : Instr} (h : Formed t) : Formed (s.gangStep t n i) := by
  unfold State.gangStep
  split
  · exact h
  · exact State.forward_wf (State.follow_wf h)

end Sys2Proof.Machine
end

section
/-! ## Memory in canonical form: the hypervector unit (Machine/Hyper) -/

namespace Sys2Proof.Machine

theorem State.needHyper_wf {s : State} (h : Formed s) : Ends (fun _ => True) s.needHyper := by
  unfold State.needHyper
  exact ends_demand h

theorem State.checkSpan_wf {s : State} {sp : Space} {ea : Word} {n : Nat} {wr : Bool} (h : Formed s) :
    Ends (fun _ => True) (s.checkSpan sp ea n wr) := by
  unfold State.checkSpan
  extract_lets c a blocks
  refine .demand h ?_
  refine .demand h ?_
  split <;> exact .demand h (ends_demand h)

theorem State.loadWords_wf {sp : Space} (k : Nat) :
    ∀ {s : State} {x : Acc}, Formed s → Ends (Formed ·.1) (s.loadWords sp x k) := by
  induction k with
  | zero =>
    intro s x h
    unfold State.loadWords
    exact .ok h
  | succ k ih =>
    intro s x h
    unfold State.loadWords
    refine .bind (State.loadWord_wf h) ?_
    rintro ⟨t, x⟩ ht
    dsimp only
    refine .bind (ih ht) ?_
    rintro ⟨u, x⟩ hu
    exact .ok hu

theorem State.moveChunk_wf {s : State} {t : HTarget} {sp : Space} {ea : Word} {wr : Bool} {i : Nat} (h : Formed s) :
    Ends Formed (s.moveChunk t sp ea wr i) := by
  unfold State.moveChunk
  dsimp only
  split
  · refine .bind (State.checkStore_wf h) ?_
    rintro ⟨t, x⟩ ht
    exact State.storeWords_wf ht
  · refine .bind (State.check_wf h) ?_
    rintro ⟨t, x⟩ ht
    refine .bind (State.loadWords_wf _ ht) ?_
    rintro ⟨u, x⟩ hu
    exact .ok hu

theorem State.moveChunks_wf {t : HTarget} {sp : Space} {ea : Word} {wr : Bool} (k : Nat) :
    ∀ {s : State} {i : Nat}, Formed s → Ends Formed (s.moveChunks t sp ea wr k i) := by
  induction k with
  | zero =>
    intro s i h
    unfold State.moveChunks
    exact .ok h
  | succ k ih =>
    intro s i h
    unfold State.moveChunks
    split
    · exact .ok h
    · split
      · rename_i _ u v w e
        exact .stop ((Ends.stopped (State.moveChunk_wf h) e : Formed v))
      · rename_i _ u v e
        split
        · exact .stop ((Ends.answer (State.moveChunk_wf h) e : Formed v))
        · exact ih (Ends.answer (State.moveChunk_wf h) e)

theorem State.transfer_wf {s : State} {t : HTarget} {a : SReg} {sp : Space} {wr : Bool} (h : Formed s) :
    ∀ r, s.transfer t a sp wr = .next r → Formed r := by
  unfold State.transfer
  extract_lets
  refine finish_wf ?_
  refine .bind (State.needHyper_wf h) ?_
  intro t ht
  refine .bind (State.checkSpan_wf h) ?_
  intro u hu
  refine .bind (State.moveChunks_wf _ h) ?_
  intro u hu
  exact .ok hu

theorem State.hyper_wf {s : State} {f : State → State} (h : Formed s) (hf : Formed (f s)) :
    ∀ t, s.hyper f = .next t → Formed t := by
  unfold State.hyper
  exact finish_wf (.bind (State.needHyper_wf h) fun _ _ => .ok hf)

theorem execHbind_wf {d a b : HReg} {s : State} (h : Formed s) : ∀ t, execHbind d a b s = .next t → Formed t := by
  unfold execHbind
  exact State.hyper_wf h h

theorem execHpermRegister_wf {d a : HReg} {b : SReg} {s : State} (h : Formed s) :
    ∀ t, execHpermRegister d a b s = .next t → Formed t := by
  unfold execHpermRegister
  exact State.hyper_wf h h

theorem execHpermImmediate_wf {d a : HReg} {n : BitVec 12} {s : State} (h : Formed s) :
    ∀ t, execHpermImmediate d a n s = .next t → Formed t := by
  unfold execHpermImmediate
  exact State.hyper_wf h h

theorem execHbund_wf {a : HReg} {s : State} (h : Formed s) : ∀ t, execHbund a s = .next t → Formed t := by
  unfold execHbund
  exact State.hyper_wf h h

theorem execHclr_wf {t : HTarget} {s : State} (h : Formed s) : ∀ r, execHclr t s = .next r → Formed r := by
  unfold execHclr
  exact State.hyper_wf h h

theorem execHthr_wf {d : HReg} {s : State} (h : Formed s) : ∀ t, execHthr d s = .next t → Formed t := by
  unfold execHthr
  exact State.hyper_wf h h

theorem execHtie_wf {a : HReg} {s : State} (h : Formed s) : ∀ t, execHtie a s = .next t → Formed t := by
  unfold execHtie
  exact State.hyper_wf h h

theorem execHdist_wf {d : SReg} {a b : HReg} {s : State} (h : Formed s) :
    ∀ t, execHdist d a b s = .next t → Formed t := by
  unfold execHdist
  exact State.hyper_wf h h

theorem execHpop_wf {d : SReg} {a : HReg} {s : State} (h : Formed s) : ∀ t, execHpop d a s = .next t → Formed t := by
  unfold execHpop
  exact State.hyper_wf h h

theorem State.loadItem_wf {sp : Space} {ea : Word} (k : Nat) :
    ∀ {s : State} {i : Nat}, Formed s → Ends (Formed ·.1) (s.loadItem sp ea k i) := by
  induction k with
  | zero =>
    intro s i h
    unfold State.loadItem
    exact .ok h
  | succ k ih =>
    intro s i h
    unfold State.loadItem
    refine .bind (State.check_wf h) ?_
    rintro ⟨t, x⟩ ht
    dsimp only
    refine .bind (State.loadWords_wf _ ht) ?_
    rintro ⟨u, x⟩ hu
    refine .bind (ih hu) ?_
    rintro ⟨u, x⟩ hu
    exact .ok hu

theorem State.scan_wf {sp : Space} {base : Word} {count : Nat} {q : Hv} (k : Nat) :
    ∀ {s : State} {j bi bd : Nat}, Formed s → Ends (Formed ·.1) (s.scan sp base count q k j bi bd) := by
  induction k with
  | zero => exact fun h => .ok h
  | succ k ih =>
    intro s j bi bd h
    unfold State.scan
    split
    · exact .ok h
    · have loaded := State.loadItem_wf (sp := sp) (ea := base + BitVec.ofNat 64 (512 * j)) 8 (i := 0) h
      split
      · rename_i t e eq
        exact .stop (formed_saveProgress (loaded.stopped eq))
      · rename_i t bs eq
        have ht : Formed t := loaded.answer_fst eq
        extract_lets dist bi' bd'
        split
        · exact .stop (formed_saveProgress ht)
        · exact ih ht

theorem execHrcl_wf {d : SReg} {a : HReg} {b : SReg} {s : State} (h : Formed s) :
    ∀ t, execHrcl d a b s = .next t → Formed t := by
  unfold execHrcl
  extract_lets
  refine finish_wf ?_
  refine .bind (State.needHyper_wf h) ?_
  intro t ht
  refine .demand h ?_
  refine .bind (State.checkSpan_wf h) ?_
  intro u hu
  refine .bind (State.scan_wf _ h) ?_
  rintro ⟨u, x, y⟩ hu
  dsimp only
  exact .ok hu

end Sys2Proof.Machine
end

section
/-! ## Memory in canonical form: the matrix unit (Machine/Matrix) -/

namespace Sys2Proof.Machine

theorem State.matrixReady_wf {s : State} (h : Formed s) : Ends Formed s.matrixReady := by
  unfold State.matrixReady
  refine .bind (State.needSlot_wf h) ?_
  intro t ht
  exact State.drain_wf h

theorem State.checkTile_wf {s : State} {a : Word} {n : Nat} (h : Formed s) :
    Ends (fun _ => True) (s.checkTile a n) := by
  unfold State.checkTile
  extract_lets c
  exact .demand h (.demand h (ends_demand h))

theorem State.needLatch_wf {s : State} (h : Formed s) : Ends (fun _ => True) s.needLatch := by
  unfold State.needLatch
  exact ends_demand h

theorem State.multiply_wf {s : State} {kind : AKind} {d : AReg} {a : SReg} {b : Option SReg} {k : BitVec 6}
    (h : Formed s) : ∀ t, s.multiply kind d a b k = .next t → Formed t := by
  unfold State.multiply
  dsimp only
  refine finish_wf ?_
  refine .bind (State.matrixReady_wf h) ?_
  intro t ht
  split
  · refine .bind (State.needLatch_wf ht) ?_
    intro u hu
    refine .demand ht ?_
    refine .bind (State.checkTile_wf ht) ?_
    intro u hu
    split
    · refine .bind (State.checkTile_wf ht) ?_
      intro u hu
      split
      · exact .stop ht
      · exact .demand ht (.ok ht)
    · split
      · exact .stop ht
      · exact .demand ht (.ok ht)
  · refine .demand ht ?_
    refine .bind (State.checkTile_wf ht) ?_
    intro u hu
    split
    · refine .bind (State.checkTile_wf ht) ?_
      intro u hu
      split
      · exact .stop ht
      · exact .demand ht (.ok ht)
    · split
      · exact .stop ht
      · exact .demand ht (.ok ht)

theorem execMbl_wf {a : SReg} {k : BitVec 6} {s : State} (h : Formed s) :
    ∀ t, execMbl a k s = .next t → Formed t := by
  unfold execMbl
  dsimp only
  refine finish_wf ?_
  refine .bind (State.matrixReady_wf h) ?_
  intro t ht
  refine .bind (State.needLatch_wf ht) ?_
  intro u hu
  refine .demand ht ?_
  refine .bind (State.checkTile_wf ht) ?_
  intro u hu
  exact .ok ht

theorem execMring_wf {s : State} (h : Formed s) : ∀ t, execMring s = .next t → Formed t := by
  unfold execMring
  refine finish_wf ?_
  refine .bind (State.matrixReady_wf h) ?_
  intro t ht
  refine .bind (State.needLatch_wf ht) ?_
  intro u hu
  refine .bind (State.parkTentative_wf ht) ?_
  intro u hu
  exact .ok ht

theorem execMfmt_wf {a : SReg} {s : State} (h : Formed s) : ∀ t, execMfmt a s = .next t → Formed t := by
  unfold execMfmt
  refine finish_wf ?_
  refine .bind (State.matrixReady_wf h) ?_
  intro t ht
  exact .demand ht (.ok ht)

theorem execMzero_wf {d : AReg} {s : State} (h : Formed s) : ∀ t, execMzero d s = .next t → Formed t := by
  unfold execMzero
  refine finish_wf ?_
  refine .bind (State.matrixReady_wf h) ?_
  intro t ht
  exact .ok ht

theorem execMaccToAccumulator_wf {d : AReg} {a : VReg} {r : BitVec 3} {hx : Bool} {s : State} (h : Formed s) :
    ∀ t, execMaccToAccumulator d a r hx s = .next t → Formed t := by
  unfold execMaccToAccumulator
  refine finish_wf ?_
  refine .bind (State.matrixReady_wf h) ?_
  intro t ht
  exact .ok ht

theorem execMaccToVector_wf {d : VReg} {a : AReg} {r : BitVec 3} {hx : Bool} {s : State} (h : Formed s) :
    ∀ t, execMaccToVector d a r hx s = .next t → Formed t := by
  unfold execMaccToVector
  dsimp only
  refine finish_wf ?_
  refine .bind (State.matrixReady_wf h) ?_
  intro t ht
  exact .demand ht (.ok ht)

theorem execMepi_wf {d : AReg} {a b : SReg} {s : State} (h : Formed s) :
    ∀ t, execMepi d a b s = .next t → Formed t := by
  unfold execMepi
  refine finish_wf (.bind (State.matrixReady_wf h) fun u hu => .demand hu (.demand hu ?_))
  extract_lets boff sp base drawn accept
  have hd : Formed drawn := by
    unfold drawn
    split
    · exact formed_updMe hu
    · exact hu
  clear_value drawn
  have ha : Ends Formed (accept ()) := by
    refine .demand hu (.demand hu ?_)
    split
    · exact .stop hu
    · exact .ok hd
  clear_value accept
  split
  · split
    · exact ha
    · exact .stop hu
  · exact ha

theorem State.epiCommand_wf {s : State} {n : BitVec 1} {op : MatOp} (h : Formed s) :
    ∀ t, s.epiCommand n op = .next t → Formed t := by
  unfold State.epiCommand
  refine finish_wf ?_
  refine .bind (State.matrixReady_wf h) ?_
  intro t ht
  refine .demand ht ?_
  refine .bind (State.parkTentative_wf ht) ?_
  intro u hu
  exact .ok ht

theorem execMpass_wf {d : SReg} {x : QReg} {sprio : BitVec 3} {stype : BitVec 8} {s : State} (h : Formed s) :
    ∀ t, execMpass d x sprio stype s = .next t → Formed t := by
  unfold execMpass
  refine finish_wf (.bind (State.needSlot_wf h) fun _ _ => ?_)
  refine .bind (State.checkSucc_wf h) fun succ _ => ?_
  refine .bind (State.matrixReady_wf h) fun u hu => ?_
  refine .bind (State.record_wf hu) fun w _ => ?_
  refine .bind (State.readMap_wf hu) fun am _ => ?_
  refine .bind (State.readMap_wf hu) fun bm _ => ?_
  refine .bind (State.readMap_wf hu) fun cm _ => ?_
  refine .demand hu (.demand hu ?_)
  exact .bind (State.parkTentative_wf hu) fun _ _ => .ok hu

theorem State.endMat_wf {s : State} {n : CoreId} {q : MatCmd} {fault : Bool} (h : Formed s) :
    Formed (s.endMat n q fault) := by
  unfold State.endMat
  exact State.endCmd_wf h

theorem State.failMat_wf {s : State} {n : CoreId} {q : MatCmd} {cmd : BitVec 4} {cause : BitVec 5}
    {addr progress : Word} (h : Formed s) : Formed (s.failMat n q cmd cause addr progress) := by
  unfold State.failMat
  exact State.endMat_wf h

theorem State.takeLatch_wf {s : State} {n : CoreId} (h : Formed s) : ∀ t, s.takeLatch n = some t → Formed t := by
  unfold State.takeLatch
  dsimp only
  split
  · rintro _ ⟨⟩
    exact h
  · split
    · rintro _ ⟨⟩
      exact h
    · rintro _ ⟨⟩

theorem State.performMul_wf {s : State} {n : CoreId} {q : MatCmd} {kind : AKind} {d : AReg} {a b : Nat} {latch : Bool}
    {len : Nat} {x : Word} {pos : List (BitVec 4)} {marked : Option Nat} (h : Formed s) :
    Formed (s.performMul n q kind d a b latch len x pos marked) := by
  unfold State.performMul
  dsimp only
  split
  · split
    · exact State.failMat_wf h
    · split
      · exact State.failMat_wf h
      · exact State.endMat_wf h
  · split
    · exact State.failMat_wf h
    · split
      · exact State.failMat_wf h
      · exact State.endMat_wf h
  · split
    · exact State.failMat_wf h
    · split
      · exact State.failMat_wf h
      · exact State.endMat_wf h

theorem State.performLoad_wf {s : State} {n : CoreId} {q : MatCmd} {a len : Nat} {x : Word} (h : Formed s) :
    Formed (s.performLoad n q a len x) := by
  unfold State.performLoad
  extract_lets c size
  split
  · exact State.failMat_wf h
  · exact State.endMat_wf h

theorem State.passOn_wf {s : State} {n : CoreId} {q : MatCmd} (h : Formed s) :
    ∀ t, s.passOn n q = some t → Formed t := by
  unfold State.passOn
  dsimp only
  split
  · split
    · rintro _ ⟨⟩
    · rintro _ ⟨⟩
      exact State.endMat_wf h
  · rintro _ ⟨⟩

theorem State.epiStore_wf {u : EngUser} {b : EpiBuf} (k : Nat) :
    ∀ {s : State} {w : Nat}, Formed s → Formed (s.epiStore u b k w).1 := by
  induction k with
  | zero => exact fun h => h
  | succ k ih =>
    intro s w h
    unfold State.epiStore
    extract_lets ofmt unit per
    split
    · exact h
    · have written := State.engWrite_wf (u := u) (sp := (Space.ofCode (bits b.epi 8 2)).getD .global) (a := b.unitAddr w)
        (bs := (b.bytes.drop (w * unit)).take unit) h
      split
      · rename_i t e
        exact ih (written.answer e)
      · rename_i t f e
        exact written.stopped e

theorem State.storeBuffer_wf {s : State} {n : CoreId} {q : MatCmd} {i : BitVec 1} {b : EpiBuf} (h : Formed s) :
    Formed (s.storeBuffer n q i b) := by
  unfold State.storeBuffer
  dsimp only
  split
  · rename_i t u e
    exact State.endMat_wf ((formed_fst (State.epiStore_wf _ h) e : Formed u))
  · rename_i t u v w e
    split
    · exact (formed_fst (State.epiStore_wf _ h) e : Formed u)
    · split
      · exact State.endMat_wf ((formed_fst (State.epiStore_wf _ h) e : Formed u))
      · exact State.failMat_wf ((formed_fst (State.epiStore_wf _ h) e : Formed u))

theorem State.performEpi_wf {s : State} {n : CoreId} {q : MatCmd} {d : AReg} {addr epi x base : Word} (h : Formed s) :
    Formed (s.performEpi n q d addr epi x base) := by
  unfold State.performEpi
  dsimp only
  split
  · exact State.failMat_wf h
  · split
    · exact State.failMat_wf h
    · exact State.storeBuffer_wf h

theorem State.performHeld_wf {s : State} {n : CoreId} {q : MatCmd} {i : BitVec 1} {drop : Bool} (h : Formed s) :
    Formed (s.performHeld n q i drop) := by
  unfold State.performHeld
  split
  · exact State.failMat_wf h
  · split
    · exact State.endMat_wf h
    · exact State.storeBuffer_wf h

theorem execMatrixCommandPerform_wf {n : CoreId} {s : State} (h : Formed s) :
    ∀ t, execMatrixCommandPerform n s = .next t → Formed t := by
  unfold execMatrixCommandPerform
  split
  · rintro _ ⟨⟩
    exact h
  · rename_i q rest _
    extract_lets bank
    have hb (f : Bank → Bank) : Formed (bank f) := State.endMat_wf (formed_updCore h)
    split
    · rintro _ ⟨⟩
      exact hb _
    · rintro _ ⟨⟩
      exact hb _
    · rintro _ ⟨⟩
      exact hb _
    · rename_i kind d a b latch len x pos bad _
      have taken : ∀ t, (if latch then s.takeLatch n else some s) = some t → Formed t := by
        split
        · exact State.takeLatch_wf h
        · rintro _ ⟨⟩
          exact h
      split
      · rintro _ ⟨⟩
        exact h
      · rename_i t e
        rintro _ ⟨⟩
        exact State.performMul_wf (taken t e)
    · rintro _ ⟨⟩
      exact State.performLoad_wf h
    · split
      · rintro _ ⟨⟩
        exact h
      · rename_i t e
        rintro _ ⟨⟩
        exact formed_getD (State.takeLatch_wf h t e) (State.passOn_wf (State.takeLatch_wf h t e))
    · rintro _ ⟨⟩
      exact State.performEpi_wf h
    · rintro _ ⟨⟩
      exact State.performHeld_wf h
    · rintro _ ⟨⟩
      exact State.performHeld_wf h
    · rintro _ ⟨⟩
      exact h

theorem execLatchTake_wf {n : CoreId} {s : State} (h : Formed s) : ∀ t, execLatchTake n s = .next t → Formed t := by
  unfold execLatchTake
  rintro _ ⟨⟩
  split
  · exact formed_getD h (State.takeLatch_wf h)
  · exact h

theorem execRingHandoff_wf {n : CoreId} {s : State} (h : Formed s) :
    ∀ t, execRingHandoff n s = .next t → Formed t := by
  unfold execRingHandoff
  split
  · rintro _ ⟨⟩
    split
    · exact formed_getD h (State.passOn_wf h)
    · exact h
  · rintro _ ⟨⟩
    exact h

theorem execLatchWaitTimeout_wf {n : CoreId} {cc : BitVec 40} {s : State} (h : Formed s) :
    ∀ t, execLatchWaitTimeout n cc s = .next t → Formed t := by
  unfold execLatchWaitTimeout
  split
  · rintro _ ⟨⟩
    exact h
  · split
    · rintro _ ⟨⟩
      exact h
    · dsimp only
      split
      · rintro _ ⟨⟩
        exact State.failMat_wf h
      · rintro _ ⟨⟩
        exact h

theorem State.readScale_wf {s : State} {u : EngUser} {m : TMap} {base : BitVec 56} {row len bs k : Nat}
    (h : Formed s) : Ends (Formed ·.1) (s.readScale u m base row len bs k) := by
  unfold State.readScale
  refine .bind (State.engRead_wf h) ?_
  rintro ⟨t, x⟩ ht
  dsimp only
  exact .ok ht

theorem State.passA_wf {s : State} {u : EngUser} {p : Pass} {row k : Nat} (h : Formed s) :
    Ends (Formed ·.1) (s.passA u p row k) := by
  unfold State.passA
  extract_lets len
  split
  · refine .bind (State.readElem_wf h) ?_
    rintro ⟨t, x⟩ ht
    dsimp only
    refine .bind (State.readScale_wf ht) ?_
    rintro ⟨u, x⟩ hu
    exact .ok hu
  · refine .bind (State.readElem_wf h) ?_
    rintro ⟨t, x⟩ ht
    dsimp only
    split
    · refine .bind (State.readScale_wf ht) ?_
      rintro ⟨u, x⟩ hu
      exact .ok hu
    · exact .ok ht

theorem State.passB_wf {s : State} {u : EngUser} {p : Pass} {col k : Nat} (h : Formed s) :
    Ends (Formed ·.1) (s.passB u p col k) := by
  unfold State.passB
  refine .bind (State.readElem_wf h) ?_
  rintro ⟨t, x⟩ ht
  dsimp only
  split
  · refine .bind (State.readScale_wf ht) ?_
    rintro ⟨u, x⟩ hu
    exact .ok hu
  · exact .ok ht

theorem State.passPairs_wf {u : EngUser} {p : Pass} {row : Nat} {col : Nat} (k : Nat) :
    ∀ {s : State} {i : Nat}, Formed s → Ends (Formed ·.1) (s.passPairs u p row col k i) := by
  induction k with
  | zero =>
    intro s i h
    unfold State.passPairs
    exact .ok h
  | succ k ih =>
    intro s i h
    unfold State.passPairs
    refine .bind (State.passA_wf h) ?_
    rintro ⟨t, x⟩ ht
    dsimp only
    refine .bind (State.passB_wf ht) ?_
    rintro ⟨u, x⟩ hu
    refine .bind (ih hu) ?_
    rintro ⟨u, x⟩ hu
    exact .ok hu

theorem State.passElems_wf {u : EngUser} {p : Pass} {int : Bool} {t : Nat} (n : Nat) :
    ∀ {s : State} {e : Nat}, Formed s → Ends (Formed ·.1) (s.passElems u p int t n e) := by
  induction n with
  | zero => exact fun h => .ok h
  | succ n ih =>
    intro s e h
    unfold State.passElems
    extract_lets row col
    refine .bind (p := (Formed ·.1)) ?_ ?_
    · split
      · refine .bind (State.passPairs_wf _ h) ?_
        rintro ⟨v, l⟩ hv
        exact .ok hv
      · exact .ok h
    · rintro ⟨v, x⟩ hv
      refine .bind (ih hv) ?_
      rintro ⟨w, r⟩ hw
      exact .ok hw

theorem State.passStore_wf {u : EngUser} {p : Pass} {t : Nat} {bytes : List Byte} (n : Nat) :
    ∀ {s : State} {w : Nat}, Formed s → Ends Formed (s.passStore u p t bytes n w) := by
  induction n with
  | zero => exact fun h => .ok h
  | succ n ih =>
    intro s w h
    unfold State.passStore
    extract_lets unit per count row col keep a
    split
    · exact .ok h
    · split
      · have written := State.engWrite_wf (u := u) (sp := p.c.space) (a := a) (bs := (bytes.drop (w * unit)).take keep) h
        split
        · rename_i v e
          exact ih (written.answer e)
        · rename_i v f e
          exact .stop (written.stopped e)
      · exact ih h

theorem State.passBias_wf {u : EngUser} {epi : Word} (k : Nat) :
    ∀ {s : State} {i : Nat}, Formed s → Ends (fun _ => True) (s.passBias u epi k i) := by
  induction k with
  | zero =>
    intro s i h
    unfold State.passBias
    exact .ok trivial
  | succ k ih =>
    intro s i h
    unfold State.passBias
    refine .bind (State.engRead_wf h) ?_
    rintro ⟨t, x⟩ ht
    exact ih h

theorem State.passTile_wf {s : State} {u : EngUser} {p : Pass} {int : Bool} {t : Nat} (h : Formed s) :
    Ends Formed (s.passTile u p int t) := by
  unfold State.passTile
  refine .bind (State.passElems_wf _ h) ?_
  rintro ⟨t, x⟩ ht
  dsimp only
  refine .bind (State.passBias_wf _ ht) ?_
  intro u hu
  exact State.passStore_wf _ ht

theorem State.passTiles_wf {u : EngUser} {p : Pass} {int : Bool} (k : Nat) :
    ∀ {s : State} {i : Nat}, Formed s → Formed (s.passTiles u p int k i).1 := by
  induction k with
  | zero =>
    intro s i h
    unfold State.passTiles
    exact h
  | succ k ih =>
    intro s i h
    unfold State.passTiles
    split
    · exact h
    · split
      · rename_i _ t v e
        exact ih (Ends.answer (State.passTile_wf h) e)
      · rename_i _ t v w e
        exact (Ends.stopped (State.passTile_wf h) e : Formed v)

theorem State.stopPass_wf {s : State} {n : CoreId} {q : MatCmd} {succ : Succ} {e : EngFault} {t : Nat}
    (h : Formed s) : Formed (s.stopPass n q succ e t) := by
  unfold State.stopPass
  split
  · exact h
  · exact State.endMat_wf h

theorem execMpassRun_wf {n : CoreId} {s : State} (h : Formed s) : ∀ t, execMpassRun n s = .next t → Formed t := by
  unfold execMpassRun
  split
  · rintro _ ⟨⟩
    exact h
  · rename_i q rest _
    split
    · extract_lets p int
      split
      · rename_i u e
        have hu : Formed u := formed_fst (State.passTiles_wf _ h) e
        rintro _ ⟨⟩
        exact State.completeFar_wf (formed_updCore hu)
      · rename_i u t f e
        have hu : Formed u := formed_fst (State.passTiles_wf _ h) e
        rintro _ ⟨⟩
        exact State.stopPass_wf hu
    · rintro _ ⟨⟩
      exact h

theorem State.passOne_wf {s : State} {n : CoreId} (h : Formed s) : Formed (s.passOne n) := by
  unfold State.passOne
  split
  · exact h
  · rename_i q rest _
    split
    · extract_lets p
      split
      · exact h
      · split
        · rename_i u e
          have hu : Formed u := formed_fst (State.passTiles_wf _ h) e
          exact formed_updCore hu
        · rename_i u t f e
          have hu : Formed u := formed_fst (State.passTiles_wf _ h) e
          exact State.stopPass_wf hu
    · exact h

end Sys2Proof.Machine
end

section
/-! ## Memory in canonical form: the privileged instructions (Machine/System) -/

namespace Sys2Proof.Machine

theorem State.privileged_wf {s : State} {i : Instr} {k : State → Out} (h : Formed s)
    (hk : ∀ t, k s = .next t → Formed t) : ∀ t, s.privileged i k = .next t → Formed t := by
  unfold State.privileged
  split
  · exact hk
  · rintro _ ⟨⟩
    exact State.stop_wf h

theorem execTrap_wf {n : BitVec 9} {s : State} (h : Formed s) : ∀ t, execTrap n s = .next t → Formed t := by
  unfold execTrap
  rintro _ ⟨⟩
  exact State.takeTrap_wf h

theorem execTret_wf {s : State} (h : Formed s) : ∀ t, execTret s = .next t → Formed t := by
  unfold execTret
  refine State.privileged_wf h ?_
  rintro _ ⟨⟩
  exact State.trapReturn_wf h

theorem execTretEnd_wf {s : State} (h : Formed s) : ∀ t, execTretEnd s = .next t → Formed t := by
  unfold execTretEnd
  refine State.privileged_wf h ?_
  refine finish_wf ?_
  refine .bind (State.beforeEnd_wf h) ?_
  intro t ht
  exact .ok (State.trapReturn_wf ht)

theorem execIdle_wf {s : State} (h : Formed s) : ∀ t, execIdle s = .next t → Formed t := by
  unfold execIdle
  refine State.privileged_wf h ?_
  extract_lets c u
  have hu : Formed u := State.endTask_wf h
  clear_value u
  split
  · rintro _ ⟨⟩
    exact State.nestedTrap_wf h
  · split
    · rintro _ ⟨⟩
      exact State.stop_wf h
    · rintro _ ⟨⟩
      split
      · exact formed_updMe hu
      · exact hu

theorem execSget_wf {d : SReg} {k : BitVec 9} {s : State} (h : Formed s) :
    ∀ t, execSget d k s = .next t → Formed t := by
  unfold execSget
  split
  · exact State.retire_wf h
  · exact State.privileged_wf h (State.retire_wf h)

theorem execSset_wf {a : SReg} {k : BitVec 9} {s : State} (h : Formed s) :
    ∀ t, execSset a k s = .next t → Formed t := by
  unfold execSset
  refine State.privileged_wf h ?_
  rintro _ ⟨⟩
  exact h

theorem execPlbw_wf {d a : SReg} {n : BitVec 4} {s : State} (h : Formed s) :
    ∀ t, execPlbw d a n s = .next t → Formed t := by
  unfold execPlbw
  refine State.privileged_wf h ?_
  rintro _ ⟨⟩
  exact h

theorem execPlbi_wf {n : BitVec 4} {s : State} (h : Formed s) : ∀ t, execPlbi n s = .next t → Formed t := by
  unfold execPlbi
  refine State.privileged_wf h ?_
  rintro _ ⟨⟩
  exact h

theorem execPlbiAll_wf {s : State} (h : Formed s) : ∀ t, execPlbiAll s = .next t → Formed t := by
  unfold execPlbiAll
  refine State.privileged_wf h ?_
  rintro _ ⟨⟩
  exact h

theorem State.moveHeld_wf {s : State} {lid old n : CoreId} (h : Formed s) : Formed (s.moveHeld lid old n) := by
  unfold State.moveHeld
  extract_lets c
  split <;> exact h

theorem execRemap_wf {d a : SReg} {s : State} (h : Formed s) : ∀ t, execRemap d a s = .next t → Formed t := by
  unfold execRemap
  refine State.privileged_wf h ?_
  dsimp only
  split
  · exact State.retire_wf h
  · refine State.retire_wf ?_
    split
    · refine State.moveHeld_wf ?_
      split <;> exact h
    · split <;> exact h

theorem State.cancelSpot_wf {s : State} {a : Word} {sp : Space} (h : Formed s) : Formed (s.cancelSpot a sp).1 := by
  unfold State.cancelSpot
  dsimp only
  split
  · exact h
  · split
    · exact h
    · split
      · rename_i _ u v w e
        exact (formed_fst (State.translate_wf h) e : Formed v)
      · rename_i _ u v w t1 e
        exact (formed_fst (State.translate_wf h) e : Formed v)
  · split
    · exact h
    · split
      · exact h
      · split
        · exact h
        · split
          · rename_i _ _ _ u v w e
            exact (formed_fst (State.translate_wf h) e : Formed v)
          · rename_i _ _ _ u v w t1 e
            exact (formed_fst (State.translate_wf h) e : Formed v)

theorem State.cancelAll_wf {s : State} {p : Mooring → Bool} {q : WeirEntry → Bool} (h : Formed s) :
    Formed (s.cancelAll p q).1 := by
  unfold State.cancelAll
  refine foldl_keeps Formed _ (fun u x hu => ?_) _ _ (foldl_keeps Formed _ (fun _ _ hu => State.syncReply_wf hu) _ _ h)
  split
  · exact State.weirFell_wf (State.syncReply_wf hu)
  · exact hu

theorem State.cancelAt_wf {s : State} {p : Spot} (h : Formed s) : Formed (s.cancelAt p).1 := by
  unfold State.cancelAt
  exact State.cancelAll_wf h

theorem State.reclaim_wf {s : State} {dom : BitVec 16} {frame : Nat} (h : Formed s) :
    Formed (s.reclaim dom frame) := by
  unfold State.reclaim
  exact State.cancelAll_wf h

theorem execMcancel_wf {d a : SReg} {sp : Space} {s : State} (h : Formed s) :
    ∀ t, execMcancel d a sp s = .next t → Formed t := by
  unfold execMcancel
  refine State.privileged_wf h ?_
  split
  · rename_i t u e
    exact State.retire_wf (formed_fst (State.cancelSpot_wf h) e)
  · rename_i t u v e
    dsimp only
    exact State.retire_wf (State.cancelAt_wf (formed_fst (State.cancelSpot_wf h) e))

theorem execPginv_wf {d a : SReg} {z : BitVec 2} {s : State} (h : Formed s) :
    ∀ t, execPginv d a z s = .next t → Formed t := by
  unfold execPginv
  refine State.privileged_wf h ?_
  dsimp only
  rintro _ ⟨⟩
  exact h

theorem execIcinv_wf {s : State} (h : Formed s) : ∀ t, execIcinv s = .next t → Formed t := by
  unfold execIcinv
  refine State.privileged_wf h ?_
  rintro _ ⟨⟩
  exact State.invalidateCode_wf h

end Sys2Proof.Machine
end

section
/-! ## Memory in canonical form: saving and loading a context (Machine/SaveLoad) -/

namespace Sys2Proof.Machine

theorem State.storeArea_wf (l : List Word) : ∀ {s : State} {k : Nat}, Formed s → Formed (s.storeArea k l).1 := by
  induction l with
  | nil =>
    intro s k h
    unfold State.storeArea
    exact h
  | cons a l ih =>
    intro s k h
    unfold State.storeArea
    split
    · rename_i t u v e
      exact ih (State.dieWrite_wf _ _ _ _ _ _ (Ends.answer_fst (State.checkGlobal_wf h) e))
    · rename_i t u v e
      exact (Ends.stopped (State.checkGlobal_wf h) e : Formed u)

theorem State.loadArea_wf (i : Nat) : ∀ {s : State} {k : Nat}, Formed s → Formed (s.loadArea k i).1 := by
  induction i with
  | zero =>
    intro s k h
    unfold State.loadArea
    exact h
  | succ i ih =>
    intro s k h
    unfold State.loadArea
    split
    · rename_i t u v e
      exact (Ends.stopped (State.checkGlobal_wf h) e : Formed u)
    · rename_i t u v e
      split
      · exact (Ends.answer_fst (State.checkGlobal_wf h) e : Formed u)
      · split
        · rename_i _ w t1 u1 e1
          split
          · rename_i _ v1 w1 t2 e2
            exact (formed_fst (ih (formed_fst (State.dieRead_wf _ _ _ _ _ _ (Ends.answer_fst
              (State.checkGlobal_wf h) e)) e1)) e2 : Formed w1)
          · rename_i _ v1 w1 t2 e2
            exact (formed_fst (ih (formed_fst (State.dieRead_wf _ _ _ _ _ _ (Ends.answer_fst
              (State.checkGlobal_wf h) e)) e1)) e2 : Formed w1)

theorem State.leaveSaved_wf {s : State} {n : CoreId} {area : Nat} (h : Formed s) : Formed (s.leaveSaved n area) := by
  unfold State.leaveSaved
  exact State.unpin_wf (State.detachFollowers_wf h)

theorem execFsave_wf {d a : SReg} {s : State} (h : Formed s) : ∀ t, execFsave d a s = .next t → Formed t := by
  unfold execFsave
  refine State.privileged_wf h (finish_wf ?_)
  extract_lets x
  split
  · exact .ok (formed_wsNext h)
  · split
    · exact .ok (formed_wsNext h)
    · refine .bind (State.drain_wf h) fun t ht => ?_
      have hf : Formed (t.flightsFrom t.cur t.me.flight.length) := State.flightsFrom_wf _ ht
      generalize t.flightsFrom t.cur t.me.flight.length = u at hf ⊢
      refine .demand hf ?_
      have stored : Formed (u.storeArea x.toNat (u.saveArea u.cur)).1 := State.storeArea_wf _ hf
      split
      · rename_i v ea e
        exact .ok (formed_wsNext (formed_updMe (formed_fst stored e)))
      · rename_i v e
        exact .ok (formed_wsNext (State.leaveSaved_wf (formed_fst stored e)))

theorem State.loadFrom_wf {s : State} {area : Nat} {w : Array Word} (h : Formed s) : Formed (s.loadFrom area w) := by
  unfold State.loadFrom
  extract_lets at_ n lid kept loaded restored settled
  have hl : Formed loaded := formed_updCore (State.unpin_wf h)
  have hr : Formed restored := formed_restored hl
  have hs : Formed settled := State.invalidateCode_wf (formed_payAllowance (formed_loadStatus hr))
  exact formed_updCore hs

theorem State.loadSaved_wf {s : State} {d : SReg} {x : Word} (h : Formed s) :
    ∀ t, s.loadSaved d x = .next t → Formed t := by
  unfold State.loadSaved
  dsimp only
  split
  · rename_i t u v e
    exact State.retire_wf ((formed_fst (State.loadArea_wf _ h) e : Formed u))
  · rename_i t u v e
    split
    · exact State.retire_wf (formed_fst (State.loadArea_wf _ h) e)
    · split
      · rename_i _ w t1 u1 e1
        exact State.retire_wf ((formed_fst (State.loadArea_wf _ (formed_fst (State.loadArea_wf _ h) e)) e1 : Formed t1))
      · rename_i _ w t1 u1 e1
        exact State.retire_wf (State.loadFrom_wf (formed_fst (State.loadArea_wf _ (formed_fst (State.loadArea_wf _ h) e)) e1))

theorem execFload_wf {d a : SReg} {s : State} (h : Formed s) : ∀ t, execFload d a s = .next t → Formed t := by
  unfold execFload
  refine State.privileged_wf h ?_
  dsimp only
  split
  · exact State.retire_wf h
  · split
    · exact State.retire_wf h
    · split
      · rename_i _ _ t u e
        exact State.loadSaved_wf (Ends.answer (State.drain_wf h) e)
      · rename_i _ _ t u v e
        rintro _ ⟨⟩
        exact State.stop_wf (Ends.stopped (State.drain_wf h) e)

end Sys2Proof.Machine
end

section
/-! ## Memory in canonical form: scalar instructions (Machine/Scalar) -/

namespace Sys2Proof.Machine

theorem State.ownWords_wf (i : Nat) : ∀ {s : State} {k : Nat}, Formed s → Ends (fun _ => True) (s.ownWords k i) := by
  induction i with
  | zero =>
    intro s k h
    unfold State.ownWords
    exact .ok trivial
  | succ i ih =>
    intro s k h
    unfold State.ownWords
    refine .bind (State.loadWord_wf h) ?_
    rintro ⟨t, x⟩ ht
    dsimp only
    refine .bind (ih h) ?_
    intro u hu
    exact .ok trivial

theorem execGaddr_wf {d a b : SReg} {s : State} (h : Formed s) : ∀ t, execGaddr d a b s = .next t → Formed t := by
  unfold execGaddr
  dsimp only
  refine finish_wf ?_
  refine .demand h ?_
  refine .demand h ?_
  refine .bind (State.settleFlights_wf h) ?_
  intro t ht
  refine .bind (State.ownWords_wf _ ht) ?_
  intro u hu
  split
  · exact .ok ht
  · exact .stop ht

end Sys2Proof.Machine
end

section
/-! ## Memory in canonical form: shapes (Machine/Shape) -/

namespace Sys2Proof.Machine

theorem State.resolveInstances_wf {s : State} {id n : Nat} {region : Region} (h : Formed s) :
    Formed (s.resolveInstances id n region) := by
  unfold State.resolveInstances
  refine State.weirFell_wf ?_
  refine foldl_keeps Formed _ (fun u x hu => ?_) _ _ ?_
  · exact hu
  · refine foldl_keeps Formed _ (fun u x hu => ?_) _ _ h
    split <;> exact hu

theorem State.commitOne_wf {s : State} {p : Prov} (h : Formed s) : Formed (s.commitOne p) := by
  unfold State.commitOne
  exact State.homeStore_wf _ _ _ _ (foldl_keeps Formed _ (fun _ _ hu => State.evictCopy_wf _ _ _ hu) _ _ h)

theorem State.commitProv_wf {s : State} {id n : Nat} (h : Formed s) : Formed (s.commitProv id n) := by
  unfold State.commitProv
  refine foldl_keeps Formed _ (fun u x hu => ?_) _ _ ?_
  · exact foldl_keeps Formed _ (fun _ _ hv => State.commitOne_wf hv) _ _ hu
  · split
    · exact h
    · exact foldl_keeps Formed _ (fun _ _ hu => State.releaseDie_wf _ _ hu) _ _ h

theorem State.resolveRecord_wf {s : State} {die : BitVec 4} {n : Nat} {r : Record} (h : Formed s) :
    Formed (s.resolveRecord die n r) := by
  unfold State.resolveRecord
  split
  · exact h
  · split
    · exact h
    · split
      · split
        · rename_i _ v w e2
          exact (State.partStore_wf _ _ _ _ h e2 : Formed w)
        · exact State.machineCheck_wf h
      · exact h

theorem State.resolveBuffer_wf {s : State} {id n i : Nat} {b : Option EpiBuf} (h : Formed s) :
    Formed (s.resolveBuffer id n i b).1 := by
  unfold State.resolveBuffer
  dsimp only
  split
  · exact h
  · split
    · split
      · exact h
      · split <;> exact h
    · split
      · exact h
      · split <;> exact h

theorem State.resolveBuffers_wf {s : State} {id n : Nat} (h : Formed s) : Formed (s.resolveBuffers id n) := by
  unfold State.resolveBuffers
  extract_lets held
  have hh : Formed held := by
    refine foldl_keeps Formed _ (fun u x hu => ?_) _ _ h
    dsimp only
    split
    · exact hu
    · exact formed_updCore (State.resolveBuffer_wf (State.resolveBuffer_wf hu))
  clear_value held
  have hs := foldl_keeps (fun p : State × List Saved => Formed p.1)
    (fun (p : State × List Saved) k =>
      if !k.current then (p.1, p.2 ++ [k])
      else
      let (s, b0) := p.1.resolveBuffer id n 0 k.epi0
      let (s, b1) := s.resolveBuffer id n 1 k.epi1
      (s, p.2 ++ [{ k with epi0 := b0, epi1 := b1 }])) (fun p k hp => by
        split
        · exact hp
        · exact State.resolveBuffer_wf (State.resolveBuffer_wf hp)) held.saved (held, []) hh
  exact formed_saved hs

theorem State.resolveShape_wf {s : State} {l : Launch} {word : Word} (h : Formed s) :
    Formed (s.resolveShape l word) := by
  unfold State.resolveShape
  extract_lets count n die parked resolved counted trimmed told placed noted records buffers
  have hr : Formed resolved := State.resolveInstances_wf h
  have hc : Formed counted := formed_updLaunch hr
  have ht : Formed trimmed := State.trimTied_wf (State.commitProv_wf hc)
  have hp : Formed placed := State.placeRecords_wf (formed_tellShape ht)
  have hn : Formed noted := formed_updSlot hp
  have hs : Formed records := foldl_keeps Formed _ (fun _ _ hu => State.resolveRecord_wf hu) _ _ hn
  have hb : Formed buffers := State.resolveBuffers_wf hs
  clear_value buffers
  split
  · exact State.finishLaunch_wf hb
  · exact hb

theorem execShapeResolve_wf {l : BitVec 32} {s : State} (h : Formed s) :
    ∀ t, execShapeResolve l s = .next t → Formed t := by
  unfold execShapeResolve
  split
  · rintro _ ⟨⟩
    exact h
  · split
    · rintro _ ⟨⟩
      exact State.resolveShape_wf h
    · rintro _ ⟨⟩
      exact h

end Sys2Proof.Machine
end

section
/-! ## Memory in canonical form: the turns of the schedule (Machine/Turns) -/

namespace Sys2Proof.Machine

theorem State.barWrite_wf {s : State} {ld : BitVec 4} {off : Nat} {x : Word} (h : Formed s) :
    Formed (s.barWrite ld off x) := by
  unfold State.barWrite
  extract_lets
  split
  · exact h
  · split
    · exact h
    · split
      · exact h
      · split
        · exact h
        · split <;> exact h

theorem State.lineTake_wf {s : State} {pa : Nat} {blk : BitVec 10} (h : Formed s) : Formed (s.lineTake pa blk) := by
  unfold State.lineTake
  extract_lets line
  split <;> exact h

theorem State.lineGive_wf {s : State} {pa : Nat} (h : Formed s) : Formed (s.lineGive pa) := by
  unfold State.lineGive
  extract_lets line
  split <;> exact h

theorem State.otherTurn_wf {s : State} {x : Turn} (h : Formed s) : Formed (s.otherTurn x) := by
  unfold State.otherTurn
  split
  · exact State.evictCopy_wf _ _ _ h
  · exact h
  · exact h
  · exact h
  · exact State.notifyHeat_wf (State.rearm_wf h)
  · exact State.remoteIn_wf h
  · exact State.queueRead_wf h
  · exact State.queueWrite_wf h
  · exact State.lineTake_wf h
  · exact State.lineGive_wf h
  · exact State.wordError_wf h
  · exact State.copyError_wf h
  · exact State.pageError_wf h
  · exact State.tcmError_wf h
  · exact h
  · exact State.reclaim_wf h
  · exact State.wireAck_wf h
  · exact State.wireAbsent_wf h
  · exact State.wireFull_wf h
  · exact h
  · exact State.remoteTaken_wf h
  · exact State.passOne_wf h
  · exact State.supervisorUnbind_wf h
  · exact State.remoteDone_wf h
  · exact State.guestRequest_wf h
  · exact h
  · exact State.barWrite_wf h
  · split <;> exact h
  · exact h

end Sys2Proof.Machine
end

section
/-! ## Memory in canonical form: a step -/

namespace Sys2Proof.Machine

theorem exec_wf {i : Instr} {s : State} (h : Formed s) : ∀ t, exec i s = .next t → Formed t := by
  cases i
  case add | sub | mul | mulh | mulhu | min | max | minu | maxu | div | divu | rem | remu | and | or | xor | andn |
      shl | shr | sar | rot | clz | ctz | pop | cmp | sel | bext | bexts | bins | addImmediate | andImmediate |
      orImmediate | xorImmediate | shlImmediate | shrImmediate | sarImmediate | rotImmediate | li | movh | cmpImmediate |
      getb | vext | vred | ptest | ptestW | estat | shape | compactMov | compactAdd | compactSub | compactAnd | compactOr
      | compactXor | compactShl | compactShr | compactSar | compactMul | compactMin | compactMax | compactAndn | compactLi
      | compactAddImmediate | compactShlImmediate | compactShrImmediate | compactSarImmediate | compactAndImmediate |
      compactRotImmediate | compactXorImmediate | compactPop | compactSgetLid | compactClz | compactCtz | compactNeg =>
    exact State.retire_wf h
  case bCond | jbtCond | compactBEq | compactBNe => exact State.branch_wf h
  case b | call | ret | jbt | callb | compactRet | compactJbt => exact State.jump_wf h h
  case setb | pbt | pf | swarmJoinTimeout | swarmDetach | weirSpaceReply | doorbell | keySlotCommit | dividerWrite |
      sramRailWindow | logicRailLower | icacheParityError | linkRetransmit | linkRetrain =>
    rintro _ ⟨⟩; exact h
  case swleave | compactSwleave => exact State.swleave_wf h
  case swjoin | compactSwjoin => exact State.swjoin_wf h
  case ldT | ldC | ld | compactLdT | compactLd | compactLdTFrame | compactLdTAbsolute | compactLdC =>
    exact State.plainLoad_wf h
  case stT | stC | st | compactStT | compactStTFrame | compactStTAbsolute | compactStC | compactSt =>
    exact State.plainStore_wf h
  case feFill | feEmpty => exact State.syncWrite_wf h
  case fence | compactFence => exact State.fence_wf h
  case vabs | vneg => exact State.vsign_wf h
  case vmin | vmax | vcmp | vsel | vshuf | vbcastScalar | vbcastLane | vins | vdot => exact State.retireV_wf h
  case mmul | mmulL | mmulSp | mmulSpL | mcb | mcbL => exact State.multiply_wf h
  case mepiResume | mepiDrop => exact State.epiCommand_wf h
  case hld | hst => exact State.transfer_wf h
  case done | compactDone => exact State.done_wf h
  case armRegister | armImmediate | disarmRegister | disarmImmediate => exact State.setArmed_wf h
  case claim | compactClaim => exact State.claim_wf h
  case unclaim | compactUnclaim => exact State.unclaim_wf h
  case rng | compactRng => exact State.rng_wf h
  case tick | compactTick => exact State.tick_wf h
  case gaddr => exact execGaddr_wf h
  case swform => exact execSwform_wf h
  case ldAcq => exact execLdAcq_wf h
  case stRel => exact execStRel_wf h
  case amo => exact execAmo_wf h
  case ldq => exact execLdq_wf h
  case feTest => exact execFeTest_wf h
  case rreq => exact execRreq_wf h
  case vaddInt => exact execVaddInt_wf h
  case vsubInt => exact execVsubInt_wf h
  case vadds => exact execVadds_wf h
  case vsubs => exact execVsubs_wf h
  case vmulInt => exact execVmulInt_wf h
  case vmulh => exact execVmulh_wf h
  case vshl => exact execVshl_wf h
  case vshr => exact execVshr_wf h
  case vand => exact execVand_wf (x := 0) h
  case vor => exact execVor_wf (x := 0) h
  case vxor => exact execVxor_wf (x := 0) h
  case vandn => exact execVandn_wf (x := 0) h
  case vaddFp => exact execVaddFp_wf h
  case vsubFp => exact execVsubFp_wf h
  case vmulFp => exact execVmulFp_wf h
  case vfma => exact execVfma_wf h
  case vfnma => exact execVfnma_wf h
  case vcvt => exact execVcvt_wf h
  case vsmrg => exact execVsmrg_wf h
  case vsfu => exact execVsfu_wf h
  case vld => exact execVld_wf h
  case vst => exact execVst_wf h
  case mfmt => exact execMfmt_wf h
  case mzero => exact execMzero_wf h
  case maccToVector => exact execMaccToVector_wf h
  case maccToAccumulator => exact execMaccToAccumulator_wf h
  case mbl => exact execMbl_wf h
  case mring => exact execMring_wf h
  case mpass => exact execMpass_wf h
  case mepi => exact execMepi_wf h
  case hbind => exact execHbind_wf h
  case hpermRegister => exact execHpermRegister_wf h
  case hpermImmediate => exact execHpermImmediate_wf h
  case hbund => exact execHbund_wf h
  case hclr => exact execHclr_wf h
  case hthr => exact execHthr_wf h
  case htie => exact execHtie_wf h
  case hdist => exact execHdist_wf h
  case hpop => exact execHpop_wf h
  case hrcl => exact execHrcl_wf h
  case send => exact execSend_wf h
  case ralloc => exact execRalloc_wf h
  case rtrim => exact execRtrim_wf h
  case copy => exact execCopy_wf h
  case cpst => exact execCpst_wf h
  case walk => exact execWalk_wf h
  case barv => exact execBarv_wf h
  case launch => exact execLaunch_wf h
  case enc => exact execEnc_wf h
  case trap => exact execTrap_wf h
  case tret => exact execTret_wf h
  case tretEnd => exact execTretEnd_wf h
  case sget => exact execSget_wf h
  case sset => exact execSset_wf h
  case fsave => exact execFsave_wf h
  case fload => exact execFload_wf h
  case plbw => exact execPlbw_wf h
  case plbi => exact execPlbi_wf h
  case plbiAll => exact execPlbiAll_wf h
  case remap => exact execRemap_wf h
  case mcancel => exact execMcancel_wf h
  case pginv => exact execPginv_wf h
  case icinv => exact execIcinv_wf h
  case idle => exact execIdle_wf h
  case illegalInstruction => exact execIllegalInstruction_wf h
  case fetchFault => exact execFetchFault_wf h
  case arrivalAccept => exact execArrivalAccept_wf h
  case stallWatchdog => exact execStallWatchdog_wf h
  case supervisorRunLimit => exact execSupervisorRunLimit_wf h
  case dieEntryResolve => exact execDieEntryResolve_wf h
  case movedRedirect => exact execMovedRedirect_wf h
  case weirRefill => exact execWeirRefill_wf h
  case weirFullReply => exact execWeirFullReply_wf h
  case storeBufferDrain => exact execStoreBufferDrain_wf h
  case syncAccessAtOwner => exact execSyncAccessAtOwner_wf h
  case ldqEntryDeliver => exact execLdqEntryDeliver_wf h
  case atomicReply => exact execAtomicReply_wf h
  case pageRefill => exact execPageRefill_wf h
  case pageWalk => exact execPageWalk_wf h
  case gatedReply => exact execGatedReply_wf h
  case remoteRequestPerform => exact execRemoteRequestPerform_wf h
  case remoteRequestComplete => exact execRemoteRequestComplete_wf h
  case copyEngineRun => exact execCopyEngineRun_wf h
  case streamEntryAppend => exact execStreamEntryAppend_wf h
  case matrixCommandPerform => exact execMatrixCommandPerform_wf h
  case latchTake => exact execLatchTake_wf h
  case ringHandoff => exact execRingHandoff_wf h
  case latchWaitTimeout => exact execLatchWaitTimeout_wf h
  case mpassRun => exact execMpassRun_wf h
  case sfuAccept => exact execSfuAccept_wf h
  case sfuLand => exact execSfuLand_wf h
  case channelEntrySend => exact execChannelEntrySend_wf h
  case channelEntryArrive => exact execChannelEntryArrive_wf h
  case allowanceReturn => exact execAllowanceReturn_wf h
  case launchFrontEndCheck => exact execLaunchFrontEndCheck_wf h
  case dispenserRound => exact execDispenserRound_wf h
  case stageRelease => exact execStageRelease_wf h
  case unbind => exact execUnbind_wf h
  case tileWalkerRun => exact execTileWalkerRun_wf h
  case barrierArrive => exact execBarrierArrive_wf h
  case gangBarrierNotice => exact execGangBarrierNotice_wf h
  case shapeResolve => exact execShapeResolve_wf h
  case allocationService => exact execAllocationService_wf h
  case periodRelease => exact execPeriodRelease_wf h
  case budgetOverrun => exact execBudgetOverrun_wf h
  case pacerRelease => exact execPacerRelease_wf h
  case loadExchange => exact execLoadExchange_wf h
  case loadFigure => exact execLoadFigure_wf h
  case pginvComplete => exact execPginvComplete_wf h
  case pageMigration => exact execPageMigration_wf h
  case oldHomeForward => exact execOldHomeForward_wf h
  case forwardCredit => exact execForwardCredit_wf h
  case acknowledgement => exact execAcknowledgement_wf h
  case hostMemAccess => exact execHostMemAccess_wf h
  case hostRequestTake => exact execHostRequestTake_wf h
  case rcbWindowGo => exact execRcbWindowGo_wf h
  case powerSwitchWrite => exact execPowerSwitchWrite_wf h
  case scratchpadGateRequest => exact execScratchpadGateRequest_wf h
  case clusterGateRequest => exact execClusterGateRequest_wf h
  case gateDrainComplete => exact execGateDrainComplete_wf h
  case gateWake => exact execGateWake_wf h
  case wakeComplete => exact execWakeComplete_wf h
  case coreReset => exact execCoreReset_wf h
  case pacerEnable => exact execPacerEnable_wf h
  case mgmtRegisterWrite => exact execMgmtRegisterWrite_wf h
  case thermalNotify => exact execThermalNotify_wf h
  case timingReplay => exact execTimingReplay_wf h
  case coreCheck => exact execCoreCheck_wf h
  case evictionError => exact execEvictionError_wf h
  case settleFlit => exact execSettleFlit_wf h
  case encQueueAccept => exact execEncQueueAccept_wf h
  case encJobStart => exact execEncJobStart_wf h
  case encRowReady => exact execEncRowReady_wf h
  case encRowTimeout => exact execEncRowTimeout_wf h
  case encUnitWrite => exact execEncUnitWrite_wf h
  case moduleReset => exact execModuleReset_wf h
  case armedFlagRearm => exact execArmedFlagRearm_wf h

theorem State.nextInstr_formed {s u : State} {i : Option Instr} (h : Formed s) (e : s.nextInstr = (u, i)) : Formed u :=
  formed_fst (State.nextInstr_wf h) e

theorem State.runCore_wf {s : State} (h : Formed s) : ∀ t, s.runCore = .next t → Formed t := by
  unfold State.runCore
  split
  · rename_i u i e
    have run := exec_wf (i := i) (State.nextInstr_formed h e)
    split
    · rename_i v ev
      rintro _ ⟨⟩
      exact State.gangStep_wf (run v ev)
    · exact run
  · rename_i u e
    rintro _ ⟨⟩
    exact State.nextInstr_formed h e

theorem State.runAccepting_wf {s : State} (h : Formed s) : ∀ t, s.runAccepting = .next t → Formed t := by
  unfold State.runAccepting
  split
  · rename_i u i e
    have hu : Formed u := State.nextInstr_formed h e
    have placed : Formed (if i.selects then u.acceptLoose u.cur else (u, none)).1 := by
      split
      · exact State.acceptLoose_wf hu
      · exact hu
    split
    rename_i v late ev
    have run := exec_wf (i := i) (formed_fst placed ev)
    split
    · rename_i w ew
      have hw : Formed (v.gangStep w v.cur i) := State.gangStep_wf (run w ew)
      rintro _ ⟨⟩
      split
      · exact State.selectNext_wf (State.settleLoose_wf hw)
      · exact State.acceptOne_wf hw
    · exact run
  · rename_i u e
    rintro _ ⟨⟩
    exact State.acceptOne_wf (State.nextInstr_formed h e)

theorem step_wf {s : State} (h : Formed s) : ∀ t, step s = .next t → Formed t := by
  unfold step
  extract_lets u
  have hu : Formed u := h
  clear_value u
  split
  · exact State.runCore_wf (s := { u with slow := false }) hu
  · rename_i m r _
    extract_lets v
    have hv : Formed v := hu
    clear_value v
    split
    · exact State.runCore_wf (s := { v with cur := _, slow := false }) hv
    · exact State.runCore_wf (s := { v with cur := _, slow := true }) hv
    · exact State.runAccepting_wf (s := { v with cur := _, slow := false }) hv
    · exact State.runCore_wf (s := { v with cur := _, slow := false, breakAt := _ }) hv
    · split
      · exact exec_wf hv
      · rintro _ ⟨⟩
    · rintro _ ⟨⟩
      exact State.otherTurn_wf hv

/-- Settles O51: whatever turn the schedule names, the step's operations keep the form, each by its own lemma above. -/
theorem stepKeepsMemoryCanonical : Obligations.StepKeepsMemoryCanonical :=
  fun _ t h e => step_wf h t e

end Sys2Proof.Machine
end

section
/-! ## `gaddr`, and words of a core's own TCM (R106, R113, R195) -/

namespace Sys2Proof.Machine

/-! ### Bytes of the TCM that a load reads -/

theorem overlay_none {f : Nat → Byte → Byte} (none : ∀ a b, f a b = b) : ∀ a l, overlay f a l = l
  | _, [] => rfl
  | a, b :: r => by rw [overlay, none, overlay_none none]

theorem fwdByte_nil (sp : Space) (dom : BitVec 16) (va : Nat) (b : Byte) : fwdByte [] sp dom va b = b := rfl

/-- A plain access to a TCM waits for nothing at its owner. -/
theorem State.plainWait_tcm (s : State) (n : CoreId) (dom : BitVec 16) (m : CoreId) (off : Nat) (region : Option Region) :
    s.plainWait n dom (.tcm m off) region = none := rfl

theorem State.accPoisoned_tcm (s : State) (n m : CoreId) (dom : BitVec 16) (off va pa : Nat) :
    s.accPoisoned n dom { loc := .tcm m off, va, pa } = poisonGet (s.core m).tcmPoison (off / 8) := rfl

/-- With nothing of the core under way, and no poison, a load from its TCM reads the bytes that stand there (R113, R219). -/
theorem State.loadWord_tcm_quiet (s : State) (off k : Nat) (buffer : s.me.sbuf = []) (flight : s.me.flight = [])
    (amo : s.me.amoWait = false) (poison : s.me.tcmPoison = []) :
    s.loadWord .tcm { loc := .tcm s.cur off, va := off, pa := 0 } k = .ok (s, s.me.tcm.read off k) := by
  have clean : s.accPoisoned s.cur s.me.dom { loc := .tcm s.cur off, va := off, pa := 0 } = false := by
    rw [State.accPoisoned_tcm, show (s.core s.cur).tcmPoison = [] from poison]
    rfl
  unfold State.loadWord
  rw [State.settleFlights_none s s.cur flight amo]
  simp only [bind, Except.bind, State.plainWait_tcm, clean, buffer, Bool.not_false, Bool.true_or, demand_true, State.rawRead,
    overlay_none (fwdByte_nil _ _)]
  rfl

theorem State.ownWords_quiet (s : State) (buffer : s.me.sbuf = []) (flight : s.me.flight = []) (amo : s.me.amoWait = false)
    (poison : s.me.tcmPoison = []) (n : Nat) :
    ∀ off, s.ownWords off n = .ok ((List.range n).map fun i => s.me.tcmWord (off + 8 * i)) := by
  induction n with
  | zero => exact fun _ => rfl
  | succ n ih =>
    intro off
    have rest : (List.range n).map (fun i => s.me.tcmWord (off + 8 + 8 * i)) =
        (List.range n).map ((fun i => s.me.tcmWord (off + 8 * i)) ∘ Nat.succ) :=
      List.map_congr_left fun i _ => congrArg s.me.tcmWord (by simp only [Nat.succ_eq_add_one]; omega)
    rw [State.ownWords, State.loadWord_tcm_quiet s off 8 buffer flight amo poison]
    simp only [bind, Except.bind]
    rw [ih, List.range_succ_eq_map, List.map_cons, List.map_map, rest]
    rfl

/-! ### The checks of `gaddr`, and its answer (R195) -/

/-- A table that `gaddr` may read: aligned, within the TCM and below level 7 within the stack. -/
def State.tableFits (s : State) (t : Word) : Prop :=
  t.toNat % 64 = 0 ∧ t.toNat + 64 ≤ 0xC000 ∧ (s.me.level = 7 ∨ t.toNat + 64 ≤ s.me.slim.toNat)

theorem exec_gaddr (s : State) (d a b : SReg) : exec (.gaddr d a b) s = execGaddr d a b s := rfl

theorem traps_gaddr_misaligned {s : State} {d a b : SReg} (odd : (s.rs b).toNat % 64 ≠ 0) :
    Traps s (.gaddr d a b) 0x02 (s.rs b) := by
  refine traps_finish (exec_gaddr s d a b) ?_
  simp [odd, bind, Except.bind]

theorem traps_gaddr_outside {s : State} {d a b : SReg} (even : (s.rs b).toNat % 64 = 0) (outside : ¬ s.tableFits (s.rs b)) :
    Traps s (.gaddr d a b) 0x03 (s.rs b) := by
  have no : (decide ((s.rs b).toNat + 64 ≤ 0xC000) &&
      (s.me.level == 7 || decide ((s.rs b).toNat + 64 ≤ s.me.slim.toNat))) = false := by
    simpa [State.tableFits, even] using outside
  refine traps_finish (exec_gaddr s d a b) ?_
  simp only [even, no, decide_true, demand_true, demand_false, bind, Except.bind]

/-- On a table that can be read `gaddr` writes what GAddrMap gives, or takes its trap (R106). -/
theorem exec_gaddr_read {s : State} {d a b : SReg} {tab : List Word} (fits : s.tableFits (s.rs b)) (flight : s.me.flight = [])
    (amo : s.me.amoWait = false) (read : s.ownWords (s.rs b).toNat 8 = .ok tab) :
    exec (.gaddr d a b) s = match gaddrMap tab (s.rs b) (s.rs a) with
      | .ok (lid, off) => s.retire d (BitVec.ofNat 64 (off % 65536 + 65536 * lid.toNat)) 4
      | .error e => .next (s.stop e) := by
  obtain ⟨even, below, within⟩ := fits
  have mine : (decide ((s.rs b).toNat + 64 ≤ 0xC000) &&
      (s.me.level == 7 || decide ((s.rs b).toNat + 64 ≤ s.me.slim.toNat))) = true := by
    simpa [below] using within
  rw [exec_gaddr]
  unfold execGaddr
  simp only [even, mine, decide_true, demand_true, bind, Except.bind, State.settleFlights_none s s.cur flight amo, read]
  cases gaddrMap tab (s.rs b) (s.rs a) with
  | ok x => rfl
  | error e => rfl

/-- Settles O7: the two checks stop with their own traps; past them the table decides. -/
theorem gaddrResults : Obligations.GaddrResults := by
  intro s d a b t
  refine ⟨traps_gaddr_misaligned, fun even past => traps_gaddr_outside even ?_, fun even low past => traps_gaddr_outside even ?_,
    fun tab even below within flight amo read => ?_, fun even below buffer flight amo poison =>
    State.ownWords_quiet s buffer flight amo poison 8 _⟩
  · rintro ⟨_, below, _⟩
    exact absurd past (Nat.not_lt.mpr below)
  · rintro ⟨_, _, top | within⟩
    · exact low top
    · exact absurd past (Nat.not_lt.mpr within)
  · have runs := exec_gaddr_read (d := d) (a := a) ⟨even, below, within⟩ flight amo read
    cases found : gaddrMap tab (s.rs b) (s.rs a) with
    | ok x =>
      rw [found] at runs
      refine retires_retire (runs.trans ?_)
      rw [Nat.add_comm, Nat.mul_comm]
    | error e =>
      rw [found] at runs
      exact runs

end Sys2Proof.Machine
end

section
/-! ## Accesses that the checks stop (R68, R70, R71, R216, R432) -/

namespace Sys2Proof.Machine

/-- Every check of an access of n bytes at ea, of a firm or a tentative frame, stops with cause c and k.addr ea. -/
def State.Bars (s : State) (sp : Space) (ea : Word) (n : Nat) (c : BitVec 5) : Prop :=
  ∀ rd wr, s.checkEa sp ea n rd wr = .error (s, .trap c ea) ∧ ∀ sync, s.check sp ea n rd wr sync = .error (s, .trap c ea)

theorem State.topMgmt_iff {s : State} {sp : Space} {ea : Word} :
    s.topMgmt sp ea = true ↔ sp = .global ∧ s.me.level = 7 ∧ ea.toNat / 2 ^ 48 = 0xFF := by
  have range := ea.isLt
  have space : ea.toNat < 2 ^ 56 ∧ ea.toNat / 2 ^ 48 % 256 = 0xFF ↔ ea.toNat / 2 ^ 48 = 0xFF := by omega
  simp only [State.topMgmt, isMgmt, Bool.and_eq_true, beq_iff_eq, decide_eq_true_eq, and_assoc, space]

/-- R68: an access that is not aligned to its size, but for the management space at level 7. -/
theorem State.bars_misaligned {s : State} {sp : Space} {ea : Word} {n : Nat} (odd : ea.toNat % n ≠ 0)
    (own : ¬ (sp = .global ∧ s.me.level = 7 ∧ ea.toNat / 2 ^ 48 = 0xFF)) : s.Bars sp ea n 0x02 := by
  have outside : s.topMgmt sp ea = false := Bool.eq_false_iff.mpr (mt State.topMgmt_iff.mp own)
  refine fun rd wr => ⟨?_, fun sync => s.check_misaligned outside odd⟩
  simp [State.checkEa, outside, odd, bind, Except.bind]

/-- R432: an access of level 7 to the management space. -/
theorem State.bars_mgmt {s : State} {sp : Space} {ea : Word} {n : Nat}
    (inside : sp = .global ∧ s.me.level = 7 ∧ ea.toNat / 2 ^ 48 = 0xFF) : s.Bars sp ea n 0x03 := by
  have top : s.topMgmt sp ea = true := State.topMgmt_iff.mpr inside
  refine fun rd wr => ⟨?_, fun sync => s.check_topMgmt top⟩
  simp [State.checkEa, top, bind, Except.bind]

theorem State.Bars.check {s : State} {sp : Space} {ea : Word} {n : Nat} {c : BitVec 5} (h : s.Bars sp ea n c) (rd wr sync : Bool) :
    s.check sp ea n rd wr sync = .error (s, .trap c ea) := (h rd wr).2 sync

/-- A tentative frame traps at the same access, before it parks (log entry 10). -/
theorem State.Bars.checkFirm {s : State} {sp : Space} {ea : Word} {n : Nat} {c : BitVec 5} (h : s.Bars sp ea n c)
    (why : BitVec 4) (rd wr sync : Bool) : s.checkFirm why sp ea n rd wr sync = .error (s, .trap c ea) := by
  unfold State.checkFirm
  split
  · rw [(h rd wr).1]
    rfl
  · exact h.check rd wr sync

theorem State.Bars.checkStore {s : State} {sp : Space} {ea : Word} {n : Nat} {c : BitVec 5} (h : s.Bars sp ea n c) :
    s.checkStore sp ea n = .error (s, .trap c ea) := by
  cases sp with
  | scratch => exact h.checkFirm 6 false true false
  | tcm => exact h.check false true false
  | global => exact h.check false true false

/-! ### The TCM (R70, R71) -/

theorem State.check_tcm_beyond {s : State} {ea : Word} {n : Nat} {rd wr sync : Bool} (even : ea.toNat % n = 0)
    (beyond : 0xBFFF < ea.toNat) : s.check .tcm ea n rd wr sync = .error (s, .trap 0x03 ea) := by
  have past : ¬ ea.toNat ≤ 0xBFFF := by omega
  simp [State.check, even, past, bind, Except.bind]

theorem State.check_tcm_barred {s : State} {ea : Word} {n : Nat} {rd wr sync : Bool} (even : ea.toNat % n = 0)
    (within : ea.toNat ≤ 0xBFFF) (no : s.me.tcmAllowed ea.toNat wr = false) :
    s.check .tcm ea n rd wr sync = .error (s, .trap 0x03 ea) := by
  simp [State.check, even, within, no, bind, Except.bind]

/-- The bytes that every access of core c below level 7 may name, and all of them at level 7 (R70, R71). -/
def Core.Names (c : Core) (o : Nat) : Prop :=
  c.level = 7 ∨ o < c.slim.toNat ∨ (c.here.fbase.toNat ≤ o ∧ o < c.here.fbase.toNat + frameSize c.here.fclass c.lvl)

theorem Core.tcmAllowed_write {c : Core} {o : Nat} : c.tcmAllowed o true = true ↔ c.Names o := by
  simp only [Core.tcmAllowed, inFrame, Core.Names, Bool.or_eq_true, Bool.and_eq_true, decide_eq_true_eq, Bool.not_true,
    Bool.false_and, Bool.false_eq_true, or_false, or_assoc]

theorem Core.tcmAllowed_read {c : Core} {o : Nat} :
    c.tcmAllowed o false = true ↔ c.Names o ∨ (c.vbase.toNat ≤ o ∧ o < c.vbase.toNat + 0xA00) := by
  simp only [Core.tcmAllowed, inFrame, Core.Names, Bool.or_eq_true, Bool.and_eq_true, decide_eq_true_eq, Bool.not_false,
    Bool.true_and, or_assoc]

/-! ### The instructions, each at its first check -/

/-- An instruction whose first operation stops with a trap takes it. -/
theorem traps_first {α : Type} {s : State} {i : Instr} {x : Res α} {f : α → Res State} {c : BitVec 5} {a : Word}
    (runs : exec i s = finish (x >>= f)) (stops : x = .error (s, .trap c a)) : Traps s i c a :=
  traps_finish runs (by rw [stops]; rfl)

/-- A load that is none of a management register (R432) takes the trap of its check. -/
theorem traps_plainLoad {s : State} {i : Instr} {sp : Space} {d : SReg} {ea : Word} {z : LdSize} {len : Nat} {c : BitVec 5}
    (runs : exec i s = s.plainLoad sp d ea z len) (plain : sp = .global → z = .b8 → ea.toNat % 8 ≠ 0)
    (stops : s.check sp ea z.bytes true false false = .error (s, .trap c ea)) : Traps s i c ea := by
  refine traps_finish runs ?_
  rw [if_neg fun ⟨global, _, whole, _, _, even⟩ => plain global whole even, State.load, stops]
  rfl

/-- A store that is none to a management register (R432) takes the trap of its check. -/
theorem traps_plainStore {s : State} {i : Instr} {sp : Space} {ea x : Word} {z : MemSize} {len : Nat} {c : BitVec 5}
    (runs : exec i s = s.plainStore sp ea z x len) (plain : sp = .global → z = .b8 → ea.toNat % 8 ≠ 0)
    (stops : s.checkStore sp ea z.bytes = .error (s, .trap c ea)) : Traps s i c ea := by
  refine traps_finish runs ?_
  rw [if_neg fun ⟨global, _, whole, _, _, even⟩ => plain global whole even, State.store, stops]
  rfl

section
variable {s : State} {sp : Space} {c : BitVec 5}

theorem State.Bars.ldAcq {a : SReg} {y : MemSize} (h : s.Bars sp (s.rs a) y.bytes c) (d : SReg) (sc : Scope) :
    Traps s (.ldAcq d a y sp sc) c (s.rs a) := traps_first rfl (h.check true false false)

theorem State.Bars.stRel {a : SReg} {y : MemSize} (h : s.Bars sp (s.rs a) y.bytes c) (b : SReg) (sc : Scope) :
    Traps s (.stRel a b y sp sc) c (s.rs a) := traps_first rfl (h.checkFirm 9 false true false)

theorem State.Bars.amo {a : SReg} {scratch : Bool} (h : s.Bars (if scratch then .scratch else .global) (s.rs a) 8 c) (d b : SReg)
    (sc : Scope) (r : AOrd) (op : AmoOp) : Traps s (.amo d a b scratch sc r op) c (s.rs a) :=
  traps_first rfl (h.checkFirm 1 true true false)

theorem State.Bars.feFill {a : SReg} (h : s.Bars sp (s.rs a) 8 c) (b : SReg) (m : SyncMode) (sc : Scope) :
    Traps s (.feFill a b sp m sc) c (s.rs a) := traps_first rfl (h.checkFirm 2 false true true)

theorem State.Bars.feEmpty {a : SReg} (h : s.Bars sp (s.rs a) 8 c) (b : SReg) (sc : Scope) :
    Traps s (.feEmpty a b sp sc) c (s.rs a) := traps_first rfl (h.checkFirm 2 false true true)

theorem State.Bars.feTest {a : SReg} (h : s.Bars sp (s.rs a) 8 c) (d : SReg) : Traps s (.feTest d a sp) c (s.rs a) :=
  traps_first rfl (h.check true false true)

/-- The model tests the binding before the address (log entry 13). -/
theorem State.Bars.ldq {a : SReg} {q : QReg} (h : s.Bars sp (s.rs a) 8 c) (stream : (s.me.rq q).kind = 3)
    (mine : (s.me.rq q).level = s.me.lvl) (idle : s.me.streaming q = false) (tag : BitVec 3) (m : SyncMode) (sc : Scope) :
    Traps s (.ldq q a tag sp m sc) c (s.rs a) := by
  refine traps_finish rfl ?_
  simp only [stream, mine, idle, BEq.rfl, Bool.not_false, Bool.and_self, demand_true, h.checkFirm 2 true false true, bind, Except.bind]

theorem State.Bars.vld {a : SReg} {half : Bool} {off : BitVec 11} (h : s.Bars sp (s.ea a off) (vecBytes half) c) (v : VReg) :
    Traps s (.vld v a sp half off) c (s.ea a off) := traps_first rfl (h.check true false false)

theorem State.Bars.vst {a : SReg} {half : Bool} {off : BitVec 11} (h : s.Bars sp (s.ea a off) (vecBytes half) c) (v : VReg) :
    Traps s (.vst v a sp half off) c (s.ea a off) := traps_first rfl h.checkStore

end

/-- Of a load or store that is not aligned to its size, no 8 bytes are an aligned register of the management space. -/
theorem LdSize.odd_of_misaligned {z : LdSize} {o : Nat} (odd : o % z.bytes ≠ 0) : z = .b8 → o % 8 ≠ 0 := by
  rintro rfl
  exact odd

theorem MemSize.odd_of_misaligned {y : MemSize} {o : Nat} (odd : o % y.bytes ≠ 0) : y = .b8 → o % 8 ≠ 0 := by
  rintro rfl
  exact odd

/-- Settles O10: each form stops at its first check, for the reason that the check's own lemma gives. -/
theorem accessTraps : Obligations.AccessTraps := by
  intro s d a b v z y off sp sc r op m c h q tag u ea x o framed named vectors mgmt bound
  have tcm {e : Word} {n : Nat} (odd : e.toNat % n ≠ 0) : s.Bars .tcm e n 0x02 :=
    State.bars_misaligned odd fun inside => nomatch inside.1
  have scratch {e : Word} {n : Nat} (odd : e.toNat % n ≠ 0) : s.Bars .scratch e n 0x02 :=
    State.bars_misaligned odd fun inside => nomatch inside.1
  have notGlobal {p : Prop} (hs : Space.tcm = .global) : p := nomatch hs
  refine ⟨fun odd => ?_, fun odd => ?_, fun even beyond => ?_, fun even beyond => ?_, fun even within no novec => ?_,
    fun even within no => ?_, Core.tcmAllowed_write, Core.tcmAllowed_read, fun odd => ⟨?_, ?_⟩, fun odd => ⟨?_, ?_⟩,
    fun odd => ⟨?_, fun own => ?_⟩, fun odd => ⟨?_, fun own => ?_⟩, fun odd own => ⟨?_, ?_⟩, fun odd own => ?_,
    fun odd own => ⟨?_, ?_, ?_, fun ⟨stream, mine, idle⟩ => ?_⟩, fun odd own => ⟨?_, ?_⟩, fun odd own => ⟨?_, ?_⟩,
    fun inside => ⟨fun part => ?_, fun part => ?_, ?_, ?_⟩,
    fun inside => ⟨fun odd => ⟨?_, ?_⟩, ?_, ?_, ?_, ?_, ?_, ?_, fun ⟨stream, mine, idle⟩ => ?_⟩⟩
  · exact traps_plainLoad rfl notGlobal ((tcm odd).check _ _ _)
  · exact traps_plainStore rfl notGlobal (tcm odd).checkStore
  · exact traps_plainLoad rfl notGlobal (State.check_tcm_beyond even beyond)
  · exact traps_plainStore rfl notGlobal (State.check_tcm_beyond (rd := false) (sync := false) even beyond)
  · exact traps_plainLoad rfl notGlobal (State.check_tcm_barred even within
      (Bool.eq_false_iff.mpr fun may => (Core.tcmAllowed_read.mp may).elim no novec))
  · exact traps_plainStore rfl notGlobal (State.check_tcm_barred (rd := false) (sync := false) even within
      (Bool.eq_false_iff.mpr fun may => no (Core.tcmAllowed_write.mp may)))
  · exact traps_plainLoad rfl notGlobal ((tcm odd).check _ _ _)
  · exact traps_plainStore rfl notGlobal (tcm odd).checkStore
  · exact traps_plainLoad rfl notGlobal ((tcm odd).check _ _ _)
  · exact traps_plainStore rfl notGlobal (tcm odd).checkStore
  · exact traps_plainLoad rfl (fun _ => LdSize.odd_of_misaligned odd) ((scratch odd).check _ _ _)
  · exact traps_plainLoad rfl (fun _ => LdSize.odd_of_misaligned odd) ((State.bars_misaligned odd own).check _ _ _)
  · exact traps_plainStore rfl (fun _ => MemSize.odd_of_misaligned odd) (scratch odd).checkStore
  · exact traps_plainStore rfl (fun _ => MemSize.odd_of_misaligned odd) (State.bars_misaligned odd own).checkStore
  · exact (State.bars_misaligned odd own).ldAcq d sc
  · exact (State.bars_misaligned odd own).stRel b sc
  · exact (State.bars_misaligned odd own).amo d b sc r op
  · exact (State.bars_misaligned odd own).feFill b m sc
  · exact (State.bars_misaligned odd own).feEmpty b sc
  · exact (State.bars_misaligned odd own).feTest d
  · exact (State.bars_misaligned odd own).ldq stream mine idle tag m sc
  · exact traps_plainLoad rfl (fun _ _ => odd) ((State.bars_misaligned odd own).check _ _ _)
  · exact traps_plainStore rfl (fun _ _ => odd) (State.bars_misaligned odd own).checkStore
  · exact (State.bars_misaligned odd own).vld v
  · exact (State.bars_misaligned odd own).vst v
  · exact traps_plainLoad rfl (fun _ whole => part.resolve_left (not_not_intro whole)) ((State.bars_mgmt inside).check _ _ _)
  · exact traps_plainStore rfl (fun _ whole => part.resolve_left (not_not_intro whole)) (State.bars_mgmt inside).checkStore
  · exact (State.bars_mgmt inside).vld v
  · exact (State.bars_mgmt inside).vst v
  · exact traps_plainLoad rfl (fun _ _ => odd) ((State.bars_mgmt inside).check _ _ _)
  · exact traps_plainStore rfl (fun _ _ => odd) (State.bars_mgmt inside).checkStore
  · exact (State.bars_mgmt inside).ldAcq d sc
  · exact (State.bars_mgmt inside).stRel b sc
  · exact State.Bars.amo (scratch := false) (State.bars_mgmt inside) d b sc r op
  · exact (State.bars_mgmt inside).feFill b m sc
  · exact (State.bars_mgmt inside).feEmpty b sc
  · exact (State.bars_mgmt inside).feTest d
  · exact (State.bars_mgmt inside).ldq stream mine idle tag m sc

end Sys2Proof.Machine
end

section
/-! ## Accesses leave the frames of cores alone: levels, program counters, registers, domains and bindings

What an access moves at its owner, or in a scratchpad, reaches other parts of a core: its TCM, its queues and its lists. A full mooring
list may raise the quota trap of the issuer's region (R378), which a running core holds. -/

namespace Sys2Proof.Machine

/-- Core d runs the frame that core c runs, and holds the same frames beneath it. -/
structure Core.RunsAs (c d : Core) : Prop where
  level : d.level = c.level
  pc : d.pc = c.pc
  banks : d.banks = c.banks
  dom : d.dom = c.dom
  binding : d.binding = c.binding

theorem Core.RunsAs.refl (c : Core) : c.RunsAs c := ⟨rfl, rfl, rfl, rfl, rfl⟩

theorem Core.RunsAs.trans {c d e : Core} (h : c.RunsAs d) (k : d.RunsAs e) : c.RunsAs e :=
  ⟨k.level.trans h.level, k.pc.trans h.pc, k.banks.trans h.banks, k.dom.trans h.dom, k.binding.trans h.binding⟩

section
variable {c d : Core} (h : c.RunsAs d)
include h

theorem Core.RunsAs.here : d.here = c.here := by rw [Core.here, Core.lvl, Core.bank, h.level, h.banks]; rfl

theorem Core.RunsAs.region : d.region = c.region := by rw [Core.region, Core.bound_, h.level, h.binding]; rfl

end

/-- From s to t every core runs on as it did, and the same one is in turn. -/
def FramesKept (s t : State) : Prop := t.cur = s.cur ∧ ∀ n, (s.core n).RunsAs (t.core n)

theorem FramesKept.refl (s : State) : FramesKept s s := ⟨rfl, fun _ => .refl _⟩

theorem FramesKept.trans {s t u : State} (h : FramesKept s t) (k : FramesKept t u) : FramesKept s u :=
  ⟨k.1.trans h.1, fun n => (h.2 n).trans (k.2 n)⟩

/-- What happens after a change beside the cores. -/
theorem FramesKept.after {s t u : State} (h : FramesKept u t) (cur : u.cur = s.cur) (core : ∀ n, u.core n = s.core n) :
    FramesKept s t := ⟨h.1.trans cur, fun n => core n ▸ h.2 n⟩

theorem HomesOnly.framesKept {s t : State} (h : HomesOnly s t) : FramesKept s t :=
  ⟨h.cur, fun n => by rw [h.core]; exact .refl _⟩

theorem framesKept_updCore (s : State) (n : CoreId) (f : Core → Core) (h : ∀ c : Core, c.RunsAs (f c)) :
    FramesKept s (s.updCore n f) := by
  refine ⟨rfl, fun m => ?_⟩
  by_cases e : m = n
  · rw [e, State.core_updCore_same]; exact h _
  · rw [State.core_updCore_other s f e]; exact .refl _

theorem framesKept_foldl {α : Type} {f : State → α → State} (h : ∀ s x, FramesKept s (f s x)) (l : List α) (s : State) :
    FramesKept s (l.foldl f s) :=
  foldl_keeps (fun t => FramesKept s t) f (fun t x ht => ht.trans (h t x)) l s (FramesKept.refl s)

section
variable {s t : State} (h : FramesKept s t)
include h

theorem FramesKept.me : s.me.RunsAs t.me := by rw [State.me, State.me, h.1]; exact h.2 _

theorem FramesKept.pc : t.pc = s.pc := h.me.pc

theorem FramesKept.rs (r : SReg) : t.rs r = s.rs r := by rw [State.rs, State.rs, h.me.here]

theorem FramesKept.tentative : t.tentative = s.tentative := by rw [State.tentative, State.tentative, h.me.here]

end

/-! ### Traps that are held, and lists that are full -/

/-- A trap of another level is held (R348). -/
theorem framesKept_asyncTrap {s : State} {n : CoreId} {l : BitVec 4} (other : (s.core n).level ≠ l) (c : BitVec 5) (a : Word) :
    FramesKept s (s.asyncTrap n l c a) := by
  rw [State.asyncTrap, if_neg fun taken => other taken.1]
  exact framesKept_updCore s n _ fun _ => ⟨rfl, rfl, rfl, rfl, rfl⟩

section
variable {s t : State} {n : CoreId} (busy : (s.core n).level ≠ 0xF)
include busy

theorem framesKept_quotaTrap (r : Option Region) (q : WeirQueue) : FramesKept s (s.quotaTrap r q n) := by
  unfold State.quotaTrap
  split
  · split
    · exact (framesKept_asyncTrap (by exact busy) _ _).after rfl fun _ => rfl
    · exact FramesKept.refl s
  · exact FramesKept.refl s

theorem framesKept_weirAdd {q : WeirQueue} {r : Option Region} {item : WeirItem} (h : s.weirAdd q r item n = some t) :
    FramesKept s t := by
  unfold State.weirAdd at h
  split at h
  · cases h
  · cases h
    exact (framesKept_quotaTrap (by exact busy) r q).after rfl fun _ => rfl

theorem framesKept_moor {m : Mooring} (h : s.moor m n = some t) : FramesKept s t := by
  unfold State.moor at h
  split at h
  · exact framesKept_weirAdd busy h
  · cases h; exact FramesKept.refl s

end

/-! ### Accesses at their owners -/

theorem framesKept_syncReply (s : State) (m : Mooring) (x : Word) (st : BitVec 2) : FramesKept s (s.syncReply m x st) := by
  unfold State.syncReply
  split
  case h_4 =>
    split
    · exact framesKept_updCore s _ _ fun _ => ⟨rfl, rfl, rfl, rfl, rfl⟩
    · exact FramesKept.refl s
  case h_1 | h_2 | h_5 => exact framesKept_updCore s _ _ fun _ => ⟨rfl, rfl, rfl, rfl, rfl⟩
  case h_3 | h_6 | h_7 => exact FramesKept.refl s

theorem framesKept_spotWrite (s : State) (p : Spot) (dom : BitVec 16) (x : Word) : FramesKept s (s.spotWrite p dom x) := by
  unfold State.spotWrite
  split
  · exact framesKept_updCore s _ _ fun _ => ⟨rfl, rfl, rfl, rfl, rfl⟩
  · split <;> exact FramesKept.refl s
  all_goals exact (homesOnly_homeStore s dom _ _).framesKept

theorem framesKept_spotSetFull (s : State) (p : Spot) (x : Bool) : FramesKept s (s.spotSetFull p x) := by
  unfold State.spotSetFull
  split
  · exact framesKept_updCore s _ _ fun _ => ⟨rfl, rfl, rfl, rfl, rfl⟩
  · split
    · split <;> exact FramesKept.refl s
    · exact FramesKept.refl s
  all_goals exact FramesKept.refl s

theorem framesKept_spotTouch (s : State) (p : Spot) (dom : BitVec 16) : FramesKept s (s.spotTouch p dom) := by
  unfold State.spotTouch
  split
  · exact (homesOnly_touchLine s dom _).framesKept
  · exact FramesKept.refl s

theorem framesKept_amoAt (s : State) (p : Spot) (dom : BitVec 16) (op : AmoOp) (e y : Word) :
    FramesKept s (s.amoAt p dom op e y).1 := by
  unfold State.amoAt
  dsimp only
  split
  · exact (framesKept_spotTouch s p dom).trans (framesKept_spotWrite _ p dom _)
  · exact framesKept_spotTouch s p dom

theorem framesKept_shapeFilled (s : State) (p : Spot) (b a : Bool) (x : Word) : FramesKept s (s.shapeFilled p b a x) := by
  unfold State.shapeFilled
  split <;> exact FramesKept.refl s

theorem framesKept_recallFor (s : State) (m : Mooring) : FramesKept s (s.recallFor m) := by
  unfold State.recallFor
  split
  · unfold State.recallAt
    split
    · dsimp only
      split
      · exact ((homesOnly_evictCopy s _ _).trans (homesOnly_evictCopy _ _ _)).framesKept
      · exact (homesOnly_evictCopy s _ _).framesKept
    · exact FramesKept.refl s
  · exact FramesKept.refl s

/-- An access that is performed at its owner lets every core run on (R90, R221, R408). -/
theorem framesKept_syncApply (s : State) (m : Mooring) (dom : BitVec 16) : FramesKept s (s.syncApply m dom) := by
  refine (framesKept_recallFor s m).trans ?_
  unfold State.syncApply
  dsimp only
  generalize s.recallFor m = u
  split
  · unfold State.plainAt
    refine FramesKept.trans ?_ (framesKept_syncReply _ m 0 0)
    split
    · exact FramesKept.refl u
    · exact (homesOnly_homeStore u _ _ _).framesKept
  · split
    · exact framesKept_syncReply u m 0 2
    · exact (framesKept_amoAt u _ dom _ _ _).trans (framesKept_syncReply _ m _ 0)
  · split
    · exact framesKept_syncReply u m 0 2
    · refine FramesKept.trans ?_ (framesKept_syncReply _ m _ 0)
      have touched := framesKept_spotTouch u { owner := m.owner, word := m.word, dom := m.dom } dom
      split
      · exact ((touched.trans (framesKept_spotWrite _ _ dom _)).trans (framesKept_spotSetFull _ _ _)).trans
          (framesKept_shapeFilled _ _ _ _ _)
      · exact touched.trans (framesKept_spotSetFull _ _ _)

theorem framesKept_onChange (p : Spot) : ∀ (k : Nat) (s : State), FramesKept s (s.onChange p k)
  | 0, s => FramesKept.refl s
  | k + 1, s => by
    unfold State.onChange
    split
    · split
      · refine FramesKept.trans ?_ (framesKept_onChange p k _)
        exact (framesKept_syncApply _ _ _).after rfl fun _ => rfl
      · exact FramesKept.refl s
    · exact FramesKept.refl s

theorem framesKept_syncServe (s : State) (m : Mooring) : FramesKept s (s.syncServe m) := by
  unfold State.syncServe
  dsimp only
  split
  · exact framesKept_syncApply s m _
  · exact (framesKept_syncApply s m _).trans (framesKept_onChange _ _ _)

theorem framesKept_syncArrive {s t : State} {m : Mooring} {n : CoreId} (busy : (s.core n).level ≠ 0xF)
    (h : s.syncArrive m n = some t) : FramesKept s t := by
  unfold State.syncArrive at h
  dsimp only at h
  split at h
  · exact framesKept_moor busy h
  · split at h
    · cases h; exact framesKept_syncServe s m
    · exact framesKept_moor busy h

theorem framesKept_flightArrive {s t : State} {n : CoreId} (busy : (s.core n).level ≠ 0xF) (h : s.flightArrive n = some t) :
    FramesKept s t := by
  unfold State.flightArrive at h
  split at h
  · cases h
  · rename_i f r _
    obtain ⟨u, hu, rfl⟩ := Option.map_eq_some_iff.1 h
    have settled := (homesOnly_settle s (dieOf n) (s.placeOf n f.space f.dom f.va f.pa)).framesKept
    refine (settled.trans (framesKept_syncArrive ?_ hu)).trans (framesKept_updCore _ n _ fun _ => ⟨rfl, rfl, rfl, rfl, rfl⟩)
    rw [(settled.2 n).level]
    exact busy

theorem framesKept_flightsFrom {n : CoreId} : ∀ (k : Nat) {s : State}, (s.core n).level ≠ 0xF → FramesKept s (s.flightsFrom n k)
  | 0, s, _ => FramesKept.refl s
  | k + 1, s, busy => by
    unfold State.flightsFrom
    split
    · rename_i t h
      have first := framesKept_flightArrive busy h
      exact first.trans (framesKept_flightsFrom k (by rw [(first.2 n).level]; exact busy))
    · exact FramesKept.refl s

theorem framesKept_settleFlights {s t : State} {n : CoreId} (busy : (s.core n).level ≠ 0xF) (h : s.settleFlights n = .ok t) :
    FramesKept s t := by
  unfold State.settleFlights at h
  split at h
  · cases h
  · split at h
    · cases h; exact FramesKept.refl s
    · split at h
      · cases h
      · dsimp only at h
        split at h
        · cases h; exact framesKept_flightsFrom _ busy
        · cases h

/-! ### Reads -/

theorem framesKept_rawRead (s : State) (n : CoreId) (dom : BitVec 16) (a : Acc) (k : Nat) : FramesKept s (s.rawRead n dom a k).1 := by
  unfold State.rawRead
  split
  · exact FramesKept.refl s
  · split <;> exact FramesKept.refl s
  · exact (homesOnly_dieRead s _ _ _ _ _).framesKept

/-- A load that reads its word lets every core run on; the core in turn is one that runs a frame. -/
theorem framesKept_loadWord {s t : State} {sp : Space} {a : Acc} {k : Nat} {bs : List Byte} (busy : s.me.level ≠ 0xF)
    (h : s.loadWord sp a k = .ok (t, bs)) : FramesKept s t := by
  unfold State.loadWord at h
  obtain ⟨u, settled, h⟩ := res_bind_ok.mp h
  have first := framesKept_settleFlights busy settled
  dsimp only at h
  split at h
  · cases h
  · obtain ⟨_, _, h⟩ := res_bind_ok.mp h
    cases h
    exact first.trans (framesKept_rawRead u _ _ a k)

/-! ### Pages of a scratchpad -/

theorem framesKept_updCluster (s : State) (cl : BitVec 14) (f : Cluster → Cluster) : FramesKept s (s.updCluster cl f) :=
  FramesKept.refl s

theorem framesKept_putBytes (die : BitVec 4) (f : Frame) : ∀ (l : List Nat) (s : State), FramesKept s (s.putBytes die f l)
  | [], s => FramesKept.refl s
  | _ :: r, s => (framesKept_putBytes die f r s).trans (homesOnly_homeSet _ _ _ _).framesKept

theorem framesKept_writePage (s : State) (die : BitVec 4) (f : Frame) : FramesKept s (s.writePage die f) := by
  unfold State.writePage
  dsimp only
  refine FramesKept.trans ?_ (framesKept_foldl (fun s w => (homesOnly_touchLine s _ _).framesKept) _ _)
  refine FramesKept.trans ?_ (framesKept_foldl (fun s w => ?_) _ _)
  refine FramesKept.trans ?_ (framesKept_foldl (fun s w => ?_) _ _)
  rotate_left
  · exact FramesKept.refl s
  · exact FramesKept.refl s
  exact (framesKept_foldl (fun s w => (homesOnly_evictCopy s die _).framesKept) _ s).trans (framesKept_putBytes die f f.dirty _)

theorem framesKept_moveMoorings (s : State) (cl : BitVec 14) (f : Frame) : FramesKept s (s.moveMoorings cl f) := by
  unfold State.moveMoorings
  dsimp only
  refine (framesKept_foldl (fun s x => ?_) _ _).after rfl fun _ => rfl
  unfold State.moveMooring
  dsimp only
  split <;> exact FramesKept.refl s

theorem framesKept_wakePage (s : State) (f : Frame) : FramesKept s (s.wakePage f) := by
  unfold State.wakePage
  split
  · exact FramesKept.refl s
  · exact framesKept_foldl (fun s w => framesKept_onChange _ _ s) _ s

theorem framesKept_evictFrame (s : State) (cl : BitVec 14) (i : Nat) : FramesKept s (s.evictFrame cl i) := by
  unfold State.evictFrame
  split
  · rename_i f _
    exact (((framesKept_writePage s _ f).trans (framesKept_moveMoorings _ cl f)).trans (framesKept_updCluster _ cl _)).trans
      (framesKept_wakePage _ f)
  · exact FramesKept.refl s

theorem framesKept_makeRoom (s : State) (cl : BitVec 14) : FramesKept s (s.makeRoom cl) := by
  unfold State.makeRoom
  split
  · split
    · exact framesKept_evictFrame s cl _
    · exact FramesKept.refl s
  · exact FramesKept.refl s

theorem homesOnly_ownPage (s : State) (die : BitVec 4) (dom : BitVec 16) (pa : Nat) : HomesOnly s (s.ownPage die dom pa) := by
  unfold State.ownPage
  refine HomesOnly.trans (HomesOnly.foldl _ (fun s w => ?_) _ s) (HomesOnly.foldl _ (fun s i => homesOnly_touchLine s _ _) _ _)
  split
  · split
    · exact HomesOnly.refl s
    · exact homesOnly_evictCopy s _ _
  · exact HomesOnly.refl s

theorem framesKept_fillPage (s : State) (cl : BitVec 14) (dom : BitVec 16) (backing : BitVec 44) (pa : Nat) :
    FramesKept s (s.fillPage cl dom backing pa) := by
  have filled (u v : State) (f : Frame) (h : FramesKept u v) : FramesKept u (v.putFrame cl f) := h
  exact filled _ _ _ ((framesKept_makeRoom s cl).trans (homesOnly_ownPage _ _ _ _).framesKept)

/-! ### The checks of an access -/

theorem homesOnly_xlate {s t : State} {n : CoreId} {dom : BitVec 16} {region : Option Region} {ea pa : Nat} {sync : Bool}
    (h : s.xlate n dom region ea sync = .ok (t, pa)) : HomesOnly s t := by
  have walk := homesOnly_translate s (dieOf n) (BitVec.ofNat 56 ea) (s.core n).sbuf
  unfold State.xlate at h
  split at h
  · rename_i u x found
    rw [found] at walk
    split at h
    · cases h
    · cases h; exact walk
  · cases h

theorem homesOnly_checkGlobal {s t : State} {n : CoreId} {dom : BitVec 16} {top : Bool} {region : Option Region} {ea : Nat}
    {rd wr sync : Bool} {p : Acc} (h : s.checkGlobal n dom top region ea rd wr sync = .ok (t, p)) : HomesOnly s t := by
  unfold State.checkGlobal at h
  obtain ⟨_, _, h⟩ := res_bind_ok.mp h
  obtain ⟨_, _, h⟩ := res_bind_ok.mp h
  obtain ⟨_, _, h⟩ := res_bind_ok.mp h
  obtain ⟨⟨u, pa⟩, walked, h⟩ := res_bind_ok.mp h
  cases h
  exact homesOnly_xlate walked

theorem framesKept_touched {u v : State} {cl : BitVec 14} {i k : Nat} {f : Frame → Frame} (h : FramesKept u v) :
    FramesKept u { v.updFrame cl i f with nextId := k } := h

theorem framesKept_checkScratch {s t : State} {n : CoreId} {dom : BitVec 16} {top : Bool} {region : Option Region} {ea : Nat}
    {wr sync now : Bool} {p : Acc} (h : s.checkScratch n dom top region ea wr sync now = .ok (t, p)) : FramesKept s t := by
  unfold State.checkScratch at h
  extract_lets e ent backing b cl k at h
  obtain ⟨_, _, h⟩ := res_bind_ok.mp h
  obtain ⟨_, _, h⟩ := res_bind_ok.mp h
  split at h
  · cases h; exact framesKept_touched (FramesKept.refl s)
  · obtain ⟨_, _, h⟩ := res_bind_ok.mp h
    obtain ⟨_, _, h⟩ := res_bind_ok.mp h
    obtain ⟨⟨u, pa⟩, walked, h⟩ := res_bind_ok.mp h
    have walk := (homesOnly_xlate walked).framesKept
    change (ite _ _ _ : Res _) = _ at h
    split at h
    · obtain ⟨_, _, h⟩ := res_bind_ok.mp h
      cases h
      exact walk
    · extract_lets page filled want asked at h
      have room : FramesKept s filled := walk.trans (framesKept_fillPage _ _ _ _ _)
      clear_value filled
      split at h
      · split at h
        · cases h; exact framesKept_touched room
        · cases h; exact room
      · cases h

/-- An access that passes its checks lets every core run on. -/
theorem framesKept_check {s t : State} {sp : Space} {ea : Word} {n : Nat} {rd wr sync : Bool} {p : Acc}
    (h : s.check sp ea n rd wr sync = .ok (t, p)) : FramesKept s t := by
  unfold State.check at h
  obtain ⟨_, _, h⟩ := res_bind_ok.mp h
  obtain ⟨_, _, h⟩ := res_bind_ok.mp h
  cases sp with
  | tcm =>
    obtain ⟨_, _, h⟩ := res_bind_ok.mp h
    obtain ⟨_, _, h⟩ := res_bind_ok.mp h
    cases h
    exact FramesKept.refl s
  | scratch => exact framesKept_checkScratch h
  | global => exact (homesOnly_checkGlobal h).framesKept

end Sys2Proof.Machine
end

section
/-! ## Loads and stores of the scratchpad and of global space (R216, R219, R236, R432) -/

namespace Sys2Proof.Machine

/-! ### A load or store whose checks pass -/

/-- An 8-byte access to a register of the management space at level 7 (R432). -/
def State.AtRegister (s : State) (sp : Space) (ea : Word) (whole : Prop) : Prop :=
  sp = .global ∧ s.me.level = 7 ∧ whole ∧ ea.toNat < 2 ^ 56 ∧ isMgmt ea.toNat = true ∧ ea.toNat % 8 = 0

/-- The checks pass no access of level 7 to the management space. -/
theorem State.not_atRegister_of_check {s : State} {sp : Space} {ea : Word} {n : Nat} {rd wr sync : Bool} {x : State × Acc}
    {whole : Prop} (h : s.check sp ea n rd wr sync = .ok x) : ¬ s.AtRegister sp ea whole := by
  rintro ⟨global, top, _, low, inside, _⟩
  have mgmt : s.topMgmt sp ea = true := by simp only [State.topMgmt, global, top, low, inside, BEq.rfl, decide_true, Bool.and_self]
  rw [s.check_topMgmt mgmt] at h
  cases h

theorem State.plainLoad_checked {s : State} {sp : Space} {ea : Word} {z : LdSize} (d : SReg) (len : Nat)
    (no : ¬ s.AtRegister sp ea (z = .b8)) : s.plainLoad sp d ea z len = finish (do
      let (s, x) ← s.load sp ea z.bytes
      .ok ((s.ws d (z.extend x)).advance len)) := by
  unfold State.plainLoad
  exact congrArg finish (if_neg no)

theorem State.plainStore_checked {s : State} {sp : Space} {ea : Word} {z : MemSize} (x : Word) (len : Nat)
    (no : ¬ s.AtRegister sp ea (z = .b8)) : s.plainStore sp ea z x len = finish (do
      let s ← s.store sp ea z.bytes x
      .ok (s.advance len)) := by
  unfold State.plainStore
  exact congrArg finish (if_neg no)

/-- What a load does that passes its checks and reads its word. -/
theorem State.plainLoad_reads {s t w : State} {sp : Space} {d : SReg} {ea : Word} {z : LdSize} {len : Nat} {p : Acc} {bs : List Byte}
    (checked : s.check sp ea z.bytes true false false = .ok (t, p)) (read : t.loadWord sp p z.bytes = .ok (w, bs)) :
    s.plainLoad sp d ea z len = .next ((w.ws d (z.extend (joinBytes bs))).advance len) := by
  rw [State.plainLoad_checked d len (State.not_atRegister_of_check checked), State.load, checked]
  simp only [bind, Except.bind, read]
  rfl

theorem State.plainStore_stores {s t u : State} {sp : Space} {ea x : Word} {z : MemSize} {len : Nat} {p : Acc}
    (firm : s.checkStore sp ea z.bytes = s.check sp ea z.bytes false true false)
    (checked : s.check sp ea z.bytes false true false = .ok (t, p)) (stored : t.storeAt sp p z.bytes x = .ok u) :
    s.plainStore sp ea z x len = .next (u.advance len) := by
  rw [State.plainStore_checked x len (State.not_atRegister_of_check checked), State.store, firm, checked]
  simp only [bind, Except.bind, stored]
  rfl

theorem State.plainStore_stops {s t : State} {sp : Space} {ea x : Word} {z : MemSize} {len : Nat} {p : Acc} {e : Stop}
    (firm : s.checkStore sp ea z.bytes = s.check sp ea z.bytes false true false)
    (checked : s.check sp ea z.bytes false true false = .ok (t, p)) (stops : t.storeAt sp p z.bytes x = .error (t, e)) :
    s.plainStore sp ea z x len = .next (t.stop e) := by
  rw [State.plainStore_checked x len (State.not_atRegister_of_check checked), State.store, firm, checked]
  simp only [bind, Except.bind, stops]
  rfl

/-- A firm frame checks every store alike; a tentative one parks only at the scratchpad. -/
theorem State.checkStore_firm {s : State} (h : s.tentative = false) (sp : Space) (ea : Word) (k : Nat) :
    s.checkStore sp ea k = s.check sp ea k false true false := by
  cases sp with
  | scratch => simp only [State.checkStore, State.checkFirm, h, Bool.false_eq_true, if_false]
  | tcm => rfl
  | global => rfl

/-- A register file read and a boundary passed: what a load leaves behind (R219). -/
theorem readsInto_load {s w : State} (kept : FramesKept s w) (d : SReg) (x : Word) (len : Nat) :
    ReadsInto s ((w.ws d x).advance len) d x len := by
  refine ⟨?_, fun r => ?_⟩
  · rw [State.pc_advance, State.pc_ws, kept.pc]
  · rw [State.rs_advance, State.rs_ws, kept.rs]

theorem sameMemory_updMe_numbered (t : State) (f : Core → Core) (k : Nat) (h : ∀ c, (f c).tcm = c.tcm) :
    SameMemory t { t.updMe f with nextId := k } := sameMemory_updCore t t.cur f h

theorem State.advance_numbered (t : State) (k len : Nat) :
    ({ t with nextId := k } : State).advance len = { t.advance len with nextId := k } := rfl

/-- The last step of a store: its entry stands in the buffer, and the program counter behind the instruction (R217). -/
theorem buffers_append {t u : State} {e : StoreEntry} {len : Nat} (room : t.me.sbuf.length < 16) (h : t.append e = .ok u) :
    Buffers t (u.advance len) e len := by
  rw [State.append_room t e room] at h
  obtain rfl := Except.ok.inj h
  rw [State.advance_numbered, State.advance, State.updMe_updMe]
  exact ⟨sameMemory_updMe_numbered t _ _ fun _ => rfl, t.me.stalls.set t.me.lvl.toFin 0, rfl⟩

/-- Where the checks of a load pass and the word is read, the extended bytes are written and no stored byte changes. -/
theorem load_reads {s t w : State} {i : Instr} {sp : Space} {d : SReg} {ea : Word} {z : LdSize} {len : Nat} {p : Acc}
    {bs : List Byte} (runs : exec i s = s.plainLoad sp d ea z len) (busy : s.me.level ≠ 0xF)
    (checked : s.check sp ea z.bytes true false false = .ok (t, p)) (read : t.loadWord sp p z.bytes = .ok (w, bs)) :
    ∃ r, exec i s = .next r ∧ ReadsInto s r d (z.extend (joinBytes bs)) len ∧ SameStores w r := by
  have before := framesKept_check checked
  have after := before.trans (framesKept_loadWord (by rw [before.me.level]; exact busy) read)
  refine ⟨_, runs.trans (State.plainLoad_reads checked read), readsInto_load after d _ len, ?_⟩
  exact (writesS_retire w d _ len).2.1.stores

theorem store_buffers {s t : State} {i : Instr} {sp : Space} {ea x : Word} {z : MemSize} {len : Nat} {p : Acc}
    (runs : exec i s = s.plainStore sp ea z x len) (firm : s.tentative = false)
    (checked : s.check sp ea z.bytes false true false = .ok (t, p)) (room : t.me.sbuf.length < 16) :
    ∃ r, exec i s = .next r ∧
      Buffers t r { space := sp, va := p.va, pa := p.pa, size := z.bytes, data := x, mode := none, tag := 0, dom := s.me.dom,
                    region := s.me.region, scope := .core } len := by
  have kept := framesKept_check checked
  have stored := t.storeAt_firm sp p z.bytes x (by rw [kept.tentative]; exact firm)
  rw [kept.me.dom, kept.me.region] at stored
  have added := t.append_room { space := sp, va := p.va, pa := p.pa, size := z.bytes, data := x, mode := none, tag := 0,
                                dom := s.me.dom, region := s.me.region, scope := .core } room
  exact ⟨_, runs.trans (State.plainStore_stores (State.checkStore_firm firm sp ea _) checked (stored.trans added)),
    buffers_append room added⟩

/-- A tentative frame parks at a store to the scratchpad that its rights allow (R236). -/
theorem store_scratch_parks {s : State} {i : Instr} {ea x : Word} {z : MemSize} {len : Nat}
    (runs : exec i s = s.plainStore .scratch ea z x len) (tentative : s.tentative = true)
    (may : s.checkEa .scratch ea z.bytes false true = .ok ()) : Parks s i 6 := by
  have stops : s.checkStore .scratch ea z.bytes = .error (s, .park 6 0) := by
    simp only [State.checkStore, State.checkFirm, tentative, if_true, may, bind, Except.bind]
  refine runs.trans ?_
  rw [State.plainStore_checked x len (fun ⟨space, _⟩ => nomatch space), State.store, stops]
  rfl

/-! ### The stores of a tentative frame to global space (R85, R86) -/

/-- A store of a tentative frame to global space is noted for the launch, where there is room. -/
theorem State.storeAt_provisional {t : State} {x : Inst} (mine : t.me.here.inst = some x) (tentative : x.tentative = true)
    (p : Acc) (k : Nat) (v : Word) : t.storeAt .global p k v = if t.provRoom x (t.live p.pa) = true then
        .ok { t with prov := t.prov ++ [{ launch := x.id, index := x.index, pa := t.live p.pa, va := p.va, dom := t.me.dom,
                                          data := splitBytes k v.toNat }] }
      else .error (t, .park 5 0) := by
  unfold State.storeAt
  simp only [mine, tentative, if_true]
  cases t.provRoom x (t.live p.pa) <;> rfl

theorem passesBy_advance {t u : State} (len : Nat) (kept : FramesKept t u) : PassesBy t (u.advance len) len :=
  ⟨by rw [State.pc_advance, kept.pc], fun r => by rw [State.rs_advance, kept.rs]⟩

theorem sameMemory_advance (t : State) (len : Nat) : SameMemory t (t.advance len) := sameMemory_setMe t _ rfl

theorem store_provisional {s t : State} {i : Instr} {ea v : Word} {z : MemSize} {len : Nat} {p : Acc} {x : Inst}
    (runs : exec i s = s.plainStore .global ea z v len) (mine : s.me.here.inst = some x) (tentative : x.tentative = true)
    (checked : s.check .global ea z.bytes false true false = .ok (t, p)) :
    (t.provRoom x (t.live p.pa) = true → ∃ r, exec i s = .next r ∧ PassesBy t r len ∧ SameMemory t r ∧ r.me.sbuf = t.me.sbuf ∧
      r.prov = t.prov ++ [{ launch := x.id, index := x.index, pa := t.live p.pa, va := p.va, dom := s.me.dom,
                            data := splitBytes z.bytes v.toNat }]) ∧
    (t.provRoom x (t.live p.pa) = false → exec i s = .next (t.stop (.park 5 0))) := by
  have kept := framesKept_check checked
  have noted := State.storeAt_provisional (by rw [kept.me.here]; exact mine) tentative p z.bytes v
  rw [kept.me.dom] at noted
  refine ⟨fun room => ?_, fun full => ?_⟩
  · rw [if_pos room] at noted
    refine ⟨_, runs.trans (State.plainStore_stores rfl checked noted), passesBy_advance len (FramesKept.refl t),
      sameMemory_advance _ len, ?_, rfl⟩
    rw [State.advance, State.me_updMe]
    rfl
  · rw [full] at noted
    exact runs.trans (State.plainStore_stops rfl checked noted)

/-! ### Registers of the management space (R432) -/

theorem State.plainLoad_register {s : State} {d : SReg} {ea : Word} {len : Nat} (register : s.AtRegister .global ea True)
    (buffer : s.me.sbuf = []) (flight : s.me.flight = []) (amo : s.me.amoWait = false) :
    s.plainLoad .global d ea .b8 len = s.retire d (s.mgmtRead ea.toNat) len := by
  obtain ⟨_, top, _, low, inside, even⟩ := register
  unfold State.plainLoad
  rw [if_pos ⟨rfl, top, rfl, low, inside, even⟩, State.drain_empty s s.cur buffer flight amo]
  rfl

theorem State.plainStore_register {s : State} {ea x : Word} {len : Nat} (register : s.AtRegister .global ea True)
    (buffer : s.me.sbuf = []) (flight : s.me.flight = []) (amo : s.me.amoWait = false)
    (stays : (s.mgmtWrite ea.toNat x).me.level = 7) :
    s.plainStore .global ea .b8 x len = .next ((s.mgmtWrite ea.toNat x).advance len) := by
  obtain ⟨_, top, _, low, inside, even⟩ := register
  unfold State.plainStore
  rw [if_pos ⟨rfl, top, rfl, low, inside, even⟩, State.drain_empty s s.cur buffer flight amo]
  simp only [bind, Except.bind, stays, if_true]
  rfl

/-! ### Accesses to global space that the checks stop (R216, R390) -/

section
variable {s t : State} {ea : Word} {n : Nat} {rd wr : Bool}

/-- Below level 7, and outside the management space at every level, the checks of an aligned access to global space follow one another. -/
theorem State.check_global (even : ea.toNat % n = 0) (plain : s.topMgmt .global ea = false) (sync : Bool) :
    s.check .global ea n rd wr sync = s.checkGlobal s.cur s.me.dom (s.me.level == 7) s.me.region ea.toNat rd wr sync := by
  simp [State.check, even, plain, bind, Except.bind]

theorem isMgmt_of_top {a : Nat} (h : a / 2 ^ 48 = 0xFF) : isMgmt a = true := by rw [isMgmt, h]; rfl

theorem not_isMgmt {a : Nat} (low : a < 2 ^ 56) (h : a / 2 ^ 48 ≠ 0xFF) : isMgmt a = false := by
  simp only [isMgmt, beq_eq_false_iff_ne]
  omega

theorem State.topMgmt_low (low : s.me.level ≠ 7) : s.topMgmt .global ea = false :=
  Bool.eq_false_iff.mpr fun h => low (State.topMgmt_iff.mp h).2.1

theorem State.topMgmt_device (outside : ea.toNat / 2 ^ 48 ≠ 0xFF) : s.topMgmt .global ea = false :=
  Bool.eq_false_iff.mpr fun h => outside (State.topMgmt_iff.mp h).2.2

theorem State.check_global_beyond (even : ea.toNat % n = 0) (beyond : 2 ^ 56 ≤ ea.toNat) :
    s.check .global ea n rd wr false = .error (s, .trap 0x03 ea) := by
  have past : ¬ ea.toNat < 2 ^ 56 := by omega
  rw [State.check_global even (State.topMgmt_device (by omega))]
  rw [State.checkGlobal, decide_eq_false past]
  simp only [demand_false, bind, Except.bind, BitVec.ofNat_toNat, BitVec.setWidth_eq]

theorem State.check_global_mgmt (even : ea.toNat % n = 0) (inside : ea.toNat / 2 ^ 48 = 0xFF) :
    s.check .global ea n rd wr false = .error (s, .trap 0x03 ea) := by
  by_cases top : s.me.level = 7
  · exact s.check_topMgmt (State.topMgmt_iff.mpr ⟨rfl, top, inside⟩)
  · have low : ea.toNat < 2 ^ 56 := by omega
    rw [State.check_global even (State.topMgmt_low top)]
    rw [State.checkGlobal, decide_eq_true low, isMgmt_of_top inside]
    simp only [demand_true, Bool.not_true, demand_false, bind, Except.bind, BitVec.ofNat_toNat, BitVec.setWidth_eq]

/-- Past the address itself the rights decide, and then the walk. -/
theorem State.check_global_device (even : ea.toNat % n = 0) (low : ea.toNat < 2 ^ 56) (outside : ea.toNat / 2 ^ 48 ≠ 0xFF) :
    s.check .global ea n rd wr false = (do
      demand ((!rd || (s.me.rights (BitVec.ofNat 56 ea.toNat) (s.me.level == 7)).1) &&
        (!wr || (s.me.rights (BitVec.ofNat 56 ea.toNat) (s.me.level == 7)).2.1)) s (.trap 0x03 ea)
      let (t, pa) ← s.xlate s.cur s.me.dom s.me.region ea.toNat false
      .ok (t, { loc := .mem pa, va := ea.toNat, pa })) := by
  rw [State.check_global even (State.topMgmt_device outside)]
  rw [State.checkGlobal, decide_eq_true low, not_isMgmt low outside]
  simp only [demand_true, Bool.not_false, bind, Except.bind, BitVec.ofNat_toNat, BitVec.setWidth_eq]
  rfl

end

/-- Where the checks stop, a load that is none of a management register stops with them. -/
theorem State.plainLoad_stops {s t : State} {sp : Space} {d : SReg} {ea : Word} {z : LdSize} {len : Nat} {e : Stop}
    (no : ¬ s.AtRegister sp ea (z = .b8)) (stops : s.check sp ea z.bytes true false false = .error (t, e)) :
    s.plainLoad sp d ea z len = .next (t.stop e) := by
  rw [State.plainLoad_checked d len no, State.load, stops]
  rfl

theorem State.plainStore_refused {s t : State} {sp : Space} {ea x : Word} {z : MemSize} {len : Nat} {e : Stop}
    (no : ¬ s.AtRegister sp ea (z = .b8)) (stops : s.checkStore sp ea z.bytes = .error (t, e)) :
    s.plainStore sp ea z x len = .next (t.stop e) := by
  rw [State.plainStore_checked x len no, State.store, stops]
  rfl

theorem State.AtRegister.mono {s : State} {sp : Space} {ea : Word} {p q : Prop} (h : s.AtRegister sp ea p) (pq : p → q) :
    s.AtRegister sp ea q :=
  ⟨h.1, h.2.1, pq h.2.2.1, h.2.2.2⟩

/-- An access to an absent page stops in the state that the walk leaves (R390). -/
theorem HomesOnly.stop_trap {s t : State} (h : HomesOnly s t) (c : BitVec 5) (a : Word) :
    t.stop (.trap c a) = t.takeTrap s.cur c a s.pc false := by
  rw [State.stop_trap, h.cur, h.framesKept.pc]

theorem needs_read (a b : Bool) : ((!true || a) && (!false || b)) = a := by cases a <;> rfl

theorem needs_write (a b : Bool) : ((!false || a) && (!true || b)) = b := by cases b <;> rfl

/-- Why an aligned access to global space fails, for an instruction that stops where its check does and needs the rights given. -/
theorem global_fails {s : State} {i : Instr} {ea : Word} {n : Nat} {rd wr right : Bool} (even : ea.toNat % n = 0)
    (needs : ((!rd || (s.me.rights (BitVec.ofNat 56 ea.toNat) (s.me.level == 7)).1) &&
      (!wr || (s.me.rights (BitVec.ofNat 56 ea.toNat) (s.me.level == 7)).2.1)) = right)
    (halts : ∀ {t e}, ¬ s.AtRegister .global ea True → s.check .global ea n rd wr false = .error (t, e) → exec i s = .next (t.stop e)) :
    (2 ^ 56 ≤ ea.toNat → Traps s i 0x03 ea) ∧
    (ea.toNat / 2 ^ 48 = 0xFF → s.me.level ≠ 7 → Traps s i 0x03 ea) ∧
    (ea.toNat < 2 ^ 56 ∧ ea.toNat / 2 ^ 48 ≠ 0xFF → right = false → Traps s i 0x03 ea) ∧
    (∀ t k, ea.toNat < 2 ^ 56 ∧ ea.toNat / 2 ^ 48 ≠ 0xFF → right = true →
      s.translate (dieOf s.cur) (BitVec.ofNat 56 ea.toNat) s.me.sbuf = (t, .absent k false) →
      exec i s = .next (t.stop (if k = 1 then .park 8 ea else .trap 0x04 ea))) := by
  have outside (h : ea.toNat < 2 ^ 56 ∧ ea.toNat / 2 ^ 48 ≠ 0xFF) : ¬ s.AtRegister .global ea True :=
    fun ⟨_, _, _, _, inside, _⟩ => Bool.false_ne_true ((not_isMgmt h.1 h.2).symm.trans inside)
  refine ⟨fun beyond => traps_stop (halts ?_ (State.check_global_beyond even beyond)),
    fun inside low => traps_stop (halts (fun register => low register.2.1) (State.check_global_mgmt even inside)),
    fun device no => traps_stop (halts (outside device) ?_), fun t k device may found => halts (outside device) ?_⟩
  · exact fun ⟨_, _, _, low, _⟩ => absurd low (Nat.not_lt.mpr beyond)
  · rw [State.check_global_device even device.1 device.2, needs, no]
    rfl
  · rw [State.check_global_device even device.1 device.2, needs, may, State.xlate_absent found, BitVec.ofNat_toNat, BitVec.setWidth_eq]
    rfl

theorem State.check_global_page {s t : State} {ea : Word} {n pa : Nat} {rd wr : Bool} (even : ea.toNat % n = 0)
    (device : ea.toNat < 2 ^ 56 ∧ ea.toNat / 2 ^ 48 ≠ 0xFF)
    (may : ((!rd || (s.me.rights (BitVec.ofNat 56 ea.toNat) (s.me.level == 7)).1) &&
      (!wr || (s.me.rights (BitVec.ofNat 56 ea.toNat) (s.me.level == 7)).2.1)) = true)
    (found : s.translate (dieOf s.cur) (BitVec.ofNat 56 ea.toNat) s.me.sbuf = (t, .page pa)) :
    s.check .global ea n rd wr false = .ok (t, { loc := .mem pa, va := ea.toNat, pa }) := by
  rw [State.check_global_device even device.1 device.2, may, State.xlate_page found]
  rfl

/-! ### Accesses to the scratchpad that the checks stop (R76, R78) -/

theorem bits_one (w : Word) (k : Nat) : (bits w k 1 == 1) = w.getLsbD k := by
  cases h : w.getLsbD k with
  | true =>
    rw [beq_iff_eq]
    ext i hi
    obtain rfl : i = 0 := by omega
    simpa using h
  | false =>
    rw [beq_eq_false_iff_ne]
    intro one
    have bit := congrArg (fun x : BitVec 1 => x.getLsbD 0) one
    simp [h] at bit

/-- The page map grants an access: the entry is valid, and for a store writable (R76). -/
def grants (ent : Word) (wr : Bool) : Bool := bits ent 0 1 == 1 && (!wr || bits ent 1 1 == 1)

theorem grants_eq (ent : Word) (wr : Bool) : grants ent wr = (ent.getLsbD 0 && (!wr || ent.getLsbD 1)) := by
  rw [grants, bits_one, bits_one]

/-- The backing address of an offset of the scratchpad, by its entry of the page map (R76). -/
def backing (ent : Word) (o : Nat) : Nat := (bits ent 12 44 : BitVec 44).toNat * 4096 + o % 4096

theorem backing_lt (ent : Word) (o : Nat) : backing ent o < 2 ^ 56 := by
  have := (bits ent 12 44 : BitVec 44).isLt
  unfold backing
  omega

section
variable (s : State) (n : CoreId) (dom : BitVec 16) (top : Bool) (region : Option Region) (o : Nat) (wr sync now : Bool)

/-- The checks of an access to the scratchpad: the page map first (R76). -/
theorem State.checkScratch_gate : ∃ rest : Res (State × Acc),
    s.checkScratch n dom top region o wr sync now = (do
      demand (decide (o < 0x40000)) s (.trap 0x03 (BitVec.ofNat 64 o))
      demand (grants ((s.core n).pageEntry o) wr) s (.trap 0x03 (BitVec.ofNat 64 o))
      rest) := ⟨_, rfl⟩

/-- For a page that is not resident, the read right and the walk of its backing address (R78). -/
theorem State.checkScratch_missing
    (missing : (if (s.cluster (clusterOf n)).gstate = 0 then
      s.frameAt (clusterOf n) dom (backing ((s.core n).pageEntry o) o) else none) = none) :
    ∃ fill : State × Nat → Res (State × Acc),
    s.checkScratch n dom top region o wr sync now = (do
      demand (decide (o < 0x40000)) s (.trap 0x03 (BitVec.ofNat 64 o))
      demand (grants ((s.core n).pageEntry o) wr) s (.trap 0x03 (BitVec.ofNat 64 o))
      demand (!isMgmt (backing ((s.core n).pageEntry o) o)) s (.trap 0x03 (BitVec.ofNat 64 (backing ((s.core n).pageEntry o) o)))
      demand ((s.core n).rights (BitVec.ofNat 56 (backing ((s.core n).pageEntry o) o)) top).1 s
        (.trap 0x03 (BitVec.ofNat 64 (backing ((s.core n).pageEntry o) o)))
      s.xlate n dom region (backing ((s.core n).pageEntry o) o) false >>= fill) := by
  unfold State.checkScratch
  extract_lets e ent page b cl k
  have missing' : (if k.gstate = 0 then s.frameAt cl dom b else none) = none := missing
  rw [missing']
  exact ⟨_, rfl⟩

end

/-- An access to the scratchpad on its size is checked by `checkScratch`. -/
theorem State.check_scratch {s : State} {ea : Word} {n : Nat} {rd wr : Bool} (even : ea.toNat % n = 0) (sync : Bool) :
    s.check .scratch ea n rd wr sync =
      s.checkScratch s.cur s.me.dom (s.me.level == 7) s.me.region ea.toNat wr sync (!s.slow) := by
  rw [State.check, State.topMgmt_scratch, decide_eq_true even]
  rfl

/-- Why an access to the scratchpad fails at the page map, for firm frames and tentative ones alike (R76, log entry 10). -/
theorem State.scratch_closed {s : State} {ea : Word} {n : Nat} {rd wr : Bool} (even : ea.toNat % n = 0)
    (closed : ¬ (ea.toNat < 0x40000 ∧ grants (s.me.pageEntry ea.toNat) wr = true)) :
    s.checkEa .scratch ea n rd wr = .error (s, .trap 0x03 ea) ∧
      ∀ sync, s.check .scratch ea n rd wr sync = .error (s, .trap 0x03 ea) := by
  refine ⟨?_, fun sync => ?_⟩
  · have no : (decide (ea.toNat < 0x40000) && bits (s.me.pageEntry ea.toNat) 0 1 == 1 &&
        (!wr || bits (s.me.pageEntry ea.toNat) 1 1 == 1)) = false := by
      rw [Bool.and_assoc]
      exact Bool.eq_false_iff.mpr fun may => closed (by simpa [grants] using may)
    simp only [State.checkEa, State.topMgmt_scratch, even, decide_true, Bool.not_false, demand_true, no, demand_false, bind, Except.bind]
  · obtain ⟨rest, steps⟩ := s.checkScratch_gate s.cur s.me.dom (s.me.level == 7) s.me.region ea.toNat wr sync (!s.slow)
    rw [State.check_scratch even, steps, BitVec.ofNat_toNat, BitVec.setWidth_eq]
    by_cases within : ea.toNat < 0x40000
    · rw [show grants ((s.core s.cur).pageEntry ea.toNat) wr = false from Bool.eq_false_iff.mpr fun may => closed ⟨within, may⟩,
        decide_eq_true within]
      rfl
    · rw [decide_eq_false within]
      rfl

/-- A store that the page map does not grant fails there whether its frame is firm or tentative. -/
theorem State.checkStore_closed {s : State} {ea : Word} {n : Nat} (even : ea.toNat % n = 0)
    (closed : ¬ (ea.toNat < 0x40000 ∧ grants (s.me.pageEntry ea.toNat) true = true)) :
    s.checkStore .scratch ea n = .error (s, .trap 0x03 ea) := by
  cases firm : s.tentative with
  | false => exact (State.checkStore_firm firm .scratch ea n).trans ((State.scratch_closed even closed).2 false)
  | true =>
    simp only [State.checkStore, State.checkFirm, firm, if_true, (State.scratch_closed even closed).1, bind, Except.bind]

/-- Why an access that the page map grants fails at a page that is not resident, or behind a gated scratchpad (R78). -/
theorem State.scratch_behind {s : State} {ea : Word} {n : Nat} {rd wr : Bool} (even : ea.toNat % n = 0)
    (within : ea.toNat < 0x40000) (granted : grants (s.me.pageEntry ea.toNat) wr = true)
    (away : (s.cluster (clusterOf s.cur)).gstate ≠ 0 ∨
      s.frameAt (clusterOf s.cur) s.me.dom (backing (s.me.pageEntry ea.toNat) ea.toNat) = none) :
    let b := backing (s.me.pageEntry ea.toNat) ea.toNat
    let right := (s.me.rights (BitVec.ofNat 56 b) (s.me.level == 7)).1
    (b / 2 ^ 48 = 0xFF ∨ right = false → s.check .scratch ea n rd wr false = .error (s, .trap 0x03 (BitVec.ofNat 64 b))) ∧
    (∀ t, b / 2 ^ 48 ≠ 0xFF → right = true → s.translate (dieOf s.cur) (BitVec.ofNat 56 b) s.me.sbuf = (t, .absent 0 false) →
      s.check .scratch ea n rd wr false = .error (t, .trap 0x04 (BitVec.ofNat 64 b))) := by
  intro b right
  have missing : (if (s.cluster (clusterOf s.cur)).gstate = 0 then
      s.frameAt (clusterOf s.cur) s.me.dom (backing ((s.core s.cur).pageEntry ea.toNat) ea.toNat) else none) = none := by
    split
    · rename_i up
      exact away.resolve_left (not_not_intro up)
    · rfl
  obtain ⟨fill, steps⟩ := s.checkScratch_missing s.cur s.me.dom (s.me.level == 7) s.me.region ea.toNat wr false (!s.slow) missing
  have checks : s.check .scratch ea n rd wr false = (do
      demand (!isMgmt b) s (.trap 0x03 (BitVec.ofNat 64 b))
      demand right s (.trap 0x03 (BitVec.ofNat 64 b))
      s.xlate s.cur s.me.dom s.me.region b false >>= fill) := by
    rw [State.check_scratch even, steps, show grants ((s.core s.cur).pageEntry ea.toNat) wr = true from granted, decide_eq_true within]
    rfl
  refine ⟨fun fails => ?_, fun t outside may found => ?_⟩
  · rw [checks]
    by_cases inside : b / 2 ^ 48 = 0xFF
    · rw [isMgmt_of_top inside]
      rfl
    · rw [not_isMgmt (backing_lt _ _) inside, fails.resolve_left inside]
      rfl
  · rw [checks, not_isMgmt (backing_lt _ _) outside, may, State.xlate_absent found]
    rfl

/-- What an instruction does where its access to the scratchpad fails, that stops where its check does. -/
theorem scratch_fails {s : State} {i : Instr} {ea : Word} {n : Nat} {rd wr : Bool} (even : ea.toNat % n = 0)
    (within : ea.toNat < 0x40000) (granted : grants (s.me.pageEntry ea.toNat) wr = true)
    (away : (s.cluster (clusterOf s.cur)).gstate ≠ 0 ∨
      s.frameAt (clusterOf s.cur) s.me.dom (backing (s.me.pageEntry ea.toNat) ea.toNat) = none)
    (halts : ∀ {t e}, s.check .scratch ea n rd wr false = .error (t, e) → exec i s = .next (t.stop e)) :
    let b := backing (s.me.pageEntry ea.toNat) ea.toNat
    let right := (s.me.rights (BitVec.ofNat 56 b) (s.me.level == 7)).1
    (b / 2 ^ 48 = 0xFF ∨ right = false → Traps s i 0x03 (BitVec.ofNat 64 b)) ∧
    (∀ t, b / 2 ^ 48 ≠ 0xFF → right = true → s.translate (dieOf s.cur) (BitVec.ofNat 56 b) s.me.sbuf = (t, .absent 0 false) →
      exec i s = .next (t.takeTrap s.cur 0x04 (BitVec.ofNat 64 b) s.pc false)) := by
  intro b right
  obtain ⟨closed, absent⟩ := State.scratch_behind (rd := rd) even within granted away
  refine ⟨fun fails => traps_stop (halts (closed fails)), fun t outside may found => ?_⟩
  rw [halts (absent t outside may found), (State.homesOnly_of_translate found).stop_trap]

/-- Settles O13: accesses whose checks pass, registers of the management space, and then each reason for which a check fails. -/
theorem scratchAndGlobalAccesses : Obligations.ScratchAndGlobalAccesses := by
  refine ⟨fun s d a z y off u => ?_, fun s d a z y off pa t => ?_⟩
  · intro ea x8 loads stores provisional parks mgmt
    have register {e : Word} (h : mgmt e) : s.AtRegister .global e True :=
      ⟨rfl, h.1, trivial, h.2.1, isMgmt_of_top h.2.2.1, h.2.2.2.1⟩
    refine ⟨fun t p w bs => load_reads rfl, fun t p w bs => load_reads rfl, fun t p w bs => load_reads (z := .b8) rfl,
      fun t p w bs => load_reads (z := .b8) rfl, fun t p => store_buffers rfl, fun t p => store_buffers rfl,
      fun t p => store_buffers (z := .b8) rfl, fun t p => store_buffers (z := .b8) rfl, store_scratch_parks rfl,
      store_scratch_parks (z := .b8) rfl, fun t p x => store_provisional rfl, fun t p x => store_provisional (z := .b8) rfl,
      fun h => ?_, fun h stays => ?_⟩
    · obtain ⟨buffer, flight, amo⟩ := h.2.2.2.2
      exact retires_retire (State.plainLoad_register (register h) buffer flight amo)
    · obtain ⟨buffer, flight, amo⟩ := h.2.2.2.2
      exact State.plainStore_register (register h) buffer flight amo stays
  · intro ea o rights found device fails
    have loaded {t : State} {e : Stop} (no : ¬ s.AtRegister .global ea True)
        (stops : s.check .global ea z.bytes true false false = .error (t, e)) : exec (.ld d a z off) s = .next (t.stop e) :=
      State.plainLoad_stops (fun h => no (h.mono fun _ => trivial)) stops
    have stored {t : State} {e : Stop} (no : ¬ s.AtRegister .global ea True)
        (stops : s.check .global ea y.bytes false true false = .error (t, e)) : exec (.st d a y off) s = .next (t.stop e) :=
      State.plainStore_refused (fun h => no (h.mono fun _ => trivial)) stops
    have needs {i : Instr} {n : Nat} {rd wr right : Bool} (even : o % n = 0)
        (needs : ((!rd || rights.1) && (!wr || rights.2.1)) = right)
        (halts : ∀ {t e}, ¬ s.AtRegister .global ea True → s.check .global ea n rd wr false = .error (t, e) →
          exec i s = .next (t.stop e)) : fails i right := by
      obtain ⟨beyond, inside, closed, absent⟩ := global_fails even needs halts
      refine ⟨beyond, inside, closed, fun within may walk => ?_, fun within may walk => absent t 1 within may walk⟩
      rw [← (State.homesOnly_of_translate walk).stop_trap]
      exact absent t 0 within may walk
    refine ⟨fun even => needs even (needs_read _ _) loaded, fun even => needs even (needs_write _ _) stored,
      fun inside even part => ?_, fun within walk => ⟨fun even may => ?_, fun even may => ?_⟩, ?_⟩
    · exact traps_stop (State.plainLoad_stops (fun h => part h.2.2.1) (State.check_global_mgmt even inside))
    · exact State.check_global_page even within ((needs_read _ _).trans may) walk
    · exact State.check_global_page even within ((needs_write _ _).trans may) walk
    · intro entry b back away right outside behind reads writes
      have space {P : Prop} : ¬ s.AtRegister .scratch ea P := fun h => nomatch h.1
      have loadC {t : State} {e : Stop} (stops : s.check .scratch ea z.bytes true false false = .error (t, e)) :
          exec (.ldC d a z off) s = .next (t.stop e) := State.plainLoad_stops space stops
      have storeC {t : State} {e : Stop} (stops : s.checkStore .scratch ea y.bytes = .error (t, e)) :
          exec (.stC d a y off) s = .next (t.stop e) := State.plainStore_refused space stops
      have closed {i : Instr} {wr : Bool} (traps : grants entry wr = false ∨ 0x40000 ≤ o → Traps s i 0x03 ea) :
          outside i (grants entry wr) := ⟨fun beyond => traps (.inr beyond), fun _ no => traps (.inl no)⟩
      have shut {wr : Bool} (h : grants entry wr = false ∨ 0x40000 ≤ o) : ¬ (o < 0x40000 ∧ grants entry wr = true) := by
        rintro ⟨within, may⟩
        exact h.elim (fun no => Bool.false_ne_true (no.symm.trans may)) (Nat.not_le.mpr within)
      have readable : grants entry false = reads := (grants_eq entry false).trans (Bool.and_true _)
      have writable : grants entry true = writes := grants_eq entry true
      refine ⟨fun even => ⟨?_, fun within may gone => ?_⟩, fun even => ⟨?_, fun within may firm gone => ?_⟩⟩
      · rw [← readable]
        exact closed fun h => traps_stop (loadC ((State.scratch_closed even (shut h)).2 false))
      · obtain ⟨traps, absent⟩ := scratch_fails even within (readable.trans may) gone loadC
        exact ⟨traps, fun outer may walk => absent t outer may walk⟩
      · rw [← writable]
        exact closed fun h => traps_stop (storeC (State.checkStore_closed even (shut h)))
      · obtain ⟨traps, absent⟩ := scratch_fails even within (writable.trans may) gone
          (fun stops => storeC ((State.checkStore_firm firm .scratch ea y.bytes).trans stops))
        exact ⟨traps, fun outer may walk => absent t outer may walk⟩

end Sys2Proof.Machine
end

section
/-! ## Commands with tensor maps enter their engines (R104, R282, R321, R322) -/

namespace Sys2Proof.Machine

/-! ### Fields of a word -/

theorem toNat_bits_high (w : Word) {lo n : Nat} (top : lo + n = 64) : (bits w lo n).toNat = w.toNat / 2 ^ lo := by
  rw [BitVec.extractLsb'_toNat, Nat.shiftRight_eq_div_pow]
  refine Nat.mod_eq_of_lt (Nat.div_lt_of_lt_mul ?_)
  rw [← Nat.pow_add, top]
  exact w.isLt

theorem bits_high_eq_zero (w : Word) {lo n : Nat} (top : lo + n = 64) : bits w lo n = 0 ↔ w.toNat < 2 ^ lo := by
  have zero : (0 : BitVec n).toNat = 0 := by simp
  rw [← BitVec.toNat_inj, toNat_bits_high w top, zero, Nat.div_eq_zero_iff]
  have := Nat.two_pow_pos lo
  omega

theorem bits_low_eq_zero (w : Word) (n : Nat) : bits w 0 n = 0 ↔ w.toNat % 2 ^ n = 0 := by
  have zero : (0 : BitVec n).toNat = 0 := by simp
  rw [← BitVec.toNat_inj, BitVec.extractLsb'_toNat, zero, Nat.shiftRight_zero]

/-! ### The checks of a command -/

theorem Succ.self_eq (x : Succ) : x.self = x.dest.getLsbD 34 := bits_one x.dest 34

theorem Succ.nosucc_eq (x : Succ) : x.nosucc = x.dest.getLsbD 35 := bits_one x.dest 35

/-- A successor that is as the spec asks passes the checks of its command. -/
theorem State.checkSucc_ok {s : State} {d : SReg} {sprio : BitVec 3} {stype : Byte} {start : Bool}
    (h : SuccessorOk s d sprio stype start) :
    s.checkSucc d sprio stype start = .ok { stype := stype, sprio := sprio, dest := s.destWord d } := by
  obtain ⟨reserved, self, type, target⟩ := h
  have first : ((start || bits (s.destWord d) 36 28 == 0) &&
      (!({ stype := stype, sprio := sprio, dest := s.destWord d } : Succ).self || bits (s.destWord d) 0 34 == 0)) = true := by
    rw [Succ.self_eq, Bool.and_eq_true, Bool.or_eq_true, Bool.or_eq_true, beq_iff_eq, beq_iff_eq, Bool.not_eq_true']
    refine ⟨reserved.imp id fun h => (bits_high_eq_zero _ rfl).mpr ((Nat.div_eq_zero_iff_lt (by decide)).mp h), ?_⟩
    cases own : (s.destWord d).getLsbD 34 with
    | false => exact .inl rfl
    | true => exact .inr ((bits_low_eq_zero _ 34).mpr (self own))
  have second : (decide (s.me.level = 7) || ({ stype := stype, sprio := sprio, dest := s.destWord d } : Succ).nosucc ||
      (decide (0x20 ≤ stype.toNat) && sprio != 7)) = true := by
    rw [Succ.nosucc_eq]
    simpa only [Bool.or_eq_true, Bool.and_eq_true, decide_eq_true_eq, bne_iff_ne, or_assoc] using type
  have third : (({ stype := stype, sprio := sprio, dest := s.destWord d } : Succ).nosucc ||
      ({ stype := stype, sprio := sprio, dest := s.destWord d } : Succ).self || s.moduleOf (bits (s.destWord d) 18 16) != s.modu ||
      s.present (bits (s.destWord d) 0 18)) = true := by
    rw [Succ.nosucc_eq, Succ.self_eq]
    simpa only [Bool.or_eq_true, bne_iff_ne, or_assoc] using target
  unfold State.checkSucc
  simp only [first, second, Succ.modu, Succ.lid, third, demand_true, bind, Except.bind]

/-- With nothing to wait for, a command begins in the state it finds. -/
theorem State.beginCmd_ok {s : State} {d : SReg} {sprio : BitVec 3} {stype : Byte} {start : Bool}
    (h : SuccessorOk s d sprio stype start) (buffer : s.me.sbuf = []) (flight : s.me.flight = []) (amo : s.me.amoWait = false) :
    s.beginCmd d sprio stype start = .ok (s, { stype := stype, sprio := sprio, dest := s.destWord d }) := by
  rw [State.beginCmd, State.checkSucc_ok h]
  simp only [bind, Except.bind, State.drain_empty s s.cur buffer flight amo]

theorem State.needSlot_free {s : State} {e : BitVec 4} (free : s.me.heldCmds e < 2) : s.needSlot e = .ok () := by
  rw [State.needSlot, decide_eq_true free, demand_true]

/-- A map whose words are in order is read from its 256 aligned bytes below `k.slim` (R104). -/
theorem State.readMap_ok {s : State} {off : Nat} (aligned : off % 256 = 0) (inside : off + 256 ≤ s.me.slim.toNat)
    (sound : mapFault (fun i => s.me.tcmWord (off + 8 * i)) = none) :
    s.readMap off = .ok (tmapOf fun i => s.me.tcmWord (off + 8 * i)) := by
  rw [State.readMap, decide_eq_true aligned, decide_eq_true inside]
  simp only [Bool.and_self, demand_true, bind, Except.bind, sound]

/-! ### Accepted commands -/

/-- A copy that is accepted stands behind those in its engine's queue. -/
theorem State.acceptCopy_free {s : State} (x : CopyCmd) (free : s.me.heldCmds 0 < 2) :
    s.acceptCopy x = .ok (s.updMe fun c =>
      { c with copyQ := c.copyQ ++ [x], estCopy := { c.estCopy with done := false }, pc := c.pc + 4,
               stalls := c.stalls.set c.lvl.toFin 0 }) := by
  rw [State.acceptCopy, State.needSlot_free free]
  exact congrArg Except.ok (State.updMe_updMe s _ _)

theorem State.acceptMat_eq (s : State) (op : MatOp) :
    s.acceptMat op = s.updMe fun c =>
      { c with matQ := c.matQ ++ [{ by_ := s.issuer, op, waited := 0 }], estMat := { c.estMat with done := false }, pc := c.pc + 4,
               stalls := c.stalls.set c.lvl.toFin 0 } := by
  rw [State.acceptMat, State.advance, State.updMe_updMe]
  rfl

/-- The place a copy of a tentative frame may write: global memory, or its own frame (R331). -/
def State.ownPlace (s : State) (m : TMap) : Prop :=
  m.space = .global ∨ (m.space = .tcm ∧ (s.me.here.fbase.toNat : Int) ≤ m.span.1 ∧
    m.span.2 ≤ (s.me.here.fbase.toNat + frameSize s.me.here.fclass s.me.lvl : Nat))

theorem State.copyAllowed_iff (s : State) (m : TMap) (x : Succ) :
    s.copyAllowed m x = true ↔ (x.self = true ∨ x.nosucc = true) ∧ s.ownPlace m := by
  rw [State.copyAllowed, State.ownPlace, Bool.and_eq_true, Bool.or_eq_true]
  refine and_congr_right fun _ => ?_
  cases m.space <;> simp

section
variable {s : State} {d : SReg} {x y : QReg} {sprio : BitVec 3} {stype : Byte} {m n : TMap}

/-- What a copy does whose successor and maps pass their checks (R321): it waits for its rights, then for its engine. -/
theorem exec_copy_checked (buffer : s.me.sbuf = []) (flight : s.me.flight = []) (amo : s.me.amoWait = false)
    (succ : SuccessorOk s d sprio stype true) (dst : s.readMap (s.desc x) = .ok m) (src : s.readMap (s.desc y) = .ok n)
    (format : n.efmt = m.efmt) (boxes : n.dims.map (fun k => k.box) = m.dims.map (fun k => k.box)) (size : n.count ≤ 2 ^ 28)
    (even : n.efmt = 0xD → ((n.dims.map fun k => k.box).headD 0 + 1) % 2 = 0 ∧ (s.destWord d).toNat / 2 ^ 36 % 2 = 0) :
    let z : Succ := { stype := stype, sprio := sprio, dest := s.destWord d }
    exec (.copy d x y sprio stype) s = finish (do
      demand (!s.tentative || s.copyAllowed m z) s (.park 11 0)
      s.acceptCopy { by_ := s.issuer, succ := z, src := n, dst := m, q := none, start := (s.destWord d).toNat / 2 ^ 36,
                     next := (s.destWord d).toNat / 2 ^ 36 }) := by
  have odd : (n.efmt == 0xD && (decide (((n.dims.map fun k => k.box).headD 0 + 1) % 2 = 1) ||
      decide ((s.destWord d).toNat / 2 ^ 36 % 2 = 1))) = false := by
    rw [Bool.and_eq_false_imp, beq_iff_eq]
    intro half
    obtain ⟨box, start⟩ := even half
    rw [box, start]
    rfl
  have sound : (n.efmt == m.efmt && (n.dims.map fun k => k.box) == (m.dims.map fun k => k.box) && decide (n.count ≤ 2 ^ 28) &&
      !(n.efmt == 0xD && (decide (((n.dims.map fun k => k.box).headD 0 + 1) % 2 = 1) ||
        decide ((s.destWord d).toNat / 2 ^ 36 % 2 = 1)))) = true := by
    rw [odd, beq_iff_eq.mpr format, beq_iff_eq.mpr boxes, decide_eq_true size]
    rfl
  show execCopy d x y sprio stype s = _
  unfold execCopy
  rw [State.beginCmd_ok succ buffer flight amo]
  simp only [bind, Except.bind, dst, src, toNat_bits_high _ (show 36 + 28 = 64 from rfl), sound, demand_true]

/-- What a stream does whose successor, map and register pass their checks (R303, R322). -/
theorem exec_cpst_checked (buffer : s.me.sbuf = []) (flight : s.me.flight = []) (amo : s.me.amoWait = false)
    (succ : SuccessorOk s d sprio stype true) (src : s.readMap (s.desc y) = .ok n) (space : n.space ≠ .global)
    (free : (s.me.rq x).kind = 0 ∨ ((s.me.rq x).kind = 3 ∧ (s.me.rq x).level = s.me.lvl ∧ s.me.streaming x = false ∧
      (s.me.rq x).entries = [] ∧ (s.me.rq x).resv = 0)) :
    let z : Succ := { stype := stype, sprio := sprio, dest := s.destWord d }
    exec (.cpst d x y sprio stype) s = finish (do
      let t ← s.acceptCopy { by_ := s.issuer, succ := z, src := n, dst := n, q := some x, start := (s.destWord d).toNat / 2 ^ 36,
                             next := (s.destWord d).toNat / 2 ^ 36 }
      .ok (t.updMe fun c => c.updQ x fun k => { k with kind := 3, level := c.lvl })) := by
  have unbound : ((s.me.rq x).kind == 0 || ((s.me.rq x).kind == 3 && (s.me.rq x).level == s.me.lvl && !s.me.streaming x &&
      (s.me.rq x).entries.isEmpty && decide ((s.me.rq x).resv = 0))) = true := by
    simpa only [Bool.or_eq_true, Bool.and_eq_true, beq_iff_eq, decide_eq_true_eq, Bool.not_eq_true', List.isEmpty_iff, and_assoc]
      using free
  show execCpst d x y sprio stype s = _
  unfold execCpst
  rw [State.beginCmd_ok succ buffer flight amo]
  simp only [bind, Except.bind, src, toNat_bits_high _ (show 36 + 28 = 64 from rfl), unbound, bne_iff_ne.mpr space, demand_true]

end

/-- Word `i` of the record at `off` of the running core's TCM. -/
def State.recordWord (s : State) (off i : Nat) : Word := s.me.tcmWord (off + 8 * i)

/-- A record below `k.slim` at a multiple of 64 is read word by word (R303). -/
theorem State.record_ok {s : State} {off : Nat} (aligned : off % 64 = 0) (inside : off + 64 ≤ s.me.slim.toNat) :
    s.record off = .ok ((upFrom 0 8).map (s.recordWord off)) := by
  rw [State.record, State.recordPlaced, decide_eq_true aligned, decide_eq_true inside]
  rfl

/-- A command of the matrix engine with a free slot and nothing to wait for finds its state as it is. -/
theorem State.matrixReady_ok {s : State} (free : s.me.heldCmds 1 < 2) (buffer : s.me.sbuf = []) (flight : s.me.flight = [])
    (amo : s.me.amoWait = false) : s.matrixReady = .ok s := by
  rw [State.matrixReady, State.needSlot_free free]
  exact State.drain_empty s s.cur buffer flight amo

/-- What a matrix command does past its checks: a firm frame's enters its engine, a tentative one's parks (R285). -/
theorem firmDoes_enters {s : State} {i : Instr} {op : MatOp}
    (runs : exec i s = finish (do
      s.parkTentative 10
      .ok (s.acceptMat op))) : FirmDoes s i 10 (EntersMatrix s i op 0) := by
  refine ⟨fun firm => ⟨s.me.stalls.set s.me.lvl.toFin 0, ?_⟩, fun tentative => ?_⟩
  · rw [runs, State.parkTentative, firm, State.acceptMat_eq]
    simp only [BitVec.add_zero]
    rfl
  · show exec i s = _
    rw [runs, State.parkTentative, tentative]
    rfl

/-- The fields of a pass record that must be as R282 has them, by its words and maps. -/
def passLayout (w : Nat → Word) (m n o : TMap) : Bool :=
  let ctx : Word := (bits (w 4) 32 2 ++ n.efmt ++ m.efmt).setWidth 64
  bits (w 0) 48 16 == 0 && bits (w 1) 0 4 == 0 && bits (w 1) 8 2 == 0 && bits (w 1) 16 16 == 0 &&
    bits (w 2) 56 8 == 0 && bits (w 3) 56 8 == 0 && bits (w 4) 34 30 == 0 && w 6 == 0 && w 7 == 0 &&
    decide (m.dims.length = 2) && decide (n.dims.length = 2) && decide (o.dims.length = 2) &&
    (ctxPair ctx).isSome && epiOk (w 1) o.efmt ((ctxPair ctx).getD false)

theorem upFrom_eight_getD (f : Nat → Word) {i : Nat} (h : i < 8) : (((upFrom 0 8).map f)[i]?).getD 0 = f i := by
  have at_i : (upFrom 0 8)[i]? = some i := by
    decide +revert
  rw [List.getElem?_map, at_i]
  rfl

/-- What a pass does whose record, maps and shapes pass their checks (R282). -/
theorem exec_mpass_checked {s : State} {d : SReg} {x : QReg} {sprio : BitVec 3} {stype : Byte} {m n o : TMap}
    (succ : SuccessorOk s d sprio stype false) (free : s.me.heldCmds 1 < 2) (buffer : s.me.sbuf = []) (flight : s.me.flight = [])
    (amo : s.me.amoWait = false) (aligned : s.desc x % 64 = 0) (inside : s.desc x + 64 ≤ s.me.slim.toNat) :
    let w : Nat → Word := s.recordWord (s.desc x)
    s.readMap (bits (w 0) 0 16).toNat = .ok m → s.readMap (bits (w 0) 16 16).toNat = .ok n →
    s.readMap (bits (w 0) 32 16).toNat = .ok o → passLayout w m n o = true →
    passLen m = n.size 0 → m.size 1 = o.size 1 → n.size 1 = o.size 0 →
    exec (.mpass d x sprio stype) s = finish (do
      s.parkTentative 10
      .ok (s.acceptMat (.pass { stype := stype, sprio := sprio, dest := s.destWord d } m n o (w 1) (bits (w 2) 0 56)
        (bits (w 3) 0 56) (bits (w 4) 0 32) ((w 4).getLsbD 32) ((w 4).getLsbD 33) (w 5)))) := by
  intro w
  have same : s.recordWord (s.desc x) = w := rfl
  clear_value w
  intro am bm cm layout pass rows cols
  have shapes : (decide (passLen m = n.size 0) && decide (m.size 1 = o.size 1) && decide (n.size 1 = o.size 0)) = true := by
    rw [decide_eq_true pass, decide_eq_true rows, decide_eq_true cols]
    rfl
  simp only [passLayout] at layout
  show execMpass d x sprio stype s = _
  unfold execMpass
  simp only [State.needSlot_free free, State.checkSucc_ok succ, State.matrixReady_ok free buffer flight amo,
    State.record_ok aligned inside, bind, Except.bind]
  simp (disch := decide) only [upFrom_eight_getD, same, am, bm, cm, layout, shapes, demand_true]

/-- Settles O41: each command's checks are passed one by one, and the engine takes it. -/
theorem mapCommandsEnter : Obligations.MapCommandsEnter := by
  intro s d x y sprio stype m n o k succ start at_ boxes cmd buffer flight amo
  refine ⟨fun off => State.readMap_ok, fun fits free dst src format same size even => ?_,
    fun fits free src space unbound => ?_, ?_⟩
  · have checked := exec_copy_checked buffer flight amo fits dst src format same size even
    refine ⟨fun tentative away => ?_, fun may => ⟨k.stalls.set k.lvl.toFin 0, ?_⟩⟩
    · have barred : (!s.tentative || s.copyAllowed m succ) = false := by
        rw [tentative, Bool.eq_false_iff.mpr (mt (s.copyAllowed_iff m succ).mp away)]
        rfl
      show exec _ s = _
      rw [checked, barred]
      rfl
    · have allowed : (!s.tentative || s.copyAllowed m succ) = true := by
        rw [Bool.or_eq_true, Bool.not_eq_true']
        exact may.imp id (s.copyAllowed_iff m succ).mpr
      rw [checked, allowed, State.acceptCopy_free _ free]
      rfl
  · refine ⟨_, (exec_cpst_checked buffer flight amo fits src space unbound).trans
      (by rw [State.acceptCopy_free _ free]; rfl), ?_, ?_, ?_, ?_, ?_, fun z other => ?_⟩
    · rw [State.updMe_updMe]
      exact sameMemory_setMe s _ rfl
    all_goals rw [State.updMe_updMe]
    · rw [State.pc, State.me_updMe]; rfl
    · rw [State.me_updMe]; rfl
    · rw [State.me_updMe]; rfl
    · rw [State.me_updMe]; exact Core.rq_updQ_same _ _ _
    · rw [State.me_updMe]; exact Core.rq_updQ_other _ _ other
  · intro w ctx fits free aligned inside am bm cm zero epi0 epi1 epi2 h2 h3 h4 h6 h7 r1 r2 r3 ctxs epi pass rows cols
    refine firmDoes_enters ?_
    have layout : passLayout w m n o = true := by
      have z0 := (bits_high_eq_zero (w 0) (show 48 + 16 = 64 from rfl)).mpr zero
      have z2 := (bits_high_eq_zero (w 2) (show 56 + 8 = 64 from rfl)).mpr h2
      have z3 := (bits_high_eq_zero (w 3) (show 56 + 8 = 64 from rfl)).mpr h3
      have z4 := (bits_high_eq_zero (w 4) (show 34 + 30 = 64 from rfl)).mpr h4
      simp only [passLayout, z0, epi0, epi1, epi2, z2, z3, z4, h6, h7, r1, r2, r3, BEq.rfl, decide_true, Bool.and_self, Bool.true_and]
      exact Bool.and_eq_true_iff.mpr ⟨ctxs, epi⟩
    exact exec_mpass_checked fits free buffer flight amo aligned inside am bm cm layout pass rows cols

end Sys2Proof.Machine
end

section
/-! ## Machine control at level 7 (R95, R355 to R359) -/

namespace Sys2Proof.Machine

theorem State.privileged_top {s : State} (top : s.me.level = 7) (i : Instr) (k : State → Out) : s.privileged i k = k s := if_pos top

/-! ### Instructions that write the running core alone -/

/-- Exactly f is done to the running core, and the instruction passed. -/
def RetiresCore (s : State) (i : Instr) (f : Core → Core) : Prop :=
  ∃ st : Vector (BitVec 41) 8, exec i s = .next (s.updMe fun c => { f c with pc := c.pc + 4, stalls := st })

theorem State.updMe_congr {s : State} {f g : Core → Core} (h : f s.me = g s.me) : s.updMe f = s.updMe g := congrArg s.setMe h

theorem retiresCore_updMe {s : State} {i : Instr} {f g : Core → Core} (runs : exec i s = .next ((s.updMe f).advance 4))
    (does : f s.me = g s.me) (pc : (g s.me).pc = s.me.pc) : RetiresCore s i g := by
  refine ⟨(g s.me).stalls.set (g s.me).lvl.toFin 0, ?_⟩
  rw [runs, State.updMe_congr does, State.advance, State.updMe_updMe]
  refine congrArg (fun t : State => (.next t : Out)) (State.updMe_congr ?_)
  dsimp only
  rw [pc]
  rfl

/-! ### Entries of the PLB (R355) -/

/-- The operands of `plbw` that make a valid entry. -/
def PlbValid (y x : Word) : Prop :=
  y.toNat % 2 ^ 16 = 0 ∧ y.toNat < 2 ^ 56 ∧ x.toNat % 2 ^ 16 < 16 ∧ x.toNat < 2 ^ 56 ∧ y.toNat / 2 ^ 16 ≤ x.toNat / 2 ^ 16

theorem bits_from4_eq_zero (w : Word) : bits w 4 12 = 0 ↔ w.toNat % 2 ^ 16 < 16 := by
  have zero : (0 : BitVec 12).toNat = 0 := by simp
  rw [← BitVec.toNat_inj, BitVec.extractLsb'_toNat, zero, Nat.shiftRight_eq_div_pow]
  omega

theorem toNat_bits_page (w : Word) (h : w.toNat < 2 ^ 56) : (bits w 16 40).toNat = w.toNat / 2 ^ 16 := by
  rw [BitVec.extractLsb'_toNat, Nat.shiftRight_eq_div_pow]
  omega

theorem plbValid_iff (y x : Word) :
    (bits y 0 16 = 0 ∧ bits y 56 8 = 0 ∧ bits x 4 12 = 0 ∧ bits x 56 8 = 0 ∧ (bits y 16 40).toNat ≤ (bits x 16 40).toNat) ↔
      PlbValid y x := by
  rw [bits_low_eq_zero, bits_high_eq_zero y (show 56 + 8 = 64 from rfl), bits_from4_eq_zero,
    bits_high_eq_zero x (show 56 + 8 = 64 from rfl), PlbValid]
  constructor
  · rintro ⟨low, high, rights, top, order⟩
    exact ⟨low, high, rights, top, by rwa [toNat_bits_page y high, toNat_bits_page x top] at order⟩
  · rintro ⟨low, high, rights, top, order⟩
    exact ⟨low, high, rights, top, by rwa [toNat_bits_page y high, toNat_bits_page x top]⟩

theorem plbEntryOf_valid {y x : Word} (h : PlbValid y x) :
    plbEntryOf y x = { valid := true, base := bits y 16 40, limit := bits x 16 40, r := x.getLsbD 0, w := x.getLsbD 1,
                       x := x.getLsbD 2, sonly := x.getLsbD 3 } := if_pos ((plbValid_iff y x).mpr h)

theorem plbEntryOf_invalid {y x : Word} (h : ¬ PlbValid y x) : plbEntryOf y x = .reset := if_neg (mt (plbValid_iff y x).mp h)

/-! ### The instruction cache (R359) -/

/-- From s to t memory at homes changes, and the locked lines of core n. -/
def LocksOnly (n : CoreId) (s t : State) : Prop := t.cur = s.cur ∧ ∃ l, t.core n = { s.core n with locked := l }

theorem LocksOnly.trans {n : CoreId} {s t u : State} (h : LocksOnly n s t) (k : LocksOnly n t u) : LocksOnly n s u := by
  obtain ⟨cur, l, core⟩ := h
  obtain ⟨cur', l', core'⟩ := k
  exact ⟨cur'.trans cur, l', by rw [core', core]⟩

theorem locksOnly_updCore (s : State) (n : CoreId) (f : Core → Cells Parcel) :
    LocksOnly n s (s.updCore n fun c => { c with locked := f c }) := ⟨rfl, f (s.core n), State.core_updCore_same s n _⟩

theorem locksOnly_lockLines (s : State) (n : CoreId) : LocksOnly n s (s.lockLines n) := by
  unfold State.lockLines
  refine foldl_keeps (fun t => LocksOnly n s t) _ (fun t a locks => locks.trans ?_) _ _ (locksOnly_updCore s n fun _ => [])
  have code := homesOnly_codeLine t n a
  exact LocksOnly.trans ⟨code.cur, _, code.core n⟩ (locksOnly_updCore _ n fun c => c.locked ++ (t.codeLine n a).2)

/-- A core that is bound to no launch has no handler to lock. -/
theorem State.lockLines_unbound {s : State} {n : CoreId} (unbound : (s.core n).binding = none) :
    s.lockLines n = s.updCore n fun c => { c with locked := [] } := by
  rw [State.lockLines, Core.lockedHandlers, unbound]
  rfl

/-- The running core with an empty instruction cache and entry buffer. -/
def Core.codeless (c : Core) : Core := { c with icache := [], entryBuf := .replicate 8 [] }

theorem exec_icinv {s : State} (top : s.me.level = 7) :
    exec .icinv s = .next (((s.updMe Core.codeless).lockLines s.cur).advance 4) := if_pos top

/-! ### The remap table (R95, R356, R447, R448) -/

/-- What `remap` refuses, by the LID l and the core p that its operand names. -/
def State.RemapRefused (s : State) (x : Word) (l p : CoreId) : Prop :=
  x.toNat / 2 ^ 33 ≠ 0 ∨ dieOf l ≠ dieOf s.cur ∨ (x.getLsbD 32 = true ∧
    (p = s.serviceCore (sectorOf p) ∨ p ∈ s.disabled ∨ s.namedByOther l p = true))

theorem State.remapRefused_iff (s : State) (x : Word) (l p : CoreId) :
    (bits x 33 31 != 0 || dieOf l != dieOf s.cur || (x.getLsbD 32 && (p == s.serviceCore (sectorOf p) || s.disabled.contains p ||
      s.namedByOther l p))) = true ↔ s.RemapRefused x l p := by
  rw [State.RemapRefused, Bool.or_eq_true, Bool.or_eq_true, Bool.and_eq_true, Bool.or_eq_true, Bool.or_eq_true, bne_iff_ne,
    bne_iff_ne, beq_iff_eq, List.contains_iff_mem, or_assoc, or_assoc]
  refine or_congr_left (not_congr ?_)
  rw [bits_high_eq_zero x (show 33 + 31 = 64 from rfl), Nat.div_eq_zero_iff_lt (by decide)]

/-- The die's table with the entry for l set. -/
def State.remapped (s : State) (x : Word) (l : CoreId) : State :=
  s.updDie (dieOf s.cur) fun k => { k with remap := Cells.put k.remap (bits l 0 14).toNat { phys := bits x 18 14, present := x.getLsbD 32 } }

/-- With it, the holds that saves of l have left elsewhere are released, where l is present. -/
def State.unheld (s : State) (x : Word) (l p : CoreId) : State :=
  if x.getLsbD 32 then (s.remapped x l).releaseHolds l p else s.remapped x l

/-- The state in which an accepted `remap` of LID l, held by `old`, to core p retires. -/
def State.relocated (s : State) (x : Word) (l old p : CoreId) : State :=
  if x.getLsbD 32 && s.present l && old != p then ((s.unheld x l p).moveHeld l old p).updCore p fun c => { c with loading := some l }
  else s.unheld x l p

theorem exec_remap {s : State} {d a : SReg} (top : s.me.level = 7) :
    let x := s.rs a
    let l : CoreId := bits x 0 18
    let p : CoreId := dieOf s.cur ++ bits x 18 14
    (s.RemapRefused x l p → exec (.remap d a) s = s.retire d 1 4) ∧
    (¬ s.RemapRefused x l p → exec (.remap d a) s = (s.relocated x l (s.physOf l) p).retire d 0 4) := by
  intro x l p
  have runs : exec (.remap d a) s = _ := if_pos top
  exact ⟨fun refused => runs.trans (if_pos ((s.remapRefused_iff x l p).mpr refused)),
    fun passes => runs.trans (if_neg (mt (s.remapRefused_iff x l p).mp passes))⟩

/-! What each part of `relocated` does to the cores. -/

theorem Cells.find_map_entry {α : Type} (f : Nat → α → α) (m : Cells α) (k : Nat) :
    Cells.find (m.map fun e => (e.1, f e.1 e.2)) k = (Cells.find m k).map (f k) := by
  induction m with
  | nil => rfl
  | cons e r ih =>
    obtain ⟨j, v⟩ := e
    by_cases here : j = k
    · subst here; simp [Cells.find]
    · simpa [Cells.find, here] using ih

/-- What `releaseHolds` does to the core of a physical number. -/
def Core.released (lid n : CoreId) (k : Nat) (c : Core) : Core :=
  if k ≠ n.toNat ∧ c.holds ∧ c.savedLid = some lid then { c with holds := false } else c

theorem State.core_releaseHolds (s : State) (lid n v : CoreId) :
    (s.releaseHolds lid n).core v = (s.core v).released lid n v.toNat := by
  have entries : (s.releaseHolds lid n).cores = s.cores.map fun e => (e.1, e.2.released lid n e.1) := by
    refine List.map_congr_left fun e _ => ?_
    unfold Core.released
    split <;> rfl
  have fresh : (Core.booted s.boot v).released lid n v.toNat = Core.booted s.boot v := by
    have rests : (Core.booted s.boot v).holds = false := by unfold Core.booted; split <;> rfl
    exact if_neg fun h => Bool.false_ne_true (rests.symm.trans h.2.1)
  rw [State.core, entries, Cells.find_map_entry, State.core]
  cases Cells.find s.cores v.toNat with
  | none => exact fresh.symm
  | some c => rfl

/-- A released core differs from what it was in its hold alone. -/
theorem Core.released_eq (c : Core) (lid n : CoreId) (k : Nat) :
    ∃ b, (c.holds = false → b = false) ∧ c.released lid n k = { c with holds := b } := by
  unfold Core.released
  split
  · exact ⟨false, fun _ => rfl, rfl⟩
  · exact ⟨c.holds, id, rfl⟩

theorem Core.holds_released {c : Core} {lid n v : CoreId} (other : v ≠ n) (saved : c.savedLid = some lid) :
    (c.released lid n v.toNat).holds = false := by
  have apart : v.toNat ≠ n.toNat := fun e => other (BitVec.eq_of_toNat_eq e)
  unfold Core.released
  split
  · rfl
  · next keeps => exact Bool.eq_false_iff.mpr fun holds => keeps ⟨apart, holds, saved⟩

/-- Core k with what core c holds behind what it holds itself, each arrival marked as moved (R448). -/
def Core.gains (k c : Core) (l : List Nat) : Core := l.foldl (fun (k : Core) l =>
  let p : BitVec 3 := BitVec.ofNat 3 l
  k.setHeld p (k.held p ++ (c.held p).map Arr.moved)) k

theorem Core.gains_eq (c : Core) (l : List Nat) (k : Core) : ∃ b, k.gains c l = { k with inbox := b } := by
  induction l generalizing k with
  | nil => exact ⟨k.inbox, rfl⟩
  | cons p r ih => exact ih (k.setHeld (BitVec.ofNat 3 p) _)

theorem Core.held_gains (c : Core) {l : List Nat} (small : ∀ p ∈ l, p < 8) (once : l.Nodup) (k : Core) (j : BitVec 3) :
    (k.gains c l).held j = if j.toNat ∈ l then k.held j ++ (c.held j).map Arr.moved else k.held j := by
  induction l generalizing k with
  | nil => rfl
  | cons p r ih =>
    obtain ⟨fresh, once⟩ := List.nodup_cons.mp once
    rw [show k.gains c (p :: r) = (k.setHeld (BitVec.ofNat 3 p) _).gains c r from rfl,
      ih (fun q hq => small q (List.mem_cons_of_mem p hq)) once, Core.held_setHeld]
    have least : p < 8 := small p (List.mem_cons_self ..)
    have same : j = BitVec.ofNat 3 p ↔ j.toNat = p := by
      rw [← BitVec.toNat_inj, BitVec.toNat_ofNat, Nat.mod_eq_of_lt least]
    by_cases here : j.toNat = p
    · rw [if_pos (same.mpr here), if_neg (here ▸ fresh), if_pos (here ▸ List.mem_cons_self ..), same.mpr here]
    · simp only [List.mem_cons, here, false_or, mt same.mp here, if_false]

/-- Every level's arrivals are moved. -/
theorem Core.held_gains_all (k c : Core) (j : BitVec 3) :
    (k.gains c (upFrom 0 8)).held j = k.held j ++ (c.held j).map Arr.moved := by
  rw [Core.held_gains c (by decide) (by decide), if_pos (mem_upFrom.mpr ⟨Nat.zero_le _, by have := j.isLt; omega⟩)]

/-- The old core once its arrivals have moved. -/
def Core.emptied (k : Core) : Core := { k with inbox := .replicate 8 [], loading := none, wasReset := false }

/-- What a core was loading moves with its LID; where it was loading nothing for it, nothing changes but what a reset left (R448). -/
theorem State.moveHeld_cases (s : State) (lid old n : CoreId) :
    s.moveHeld lid old n = (s.updCore n fun k => k.gains (s.core old) (upFrom 0 8)).updCore old Core.emptied ∨
      (s.moveHeld lid old n = s ∧ (s.core old).loading ≠ some lid) := by
  rw [State.moveHeld]
  by_cases loads : (s.core old).loading = some lid ∨ ((s.core old).wasReset = true ∧ (s.core old).lid = lid)
  · exact .inl (if_pos loads)
  · exact .inr ⟨if_neg loads, fun here => loads (.inl here)⟩

theorem Core.held_emptied (k : Core) (j : BitVec 3) : k.emptied.held j = [] := by
  simp [Core.held, Core.emptied, Vector.get]

theorem Core.held_loads (k : Core) (l : Option CoreId) (j : BitVec 3) : ({ k with loading := l } : Core).held j = k.held j := rfl

/-- Core d is core c but for its arrivals, its loading, and its hold, which may have ended. -/
def Core.Rehoused (c d : Core) : Prop :=
  (c.holds = false → d.holds = false) ∧ ∃ h b l w, d = { c with holds := h, inbox := b, loading := l, wasReset := w }

theorem Core.Rehoused.of_same_hold {c d : Core} (h : ∃ b l w, d = { c with inbox := b, loading := l, wasReset := w }) : c.Rehoused d := by
  obtain ⟨b, l, w, rfl⟩ := h
  exact ⟨id, _, b, l, w, rfl⟩

theorem Core.Rehoused.refl (c : Core) : c.Rehoused c := of_same_hold ⟨_, _, _, rfl⟩

theorem Core.Rehoused.trans {c d e : Core} (h : c.Rehoused d) (k : d.Rehoused e) : c.Rehoused e := by
  obtain ⟨ends, h₁, b₁, l₁, w₁, rfl⟩ := h
  obtain ⟨ends', h₂, b₂, l₂, w₂, rfl⟩ := k
  exact ⟨fun off => ends' (ends off), h₂, b₂, l₂, w₂, rfl⟩

/-- From s to t only the holds, arrivals and loadings of cores have changed. -/
def Rehouses (s t : State) : Prop := t = { s with cores := t.cores } ∧ ∀ v, (s.core v).Rehoused (t.core v)

theorem Rehouses.refl (s : State) : Rehouses s s := ⟨rfl, fun _ => .refl _⟩

theorem Rehouses.trans {s t u : State} (h : Rehouses s t) (k : Rehouses t u) : Rehouses s u := by
  refine ⟨?_, fun v => (h.2 v).trans (k.2 v)⟩
  have beside := k.1
  rw [h.1] at beside
  exact beside

theorem rehouses_updCore (s : State) (n : CoreId) (f : Core → Core) (h : ∀ c : Core, c.Rehoused (f c)) : Rehouses s (s.updCore n f) := by
  refine ⟨rfl, fun v => ?_⟩
  by_cases here : v = n
  · rw [here, State.core_updCore_same]; exact h _
  · rw [State.core_updCore_other s f here]; exact .refl _

theorem rehouses_releaseHolds (s : State) (lid n : CoreId) : Rehouses s (s.releaseHolds lid n) := by
  refine ⟨rfl, fun v => ?_⟩
  rw [State.core_releaseHolds]
  obtain ⟨b, ends, eq⟩ := (s.core v).released_eq lid n v.toNat
  exact ⟨fun off => by rw [eq]; exact ends off, b, _, _, _, eq⟩

theorem rehouses_moveHeld (s : State) (lid old n : CoreId) : Rehouses s (s.moveHeld lid old n) := by
  rcases s.moveHeld_cases lid old n with moves | ⟨stays, -⟩
  · rw [moves]
    refine (rehouses_updCore s n _ fun c => ?_).trans (rehouses_updCore _ old _ fun c => .of_same_hold ⟨_, _, _, rfl⟩)
    obtain ⟨b, eq⟩ := Core.gains_eq (s.core old) (upFrom 0 8) c
    exact .of_same_hold ⟨b, _, _, eq⟩
  · rw [stays]; exact Rehouses.refl s

theorem rehouses_unheld (s : State) (x : Word) (l p : CoreId) : Rehouses (s.remapped x l) (s.unheld x l p) := by
  unfold State.unheld
  split
  · exact rehouses_releaseHolds _ l p
  · exact Rehouses.refl _

theorem State.relocated_moves {s : State} {x : Word} {l old p : CoreId} (on : x.getLsbD 32 = true) (present : s.present l = true)
    (moved : old ≠ p) :
    s.relocated x l old p = ((s.unheld x l p).moveHeld l old p).updCore p fun c => { c with loading := some l } := by
  refine if_pos ?_
  rw [on, present, bne_iff_ne.mpr moved]
  rfl

theorem rehouses_unheld_relocated (s : State) (x : Word) (l old p : CoreId) : Rehouses (s.unheld x l p) (s.relocated x l old p) := by
  unfold State.relocated
  split
  · exact (rehouses_moveHeld _ l old p).trans (rehouses_updCore _ p _ fun c => .of_same_hold ⟨_, _, _, rfl⟩)
  · exact Rehouses.refl _

theorem rehouses_relocated (s : State) (x : Word) (l old p : CoreId) : Rehouses (s.remapped x l) (s.relocated x l old p) :=
  (rehouses_unheld s x l p).trans (rehouses_unheld_relocated s x l old p)

section
variable {s t : State} (h : Rehouses s t)
include h

theorem Rehouses.sameMemory : SameMemory s t := by
  refine ⟨fun a => by rw [h.1], fun v a => ?_, fun cl => ?_, fun x => ?_⟩
  · obtain ⟨_, _, _, _, _, core⟩ := h.2 v
    rw [core]
  · rw [h.1]; rfl
  · rw [h.1]; rfl

theorem Rehouses.framesKept : FramesKept s t := by
  refine ⟨by rw [h.1], fun v => ?_⟩
  obtain ⟨_, _, _, _, _, core⟩ := h.2 v
  rw [core]
  exact ⟨rfl, rfl, rfl, rfl, rfl⟩

theorem Rehouses.mapOf (v : CoreId) : t.mapOf v = s.mapOf v :=
  State.mapOf_congr (fun x => by rw [h.1]; rfl) (by rw [h.1]) v

end

/-- Saves of a LID that `remap` makes present hold nothing any more, but on the core it names (R447). -/
theorem State.holds_relocated {s : State} {x : Word} {l old p v : CoreId} (on : x.getLsbD 32 = true) (other : v ≠ p)
    (saved : (s.core v).savedLid = some l) : ((s.relocated x l old p).core v).holds = false := by
  refine ((rehouses_unheld_relocated s x l old p).2 v).1 ?_
  rw [State.unheld, if_pos on, State.core_releaseHolds]
  exact Core.holds_released other saved

theorem State.core_unheld (s : State) (x : Word) (l p v : CoreId) : ∃ b, (s.unheld x l p).core v = { s.core v with holds := b } := by
  unfold State.unheld
  split
  · rw [State.core_releaseHolds]
    obtain ⟨b, -, eq⟩ := (s.core v).released_eq l p v.toNat
    exact ⟨b, eq⟩
  · exact ⟨_, rfl⟩

theorem State.loading_unheld (s : State) (x : Word) (l p v : CoreId) : ((s.unheld x l p).core v).loading = (s.core v).loading := by
  obtain ⟨b, core⟩ := s.core_unheld x l p v
  rw [core]

theorem State.held_unheld (s : State) (x : Word) (l p v : CoreId) (j : BitVec 3) :
    ((s.unheld x l p).core v).held j = (s.core v).held j := by
  obtain ⟨b, core⟩ := s.core_unheld x l p v
  rw [core]
  rfl

/-- What a core was loading with the moved LID goes to the LID's new core (R448). -/
theorem State.relocated_loading {s : State} {x : Word} {l old p : CoreId} (on : x.getLsbD 32 = true) (present : s.present l = true)
    (moved : old ≠ p) :
    ((s.relocated x l old p).core p).loading = some l ∧ ((s.relocated x l old p).core old).loading ≠ some l ∧
    ((s.core old).loading = some l → ∀ j,
      ((s.relocated x l old p).core p).held j = (s.core p).held j ++ ((s.core old).held j).map Arr.moved ∧
      ((s.relocated x l old p).core old).held j = []) := by
  have loads := s.loading_unheld x l p old
  rw [State.relocated_moves on present moved, State.core_updCore_same, State.core_updCore_other _ _ moved]
  rcases (s.unheld x l p).moveHeld_cases l old p with moves | ⟨stays, idle⟩
  · rw [moves, State.core_updCore_same, State.core_updCore_other _ _ moved.symm, State.core_updCore_same]
    refine ⟨rfl, nofun, fun _ j => ⟨?_, Core.held_emptied _ j⟩⟩
    rw [Core.held_loads, Core.held_gains_all, State.held_unheld, State.held_unheld]
  · rw [stays]
    exact ⟨rfl, idle, fun here => absurd (loads.trans here) idle⟩

/-! The table itself. -/

theorem coreId_eq {v w : CoreId} (die : dieOf v = dieOf w) (place : bits v 0 14 = bits w 0 14) : v = w := by
  have parts (n : CoreId) : n.toNat = (dieOf n).toNat * 2 ^ 14 + (bits n 0 14).toNat := by
    simp only [dieOf, BitVec.extractLsb'_toNat, Nat.shiftRight_eq_div_pow]
    have := n.isLt
    omega
  refine BitVec.eq_of_toNat_eq ?_
  rw [parts v, parts w, die, place]

theorem State.mapOf_remapped (s : State) (x : Word) {l : CoreId} (mine : dieOf l = dieOf s.cur) (v : CoreId) :
    (s.remapped x l).mapOf v = if v = l then { phys := bits x 18 14, present := x.getLsbD 32 } else s.mapOf v := by
  by_cases die : dieOf v = dieOf s.cur
  · by_cases place : bits v 0 14 = bits l 0 14
    · rw [if_pos (coreId_eq (die.trans mine.symm) place)]
      rw [State.mapOf, State.remapped, die, place, State.die_updDie_same, Cells.find_put_same]
    · rw [if_neg (fun e => place (congrArg (fun n : CoreId => bits n 0 14) e))]
      have apart : (bits v 0 14).toNat ≠ (bits l 0 14).toNat := fun e => place (BitVec.eq_of_toNat_eq e)
      rw [State.mapOf, State.remapped, die, State.die_updDie_same, Cells.find_put_other _ _ apart, State.mapOf, die]
      rfl
  · rw [if_neg (fun e => die ((congrArg dieOf e).trans mine)), State.mapOf, State.remapped, State.die_updDie_other s _ die]
    rfl

/-! ### Sync accesses that a level-7 frame cancels (R358) -/

/-- Sync accesses were answered between s and t: what stands at their owners stays, and deliveries are added. -/
structure Answers (s t : State) : Prop where
  memory : SameMemory s t
  frames : FramesKept s t
  moorings : t.moorings = s.moorings
  weir : t.weir = s.weir
  deliver : ∀ n, ∀ e ∈ (s.core n).deliver, e ∈ (t.core n).deliver

theorem Answers.refl (s : State) : Answers s s := ⟨.refl s, .refl s, rfl, rfl, fun _ _ h => h⟩

theorem Answers.trans {s t u : State} (h : Answers s t) (k : Answers t u) : Answers s u :=
  ⟨h.memory.trans k.memory, h.frames.trans k.frames, k.moorings.trans h.moorings, k.weir.trans h.weir,
    fun n e here => k.deliver n e (h.deliver n e here)⟩

theorem answers_foldl {α : Type} {f : State → α → State} (h : ∀ s x, Answers s (f s x)) (l : List α) (s : State) :
    Answers s (l.foldl f s) :=
  foldl_keeps (fun t => Answers s t) f (fun t x ht => ht.trans (h t x)) l s (.refl s)

theorem answers_updCore (s : State) (n : CoreId) (f : Core → Core) (tcm : ∀ c, (f c).tcm = c.tcm) (runs : ∀ c : Core, c.RunsAs (f c))
    (deliver : ∀ c, ∀ e ∈ c.deliver, e ∈ (f c).deliver) : Answers s (s.updCore n f) := by
  refine ⟨sameMemory_updCore s n f tcm, framesKept_updCore s n f runs, rfl, rfl, fun m e here => ?_⟩
  by_cases same : m = n
  · subst same
    rw [State.core_updCore_same]
    exact deliver _ e here
  · rwa [State.core_updCore_other s f same]

theorem answers_syncReply (s : State) (m : Mooring) (x : Word) (status : BitVec 2) : Answers s (s.syncReply m x status) := by
  have frames := framesKept_syncReply s m x status
  unfold State.syncReply at frames ⊢
  split
  case h_1 => exact answers_updCore s _ _ (fun _ => rfl) (fun _ => ⟨rfl, rfl, rfl, rfl, rfl⟩) fun _ _ => List.mem_append_left _
  case h_2 | h_5 => exact answers_updCore s _ _ (fun _ => rfl) (fun _ => ⟨rfl, rfl, rfl, rfl, rfl⟩) fun _ _ => id
  case h_4 =>
    split
    · exact answers_updCore s _ _ (fun _ => rfl) (fun _ => ⟨rfl, rfl, rfl, rfl, rfl⟩) fun _ _ => id
    · exact .refl s
  case h_3 => exact .refl s
  case h_6 => exact ⟨.refl s, .refl s, rfl, rfl, fun _ _ => id⟩
  case h_7 => exact ⟨sameMemory_updDie s _ _ fun _ => rfl, .refl s, rfl, rfl, fun _ _ => id⟩

theorem answers_weirFell (s : State) (r : Option Region) : Answers s (s.weirFell r) := by
  obtain ⟨l, eq⟩ := s.weirFell_eq r
  rw [eq]
  exact ⟨.refl s, .refl s, rfl, rfl, fun _ _ => id⟩

/-- The accesses of a list are answered with status 1. -/
def State.refuseMoored (s : State) (l : List Mooring) : State := l.foldl (fun (s : State) (m : Mooring) => s.syncReply m 0 1) s

/-- The accesses of weir entries are answered with status 1. -/
def State.refuseWeir (s : State) (l : List WeirEntry) : State := l.foldl (fun (s : State) (e : WeirEntry) =>
  match e.item with
  | .moor m => (s.syncReply m 0 1).weirFell e.region
  | _ => s) s

theorem answers_refuseMoored (s : State) (l : List Mooring) : Answers s (s.refuseMoored l) :=
  answers_foldl (fun s m => answers_syncReply s m 0 1) l s

theorem answers_refuseWeir (s : State) (l : List WeirEntry) : Answers s (s.refuseWeir l) := by
  refine answers_foldl (fun s e => ?_) l s
  split
  · exact (answers_syncReply s _ 0 1).trans (answers_weirFell _ _)
  · exact .refl s

/-- A queue read that is answered with status 1 has its entry, without data, on the way to its register. -/
theorem State.mem_deliver_syncReply (s : State) {m : Mooring} {o lid : CoreId} {q : QReg} {tag : BitVec 3} {ad : Nat} {sc : Option Scope}
    (route : m.route = .ldq o lid q tag ad sc) :
    { lid, q, entry := ldqEntry 0 tag 1 m.mode ad, scope := sc } ∈ ((s.syncReply m 0 1).core o).deliver := by
  rw [State.syncReply, route]
  dsimp only
  rw [State.core_updCore_same]
  exact List.mem_append_right _ (List.mem_singleton_self _)

theorem State.mem_deliver_refuseMoored {m : Mooring} {o lid : CoreId} {q : QReg} {tag : BitVec 3} {ad : Nat} {sc : Option Scope}
    (route : m.route = .ldq o lid q tag ad sc) {l : List Mooring} (here : m ∈ l) (s : State) :
    { lid, q, entry := ldqEntry 0 tag 1 m.mode ad, scope := sc } ∈ ((s.refuseMoored l).core o).deliver := by
  induction l generalizing s with
  | nil => exact absurd here List.not_mem_nil
  | cons a r ih =>
    rcases List.mem_cons.mp here with rfl | later
    · exact (answers_refuseMoored (s.syncReply m 0 1) r).deliver o _ (s.mem_deliver_syncReply route)
    · exact ih later (s.syncReply a 0 1)

section
variable (data : Word) (tag : BitVec 3) (status : BitVec 2) (mode : SyncMode) (addr : Nat)

theorem ldqEntry_data : bits (ldqEntry data tag status mode addr) 0 64 = data := BitVec.extractLsb'_append_eq_right

theorem ldqEntry_tag : bits (ldqEntry data tag status mode addr) 64 3 = tag :=
  (BitVec.extractLsb'_append_eq_of_le (by decide)).trans BitVec.extractLsb'_append_eq_right

theorem ldqEntry_status : bits (ldqEntry data tag status mode addr) 67 2 = status :=
  (BitVec.extractLsb'_append_eq_of_le (by decide)).trans
    ((BitVec.extractLsb'_append_eq_of_le (by decide)).trans BitVec.extractLsb'_append_eq_right)

theorem ldqEntry_mode : bits (ldqEntry data tag status mode addr) 69 3 = mode.code :=
  (BitVec.extractLsb'_append_eq_of_le (by decide)).trans ((BitVec.extractLsb'_append_eq_of_le (by decide)).trans
    ((BitVec.extractLsb'_append_eq_of_le (by decide)).trans BitVec.extractLsb'_append_eq_right))

end

/-- What `mcancel` does to the word at a spot: the accesses that wait for it go, and are answered. -/
theorem State.cancelAll_eq (s : State) (p : Mooring → Bool) (q : WeirEntry → Bool) :
    s.cancelAll p q = (({ s with moorings := s.moorings.filter fun m => !p m, weir := s.weir.filter fun e => !q e }
      |>.refuseMoored (s.moorings.filter p)).refuseWeir (s.weir.filter q),
      (s.moorings.filter p).length + (s.weir.filter q).length) := rfl

/-- A core after an instruction has retired is as it was but for registers, program counter and stalls. -/
theorem State.core_retired (s : State) (d : SReg) (x : Word) (len : Nat) (v : CoreId) :
    ∃ b pc st, ((s.ws d x).advance len).core v = { s.core v with banks := b, pc := pc, stalls := st } := by
  obtain ⟨w, pc, st, eq⟩ := (writesS_retire s d x len).1
  rw [eq]
  by_cases here : v = s.cur
  · refine ⟨(s.me.updHere fun b => { b with s := w }).banks, pc, st, ?_⟩
    rw [here, ← State.me, ← State.updMe_cur s, ← State.me, State.me_updMe]
    rfl
  · rw [State.core_updMe_other s _ here]
    exact ⟨_, _, _, rfl⟩

/-- The word of the running core's TCM that an address is in. -/
def State.tcmSpot (s : State) (x : Word) : Spot := { owner := .tcm s.cur, word := x.toNat / 8, dom := 0 }

section
variable {s : State} {d a : SReg} (top : s.me.level = 7)
include top

theorem exec_mcancel_inside (inside : (s.rs a).toNat / 8 * 8 ≤ 0xBFFF) :
    exec (.mcancel d a .tcm) s = (s.cancelAt (s.tcmSpot (s.rs a))).1.retire d
      (BitVec.ofNat 64 (s.cancelAt (s.tcmSpot (s.rs a))).2) 4 := by
  have spot : s.cancelSpot (s.rs a) .tcm = (s, some (s.tcmSpot (s.rs a))) := by
    refine Prod.ext rfl ((if_pos inside).trans (congrArg some ?_))
    rw [State.spot, Nat.mul_div_cancel _ (by decide), State.tcmSpot]
  show execMcancel d a .tcm s = _
  rw [execMcancel, State.privileged_top top]
  simp only [spot]

theorem exec_mcancel_outside (outside : 0xBFFF < (s.rs a).toNat / 8 * 8) : exec (.mcancel d a .tcm) s = s.retire d 0 4 := by
  have spot : s.cancelSpot (s.rs a) .tcm = (s, none) := Prod.ext rfl (if_neg (Nat.not_le.mpr outside))
  show execMcancel d a .tcm s = _
  rw [execMcancel, State.privileged_top top]
  simp only [spot]

end

/-! ### System registers (R345, log entry 28) -/

theorem Core.noFrame_of_dead {c : Core} (dead : ∀ l : BitVec 3, l ≠ 7 → (c.bank l).live = false) : c.noFrame = true := by
  refine List.all_eq_true.mpr fun l hl => ?_
  obtain ⟨-, below⟩ := mem_upFrom.mp hl
  rw [dead _ fun e => ?_]
  · rfl
  · have same := congrArg BitVec.toNat e
    rw [BitVec.toNat_ofNat, Nat.mod_eq_of_lt (by omega)] at same
    exact absurd same (by change l ≠ 7; omega)

theorem Core.sysWrite_vbase_top {c : Core} {x : Word} (dead : ∀ l : BitVec 3, l ≠ 7 → (c.bank l).live = false)
    (above : 0xB000 < x.toNat % 2 ^ 16) (below : x.toNat % 2 ^ 16 < 0xB800) :
    c.sysWrite 0x005 x = { c with vbase := 0xB000, sp := 0xB000 } := by
  have high : bits x 11 5 = 0x16#5 := by
    refine BitVec.eq_of_toNat_eq ?_
    rw [BitVec.extractLsb'_toNat, Nat.shiftRight_eq_div_pow, BitVec.toNat_ofNat]
    omega
  have field : (bits x 11 5 ++ 0#11 : BitVec 16) = 0xB000 := by
    rw [high]
    rfl
  refine (if_pos ⟨Core.noFrame_of_dead dead, ?_, ?_⟩ : c.sysWrite 0x005 x = _).trans ?_
  all_goals rw [field]
  · decide
  · decide

theorem Core.twLevel_window {c : Core} (top : c.level = 7) (entered : causeEntered c.cause = true) (low : causeLevel c.cause ≠ 0xF) :
    c.twLevel = some (BitVec.ofNat 3 (causeLevel c.cause).toNat) := by
  refine (if_pos ⟨top, entered, low⟩).trans (congrArg some (bits_low_level _))

section
variable (r : SReg)

theorem toNat_twReg : (BitVec.ofNat 9 (0x20 + r.toNat)).toNat = 0x20 + r.toNat := by
  rw [BitVec.toNat_ofNat]
  have := r.isLt
  omega

theorem ofNat_twReg : BitVec.ofNat 5 (0x20 + r.toNat) = r := by
  refine BitVec.eq_of_toNat_eq ?_
  rw [BitVec.toNat_ofNat]
  have := r.isLt
  omega

/-- A read of the window reads the register of the window's level. -/
theorem Core.sysRead_window {c : Core} {l : BitVec 3} (window : c.twLevel = some l) :
    c.sysRead (BitVec.ofNat 9 (0x20 + r.toNat)) = (c.bank l).rs r := by
  have := r.isLt
  unfold Core.sysRead
  rw [toNat_twReg]
  split
  case h_22 =>
    rw [if_neg (by omega), if_pos (by omega), window, ofNat_twReg]
  all_goals omega

theorem Core.sysWrite_window {c : Core} {l : BitVec 3} (x : Word) (window : c.twLevel = some l) :
    c.sysWrite (BitVec.ofNat 9 (0x20 + r.toNat)) x = c.updBank l fun b => b.ws r x := by
  have := r.isLt
  unfold Core.sysWrite
  rw [toNat_twReg]
  split
  case h_17 =>
    rw [if_neg (by omega), if_pos (by omega), window]
    simp only [ofNat_twReg]
  all_goals omega

end

theorem exec_sget_window {s : State} {d r : SReg} {l : BitVec 3} (top : s.me.level = 7) (window : s.me.twLevel = some l) :
    exec (.sget d (BitVec.ofNat 9 (0x20 + r.toNat))) s = s.retire d ((s.me.bank l).rs r) 4 := by
  have named : BitVec.ofNat 9 (0x20 + r.toNat) ≠ 0 := fun e => by
    have := congrArg BitVec.toNat e
    rw [toNat_twReg] at this
    simp at this
  show execSget d _ s = _
  rw [execSget, if_neg named, State.privileged_top top, Core.sysRead_window r window]

/-! ### The instruction cache again -/

theorem State.me_lockLines (s : State) : ∃ l, (s.lockLines s.cur).me = { s.me with locked := l } := by
  obtain ⟨cur, l, core⟩ := locksOnly_lockLines s s.cur
  exact ⟨l, by rw [State.me, cur, core, State.me]⟩

theorem icinv_empties {s : State} (top : s.me.level = 7) :
    ∃ t, exec .icinv s = .next t ∧ t.pc = s.pc + 4 ∧ t.me.icache = [] ∧ t.me.entryBuf = .replicate 8 [] ∧ t.me.banks = s.me.banks ∧
      t.me.locked = ((s.updMe Core.codeless).lockLines s.cur).me.locked := by
  obtain ⟨l, me⟩ := (s.updMe Core.codeless).me_lockLines
  rw [State.me_updMe] at me
  have after : (((s.updMe Core.codeless).lockLines s.cur).advance 4).me = _ := State.me_updMe _ _
  refine ⟨_, exec_icinv top, ?_, ?_, ?_, ?_, ?_⟩
  · rw [State.pc_advance, State.pc, show ((s.updMe Core.codeless).lockLines s.cur).me = _ from me]
    rfl
  all_goals rw [after]
  all_goals rw [show ((s.updMe Core.codeless).lockLines s.cur).me = _ from me]
  all_goals rfl

theorem icinv_unbound {s : State} (top : s.me.level = 7) (unbound : s.me.binding = none) :
    RetiresCore s .icinv fun c => { c.codeless with locked := [] } := by
  have free : ((s.updMe Core.codeless).core s.cur).binding = none := by
    rw [show (s.updMe Core.codeless).core s.cur = _ from State.me_updMe s _]
    exact unbound
  refine retiresCore_updMe (f := fun c => { c.codeless with locked := [] }) ?_ rfl rfl
  rw [exec_icinv top, State.lockLines_unbound free]
  exact congrArg (fun t : State => (.next (t.advance 4) : Out)) (State.updMe_updMe s Core.codeless fun c => { c with locked := [] })

/-! ### What a `remap` that passes leaves -/

theorem remap_passes {s : State} {d a : SReg} (top : s.me.level = 7) :
    let x := s.rs a
    let l : CoreId := bits x 0 18
    let p : CoreId := dieOf s.cur ++ bits x 18 14
    ¬ s.RemapRefused x l p →
    ∃ t, exec (.remap d a) s = .next t ∧ SameMemory s t ∧ ReadsInto s t d 0 4 ∧
      (∀ v, t.mapOf v = (s.remapped x l).mapOf v) ∧
      ∀ v, ∃ b pc st, t.core v = { (s.relocated x l (s.physOf l) p).core v with banks := b, pc := pc, stalls := st } := by
  intro x l p passes
  have change := rehouses_relocated s x l (s.physOf l) p
  have table : SameMemory s (s.remapped x l) := sameMemory_updDie s _ _ fun _ => rfl
  have retired := writesS_retire (s.relocated x l (s.physOf l) p) d 0 4
  refine ⟨_, (exec_remap top).2 passes, (table.trans change.sameMemory).trans retired.2.1, ?_, fun v => ?_, State.core_retired _ d 0 4⟩
  · exact readsInto_load (change.framesKept.after rfl fun _ => rfl) d 0 4
  · rw [← change.mapOf]
    exact State.mapOf_congr (fun _ => rfl) rfl v

/-- What `mcancel` leaves at a word of the running core's TCM: those who waited are gone, and answered. -/
theorem mcancel_inside {s : State} {d a : SReg} (top : s.me.level = 7) (inside : (s.rs a).toNat / 8 * 8 ≤ 0xBFFF) :
    let p := s.tcmSpot (s.rs a)
    let here : List Mooring := s.moorings.filter fun m => m.at_ p
    let queued : List WeirEntry := s.weir.filter fun e => s.moors e p
    ∃ t, exec (.mcancel d a .tcm) s = .next t ∧ SameMemory s t ∧ t.moorings = s.moorings.filter (fun m => !m.at_ p) ∧
      t.weir = s.weir.filter (fun e => !s.moors e p) ∧ ReadsInto s t d (BitVec.ofNat 64 (here.length + queued.length)) 4 ∧
      ∀ m ∈ here, ∀ o lid q tag ad sc, m.route = .ldq o lid q tag ad sc →
        { lid, q, entry := ldqEntry 0 tag 1 m.mode ad, scope := sc } ∈ (t.core o).deliver := by
  intro p here queued
  let s₀ : State := { s with moorings := s.moorings.filter fun m => !m.at_ p, weir := s.weir.filter fun e => !s.moors e p }
  have first := answers_refuseMoored s₀ here
  have second := answers_refuseWeir (s₀.refuseMoored here) queued
  have answered := first.trans second
  have retired := writesS_retire ((s₀.refuseMoored here).refuseWeir queued) d (BitVec.ofNat 64 (here.length + queued.length)) 4
  refine ⟨_, (exec_mcancel_inside top inside).trans (by rw [State.cancelAt, State.cancelAll_eq]; rfl), ?_, ?_, ?_, ?_,
    fun m mine o lid q tag ad sc route => ?_⟩
  · exact SameMemory.trans (answered.memory : SameMemory s _) retired.2.1
  · exact answered.moorings
  · exact answered.weir
  · exact readsInto_load (answered.frames.after rfl fun _ => rfl) d _ 4
  · obtain ⟨b, pc, st, core⟩ := State.core_retired ((s₀.refuseMoored here).refuseWeir queued) d
      (BitVec.ofNat 64 (here.length + queued.length)) 4 o
    refine (congrArg Core.deliver core).symm ▸ ?_
    exact second.deliver o _ (State.mem_deliver_refuseMoored route mine s₀)

/-- Settles O45: each instruction in turn, at level 7. -/
theorem machineControl : Obligations.MachineControl := by
  intro s d a n z m o lid v j q tag ad sc r x y top core valid entry written
  refine ⟨fun fits => ?_, fun fails => ?_, ?_, ?_, ?_, ?_, ?_, ?_, ?_, ?_, ?_⟩
  · have entries : plbEntryOf (s.rs d) (s.rs a) = entry := plbEntryOf_valid fits
    exact retiresCore_updMe (if_pos top) (by rw [entries]) rfl
  · have entries : plbEntryOf (s.rs d) (s.rs a) = .reset := plbEntryOf_invalid fails
    exact retiresCore_updMe (if_pos top) (by rw [entries]) rfl
  · exact retiresCore_updMe (if_pos top) rfl rfl
  · exact retiresCore_updMe (if_pos top) rfl rfl
  · exact ⟨icinv_empties top, icinv_unbound top⟩
  · exact ⟨s.me.stalls.set s.me.lvl.toFin 0, (if_pos top : exec (.pginv d a z) s = _)⟩
  · intro l p on refused
    refine ⟨fun no => retires_retire ((exec_remap top).1 no), fun passes => ?_⟩
    have mine : dieOf l = dieOf s.cur := not_not.mp fun far => passes (.inr (.inl far))
    obtain ⟨t, runs, memory, reads, table, cores⟩ := remap_passes (d := d) top passes
    refine ⟨t, runs, memory, reads, ?_, fun v other => ?_, fun on other saved => ?_, fun on present moved => ?_⟩
    · rw [table, State.mapOf_remapped s x mine, if_pos rfl]
    · rw [table, State.mapOf_remapped s x mine, if_neg other]
    · obtain ⟨_, _, _, core⟩ := cores v
      rw [core]
      exact State.holds_relocated on other saved
    · obtain ⟨new, gone, arrivals⟩ := State.relocated_loading on present moved
      obtain ⟨_, _, _, atNew⟩ := cores p
      obtain ⟨_, _, _, atOld⟩ := cores (s.physOf l)
      rw [atNew, atOld]
      exact ⟨new, gone, fun loads => arrivals loads j⟩
  · intro w hit wait low
    obtain ⟨t, runs, memory, moorings, weir, reads, delivers⟩ :=
      mcancel_inside (d := d) top (Nat.le_trans (Nat.div_mul_le_self x.toNat 8) low)
    refine ⟨t, runs, memory, moorings, weir, reads, fun waits here route => ?_⟩
    exact ⟨_, delivers m (List.mem_filter.mpr ⟨waits, here⟩) o lid q tag ad sc route, rfl, rfl, ldqEntry_data .., ldqEntry_tag ..,
      ldqEntry_status ..⟩
  · exact fun outside => retires_retire (exec_mcancel_outside top outside)
  · exact fun dead above below => retiresCore_updMe (if_pos top) (Core.sysWrite_vbase_top dead above below) rfl
  · intro l frame entered high low
    have window := Core.twLevel_window top entered low
    refine ⟨retires_retire (exec_sget_window top window), retiresCore_updMe (if_pos top) (Core.sysWrite_window r _ window) rfl⟩

end Sys2Proof.Machine
end

section
/-! ## Sync accesses at their owner (R90, R93, R94, R224) -/

namespace Sys2Proof.Machine

/-! ### Bytes of a word -/

theorem getElem_splitBytes {n : Nat} : ∀ {v i : Nat} (h : i < (splitBytes n v).length), (splitBytes n v)[i] = BitVec.ofNat 8 (v / 256 ^ i) := by
  induction n with
  | zero => exact fun h => absurd h (Nat.not_lt_zero _)
  | succ n ih =>
    intro v i h
    cases i with
    | zero => simp [splitBytes]
    | succ i =>
      refine (ih (v := v / 256) (Nat.lt_of_succ_lt_succ h)).trans ?_
      rw [Nat.div_div_eq_div_mul, Nat.pow_succ']

theorem byte_eq_bits (w : Word) (i : Nat) : BitVec.ofNat 8 (w.toNat / 256 ^ i) = bits w (8 * i) 8 := by
  refine BitVec.eq_of_toNat_eq ?_
  rw [BitVec.toNat_ofNat, BitVec.extractLsb'_toNat, Nat.shiftRight_eq_div_pow, Nat.pow_mul]

theorem Memory.get_write_inside (l : List Byte) : ∀ (m : Memory) {a c : Nat} (_ : a ≤ c) (h : c - a < l.length),
    (m.write a l).get c = l[c - a] := by
  induction l with
  | nil => exact fun _ _ _ _ h => absurd h (Nat.not_lt_zero _)
  | cons b r ih =>
    intro m a c lower h
    rw [Memory.write]
    by_cases here : c = a
    · subst here
      rw [Memory.get_write_other r _ _ _ (.inl (Nat.lt_succ_self c)), Memory.get_set_same]
      simp
    · have next : c - a = c - (a + 1) + 1 := by omega
      rw [ih (m.set a b) (by omega) (by rw [List.length_cons] at h; omega)]
      simp [next]

/-- The bytes of a word that are written read back as its fields. -/
theorem Memory.get_write_word (m : Memory) (a c n : Nat) (w : Word) :
    (m.write a (splitBytes n w.toNat)).get c = if a ≤ c ∧ c < a + n then bits w (8 * (c - a)) 8 else m.get c := by
  split
  · next inside =>
    have within : c - a < (splitBytes n w.toNat).length := by rw [splitBytes_length]; omega
    rw [Memory.get_write_inside _ m inside.1 within, getElem_splitBytes within, byte_eq_bits]
  · next outside => exact Memory.get_write_other _ m a c (by rw [splitBytes_length]; omega)

theorem feGet_feSet (m : Cells Bool) (w v : Nat) (x : Bool) : feGet (feSet m w x) v = if v = w then x else feGet m v := by
  split
  · next same => rw [same]; exact Cells.getD_putD_same true m w x
  · next other => exact Cells.getD_putD_other true m x other

/-! ### A sync access to a TCM word for which nothing waits -/

/-- No access waits for the TCM of core n, in its list or in the weir. -/
structure State.AloneAt (s : State) (n : CoreId) : Prop where
  moorings : ∀ m ∈ s.moorings, m.owner ≠ .tcm n
  weir : s.weirHas (.tcm (s.core n).lid) = false

/-- Beside homes, and what dies hold, nothing tells the two states apart. -/
theorem HomesOnly.aloneAt {s t : State} (h : HomesOnly s t) {n : CoreId} (alone : s.AloneAt n) : t.AloneAt n := by
  have moorings : t.moorings = s.moorings := by rw [h.1]
  have weir : t.weir = s.weir := by rw [h.1]
  exact ⟨by rw [moorings]; exact alone.moorings, by rw [State.weirHas, weir, h.core]; exact alone.weir⟩

/-- An access to a TCM word, at its owner. -/
structure Mooring.AtTcm (m : Mooring) (n : CoreId) : Prop where
  owner : m.owner = .tcm n
  sync : m.amo = none ∧ m.plain = none

theorem State.mooringOf_atTcm (s : State) (dom : BitVec 16) (n : CoreId) (off : Nat) (md : SyncMode) (x : Word) (r : Route)
    (region : Option Region) : (s.mooringOf dom (.tcm n off) md x r region).AtTcm n := ⟨rfl, rfl, rfl⟩

/-- Core c after a sync access of a mode to its word w (R90). -/
def Core.synced (c : Core) (w : Nat) (md : SyncMode) (x : Word) : Core :=
  let d := if md.writes then c.tcmStore (8 * w) (splitBytes 8 x.toNat) else c
  { d with tcmFe := feSet d.tcmFe w (md.after (feGet c.tcmFe w)) }

section
variable (c : Core) (w : Nat) (md : SyncMode) (x : Word)

theorem Core.deliver_synced : (c.synced w md x).deliver = c.deliver := by
  unfold Core.synced
  split <;> rfl

theorem Core.feGet_synced (v : Nat) :
    feGet (c.synced w md x).tcmFe v = if v = w then md.after (feGet c.tcmFe w) else feGet c.tcmFe v := by
  unfold Core.synced
  split <;> exact feGet_feSet c.tcmFe w v _

theorem Core.tcm_synced_read (reads : md.writes = false) : (c.synced w md x).tcm = c.tcm := by
  rw [Core.synced, reads]
  rfl

theorem Core.tcm_synced (a : Nat) : (c.synced w md x).tcm.get a =
    if md.writes = true ∧ 8 * w ≤ a ∧ a < 8 * w + 8 then bits x (8 * (a - 8 * w)) 8 else c.tcm.get a := by
  cases writes : md.writes with
  | false => rw [Core.tcm_synced_read c w md x writes, if_neg fun h => Bool.false_ne_true h.1]
  | true =>
    have store : (c.synced w md x).tcm = c.tcm.write (8 * w) (splitBytes 8 x.toNat) := by rw [Core.synced, writes]; rfl
    rw [store, Memory.get_write_word]
    simp only [true_and]

end

section
variable {s : State} {n : CoreId} {m : Mooring}

theorem State.recallFor_tcm (owner : m.owner = .tcm n) : s.recallFor m = s := by
  unfold State.recallFor State.recallAt
  rw [owner]
  split <;> rfl

/-- No shape word is in a TCM (R326). -/
theorem State.shapeFilled_tcm (s : State) (n : CoreId) (w : Nat) (dom : BitVec 16) (before after : Bool) (x : Word) :
    s.shapeFilled { owner := .tcm n, word := w, dom } before after x = s := by
  have never (l : Launch) : s.isShapeWord l { owner := .tcm n, word := w, dom } = false := rfl
  unfold State.shapeFilled
  split
  · simp [never]
  · rfl

/-- A sync access to a TCM word that is not poisoned is performed there, and answered with what the word held. -/
theorem State.syncApply_tcm (at_ : m.AtTcm n) (whole : poisonGet (s.core n).tcmPoison m.word = false) (dom : BitVec 16) :
    s.syncApply m dom = (s.updCore n fun c => c.synced m.word m.mode m.data).syncReply m ((s.core n).tcmWord (8 * m.word)) 0 := by
  obtain ⟨owner, amo, plain⟩ := at_
  unfold State.syncApply
  dsimp only
  rw [State.recallFor_tcm owner, plain, amo, owner]
  simp only [State.spotPoison, whole, Bool.false_eq_true, if_false, State.spotTouch, Owner.isMem, State.spotData, State.spotFull,
    State.spotWrite, State.spotSetFull, State.shapeFilled_tcm, ite_self]
  cases writes : m.mode.writes with
  | false =>
    simp only [Bool.false_eq_true, if_false]
    congr 1
    exact State.updCore_congr (by rw [Core.synced, writes]; rfl)
  | true =>
    simp only [if_true]
    congr 1
    refine (State.updCore_updCore s n _ _).trans (State.updCore_congr ?_)
    rw [Core.synced, writes]
    rfl

/-- Where no access waits for the core's TCM, a change of a word there serves none. -/
theorem State.onChange_alone {p : Spot} (owner : p.owner = .tcm n) (alone : ∀ m ∈ s.moorings, m.owner ≠ .tcm n) (k : Nat) :
    s.onChange p k = s := by
  have idle : firstIdx (fun m => m.ready p (s.spotFull p)) s.moorings = none := by
    refine firstIdx_none fun m waits => ?_
    have other : (m.owner == p.owner) = false := beq_eq_false_iff_ne.mpr (owner ▸ alone m waits)
    simp only [Mooring.ready, other, Bool.false_and]
  cases k with
  | zero => rfl
  | succ k => simp only [State.onChange, idle]

/-- A sync access whose condition holds, at a TCM word for which nothing waits, is served at once. -/
theorem State.syncArrive_tcm_served (at_ : m.AtTcm n) (alone : s.AloneAt n) (whole : poisonGet (s.core n).tcmPoison m.word = false)
    (holds : m.mode.holds (feGet (s.core n).tcmFe m.word) = true) (issuer : CoreId) :
    s.syncArrive m issuer =
      some ((s.updCore n fun c => c.synced m.word m.mode m.data).syncReply m ((s.core n).tcmWord (8 * m.word)) 0) := by
  have served : s.syncServe m = s.syncApply m m.adom := by
    have kept : (s.syncApply m m.adom).moorings = s.moorings := by
      rw [State.syncApply_tcm at_ whole]
      exact (answers_syncReply _ m _ 0).moorings
    unfold State.syncServe
    dsimp only
    split
    · rfl
    · exact State.onChange_alone at_.owner (kept ▸ alone.moorings) _
  unfold State.syncArrive
  simp only [State.waitsAt, State.fwdOwner, State.homeStuck, at_.owner, Owner.isMem, State.spotFull, holds]
  rw [← State.syncApply_tcm at_ whole m.adom, ← served]
  rfl

/-- One whose condition does not hold waits in the owner's list. -/
theorem State.syncArrive_tcm_waits (at_ : m.AtTcm n) (alone : s.AloneAt n) (holds : m.mode.holds (feGet (s.core n).tcmFe m.word) = false)
    (issuer : CoreId) : s.syncArrive m issuer = some { s with moorings := s.moorings ++ [m] } := by
  have none_waits : (s.moorings.filter fun x => x.owner == m.owner) = [] :=
    List.filter_eq_nil_iff.mpr fun x waits same => alone.moorings x waits ((beq_iff_eq.mp same).trans at_.owner)
  have moored : s.moor m issuer = some { s with moorings := s.moorings ++ [m] } := by
    rw [State.moor, none_waits, at_.owner, State.mooringQueue, alone.weir]
    rfl
  unfold State.syncArrive
  simp only [State.waitsAt, State.fwdOwner, State.homeStuck, at_.owner, Owner.isMem, State.spotFull, holds]
  exact moored

end

/-! ### The two ways to the owner -/

/-- With no queue read under way and no atomic ahead, the head of the buffer is what drains. -/
theorem State.drainOne_head {s : State} {n : CoreId} {e : StoreEntry} {r : List StoreEntry} (buffer : (s.core n).sbuf = e :: r)
    (flight : (s.core n).flight = []) (amo : (s.core n).amoWait = false) :
    s.drainOne n = (s.performStore n e).map fun p =>
      p.1.updCore n fun c => { c with sbuf := r, acks := if p.2 then c.acks ++ [e.tag] else c.acks } := by
  unfold State.drainOne
  simp only [flight, List.length_nil, State.flightsFrom, buffer, amo, Bool.false_eq_true, if_false]

/-- Core c once the head of its buffer has gone to its owner, and the acknowledgement is on its way. -/
def Core.posted (c : Core) (r : List StoreEntry) (tag : Nat) : Core := { c with sbuf := r, acks := c.acks ++ [tag] }

/-- Core c once its oldest queue read has gone to its owner. -/
def Core.landed (c : Core) (l : List Flight) (tag : Nat) : Core := { c with flight := l, acks := c.acks ++ [tag] }

section
variable {s : State} {n : CoreId} {e : StoreEntry} {r : List StoreEntry} {md : SyncMode}

/-- The access of a sync write at the head of the buffer. -/
def State.writeAccess (s : State) (n : CoreId) (e : StoreEntry) (md : SyncMode) : Mooring :=
  s.mooringOf e.dom (.tcm n e.va) md e.data (.posted n) e.region

/-- A sync write at the head of the buffer arrives at its word once its release is done (R93, R128). -/
theorem exec_syncWrite (buffer : (s.core n).sbuf = e :: r) (flight : (s.core n).flight = []) (amo : (s.core n).amoWait = false)
    (mode : e.mode = some md) (space : e.space = .tcm) {t : State}
    (arrives : (s.releaseAt (dieOf n) e.scope).syncArrive (s.writeAccess n e md) n = some t) :
    exec (.syncAccessAtOwner n) s = .next (t.updCore n fun c => c.posted r e.tag) := by
  have head : (s.core n).headIs (fun e => e.mode.isSome) = true := by simp only [Core.headIs, buffer, mode, Option.isSome_some]
  have perform : s.performStore n e = some (t, true) := by
    unfold State.performStore
    simp only [mode, space, State.placeOf, State.settle]
    exact (congrArg (Option.map fun s => (s, true)) arrives :)
  have drains : s.drainOne n = some (t.updCore n fun c => c.posted r e.tag) := by
    rw [State.drainOne_head buffer flight amo, perform]
    rfl
  show execSyncAccessAtOwner n s = _
  rw [execSyncAccessAtOwner, if_pos head, drains]
  rfl

end

section
variable {s : State} {n : CoreId} {f : Flight} {l : List Flight}

/-- The access of a queue read under way. -/
def State.readAccess (s : State) (n : CoreId) (f : Flight) : Mooring :=
  s.mooringOf f.dom (.tcm n f.va) f.mode 0
    (.ldq n (s.core n).lid f.q f.itag (f.ea / 8) (if f.mode = .plain then none else some f.scope)) f.region

/-- The oldest queue read arrives at its word, where no store is before it. -/
theorem exec_syncRead (buffer : (s.core n).sbuf = []) (flight : (s.core n).flight = f :: l) (space : f.space = .tcm) {t : State}
    (arrives : s.syncArrive (s.readAccess n f) n = some t) :
    exec (.syncAccessAtOwner n) s = .next (t.updCore n fun c => c.landed l f.tag) := by
  have head : (s.core n).headIs (fun e => e.mode.isSome) = false := by rw [Core.headIs, buffer]
  have arrive : s.flightArrive n = some (t.updCore n fun c => c.landed l f.tag) := by
    unfold State.flightArrive
    simp only [flight, space, State.placeOf, State.settle, reduceCtorEq, if_false]
    exact (congrArg (Option.map _) arrives :)
  show execSyncAccessAtOwner n s = _
  rw [execSyncAccessAtOwner, head, arrive]
  rfl

/-- An entry on its way reaches its register at the core that issued it, while its LID's context is there (R224). -/
theorem exec_deliver {d : Delivery} {ds : List Delivery} (deliver : (s.core n).deliver = d :: ds) (lid : d.lid = (s.core n).lid)
    (saved : (s.core n).savedLid ≠ some (s.core n).lid) (loading : (s.core n).loading ≠ some (s.core n).lid)
    (there : s.contextOut (s.core n).lid = false) :
    exec (.ldqEntryDeliver n) s = .next (s.updCore n fun c => ({ c with deliver := ds } : Core).updQ d.q fun q =>
      { q with resv := q.resv - 1, entries := q.entries ++ [{ data := d.entry, src := none, scope := d.scope }] }) := by
  have receiver : s.receiverOf n d = some n := by
    refine if_pos ?_
    dsimp only
    rw [lid, there, bne_iff_ne.mpr saved, bne_iff_ne.mpr loading, beq_self_eq_true]
    rfl
  show execLdqEntryDeliver n s = _
  unfold execLdqEntryDeliver
  simp only [deliver, firstIdx, receiver, Option.isSome_some, if_true, Option.bind_some, List.getElem?_cons_zero, Option.map_some,
    Option.getD_some, State.updCore_updCore]
  refine congrArg (fun t : State => (.next t : Out)) (State.updCore_congr ?_)
  rw [deliver]
  rfl

end

/-- A sync write whose condition holds writes its word as its mode says, and leaves the list of the owner alone (R90, R93). -/
theorem syncWrite_served {s : State} {n : CoreId} {e : StoreEntry} {r : List StoreEntry} {md : SyncMode}
    (buffer : (s.core n).sbuf = e :: r) (flight : (s.core n).flight = []) (amo : (s.core n).amoWait = false)
    (mode : e.mode = some md) (space : e.space = .tcm) (alone : s.AloneAt n)
    (whole : poisonGet (s.core n).tcmPoison (e.va / 8) = false) (holds : md.holds (feGet (s.core n).tcmFe (e.va / 8)) = true) :
    ∃ t, exec (.syncAccessAtOwner n) s = .next t ∧ t.moorings = s.moorings ∧
      t.core n = ((s.core n).synced (e.va / 8) md e.data).posted r e.tag := by
  have homes := homesOnly_releaseAt s (dieOf n) e.scope
  have arrives := State.syncArrive_tcm_served (s.mooringOf_atTcm e.dom n e.va md e.data (.posted n) e.region) (homes.aloneAt alone)
    (by rw [homes.core]; exact whole) (by rw [homes.core]; exact holds) n
  refine ⟨_, exec_syncWrite buffer flight amo mode space arrives, ?_, ?_⟩
  · show (s.releaseAt (dieOf n) e.scope).moorings = s.moorings
    rw [homes.1]
  · have core : ((s.releaseAt (dieOf n) e.scope).updCore n fun c => c.synced (e.va / 8) md e.data).core n = _ :=
      (State.core_updCore_same _ n _).trans (congrArg (fun c : Core => c.synced (e.va / 8) md e.data) (homes.core n))
    exact (State.core_updCore_same _ n _).trans (congrArg (fun c : Core => c.posted r e.tag) core)

/-- One whose condition does not hold leaves the buffer for the owner's list. -/
theorem syncWrite_waits {s : State} {n : CoreId} {e : StoreEntry} {r : List StoreEntry} {md : SyncMode}
    (buffer : (s.core n).sbuf = e :: r) (flight : (s.core n).flight = []) (amo : (s.core n).amoWait = false)
    (mode : e.mode = some md) (space : e.space = .tcm) (alone : s.AloneAt n)
    (holds : md.holds (feGet (s.core n).tcmFe (e.va / 8)) = false) :
    ∃ t, exec (.syncAccessAtOwner n) s = .next t ∧ t.moorings = s.moorings ++ [s.writeAccess n e md] ∧
      t.core n = (s.core n).posted r e.tag := by
  have homes := homesOnly_releaseAt s (dieOf n) e.scope
  have arrives := State.syncArrive_tcm_waits (s.mooringOf_atTcm e.dom n e.va md e.data (.posted n) e.region) (homes.aloneAt alone)
    (by rw [homes.core]; exact holds) n
  refine ⟨_, exec_syncWrite buffer flight amo mode space arrives, ?_, ?_⟩
  · show (s.releaseAt (dieOf n) e.scope).moorings ++ _ = _
    rw [homes.1]
    rfl
  · exact (State.core_updCore_same _ n _).trans (congrArg (fun c : Core => c.posted r e.tag) (homes.core n))

/-- Core c with an entry on its way to its register. -/
def Core.delivers (c : Core) (d : Delivery) : Core := { c with deliver := c.deliver ++ [d] }

/-- The entry of a queue read under way, of the data it has read. -/
def Flight.entry (f : Flight) (data : Word) : Vec := ldqEntry data f.itag 0 f.mode (f.ea / 8)

/-- A sync read whose condition holds reads its word, leaves its bit as its mode says, and has its entry on the way (R94, R224). -/
theorem syncRead_served {s : State} {n : CoreId} {f : Flight} {l : List Flight} (buffer : (s.core n).sbuf = [])
    (flight : (s.core n).flight = f :: l) (space : f.space = .tcm) (alone : s.AloneAt n)
    (whole : poisonGet (s.core n).tcmPoison (f.va / 8) = false) (holds : f.mode.holds (feGet (s.core n).tcmFe (f.va / 8)) = true) :
    exec (.syncAccessAtOwner n) s = .next (s.updCore n fun c => ((c.synced (f.va / 8) f.mode 0).delivers
      { lid := (s.core n).lid, q := f.q, entry := f.entry ((s.core n).tcmWord (8 * (f.va / 8))),
        scope := if f.mode = .plain then none else some f.scope }).landed l f.tag) := by
  have arrives := State.syncArrive_tcm_served (m := s.readAccess n f) (s.mooringOf_atTcm ..) alone whole holds n
  refine (exec_syncRead buffer flight space arrives).trans (congrArg (fun t : State => (.next t : Out)) ?_)
  exact (congrArg (fun t : State => t.updCore n fun c => c.landed l f.tag) (State.updCore_updCore s n _ _)).trans
    (State.updCore_updCore s n _ _)

/-- Settles O54: a sync write, a sync read and the entry of one, each at its owner. -/
theorem syncEvents : Obligations.SyncEvents := by
  intro s n e md r f l d ds k full alone
  refine ⟨fun buffer flight amo mode space ⟨others, _, even, whole, weir⟩ => ⟨fun holds => ?_, fun holds => ?_⟩,
    fun buffer flight space reads ⟨others, _, even, whole, weir⟩ => ⟨fun holds => ?_, fun holds => ?_⟩,
    fun deliver lid saved loading there => ?_⟩
  · obtain ⟨t, runs, moorings, core⟩ := syncWrite_served buffer flight amo mode space ⟨others, weir⟩ whole holds
    refine ⟨t, runs, by rw [core]; rfl, moorings, fun w => ?_, fun a => ?_⟩
    · rw [core]
      exact Core.feGet_synced _ _ _ _ w
    · have word : 8 * (e.va / 8) = e.va := by omega
      rw [core]
      have read := Core.tcm_synced k (e.va / 8) md e.data a
      rwa [word] at read
  · obtain ⟨t, runs, moorings, core⟩ := syncWrite_waits buffer flight amo mode space ⟨others, weir⟩ holds
    exact ⟨t, _, runs, by rw [core]; rfl, by rw [core]; rfl, by rw [core]; rfl, moorings, rfl, rfl, rfl, rfl, rfl⟩
  · have runs := syncRead_served buffer flight space ⟨others, weir⟩ whole holds
    have word : 8 * (f.va / 8) = f.va := by omega
    refine ⟨_, f.entry (k.tcmWord (8 * (f.va / 8))), runs, ?_, ?_, ?_, ?_, ldqEntry_tag .., ldqEntry_status .., ldqEntry_mode .., fun w => ?_⟩
    · exact sameMemory_updCore s n _ fun c => Core.tcm_synced_read c _ _ _ reads
    · rw [State.core_updCore_same]
      rfl
    · rw [State.core_updCore_same]
      exact congrArg (· ++ _) (Core.deliver_synced ..)
    · exact (ldqEntry_data ..).trans (congrArg k.tcmWord word)
    · rw [State.core_updCore_same]
      exact Core.feGet_synced _ _ _ _ w
  · have arrives := State.syncArrive_tcm_waits (m := s.readAccess n f) (s.mooringOf_atTcm ..) ⟨others, weir⟩ holds n
    refine ⟨_, _, exec_syncRead buffer flight space arrives, ?_, ?_, ?_, rfl, rfl, rfl, rfl⟩
    · exact sameMemory_updCore _ n _ fun _ => rfl
    · rw [State.core_updCore_same]; rfl
    · rw [State.core_updCore_same]; rfl
  · refine ⟨_, exec_deliver deliver lid saved loading there, sameMemory_updCore s n _ fun _ => rfl, ?_, ?_, fun z other => ?_⟩
    · rw [State.core_updCore_same]; rfl
    · rw [State.core_updCore_same]; exact Core.rq_updQ_same _ _ _
    · rw [State.core_updCore_same]; exact Core.rq_updQ_other _ _ other

end Sys2Proof.Machine
end

section
/-! ## Pages, walks and acknowledgements (R78, R172, R387, R389, R397, R410) -/

namespace Sys2Proof.Machine

/-! ### Refills -/

theorem State.homeBytes_updCluster (s : State) (cl : BitVec 14) (f : Cluster → Cluster) (dom : BitVec 16) (n : Nat) :
    ∀ pa, (s.updCluster cl f).homeBytes dom pa n = s.homeBytes dom pa n := by
  induction n with
  | zero => exact fun _ => rfl
  | succ n ih => exact fun pa => congrArg (s.homeByte dom pa :: ·) (ih (pa + 1))

theorem State.peek_updCluster (s : State) (cl : BitVec 14) (f : Cluster → Cluster) (die : BitVec 4) (dom : BitVec 16) (pa n : Nat) :
    (s.updCluster cl f).peek die dom pa n = s.peek die dom pa n := by
  simp only [State.peek, State.homeBytes_updCluster]
  rfl

theorem State.homeBytes_length (s : State) (dom : BitVec 16) (n : Nat) : ∀ pa, (s.homeBytes dom pa n).length = n := by
  induction n with
  | zero => exact fun _ => rfl
  | succ n ih => exact fun pa => congrArg (· + 1) (ih (pa + 1))

theorem State.peek_length (s : State) (die : BitVec 4) (dom : BitVec 16) (pa n : Nat) : (s.peek die dom pa n).length = n := by
  unfold State.peek
  dsimp only
  split
  · exact State.homeBytes_length s dom n _
  · split
    · split
      · exact splitBytes_length n _
      · exact List.length_replicate
    · exact State.homeBytes_length s dom n _

/-- Words written one behind the other read back. -/
theorem Memory.get_words (f : Nat → List Byte) (eight : ∀ w, (f w).length = 8) : ∀ (k lo : Nat) (m : Memory) (i : Nat),
    ((upFrom lo k).foldl (fun m w => m.write (8 * w) (f w)) m).get i =
      if _h : 8 * lo ≤ i ∧ i < 8 * (lo + k) then (f (i / 8))[i % 8]'(by rw [eight]; omega) else m.get i
  | 0, lo, m, i => by rw [dif_neg (by omega)]; rfl
  | k + 1, lo, m, i => by
    rw [upFrom_succ, List.foldl_cons, Memory.get_words f eight k (lo + 1)]
    by_cases later : 8 * (lo + 1) ≤ i ∧ i < 8 * (lo + 1 + k)
    · rw [dif_pos later, dif_pos (by omega)]
    · rw [dif_neg later]
      by_cases here : 8 * lo ≤ i ∧ i < 8 * (lo + (k + 1))
      · rw [dif_pos here]
        have word : i / 8 = lo := by omega
        have place : i - 8 * lo = i % 8 := by omega
        rw [Memory.get_write_inside (f lo) m here.1 (by rw [eight]; omega)]
        simp only [word, place]
      · rw [dif_neg here]
        exact Memory.get_write_other (f lo) m _ _ (by rw [eight]; omega)

/-- Marks taken one behind the other read back. -/
theorem getD_marks (f : Nat → Bool) (d : Bool) : ∀ (k lo : Nat) (m : Cells Bool) (i : Nat),
    Cells.getD ((upFrom lo k).foldl (fun r w => Cells.putD d r w (f w)) m) i d =
      if lo ≤ i ∧ i < lo + k then f i else Cells.getD m i d
  | 0, lo, m, i => by rw [if_neg (by omega)]; rfl
  | k + 1, lo, m, i => by
    rw [upFrom_succ, List.foldl_cons, getD_marks f d k (lo + 1)]
    by_cases here : i = lo
    · subst here
      rw [if_neg (by omega), if_pos (by omega), Cells.getD_putD_same]
    · rw [Cells.getD_putD_other d m _ here]
      exact if_congr (by omega) rfl rfl

theorem feGet_pageMarks (m : Cells Bool) (at_ : Nat → Nat) {w : Nat} (h : w < 512) : feGet (pageMarks m at_ true) w = feGet m (at_ w) :=
  (getD_marks (fun w => Cells.getD m (at_ w) true) true 512 0 [] w).trans (if_pos ⟨Nat.zero_le w, by omega⟩)

/-- The frame that a refill brings in. -/
def State.frameOf (s : State) (die : BitVec 4) (dom : BitVec 16) (backing : BitVec 44) (pa : Nat) : Frame :=
  { dom, backing, pa, mem := s.pageBytes die dom pa, fe := pageMarks s.fe (fun w => s.live (pa + 8 * w) / 8) true,
    poison := (upFrom 0 512).foldl (fun r w => Cells.putD false r w (s.poisoned die (pa + 8 * w))) [],
    dirty := [], dirtyFe := [], whole := [], pins := 0, stamp := s.nextId }

theorem State.mem_frameOf (s : State) (die : BitVec 4) (dom : BitVec 16) (backing : BitVec 44) (pa : Nat) :
    (s.frameOf die dom backing pa).mem = s.pageBytes die dom pa := by
  rw [State.frameOf]

theorem State.fe_frameOf (s : State) (die : BitVec 4) (dom : BitVec 16) (backing : BitVec 44) (pa : Nat) :
    (s.frameOf die dom backing pa).fe = pageMarks s.fe (fun w => s.live (pa + 8 * w) / 8) true := by
  rw [State.frameOf]

theorem State.frames_putFrame (s : State) (cl : BitVec 14) (f : Frame) :
    ((s.putFrame cl f).cluster cl).frames = (s.cluster cl).frames ++ [f] :=
  congrArg Cluster.frames (State.cluster_updCluster_same s cl fun k =>
    { k with frames := k.frames ++ [f], refills := k.refills.filter (· != (f.dom, f.backing, f.pa)) })

/-- A refill into a scratchpad with a free frame. -/
theorem State.frames_fillPage {s : State} {cl : BitVec 14} {dom : BitVec 16} {backing : BitVec 44} {pa : Nat}
    (room : (s.cluster cl).frames.length < 64) :
    ((s.fillPage cl dom backing pa).cluster cl).frames = (s.cluster cl).frames ++ [s.frameOf (bits cl 10 4) dom backing pa] := by
  have free : s.makeRoom cl = s := if_neg (Nat.not_le.mpr room)
  have owned := homesOnly_ownPage s (bits cl 10 4) dom pa
  unfold State.fillPage
  rw [free]
  refine (State.frames_putFrame _ cl _).trans ?_
  rw [owned.cluster]
  rfl

theorem pageBytes_get (s : State) (die : BitVec 4) (dom : BitVec 16) (pa : Nat) {i : Nat} (h : i < 4096) :
    some ((s.pageBytes die dom pa).get i) = (s.peek die dom (pa + 8 * (i / 8)) 8)[i % 8]? := by
  have eight (w : Nat) : (s.peek die dom (pa + 8 * w) 8).length = 8 := s.peek_length ..
  have read := Memory.get_words (fun w => s.peek die dom (pa + 8 * w) 8) eight 512 0 [] i
  rw [dif_pos (by omega)] at read
  exact (congrArg some read).trans (List.getElem?_eq_getElem _).symm

section
variable {s : State} {cl : BitVec 14} {dom : BitVec 16} {backing : BitVec 44} {pa : Nat} {r : List (BitVec 16 × BitVec 44 × Nat)}
  (asked : (s.cluster cl).refills = (dom, backing, pa) :: r)
include asked

theorem exec_pageRefill_gated (gated : (s.cluster cl).gstate ≠ 0) :
    exec (.pageRefill cl) s = .next (s.updCluster cl fun k => { k with refills := r }) := by
  show execPageRefill cl s = _
  unfold execPageRefill
  simp only [asked]
  exact if_pos (.inl gated)

theorem exec_pageRefill (up : (s.cluster cl).gstate = 0) (room : (s.cluster cl).frames.length < 64)
    (absent : (s.cluster cl).findFrame dom backing = none) :
    exec (.pageRefill cl) s = .next ((s.updCluster cl fun k => { k with refills := r }).fillPage cl dom backing pa) := by
  have free : (s.cluster cl).allPinned = false := by
    rw [Cluster.allPinned, decide_eq_false (Nat.not_le.mpr room), Bool.false_and]
  show execPageRefill cl s = _
  unfold execPageRefill
  simp only [asked, up, free, absent, ne_eq, not_true_eq_false, Bool.false_eq_true, Option.isSome_none, or_self, if_false]

/-- A refill brings a page into a free frame, with the bytes and marks that its home has (R78). -/
theorem pageRefill_brings (up : (s.cluster cl).gstate = 0) (room : (s.cluster cl).frames.length < 64)
    (absent : (s.cluster cl).findFrame dom backing = none) :
    ∃ (t : State) (x : Frame), exec (.pageRefill cl) s = .next t ∧ (t.cluster cl).frames = (s.cluster cl).frames ++ [x] ∧
      x.dom = dom ∧ x.backing = backing ∧ x.pa = pa ∧ x.pins = 0 ∧ x.dirty = [] ∧
      (∀ i, i < 4096 → some (x.mem.get i) = (s.peek (bits cl 10 4) dom (pa + 8 * (i / 8)) 8)[i % 8]?) ∧
      ∀ w, w < 512 → feGet x.fe w = feGet s.fe (s.live (pa + 8 * w) / 8) := by
  have runs := exec_pageRefill asked up room absent
  have cluster : (s.updCluster cl fun k => { k with refills := r }).cluster cl = { s.cluster cl with refills := r } :=
    State.cluster_updCluster_same s cl _
  have frames := State.frames_fillPage (dom := dom) (backing := backing) (pa := pa)
    (show ((s.updCluster cl fun k => { k with refills := r }).cluster cl).frames.length < 64 by rw [cluster]; exact room)
  rw [cluster] at frames
  refine ⟨_, (s.updCluster cl fun k => { k with refills := r }).frameOf (bits cl 10 4) dom backing pa, runs, frames, rfl, rfl, rfl, rfl,
    rfl, fun i h => ?_, fun w h => ?_⟩
  · rw [State.mem_frameOf, ← State.peek_updCluster s cl fun k => { k with refills := r }]
    exact pageBytes_get _ _ _ _ h
  · rw [State.fe_frameOf]
    exact feGet_pageMarks _ _ h

end

/-! ### Walks -/

/-- From s to t only the owners of lines may have changed. -/
def LinesOnly (s t : State) : Prop := t = { s with lines := t.lines }

theorem LinesOnly.trans {s t u : State} (h : LinesOnly s t) (k : LinesOnly t u) : LinesOnly s u := by
  rw [LinesOnly] at k
  rw [h] at k
  exact k

theorem linesOnly_touchLine (s : State) (dom : BitVec 16) (pa : Nat) : LinesOnly s (s.touchLine dom pa) := by
  unfold State.touchLine
  split <;> rfl

theorem linesOnly_touchNodes (die : BitVec 4) (buf : List StoreEntry) (va : BitVec 56) : ∀ (l : Nat) (s : State) (n : Nat),
    LinesOnly s (s.touchNodes die buf va n l)
  | 0, _, _ => rfl
  | l + 1, s, n => by
    have step (t : State) (line : LinesOnly s t) (a : Nat) (c : Prop) [Decidable c] :
        LinesOnly s (if c then t else t.touchNodes die buf va a l) := by
      split
      · exact line
      · exact line.trans (linesOnly_touchNodes die buf va l t a)
    unfold State.touchNodes
    dsimp only
    refine step _ ?_ _ _
    split
    · rfl
    · exact linesOnly_touchLine s _ _

/-- A walk that finds a page keeps its translation (R387). -/
theorem State.translate_walks {s : State} {die : BitVec 4} {va : BitVec 56} {pa level : Nat} (cold : (s.die die).tlbFind va = none)
    (walk : s.walkFrom die [] va 0 4 = (.page pa, level)) :
    (s.translate die va).1 = (s.touchNodes die [] va 0 4).updDie die fun d =>
      { d with tlb := { page := va.toNat / 2 ^ (16 + 10 * level), level := BitVec.ofNat 2 level,
                        frame := pa - va.toNat % 2 ^ (16 + 10 * level) } :: d.tlb } := by
  unfold State.translate
  simp only [cold, walk]

theorem exec_pageWalk {die : BitVec 4} {va : BitVec 56} {s : State} (device : isMgmt va.toNat = false) :
    exec (.pageWalk die va) s = .next (s.translate die va).1 :=
  congrArg (fun t : State => (.next t : Out)) (if_neg (Bool.eq_false_iff.mp device))

/-- A walk that finds a page leaves memory alone, and its translation in front of the die's (R387). -/
theorem pageWalk_keeps {s : State} {die : BitVec 4} {va : BitVec 56} {pa level : Nat} (cold : (s.die die).tlbFind va = none)
    (device : isMgmt va.toNat = false) (walk : s.walkFrom die [] va 0 4 = (.page pa, level)) :
    ∃ t, exec (.pageWalk die va) s = .next t ∧ SameMemory s t ∧
      (t.die die).tlb = { page := va.toNat / 2 ^ (16 + 10 * level), level := BitVec.ofNat 2 level,
                          frame := pa - va.toNat % 2 ^ (16 + 10 * level) } :: (s.die die).tlb := by
  have nodes := linesOnly_touchNodes die [] va 4 s 0
  refine ⟨_, exec_pageWalk device, ?_, ?_⟩
  all_goals rw [State.translate_walks cold walk, nodes]
  · exact sameMemory_updDie { s with lines := (s.touchNodes die [] va 0 4).lines } die _ fun _ => rfl
  · rw [State.die_updDie_same]
    rfl

/-- A translation that is kept is not walked for. -/
theorem pageWalk_warm {s : State} {die : BitVec 4} {va : BitVec 56} {pa : Nat} (warm : (s.die die).tlbFind va = some pa) :
    exec (.pageWalk die va) s = .next s := by
  have kept : (s.translate die va).1 = s := by
    unfold State.translate
    simp only [warm]
  show Host.Outcome.next (if isMgmt va.toNat then s else (s.translate die va).1) = _
  rw [kept, ite_self]

/-! ### Acknowledgements, credits and the start of a migration -/

theorem acknowledgement_counts {s : State} {n : CoreId} {tag : Nat} {tags : List Nat} (acks : (s.core n).acks = tag :: tags) :
    ∃ t, exec (.acknowledgement n) s = .next t ∧ SameMemory s t ∧ (t.core n).acks = tags ∧
      (t.core n).unacked = (s.core n).unacked.filter (fun x => x != tag) ∧ t.wire = s.wire.filter fun w => w.msg.tag != some tag := by
  let counted : State := s.updCore n fun c => { c with acks := tags, unacked := c.unacked.filter fun (x : Nat) => x != tag }
  have core : counted.core n = _ := State.core_updCore_same s n _
  have runs : exec (.acknowledgement n) s =
      .next { counted with wire := counted.wire.filter fun (w : Wire) => w.msg.tag != some tag } := by
    show execAcknowledgement n s = _
    unfold execAcknowledgement
    simp only [acks]
    rfl
  have memory : SameMemory s counted := sameMemory_updCore s n _ fun _ => rfl
  exact ⟨_, runs, memory, congrArg Core.acks core, congrArg Core.unacked core, rfl⟩

theorem dropAt_eq_take_drop {α : Type} : ∀ (l : List α) (k : Nat), dropAt l k = l.take k ++ l.drop (k + 1)
  | [], k => by simp [dropAt]
  | x :: r, 0 => by simp [dropAt]
  | x :: r, k + 1 => by simp [dropAt, dropAt_eq_take_drop r k]

/-- A credit for which nothing waits frees its owner (R408). -/
theorem forwardCredit_frees {s : State} {place : BitVec 16} {o : Owner} (short : s.noCredit[place.toNat]? = some o)
    (idle : ∀ x ∈ s.moorings, x.owner = o → x.fwd = false) :
    exec (.forwardCredit place) s = .next { s with noCredit := s.noCredit.take place.toNat ++ s.noCredit.drop (place.toNat + 1) } := by
  have none_waits : firstIdx (fun (m : Mooring) => m.fwd && m.owner == o) s.moorings = none := by
    refine firstIdx_none fun m waits => ?_
    rw [Bool.and_eq_false_iff]
    by_cases mine : m.owner = o
    · exact .inl (idle m waits mine)
    · exact .inr (beq_eq_false_iff_ne.mpr mine)
  show execForwardCredit place s = _
  unfold execForwardCredit
  simp only [short, none_waits, dropAt_eq_take_drop]

section
variable {s : State} {f g : BitVec 24}

/-- A page that no migration and no provisional store names starts to move where it is of 64 KiB (R396, R397). -/
theorem pageMigration_starts (fresh : ∀ x ∈ s.migrations, x.p ≠ f.toNat ∧ x.p ≠ g.toNat ∧ x.p2 ≠ f.toNat ∧ x.p2 ≠ g.toNat)
    (apart : f ≠ g) (firm : ∀ x ∈ s.prov, x.pa / 65536 ≠ f.toNat) :
    exec (.pageMigration f g) s = .next (if s.inLargePage f.toNat then s else
      { s with migrations := s.migrations ++ [{ p := f.toNat, p2 := g.toNat, next := 0 }] }) := by
  have unnamed : s.migrations.find? (fun (m : Migration) => m.p == f.toNat) = none :=
    List.find?_eq_none.mpr fun x here => by
      rw [beq_iff_eq]
      exact (fresh x here).1
  have others : s.migrations.any (fun m => m.p == g.toNat || m.p2 == g.toNat || m.p2 == f.toNat) = false := by
    refine List.any_eq_false.mpr fun x here => ?_
    obtain ⟨-, notG, notF, notG'⟩ := fresh x here
    simp [notG, notF, notG']
  have stored : s.prov.any (fun x => x.pa / 65536 == f.toNat) = false := by
    refine List.any_eq_false.mpr fun x here => ?_
    rw [beq_iff_eq]
    exact firm x here
  have numbers : f.toNat ≠ g.toNat := fun e => apart (BitVec.eq_of_toNat_eq e)
  show execPageMigration f g s = _
  unfold execPageMigration
  simp only [unnamed, others, stored, numbers, Bool.false_eq_true, or_false, false_or]
  split <;> rfl

end

/-! ### A bad line of the instruction cache -/

theorem Cells.find_drop {α : Type} (p : Nat → Bool) (k : Nat) : ∀ m : Cells α,
    Cells.find (m.drop p) k = if p k then none else Cells.find m k
  | [] => by simp [Cells.drop]
  | (j, v) :: r => by
    have rest := Cells.find_drop p k r
    by_cases here : j = k
    · subst here
      cases gone : p j <;> simp [Cells.drop, Cells.find, gone, rest]
    · cases gone : p j <;> simp [Cells.drop, Cells.find, gone, here, rest]

theorem icacheParityError_drops (s : State) (n : CoreId) (va : BitVec 56) :
    ∃ t, exec (.icacheParityError n va) s = .next t ∧ SameMemory s t ∧ (∀ q, q ≠ n → t.core q = s.core q) ∧
      ∀ x, Cells.find (t.core n).icache x = if x / 64 = va.toNat / 64 then none else Cells.find (s.core n).icache x := by
  refine ⟨_, rfl, sameMemory_updCore s n _ fun _ => rfl, fun q other => State.core_updCore_other s _ other, fun x => ?_⟩
  rw [State.core_updCore_same]
  refine (Cells.find_drop _ x _).trans (if_congr ?_ rfl rfl)
  exact beq_iff_eq

end Sys2Proof.Machine
end

section
/-! ## Stores that are performed away from their core: at the backing word, and at the new home (R79, R396, R399) -/

namespace Sys2Proof.Machine

/-! ### Bytes of a home, under their keys -/

/-- The block of a byte lies under the key of a domain, or in host memory, where there are none. -/
def State.Keyed (s : State) (dom : BitVec 16) (pa : Nat) : Prop := isHost pa ∨ Cells.getD s.bkey (pa / 16) 0 = s.keyOf dom pa

/-- Bytes of one block lie under one key. -/
theorem State.keyed_block {s : State} {dom : BitVec 16} {a b : Nat} (same : a / 16 = b / 16) (h : s.Keyed dom b) : s.Keyed dom a := by
  have die : homeDie a = homeDie b := by rw [homeDie, homeDie, show a / 2 ^ 36 = b / 2 ^ 36 by omega]
  have host : isHost a = isHost b := by rw [isHost, isHost, show a / 2 ^ 51 = b / 2 ^ 51 by omega]
  rw [State.Keyed, State.keyOf, die, host, same]
  exact h

theorem State.keyed_rekey (s : State) (dom : BitVec 16) (pa : Nat) : (s.rekey dom pa).Keyed dom pa := by
  unfold State.rekey
  split
  · next keyed => exact keyed
  · exact .inr (Cells.getD_putD_same 0 s.bkey (pa / 16) (s.keyOf dom pa))

/-- A block that gets another key loses its own bytes, and no others. -/
theorem State.get_rekey {s : State} {dom : BitVec 16} {pa a : Nat} (beside : a / 16 ≠ pa / 16 ∨ s.Keyed dom pa) :
    (s.rekey dom pa).mem.get a = s.mem.get a := by
  unfold State.rekey
  split
  · rfl
  · next unkeyed =>
    have far := beside.resolve_right unkeyed
    refine Memory.get_write_other _ _ _ _ ?_
    rw [List.length_map, show (upFrom (pa / 16 * 16) 16).length = 16 from rfl]
    omega

/-- What a store of bytes to a block leaves there: the bytes, and beside them what was there under the same key (R399). -/
theorem State.get_homeWrite (dom : BitVec 16) (l : List Byte) : ∀ (s : State) (pa : Nat), pa % 16 + l.length ≤ 16 → ∀ a,
    (∀ (_ : pa ≤ a) (h : a - pa < l.length), (s.homeWrite dom pa l).mem.get a = l[a - pa]) ∧
    (a < pa ∨ pa + l.length ≤ a → a / 16 ≠ pa / 16 ∨ s.Keyed dom pa → (s.homeWrite dom pa l).mem.get a = s.mem.get a) := by
  induction l with
  | nil => exact fun s pa _ a => ⟨fun _ h => absurd h (Nat.not_lt_zero _), fun _ _ => rfl⟩
  | cons b r ih =>
    intro s pa fits a
    rw [List.length_cons] at fits
    have keyed (same : (pa + 1) / 16 = pa / 16) : (s.homeSet dom pa b).Keyed dom (pa + 1) :=
      State.keyed_block same (s.keyed_rekey dom pa)
    obtain ⟨inside, outside⟩ := ih (s.homeSet dom pa b) (pa + 1) (by omega) a
    refine ⟨fun lower h => ?_, fun out beside => ?_⟩
    · by_cases here : a = pa
      · subst here
        have first : (s.homeSet dom a b).mem.get a = b := Memory.get_set_same _ a b
        refine (outside (.inl (Nat.lt_succ_self a)) ?_).trans (first.trans (by simp))
        by_cases same : (a + 1) / 16 = a / 16
        · exact .inr (keyed same)
        · exact .inl fun e => same e.symm
      · rw [List.length_cons] at h
        have next : a - pa = a - (pa + 1) + 1 := by omega
        refine (inside (by omega) (by omega)).trans ?_
        simp [next]
    · rw [List.length_cons] at out
      have other : a ≠ pa := by omega
      have first : (s.homeSet dom pa b).mem.get a = s.mem.get a := (Memory.get_set_other _ b other).trans (State.get_rekey beside)
      refine Eq.trans ?_ first
      by_cases more : r = []
      · rw [more]; rfl
      · have short := List.length_pos_iff.mpr more
        have same : (pa + 1) / 16 = pa / 16 := by omega
        exact outside (by omega) (.inr (keyed same))

theorem State.mem_homeStore (s : State) (dom : BitVec 16) (pa : Nat) (bs : List Byte) :
    (s.homeStore dom pa bs).mem = (s.homeWrite dom pa bs).mem := by
  unfold State.homeStore
  dsimp only
  split <;> exact State.touchLine_mem _ _ _

/-- A store of a word's bytes at its home. -/
theorem State.get_homeStore_word (s : State) (dom : BitVec 16) {pa n : Nat} (w : Word) (fits : pa % 8 + n ≤ 8) (a : Nat) :
    (pa ≤ a ∧ a < pa + n → (s.homeStore dom pa (splitBytes n w.toNat)).mem.get a = bits w (8 * (a - pa)) 8) ∧
    (¬ (pa ≤ a ∧ a < pa + n) → a / 16 ≠ pa / 16 ∨ Cells.getD s.bkey (pa / 16) 0 = s.keyOf dom pa →
      (s.homeStore dom pa (splitBytes n w.toNat)).mem.get a = s.mem.get a) := by
  have whole : (splitBytes n w.toNat).length = n := splitBytes_length n _
  obtain ⟨inside, outside⟩ := State.get_homeWrite dom (splitBytes n w.toNat) s pa (by omega) a
  rw [State.mem_homeStore]
  refine ⟨fun here => ?_, fun out beside => outside (by omega) (beside.imp_right .inr)⟩
  rw [inside here.1 (by omega), getElem_splitBytes, byte_eq_bits]

/-! ### A store that drains to its home -/

theorem State.live_mod_eight (s : State) (pa : Nat) : s.live pa % 8 = pa % 8 := by
  unfold State.live
  split
  · omega
  · rfl

section
variable {s : State} {n : CoreId} {e : StoreEntry} {r : List StoreEntry}

/-- A plain store at the head of the buffer whose place is memory homed on the core's die is performed at its home. -/
theorem drainOne_home (buffer : (s.core n).sbuf = e :: r) (mode : e.mode = none)
    (place : s.placeOf n e.space e.dom e.va e.pa = .mem e.pa) (flight : (s.core n).flight = []) (amo : (s.core n).amoWait = false)
    (served : s.behindFwd (s.spot e.dom (.mem e.pa)) = false) (free : s.plainStuck n e.dom (.mem e.pa) = none)
    (homed : homedOn (dieOf n) (s.live e.pa) = true) :
    s.drainOne n = some ((s.homeStore e.dom (s.live e.pa) (splitBytes e.size e.data.toNat)).updCore n fun c => c.posted r e.tag) := by
  have perform : s.performStore n e = some (s.homeStore e.dom (s.live e.pa) (splitBytes e.size e.data.toNat), true) := by
    unfold State.performStore
    simp only [mode, place, State.served, served, free, Bool.not_false, Bool.not_true, Bool.false_eq_true, if_false]
    unfold State.rawWrite State.dieWrite
    simp only [homed, if_true]
  rw [State.drainOne_head buffer flight amo, perform]
  rfl

/-- What such a store leaves: the buffer without it, its bytes at home, and the bytes beside it as R399 has them. -/
theorem drained_lands (size : e.pa % 8 + e.size ≤ 8) :
    let t := (s.homeStore e.dom (s.live e.pa) (splitBytes e.size e.data.toNat)).updCore n fun c => c.posted r e.tag
    (t.core n).sbuf = r ∧ ∀ a,
      (s.live e.pa ≤ a ∧ a < s.live e.pa + e.size → t.mem.get a = bits e.data (8 * (a - s.live e.pa)) 8) ∧
      (¬ (s.live e.pa ≤ a ∧ a < s.live e.pa + e.size) →
        a / 16 ≠ s.live e.pa / 16 ∨ Cells.getD s.bkey (s.live e.pa / 16) 0 = s.keyOf e.dom (s.live e.pa) →
        t.mem.get a = s.mem.get a) :=
  ⟨congrArg Core.sbuf (State.core_updCore_same _ n fun c => c.posted r e.tag),
    s.get_homeStore_word e.dom e.data (by rw [State.live_mod_eight]; exact size)⟩

end

theorem exec_gatedReply {s t : State} {n : CoreId} {e : StoreEntry} {r : List StoreEntry} (gated : (s.cluster (clusterOf n)).gstate ≠ 0)
    (buffer : (s.core n).sbuf = e :: r) (space : e.space = .scratch) (drains : s.drainOne n = some t) :
    exec (.gatedReply n) s = .next t := by
  have head : (s.core n).headIs (fun e => e.space == .scratch) = true := by simp only [Core.headIs, buffer, space, BEq.rfl]
  show execGatedReply n s = _
  rw [execGatedReply, if_neg gated, if_pos head, drains]
  rfl

theorem exec_oldHomeForward {s t : State} {n : CoreId} {e : StoreEntry} {r : List StoreEntry} (buffer : (s.core n).sbuf = e :: r)
    (space : e.space = .global) (moved : s.live e.pa ≠ e.pa) (drains : s.drainOne n = some t) :
    exec (.oldHomeForward n) s = .next t := by
  have head : (s.core n).headIs (fun e => e.space == .global && s.live e.pa != e.pa) = true := by
    simp only [Core.headIs, buffer, space, BEq.rfl, bne_iff_ne.mpr moved, Bool.and_self]
  show execOldHomeForward n s = _
  rw [execOldHomeForward, if_pos head, drains]
  rfl

end Sys2Proof.Machine
end

section
/-! ## Copies that go back to their homes, and credits (R117, R402, R408) -/

namespace Sys2Proof.Machine

theorem poisonGet_poisonSet (m : Cells Bool) (w v : Nat) (x : Bool) :
    poisonGet (poisonSet m w x) v = if v = w then x else poisonGet m v := by
  split
  · next same => rw [same]; exact Cells.getD_putD_same false m w x
  · next other => exact Cells.getD_putD_other false m x other

/-- From s to t homes take back what dies hold: copies vanish, and no word is poisoned that was whole. -/
structure Recalls (s t : State) : Prop where
  homes : HomesOnly s t
  die : ∀ x, ∃ c, t.die x = { s.die x with copies := c }
  gone : ∀ x w, Cells.find (s.die x).copies w = none → Cells.find (t.die x).copies w = none
  whole : ∀ w, poisonGet s.poison w = false → poisonGet t.poison w = false

theorem Recalls.refl (s : State) : Recalls s s := ⟨.refl s, fun _ => ⟨_, rfl⟩, fun _ _ => id, fun _ => id⟩

theorem Recalls.trans {s t u : State} (h : Recalls s t) (k : Recalls t u) : Recalls s u := by
  refine ⟨h.homes.trans k.homes, fun x => ?_, fun x w absent => k.gone x w (h.gone x w absent), fun w clean => k.whole w (h.whole w clean)⟩
  obtain ⟨c, first⟩ := h.die x
  obtain ⟨d, second⟩ := k.die x
  exact ⟨d, by rw [second, first]⟩

theorem Recalls.foldl {α : Type} {f : State → α → State} (h : ∀ s x, Recalls s (f s x)) (l : List α) (s : State) :
    Recalls s (l.foldl f s) :=
  foldl_keeps (fun t => Recalls s t) f (fun t x ht => ht.trans (h t x)) l s (.refl s)

/-- A change at homes that leaves the dies and the marks of poison alone. -/
theorem HomesOnly.recalls {s t : State} (h : HomesOnly s t) (dies : t.dies = s.dies)
    (whole : ∀ w, poisonGet s.poison w = false → poisonGet t.poison w = false) : Recalls s t := by
  have same (x : BitVec 4) : t.die x = s.die x := by rw [State.die, State.die, dies, h.boot]
  exact ⟨h, fun x => ⟨_, same x⟩, fun x w absent => by rwa [same x], whole⟩

theorem poisonGet_cleared {m : Cells Bool} {v w : Nat} (clean : poisonGet m w = false) : poisonGet (poisonSet m v false) w = false := by
  rw [poisonGet_poisonSet]
  exact ite_eq_left_iff.mpr fun _ => clean

section
variable (s : State) (dom : BitVec 16)

theorem recalls_touchLine (pa : Nat) : Recalls s (s.touchLine dom pa) := by
  refine (homesOnly_touchLine s dom pa).recalls ?_ ?_
  all_goals rw [linesOnly_touchLine s dom pa]
  exact fun _ => id

theorem recalls_homeSet (pa : Nat) (b : Byte) : Recalls s (s.homeSet dom pa b) := by
  have kept : (s.homeSet dom pa b).dies = s.dies ∧ (s.homeSet dom pa b).poison = s.poison := by
    unfold State.homeSet State.rekey
    dsimp only
    split <;> exact ⟨rfl, rfl⟩
  exact (homesOnly_homeSet s dom pa b).recalls kept.1 fun w clean => by rwa [kept.2]

end

theorem recalls_homeWrite (dom : BitVec 16) (l : List Byte) : ∀ (s : State) (pa : Nat), Recalls s (s.homeWrite dom pa l) := by
  induction l with
  | nil => exact fun s _ => .refl s
  | cons b r ih => exact fun s pa => (recalls_homeSet s dom pa b).trans (ih _ _)

theorem recalls_clean (s : State) (w : Nat) : Recalls s { s with poison := poisonSet s.poison w false } :=
  HomesOnly.recalls ⟨rfl, fun _ => rfl⟩ rfl fun _ => poisonGet_cleared

theorem recalls_homeStore (s : State) (dom : BitVec 16) (pa : Nat) (bs : List Byte) : Recalls s (s.homeStore dom pa bs) := by
  have written := (recalls_homeWrite dom bs s pa).trans (recalls_touchLine _ dom pa)
  unfold State.homeStore
  dsimp only
  split
  · exact written.trans (recalls_clean _ _)
  · exact written

theorem recalls_writeBackFrom (dom : BitVec 16) (word : Nat) (data : Word) (dirty : Byte) (n : Nat) (s : State) :
    Recalls s (s.writeBackFrom dom word data dirty n) := by
  induction n with
  | zero => exact .refl s
  | succ n ih =>
    unfold State.writeBackFrom
    dsimp only
    split
    · exact ih.trans (recalls_homeSet _ _ _ _)
    · exact ih

theorem recalls_writeBack (s : State) (word : Nat) (c : Copy) : Recalls s (s.writeBack word c) := by
  have written := (recalls_writeBackFrom c.dom word c.data c.dirty 8 s).trans (recalls_touchLine _ c.dom (s.live (word * 8)))
  unfold State.writeBack
  split
  · exact .refl s
  · dsimp only
    split
    · exact Recalls.trans written (recalls_clean _ _)
    · exact written

theorem recalls_evictCopy (s : State) (die : BitVec 4) (word : Nat) : Recalls s (s.evictCopy die word) := by
  unfold State.evictCopy
  split
  · rename_i c _
    refine (recalls_writeBack s word c).trans ?_
    have homes := homesOnly_updDie (s.writeBack word c) die (fun d => { d with copies := Cells.erase d.copies word }) fun _ => rfl
    refine ⟨homes, fun x => ?_, fun x w absent => ?_, fun _ => id⟩
    · by_cases here : x = die
      · subst here; rw [State.die_updDie_same]; exact ⟨_, rfl⟩
      · rw [State.die_updDie_other _ _ here]; exact ⟨_, rfl⟩
    · by_cases here : x = die
      · subst here
        rw [State.die_updDie_same]
        by_cases same : w = word
        · subst same; exact Cells.find_erase_same _ _
        · exact (Cells.find_erase_other _ same).trans absent
      · rwa [State.die_updDie_other _ _ here]
  · exact .refl s

theorem State.evictCopy_absent {s : State} {die : BitVec 4} {word : Nat} (absent : Cells.find (s.die die).copies word = none) :
    s.evictCopy die word = s := by
  rw [State.evictCopy, absent]

theorem State.evictCopy_gone (s : State) (die : BitVec 4) (word : Nat) : Cells.find ((s.evictCopy die word).die die).copies word = none := by
  unfold State.evictCopy
  split
  · rw [State.die_updDie_same]
    exact Cells.find_erase_same _ _
  · assumption

theorem recalls_recallFor (s : State) (m : Mooring) : Recalls s (s.recallFor m) := by
  unfold State.recallFor
  split
  · unfold State.recallAt
    split
    · dsimp only
      split
      · exact (recalls_evictCopy s _ _).trans (recalls_evictCopy _ _ _)
      · exact recalls_evictCopy s _ _
    · exact .refl s
  · exact .refl s

/-! ### Full-empty bits of homes -/

/-- From s to t the full-empty bits of homes and the lists of owners stay. -/
def MarksKept (s t : State) : Prop := t.fe = s.fe ∧ t.moorings = s.moorings

theorem MarksKept.trans {s t u : State} (h : MarksKept s t) (k : MarksKept t u) : MarksKept s u := ⟨k.1.trans h.1, k.2.trans h.2⟩

theorem Recalls.marks {s t : State} (h : Recalls s t) : MarksKept s t := by
  rw [h.homes.1]
  exact ⟨rfl, rfl⟩

theorem marksKept_syncReply (s : State) (m : Mooring) (x : Word) (status : BitVec 2) : MarksKept s (s.syncReply m x status) := by
  unfold State.syncReply
  split
  case h_4 => split <;> exact ⟨rfl, rfl⟩
  all_goals exact ⟨rfl, rfl⟩

theorem marksKept_shapeFilled (s : State) (p : Spot) (before after : Bool) (x : Word) : MarksKept s (s.shapeFilled p before after x) := by
  unfold State.shapeFilled
  split <;> exact ⟨rfl, rfl⟩

/-- Between changes that leave marks alone one bit is set. -/
theorem marked_after {t u v : State} {w : Nat} {x : Bool} (before : MarksKept t u)
    (after : MarksKept { u with fe := feSet u.fe w x } v) : v.moorings = t.moorings ∧ feGet v.fe w = x := by
  refine ⟨after.2.trans before.2, ?_⟩
  rw [after.1, feGet_feSet, if_pos rfl]

/-- A sync access to a word of a home that is not poisoned leaves its bit as its mode says (R90). -/
theorem State.fe_syncApply_home {s : State} {m : Mooring} {die : BitVec 4} (owner : m.owner = .home die) (amo : m.amo = none)
    (plain : m.plain = none) (whole : poisonGet s.poison m.word = false) (dom : BitVec 16) :
    (s.syncApply m dom).moorings = s.moorings ∧
      feGet (s.syncApply m dom).fe m.word = m.mode.after (feGet s.fe m.word) := by
  have home := recalls_recallFor s m
  obtain ⟨fe, moorings⟩ := home.marks
  have clean := home.whole m.word whole
  unfold State.syncApply
  rw [plain, amo, owner]
  dsimp only
  rw [← moorings, ← fe]
  generalize s.recallFor m = t at clean
  have touched := (recalls_touchLine t dom (8 * m.word)).marks
  have written (x : Word) := touched.trans (recalls_homeStore (t.touchLine dom (8 * m.word)) dom (8 * m.word) (splitBytes 8 x.toNat)).marks
  simp only [State.spotPoison, clean, Bool.false_eq_true, if_false, State.spotTouch, Owner.isMem, if_true, State.spotFull]
  split
  · refine marked_after (written m.data) (MarksKept.trans ?_ (marksKept_syncReply _ _ _ _))
    exact marksKept_shapeFilled _ _ _ _ _
  · exact marked_after touched (marksKept_syncReply _ _ _ _)

/-! ### A credit for an access that waits (R408) -/

section
variable {s : State} {place : BitVec 16} {m : Mooring} {ms : List Mooring}
  (short : s.noCredit[place.toNat]? = some m.owner) (oldest : s.moorings = m :: ms) (waits : m.fwd = true)
  (home : m.owner = s.memOwner (8 * m.word))
include short oldest waits home

/-- The oldest access that waits for the credit is at its word's owner: it is served, or waits there for its condition. -/
theorem exec_forwardCredit :
    exec (.forwardCredit place) s = .next
      (if m.mode.holds (s.spotFull { owner := m.owner, word := m.word, dom := m.dom }) then ({ s with moorings := ms } : State).syncServe m
      else { s with moorings := { m with fwd := false } :: ms }) := by
  have first : firstIdx (fun (x : Mooring) => x.fwd && x.owner == m.owner) (m :: ms) = some 0 := by
    simp only [firstIdx, waits, BEq.rfl, Bool.and_self, if_true]
  show execForwardCredit place s = _
  unfold execForwardCredit
  simp only [short, oldest, first, List.getElem?_cons_zero, dropAt, updAt, ← home, if_true]
  split <;> rfl

theorem forwardCredit_serves {die : BitVec 4} (alone : ms = []) (owner : m.owner = .home die) (amo : m.amo = none) (plain : m.plain = none)
    (whole : poisonGet s.poison m.word = false)
    (holds : m.mode.holds (s.spotFull { owner := m.owner, word := m.word, dom := m.dom }) = true) :
    ∃ t, exec (.forwardCredit place) s = .next t ∧ t.moorings = [] ∧
      feGet t.fe m.word = m.mode.after (s.spotFull { owner := m.owner, word := m.word, dom := m.dom }) := by
  subst alone
  have applied := State.fe_syncApply_home (s := { s with moorings := [] }) owner amo plain whole m.adom
  have served : ({ s with moorings := [] } : State).syncServe m = ({ s with moorings := [] } : State).syncApply m m.adom := by
    unfold State.syncServe
    dsimp only
    rw [applied.1, List.length_nil]
    exact ite_self _
  have full : s.spotFull { owner := m.owner, word := m.word, dom := m.dom } = feGet s.fe m.word := by rw [State.spotFull, owner]
  refine ⟨_, exec_forwardCredit short oldest waits home, ?_⟩
  rw [if_pos holds, served, full]
  exact applied

end

end Sys2Proof.Machine
end

section
/-! ## Errors at an eviction (R80, R402)

An eviction reaches much of the state: the page goes back to its home, and what waited for its words goes with it and may be served
there. It sends no message, and leaves translations and the records of errors alone. -/

namespace Sys2Proof.Machine

/-- From s to t no message is sent, no `pginv` ends, and the dies' translations and their rings of errors stay. -/
structure TablesKept (s t : State) : Prop where
  net : t.net = s.net
  pginvs : t.pginvs = s.pginvs
  tlb : ∀ x, (t.die x).tlb = (s.die x).tlb
  mcsize : ∀ x, (t.die x).mcsize = (s.die x).mcsize

theorem TablesKept.refl (s : State) : TablesKept s s := ⟨rfl, rfl, fun _ => rfl, fun _ => rfl⟩

theorem TablesKept.trans {s t u : State} (h : TablesKept s t) (k : TablesKept t u) : TablesKept s u :=
  ⟨k.net.trans h.net, k.pginvs.trans h.pginvs, fun x => (k.tlb x).trans (h.tlb x), fun x => (k.mcsize x).trans (h.mcsize x)⟩

/-- What happens after a change beside the tables. -/
theorem TablesKept.after {s t u : State} (h : TablesKept u t) (net : u.net = s.net) (pginvs : u.pginvs = s.pginvs)
    (dies : ∀ x, u.die x = s.die x) : TablesKept s t :=
  ⟨h.net.trans net, h.pginvs.trans pginvs, fun x => dies x ▸ h.tlb x, fun x => dies x ▸ h.mcsize x⟩

theorem tablesKept_foldl {α : Type} {f : State → α → State} (h : ∀ s x, TablesKept s (f s x)) (l : List α) (s : State) :
    TablesKept s (l.foldl f s) :=
  foldl_keeps (fun t => TablesKept s t) f (fun t x ht => ht.trans (h t x)) l s (.refl s)

theorem Recalls.tables {s t : State} (h : Recalls s t) : TablesKept s t := by
  refine ⟨h.homes.net, by rw [h.homes.1], fun x => ?_, fun x => ?_⟩
  all_goals
    obtain ⟨c, die⟩ := h.die x
    rw [die]

theorem tablesKept_updDie (s : State) (x : BitVec 4) (f : Die → Die) (h : ∀ d, (f d).tlb = d.tlb ∧ (f d).mcsize = d.mcsize) :
    TablesKept s (s.updDie x f) := by
  have die (y : BitVec 4) : ((s.updDie x f).die y).tlb = (s.die y).tlb ∧ ((s.updDie x f).die y).mcsize = (s.die y).mcsize := by
    by_cases here : y = x
    · subst here; rw [State.die_updDie_same]; exact h _
    · rw [State.die_updDie_other s f here]; exact ⟨rfl, rfl⟩
  exact ⟨rfl, rfl, fun y => (die y).1, fun y => (die y).2⟩

/-! ### What is performed at an owner -/

theorem tablesKept_syncReply (s : State) (m : Mooring) (x : Word) (status : BitVec 2) : TablesKept s (s.syncReply m x status) := by
  unfold State.syncReply
  split
  case h_4 => split <;> exact ⟨rfl, rfl, fun _ => rfl, fun _ => rfl⟩
  case h_7 => exact tablesKept_updDie s _ _ fun _ => ⟨rfl, rfl⟩
  all_goals exact ⟨rfl, rfl, fun _ => rfl, fun _ => rfl⟩

theorem tablesKept_spotTouch (s : State) (p : Spot) (dom : BitVec 16) : TablesKept s (s.spotTouch p dom) := by
  unfold State.spotTouch
  split
  · exact (recalls_touchLine s dom _).tables
  · exact .refl s

theorem tablesKept_spotWrite (s : State) (p : Spot) (dom : BitVec 16) (x : Word) : TablesKept s (s.spotWrite p dom x) := by
  unfold State.spotWrite
  split
  · exact ⟨rfl, rfl, fun _ => rfl, fun _ => rfl⟩
  · split <;> exact ⟨rfl, rfl, fun _ => rfl, fun _ => rfl⟩
  all_goals exact (recalls_homeStore s dom _ _).tables

theorem tablesKept_spotSetFull (s : State) (p : Spot) (x : Bool) : TablesKept s (s.spotSetFull p x) := by
  unfold State.spotSetFull
  split
  · exact ⟨rfl, rfl, fun _ => rfl, fun _ => rfl⟩
  · split
    · split <;> exact ⟨rfl, rfl, fun _ => rfl, fun _ => rfl⟩
    · exact .refl s
  all_goals exact ⟨rfl, rfl, fun _ => rfl, fun _ => rfl⟩

theorem tablesKept_shapeFilled (s : State) (p : Spot) (before after : Bool) (x : Word) : TablesKept s (s.shapeFilled p before after x) := by
  unfold State.shapeFilled
  split <;> exact ⟨rfl, rfl, fun _ => rfl, fun _ => rfl⟩

theorem tablesKept_amoAt (s : State) (p : Spot) (dom : BitVec 16) (op : AmoOp) (e y : Word) : TablesKept s (s.amoAt p dom op e y).1 := by
  unfold State.amoAt
  dsimp only
  split
  · exact (tablesKept_spotTouch s p dom).trans (tablesKept_spotWrite _ p dom _)
  · exact tablesKept_spotTouch s p dom

theorem tablesKept_plainAt (s : State) (m : Mooring) (place : Nat × List Byte) : TablesKept s (s.plainAt m place) := by
  unfold State.plainAt
  refine TablesKept.trans ?_ (tablesKept_syncReply _ m 0 0)
  split
  · exact .refl s
  · exact (recalls_homeStore s _ _ _).tables

theorem tablesKept_syncApply (s : State) (m : Mooring) (dom : BitVec 16) : TablesKept s (s.syncApply m dom) := by
  refine (recalls_recallFor s m).tables.trans ?_
  unfold State.syncApply
  dsimp only
  generalize s.recallFor m = u
  have touched := tablesKept_spotTouch u { owner := m.owner, word := m.word, dom := m.dom } dom
  split
  · exact tablesKept_plainAt u m _
  · split
    · exact tablesKept_syncReply u m 0 2
    · exact (tablesKept_amoAt u _ dom _ _ _).trans (tablesKept_syncReply _ m _ 0)
  · split
    · exact tablesKept_syncReply u m 0 2
    · refine TablesKept.trans ?_ (tablesKept_syncReply _ m _ 0)
      split
      · exact ((touched.trans (tablesKept_spotWrite _ _ dom _)).trans (tablesKept_spotSetFull _ _ _)).trans
          (tablesKept_shapeFilled _ _ _ _ _)
      · exact touched.trans (tablesKept_spotSetFull _ _ _)

theorem tablesKept_onChange (p : Spot) : ∀ (k : Nat) (s : State), TablesKept s (s.onChange p k)
  | 0, s => .refl s
  | k + 1, s => by
    unfold State.onChange
    split
    · split
      · refine TablesKept.trans ?_ (tablesKept_onChange p k _)
        exact (tablesKept_syncApply _ _ _).after rfl rfl fun _ => rfl
      · exact .refl s
    · exact .refl s

/-! ### Pages that leave a scratchpad -/

theorem recalls_putBytes (die : BitVec 4) (f : Frame) : ∀ (l : List Nat) (s : State), Recalls s (s.putBytes die f l)
  | [], s => .refl s
  | _ :: r, s => (recalls_putBytes die f r s).trans (recalls_homeSet _ _ _ _)

theorem tablesKept_writePage (s : State) (die : BitVec 4) (f : Frame) : TablesKept s (s.writePage die f) := by
  unfold State.writePage
  dsimp only
  refine TablesKept.trans ?_ (tablesKept_foldl (fun s w => (recalls_touchLine s _ _).tables) _ _)
  refine TablesKept.trans ?_ (tablesKept_foldl (fun s w => (recalls_clean s _).tables) _ _)
  refine TablesKept.trans ?_ (tablesKept_foldl (fun s w => ?_) _ _)
  rotate_left
  · exact ⟨rfl, rfl, fun _ => rfl, fun _ => rfl⟩
  exact ((Recalls.foldl (fun s w => recalls_evictCopy s die _) _ s).trans (recalls_putBytes die f f.dirty _)).tables

theorem tablesKept_moveMoorings (s : State) (cl : BitVec 14) (f : Frame) : TablesKept s (s.moveMoorings cl f) := by
  unfold State.moveMoorings
  dsimp only
  refine (tablesKept_foldl (fun s x => ?_) _ _).after rfl rfl fun _ => rfl
  unfold State.moveMooring
  dsimp only
  split <;> exact ⟨rfl, rfl, fun _ => rfl, fun _ => rfl⟩

theorem tablesKept_wakePage (s : State) (f : Frame) : TablesKept s (s.wakePage f) := by
  unfold State.wakePage
  split
  · exact .refl s
  · exact tablesKept_foldl (fun s w => tablesKept_onChange _ _ s) _ s

theorem tablesKept_updCluster (s : State) (cl : BitVec 14) (f : Cluster → Cluster) : TablesKept s (s.updCluster cl f) :=
  ⟨rfl, rfl, fun _ => rfl, fun _ => rfl⟩

theorem tablesKept_evictFrame (s : State) (cl : BitVec 14) (i : Nat) : TablesKept s (s.evictFrame cl i) := by
  unfold State.evictFrame
  split
  · rename_i f _
    exact (((tablesKept_writePage s _ f).trans (tablesKept_moveMoorings _ cl f)).trans (tablesKept_updCluster _ cl _)).trans
      (tablesKept_wakePage _ f)
  · exact .refl s

/-! ### Lines that no die holds a copy of -/

/-- A fold makes what one of its steps makes and all of them keep. -/
theorem foldl_makes {α : Type} {f : State → α → State} {p : State → Prop} (keeps : ∀ s x, p s → p (f s x)) {x : α}
    (makes : ∀ s, p (f s x)) : ∀ {l : List α}, x ∈ l → ∀ s, p (l.foldl f s)
  | y :: r, here, s => by
    rcases List.mem_cons.mp here with rfl | later
    · exact foldl_keeps p f keeps r _ (makes s)
    · exact foldl_makes keeps makes later (f s y)

/-- The copies of the line at a word go home from every die. -/
def State.evictLine (s : State) (b : Nat) : State := (upFrom 0 16).foldl (fun (s : State) d =>
  (upFrom 0 8).foldl (fun (s : State) w => s.evictCopy (BitVec.ofNat 4 d) (b + w)) s) s

theorem recalls_evictLine (s : State) (b : Nat) : Recalls s (s.evictLine b) :=
  Recalls.foldl (fun s _ => Recalls.foldl (fun s _ => recalls_evictCopy s _ _) _ s) _ s

theorem State.evictLine_gone (s : State) (b : Nat) (d : BitVec 4) {w : Nat} (h : w < 8) :
    Cells.find ((s.evictLine b).die d).copies (b + w) = none := by
  have die : d.toNat ∈ upFrom 0 16 := mem_upFrom.mpr ⟨Nat.zero_le _, by have := d.isLt; omega⟩
  have word : w ∈ upFrom 0 8 := mem_upFrom.mpr ⟨Nat.zero_le _, by omega⟩
  refine foldl_makes (p := fun s : State => Cells.find (s.die d).copies (b + w) = none) (fun s x absent => ?_) (fun s => ?_) die s
  · exact (Recalls.foldl (fun s w => recalls_evictCopy s _ (b + w)) (upFrom 0 8) s).gone d _ absent
  · refine foldl_makes (p := fun s : State => Cells.find (s.die d).copies (b + w) = none)
      (fun s x => (recalls_evictCopy s _ (b + x)).gone d _) (fun s => ?_) word s
    rw [BitVec.ofNat_toNat, BitVec.setWidth_eq]
    exact s.evictCopy_gone d (b + w)

theorem State.evictLine_absent {s : State} {b : Nat} (absent : ∀ d w, w < 8 → Cells.find (s.die d).copies (b + w) = none) :
    s.evictLine b = s := by
  have still (l : List Nat) (f : State → Nat → State) (h : ∀ x ∈ l, f s x = s) : l.foldl f s = s := by
    induction l with
    | nil => rfl
    | cons x r ih => rw [List.foldl_cons, h x (List.mem_cons_self ..), ih fun y hy => h y (List.mem_cons_of_mem x hy)]
  refine still _ _ fun d _ => still _ _ fun w hw => State.evictCopy_absent (absent _ w ?_)
  have := (mem_upFrom.mp hw).2
  omega

/-! ### The error -/

/-- The words of a line are poisoned. -/
def State.poisonLine (s : State) (b : Nat) : State :=
  (upFrom 0 8).foldl (fun (s : State) w => { s with poison := poisonSet s.poison (b + w) true }) s

theorem State.poisonLine_eq (s : State) (b : Nat) : ∃ p : Cells Bool, s.poisonLine b = { s with poison := p } ∧
    ∀ w, poisonGet p w = (decide (b ≤ w ∧ w < b + 8) || poisonGet s.poison w) := by
  have marks (k lo : Nat) : ∀ s : State, ∃ p : Cells Bool,
      (upFrom lo k).foldl (fun (s : State) w => { s with poison := poisonSet s.poison (b + w) true }) s = { s with poison := p } ∧
      ∀ w, poisonGet p w = (decide (b + lo ≤ w ∧ w < b + lo + k) || poisonGet s.poison w) := by
    induction k generalizing lo with
    | zero => exact fun s => ⟨_, rfl, fun w => by rw [decide_eq_false (by omega)]; rfl⟩
    | succ k ih =>
      intro s
      obtain ⟨p, eq, get⟩ := ih (lo + 1) { s with poison := poisonSet s.poison (b + lo) true }
      refine ⟨p, eq, fun w => ?_⟩
      rw [get, poisonGet_poisonSet]
      by_cases here : w = b + lo
      · rw [if_pos here, decide_eq_true (show b + lo ≤ w ∧ w < b + lo + (k + 1) by omega), Bool.or_true, Bool.true_or]
      · rw [if_neg here]
        congr 1
        exact decide_eq_decide.mpr (by omega)
  exact marks 8 0 s

/-- A ring of errors of no size counts what it loses. -/
theorem State.machineCheck_lost {s : State} {die : BitVec 4} (none_ : (s.die die).mcsize = 0) (code : Byte) (dom : BitVec 16) (addr : Word)
    (r : Option Region) : s.machineCheck die code dom addr r = s.updDie die fun d => { d with mclost := d.mclost + 1 } :=
  if_pos (.inl none_)

/-- The page that held the line dirty goes home. -/
def State.evictDirty (s : State) (pa : Nat) : State :=
  match s.dirtyFrame pa with
  | some (cl, i, _) => (s.evictFrame cl i).updCluster cl Cluster.sramError
  | none => s

theorem tablesKept_evictDirty (s : State) (pa : Nat) : TablesKept s (s.evictDirty pa) := by
  unfold State.evictDirty
  split
  · exact (tablesKept_evictFrame s _ _).trans (tablesKept_updCluster _ _ _)
  · exact .refl s

theorem exec_evictionError (s : State) (bad : BitVec 52) (dom : BitVec 16) :
    let pa := bad.toNat / 64 * 64
    let line := s.live pa
    ∃ x addr r, exec (.evictionError bad dom) s =
      .next ((((s.evictDirty pa).evictLine (pa / 8)).poisonLine (line / 8)).machineCheck (homeDie line) 0x02 x addr r) :=
  ⟨_, _, _, rfl⟩

/-- An eviction error with nowhere to be noted poisons its line, of which no copy is left, and no other word (R80). -/
theorem evictionError_poisons {s : State} {bad : BitVec 52} (dom : BitVec 16) :
    let pa := bad.toNat / 64 * 64
    let line := s.live pa
    (s.die (homeDie line)).mcsize = 0 →
    ∃ t, exec (.evictionError bad dom) s = .next t ∧
      (∀ w, poisonGet t.poison w = (decide (line / 8 ≤ w ∧ w < line / 8 + 8) ||
        poisonGet ((s.evictDirty pa).evictLine (pa / 8)).poison w)) ∧
      (∀ w, w < 8 → ∀ d, Cells.find (t.die d).copies (pa / 8 + w) = none) ∧
      SameMemory ((s.evictDirty pa).evictLine (pa / 8)) t := by
  intro pa line no_ring
  obtain ⟨x, addr, r, runs⟩ := exec_evictionError s bad dom
  have kept := (tablesKept_evictDirty s pa).trans (recalls_evictLine (s.evictDirty pa) (pa / 8)).tables
  obtain ⟨p, poisoned, marks⟩ := ((s.evictDirty pa).evictLine (pa / 8)).poisonLine_eq (line / 8)
  have gone := (s.evictDirty pa).evictLine_gone (pa / 8)
  generalize (s.evictDirty pa).evictLine (pa / 8) = u at *
  rw [poisoned, State.machineCheck_lost (s := { u with poison := p }) ((kept.mcsize _).trans no_ring)] at runs
  refine ⟨_, runs, marks, fun w h d => ?_, ?_⟩
  · refine Eq.trans ?_ (gone d h)
    by_cases here : d = homeDie line
    · subst here
      rw [State.die_updDie_same]
      rfl
    · rw [State.die_updDie_other _ _ here]
      rfl
  · exact sameMemory_updDie { u with poison := p } _ _ fun _ => rfl

end Sys2Proof.Machine
end

section
/-! ## Invalidations that finish (R358, R389) -/

namespace Sys2Proof.Machine

/-! ### Translations of a range -/

/-- A translation reaches into a range. -/
def TlbEntry.meets (e : TlbEntry) (lo hi : Nat) : Bool :=
  decide (e.page * pageSize e.level < hi) && decide (lo < e.page * pageSize e.level + pageSize e.level)

/-- A die has no translation that reaches into the range. -/
def State.TlbFree (s : State) (lo hi : Nat) (d : BitVec 4) : Prop := ∀ e ∈ (s.die d).tlb, e.meets lo hi = false

theorem TlbEntry.apart {e : TlbEntry} {lo hi : Nat} (h : e.meets lo hi = false) :
    (e.page + 1) * pageSize e.level ≤ lo ∨ hi ≤ e.page * pageSize e.level := by
  rw [TlbEntry.meets, Bool.and_eq_false_iff, decide_eq_false_iff_not, decide_eq_false_iff_not] at h
  rw [Nat.add_mul, Nat.one_mul]
  omega

section
variable (s : State) (die : BitVec 4) (dom : BitVec 16) (lo hi : Nat)

theorem homesOnly_dropTranslations : HomesOnly s (s.dropTranslations die dom lo hi) := by
  unfold State.dropTranslations
  exact (HomesOnly.foldl _ (fun s w => homesOnly_evictCopy s die w) _ s).trans (homesOnly_updDie _ _ _ fun _ => rfl)

theorem State.tlb_dropTranslations (d : BitVec 4) : ((s.dropTranslations die dom lo hi).die d).tlb =
    if d = die then (s.die d).tlb.filter (fun e => !e.meets lo hi) else (s.die d).tlb := by
  have copies := Recalls.foldl (fun s w => recalls_evictCopy s die w)
    (((s.die die).copies.filter fun c => c.2.dom == dom && c.2.named lo hi).map (·.1)) s
  unfold State.dropTranslations
  by_cases here : d = die
  · subst here
    rw [State.die_updDie_same, if_pos rfl, ← copies.tables.tlb d]
    rfl
  · rw [State.die_updDie_other _ _ here, if_neg here, ← copies.tables.tlb d]

theorem State.tlbFree_dropTranslations {d : BitVec 4} (h : d = die ∨ s.TlbFree lo hi d) :
    (s.dropTranslations die dom lo hi).TlbFree lo hi d := by
  intro e there
  rw [State.tlb_dropTranslations] at there
  split at there
  · exact Bool.not_eq_true' _ |>.mp (List.mem_filter.mp there).2
  · next other => exact h.resolve_left other e there

end

/-- The translations of a range go from every die. -/
def State.dropRange (s : State) (dom : BitVec 16) (lo hi : Nat) : State :=
  (upFrom 0 16).foldl (fun (s : State) d => s.dropTranslations (BitVec.ofNat 4 d) dom lo hi) s

theorem homesOnly_dropRange (s : State) (dom : BitVec 16) (lo hi : Nat) : HomesOnly s (s.dropRange dom lo hi) :=
  HomesOnly.foldl _ (fun s _ => homesOnly_dropTranslations s _ dom lo hi) _ s

theorem State.tlbFree_dropRange (s : State) (dom : BitVec 16) (lo hi : Nat) (d : BitVec 4) : (s.dropRange dom lo hi).TlbFree lo hi d := by
  have die : d.toNat ∈ upFrom 0 16 := mem_upFrom.mpr ⟨Nat.zero_le _, by have := d.isLt; omega⟩
  refine foldl_makes (p := fun s : State => s.TlbFree lo hi d) (fun s x free => s.tlbFree_dropTranslations _ _ _ _ (.inr free))
    (fun s => s.tlbFree_dropTranslations _ _ _ _ (.inl ?_)) die s
  rw [BitVec.ofNat_toNat, BitVec.setWidth_eq]

/-! ### Frames of a range, and migrations that end -/

theorem tablesKept_dropFrames (cl : BitVec 14) (dom : BitVec 16) (lo hi : Nat) : ∀ (k : Nat) (s : State),
    TablesKept s (s.dropFrames cl dom lo hi k)
  | 0, s => .refl s
  | k + 1, s => by
    unfold State.dropFrames
    split
    · exact (tablesKept_evictFrame s cl _).trans (tablesKept_dropFrames cl dom lo hi k _)
    · exact .refl s

/-- The copies of a page go home from every die. -/
def State.evictPage (s : State) (page : Nat) : State := (upFrom 0 16).foldl (fun (s : State) d =>
  ((s.die (BitVec.ofNat 4 d)).copies.filter fun c => c.1 / 8192 == page).foldl (fun (s : State) c =>
    s.evictCopy (BitVec.ofNat 4 d) c.1) s) s

theorem recalls_evictPage (s : State) (page : Nat) : Recalls s (s.evictPage page) :=
  Recalls.foldl (fun s _ => Recalls.foldl (fun s _ => recalls_evictCopy s _ _) _ s) _ s

theorem tablesKept_endMigration (s : State) (m : Migration) : TablesKept s (s.endMigration m) := by
  have copies := (recalls_evictPage s m.p).tables
  rw [State.endMigration, ← State.evictPage]
  generalize s.evictPage m.p = u at copies
  exact copies.trans ⟨rfl, rfl, fun _ => rfl, fun _ => rfl⟩

/-- The frames and refills of a range go from every scratchpad. -/
def State.dropPaged (s : State) (dom : BitVec 16) (lo hi : Nat) : State :=
  s.clusters.foldl (fun (s : State) e =>
    (s.dropFrames (BitVec.ofNat 14 e.1) dom lo hi e.2.frames.length).updCluster (BitVec.ofNat 14 e.1) fun k =>
      { k with refills := k.refills.filter fun (r : BitVec 16 × BitVec 44 × Nat) =>
          !(decide (lo ≤ r.2.1.toNat * 4096) && decide (r.2.1.toNat * 4096 < hi)) }) s

theorem tablesKept_dropPaged (s : State) (dom : BitVec 16) (lo hi : Nat) : TablesKept s (s.dropPaged dom lo hi) :=
  tablesKept_foldl (fun s _ => (tablesKept_dropFrames _ dom lo hi _ s).trans (tablesKept_updCluster _ _ _)) _ s

/-- The migrations whose page a walk now finds at its new place, and which have moved every granule, end. -/
def State.endMigrations (s : State) (there : Option Nat) : State :=
  (s.migrations.filter fun (m : Migration) => decide (m.next = 1024) && there == some m.p2).foldl
    (fun (s : State) (m : Migration) => s.endMigration m) s

theorem tablesKept_endMigrations (s : State) (there : Option Nat) : TablesKept s (s.endMigrations there) :=
  tablesKept_foldl (fun s m => tablesKept_endMigration s m) _ s

/-! ### The end of an invalidation -/

/-- With no access to the range under way, there is nothing to settle there. -/
theorem State.settleRange_idle {s : State} {lo hi : Nat} (idle : ∀ x ∈ s.cores, x.2.usesRange lo hi = false) :
    s.settleRange lo hi = s := by
  have still (l : Cells Core) (h : ∀ x ∈ l, x.2.usesRange lo hi = false) (f : State → Nat × Core → State) :
      l.foldl (fun (s : State) e => if e.2.usesRange lo hi then f s e else s) s = s := by
    induction l with
    | nil => rfl
    | cons x r ih =>
      rw [List.foldl_cons, h x (List.mem_cons_self ..)]
      exact ih fun y hy => h y (List.mem_cons_of_mem x hy)
  exact still s.cores idle _

/-- The range of an invalidation, cleared of what translates it. -/
def State.invalidated (s : State) (p : Pginv) (there : Option Nat) : State :=
  ((s.dropRange p.dom p.page (p.page + pageSize p.level)).dropPaged p.dom p.page (p.page + pageSize p.level)).endMigrations there

theorem State.invalidated_tables (s : State) (p : Pginv) (there : Option Nat) :
    (s.invalidated p there).net = s.net ∧ (s.invalidated p there).pginvs = s.pginvs ∧
      ∀ d, (s.invalidated p there).TlbFree p.page (p.page + pageSize p.level) d := by
  have homes := homesOnly_dropRange s p.dom p.page (p.page + pageSize p.level)
  have kept := (tablesKept_dropPaged (s.dropRange p.dom p.page (p.page + pageSize p.level)) p.dom p.page
    (p.page + pageSize p.level)).trans (tablesKept_endMigrations _ there)
  refine ⟨kept.net.trans homes.net, kept.pginvs.trans (by rw [homes.1]), fun d => ?_⟩
  rw [State.TlbFree, State.invalidated, kept.tlb]
  exact s.tlbFree_dropRange p.dom p.page (p.page + pageSize p.level) d

/-- The state in which an invalidation tells its issuer that it has finished. -/
def State.pginvOver (s : State) (p : Pginv) (there : Option Nat) : State :=
  { s.invalidated p there with pginvs := dropAt (s.invalidated p there).pginvs 0 }

theorem State.pginvOver_tables (s : State) (p : Pginv) (there : Option Nat) {ps : List Pginv} (oldest : s.pginvs = p :: ps) :
    (s.pginvOver p there).net = s.net ∧ (s.pginvOver p there).pginvs = ps ∧
      ∀ d, (s.pginvOver p there).TlbFree p.page (p.page + pageSize p.level) d := by
  obtain ⟨net, pginvs, free⟩ := s.invalidated_tables p there
  unfold State.pginvOver
  generalize s.invalidated p there = u at net pginvs free ⊢
  exact ⟨net, by rw [pginvs, oldest]; rfl, free⟩

section
variable {s : State} {n : CoreId} {p : Pginv} {ps : List Pginv} (oldest : s.pginvs = p :: ps) (mine : p.core = n)
  (idle : ∀ x ∈ s.cores, x.2.usesRange p.page (p.page + pageSize p.level) = false)
include oldest mine idle

theorem exec_pginvComplete : ∃ there, exec (.pginvComplete n) s =
    .next ((s.pginvOver p there).postOwn 0x02 7 p.lid p.lid [p.addr] 0) := by
  have first : firstIdx (fun (x : Pginv) => x.core == n) (p :: ps) = some 0 := by
    simp only [firstIdx, mine, BEq.rfl, if_true]
  have none_uses : s.cores.any (fun e => e.2.usesRange p.page (p.page + pageSize p.level)) = false :=
    List.any_eq_false.mpr fun x here => Bool.eq_false_iff.mp (idle x here)
  have translations (lo hi : Nat) : (upFrom 0 16).foldl (fun (s : State) d => s.dropTranslations (BitVec.ofNat 4 d) p.dom lo hi) s =
      s.dropRange p.dom lo hi := rfl
  have pages (t : State) (lo hi : Nat) : t.clusters.foldl (fun (s : State) e =>
      (s.dropFrames (BitVec.ofNat 14 e.1) p.dom lo hi e.2.frames.length).updCluster (BitVec.ofNat 14 e.1) fun k =>
        { k with refills := k.refills.filter fun (r : BitVec 16 × BitVec 44 × Nat) =>
            !(decide (lo ≤ r.2.1.toNat * 4096) && decide (r.2.1.toNat * 4096 < hi)) }) t = t.dropPaged p.dom lo hi := rfl
  have ends (t : State) (there : Option Nat) :
      (t.migrations.filter fun (m : Migration) => decide (m.next = 1024) && there == some m.p2).foldl
        (fun (s : State) (m : Migration) => s.endMigration m) t = t.endMigrations there := rfl
  show ∃ there, execPginvComplete n s = _
  unfold execPginvComplete
  simp only [oldest, first, List.getElem?_cons_zero, State.settleRange_idle idle, none_uses, Bool.false_eq_true, if_false,
    translations, pages, ends]
  exact ⟨_, rfl⟩

/-- An invalidation with no store of its page under way leaves no translation of the page, and tells its issuer (R358). -/
theorem pginvComplete_finishes : ∃ (t : State) (y : Transit) (a : Arr), exec (.pginvComplete n) s = .next t ∧ t.pginvs = ps ∧
    t.net = s.net ++ [y] ∧ y.dst = p.lid ∧ y.cargo = .message a ∧ hdrType a.msg.hdr = 0x02 ∧ hdrPrio a.msg.hdr = 7 ∧
    a.msg.payload = [p.addr] ∧
    ∀ d, ∀ x ∈ (t.die d).tlb, (x.page + 1) * pageSize x.level ≤ p.page ∨ p.page + pageSize p.level ≤ x.page * pageSize x.level := by
  obtain ⟨there, runs⟩ := exec_pginvComplete oldest mine idle
  obtain ⟨net, rest, free⟩ := s.pginvOver_tables p there oldest
  generalize s.pginvOver p there = u at runs net rest free
  exact ⟨_, _, _, runs, rest, congrArg (· ++ [_]) net, rfl, rfl, hdrType_mkHdr _ _ _ _ _ _ (by decide),
    hdrPrio_mkHdr _ _ _ _ _ _ (by decide), rfl, fun d x here => TlbEntry.apart (free d x here)⟩

end

end Sys2Proof.Machine
end

section
/-! ## Granules that move (R396, R397, R402) -/

namespace Sys2Proof.Machine

/-! ### Cells that move -/

/-- Cells from a on move to b, one by one, and leave v behind. -/
def Cells.moved {α : Type} [DecidableEq α] (d v : α) (a b : Nat) (l : List Nat) (m : Cells α) : Cells α :=
  l.foldl (fun m i => Cells.putD d (Cells.putD d m (b + i) (Cells.getD m (a + i) d)) (a + i) v) m

theorem Cells.getD_moved {α : Type} [DecidableEq α] (d v : α) {a b n : Nat} (apart : a + n ≤ b ∨ b + n ≤ a) :
    ∀ (k lo : Nat) (m : Cells α), lo + k ≤ n →
    (∀ i, lo ≤ i → i < lo + k → Cells.getD (Cells.moved d v a b (upFrom lo k) m) (b + i) d = Cells.getD m (a + i) d) ∧
    ∀ c, (c < a + lo ∨ a + lo + k ≤ c) → (c < b + lo ∨ b + lo + k ≤ c) →
      Cells.getD (Cells.moved d v a b (upFrom lo k) m) c d = Cells.getD m c d
  | 0, lo, m, _ => ⟨fun i lower upper => absurd upper (by omega), fun c _ _ => rfl⟩
  | k + 1, lo, m, fits => by
    obtain ⟨inside, outside⟩ := Cells.getD_moved d v apart k (lo + 1)
      (Cells.putD d (Cells.putD d m (b + lo) (Cells.getD m (a + lo) d)) (a + lo) v) (by omega)
    have other (c : Nat) (notA : c ≠ a + lo) (notB : c ≠ b + lo) :
        Cells.getD (Cells.putD d (Cells.putD d m (b + lo) (Cells.getD m (a + lo) d)) (a + lo) v) c d = Cells.getD m c d :=
      (Cells.getD_putD_other d _ v notA).trans (Cells.getD_putD_other d m _ notB)
    refine ⟨fun i lower upper => ?_, fun c outA outB => ?_⟩
    · by_cases here : i = lo
      · subst here
        refine (outside (b + i) (by omega) (by omega)).trans ?_
        exact (Cells.getD_putD_other d _ v (by omega)).trans (Cells.getD_putD_same d m _ _)
      · exact (inside i (by omega) (by omega)).trans (other (a + i) (by omega) (by omega))
    · exact (outside c (by omega) (by omega)).trans (other c (by omega) (by omega))

/-- All of n cells. -/
theorem Cells.getD_moved_all {α : Type} [DecidableEq α] (d v : α) {a b n : Nat} (apart : a + n ≤ b ∨ b + n ≤ a) (m : Cells α) :
    (∀ i, i < n → Cells.getD (Cells.moved d v a b (upFrom 0 n) m) (b + i) d = Cells.getD m (a + i) d) ∧
    ∀ c, (c < a ∨ a + n ≤ c) → (c < b ∨ b + n ≤ c) → Cells.getD (Cells.moved d v a b (upFrom 0 n) m) c d = Cells.getD m c d := by
  obtain ⟨inside, outside⟩ := Cells.getD_moved d v apart n 0 m (by omega)
  exact ⟨fun i h => inside i (Nat.zero_le i) (by omega), fun c outA outB => outside c (by omega) (by omega)⟩

/-! ### A granule -/

/-- The bytes of the granule at a move to b. -/
def State.moveBytes (s : State) (a b : Nat) : State := (upFrom 0 64).foldl (fun (s : State) i =>
  { s with mem := (s.mem.set (b + i) (s.mem.get (a + i))).set (a + i) 0 }) s

/-- The keys of its blocks. -/
def State.moveKeys (s : State) (a b : Nat) : State := (upFrom 0 4).foldl (fun (s : State) i =>
  { s with bkey := Cells.putD 0 (Cells.putD 0 s.bkey (b / 16 + i) (s.rekeyed a b (Cells.getD s.bkey (a / 16 + i) 0)))
                     (a / 16 + i) 0 }) s

/-- The marks of its words. -/
def State.moveMarks (s : State) (a b : Nat) : State := (upFrom 0 8).foldl (fun (s : State) w =>
  { s with fe := feSet (feSet s.fe (b / 8 + w) (feGet s.fe (a / 8 + w))) (a / 8 + w) true
           poison := poisonSet (poisonSet s.poison (b / 8 + w) (poisonGet s.poison (a / 8 + w))) (a / 8 + w) false }) s

theorem State.moveBytes_eq (s : State) (a b : Nat) :
    s.moveBytes a b = { s with mem := Cells.moved Memory.absent 0 a b (upFrom 0 64) s.mem } := by
  have all (l : List Nat) : ∀ s : State,
      l.foldl (fun (s : State) i => { s with mem := (s.mem.set (b + i) (s.mem.get (a + i))).set (a + i) 0 }) s =
        { s with mem := Cells.moved Memory.absent 0 a b l s.mem } := by
    induction l with
    | nil => exact fun _ => rfl
    | cons i r ih => exact fun s => ih _
  exact all _ s

theorem State.moveKeys_eq (s : State) (a b : Nat) : ∃ k, s.moveKeys a b = { s with bkey := k } := by
  have all (f : State → Nat → Cells Nat) (l : List Nat) : ∀ s : State,
      ∃ k, l.foldl (fun (s : State) i => { s with bkey := f s i }) s = { s with bkey := k } := by
    induction l with
    | nil => exact fun s => ⟨s.bkey, rfl⟩
    | cons i r ih => exact fun s => ih { s with bkey := f s i }
  exact all _ _ s

theorem State.moveMarks_eq (s : State) (a b : Nat) :
    s.moveMarks a b = { s with fe := Cells.moved true true (a / 8) (b / 8) (upFrom 0 8) s.fe
                               poison := Cells.moved false false (a / 8) (b / 8) (upFrom 0 8) s.poison } := by
  have all (l : List Nat) : ∀ s : State, l.foldl (fun (s : State) w =>
      { s with fe := feSet (feSet s.fe (b / 8 + w) (feGet s.fe (a / 8 + w))) (a / 8 + w) true
               poison := poisonSet (poisonSet s.poison (b / 8 + w) (poisonGet s.poison (a / 8 + w))) (a / 8 + w) false }) s =
      { s with fe := Cells.moved true true (a / 8) (b / 8) l s.fe, poison := Cells.moved false false (a / 8) (b / 8) l s.poison } := by
    induction l with
    | nil => exact fun _ => rfl
    | cons w r ih => exact fun s => ih _
  exact all _ s

/-- An access that waits for a word of the granule at a waits for it at b. -/
def Mooring.follow (a b : Nat) (m : Mooring) : Mooring :=
  if m.owner.isMem ∧ a / 8 ≤ m.word ∧ m.word < a / 8 + 8 then
    { m with owner := .home (homeDie b), word := b / 8 + (m.word - a / 8) } else m

/-- What a granule that moves leaves of the state in which its bytes, keys and marks have moved: the accesses that wait follow. -/
theorem State.moveGranule_after (s : State) (a b : Nat) :
    let t := (((s.evictLine (a / 8)).moveBytes a b).moveKeys a b).moveMarks a b
    (s.moveGranule a b).mem = t.mem ∧ (s.moveGranule a b).fe = t.fe ∧ (s.moveGranule a b).poison = t.poison ∧
      (s.moveGranule a b).moorings = t.moorings.map (Mooring.follow a b) ∧ (s.moveGranule a b).migrations = t.migrations := by
  rw [State.moveGranule, ← State.evictLine, ← State.moveBytes, ← State.moveKeys, ← State.moveMarks]
  generalize (((s.evictLine (a / 8)).moveBytes a b).moveKeys a b).moveMarks a b = t
  exact ⟨rfl, rfl, rfl, rfl, rfl⟩

theorem State.moveGranule_eq {s : State} {a : Nat} (b : Nat) (absent : ∀ d w, w < 8 → Cells.find (s.die d).copies (a / 8 + w) = none) :
    (s.moveGranule a b).mem = Cells.moved Memory.absent 0 a b (upFrom 0 64) s.mem ∧
    (s.moveGranule a b).fe = Cells.moved true true (a / 8) (b / 8) (upFrom 0 8) s.fe ∧
    (s.moveGranule a b).poison = Cells.moved false false (a / 8) (b / 8) (upFrom 0 8) s.poison ∧
    (s.moveGranule a b).moorings = s.moorings.map (Mooring.follow a b) ∧ (s.moveGranule a b).migrations = s.migrations := by
  obtain ⟨mem, fe, poison, moorings, migrations⟩ := s.moveGranule_after a b
  obtain ⟨k, keys⟩ := (s.moveBytes a b).moveKeys_eq a b
  rw [State.evictLine_absent absent, keys, State.moveMarks_eq, State.moveBytes_eq] at mem fe poison moorings migrations
  dsimp only at mem fe poison moorings migrations
  exact ⟨mem, fe, poison, moorings, migrations⟩

/-- A migration under way moves its next granule, of which no die holds a copy (R396, R397). -/
theorem pageMigration_moves {s : State} {f g : BitVec 24} {mv : Migration}
    (under : s.migrations.find? (fun x => x.p == f.toNat) = some mv) (next : mv.next < 1024) (away : mv.p2 ≠ f.toNat) :
    let src := f.toNat * 65536 + 64 * mv.next
    let dst := mv.p2 * 65536 + 64 * mv.next
    (∀ d w, w < 8 → Cells.find (s.die d).copies (src / 8 + w) = none) →
    ∃ t, exec (.pageMigration f g) s = .next t ∧
      t.migrations = s.migrations.map (fun x => if x.p = f.toNat then { x with next := x.next + 1 } else x) ∧
      (∀ i, i < 64 → t.mem.get (dst + i) = s.mem.get (src + i)) ∧ t.moorings = s.moorings.map (Mooring.follow src dst) ∧
      (∀ a, (a < src ∨ src + 64 ≤ a) → (a < dst ∨ dst + 64 ≤ a) → t.mem.get a = s.mem.get a) ∧
      ∀ w, w < 8 → feGet t.fe (dst / 8 + w) = feGet s.fe (src / 8 + w) ∧
        poisonGet t.poison (dst / 8 + w) = poisonGet s.poison (src / 8 + w) := by
  intro src dst absent
  obtain ⟨mem, fe, poison, moorings, migrations⟩ := State.moveGranule_eq dst absent
  have apart : src + 64 ≤ dst ∨ dst + 64 ≤ src := by omega
  have bytes := Cells.getD_moved_all Memory.absent 0 apart s.mem
  have runs : exec (.pageMigration f g) s = .next { s.moveGranule src dst with
      migrations := (s.moveGranule src dst).migrations.map fun x => if x.p = f.toNat then { x with next := x.next + 1 } else x } := by
    show execPageMigration f g s = _
    unfold execPageMigration
    dsimp only
    rw [under]
    exact if_pos next
  generalize s.moveGranule src dst = u at *
  refine ⟨_, runs, congrArg (List.map _) migrations, fun i h => ?_, moorings, fun a outA outB => ?_, fun w h => ⟨?_, ?_⟩⟩
  · exact (congrArg (fun m : Memory => m.get (dst + i)) mem).trans (bytes.1 i h)
  · exact (congrArg (fun m : Memory => m.get a) mem).trans (bytes.2 a outA outB)
  · exact (congrArg (fun m : Cells Bool => feGet m (dst / 8 + w)) fe).trans
      ((Cells.getD_moved_all true true (by omega) s.fe).1 w h)
  · exact (congrArg (fun m : Cells Bool => poisonGet m (dst / 8 + w)) poison).trans
      ((Cells.getD_moved_all false false (by omega) s.poison).1 w h)

end Sys2Proof.Machine
end

section
/-! ## Events of memory -/

namespace Sys2Proof.Machine

/-- Settles O55: each event by the lemma about it. -/
theorem memoryEvents : Obligations.MemoryEvents := by
  intro s n cl die dom backing pa refills va level e r tag tags place o m ms p ps f g mv bad wait k c home lands line free src dst
  refine ⟨fun asked up room absent => ?_, fun asked gated => exec_pageRefill_gated asked gated, fun cold device walk small => ?_, pageWalk_warm,
    fun gated buffer space mode absent free homed => ?_, fun buffer space mode moved free homed => ?_, acknowledgement_counts,
    fun short => ⟨forwardCredit_frees short, fun oldest waits owner home => ?_⟩, fun oldest mine idle => ?_, fun fresh apart firm => ?_,
    fun under next away absent => ?_, fun no_ring => ?_, icacheParityError_drops s n va⟩
  · exact pageRefill_brings asked up room absent
  · obtain ⟨t, runs, memory, tlb⟩ := pageWalk_keeps cold device walk
    refine ⟨t, _, runs, memory, tlb, rfl, ?_, rfl⟩
    rw [BitVec.toNat_ofNat]
    omega
  · obtain ⟨flight, amo, served, unstuck, size⟩ := free
    have at_ : s.placeOf n e.space e.dom e.va e.pa = .mem e.pa := by rw [space, State.placeOf, absent]; rfl
    have drains := drainOne_home buffer mode at_ flight amo served unstuck homed
    exact ⟨_, exec_gatedReply gated buffer space drains, drained_lands size⟩
  · obtain ⟨flight, amo, served, unstuck, size⟩ := free
    have at_ : s.placeOf n e.space e.dom e.va e.pa = .mem e.pa := by rw [space]; rfl
    have drains := drainOne_home buffer mode at_ flight amo served unstuck homed
    exact ⟨_, exec_oldHomeForward buffer space moved drains, drained_lands size⟩
  · subst owner
    intro full
    have runs := exec_forwardCredit short oldest waits home
    refine ⟨fun holds => runs.trans ?_, fun holds amo plain alone owner whole =>
      forwardCredit_serves short oldest waits home alone owner amo plain whole holds⟩
    rw [if_neg (Bool.eq_false_iff.mp holds)]
  · exact pginvComplete_finishes oldest mine idle
  · have starts := pageMigration_starts fresh apart firm
    exact ⟨fun small => starts.trans (by rw [small]; rfl), fun large => starts.trans (by rw [large]; rfl)⟩
  · obtain ⟨t, runs, migrations, bytes, moorings, beside, marks⟩ := pageMigration_moves (g := g) under next away absent
    refine ⟨t, runs, migrations, bytes, fun here isMem lower upper => ?_, beside, marks⟩
    rw [moorings]
    exact List.mem_map.mpr ⟨wait, here, if_pos ⟨isMem, lower, upper⟩⟩
  · obtain ⟨t, runs, poison, gone, memory⟩ := evictionError_poisons dom no_ring
    have word : bad.toNat / 64 * 64 / 8 = bad.toNat / 64 * 8 := by omega
    rw [word] at poison gone memory
    refine ⟨t, runs, fun w h => ⟨?_, gone w h⟩, fun clean absent => ?_⟩
    · rw [poison, decide_eq_true (by omega), Bool.true_or]
    · have dirty : s.evictDirty (bad.toNat / 64 * 64) = s := by rw [State.evictDirty, clean]
      rw [dirty, State.evictLine_absent absent] at poison memory
      exact ⟨memory, poison⟩

end Sys2Proof.Machine
end
